-- ==== Sys2Proof/Word.lean ====
section
/-! DEFINITION. The word types of the OJ-3210: the byte of exchange memory, the half-word of its
record fields and the 32-bit word of the bus, the position counters and the line clock. -/

namespace Sys2Proof

/-- One byte of exchange memory. -/
abbrev Byte := BitVec 8

/-- A two-byte field of an exchange memory format, a sequence number or a panel number. -/
abbrev Half := BitVec 16

/-- A bus word, a position counter (0.1 mm), the line clock (1 ms), or a detail word. -/
abbrev Word := BitVec 32

end Sys2Proof
end

