-- ==== Sys2Proof/Syntax.lean ====
section
/-! DEFINITION. The commands of the block: one constructor of `Instr` for each row of
spec/opcode_table.json, with the values the outside world hands over with it. The ticket rows
(`nop` … `trimReset`) carry no operand of their own: the walker reads a ticket's fields from
exchange memory at the take (R168, R170). -/

namespace Sys2Proof

/-- The direction of one encoder step (R40). -/
inductive Dir | forward | reverse
  deriving DecidableEq, Repr

/-- The keys of the pendant (R18). -/
inductive Key | take | give | keep | stop | run | hold | warm | cold | thread | jogFwd | jogRev
  deriving DecidableEq, Repr

/-- The counter values a sensor sighting is stamped with (R42). -/
structure Stamp where
  x : Word
  s : Word
  u : Word
  deriving DecidableEq, Repr

/-- WRAP_STATE of a status frame (R20). -/
inductive WrapReport | opened | closed | moving
  deriving DecidableEq, Repr

/-- DRIVE_STATUS of a status frame (R20). -/
inductive DriveStatus | ok | fault (code : Word)
  deriving DecidableEq, Repr

/-- The result of a PRINT_DONE message (R66). -/
inductive PrintResult | ok | fault
  deriving DecidableEq, Repr

/-- The value of an ENGINE_STATE message (R69). -/
inductive EngineState | ready | busy
  deriving DecidableEq, Repr

/-- The quality flag of a READING (R151). -/
inductive Quality | good | bad
  deriving DecidableEq, Repr

/-- Four densities or four density fields, in the order C, M, Y, K. -/
structure Cmyk (α : Type) where
  c : α
  m : α
  y : α
  k : α
  deriving DecidableEq, Repr

/-- The raw values of one tension roll's two load cells (8.1). -/
structure RawPair where
  l : Half
  r : Half
  deriving DecidableEq, Repr

/-- The commands, in the order of spec/opcode_table.json. -/
inductive Instr
  -- host bus: reset, registers and exchange memory
  | powerOnReset
  | start
  | resetLine
  | walkerRestart
  | nudge (value : Word)
  | attnClear (bits : Word)
  | attnMaskWrite (bits : Word)
  | registerWriteIgnored (offset data : Word) (enables : BitVec 4)
  | hostWrite (offset data : Word) (enables : BitVec 4)
  -- the walker and the tickets it takes
  | walkerExamine
  | nop
  | badKind
  | lineCommand
  | authority
  | speedClass
  | sectionClear
  | fabricLoaded
  | profileCommit
  | profileOpen
  | profileClear
  | libraryLock
  | triggerSet
  | triggerGroup
  | triggerCorrect
  | outputSet
  | queuePanels
  | cancelPanels
  | phaseHome
  | heatSetpoint
  | heatTune
  | scanList
  | tensionTune
  | tensionMix
  | autoZero
  | trimReset
  -- pendant port
  | keyTake
  | keyGive
  | keyKeep
  | keyStop
  | keyRun
  | keyHold
  | keyWarm
  | keyCold
  | keyThread
  | keyJogFwd
  | keyJogRev
  | keyUp (key : Key)
  | alive
  | lockedLampExpiry
  | pendantSilent
  -- E-stop input and drive link
  | estopOpen
  | estopClose
  | statusFrame (wrap : WrapReport) (phasePos : Word) (drive : DriveStatus)
  | driveLinkWatchExpiry
  | commandFrame
  -- print link and colour head link
  | printDone (panel : Half) (result : PrintResult)
  | engineState (value : EngineState)
  | reading (xr : Word) (density : Cmyk Half) (quality : Quality)
  -- sensors: `none` is stamped at the command, `some st` was stamped earlier and arrives now
  | fabricMark (stamp : Option Stamp)
  | paperMark (stamp : Option Stamp)
  | fabricSplice (stamp : Option Stamp)
  | paperSplice (stamp : Option Stamp)
  -- encoders
  | drumStep (dir : Dir)
  | printStep (dir : Dir)
  | storeExitStep (dir : Dir)
  -- events of the line clock and of the periodic timers
  | triggerFire (channel : Fin 12)
  | latchPulseEnd (latch : Fin 8)
  | wrapTimeout
  | doseInterval
  | heatInterval
  | heaterWindow
  | heaterOnEnd (zone : Fin 8)
  | scannerConversion (raw : Half)
  | tensionSample (fabricIn fabricOut paperIn paperOut : RawPair)
  | chainLook
  | pictureInterval
  | lineClock
  deriving DecidableEq, Repr

end Sys2Proof
end

