-- ==== Sys2Proof/Decode.lean ====
section
/-! DEFINITION. Decoding a table word. The block has no instruction words: no row of
spec/opcode_table.json gives bits (every row's "fields" is empty and none has "fixed"), so no word
spells a command and the decoder refuses all of them. -/

namespace Sys2Proof

/-- The command that a word of `nbits` bits spells by the table's bits: none, since no row of the
table gives bits. -/
def decodeTableWord (_nbits _w : Nat) : Option Instr := none

end Sys2Proof
end

