-- ==== Sys2Proof/Config.lean ====
section
/-! DEFINITION. The free values: what the manual leaves open and the model does not fix. Each is
an opaque constant, so nothing in Lean can evaluate it and a theorem that mentions it holds for
every value it could have. The assumption log names each (entries 6, 7, 8 and 17). -/

namespace Sys2Proof

/-- FREE VALUE (log 6). The truth value a one-byte flag field stands for when it holds neither
0 nor 1 and the rule that reads it names no refusal for that (FABRIC_LOADED's marks flag, R12). -/
opaque Config.oddFlag : Byte → Bool

/-- FREE VALUE (log 7). The owner's detail of an alarm raised anew at line reset (R9) when several
lost cells or zones hold its condition at once; applied to the state's free-value counter. -/
opaque Config.freeDetail : Nat → Word

/-- FREE VALUE (log 8). Whether the search of R154 still finds a splice record that leaves the
list by R45 at the same step of X; applied to the state's free-value counter. -/
opaque Config.leavingSpliceSeen : Nat → Bool

/-- FREE VALUE (log 17). Which of two tests that one event makes and the manual does not order comes
first: the engine loss test or the print start test at a step of S (R63, R68), the alarm raises or
the run heat test at a heat interval (R6, R109); applied to the state's free-value counter. -/
opaque Config.firstOfTwo : Nat → Bool

end Sys2Proof
end

