-- ==== Sys2Proof/Machine/State.lean ====
section
/-! DEFINITION. The state of the OJ-3210, block by block, as plain data, with its values after
power-on reset. Every structure's docstring names the rule of spec/ that lists the state. -/

namespace Sys2Proof.Machine

/-! ## Reasons a step can stop -/

/-- Reasons to stop with a fault. There is none: the spec gives every command an effect in every
state, so no step of this block faults (safe: nothing is cut short). -/
inductive Fault
  deriving DecidableEq, Repr

/-- Reasons to refuse a command. -/
inductive Refusal
  /-- The command has no meaning yet. Raised only by an arm of `exec` that rejects its command by
  name; safe, since nothing can be proved of what such a command does. No arm does so now. -/
  | notModelled (mnemonic : String)
  deriving DecidableEq, Repr

/-! ## Line mode controller (chapter 1) -/

/-- The seven line states (1.1). -/
inductive LineState | cold | thread | warm | ready | run | hold | halt
  deriving DecidableEq, Repr

/-- The control authority (R13). -/
inductive Authority | remote | remoteLockout | localPendant | localHeld
  deriving DecidableEq, Repr

/-- The jog state (R1, R16). -/
inductive Jog | still | fwd | rev
  deriving DecidableEq, Repr

/-- The eighteen alarms, in the order of the alarm table (R4). -/
inductive Alarm
  | estop | driveFault | driveLinkLost | wrapTimeout | webBreak | storeEmpty
  | zoneOvertemp | heatStarved | zonePairLost | zoneLost | pieceOverflow
  | printEngineLost | storeLow | zoneSensorLost | loadCellLost | skew | phaseLimit | headLost
  deriving DecidableEq, Repr

/-- An alarm record: the latch and whether the owner's condition is active (R1, R5). -/
structure AlarmRec where
  latched : Bool
  active : Bool
  deriving DecidableEq, Repr

/-- The pendant presence (R18). -/
inductive Presence | present | silent
  deriving DecidableEq, Repr

/-- The drive link state (R20). -/
inductive LinkState | up | lost
  deriving DecidableEq, Repr

/-- The state of the line mode controller (R1, R17, R18, R20). -/
structure LineUnit where
  /-- The line state. -/
  state : LineState
  /-- The heat enable (R2). -/
  heat : Bool
  /-- The heat enable at the entry to THREAD (R16). -/
  threadHeat : Bool
  jog : Jog
  auth : Authority
  /-- The speed class, 0..3 (R11). -/
  speedClass : Fin 4
  classLock : Bool
  /-- The loaded fabric class; 0 is no fabric (R12). -/
  fabric : Byte
  marks : Bool
  alarms : Vector AlarmRec 18
  /-- The line clock at the last refused key while the LOCKED lamp is lit (R18). -/
  lockedAt : Option Word
  pendant : Presence
  /-- The line clock at the last pendant message (R18). -/
  pendantAt : Word
  link : LinkState
  /-- The line clock at which the running 50 ms watch expires; absent once it has (R20). -/
  linkWatch : Option Word
  drive : DriveStatus
  /-- The E-stop chain input: whether it stands OPEN (R17). -/
  chainOpen : Bool
  deriving DecidableEq, Repr

/-! ## Profile library (chapter 2) -/

/-- The state of a profile slot (2.1). -/
inductive SlotState | empty | edit | valid
  deriving DecidableEq, Repr

/-- The part-owned fields of a profile slot (R21). -/
structure Slot where
  state : SlotState
  inUse : Nat
  /-- The dose trim, per-mil (R30). -/
  trim : Int
  commits : Half
  deriving DecidableEq, Repr

/-- The state of the profile library (R21). -/
structure Library where
  slots : Vector Slot 16
  lock : Bool
  deriving DecidableEq, Repr

/-! ## Position unit and trigger unit (chapter 3) -/

/-- The web of a splice record (3.3). -/
inductive Web | paper | fabric
  deriving DecidableEq, Repr

/-- A splice record; an absent arrival is PENDING (3.3). -/
structure Splice where
  web : Web
  seen : Word
  arrival : Option Word
  deriving DecidableEq, Repr

/-- The state of the position unit (R39). -/
structure PosUnit where
  x : Word
  phase : Fin 1000
  s : Word
  u : Word
  splices : List Splice
  deriving DecidableEq, Repr

/-- The source counter of a trigger channel (3.4). -/
inductive ChanSource | drum | print
  deriving DecidableEq, Repr

inductive ChanMode | oneShot | delayedOneShot | repeating
  deriving DecidableEq, Repr

inductive ArmSource | unarmed | groupFire | fabricMark | paperMark | fabricSplice
  deriving DecidableEq, Repr

inductive ChanState | idle | armed | counting | fired
  deriving DecidableEq, Repr

/-- A trigger channel (3.4, R46). -/
structure Channel where
  source : ChanSource
  mode : ChanMode
  reload : Nat
  arm : ArmSource
  state : ChanState
  remaining : Nat
  /-- THE MODEL'S OWN (log 10): the channel has already taken the coming forward step of its
  counter, by TRIGGER_FIRE. -/
  ahead : Bool
  deriving DecidableEq, Repr

/-- An output latch (3.6, R54); an absent source is DIRECT. -/
structure Latch where
  source : Option (Fin 12)
  width : Nat
  protect : Bool
  level : Bool
  pulseEnd : Option Word
  deriving DecidableEq, Repr

/-- The state of the trigger unit (R46, R53, R54). -/
structure TrigUnit where
  channels : Vector Channel 12
  latches : Vector Latch 8
  /-- The cut list, up to 4 positions in rising order (R53). -/
  cuts : List Word
  deriving DecidableEq, Repr

/-! ## Order unit (chapter 4) -/

/-- Where a copy of an order is (R57, R74). -/
inductive CopyPlace | waiting | printed | settled | cancelled
  deriving DecidableEq, Repr

/-- The place and the fault count of one copy (R57). -/
structure Copy where
  place : CopyPlace
  faults : Nat
  deriving DecidableEq, Repr

/-- An open order record (R57). Copy k stands at index k − 1. -/
structure OpenOrder where
  ticket : Nat
  profile : Fin 16
  length : Nat
  laneStart : Nat
  laneEnd : Nat
  matched : Bool
  rejectMark : Bool
  cutLast : Bool
  tag : Word
  copies : List Copy
  cancel : Bool
  rejects : Nat
  deriving DecidableEq, Repr

/-- A print order list entry (R58), with the profile slot its order names (R31). -/
structure Entry where
  ticket : Nat
  profile : Fin 16
  next : Nat
  retry : List Nat
  deriving DecidableEq, Repr

/-- The state of a panel record (R61). -/
inductive PanelState | printing | onPaper | staged | onFabric | finished | void
  deriving DecidableEq, Repr

/-- The travel stage of a VOID record (R61). -/
inductive Travel | paper | staged | fabric
  deriving DecidableEq, Repr

/-- A panel verdict (R150, R158). The reason and warning bits are those of the copy summary (10.6). -/
structure Verdict where
  reject : Bool
  reasons : Half
  warnings : Byte
  deviation : Int
  deriving DecidableEq, Repr

/-- A live panel record (R60). -/
structure Panel where
  number : Half
  ticket : Nat
  copy : Nat
  profile : Fin 16
  length : Nat
  laneStart : Nat
  laneEnd : Nat
  matched : Bool
  rejectMark : Bool
  sLead : Word
  state : PanelState
  travel : Option Travel
  retries : Nat
  paperSplice : Bool
  finalVoid : Bool
  -- registration part
  xp : Option Word
  piece : Option Word
  offset : Int
  regError : Option Int
  stretch : Nat
  markMissed : Bool
  phaseLimit : Bool
  fLead : Option Word
  -- dose part
  doseMin : Nat
  doseMax : Nat
  interrupted : Bool
  overheat : Bool
  fabricSplice : Bool
  -- check part
  readings : Nat
  sums : Cmyk Nat
  verdict : Option Verdict
  deriving DecidableEq, Repr

/-- The state of the order unit (chapter 4). The panel table is the list of its live records, in
the order of their creation, of the 64 it can hold (R59). The store level is L = S − U − 60000,
re-formed at each change (R70): it has no storage of its own (`storeLevel`). -/
structure OrderUnit where
  orders : List OpenOrder
  entries : List Entry
  panels : List Panel
  /-- The panel number counter, 1..65535 (R59). -/
  counter : Half
  engine : EngineState
  endMark : Option Word
  deriving DecidableEq, Repr

/-! ## Registration unit (chapter 5) -/

/-- An entry of the fabric piece queue (R77). -/
structure Piece where
  xf : Word
  paired : Bool
  skipped : Bool
  deriving DecidableEq, Repr

/-- The state of the registration unit (R77). -/
structure RegUnit where
  queue : List Piece
  /-- The registration list: panel numbers in rising x_p. -/
  list : List Half
  target : Int
  position : Int
  /-- The measured phase, the last PHASE_POS (R91). -/
  measured : Word
  /-- The ticket slot of a running PHASE_HOME (R92). -/
  home : Option Nat
  limited : Bool
  deriving DecidableEq, Repr

/-! ## Heat unit and sensor scanner (chapter 6) -/

/-- A channel reading record (R96). -/
structure Reading where
  value : Nat
  valid : Bool
  age : Nat
  deriving DecidableEq, Repr

inductive ZoneState | off | heating | settled | cut | lost
  deriving DecidableEq, Repr

/-- A drum zone record with its heater output (R100, R111). -/
structure Zone where
  state : ZoneState
  integral : Int
  power : Nat
  settle : Nat
  used : Nat
  heater : Bool
  onEnd : Option Word
  deriving DecidableEq, Repr

/-- The state of the sensor scanner and the heat unit (R96, R100). -/
structure HeatUnit where
  scan : List (Fin 10)
  shadow : Option (List (Fin 10))
  pass : Nat
  readings : Vector Reading 10
  base : Nat
  offsets : Vector Int 8
  kp : Nat
  ki : Nat
  zones : Vector Zone 8
  deriving DecidableEq, Repr

/-! ## Dose unit (chapter 7) -/

/-- A cell of the wrap (R113); an absent panel is blank. -/
structure WrapCell where
  xc : Word
  panel : Option Half
  dose : Nat
  deriving DecidableEq, Repr

inductive WrapState | opened | closing | closed | opening
  deriving DecidableEq, Repr

inductive WrapCommand | close | opened
  deriving DecidableEq, Repr

/-- The state of the dose unit (R113). The cell queue is written tail first: the newest cell, at
the nip, is the head of the Lean list, and the manual's head, nearest the drum exit, is its last. -/
structure DoseUnit where
  cells : List WrapCell
  wrap : WrapState
  command : WrapCommand
  watch : Option Word
  sTarget : Nat
  /-- The governing panel's number, 0 for none. -/
  governing : Half
  sCmd : Nat
  deriving DecidableEq, Repr

/-! ## Tension unit (chapter 8) -/

/-- A load cell record (R133). -/
structure LoadCell where
  zero : Int
  gain : Nat
  lost : Bool
  run : Nat
  /-- The latest raw value, which R146 reads at the take of an AUTO_ZERO. -/
  raw : Nat
  deriving DecidableEq, Repr

inductive MixMode | both | leftOnly | rightOnly
  deriving DecidableEq, Repr

inductive Side | left | right
  deriving DecidableEq, Repr

inductive DoneMode | cross | meet
  deriving DecidableEq, Repr

/-- A running auto-zero (R146). -/
structure AutoZero where
  ticket : Nat
  step : Nat
  pace : Nat
  mode : DoneMode
  /-- The cells to zero, in order. -/
  cells : List Side
  /-- The cell in work. -/
  work : Side
  savedL : Int
  savedR : Int
  steps : Nat
  paceCount : Nat
  sign : Int
  /-- The steps made on all cells, which the OK detail reports (R147). -/
  total : Nat
  deriving DecidableEq, Repr

/-- A tension zone record (R133). -/
structure TensionZone where
  l : LoadCell
  r : LoadCell
  mix : MixMode
  /-- Zone state LOST; REGULATING otherwise. -/
  lost : Bool
  measured : Nat
  skew : Int
  target : Nat
  working : Nat
  rampStep : Nat
  kp : Nat
  ki : Nat
  integral : Int
  trim : Int
  rampDone : Bool
  breakCount : Nat
  skewCount : Nat
  holdEnd : Option Word
  auto : Option AutoZero
  deriving DecidableEq, Repr

/-- A present taper part (R138). -/
structure Taper where
  taper : Nat
  dc : Nat
  df : Nat
  deriving DecidableEq, Repr

/-- The nip tension copy (R133, R35). -/
structure NipCopy where
  setpoints : Vector Nat 4
  fabricOut : Option Taper
  paperOut : Option Taper
  deriving DecidableEq, Repr

/-- The state of the tension unit (R133). -/
structure TensionUnit where
  zones : Vector TensionZone 4
  nip : Option NipCopy
  heldFabric : Nat
  heldPaper : Nat
  deriving DecidableEq, Repr

/-! ## Ticket walker, memory port and host reporting (chapters 10 and 11) -/

inductive WalkerState | off | running | waiting | full | stalled
  deriving DecidableEq, Repr

inductive WaitKind | link | slot
  deriving DecidableEq, Repr

inductive StallCode | none | sequence | linkRange | linkTaken
  deriving DecidableEq, Repr

/-- An entry of the open chain (R169). -/
structure ChainEntry where
  slot : Nat
  followed : Bool
  deriving DecidableEq, Repr

/-- The state of the ticket walker (R169). -/
structure Walker where
  state : WalkerState
  /-- The look slot, 1..256, or 0 for none. -/
  look : Nat
  fromTicket : Option Nat
  wait : WaitKind
  expected : Half
  outstanding : Nat
  chain : List ChainEntry
  stall : StallCode
  retireSlot : Nat
  retireSeq : Half
  deriving DecidableEq, Repr

/-- The START status of the anchor (R165, R166). The configuration is locked when it is `ok`. -/
inductive StartStatus | never | ok | badField (index : Nat)
  deriving DecidableEq, Repr

/-- The memory port, the line clock and the notice and attention unit (R165, R177, R178, R181,
R35). The picture count lies in the line picture itself (R180), the notices-read count in the
anchor (R178), both in exchange memory. -/
structure HostUnit where
  startStatus : StartStatus
  guardAddress : Word
  clock : Word
  /-- Notices written (R178). -/
  written : Word
  /-- The attention causes, by ATTN bit (R181). -/
  causes : BitVec 6
  mask : BitVec 6
  /-- The nip profile name (R35). -/
  nipName : Vector Byte 16
  deriving DecidableEq, Repr

/-! ## What the part sends -/

/-- A command frame of the drive link (R19). -/
structure Frame where
  speed : Nat
  reverse : Bool
  printSpeed : Nat
  trims : Vector Int 4
  wrap : WrapCommand
  phase : Int
  deriving DecidableEq, Repr

/-- A message the part sends on one of its links. -/
inductive Message
  /-- A drive link command frame (R19). -/
  | frame (f : Frame)
  /-- LAMPS, the set of lit lamps: bit 0 LOCAL, 1 HELD, 2 LOCKOUT, 3 LOCKED, 4 HEAT, 5 RUN,
  6 HOLD, 7 HALT, the order of R18's table. -/
  | lamps (lit : Byte)
  /-- PRINT_START (R64). -/
  | printStart (panel : Half) (length laneStart laneEnd : Nat) (tag : Word)
  deriving DecidableEq, Repr

/-! ## The machine -/

/-- The whole part. -/
structure State where
  /-- Exchange memory, the bytes that are not zero, in rising address order (R163). The part-owned
  profile fields and the part-written anchor fields are not among them: they are read from the
  blocks that hold them (`exchangeByte`). -/
  mem : List Host.Cell
  line : LineUnit
  lib : Library
  pos : PosUnit
  trig : TrigUnit
  ord : OrderUnit
  reg : RegUnit
  heat : HeatUnit
  dose : DoseUnit
  tens : TensionUnit
  /-- The check unit's last reading time (R150); its HEAD_LOST condition is the alarm's active flag. -/
  lastReading : Word
  walker : Walker
  host : HostUnit
  /-- THE MODEL'S OWN (log 11): the messages the part sent during the latest command, oldest first. -/
  sent : List Message
  /-- THE MODEL'S OWN (log 12): how many free values have been drawn. -/
  drawn : Nat
  /-- The commands that wait, first in, first out. -/
  pending : List Instr
  deriving DecidableEq, Repr

/-! ## Power-on reset -/

def LineUnit.reset : LineUnit where
  state := .cold
  heat := false
  threadHeat := false
  jog := .still
  auth := .remote
  speedClass := 0
  classLock := false
  fabric := 0
  marks := false
  alarms := Vector.replicate 18 ⟨false, false⟩
  lockedAt := none
  pendant := .silent
  pendantAt := 0
  link := .up
  linkWatch := some 50
  drive := .ok
  chainOpen := false

def Library.reset : Library where
  slots := Vector.replicate 16 ⟨.empty, 0, 0, 0⟩
  lock := false

def PosUnit.reset : PosUnit where
  x := 0
  phase := 0
  s := 0
  u := 0
  splices := []

/-- A channel at power-on reset (R46); channels differ in their reload count alone. -/
def Channel.reset (reload : Nat) : Channel where
  source := .drum
  mode := .oneShot
  reload := reload
  arm := .unarmed
  state := .idle
  remaining := 0
  ahead := false

/-- Latches 2 to 7 at power-on reset (R54). -/
def Latch.reset : Latch where
  source := none
  width := 100
  protect := false
  level := false
  pulseEnd := none

def TrigUnit.reset : TrigUnit where
  channels := ((Vector.replicate 12 (Channel.reset 1)).set 0 (Channel.reset 3900)).set 1
    (Channel.reset 65535)
  latches := ((Vector.replicate 8 Latch.reset).set 0
    { Latch.reset with source := some 0, width := 150, protect := true }).set 1
    { Latch.reset with source := some 1, width := 80, protect := true }
  cuts := []

def OrderUnit.reset : OrderUnit where
  orders := []
  entries := []
  panels := []
  counter := 1
  engine := .busy
  endMark := none

def RegUnit.reset : RegUnit where
  queue := []
  list := []
  target := 0
  position := 0
  measured := 0
  home := none
  limited := false

def Zone.reset : Zone where
  state := .off
  integral := 0
  power := 0
  settle := 0
  used := 0
  heater := false
  onEnd := none

def HeatUnit.reset : HeatUnit where
  scan := [0, 1, 2, 3, 4, 5, 6, 7, 8, 9]
  shadow := none
  pass := 0
  readings := Vector.replicate 10 ⟨0, false, 255⟩
  base := 1000
  offsets := Vector.replicate 8 0
  kp := 0
  ki := 0
  zones := Vector.replicate 8 Zone.reset

/-- The 30 cells from the tail's start coordinate downwards, blank and undosed (R113, R132). -/
def blankCells (tail : Word) : List WrapCell :=
  (List.range 30).map fun k => { xc := tail - BitVec.ofNat 32 (1000 * k), panel := none, dose := 0 }

def DoseUnit.reset : DoseUnit where
  cells := blankCells 0
  wrap := .opened
  command := .opened
  watch := none
  sTarget := 0
  governing := 0
  sCmd := 0

/-- A load cell at power-on reset (R133); its latest raw value is 0 (DESIGN CHOICE, log 13). -/
def LoadCell.reset : LoadCell where
  zero := 0
  gain := 1024
  lost := false
  run := 0
  raw := 0

def TensionZone.reset : TensionZone where
  l := LoadCell.reset
  r := LoadCell.reset
  mix := .both
  lost := false
  measured := 0
  skew := 0
  target := 0
  working := 0
  rampStep := 8
  kp := 0
  ki := 0
  integral := 0
  trim := 0
  rampDone := true
  breakCount := 0
  skewCount := 0
  holdEnd := none
  auto := none

def TensionUnit.reset : TensionUnit where
  zones := Vector.replicate 4 TensionZone.reset
  nip := none
  heldFabric := 0
  heldPaper := 0

def Walker.reset : Walker where
  state := .off
  look := 0
  fromTicket := none
  wait := .link
  expected := 0
  outstanding := 0
  chain := []
  stall := .none
  retireSlot := 0
  retireSeq := 0

def HostUnit.reset : HostUnit where
  startStatus := .never
  guardAddress := 0xFFFFFFFF
  clock := 0
  written := 0
  causes := 0
  mask := 0x3F
  nipName := Vector.replicate 16 0

/-- The part right after power-on reset with the E-stop chain closed (R1, R21, R39, R46, R53, R54,
R57 to R59, R64, R69, R77, R96, R100, R113, R133, R150, R163, R165, R169, R178, R181). -/
def State.reset : State where
  mem := []
  line := LineUnit.reset
  lib := Library.reset
  pos := PosUnit.reset
  trig := TrigUnit.reset
  ord := OrderUnit.reset
  reg := RegUnit.reset
  heat := HeatUnit.reset
  dose := DoseUnit.reset
  tens := TensionUnit.reset
  lastReading := 0
  walker := Walker.reset
  host := HostUnit.reset
  sent := []
  drawn := 0
  pending := []

end Sys2Proof.Machine
end

