-- ==== Sys2Proof/Machine/Arith.lean ====
section
/-! DEFINITION. The arithmetic conventions of 00_scope.md: signed comparison of positions,
limiting, truncated division (Lean's `Int.tdiv`), and the byte order of exchange memory. -/

namespace Sys2Proof.Machine

/-- The signed 32-bit difference of two positions ("Position counters", 00_scope.md). -/
def sdiff (a b : Word) : Int := (a - b).toInt

/-- "X reaches P" and "X ≥ P": the signed difference is zero or positive. -/
def reached (x p : Word) : Bool := decide (0 ≤ sdiff x p)

/-- x lies in lo ≤ x < lo + len, by signed difference. -/
def inSpan (x lo : Word) (len : Nat) : Bool := reached x lo && !reached x (lo + BitVec.ofNat 32 len)

/-- "Limited to a..b". -/
def limit (lo hi v : Int) : Int := if v < lo then lo else if hi < v then hi else v

/-- "Limited to a..b" for a quantity whose range starts at 0 or above. -/
def limitNat (lo hi : Nat) (v : Int) : Nat := (limit lo hi v).toNat

/-- A saturating sum. -/
def satAdd (top a b : Nat) : Nat := min top (a + b)

/-- An unsigned value as a detail word. -/
def natWord (n : Nat) : Word := BitVec.ofNat 32 n

/-- A signed value as a detail word, in two's complement. -/
def intWord (i : Int) : Word := BitVec.ofInt 32 i

/-- The two bytes of a half-word, the lower at the lower address (10.6: little-endian). -/
def halfBytes (h : Half) : List Byte := [h.extractLsb' 0 8, h.extractLsb' 8 8]

/-- The four bytes of a word, the lowest at the lowest address (10.6: little-endian). -/
def wordBytes (w : Word) : List Byte :=
  [w.extractLsb' 0 8, w.extractLsb' 8 8, w.extractLsb' 16 8, w.extractLsb' 24 8]

/-- A word from its low and its high half. -/
def joinHalves (lo hi : Half) : Word := hi ++ lo

/-- Byte `k` of a word, counted from the least significant. -/
def wordByte (w : Word) (k : Nat) : Byte := w.extractLsb' (8 * k) 8

/-- An unsigned value as the two bytes of a record field. -/
def natHalf (n : Nat) : List Byte := halfBytes (BitVec.ofNat 16 n)

/-- A signed value as the two bytes of a record field, in two's complement. -/
def intHalf (i : Int) : List Byte := halfBytes (BitVec.ofInt 16 i)

/-- One byte of a record field. -/
def natByte (n : Nat) : Byte := BitVec.ofNat 8 n

def boolByte (b : Bool) : Byte := if b then 1 else 0

end Sys2Proof.Machine
end

