-- ==== Sys2Proof/Machine/Memory.lean ====
section
/-! DEFINITION. Exchange memory as a canonical list of bytes: addresses strictly rising, no byte
equal to 0, nothing at or above 0x15000. An unlisted address reads 0, the value power-on reset
gives all of it (R163). -/

namespace Sys2Proof.Machine

/-- Where exchange memory ends (10.1). -/
def memEnd : Nat := 0x15000

/-- The byte of an address; 0 where none is listed (R163: power-on reset zeroes exchange memory). -/
def Memory.get : List Host.Cell → Nat → Byte
  | [], _ => 0
  | (k, b) :: m, a => if a = k then b else Memory.get m a

/-- Insert, replace or (for 0) remove the byte of an address. -/
def Memory.insert : List Host.Cell → Nat → Byte → List Host.Cell
  | [], a, b => if b = 0 then [] else [(a, b)]
  | (k, c) :: m, a, b =>
    if a < k then (if b = 0 then (k, c) :: m else (a, b) :: (k, c) :: m)
    else if a = k then (if b = 0 then m else (a, b) :: m)
    else (k, c) :: Memory.insert m a b

/-- Write one byte; an address outside exchange memory holds nothing. -/
def Memory.put (m : List Host.Cell) (a : Nat) (b : Byte) : List Host.Cell :=
  if a < memEnd then Memory.insert m a b else m

/-- Write consecutive bytes from an address on. -/
def Memory.putAll (m : List Host.Cell) (a : Nat) : List Byte → List Host.Cell
  | [] => m
  | b :: bs => Memory.putAll (Memory.put m a b) (a + 1) bs

/-- A two-byte field (10.6: little-endian). -/
def Memory.half (m : List Host.Cell) (a : Nat) : Half := Memory.get m (a + 1) ++ Memory.get m a

/-- A four-byte field (10.6: little-endian). -/
def Memory.word (m : List Host.Cell) (a : Nat) : Word := Memory.half m (a + 2) ++ Memory.half m a

/-- The canonical form: strictly rising addresses below `memEnd`, no zero byte. -/
def Memory.wfFrom : Nat → List Host.Cell → Bool
  | _, [] => true
  | lo, (k, b) :: m => decide (lo ≤ k) && decide (k < memEnd) && (b != 0) && Memory.wfFrom (k + 1) m

/-- Whether a memory stands in its canonical form. -/
def Memory.wf (m : List Host.Cell) : Bool := Memory.wfFrom 0 m

/-- Write consecutive bytes into the state's exchange memory. -/
def putBytes (a : Nat) (bs : List Byte) (s : State) : State :=
  { s with mem := Memory.putAll s.mem a bs }

end Sys2Proof.Machine
end

