-- ==== Sys2Proof/Machine/Operands.lean ====
section
/-! DEFINITION. The fields the part reads from exchange memory: the anchor configuration (R165),
the profile record (2.2, 10.6) and the ticket header and body (10.6). -/

namespace Sys2Proof.Machine

/-! ## Anchor configuration (R165, places of 10.6) -/

def cfgByte (s : State) (a : Nat) : Nat := (Memory.get s.mem a).toNat
def cfgHalf (s : State) (a : Nat) : Nat := (Memory.half s.mem a).toNat

def vMax (s : State) : Nat := cfgHalf s 0x010
def idleSpeed (s : State) : Nat := cfgHalf s 0x012
def tCut (s : State) : Nat := cfgHalf s 0x014
def skewLimit (s : State) : Nat := cfgHalf s 0x016
def lThread (s : State) : Word := Memory.word s.mem 0x018
def defaultTension (s : State) (z : Fin 4) : Nat := cfgHalf s (0x01C + 2 * z.val)
def ticketLimit (s : State) : Nat := cfgByte s 0x024
def lookCode (s : State) : Nat := cfgByte s 0x025
def chainStart (s : State) : Nat := cfgHalf s 0x026
def firstSequence (s : State) : Half := Memory.half s.mem 0x028
def noticesRead (s : State) : Word := Memory.word s.mem 0x080

/-- The configuration is locked from the accepted START on (R166). -/
def started (s : State) : Bool := s.host.startStatus == .ok

/-- The configuration fields in index order, each with whether it is accepted (R165). -/
def configChecks (s : State) : List (Nat × Bool) :=
  [ (1, decide (100 ≤ vMax s ∧ vMax s ≤ 400)),
    (2, decide (20 ≤ idleSpeed s ∧ idleSpeed s ≤ vMax s)),
    (3, decide (1800 ≤ tCut s ∧ tCut s ≤ 2450)),
    (4, decide ((lThread s).toNat ≤ 120000)),
    (5, decide (defaultTension s 0 ≤ 40000)),
    (6, decide (defaultTension s 1 ≤ 40000)),
    (7, decide (defaultTension s 2 ≤ 40000)),
    (8, decide (defaultTension s 3 ≤ 40000)),
    (9, decide (skewLimit s ≤ 20000)),
    (10, ticketLimit s == 8 || ticketLimit s == 16 || ticketLimit s == 32 || ticketLimit s == 64),
    (11, decide (1 ≤ chainStart s ∧ chainStart s ≤ 256)),
    (12, true),
    (13, decide (lookCode s ≤ 4)) ]

/-- The index of the first entry of a list of checks that fails. -/
def firstFailure (checks : List (Nat × Bool)) : Option Nat :=
  (checks.find? fun c => !c.2).map (·.1)

/-- V_lim = floor(V_MAX × (8 − class) / 8) (R11). -/
def vLim (s : State) : Nat := vMax s * (8 - s.line.speedClass.val) / 8

/-! ## Profile fields (2.2, places of 10.6) -/

/-- Where slot `i` begins: 0x03000, 512 bytes each (chapter 2). -/
def profileBase (i : Fin 16) : Nat := 0x3000 + 512 * i.val

/-- A two-byte profile field. -/
def prof (s : State) (i : Fin 16) (at_ : Nat) : Nat :=
  (Memory.half s.mem (profileBase i + at_)).toNat

def fabricClass (s : State) (i : Fin 16) : Nat := prof s i 0x010
def knotT (s : State) (i : Fin 16) (k : Nat) : Nat := prof s i (0x012 + 2 * k)
def knotR (s : State) (i : Fin 16) (k : Nat) : Nat := prof s i (0x022 + 2 * k)
def dMin (s : State) (i : Fin 16) : Nat := prof s i 0x032
def dTarget (s : State) (i : Fin 16) : Nat := prof s i 0x034
def dMax (s : State) (i : Fin 16) : Nat := prof s i 0x036
def tScorch (s : State) (i : Fin 16) : Nat := prof s i 0x038
def maxSpeed (s : State) (i : Fin 16) : Nat := prof s i 0x03A
def setpoint (s : State) (i : Fin 16) (z : Fin 4) : Nat := prof s i (0x03C + 2 * z.val)
def regTolerance (s : State) (i : Fin 16) : Nat := prof s i 0x054
def checkPresent (s : State) (i : Fin 16) : Bool := prof s i 0x056 == 1
def expected (s : State) (i : Fin 16) (c : Nat) : Nat := prof s i (0x058 + 2 * c)
def tolerance (s : State) (i : Fin 16) (c : Nat) : Nat := prof s i (0x060 + 2 * c)
def driftEnable (s : State) (i : Fin 16) : Bool := prof s i 0x068 == 1

/-- The taper part at an offset of the record; absent when its present flag is 0 (R23). -/
def taperPart (s : State) (i : Fin 16) (at_ : Nat) : Option Taper :=
  if prof s i at_ == 1 then
    some { taper := prof s i (at_ + 2), dc := prof s i (at_ + 4), df := prof s i (at_ + 6) }
  else none

/-- Byte `k` of the name tag. -/
def nameByte (s : State) (i : Fin 16) (k : Nat) : Byte := Memory.get s.mem (profileBase i + k)

/-- The name tag, sixteen characters. -/
def nameTag (s : State) (i : Fin 16) : Vector Byte 16 := Vector.ofFn fun k => nameByte s i k.val

/-- v lies in lo..hi. -/
def within (lo hi v : Nat) : Bool := decide (lo ≤ v) && decide (v ≤ hi)

/-- The checks of one knot row: its own range, then its relation to the knot before (R25). -/
def knotChecks (first lo hi : Nat) (strict : Bool) (f : Nat → Nat) : List (Nat × Bool) :=
  (List.range 8).map fun k =>
    (first + k, within lo hi (f k) &&
      (k == 0 || (if strict then decide (f (k - 1) < f k) else decide (f (k - 1) ≤ f k))))

/-- The checks of a taper part: its flag, then its fields when the flag is 1 (R25). -/
def taperChecks (s : State) (i : Fin 16) (index at_ : Nat) : List (Nat × Bool) :=
  (index, within 0 1 (prof s i at_)) ::
    if prof s i at_ == 1 then
      [ (index + 1, within 0 500 (prof s i (at_ + 2))),
        (index + 2, within 50 1500 (prof s i (at_ + 4))),
        (index + 3, within 50 1500 (prof s i (at_ + 6)) &&
          decide (prof s i (at_ + 4) < prof s i (at_ + 6))) ]
    else []

/-- The host fields of a slot in index order, each with whether validation accepts it (2.2, R25). -/
def profileChecks (s : State) (i : Fin 16) : List (Nat × Bool) :=
  [ (1, (List.range 16).all fun k => within 32 126 (nameByte s i k).toNat),
    (2, within 1 255 (fabricClass s i)) ]
  ++ knotChecks 3 1000 2500 true (knotT s i)
  ++ knotChecks 11 0 1000 false (knotR s i)
  ++ [ (19, within 1 60000 (dMin s i)),
       (20, within 1 60000 (dTarget s i) && decide (dMin s i ≤ dTarget s i)),
       (21, within 1 60000 (dMax s i) && decide (dTarget s i ≤ dMax s i)),
       (22, within 1000 2500 (tScorch s i)),
       (23, within 20 400 (maxSpeed s i)),
       (24, within 0 40000 (setpoint s i 0)),
       (25, within 0 40000 (setpoint s i 1)),
       (26, within 0 40000 (setpoint s i 2)),
       (27, within 0 40000 (setpoint s i 3)) ]
  ++ taperChecks s i 28 0x044
  ++ taperChecks s i 32 0x04C
  ++ [ (36, within 5 200 (regTolerance s i)), (37, within 0 1 (prof s i 0x056)) ]
  ++ (if checkPresent s i then
        (List.range 4).map (fun c => (38 + c, within 0 3000 (expected s i c)))
        ++ (List.range 4).map (fun c => (42 + c, within 1 500 (tolerance s i c)))
        ++ [(46, within 0 1 (prof s i 0x068))]
      else [])

/-- The effective dose target, D_eff (R36). -/
def dEff (s : State) (i : Fin 16) : Int :=
  limit (dMin s i) (dMax s i) ((dTarget s i * (1000 + s.lib.slots[i].trim)) / 1000)

/-! ## Ticket header and body (10.6) -/

/-- Where ticket slot n begins: 0x05000 + (n − 1) × 256 (10.1). -/
def ticketBase (n : Nat) : Nat := 0x5000 + (n - 1) * 256

def ticketByte (s : State) (n at_ : Nat) : Byte := Memory.get s.mem (ticketBase n + at_)
def ticketHalf (s : State) (n at_ : Nat) : Half := Memory.half s.mem (ticketBase n + at_)
def ticketWord (s : State) (n at_ : Nat) : Word := Memory.word s.mem (ticketBase n + at_)

/-- The hand (R168): 0 EMPTY, 1 READY, 2 TAKEN, 3 DONE, 4 REFUSED. -/
def handOf (s : State) (n : Nat) : Byte := ticketByte s n 0x00
def kindOf (s : State) (n : Nat) : Byte := ticketByte s n 0x01
def sequenceOf (s : State) (n : Nat) : Half := ticketHalf s n 0x02
def linkOf (s : State) (n : Nat) : Nat := (ticketHalf s n 0x04).toNat

/-- A one-byte body field. -/
def bodyByte (s : State) (n at_ : Nat) : Nat := (ticketByte s n at_).toNat
/-- A two-byte body field. -/
def bodyHalf (s : State) (n at_ : Nat) : Nat := (ticketHalf s n at_).toNat
/-- A two-byte signed body field. -/
def bodyInt (s : State) (n at_ : Nat) : Int := (ticketHalf s n at_).toInt

end Sys2Proof.Machine
end

