-- ==== Sys2Proof/Machine/Flags.lean ====
section
/-! DEFINITION. Codes, flags and the views the part shows: the enumeration codes of 10.6, the alarm
table (R4), the readiness and run heat tests (R3, R6), the lamps (R18), the command frame (R19), the
attention line (R181) and what a host read returns (R163, R164). -/

namespace Sys2Proof.Machine

/-! ## Codes (10.6) -/

def LineState.code : LineState → Nat
  | .cold => 0 | .thread => 1 | .warm => 2 | .ready => 3 | .run => 4 | .hold => 5 | .halt => 6

def Authority.code : Authority → Nat
  | .remote => 0 | .remoteLockout => 1 | .localPendant => 2 | .localHeld => 3

def WrapState.code : WrapState → Nat
  | .opened => 0 | .closing => 1 | .closed => 2 | .opening => 3

def ZoneState.code : ZoneState → Nat
  | .off => 0 | .heating => 1 | .settled => 2 | .cut => 3 | .lost => 4

def WalkerState.code : WalkerState → Nat
  | .off => 0 | .running => 1 | .waiting => 2 | .full => 3 | .stalled => 4

def StallCode.code : StallCode → Nat
  | .none => 0 | .sequence => 1 | .linkRange => 2 | .linkTaken => 3

/-- The state word of a trigger channel. The formats of 10.6 give it no codes: the order of 3.4's
list is taken (DESIGN CHOICE, log 14). -/
def ChanState.code : ChanState → Nat
  | .idle => 0 | .armed => 1 | .counting => 2 | .fired => 3

def SlotState.code : SlotState → Nat
  | .empty => 0 | .edit => 1 | .valid => 2

def StartStatus.code : StartStatus → Nat
  | .never => 0 | .ok => 1 | .badField _ => 2

def StartStatus.index : StartStatus → Nat
  | .badField i => i | _ => 0

def Web.code : Web → Nat
  | .paper => 0 | .fabric => 1

def Side.code : Side → Nat
  | .left => 0 | .right => 1

def MixMode.code : MixMode → Nat
  | .both => 0 | .leftOnly => 1 | .rightOnly => 2

/-- Ticket result codes (10.6). -/
inductive ResultCode
  | ok | partly | cancelled | trimFailed | aborted
  | badField | state | authority | locked | inUse | profile | fabric | noMarks | busy | badKind
  deriving DecidableEq, Repr

def ResultCode.code : ResultCode → Nat
  | .ok => 0 | .partly => 1 | .cancelled => 2 | .trimFailed => 3 | .aborted => 4
  | .badField => 16 | .state => 17 | .authority => 18 | .locked => 19 | .inUse => 20
  | .profile => 21 | .fabric => 22 | .noMarks => 23 | .busy => 24 | .badKind => 25

/-- The hand a finish writes: DONE for OK, PARTIAL, CANCELLED, TRIM_FAILED and ABORTED, REFUSED for
a refusal (R175). -/
def ResultCode.hand : ResultCode → Byte
  | .ok | .partly | .cancelled | .trimFailed | .aborted => 3
  | _ => 4

/-- Notice kinds (10.6). -/
inductive NoticeKind
  | lineState | authority | alarmRaised | alarmCleared | spliceSeen | spliceDropped
  | pieceSkipped | markStray | pairLimited | markSkipped | cutSkipped | trimLimit | chainStall
  deriving DecidableEq, Repr

def NoticeKind.code : NoticeKind → Nat
  | .lineState => 1 | .authority => 2 | .alarmRaised => 3 | .alarmCleared => 4
  | .spliceSeen => 5 | .spliceDropped => 6 | .pieceSkipped => 7 | .markStray => 8
  | .pairLimited => 9 | .markSkipped => 10 | .cutSkipped => 11 | .trimLimit => 12
  | .chainStall => 13

/-- The cause of a LINE_STATE notice (R1, R179). -/
inductive LineCause
  | command | pendant | readiness | request (a : Alarm) | stopKey | haltClear | reset
  deriving DecidableEq, Repr

/-- The attention causes (R181). -/
inductive Cause | ticket | notice | chain | guard | halt | start
  deriving DecidableEq, Repr

def Cause.bit : Cause → Nat
  | .ticket => 0 | .notice => 1 | .chain => 2 | .guard => 3 | .halt => 4 | .start => 5

/-! ## The alarm table (R4) -/

def Alarm.all : List Alarm :=
  [.estop, .driveFault, .driveLinkLost, .wrapTimeout, .webBreak, .storeEmpty, .zoneOvertemp,
   .heatStarved, .zonePairLost, .zoneLost, .pieceOverflow, .printEngineLost, .storeLow,
   .zoneSensorLost, .loadCellLost, .skew, .phaseLimit, .headLost]

/-- An alarm's row of the table, counted from 0. -/
def Alarm.idx : Alarm → Fin 18
  | .estop => 0 | .driveFault => 1 | .driveLinkLost => 2 | .wrapTimeout => 3 | .webBreak => 4
  | .storeEmpty => 5 | .zoneOvertemp => 6 | .heatStarved => 7 | .zonePairLost => 8
  | .zoneLost => 9 | .pieceOverflow => 10 | .printEngineLost => 11 | .storeLow => 12
  | .zoneSensorLost => 13 | .loadCellLost => 14 | .skew => 15 | .phaseLimit => 16
  | .headLost => 17

/-- The alarm number, 1 for ESTOP to 18 for HEAD_LOST (10.6). -/
def Alarm.number (a : Alarm) : Nat := a.idx.val + 1

/-- The line request of an alarm (R4). -/
inductive LineRequest | nothing | hold | halt
  deriving DecidableEq, Repr

def Alarm.request : Alarm → LineRequest
  | .estop | .driveFault | .driveLinkLost | .wrapTimeout | .webBreak | .storeEmpty => .halt
  | .zoneOvertemp | .heatStarved | .zonePairLost | .zoneLost | .pieceOverflow
  | .printEngineLost | .storeLow => .hold
  | .zoneSensorLost | .loadCellLost | .skew | .phaseLimit | .headLost => .nothing

/-- The section of an alarm as the bit of SECTION_CLEAR's set: 0 LINE, 1 HEAT, 2 TENSION,
3 REGISTRATION, 4 ORDER, 5 CHECK, 6 TRIGGER (R4, 10.6). -/
def Alarm.section_ : Alarm → Nat
  | .estop | .driveFault | .driveLinkLost | .wrapTimeout => 0
  | .zoneOvertemp | .heatStarved | .zonePairLost | .zoneSensorLost => 1
  | .webBreak | .zoneLost | .loadCellLost | .skew => 2
  | .pieceOverflow | .phaseLimit => 3
  | .storeEmpty | .printEngineLost | .storeLow => 4
  | .headLost => 5

def alarmRec (s : State) (a : Alarm) : AlarmRec := s.line.alarms[a.idx]
def latched (s : State) (a : Alarm) : Bool := (alarmRec s a).latched
def conditionActive (s : State) (a : Alarm) : Bool := (alarmRec s a).active

/-- Whether any HALT cause is latched (R4). -/
def haltCauseLatched (s : State) : Bool := Alarm.all.any fun a => a.request == .halt && latched s a

/-- Whether any HOLD cause is latched (R4). -/
def holdCauseLatched (s : State) : Bool := Alarm.all.any fun a => a.request == .hold && latched s a

/-! ## Tests on the line state -/

/-- The readiness test (R3). -/
def readyTest (s : State) : Bool :=
  s.heat.zones.all (fun z => z.state == .settled)
  && s.tens.zones.all (fun z => z.rampDone)
  && !holdCauseLatched s && !haltCauseLatched s
  && s.ord.engine == .ready
  && decide (-20 ≤ s.reg.position - s.reg.target ∧ s.reg.position - s.reg.target ≤ 20)

/-- The run heat test: no drum zone in HEATING or OFF (R6). -/
def runHeatTest (s : State) : Bool :=
  s.heat.zones.all fun z => z.state != .heating && z.state != .off

/-- The store level L = S − U − 60000, signed (R70). -/
def storeLevel (s : State) : Int := sdiff (s.pos.s - s.pos.u) 60000

/-- The print drive speed (R71). -/
def printSpeed (s : State) : Nat :=
  min 400 (if storeLevel s < 60000 then s.dose.sCmd * 12 / 10 else s.dose.sCmd)

/-! ## What the part shows -/

/-- The set of lit lamps, in the order of R18's table. -/
def lampSet (s : State) : Byte :=
  BitVec.ofNat 8
    ((if s.line.auth = .localPendant ∨ s.line.auth = .localHeld then 1 else 0)
    + (if s.line.auth = .localHeld then 2 else 0)
    + (if s.line.auth = .remoteLockout then 4 else 0)
    + (if s.line.lockedAt.isSome then 8 else 0)
    + (if s.line.heat then 16 else 0)
    + (if s.line.state = .run then 32 else 0)
    + (if s.line.state = .hold then 64 else 0)
    + (if s.line.state = .halt then 128 else 0))

/-- The drive link's command frame: the present value of each message (R19). -/
def frameOf (s : State) : Frame where
  speed := s.dose.sCmd
  reverse := s.line.state == .thread && s.line.jog == .rev
  printSpeed := printSpeed s
  trims := s.tens.zones.map fun z => z.trim
  wrap := s.dose.command
  phase := s.reg.position

/-- The attention line: asserted while any cause is set and unmasked (R181). -/
def attentionLine (s : State) : Bool := (s.host.causes &&& s.host.mask) != 0

/-- Whether an attention cause is set. -/
def causeSet (s : State) (c : Cause) : Bool := s.host.causes.getLsbD c.bit

/-- The anchor words the part writes: identification, START status, walker, counts, guard address
and line clock (R165, places of 10.6). -/
def anchorWords (s : State) : List (Nat × Word) :=
  [ (0x000, joinHalves 0x0C4D 0x3210),
    (0x004, joinHalves 1 0),
    (0x040, joinHalves (BitVec.ofNat 16 s.host.startStatus.code)
      (BitVec.ofNat 16 s.host.startStatus.index)),
    (0x044, joinHalves (natByte s.walker.stall.code ++ natByte s.walker.state.code)
      (BitVec.ofNat 16 s.walker.outstanding)),
    (0x048, joinHalves (BitVec.ofNat 16 s.walker.look) s.walker.expected),
    (0x04C, joinHalves (BitVec.ofNat 16 s.walker.retireSlot) s.walker.retireSeq),
    (0x050, s.host.written),
    (0x054, s.host.guardAddress),
    (0x058, s.host.clock) ]

/-- The part-owned words of a profile slot by their offset in the slot; 0x1F8 and 0x1FC hold none
of its fields and read 0 (10.6). -/
def slotWord (s : State) (i : Fin 16) (at_ : Nat) : Word :=
  if at_ = 0x1F0 then
    joinHalves (BitVec.ofNat 16 s.lib.slots[i].state.code) (BitVec.ofNat 16 s.lib.slots[i].inUse)
  else if at_ = 0x1F4 then
    joinHalves (BitVec.ofInt 16 s.lib.slots[i].trim) s.lib.slots[i].commits
  else 0

/-- The profile slot that a word of the library lies in. -/
def slotAt (a : Nat) : Fin 16 := Fin.ofNat 16 ((a - 0x3000) / 512)

/-- A word of exchange memory as the host reads it, at a word-aligned address (R163, R165, R22). -/
def exchangeWord (s : State) (a : Nat) : Word :=
  if memEnd ≤ a then 0
  else if 0x3000 ≤ a ∧ a < 0x5000 ∧ 0x1F0 ≤ (a - 0x3000) % 512 then
    slotWord s (slotAt a) ((a - 0x3000) % 512)
  else match (anchorWords s).lookup a with
    | some w => w
    | none => Memory.word s.mem a

/-- What a host read of the window returns; the two low bits of the offset are not looked at
(R163, R164). -/
def hostRead (s : State) (offset : Word) : Word :=
  let a := offset.toNat - offset.toNat % 4
  if a < memEnd then exchangeWord s a
  else if a = 0x18008 then s.host.causes.setWidth 32
  else if a = 0x1800C then s.host.mask.setWidth 32
  else 0

end Sys2Proof.Machine
end

