-- ==== Sys2Proof/Machine/Ops.lean ====
section
/-! DEFINITION. The named operations every chapter uses: attention causes, notices, messages sent,
alarm conditions, profile slot counts, panel records, the finish of a ticket, the retire mark and
the walker's moving on. -/

namespace Sys2Proof.Machine

/-! ## Reporting (R178, R181) -/

/-- Raise an attention cause (R181). -/
def raiseCause (c : Cause) (s : State) : State :=
  { s with host := { s.host with causes := s.host.causes ||| (1#6 <<< c.bit) } }

/-- The 28 named bytes of a notice written in state `s`; the entry's last word is unused and reads 0
(R178, 10.6). -/
def noticeBytes (k : NoticeKind) (d1 d2 d3 : Word) (s : State) : List Byte :=
  wordBytes s.host.written ++ natHalf k.code ++ [natByte s.line.state.code, 0]
  ++ wordBytes s.pos.x ++ wordBytes s.host.clock ++ wordBytes d1 ++ wordBytes d2 ++ wordBytes d3

/-- Where the next notice is written: the ring of 256 entries at 0x01000 (11.1). -/
def noticeAt (s : State) : Nat := 0x1000 + 32 * (s.host.written.toNat % 256)

/-- Raise notices written by one (R178). -/
def countNotice (s : State) : State :=
  { s with host := { s.host with written := s.host.written + 1 } }

/-- Write a notice (R178, R179). -/
def writeNotice (k : NoticeKind) (d1 d2 d3 : Word) (s : State) : State :=
  raiseCause .notice (countNotice (putBytes (noticeAt s) (noticeBytes k d1 d2 d3 s) s))

/-- Put a message on its link. -/
def send (m : Message) (s : State) : State := { s with sent := s.sent ++ [m] }

/-! ## Alarm records (R5) -/

/-- Rewrite one alarm record. -/
def setAlarm (a : Alarm) (r : AlarmRec) (s : State) : State :=
  { s with line := { s.line with alarms := s.line.alarms.set a.idx r } }

/-- The owner's end of an alarm's condition: not active, the latch stays, no notice (R5). -/
def endCondition (a : Alarm) (s : State) : State :=
  setAlarm a { alarmRec s a with active := false } s

/-- Remove an alarm's latch, with its ALARM_CLEARED notice; `how` is 1 SECTION_CLEAR, 2 RESET
(R5, R179). -/
def removeLatch (how : Word) (a : Alarm) (s : State) : State :=
  writeNotice .alarmCleared (natWord a.number) how 0
    (setAlarm a { alarmRec s a with latched := false } s)

/-- A refused key: the LOCKED lamp's 2000 ms start (R18). -/
def lightLocked (s : State) : State :=
  { s with line := { s.line with lockedAt := some s.host.clock } }

/-! ## Profile slots (R30, R31) -/

/-- Rewrite one slot's part-owned fields. -/
def updSlot (i : Fin 16) (f : Slot → Slot) (s : State) : State :=
  { s with lib := { s.lib with slots := s.lib.slots.set i (f s.lib.slots[i]) } }

/-- An entry or a record now names the slot (R31). -/
def useSlot (i : Fin 16) (s : State) : State := updSlot i (fun c => { c with inUse := c.inUse + 1 }) s

/-- An entry or a record that named the slot is gone (R31). -/
def releaseSlot (i : Fin 16) (s : State) : State :=
  updSlot i (fun c => { c with inUse := c.inUse - 1 }) s

/-- Write a slot's dose trim (R30). -/
def setTrim (i : Fin 16) (t : Int) (s : State) : State := updSlot i (fun c => { c with trim := t }) s

/-! ## Panel records (R59, R60) -/

/-- The live record that holds a number (R59). -/
def findPanel (n : Half) (s : State) : Option Panel := s.ord.panels.find? fun p => p.number == n

/-- Rewrite the panel table record by record. -/
def mapPanels (f : Panel → Panel) (s : State) : State :=
  { s with ord := { s.ord with panels := s.ord.panels.map f } }

/-- Rewrite the live record that holds a number. -/
def updPanel (n : Half) (f : Panel → Panel) (s : State) : State :=
  mapPanels (fun p => if p.number = n then f p else p) s

/-- The open order record of a ticket slot (R57). -/
def findOrder (t : Nat) (s : State) : Option OpenOrder := s.ord.orders.find? fun o => o.ticket == t

/-- Rewrite the open order record of a ticket slot. -/
def updOrder (t : Nat) (f : OpenOrder → OpenOrder) (s : State) : State :=
  { s with ord := { s.ord with orders := s.ord.orders.map fun o => if o.ticket = t then f o else o } }

/-! ## The walker (R170 to R176) -/

/-- Whether a slot's hand shows a finished ticket, DONE or REFUSED (R168). -/
def handFinished (h : Byte) : Bool := h == 3 || h == 4

/-- The open chain and the retire mark once every finished and followed ticket at the chain's head
has left it (R176). -/
def retireChain (s : State) : List ChainEntry → Nat → Half → List ChainEntry × Nat × Half
  | [], n, q => ([], n, q)
  | e :: es, n, q =>
    if e.followed && handFinished (handOf s e.slot) then
      retireChain s es e.slot (sequenceOf s e.slot)
    else (e :: es, n, q)

/-- Advance the retire mark (R176). -/
def retire (s : State) : State :=
  let r := retireChain s s.walker.chain s.walker.retireSlot s.walker.retireSeq
  { s with walker := { s.walker with chain := r.1, retireSlot := r.2.1, retireSeq := r.2.2 } }

/-- The walker stalls: its code, the CHAIN cause and a CHAIN_STALL notice (R174). It keeps its look slot:
R171 names none for a stall on a link (log 47). -/
def stallWalker (code : StallCode) (offending : Word) (s : State) : State :=
  writeNotice .chainStall (natWord code.code) (natWord (s.walker.fromTicket.getD 0)) offending
    (raiseCause .chain
      { s with walker := { s.walker with state := .stalled, stall := code } })

/-- The walker waits (R170, R171). -/
def waitWalker (kind : WaitKind) (look : Nat) (s : State) : State :=
  { s with walker := { s.walker with state := .waiting, wait := kind, look := look } }

/-- The walker is RUNNING with a slot to examine. -/
def runWalker (look : Nat) (s : State) : State :=
  { s with walker := { s.walker with state := .running, look := look } }

/-- Set the followed flag of a slot of the open chain (R171). -/
def markFollowed (n : Nat) (s : State) : State :=
  { s with walker := { s.walker with
      chain := s.walker.chain.map fun e => if e.slot = n then { e with followed := true } else e } }

/-- Whether the open chain holds a slot: a taken, unretired ticket (R168, R169). -/
def inChain (s : State) (n : Nat) : Bool := s.walker.chain.any fun e => e.slot == n

/-- Moving on: read the from ticket's link and wait, stall or follow it (R171). -/
def moveOn (s : State) : State :=
  match s.walker.fromTicket with
  | none => s
  | some f =>
    if linkOf s f = 0 then waitWalker .link 0 s
    else if 256 < linkOf s f then stallWalker .linkRange (natWord (linkOf s f)) s
    else if inChain s (linkOf s f) then stallWalker .linkTaken (natWord (linkOf s f)) s
    else runWalker (linkOf s f) (retire (markFollowed f s))

/-- Write the part's half of a ticket header at a finish: result code, detail, finish X, finish
line clock and hand (R175, 10.6). -/
def writeFinish (n : Nat) (code : ResultCode) (detail : Word) (s : State) : State :=
  putBytes (ticketBase n) [code.hand]
    (putBytes (ticketBase n + 0x0C) (wordBytes detail ++ wordBytes s.pos.x ++ wordBytes s.host.clock)
      (putBytes (ticketBase n + 0x08) (natHalf code.code) s))

/-- What a finish reports: the header fields and the TICKET cause (R175). -/
def reportFinish (n : Nat) (code : ResultCode) (detail : Word) (s : State) : State :=
  raiseCause .ticket (writeFinish n code detail s)

/-- The finish of an immediate ticket (R175, R176). -/
def finishTicket (n : Nat) (code : ResultCode) (detail : Word) (s : State) : State :=
  retire (reportFinish n code detail s)

/-- The outstanding count falls by one (R173). -/
def lowerCount (s : State) : State :=
  { s with walker := { s.walker with outstanding := s.walker.outstanding - 1 } }

/-- A FULL walker moves on; any other is left as it is (R173). -/
def resumeFull (s : State) : State := if s.walker.state = .full then moveOn s else s

/-- The finish of a long ticket: the outstanding count falls, a FULL walker moves on, and the retire
mark then advances (R167, R173, R175, R176; log 15). -/
def finishLong (n : Nat) (code : ResultCode) (detail : Word) (s : State) : State :=
  retire (resumeFull (lowerCount (reportFinish n code detail s)))

/-- An accepted long ticket: the outstanding count rises by one (R170). -/
def raiseCount (s : State) : State :=
  { s with walker := { s.walker with outstanding := s.walker.outstanding + 1 } }

/-- A refusal at the take (R175). -/
def refuseTicket (n : Nat) (code : ResultCode) (detail : Word) (s : State) : State :=
  finishTicket n code detail s

/-- Draw a free value: the counter that the opaque constants of Config are applied to moves on. -/
def draw (s : State) : State := { s with drawn := s.drawn + 1 }

end Sys2Proof.Machine
end

