-- ==== Sys2Proof/Machine/Orders.lean ====
section
/-! DEFINITION. The order unit's shared operations: copy summaries, the finish of an order, the
print order list, the print start and the print fault (chapter 4). -/

namespace Sys2Proof.Machine

/-! ## Copy summaries and the finish of an order (R75) -/

/-- A copy summary, 16 bytes (10.6). -/
def summaryBytes (panel outcome : Nat) (warnings : Byte) (reasons : Half) (doseMin doseMax : Nat)
    (err : Int) (stretch : Nat) (deviation : Int) : List Byte :=
  natHalf panel ++ [natByte outcome, warnings] ++ halfBytes reasons ++ natHalf doseMin
  ++ natHalf doseMax ++ intHalf err ++ natHalf stretch ++ intHalf deviation

/-- Where the summary of copy k of a ticket lies: result offset (k − 1) × 16 (10.6). -/
def summaryAt (t k : Nat) : Nat := ticketBase t + 0x80 + (k - 1) * 16

/-- The summary of a cancelled copy (R75). -/
def cancelledSummary : List Byte := summaryBytes 0 3 0 0 0 0 (-32768) 0 0

/-- Write the summaries of the listed copies as CANCELLED. -/
def writeCancelled (t : Nat) (ks : List Nat) (s : State) : State :=
  ks.foldl (fun s k => putBytes (summaryAt t k) cancelledSummary s) s

/-- Rewrite copy k of an order. -/
def OpenOrder.setCopy (o : OpenOrder) (k : Nat) (f : Copy → Copy) : OpenOrder :=
  { o with copies := o.copies.modify (k - 1) f }

/-- Whether a copy stands WAITING or PRINTED. -/
def Copy.unsettled (c : Copy) : Bool := c.place == .waiting || c.place == .printed

/-- Whether any copy of the order stands WAITING or PRINTED (R74). -/
def OpenOrder.unsettled (o : OpenOrder) : Bool := o.copies.any Copy.unsettled

/-- The result code of a finished order (R75). -/
def OpenOrder.code (o : OpenOrder) : ResultCode :=
  if o.copies.all (fun c => c.place == .settled) then .ok
  else if o.copies.all (fun c => c.place == .cancelled) then .cancelled
  else .partly

/-- The indices, counted from 1, of the copies that satisfy a test. -/
def OpenOrder.copiesWhere (o : OpenOrder) (p : Copy → Bool) : List Nat :=
  (List.range o.copies.length).filterMap fun k =>
    if (o.copies[k]?.map p).getD false then some (k + 1) else none

/-- Remove an open order record. -/
def removeOrder (t : Nat) (s : State) : State :=
  { s with ord := { s.ord with orders := s.ord.orders.filter fun o => o.ticket != t } }

/-- Finish the order of a ticket if no copy of it is WAITING or PRINTED (R74, R75). -/
def finishIfSettled (t : Nat) (s : State) : State :=
  match findOrder t s with
  | none => s
  | some o =>
    if o.unsettled then s else finishLong t o.code (natWord o.rejects) (removeOrder t s)

/-! ## The print order list (R58) -/

def setEntries (es : List Entry) (s : State) : State := { s with ord := { s.ord with entries := es } }

/-- The list entry of a ticket. -/
def findEntry (t : Nat) (s : State) : Option Entry := s.ord.entries.find? fun e => e.ticket == t

/-- The list without a ticket's entry. -/
def entriesWithout (t : Nat) (s : State) : List Entry := s.ord.entries.eraseP fun e => e.ticket == t

/-- An entry joins the list at the tail, and its slot's in-use count rises (R57, R31). -/
def appendEntry (e : Entry) (s : State) : State :=
  useSlot e.profile (setEntries (s.ord.entries ++ [e]) s)

/-- An entry joins the list at the front, and its slot's in-use count rises (R67, R31). -/
def insertFront (e : Entry) (s : State) : State :=
  useSlot e.profile (setEntries (e :: s.ord.entries) s)

/-- A ticket's entry leaves the list, and its slot's in-use count falls (R58, R31). -/
def dropEntry (t : Nat) (s : State) : State :=
  match findEntry t s with
  | none => s
  | some e => releaseSlot e.profile (setEntries (entriesWithout t s) s)

/-! ## Print start (R63, R64) -/

/-- The panel number after `c`, 65535 going to 1 (R59). -/
def nextNumber (c : Half) : Half := if c = 65535 then 1 else c + 1

/-- The first number from `c` on that no live record holds; `k` bounds the search (R59). -/
def freeNumber (live : List Half) : Nat → Half → Half
  | 0, c => c
  | k + 1, c => if live.contains c then freeNumber live k (nextNumber c) else c

/-- The number the next record takes: the counter, raised past every number a live record holds. -/
def numberTaken (s : State) : Half :=
  freeNumber (s.ord.panels.map (·.number)) s.ord.panels.length s.ord.counter

/-- The print start conditions (R63). -/
def printReady (s : State) : Bool :=
  s.line.state == .run && s.dose.wrap == .closed && !s.ord.entries.isEmpty
  && decide (s.ord.panels.length < 64) && s.ord.engine == .ready
  && (match s.ord.endMark with
      | none => true
      | some m => reached s.pos.s (m + 500))

/-- The copy a print start takes from an entry: the head of the retry queue, else the next copy. -/
def Entry.copy (e : Entry) : Nat := e.retry.headD e.next

/-- The entry once that copy is taken. -/
def Entry.taken (e : Entry) : Entry :=
  if e.retry.isEmpty then { e with next := e.next + 1 } else { e with retry := e.retry.tail }

/-- Whether the entry has no copy left to print (R58). -/
def Entry.exhausted (e : Entry) (copies : Nat) : Bool := e.retry.isEmpty && decide (copies < e.next)

/-- A panel record at its start values, for the copy an entry of order `o` gives. The profile slot is
the entry's, which is its order's (R31, R60; log 18). -/
def newPanel (number : Half) (o : OpenOrder) (e : Entry) (sLead : Word) : Panel where
  number := number
  ticket := o.ticket
  copy := e.copy
  profile := e.profile
  length := o.length
  laneStart := o.laneStart
  laneEnd := o.laneEnd
  matched := o.matched
  rejectMark := o.rejectMark
  sLead := sLead
  state := .printing
  travel := none
  retries := (o.copies[e.copy - 1]?.map (·.faults)).getD 0
  paperSplice := false
  finalVoid := false
  xp := none
  piece := none
  offset := 0
  regError := none
  stretch := 0
  markMissed := false
  phaseLimit := false
  fLead := none
  doseMin := 65535
  doseMax := 0
  interrupted := false
  overheat := false
  fabricSplice := false
  readings := 0
  sums := ⟨0, 0, 0, 0⟩
  verdict := none

/-- Create a record: it joins the panel table, the counter moves on and the slot's in-use count
rises (R59, R64 step 2). -/
def createPanel (p : Panel) (s : State) : State :=
  useSlot p.profile
    { s with ord := { s.ord with
        panels := s.ord.panels ++ [p], counter := nextNumber p.number } }

def setEndMark (m : Option Word) (s : State) : State := { s with ord := { s.ord with endMark := m } }

/-- Make one print start for the front entry `e` and its order `o` (R64). -/
def startPrintOf (e : Entry) (rest : List Entry) (o : OpenOrder) (s : State) : State :=
  let n := numberTaken s
  let s1 := createPanel (newPanel n o e s.pos.s) (setEntries (e.taken :: rest) s)
  let s2 := updOrder o.ticket (fun o => o.setCopy e.copy fun c => { c with place := .printed }) s1
  let s3 := setEndMark (some (s.pos.s + BitVec.ofNat 32 o.length)) s2
  let s4 := send (.printStart n o.length o.laneStart o.laneEnd o.tag) s3
  if e.taken.exhausted o.copies.length then releaseSlot e.profile (setEntries rest s4) else s4

/-- Make one print start from the front entry (R64). -/
def startPrint (s : State) : State :=
  match s.ord.entries with
  | [] => s
  | e :: rest =>
    match findOrder e.ticket s with
    | none => s
    | some o => startPrintOf e rest o s

/-- The print start test: one start when the conditions are met (R63). -/
def printTest (s : State) : State := if printReady s then startPrint s else s

/-! ## Freeing a record, settling a copy, a print fault -/

/-- Remove a record from the panel table and lower its slot's in-use count (R62, R31). -/
def removePanel (n : Half) (s : State) : State :=
  match findPanel n s with
  | none => s
  | some p =>
    releaseSlot p.profile
      { s with ord := { s.ord with panels := s.ord.panels.eraseP fun q => q.number == n } }

/-- Free a record (R62); the print start conditions are tested at each freeing (R63). -/
def freePanel (n : Half) (s : State) : State := printTest (removePanel n s)

/-- Write the summary of a verdict (R75, R161). -/
def writeVerdictSummary (p : Panel) (v : Verdict) (s : State) : State :=
  putBytes (summaryAt p.ticket p.copy)
    (summaryBytes p.number.toNat (if v.reject then 2 else 1) v.warnings v.reasons p.doseMin p.doseMax
      (p.regError.getD (-32768)) p.stretch v.deviation) s

/-- Settle the copy of a record that has its verdict (R75). -/
def settleCopy (p : Panel) (v : Verdict) (s : State) : State :=
  let s1 := updOrder p.ticket (fun o =>
    { o.setCopy p.copy (fun c => { c with place := .settled }) with
      rejects := if v.reject then o.rejects + 1 else o.rejects }) s
  finishIfSettled p.ticket (freePanel p.number (writeVerdictSummary p v s1))

/-- Put a record's copy back to be printed again: on the retry queue of its entry at the list's
front. A re-inserted entry names the slot its record names (R67, R32; log 18). -/
def requeueCopy (o : OpenOrder) (p : Panel) (s : State) : State :=
  match findEntry o.ticket s with
  | some e => setEntries ({ e with retry := e.retry ++ [p.copy] } :: entriesWithout o.ticket s) s
  | none =>
    insertFront { ticket := o.ticket, profile := p.profile, next := o.copies.length + 1,
                  retry := [p.copy] } s

/-- The order's answer to a fault of the copy that record `p` holds (R67). -/
def faultCopy (p : Panel) (o : OpenOrder) (s : State) : State :=
  if o.cancel then
    finishIfSettled o.ticket (writeCancelled o.ticket [p.copy]
      (updOrder o.ticket (fun o => o.setCopy p.copy fun c => { c with place := .cancelled }) s))
  else if (o.copies[p.copy - 1]?.map (·.faults)).getD 0 < 2 then
    printTest (requeueCopy o p
      (updOrder o.ticket
        (fun o => o.setCopy p.copy fun c => { c with place := .waiting, faults := c.faults + 1 }) s))
  else
    updPanel p.number (fun p => { p with finalVoid := true })
      (updOrder o.ticket (fun o => o.setCopy p.copy fun c => { c with faults := 3 }) s)

/-- A record's print has faulted (R67): it goes to VOID with travel stage PAPER, and its copy is
handled by its order. -/
def faultPrint (p : Panel) (s : State) : State :=
  let s1 := updPanel p.number (fun p => { p with state := .void, travel := some .paper }) s
  match findOrder p.ticket s with
  | none => s1
  | some o => faultCopy p o s1

end Sys2Proof.Machine
end

