-- ==== Sys2Proof/Machine/Line.lean ====
section
/-! DEFINITION. The change of line state as one event at every block (R2), the jog state (R16,
R129), the readiness and run heat re-tests (R3, R6) and the raise of an alarm (R5 to R7). -/

namespace Sys2Proof.Machine

/-! ## Answers of the heat, dose, order and tension units -/

/-- A drum zone held OFF: power 0, integral 0, settle count 0, heater off (R103, R112). -/
def Zone.shutOff (z : Zone) : Zone :=
  { z with state := .off, integral := 0, power := 0, settle := 0, heater := false, onEnd := none }

def setZones (zs : Vector Zone 8) (s : State) : State := { s with heat := { s.heat with zones := zs } }

/-- The heat enable goes off (R103). -/
def heatOff (s : State) : State :=
  endCondition .zonePairLost (endCondition .zoneSensorLost (endCondition .zoneOvertemp
    (setZones (s.heat.zones.map Zone.shutOff) s)))

/-- Whether a cell of the wrap names the record (R113). -/
def inWrap (s : State) (p : Panel) : Bool := s.dose.cells.any fun c => c.panel == some p.number

/-- Mark every record that a cell names INTERRUPTED (R121). -/
def markInterrupted (s : State) : State :=
  mapPanels (fun p => if inWrap s p then { p with interrupted := true } else p) s

/-- Start a movement of the felt: state, command and a watch of 5000 ms (R118, R119), with the
INTERRUPTED marking (R121). -/
def moveWrap (w : WrapState) (c : WrapCommand) (s : State) : State :=
  markInterrupted
    { s with dose := { s.dose with wrap := w, command := c, watch := some (s.host.clock + 5000) } }

/-- The wrap's answer to a change of line state (R118). -/
def wrapAnswer (old new : LineState) (s : State) : State :=
  if new = .run then
    (if s.dose.wrap = .opened ∨ s.dose.wrap = .opening then moveWrap .closing .close s else s)
  else if old = .run then
    (if s.dose.wrap = .closing ∨ s.dose.wrap = .closed then moveWrap .opening .opened s else s)
  else s

def setSpeed (v : Nat) (s : State) : State := { s with dose := { s.dose with sCmd := v } }

/-- S_cmd on entry to a line state (R129). -/
def speedAnswer (new : LineState) (s : State) : State :=
  match new with
  | .cold | .halt => setSpeed 0 s
  | .warm | .ready | .run => setSpeed 20 s
  | .thread => setSpeed (if s.line.jog = .still then 0 else 20) s
  | .hold => s

/-- The order unit ends its store conditions on entry to COLD, THREAD and HALT (R72). -/
def storeAnswer (new : LineState) (s : State) : State :=
  match new with
  | .cold | .thread | .halt => endCondition .storeEmpty (endCondition .storeLow s)
  | .warm | .ready | .run | .hold => s

/-- Rewrite one tension zone. -/
def updTension (z : Fin 4) (f : TensionZone → TensionZone) (s : State) : State :=
  { s with tens := { s.tens with zones := s.tens.zones.set z (f s.tens.zones[z]) } }

/-- Rewrite every tension zone. -/
def mapTension (f : TensionZone → TensionZone) (s : State) : State :=
  { s with tens := { s.tens with zones := s.tens.zones.map f } }

/-- The result area of an AUTO_ZERO ticket (10.6). -/
def autoResult (zeroL zeroR : Int) (reason side : Nat) : List Byte :=
  intHalf zeroL ++ intHalf zeroR ++ [natByte reason, natByte side]

/-- End a running auto-zero: its record becomes IDLE and its ticket finishes (R147, R148). -/
def endAuto (z : Fin 4) (a : AutoZero) (zeroL zeroR : Int) (code : ResultCode) (detail : Word)
    (reason side : Nat) (s : State) : State :=
  finishLong a.ticket code detail
    (putBytes (ticketBase a.ticket + 0x80) (autoResult zeroL zeroR reason side)
      (updTension z (fun t => { t with
        l := { t.l with zero := zeroL }, r := { t.r with zero := zeroR }, auto := none }) s))

/-- Abort the auto-zero of a zone with its zeros restored (R148); `reason` is 4 LINE_STATE, 5 JOG,
6 RESET. -/
def abortAuto (reason : Nat) (s : State) (z : Fin 4) : State :=
  match s.tens.zones[z].auto with
  | none => s
  | some a => endAuto z a a.savedL a.savedR .aborted 0 reason 0 s

/-- The four tension zones in order. -/
def tensionZones : List (Fin 4) := [0, 1, 2, 3]

/-- Abort every running auto-zero, zone 0 first (R148; the order, log 44). -/
def abortAutos (reason : Nat) (s : State) : State := tensionZones.foldl (abortAuto reason) s

/-- The tension unit's targets on entry to COLD (R137). -/
def coldTargets (s : State) : State :=
  mapTension (fun t => { t with target := 0, working := 0, rampDone := true }) s

/-- Break counts and the WEB_BREAK condition end on entry to COLD, THREAD, WARM and HALT (R141). -/
def endBreak (s : State) : State :=
  endCondition .webBreak (mapTension (fun t => { t with breakCount := 0 }) s)

/-- The tension unit's answer to a change of line state (R137, R141, R148, R149). -/
def tensionAnswer (new : LineState) (s : State) : State :=
  abortAutos 4 (match new with
    | .cold => endBreak (coldTargets s)
    | .thread | .warm | .halt => endBreak s
    | .ready | .run | .hold => s)

/-! ## Entering a line state -/

/-- The third detail word of a LINE_STATE notice (R179). -/
def LineCause.word : LineCause → Word
  | .command => 1 | .pendant => 2 | .readiness => 3
  | .request a => natWord (4 + 65536 * a.number)
  | .stopKey => 5 | .haltClear => 6 | .reset => 7

/-- The heat enable of a line state; THREAD keeps what it had (R2). -/
def heatOf (new : LineState) (had : Bool) : Bool :=
  match new with
  | .cold | .halt => false
  | .warm | .ready | .run | .hold => true
  | .thread => had

/-- The jog state on entry: NONE in THREAD (R16) and in HALT (R7). -/
def jogOf (new : LineState) (had : Jog) : Jog :=
  match new with
  | .thread | .halt => .still
  | .cold | .warm | .ready | .run | .hold => had

/-- The controller's own fields at the entry (R1, R2, R16). -/
def setLineState (new : LineState) (s : State) : State :=
  { s with line := { s.line with
      state := new,
      heat := heatOf new s.line.heat,
      threadHeat := if new = .thread then s.line.heat else s.line.threadHeat,
      jog := jogOf new s.line.jog } }

/-- An entry to HALT raises the HALT attention cause (R7, R181). -/
def haltCause (new : LineState) (s : State) : State :=
  if new = .halt then raiseCause .halt s else s

/-- The heat unit's answer: the heat enable going off is its event (R103). -/
def heatAnswer (had : Bool) (s : State) : State :=
  if had && !s.line.heat then heatOff s else s

/-- The line enters a state: the controller's fields, the LINE_STATE notice, then the answers of
the heat, dose, order and tension units and the print start test, all as one event (R2). -/
def enterState (new : LineState) (cause : LineCause) (s : State) : State :=
  printTest (tensionAnswer new (storeAnswer new (speedAnswer new (wrapAnswer s.line.state new
    (heatAnswer s.line.heat (haltCause new
      (writeNotice .lineState (natWord s.line.state.code) (natWord new.code) cause.word
        (setLineState new s))))))))

/-! ## Readiness and run heat re-tests -/

/-- Apply the readiness test in WARM and READY (R3). -/
def retest (s : State) : State :=
  match s.line.state with
  | .warm => if readyTest s then enterState .ready .readiness s else s
  | .ready => if readyTest s then s else enterState .warm .readiness s
  | .cold | .thread | .run | .hold | .halt => s

/-- Apply the run heat test in RUN (R6). -/
def runRetest (s : State) : State :=
  if s.line.state = .run ∧ !runHeatTest s then enterState .hold .readiness s else s

/-! ## Raising an alarm -/

/-- An alarm's line request acts on the line state (R6, R7). -/
def applyRequest (a : Alarm) (s : State) : State :=
  match a.request with
  | .nothing => s
  | .halt => if s.line.state = .halt then s else enterState .halt (.request a) s
  | .hold =>
    if s.line.state = .run then enterState .hold (.request a) s
    else if s.line.state = .ready then enterState .warm .readiness s
    else s

/-- An owner's raise (R5): without effect while the alarm is latched and active. -/
def raiseAlarm (a : Alarm) (d1 d2 : Word) (s : State) : State :=
  if (alarmRec s a).latched && (alarmRec s a).active then s
  else applyRequest a
    (writeNotice .alarmRaised (natWord a.number) d1 d2 (setAlarm a ⟨true, true⟩ s))

/-! ## The jog state -/

/-- The dose unit's answer to a change of jog state in THREAD (R129). -/
def jogSpeed (j : Jog) (s : State) : State :=
  if s.line.state = .thread then setSpeed (if j = .still then 0 else 20) s else s

/-- Change the jog state (R16): S_cmd follows in THREAD (R129), and a jog leaving NONE aborts every
running auto-zero (R148). Setting the state it has changes nothing. -/
def setJog (j : Jog) (s : State) : State :=
  if s.line.jog = j then s
  else
    let s1 := jogSpeed j { s with line := { s.line with jog := j } }
    if s.line.jog = .still then abortAutos 5 s1 else s1

end Sys2Proof.Machine
end

