-- ==== Sys2Proof/Machine/Dose.lean ====
section
/-! DEFINITION. The dose unit (chapter 7): the wrap cell queue, the wrap reports and watch, the rate
curve and accumulation, the governor, the speed command and heat starvation. -/

namespace Sys2Proof.Machine

/-! ## The wrap cell queue (7.2) -/

def setCells (cs : List WrapCell) (s : State) : State := { s with dose := { s.dose with cells := cs } }

/-- X reaches the panel's f_lead + length + `past`; false while it has no f_lead. -/
def leadReached (s : State) (p : Panel) (past : Nat) : Bool :=
  match p.fLead with
  | none => false
  | some f => reached s.pos.x (f + BitVec.ofNat 32 (p.length + past))

/-- The panel's body at the nip holds a drum count: f_lead ≤ a < f_lead + length. -/
def bodyHolds (p : Panel) (a : Word) : Bool :=
  match p.fLead with
  | none => false
  | some f => inSpan a f p.length

/-- Of two records, the one with the larger f_lead; of two with equal f_lead the later in the panel
table, which is the one created later (log 42). -/
def laterLead (best : Option Panel) (p : Panel) : Option Panel :=
  match best with
  | none => some p
  | some b => if 0 ≤ sdiff (p.fLead.getD 0) (b.fLead.getD 0) then some p else some b

/-- The panel in ON_FABRIC whose body holds a start coordinate, the later one of two (R116; of two that
arrived at one step, log 42). -/
def panelOver (s : State) (xc : Word) : Option Half :=
  ((s.ord.panels.filter fun p => p.state == .onFabric && bodyHolds p xc).foldl laterLead none).map
    (·.number)

/-- A leaving cell folds its dose into its panel (R115). -/
def foldCell (c : WrapCell) (s : State) : State :=
  match c.panel with
  | none => s
  | some n => updPanel n
      (fun p => { p with doseMin := min p.doseMin c.dose, doseMax := max p.doseMax c.dose }) s

/-- The queue shifts: the oldest cell leaves and a new tail cell joins at `m` (R114). -/
def shiftCells (m : Word) (s : State) : State :=
  let s1 := match s.dose.cells.getLast? with
    | none => s
    | some c => foldCell c s
  setCells ({ xc := m, panel := panelOver s m, dose := 0 } :: s.dose.cells.dropLast) s1

/-- A forward step brings X to a multiple of 1000: the queue shifts if it is the next one (R114). -/
def crossCells (s : State) : State :=
  match s.dose.cells with
  | [] => s
  | t :: _ => if s.pos.x = t.xc + 1000 then shiftCells s.pos.x s else s

/-- An arrival names the tail cell that starts at its f_lead (R116). -/
def nameTail (n : Half) (f : Word) (s : State) : State :=
  match s.dose.cells with
  | [] => s
  | t :: ts => if t.xc = f then setCells ({ t with panel := some n } :: ts) s else s

/-- Panels whose dose is complete go to FINISHED (R117). -/
def completeDose (s : State) : State :=
  mapPanels (fun p =>
    if p.state = .onFabric ∧ leadReached s p 30000 then { p with state := .finished } else p) s

/-! ## Wrap reports and watch (R119, R120) -/

/-- The wrap reaches OPEN or CLOSED by a report; the watch becomes absent and the WRAP_TIMEOUT
condition ends (R119, R120). -/
def wrapReached (w : WrapState) (s : State) : State :=
  endCondition .wrapTimeout { s with dose := { s.dose with wrap := w, watch := none } }

/-- A WRAP_STATE report (R119), with the speed (R129) and print start (R63) answers. -/
def wrapReport (r : WrapReport) (s : State) : State :=
  match s.dose.wrap, r with
  | .closing, .closed => printTest (wrapReached .closed s)
  | .opening, .opened => printTest (wrapReached .opened s)
  | .closed, .opened | .closed, .moving => printTest (setSpeed 20 (moveWrap .closing .close s))
  | .closed, .closed | .opened, _ | .closing, .opened | .closing, .moving
  | .opening, .closed | .opening, .moving => s

/-- Whether the wrap watch has run out: the clock has reached its deadline while CLOSING or OPENING. -/
def watchDue (s : State) : Bool :=
  (s.dose.wrap == .closing || s.dose.wrap == .opening)
  && (match s.dose.watch with
      | none => false
      | some d => reached s.host.clock d)

/-- The expiry of the wrap watch (R120). -/
def wrapTimedOut (s : State) : State :=
  raiseAlarm .wrapTimeout (natWord s.dose.wrap.code) 0 { s with dose := { s.dose with watch := none } }

/-! ## Temperature, rate and accumulation (R123 to R125) -/

/-- The lowest of a list of temperatures; 0 for none. -/
def lowest : List Nat → Nat
  | [] => 0
  | t :: ts => ts.foldl min t

/-- The eight drum zones in order. -/
def drumZones : List (Fin 8) := [0, 1, 2, 3, 4, 5, 6, 7]

/-- The drum zones a panel's lanes cover (R123). -/
def zonesUnder (p : Panel) : List (Fin 8) :=
  drumZones.filter fun k => decide (p.laneStart / 400 ≤ k.val) && decide (k.val ≤ (p.laneEnd - 1) / 400)

/-- A panel's effective temperature, T_eff (R123). -/
def tEff (s : State) (p : Panel) : Nat := lowest ((zonesUnder p).map fun k => s.heat.zones[k].used)

/-- The rate of a profile at a temperature (R124). -/
def rateAt (s : State) (i : Fin 16) (t : Nat) : Nat :=
  if t < knotT s i 0 then 0
  else if knotT s i 7 ≤ t then knotR s i 7
  else match (List.range 7).find? fun k => decide (knotT s i k ≤ t) && decide (t < knotT s i (k + 1)) with
    | none => 0
    | some k => knotR s i k
        + (knotR s i (k + 1) - knotR s i k) * (t - knotT s i k) / (knotT s i (k + 1) - knotT s i k)

/-- A panel's rate (R124). -/
def rateOf (s : State) (p : Panel) : Nat := rateAt s p.profile (tEff s p)

/-- A cell's dose after one dose interval with the wrap CLOSED (R125). -/
def doseCell (s : State) (c : WrapCell) : WrapCell :=
  match c.panel with
  | none => c
  | some n =>
    match findPanel n s with
    | none => c
    | some p => { c with dose := satAdd 65535 c.dose (rateOf s p) }

/-- Stage 1 of the dose interval (R125). -/
def accumulate (s : State) : State :=
  if s.dose.wrap = .closed then
    setCells (s.dose.cells.map (doseCell s))
      (mapPanels (fun p =>
        if inWrap s p ∧ tScorch s p.profile < tEff s p then { p with overheat := true } else p) s)
  else s

/-! ## Governor (R126, R127) -/

/-- Whether a staged record's predicted arrival is at most X + 30000 (R126). -/
def arrivesSoon (s : State) (p : Panel) : Bool :=
  match p.xp with
  | none => false
  | some xp => reached (s.pos.x + 30000) (xp + 12000 + intWord s.reg.position)

/-- The governed set G (R126). -/
def governed (s : State) : List Panel :=
  s.ord.panels.filter fun p =>
    (p.state == .onFabric && inWrap s p) || (p.state == .staged && arrivesSoon s p)

/-- A record's cap (R127). -/
def capOf (s : State) (p : Panel) : Nat := 30000 * rateOf s p / (dEff s p.profile).toNat

/-- S_target: the least of the caps and maximum speeds of G and V_lim, or the lower of the idle
speed and V_lim (R127). -/
def speedTarget (s : State) : Nat :=
  match governed s with
  | [] => min (idleSpeed s) (vLim s)
  | g => g.foldl (fun t p => min t (min (capOf s p) (maxSpeed s p.profile))) (vLim s)

/-- Whether record `a` is nearer the nip than `b`: ON_FABRIC before STAGED, then the lower f_lead or
x_p (R127). -/
def nearerNip (a b : Panel) : Bool :=
  if a.state = .onFabric then
    (if b.state = .onFabric then decide (sdiff (a.fLead.getD 0) (b.fLead.getD 0) < 0) else true)
  else
    (if b.state = .onFabric then false else decide (sdiff (a.xp.getD 0) (b.xp.getD 0) < 0))

/-- The governing panel for a speed target: nearest the nip among those whose cap equals it, or 0; of
two equally near, the first in the panel table (log 42). -/
def governingPanel (s : State) (target : Nat) : Half :=
  match ((governed s).filter fun p => capOf s p == target).foldl
      (fun best p => match best with
        | none => some p
        | some b => if nearerNip p b then some p else some b) (none : Option Panel) with
  | none => 0
  | some p => p.number

/-- Stage 2 of the dose interval (R126, R127). -/
def govern (s : State) : State :=
  { s with dose := { s.dose with
      sTarget := speedTarget s, governing := governingPanel s (speedTarget s) } }

/-! ## Speed step and starvation (R128, R130) -/

/-- One ramp step toward a target: up by at most 5, down by at most 10. -/
def rampSpeed (v t : Nat) : Nat := if v < t then min t (v + 5) else max t (v - 10)

/-- The speed command after stage 3 (R128). -/
def steppedSpeed (s : State) : Nat :=
  match s.line.state with
  | .run => if s.dose.wrap = .closed then rampSpeed s.dose.sCmd s.dose.sTarget else 20
  | .warm | .ready => 20
  | .hold => rampSpeed s.dose.sCmd 20
  | .thread => if s.line.jog = .still then 0 else 20
  | .cold | .halt => 0

/-- Stage 3 of the dose interval (R128). -/
def stepSpeed (s : State) : State := setSpeed (steppedSpeed s) s

/-- Stage 4 of the dose interval (R130). -/
def starveTest (s : State) : State :=
  if 20 ≤ s.dose.sTarget then endCondition .heatStarved s
  else if s.line.state = .run ∧ s.dose.wrap = .closed then
    raiseAlarm .heatStarved (natWord s.dose.sTarget) (s.dose.governing.setWidth 32) s
  else s

/-- One dose interval (R122). -/
def doseStep (s : State) : State := starveTest (stepSpeed (govern (accumulate s)))

/-- A change of speed class limits S_cmd to the new V_lim at once (R11, R129). -/
def limitSpeed (s : State) : State := if vLim s < s.dose.sCmd then setSpeed (vLim s) s else s

/-! ## Line reset (R132) -/

/-- The cells at line reset: blank, placed from the greatest multiple of 1000 at or below X. -/
def resetCells (s : State) : State := setCells (blankCells (s.pos.x - BitVec.ofNat 32 s.pos.phase.val)) s

end Sys2Proof.Machine
end

