-- ==== Sys2Proof/Machine/Heat.lean ====
section
/-! DEFINITION. The sensor scanner and the heat unit (chapter 6): conversions, the heat interval, the
heater windows, and the tickets SCAN_LIST, HEAT_SETPOINT and HEAT_TUNE. -/

namespace Sys2Proof.Machine

/-! ## The scanner (R97, R99) -/

/-- The greatest valid raw value of a channel (6.1). -/
def validTop (c : Fin 10) : Nat := if c.val < 8 then 2500 else 1500

/-- A reading record after a sample (R97). -/
def Reading.sample (r : Reading) (top raw : Nat) : Reading :=
  if raw ≤ top then { value := raw, valid := true, age := 0 } else { r with valid := false }

/-- The pass position moves on; at the end of a pass a waiting shadow list becomes active (R97). -/
def advancePass (s : State) : State :=
  if s.heat.pass + 1 < s.heat.scan.length then
    { s with heat := { s.heat with pass := s.heat.pass + 1 } }
  else
    { s with heat := { s.heat with
        pass := 0, scan := s.heat.shadow.getD s.heat.scan, shadow := none } }

/-- Rewrite one channel's reading record. -/
def updReading (c : Fin 10) (f : Reading → Reading) (s : State) : State :=
  { s with heat := { s.heat with readings := s.heat.readings.set c (f s.heat.readings[c]) } }

/-- One conversion (R97). -/
def convert (raw : Half) (s : State) : State :=
  match s.heat.scan[s.heat.pass]? with
  | none => advancePass s
  | some c => advancePass (updReading c (fun r => r.sample (validTop c) raw.toNat) s)

/-- Entry i, counted from 0, of a SCAN_LIST body. -/
def scanEntry (s : State) (n i : Nat) : Nat := bodyByte s n (0x21 + i)

/-- The checks of a SCAN_LIST body (R99). -/
def scanChecks (s : State) (n : Nat) : List (Nat × Bool) :=
  (1, within 1 16 (bodyByte s n 0x20)) ::
    (List.range (bodyByte s n 0x20)).map fun i => (2 + i, decide (scanEntry s n i ≤ 9))

/-- SCAN_LIST (R99). -/
def takeScanList (n : Nat) (s : State) : State :=
  match firstFailure (scanChecks s n) with
  | some i => refuseTicket n .badField (natWord i) s
  | none =>
    finishTicket n .ok (if s.heat.shadow.isSome then 1 else 0)
      { s with heat := { s.heat with
          shadow := some ((List.range (bodyByte s n 0x20)).map fun i =>
            Fin.ofNat 10 (scanEntry s n i)) } }

/-! ## Settings (R101, R102) -/

/-- The offset of zone k in a HEAT_SETPOINT body. -/
def offsetField (s : State) (n : Nat) (k : Fin 8) : Int := bodyInt s n (0x22 + 2 * k.val)

/-- The checks of a HEAT_SETPOINT body (R101). -/
def setpointChecks (s : State) (n : Nat) : List (Nat × Bool) :=
  (1, within 1000 2400 (bodyHalf s n 0x20)) ::
    drumZones.map fun k => (2 + k.val, decide (-50 ≤ offsetField s n k ∧ offsetField s n k ≤ 50))

/-- HEAT_SETPOINT (R101). -/
def takeHeatSetpoint (n : Nat) (s : State) : State :=
  match firstFailure (setpointChecks s n) with
  | some i => refuseTicket n .badField (natWord i) s
  | none =>
    finishTicket n .ok (natWord (bodyHalf s n 0x20))
      { s with heat := { s.heat with
          base := bodyHalf s n 0x20, offsets := Vector.ofFn fun k => offsetField s n k } }

/-- HEAT_TUNE (R102). -/
def takeHeatTune (n : Nat) (s : State) : State :=
  if 255 < bodyHalf s n 0x20 then refuseTicket n .badField 1 s
  else if 255 < bodyHalf s n 0x22 then refuseTicket n .badField 2 s
  else
    finishTicket n .ok 0
      { s with heat := { s.heat with kp := bodyHalf s n 0x20, ki := bodyHalf s n 0x22 } }

/-! ## One zone at a heat interval (R104 to R108) -/

/-- The scanner channel of a drum zone (6.1). -/
def zoneChannel (k : Fin 8) : Fin 10 := ⟨k.val, by omega⟩

/-- The reading record of a zone's channel. -/
def zoneReading (s : State) (k : Fin 8) : Reading := s.heat.readings[zoneChannel k]

/-- The measured temperature of a zone: the reading value of its channel (R104). -/
def measuredT (s : State) (k : Fin 8) : Nat := (zoneReading s k).value

/-- Whether a zone's reading is fresh enough: age 20 or less (R104). -/
def freshReading (s : State) (k : Fin 8) : Bool := decide ((zoneReading s k).age ≤ 20)

/-- The setpoint of a zone: the base plus its offset (R100). -/
def zoneSetpoint (s : State) (k : Fin 8) : Int := (s.heat.base : Int) + s.heat.offsets[k]

/-- The neighbours of a zone (R105). -/
def neighbours (k : Fin 8) : List (Fin 8) :=
  drumZones.filter fun j => j.val + 1 == k.val || j.val == k.val + 1

/-- The stand-in temperature of a LOST zone (R105). -/
def standInT (s : State) (k : Fin 8) : Nat :=
  match ((neighbours k).filter (freshReading s)).map (measuredT s) with
  | [] => 0
  | ts => limitNat 0 2500 ((lowest ts : Int) - 50)

/-- A zone put into a state without power: integral, power and settle count 0, heater off. -/
def Zone.idle (z : Zone) (st : ZoneState) : Zone := { z.shutOff with state := st }

/-- A zone that starts HEATING: integral 0, power 0, settle count 0 (R104, R106). -/
def Zone.restart (z : Zone) : Zone :=
  { z with state := .heating, integral := 0, power := 0, settle := 0 }

/-- Whether the integral keeps its value at this heat interval (R107). -/
def Zone.frozen (z : Zone) (e : Int) : Bool :=
  (z.power == 1000 && decide (0 < e)) || (z.power == 0 && decide (e < 0))

/-- The integral after the regulator (R107). -/
def Zone.nextIntegral (z : Zone) (ki : Nat) (e : Int) : Int :=
  if z.frozen e then z.integral else limit 0 1000 (z.integral + ((ki : Int) * e).tdiv 256)

/-- The power of a regulated zone: P + I within its range (R107), and 0 with both gains 0, whatever
integral is kept (R102; log 45). -/
def regulatedPower (kp ki : Nat) (e integral : Int) : Nat :=
  if kp = 0 ∧ ki = 0 then 0 else limitNat 0 1000 (((kp : Int) * e).tdiv 16 + integral)

/-- The regulator (R102, R107). -/
def Zone.regulate (z : Zone) (kp ki : Nat) (e : Int) : Zone :=
  { z with
    integral := z.nextIntegral ki e,
    power := regulatedPower kp ki e (z.nextIntegral ki e) }

/-- Settling (R108). -/
def Zone.settling (z : Zone) (e : Int) : Zone :=
  if e.natAbs ≤ 30 then
    { z with
      settle := min 600 (z.settle + 1),
      state := if 600 ≤ z.settle + 1 then .settled else z.state }
  else { z with settle := 0, state := .heating }

/-- Steps 4 and 5 of a zone (R107, R108). -/
def Zone.controlled (z : Zone) (kp ki : Nat) (e : Int) : Zone := (z.regulate kp ki e).settling e

/-- Step 2: leaving LOST or OFF (R104). -/
def Zone.leave (z : Zone) : Zone :=
  match z.state with
  | .lost | .off => z.restart
  | .heating | .settled | .cut => z

/-- Steps 3 to 5 of a zone: the CUT test (R106), then the regulator and settling. -/
def Zone.work (z : Zone) (cutT t kp ki : Nat) (e : Int) : Zone :=
  match z.state with
  | .cut => if t + 50 < cutT then z.restart.controlled kp ki e else { z with power := 0 }
  | .heating | .settled | .lost | .off =>
    if cutT ≤ t then z.idle .cut else z.controlled kp ki e

/-- One zone's step with the heat enable on, its used temperature included (R104, R105). -/
def stepZone (s : State) (k : Fin 8) : Zone :=
  let z := s.heat.zones[k]
  if freshReading s k then
    { z.leave.work (tCut s) (measuredT s k) s.heat.kp s.heat.ki
        (zoneSetpoint s k - (measuredT s k : Int)) with used := measuredT s k }
  else { z.idle .lost with used := standInT s k }

/-- One zone with the heat enable off (R103). -/
def restZone (s : State) (k : Fin 8) : Zone :=
  { s.heat.zones[k].shutOff with used := measuredT s k }

/-! ## The heat interval (R98, R104, R109, R110) -/

/-- Every reading age rises by one, to at most 255 (R98). -/
def riseAges (s : State) : State :=
  { s with heat := { s.heat with
      readings := s.heat.readings.map fun r => { r with age := min 255 (r.age + 1) } } }

/-- The raises of one zone, whose state was `was` before its step (R104, R106, R109). -/
def raiseZone (was : Vector Zone 8) (s : State) (k : Fin 8) : State :=
  if was[k].state ≠ .cut ∧ s.heat.zones[k].state = .cut then
    raiseAlarm .zoneOvertemp (natWord k.val) (natWord (measuredT s k)) s
  else if was[k].state ≠ .lost ∧ s.heat.zones[k].state = .lost then
    raiseAlarm .zoneSensorLost (natWord k.val) 0 s
  else s

/-- Whether a zone is LOST. -/
def zoneLost (zs : Vector Zone 8) (k : Nat) : Bool := (zs[k]?.map fun z => z.state == .lost).getD false

/-- The lowest k with zones k and k + 1 both LOST (R109). -/
def lostPair (zs : Vector Zone 8) : Option Nat :=
  (List.range 7).find? fun k => zoneLost zs k && zoneLost zs (k + 1)

/-- Raise or end ZONE_PAIR_LOST (R109). -/
def pairTest (zs : Vector Zone 8) (s : State) : State :=
  match lostPair zs with
  | some k => raiseAlarm .zonePairLost (natWord k) 0 s
  | none => endCondition .zonePairLost s

/-- End ZONE_OVERTEMP and ZONE_SENSOR_LOST where no zone holds them (R109). -/
def endZoneAlarms (zs : Vector Zone 8) (s : State) : State :=
  let s1 := if zs.all fun z => z.state != .cut then endCondition .zoneOvertemp s else s
  if zs.all fun z => z.state != .lost then endCondition .zoneSensorLost s1 else s1

/-- The alarms of a heat interval, raised in rising zone number with ZONE_PAIR_LOST after them, from
the zones as they stand at its end (R109). -/
def zoneAlarms (was : Vector Zone 8) (s : State) : State :=
  endZoneAlarms s.heat.zones (pairTest s.heat.zones (drumZones.foldl (raiseZone was) s))

/-- The alarms and the run heat test of a heat interval; the manual does not order the two, and a
free value does where the test fails in RUN (R6, R109, R110; log 17). -/
def judgeZones (was : Vector Zone 8) (s : State) : State :=
  if s.line.state = .run ∧ !runHeatTest s then
    (if Config.firstOfTwo s.drawn then runRetest (zoneAlarms was (draw s))
    else zoneAlarms was (runRetest (draw s)))
  else zoneAlarms was s

/-- One heat interval (R104), and the readiness test it brings (R110). -/
def heatStep (s : State) : State :=
  let s1 := riseAges s
  if s1.line.heat then
    retest (judgeZones s1.heat.zones
      (setZones (Vector.ofFn fun k => stepZone s1 k) s1))
  else setZones (Vector.ofFn fun k => restZone s1 k) s1

/-! ## Heater windows (R111) -/

/-- A heater at a window start (R111). -/
def Zone.window (clock : Word) (z : Zone) : Zone :=
  if 0 < z.power then
    { z with heater := true, onEnd := some (clock + BitVec.ofNat 32 (2 * z.power)) }
  else { z with heater := false, onEnd := none }

/-- One heater window start (R111). -/
def windowStep (s : State) : State := setZones (s.heat.zones.map (Zone.window s.host.clock)) s

/-- Whether the clock has reached an output's on-end time. -/
def onEndDue (clock : Word) (z : Zone) : Bool :=
  match z.onEnd with
  | none => false
  | some t => z.heater && reached clock t

/-- The clock reaches an on-end time: the output goes off (R111). -/
def heaterEnd (k : Fin 8) (s : State) : State :=
  if onEndDue s.host.clock s.heat.zones[k] then
    setZones (s.heat.zones.set k { s.heat.zones[k] with heater := false, onEnd := none }) s
  else s

/-! ## Line reset (R100, R103) -/

/-- The heat unit's line reset: zones OFF, used temperatures the reading values, conditions ended. -/
def heatReset (s : State) : State :=
  endCondition .zonePairLost (endCondition .zoneSensorLost (endCondition .zoneOvertemp
    (setZones (Vector.ofFn (restZone s)) s)))

end Sys2Proof.Machine
end

