-- ==== Sys2Proof/Machine/Library.lean ====
section
/-! DEFINITION. The tickets of the profile library (R24 to R29) and of the order unit (R56, R57,
R73). -/

namespace Sys2Proof.Machine

/-! ## Profile slots (R24, R27, R28) -/

/-- The slot a library ticket names. -/
def slotField (s : State) (n : Nat) : Fin 16 := Fin.ofNat 16 (bodyByte s n 0x20)

/-- Put a slot into a state. -/
def setSlotState (i : Fin 16) (st : SlotState) (s : State) : State :=
  updSlot i (fun c => { c with state := st }) s

/-- A successful commit: VALID, trim 0, one commit more (R24). -/
def commitSlot (i : Fin 16) (s : State) : State :=
  updSlot i (fun c => { c with state := .valid, trim := 0, commits := c.commits + 1 }) s

/-- PROFILE_COMMIT (R24). -/
def takeProfileCommit (n : Nat) (s : State) : State :=
  let i := slotField s n
  if 15 < bodyByte s n 0x20 then refuseTicket n .badField 0 s
  else if s.lib.lock then refuseTicket n .locked 0 s
  else if s.lib.slots[i].state = .valid then refuseTicket n .state 0 s
  else match firstFailure (profileChecks s i) with
    | some f => refuseTicket n .badField (natWord f) s
    | none =>
      finishTicket n .ok ((s.lib.slots[i].commits + 1).setWidth 32) (commitSlot i s)

/-- PROFILE_OPEN (R27). -/
def takeProfileOpen (n : Nat) (s : State) : State :=
  let i := slotField s n
  if 15 < bodyByte s n 0x20 then refuseTicket n .badField 0 s
  else if s.lib.lock then refuseTicket n .locked 0 s
  else if s.lib.slots[i].state ≠ .valid then refuseTicket n .state 0 s
  else if 0 < s.lib.slots[i].inUse then refuseTicket n .inUse (natWord s.lib.slots[i].inUse) s
  else finishTicket n .ok 0 (setSlotState i .edit s)

/-- PROFILE_CLEAR (R28). -/
def takeProfileClear (n : Nat) (s : State) : State :=
  let i := slotField s n
  if 15 < bodyByte s n 0x20 then refuseTicket n .badField 0 s
  else if s.lib.lock then refuseTicket n .locked 0 s
  else if 0 < s.lib.slots[i].inUse then refuseTicket n .inUse (natWord s.lib.slots[i].inUse) s
  else finishTicket n .ok 0 (updSlot i (fun c => { c with state := .empty, trim := 0 }) s)

/-- LIBRARY_LOCK (R29). -/
def takeLibraryLock (n : Nat) (s : State) : State :=
  finishTicket n .ok (if s.lib.lock then 0 else 1) { s with lib := { s.lib with lock := true } }

/-! ## QUEUE_PANELS (R56, R57; places of 10.6) -/

def orderLength (s : State) (n : Nat) : Nat := bodyHalf s n 0x22
def orderLaneStart (s : State) (n : Nat) : Nat := bodyHalf s n 0x24
def orderLaneEnd (s : State) (n : Nat) : Nat := bodyHalf s n 0x26
def orderCopies (s : State) (n : Nat) : Nat := bodyByte s n 0x28

/-- The fields of a QUEUE_PANELS body in index order, each with whether it is accepted (R56). -/
def orderChecks (s : State) (n : Nat) : List (Nat × Bool) :=
  [ (1, decide (bodyByte s n 0x20 ≤ 15)),
    (2, within 4000 60000 (orderLength s n)),
    (3, decide (orderLaneStart s n ≤ 3200)),
    (4, decide (orderLaneEnd s n ≤ 3200) && decide (orderLaneStart s n + 100 ≤ orderLaneEnd s n)),
    (5, within 1 8 (orderCopies s n)),
    (6, decide (bodyByte s n 0x29 ≤ 1)),
    (7, decide (bodyByte s n 0x2A ≤ 1)),
    (8, decide (bodyByte s n 0x2B ≤ 1)),
    (9, true) ]

/-- The refusal of a QUEUE_PANELS body, first check first (R56). -/
def orderRefusal (s : State) (n : Nat) : Option (ResultCode × Word) :=
  match firstFailure (orderChecks s n) with
  | some i => some (.badField, natWord i)
  | none =>
    if s.lib.slots[slotField s n].state ≠ .valid then some (.profile, 0)
    else if fabricClass s (slotField s n) ≠ s.line.fabric.toNat then some (.fabric, 0)
    else if bodyByte s n 0x29 = 1 ∧ !s.line.marks then some (.noMarks, 0)
    else none

/-- The open order record at the take (R57). -/
def newOrder (s : State) (n : Nat) : OpenOrder where
  ticket := n
  profile := slotField s n
  length := orderLength s n
  laneStart := orderLaneStart s n
  laneEnd := orderLaneEnd s n
  matched := bodyByte s n 0x29 == 1
  rejectMark := bodyByte s n 0x2A == 1
  cutLast := bodyByte s n 0x2B == 1
  tag := ticketWord s n 0x2C
  copies := List.replicate (orderCopies s n) ⟨.waiting, 0⟩
  cancel := false
  rejects := 0

/-- The order unit takes an order: the record, the list entry with the in-use count, and the eight
summaries NONE (R57), with the print start test (R63). -/
def openOrder (n : Nat) (s : State) : State :=
  printTest
    (putBytes (ticketBase n + 0x80) (List.replicate 128 0)
      (appendEntry { ticket := n, profile := slotField s n, next := 1, retry := [] }
        { s with ord := { s.ord with orders := s.ord.orders ++ [newOrder s n] } }))

/-- QUEUE_PANELS (R56, R57). -/
def takeQueuePanels (n : Nat) (s : State) : State :=
  match orderRefusal s n with
  | some (code, d) => refuseTicket n code d s
  | none => raiseCount (openOrder n s)

/-! ## CANCEL_PANELS (R73) -/

/-- The ticket slot a CANCEL_PANELS names. -/
def cancelTarget (s : State) (n : Nat) : Nat := bodyHalf s n 0x20

/-- A copy that stands WAITING. -/
def Copy.isWaiting (c : Copy) : Bool := c.place == .waiting

/-- The order after a cancel: its flag set, its waiting copies CANCELLED (R73). -/
def OpenOrder.cancelled (o : OpenOrder) : OpenOrder :=
  { o with
    cancel := true,
    copies := o.copies.map fun c => if c.isWaiting then { c with place := .cancelled } else c }

/-- Cancel an order: its entry leaves the list, its waiting copies are CANCELLED with their
summaries (R73). -/
def cancelOrder (o : OpenOrder) (s : State) : State :=
  writeCancelled o.ticket (o.copiesWhere Copy.isWaiting)
    (dropEntry o.ticket (updOrder o.ticket OpenOrder.cancelled s))

/-- CANCEL_PANELS (R73). -/
def takeCancelPanels (n : Nat) (s : State) : State :=
  if cancelTarget s n < 1 ∨ 256 < cancelTarget s n then refuseTicket n .badField 0 s
  else match findOrder (cancelTarget s n) s with
    | none => refuseTicket n .state 0 s
    | some o =>
      printTest (finishIfSettled o.ticket
        (finishTicket n .ok (natWord (o.copiesWhere Copy.isWaiting).length) (cancelOrder o s)))

end Sys2Proof.Machine
end

