-- ==== Sys2Proof/Machine/Trigger.lean ====
section
/-! DEFINITION. The trigger unit (3.4 to 3.6): channel steps and fires, arm events, the marker and
knife channels, the output latches, and the tickets TRIGGER_SET, TRIGGER_GROUP, TRIGGER_CORRECT and
OUTPUT_SET. -/

namespace Sys2Proof.Machine

/-! ## Channels -/

/-- Rewrite one trigger channel. -/
def updChannel (c : Fin 12) (f : Channel → Channel) (s : State) : State :=
  { s with trig := { s.trig with channels := s.trig.channels.set c (f s.trig.channels[c]) } }

def setLatches (ls : Vector Latch 8) (s : State) : State := { s with trig := { s.trig with latches := ls } }

def setCuts (cs : List Word) (s : State) : State := { s with trig := { s.trig with cuts := cs } }

/-- A channel that enters COUNTING while the jog state is REV ends the jog and lights the LOCKED
lamp (R16, R46). -/
def endReverseJog (s : State) : State :=
  if s.line.jog = .rev then lightLocked (setJog .still s) else s

/-- The channel's own fields at a start (R47, R48): it counts from the present value of its counter, so
no coming step passes as one taken ahead (log 10). -/
def Channel.start (ch : Channel) (remaining : Nat) : Channel :=
  { ch with state := .counting, remaining := remaining, ahead := false }

/-- A channel goes to COUNTING with a remaining count. -/
def startCounting (c : Fin 12) (remaining : Nat) (s : State) : State :=
  let s1 := updChannel c (fun ch => ch.start remaining) s
  if s.trig.channels[c].state = .counting then s1 else endReverseJog s1

/-- A latch takes a fire of its channel (R54). -/
def Latch.fire (clock : Word) (l : Latch) : Latch :=
  { l with level := true, pulseEnd := some (clock + BitVec.ofNat 32 l.width) }

/-- A fire reaches every latch whose source is the channel (R54). -/
def fireLatches (c : Fin 12) (s : State) : State :=
  setLatches (s.trig.latches.map fun l => if l.source = some c then l.fire s.host.clock else l) s

/-- The remaining count from X to a cut position (R53). -/
def cutCount (x p : Word) : Nat := limitNat 0 65535 (sdiff p x)

/-- The knife channel has fired at drum count `x`: the head position leaves the cut list and the
channel is loaded from the new head, staying COUNTING (R53). -/
def cutFired (x : Word) (s : State) : State :=
  let s1 := setCuts s.trig.cuts.tail s
  match s.trig.cuts.tail with
  | [] => s1
  | p :: _ => updChannel 1 (fun ch => { ch with state := .counting, remaining := cutCount x p }) s1

/-- The channel's own fields at a fire (R47). -/
def Channel.fire (ch : Channel) : Channel :=
  match ch.mode with
  | .repeating => { ch with remaining := ch.reload }
  | .oneShot | .delayedOneShot => { ch with state := .fired, remaining := 0 }

/-- A channel fires; `x` is the drum count of the step that fires it (R47, R53, R54). -/
def fireChannel (x : Word) (c : Fin 12) (s : State) : State :=
  let s1 := fireLatches c (updChannel c Channel.fire s)
  if c = 1 then cutFired x s1 else s1

/-- Whether the next forward step fires the channel (R47). -/
def Channel.due (ch : Channel) : Bool := ch.state == .counting && decide (ch.remaining ≤ 1)

/-- A forward step of its source counter reaches a channel (R47). -/
def stepChannel (x : Word) (c : Fin 12) (s : State) : State :=
  if s.trig.channels[c].state = .counting then
    (if 1 < s.trig.channels[c].remaining then
      updChannel c (fun ch => { ch with remaining := ch.remaining - 1 }) s
    else fireChannel x c s)
  else s

/-- A forward step of a counter reaches a channel of that source, unless the channel has taken the
step ahead of it by TRIGGER_FIRE (log 10). -/
def offerStep (src : ChanSource) (x : Word) (s : State) (c : Fin 12) : State :=
  if s.trig.channels[c].source = src then
    (if s.trig.channels[c].ahead then updChannel c (fun ch => { ch with ahead := false }) s
    else stepChannel x c s)
  else s

/-- The twelve channels in order. -/
def allChannels : List (Fin 12) := [0, 1, 2, 3, 4, 5, 6, 7, 8, 9, 10, 11]

/-- The marker and knife channels that the coming step of X fires and that have not taken it
ahead: they take it after the check unit's requests of the same step (log 10). -/
def heldChannels (s : State) : List (Fin 12) :=
  [0, 1].filter fun c => s.trig.channels[c].source == .drum && s.trig.channels[c].due
    && !s.trig.channels[c].ahead

/-- A forward step of a counter reaches the listed channels in order. -/
def offerSteps (src : ChanSource) (x : Word) (cs : List (Fin 12)) (s : State) : State :=
  cs.foldl (offerStep src x) s

/-! ## Arm events (R48) -/

/-- Whether an arm event moves a channel: it is ARMED, or COUNTING in mode REPEAT. -/
def Channel.takesArm (ch : Channel) : Bool :=
  ch.state == .armed || (ch.state == .counting && ch.mode == .repeating)

/-- An arm event reaches one channel (R48). -/
def armChannel (src : ArmSource) (s : State) (c : Fin 12) : State :=
  if s.trig.channels[c].arm = src ∧ s.trig.channels[c].takesArm then
    startCounting c s.trig.channels[c].reload s
  else s

/-- An arm event reaches the listed channels (R48, R50). -/
def armEvent (src : ArmSource) (cs : List (Fin 12)) (s : State) : State := cs.foldl (armChannel src) s

/-- How many of the listed channels an arm event moves (R50). -/
def armCount (src : ArmSource) (cs : List (Fin 12)) (s : State) : Nat :=
  (cs.filter fun c => s.trig.channels[c].arm == src && s.trig.channels[c].takesArm).length

/-! ## Marker and knife (R52, R53) -/

/-- A mark request (R52). -/
def markRequest (panel : Half) (s : State) : State :=
  if s.trig.channels[(0 : Fin 12)].state = .counting then
    writeNotice .markSkipped (panel.setWidth 32) (natWord s.trig.channels[(0 : Fin 12)].remaining) 0 s
  else startCounting 0 3900 s

/-- Insert a position into the cut list, after any equal one (R53). -/
def insertCut (p : Word) : List Word → List Word
  | [] => [p]
  | q :: qs => if reached p q then q :: insertCut p qs else p :: q :: qs

/-- Load the knife channel from the head of the cut list (R53). -/
def loadKnife (s : State) : State :=
  match s.trig.cuts with
  | [] => s
  | p :: _ => startCounting 1 (cutCount s.pos.x p) s

/-- A cut request (R53). -/
def cutRequest (position : Word) (panel : Half) (s : State) : State :=
  if 4 ≤ s.trig.cuts.length then
    writeNotice .cutSkipped (panel.setWidth 32) position 0 s
  else
    let s1 := setCuts (insertCut position s.trig.cuts) s
    if s.trig.channels[(1 : Fin 12)].state ≠ .counting ∨
        s1.trig.cuts.head? ≠ s.trig.cuts.head? then loadKnife s1 else s1

/-! ## Tickets -/

def sourceOf (b : Nat) : Option ChanSource :=
  match b with | 0 => some .drum | 1 => some .print | _ => none

def modeOf (b : Nat) : Option ChanMode :=
  match b with | 0 => some .oneShot | 1 => some .delayedOneShot | 2 => some .repeating | _ => none

def armOf (b : Nat) : Option ArmSource :=
  match b with
  | 0 => some .unarmed | 1 => some .groupFire | 2 => some .fabricMark | 3 => some .paperMark
  | 4 => some .fabricSplice | _ => none

/-- Whether a mode goes with an arm source (R49, refusal 6). -/
def armFits (m : ChanMode) (a : ArmSource) : Bool :=
  !(m == .delayedOneShot && a == .unarmed) && !(m == .oneShot && a != .unarmed)

/-- The refusal of a TRIGGER_SET body, first check first (R49). -/
def triggerSetRefusal (s : State) (n : Nat) : Option (ResultCode × Word) :=
  if 11 < bodyByte s n 0x20 then some (.badField, 1)
  else if bodyByte s n 0x20 ≤ 1 then some (.locked, 0)
  else match sourceOf (bodyByte s n 0x21), modeOf (bodyByte s n 0x22), armOf (bodyByte s n 0x26) with
    | none, _, _ => some (.badField, 2)
    | some _, none, _ => some (.badField, 3)
    | some _, some m, a =>
      if bodyHalf s n 0x24 = 0 then some (.badField, 4)
      else if (match a with | none => true | some a => !armFits m a) then some (.badField, 5)
      else if 1 < bodyByte s n 0x27 then some (.badField, 6)
      else none

/-- The written channel before it starts: IDLE with remaining count 0, or ARMED (R49). No coming step
passes as one that it took ahead before it was written (log 10). -/
def Channel.configure (ch : Channel) (src : ChanSource) (m : ChanMode) (reload : Nat) (a : ArmSource)
    (st : ChanState) : Channel :=
  { ch with source := src, mode := m, reload := reload, arm := a, state := st, remaining := 0,
            ahead := false }

/-- An accepted TRIGGER_SET (R49). -/
def writeChannel (c : Fin 12) (src : ChanSource) (m : ChanMode) (reload : Nat) (a : ArmSource)
    (begin : Bool) (s : State) : State :=
  let was := s.trig.channels[c].state
  if !begin then updChannel c (fun ch => ch.configure src m reload a .idle) s
  else if m = .delayedOneShot then updChannel c (fun ch => ch.configure src m reload a .armed) s
  else startCounting c reload (updChannel c (fun ch => ch.configure src m reload a was) s)

/-- TRIGGER_SET (R49). -/
def takeTriggerSet (n : Nat) (s : State) : State :=
  match triggerSetRefusal s n with
  | some (code, d) => refuseTicket n code d s
  | none =>
    let c : Fin 12 := Fin.ofNat 12 (bodyByte s n 0x20)
    let s1 := writeChannel c ((sourceOf (bodyByte s n 0x21)).getD .drum)
      ((modeOf (bodyByte s n 0x22)).getD .oneShot) (bodyHalf s n 0x24)
      ((armOf (bodyByte s n 0x26)).getD .unarmed) (bodyByte s n 0x27 == 1) s
    finishTicket n .ok (natWord s1.trig.channels[c].state.code) s1

/-- The channels a TRIGGER_GROUP names; bits 12 to 15 name none (R50). -/
def groupOf (set : Half) : List (Fin 12) := allChannels.filter fun c => set.getLsbD c.val

/-- TRIGGER_GROUP (R50). -/
def takeTriggerGroup (n : Nat) (s : State) : State :=
  let cs := groupOf (ticketHalf s n 0x20)
  if cs.isEmpty then refuseTicket n .badField 0 s
  else if cs.contains 0 || cs.contains 1 then refuseTicket n .locked 0 s
  else finishTicket n .ok (natWord (armCount .groupFire cs s)) (armEvent .groupFire cs s)

/-- The signed correction of a TRIGGER_CORRECT body. -/
def correctionOf (s : State) (n : Nat) : Int := (ticketWord s n 0x24).toInt

/-- A corrected channel; at a result of 0 it fires at its next forward step, also where it has taken a
step ahead (R51, log 10). -/
def Channel.correct (ch : Channel) (r : Nat) : Channel :=
  { ch with remaining := r, ahead := ch.ahead && r != 0 }

/-- TRIGGER_CORRECT (R51). -/
def takeTriggerCorrect (n : Nat) (s : State) : State :=
  let c : Fin 12 := Fin.ofNat 12 (bodyByte s n 0x20)
  if 11 < bodyByte s n 0x20 then refuseTicket n .badField 1 s
  else if bodyByte s n 0x20 ≤ 1 then refuseTicket n .locked 0 s
  else if correctionOf s n < -65535 ∨ 65535 < correctionOf s n then refuseTicket n .badField 2 s
  else if s.trig.channels[c].state ≠ .counting then
    refuseTicket n .state (natWord s.trig.channels[c].state.code) s
  else
    let r := limitNat 0 65535 (s.trig.channels[c].remaining + correctionOf s n)
    finishTicket n .ok (natWord r) (updChannel c (fun ch => ch.correct r) s)

/-- The eight latch levels, the result area of an OUTPUT_SET (R55). -/
def latchLevels (s : State) : List Byte := s.trig.latches.toList.map fun l => boolByte l.level

/-- Finish an accepted or ignored OUTPUT_SET with the latch levels in its result area (R55). -/
def finishOutput (n : Nat) (detail : Word) (s : State) : State :=
  finishTicket n .ok detail (putBytes (ticketBase n + 0x80) (latchLevels s) s)

/-- Rewrite one latch. -/
def updLatch (i : Fin 8) (f : Latch → Latch) (s : State) : State :=
  setLatches (s.trig.latches.set i (f s.trig.latches[i])) s

/-- The source an OUTPUT_SET body names: a channel 0..11, or 255 DIRECT (10.6). -/
def latchSourceOf (b : Nat) : Option (Option (Fin 12)) :=
  if h : b < 12 then some (some ⟨b, h⟩) else if b = 255 then some none else none

/-- Whether a field of the named operation is out of range (R55, refusal 2). -/
def outputFieldBad (s : State) (n : Nat) : Bool :=
  if bodyByte s n 0x21 = 0 then decide (1 < bodyByte s n 0x22)
  else (latchSourceOf (bodyByte s n 0x23)).isNone
    || decide (bodyHalf s n 0x26 < 1) || decide (1000 < bodyHalf s n 0x26)
    || decide (1 < bodyByte s n 0x24)

/-- OUTPUT_SET (R55). -/
def takeOutputSet (n : Nat) (s : State) : State :=
  let i : Fin 8 := Fin.ofNat 8 (bodyByte s n 0x20)
  if 7 < bodyByte s n 0x20 ∨ 1 < bodyByte s n 0x21 then refuseTicket n .badField 1 s
  else if outputFieldBad s n then refuseTicket n .badField 2 s
  else if s.trig.latches[i].protect then finishOutput n 1 s
  else if bodyByte s n 0x21 = 0 then
    (if s.trig.latches[i].source = none then
      finishOutput n 0 (updLatch i (fun l => { l with level := bodyByte s n 0x22 == 1 }) s)
    else refuseTicket n .state 0 s)
  else
    finishOutput n 0 (updLatch i (fun _ =>
      { source := (latchSourceOf (bodyByte s n 0x23)).getD none, width := bodyHalf s n 0x26,
        protect := bodyByte s n 0x24 == 1, level := false, pulseEnd := none }) s)

/-! ## Line reset (R46, R53, R54) -/

/-- The trigger unit's line reset. -/
def trigReset (s : State) : State :=
  { s with trig := {
      channels := s.trig.channels.map fun ch => { ch with state := .idle, remaining := 0, ahead := false },
      latches := s.trig.latches.map fun l => { l with level := false, pulseEnd := none },
      cuts := [] } }

end Sys2Proof.Machine
end

