-- ==== Sys2Proof/Machine/Check.lean ====
section
/-! DEFINITION. The check unit (chapter 9): readings and their attribution, HEAD_LOST, the fabric
splice finding, the verdict event in its six stages, and TRIM_RESET. -/

namespace Sys2Proof.Machine

/-! ## Readings (R151, R152) -/

/-- Whether a record is searched for a reading: it has its f_lead, is not VOID, and its profile has
a check part (R152). -/
def searched (s : State) (p : Panel) : Bool :=
  p.fLead.isSome && p.state != .void && checkPresent s p.profile

/-- A drum count lies in the record's strip window, the last 600 counts of its body (R152). -/
def inStrip (p : Panel) (a : Word) : Bool :=
  match p.fLead with
  | none => false
  | some f => inSpan a (f + BitVec.ofNat 32 p.length - 600) 600

/-- The record whose strip window holds a drum count; of two, the one with the larger f_lead (R152; of
two with equal f_lead, log 42). -/
def stripRecord (s : State) (a : Word) : Option Panel :=
  (s.ord.panels.filter fun p => searched s p && inStrip p a).foldl laterLead none

/-- Whether every density of a reading is at most 3000 (R151). -/
def densitiesFit (d : Cmyk Half) : Bool :=
  decide (d.c.toNat ≤ 3000) && decide (d.m.toNat ≤ 3000) && decide (d.y.toNat ≤ 3000)
  && decide (d.k.toNat ≤ 3000)

/-- A reading joins the record's sums; at 255 readings it is ignored (R152). -/
def Panel.addReading (p : Panel) (d : Cmyk Half) : Panel :=
  if p.readings < 255 then
    { p with
      readings := p.readings + 1,
      sums := { c := p.sums.c + d.c.toNat, m := p.sums.m + d.m.toNat,
                y := p.sums.y + d.y.toNat, k := p.sums.k + d.k.toNat } }
  else p

/-- Attribute a good reading (R152). -/
def creditReading (xr : Word) (d : Cmyk Half) (s : State) : State :=
  match stripRecord s (xr - 45000) with
  | none => s
  | some p => updPanel p.number (fun q => q.addReading d) s

/-- A READING: the last reading time, the end of HEAD_LOST, then the judgement (R151). -/
def takeReading (xr : Word) (d : Cmyk Half) (q : Quality) (s : State) : State :=
  let s1 := endCondition .headLost { s with lastReading := s.host.clock }
  if q = .good ∧ densitiesFit d then creditReading xr d s1 else s1

/-! ## Tests at a forward step of X (R153, R154) -/

/-- The HEAD_LOST test: the record at the head is one that would accept a reading, so its reading count
is below 255 (R153, R152). -/
def headTest (s : State) : State :=
  if s.line.state = .run ∧ 5000 ≤ sdiff s.host.clock s.lastReading then
    match stripRecord s (s.pos.x - 45000) with
    | none => s
    | some p => if p.readings < 255 then raiseAlarm .headLost (p.number.setWidth 32) 0 s else s
  else s

/-- A record whose tail is watched for fabric splices: ON_FABRIC, or a final VOID of stage FABRIC
(R154). -/
def Panel.tailWatched (p : Panel) : Bool :=
  p.state == .onFabric || (p.state == .void && p.travel == some .fabric && p.finalVoid)

/-- X has come to the record's tail, f_lead + length (R154). -/
def tailAt (s : State) (p : Panel) : Bool :=
  match p.fLead with
  | none => false
  | some f => p.tailWatched && (s.pos.x == f + BitVec.ofNat 32 p.length)

/-- Whether a fabric splice lies under a record's body; `leaving` tells whether one that leaves the
list at this very step still counts (R154, R45; log 8). -/
def spliceUnder (s : State) (leaving : Bool) (p : Panel) : Bool :=
  s.pos.splices.any fun r => r.web == .fabric &&
    (match r.arrival with
      | none => false
      | some a => bodyHolds p a && (leaving || !reached s.pos.x (a + 56000)))

/-- The fabric splice finding at the tails that X has come to (R154). -/
def tailFindings (s : State) : State :=
  if s.ord.panels.any (tailAt s) then
    draw (mapPanels (fun p =>
      if tailAt s p ∧ spliceUnder s (Config.leavingSpliceSeen s.drawn) p then
        { p with fabricSplice := true } else p) s)
  else s

/-! ## Findings (R156, R157) -/

/-- The value of a list of flags, the first at bit 0. -/
def bitsOf : List Bool → Nat
  | [] => 0
  | b :: bs => (if b then 1 else 0) + 2 * bitsOf bs

/-- A record's four density sums in the order C, M, Y, K. -/
def Panel.sumList (p : Panel) : List Nat := [p.sums.c, p.sums.m, p.sums.y, p.sums.k]

/-- Whether the colour findings are made: FINISHED, with a check part and a reading (R157). -/
def colourJudged (s : State) (p : Panel) : Bool :=
  p.state == .finished && checkPresent s p.profile && decide (0 < p.readings)

/-- The deviation of one colour: its mean less its expected density (R157). -/
def deviation (s : State) (p : Panel) (c : Nat) : Int :=
  ((p.sumList.getD c 0 / p.readings : Nat) : Int) - (expected s p.profile c : Int)

/-- The four deviations, none where no colour finding is made (R157). -/
def deviations (s : State) (p : Panel) : List Int :=
  if colourJudged s p then (List.range 4).map (deviation s p) else []

/-- The deviation of greatest size, the first of equals; 0 for none (R157). -/
def largestDeviation (ds : List Int) : Int :=
  ds.foldl (fun best d => if best.natAbs < d.natAbs then d else best) 0

/-- Whether some deviation passes its tolerance on the side of `sign` (R157). -/
def beyond (s : State) (p : Panel) (sign : Int) : Bool :=
  colourJudged s p &&
    (List.range 4).any fun c => decide ((tolerance s p.profile c : Int) < sign * deviation s p c)

/-- MISREG: an error or a stretch beyond the registration tolerance (R156). -/
def misregistered (s : State) (p : Panel) : Bool :=
  (match p.regError with
    | none => false
    | some e => decide (regTolerance s p.profile < e.natAbs))
  || decide (regTolerance s p.profile < p.stretch)

/-- The four dose reasons (R156). -/
def doseReasons (s : State) (p : Panel) : List Bool :=
  if p.state = .finished then
    [decide (p.doseMin < dMin s p.profile), decide (dMax s p.profile < p.doseMax), p.interrupted,
     p.overheat]
  else [false, false, false, false]

/-- The reason set, in the bit order of the copy summary (R156, R157). -/
def reasonsOf (s : State) (p : Panel) : List Bool :=
  doseReasons s p ++
    [misregistered s p, p.matched && p.piece.isNone, p.paperSplice || p.fabricSplice, p.finalVoid,
     beyond s p (-1), beyond s p 1]

/-- The warning set, in the bit order of the copy summary (R156, R157). -/
def warningsOf (s : State) (p : Panel) : List Bool :=
  [p.markMissed, p.phaseLimit,
   p.state == .finished && checkPresent s p.profile && p.readings == 0, decide (0 < p.retries)]

/-- Stages 1 and 2: the verdict of a record (R156 to R158). -/
def verdictOf (s : State) (p : Panel) : Verdict where
  reject := (reasonsOf s p).any id
  reasons := BitVec.ofNat 16 (bitsOf (reasonsOf s p))
  warnings := BitVec.ofNat 8 (bitsOf (warningsOf s p))
  deviation := largestDeviation (deviations s p)

/-! ## Drift (R159) -/

/-- Whether the verdict steps the slot's dose trim (R159). -/
def driftAllowed (s : State) (p : Panel) : Bool :=
  colourJudged s p && driftEnable s p.profile && !(doseReasons s p).any id

/-- The drift step of four deviations (R159). -/
def driftStep (ds : List Int) : Int := limit (-5) 5 ((-(ds.sum.tdiv 4)).tdiv 4)

/-- The trim a drift step leaves (R159). -/
def driftedTrim (old step : Int) : Int := limit (-100) 100 (old + step)

/-- The TRIM_LIMIT notice of a step that leaves the trim at its limit (R159). -/
def noteTrimLimit (p : Panel) (step trim : Int) (s : State) : State :=
  if (trim = 100 ∨ trim = -100) ∧ step ≠ 0 then
    writeNotice .trimLimit (natWord p.profile.val) (p.number.setWidth 32) (intWord trim) s
  else s

/-- Stage 3 (R159). -/
def driftStage (p : Panel) (s : State) : State :=
  if driftAllowed s p then
    let step := driftStep (deviations s p)
    let trim := driftedTrim s.lib.slots[p.profile].trim step
    noteTrimLimit p step trim (setTrim p.profile trim s)
  else s

/-! ## Mark, cut and handover (R160, R161) -/

/-- Stage 4 (R160). -/
def markStage (p : Panel) (v : Verdict) (s : State) : State :=
  if v.reject ∧ p.rejectMark then markRequest p.number s else s

/-- Whether a verdict on copy k settles the last copy of an order that asks for a cut (R160). -/
def OpenOrder.cutsAfter (o : OpenOrder) (k : Nat) : Bool :=
  o.cutLast && (o.copiesWhere Copy.unsettled).all (· == k)

/-- The cut position of a record: 25.0 mm past its tail at the knife (R160). -/
def cutPosition (p : Panel) : Word := p.fLead.getD 0 + BitVec.ofNat 32 (p.length + 250 + 52000)

/-- Stage 5 (R160). -/
def cutStage (p : Panel) (s : State) : State :=
  match findOrder p.ticket s with
  | none => s
  | some o => if o.cutsAfter p.copy then cutRequest (cutPosition p) p.number s else s

/-- The verdict event of a record (R155). -/
def verdictEvent (p : Panel) (s : State) : State :=
  let v := verdictOf s p
  let s1 := updPanel p.number (fun q => { q with verdict := some v }) s
  settleCopy p v (cutStage p (markStage p v (driftStage p s1)))

/-- A record whose verdict point X has reached (R155). -/
def verdictDue (s : State) (p : Panel) : Bool :=
  (p.state == .finished || (p.state == .void && p.travel == some .fabric && p.finalVoid))
  && leadReached s p 45100

/-- Place a record by f_lead, after any equal one: records with equal f_lead keep the order of the
panel table (log 43). -/
def insertByLead (p : Panel) : List Panel → List Panel
  | [] => [p]
  | q :: qs =>
    if 0 ≤ sdiff (p.fLead.getD 0) (q.fLead.getD 0) then q :: insertByLead p qs else p :: q :: qs

/-- The verdict event of a record found by its number. -/
def verdictOn (s : State) (n : Half) : State :=
  match findPanel n s with
  | none => s
  | some p => verdictEvent p s

/-- The verdict events of one step, in rising order of f_lead (R155). -/
def verdicts (s : State) : State :=
  ((((s.ord.panels.filter (verdictDue s)).foldl (fun l p => insertByLead p l) []).map
    (·.number)).foldl verdictOn s)

/-! ## TRIM_RESET and line reset (R162, R150) -/

/-- TRIM_RESET (R162). -/
def takeTrimReset (n : Nat) (s : State) : State :=
  let i : Fin 16 := Fin.ofNat 16 (bodyByte s n 0x20)
  if 15 < bodyByte s n 0x20 then refuseTicket n .badField 0 s
  else finishTicket n .ok (intWord s.lib.slots[i].trim) (setTrim i 0 s)

/-- The check unit's line reset (R150). -/
def checkReset (s : State) : State := endCondition .headLost s

end Sys2Proof.Machine
end

