-- ==== Sys2Proof/Machine/Registration.lean ====
section
/-! DEFINITION. The registration unit (chapter 5): the fabric piece queue, the paper mark windows,
pairing, the phase roller, nip arrival and PHASE_HOME. -/

namespace Sys2Proof.Machine

/-! ## Piece queue and pairing (R78, R83 to R85) -/

def setQueue (q : List Piece) (s : State) : State := { s with reg := { s.reg with queue := q } }

/-- The target offset O* of a panel against a piece (R83). -/
def targetOffset (xf xp : Word) : Int := sdiff (xf + 30000) (xp + 12000)

/-- Whether a queue entry qualifies for a panel (R83). -/
def qualifies (xp : Word) (p : Piece) : Bool :=
  !p.paired && !p.skipped && decide (-600 ≤ targetOffset p.xf xp)

/-- The oldest qualifying piece's x_f, and the queue with it paired and the unpaired pieces ahead of
it skipped (R84). -/
def takePiece (xp : Word) : List Piece → Option (Word × List Piece)
  | [] => none
  | p :: ps =>
    if qualifies xp p then some (p.xf, { p with paired := true } :: ps)
    else (takePiece xp ps).map fun r =>
      (r.1, (if p.paired then p else { p with skipped := true }) :: r.2)

/-- The flag and the notice of a limited pairing (R85). -/
def limitPairing (n : Half) (offset : Int) (xf : Word) (s : State) : State :=
  if 600 < offset then
    writeNotice .pairLimited (n.setWidth 32) (intWord offset) xf
      (updPanel n (fun p => { p with phaseLimit := true }) s)
  else s

/-- Pair a record that has x_p with the oldest qualifying piece, if there is one (R84). -/
def pairPanel (n : Half) (xp : Word) (s : State) : State :=
  match takePiece xp s.reg.queue with
  | none => s
  | some (xf, q) =>
    limitPairing n (targetOffset xf xp) xf
      (updPanel n (fun p => { p with piece := some xf, offset := targetOffset xf xp })
        (setQueue q s))

/-! ## The roller target (R86) -/

/-- Set the roller target, with the PHASE_LIMIT condition decided by the limited flag (R86). -/
def setTarget (n : Half) (target : Int) (limited : Bool) (s : State) : State :=
  let s1 := { s with reg := { s.reg with target := target, limited := limited } }
  if limited then raiseAlarm .phaseLimit (n.setWidth 32) 0 s1 else endCondition .phaseLimit s1

/-- Review the roller target from the head of the registration list (R86). -/
def review (s : State) : State :=
  if s.reg.home.isSome then s
  else match s.reg.list with
    | [] => s
    | n :: _ =>
      match findPanel n s with
      | none => s
      | some p =>
        if p.piece.isSome then setTarget n (limit (-600) 600 p.offset) (decide (600 < p.offset)) s
        else s

/-! ## Waiting paper records, staging (R80 to R82) -/

/-- A record in ON_PAPER, or a VOID record of stage PAPER (5.3). -/
def Panel.waitingPaper (p : Panel) : Bool :=
  p.state == .onPaper || (p.state == .void && p.travel == some .paper)

/-- The state or travel stage after staging (R82). -/
def Panel.toStaged (p : Panel) : Panel :=
  if p.state = .void then { p with travel := some .staged } else { p with state := .staged }

/-- The state or travel stage after arrival (R89). -/
def Panel.toFabric (p : Panel) : Panel :=
  if p.state = .void then { p with travel := some .fabric } else { p with state := .onFabric }

/-- A record's x_p, 0 while it has none. -/
def xpOf (s : State) (n : Half) : Word := ((findPanel n s).bind (·.xp)).getD 0

/-- Place a number in the registration list by x_p, after any equal one (R77). -/
def insertByXp (key : Half → Word) (n : Half) : List Half → List Half
  | [] => [n]
  | m :: ms => if reached (key n) (key m) then m :: insertByXp key n ms else n :: m :: ms

def setList (l : List Half) (s : State) : State := { s with reg := { s.reg with list := l } }

/-- Stage a record (R82). -/
def stagePanel (n : Half) (s : State) : State :=
  let s1 := updPanel n Panel.toStaged s
  let s2 := setList (insertByXp (xpOf s1) n s1.reg.list) s1
  let s3 := match findPanel n s2 with
    | none => s2
    | some p => if p.matched then pairPanel n (p.xp.getD 0) s2 else s2
  if s3.reg.list.head? = some n then review s3 else s3

/-- U lies in the record's mark window, s_lead + 27500 .. s_lead + 28500 (5.3). -/
def inWindow (p : Panel) (u : Word) : Bool :=
  reached u (p.sLead + 27500) && decide (sdiff u (p.sLead + 28500) ≤ 0)

/-- The stand-in x_p of a waiting paper record (R80, test 1). A change of U carries no stamp of X here: the
X of that moment is the X standing when the command is taken (R95; DESIGN CHOICE, log 48). -/
def standIn (s : State) (p : Panel) : Panel :=
  if p.waitingPaper ∧ p.xp = none ∧ reached s.pos.u (p.sLead + 28000) then
    { p with xp := some s.pos.x } else p

/-- The window of one record passes without a mark (R80, test 2). -/
def passWindow (s : State) (n : Half) : State :=
  match findPanel n s with
  | none => s
  | some p =>
    if p.waitingPaper ∧ 0 < sdiff s.pos.u (p.sLead + 28500) then
      stagePanel n (updPanel n (fun p => { p with markMissed := true }) s)
    else s

/-- Both tests of every waiting paper record at a change of U (R80). Where one setting of U passes
several windows, the records are staged in the order of the panel table (log 43). -/
def windowTests (s : State) : State :=
  (s.ord.panels.map (·.number)).foldl passWindow (mapPanels (standIn s) s)

/-- A paper mark sighting at the registration unit: a mark in two windows goes to the record created
first (R81; log 43). -/
def paperMarkAt (st : Stamp) (s : State) : State :=
  match s.ord.panels.find? fun p => p.waitingPaper && inWindow p st.u with
  | none => writeNotice .markStray st.x st.s st.u s
  | some p => stagePanel p.number (updPanel p.number (fun p => { p with xp := some st.x }) s)

/-! ## Fabric marks (R78, R84) -/

/-- Retry one waiting panel of the list (R84). -/
def retryPanel (s : State) (n : Half) : State :=
  match findPanel n s with
  | none => s
  | some p => if p.matched ∧ p.piece = none then pairPanel n (p.xp.getD 0) s else s

/-- The piece of the list's head record. -/
def headPiece (s : State) : Option Word := (s.reg.list.head?.bind fun n => findPanel n s).bind (·.piece)

/-- Retry every waiting panel in list order; the target is reviewed if the head is paired by it
(R84, R86). -/
def retryWaiting (s : State) : State :=
  let s1 := s.reg.list.foldl retryPanel s
  if headPiece s1 ≠ headPiece s then review s1 else s1

/-- A fabric mark sighting at the registration unit (R78). -/
def fabricMarkAt (x : Word) (s : State) : State :=
  if !s.line.marks then s
  else if s.reg.queue.length < 8 then
    retryWaiting (setQueue (s.reg.queue ++ [{ xf := x, paired := false, skipped := false }]) s)
  else raiseAlarm .pieceOverflow x 0 s

/-! ## One forward step of X (R94) -/

/-- The roller's move at a crossing of a multiple of 1000 (R87). -/
def rollerMove (s : State) : Int := limit (-20) 20 (s.reg.target - s.reg.position)

/-- Whether a record's body spans the nip at the present X (R88). -/
def spansNip (s : State) (p : Panel) : Bool :=
  (p.state == .onFabric || (p.state == .void && p.travel == some .fabric)) && bodyHolds p s.pos.x

/-- Add the size of a roller move to the stretch of every record that spans the nip (R88). -/
def addStretch (size : Nat) (s : State) : State :=
  mapPanels (fun p => if spansNip s p then { p with stretch := satAdd 65535 p.stretch size } else p) s

/-- PHASE_HOME finishes when the position has reached 0 (R92). -/
def finishHome (s : State) : State :=
  match s.reg.home with
  | none => s
  | some t =>
    if s.reg.position = 0 then
      review (finishLong t .ok s.reg.measured { s with reg := { s.reg with home := none } })
    else s

/-- Stage 1: the roller moves at a crossing (R87, R88, R92). -/
def rollerStage (s : State) : State :=
  finishHome (addStretch (rollerMove s).natAbs
    { s with reg := { s.reg with position := s.reg.position + rollerMove s } })

/-- The registration error at an arrival: absent without a paired piece (R89). -/
def arrivalError (s : State) (p : Panel) : Option Int :=
  p.piece.map fun _ => limit (-32767) 32767 (s.reg.position - p.offset)

/-- The nip arrival handover: the tension unit's copy and the nip profile name (R35, R90). -/
def nipHandover (i : Fin 16) (s : State) : State :=
  { s with
    tens := { s.tens with nip := some {
      setpoints := Vector.ofFn fun z => setpoint s i z,
      fabricOut := taperPart s i 0x044,
      paperOut := taperPart s i 0x04C } },
    host := { s.host with nipName := nameTag s i } }

/-- A record arrives at the nip (R89, R90), and the dose unit tests its tail cell for a record that
is ON_FABRIC (R116). -/
def arrive (p : Panel) (s : State) : State :=
  let s1 := updPanel p.number (fun q =>
    { q.toFabric with fLead := some s.pos.x, regError := arrivalError s q }) s
  let s2 := setList (s1.reg.list.filter fun m => m != p.number) s1
  let s3 := nipHandover p.profile s2
  let s4 := if p.state = .void then s3 else nameTail p.number s.pos.x s3
  if s.reg.list.head? = some p.number then review s4 else s4

/-- The arrival test of one record of the list (R89). -/
def arrivalTest (s : State) (n : Half) : State :=
  match findPanel n s with
  | none => s
  | some p =>
    match p.xp with
    | none => s
    | some xp =>
      if reached s.pos.x (xp + 12000 + intWord s.reg.position) then arrive p s else s

/-- Stage 2: arrivals in list order (R94). -/
def arrivalStage (s : State) : State := s.reg.list.foldl arrivalTest s

/-- A piece leaves the head of the queue: its notice if no panel has it, and the end of
PIECE_OVERFLOW if the queue held 8 (R79). -/
def leavePiece (p : Piece) (full : Bool) (s : State) : State :=
  let s1 := if p.paired then s
    else writeNotice .pieceSkipped p.xf (if p.skipped then 1 else 0) 0 s
  if full then endCondition .pieceOverflow s1 else s1

/-- Take the pieces whose leads have reached the nip from the head of a queue (R79). -/
def leavePieces (s : State) : List Piece → State
  | [] => setQueue [] s
  | p :: ps =>
    if reached s.pos.x (p.xf + 30000) then
      leavePieces (leavePiece p (decide (8 ≤ (p :: ps).length)) s) ps
    else setQueue (p :: ps) s

/-- Stage 3: pieces leave (R79, R94). -/
def pieceStage (s : State) : State := leavePieces s s.reg.queue

/-- A forward step of X at the registration unit; `crosses` tells whether it crosses a multiple of
1000 (R94). -/
def registrationStep (crosses : Bool) (s : State) : State :=
  pieceStage (arrivalStage (if crosses then rollerStage s else s))

/-! ## PHASE_HOME and line reset (R92, R93, R77) -/

/-- PHASE_HOME (R92). -/
def takePhaseHome (n : Nat) (s : State) : State :=
  if s.line.state = .run then refuseTicket n .state 0 s
  else if s.reg.home.isSome then refuseTicket n .busy 0 s
  else
    let s1 := setTarget 0 0 false s
    if s.reg.position = 0 then retest (finishTicket n .ok s.reg.measured s1)
    else retest (raiseCount { s1 with reg := { s1.reg with home := some n } })

/-- The registration unit's line reset (R77, R93). -/
def regReset (s : State) : State :=
  let s1 := match s.reg.home with
    | none => s
    | some t => finishLong t .cancelled s.reg.measured { s with reg := { s.reg with home := none } }
  endCondition .pieceOverflow (endCondition .phaseLimit
    { s1 with reg := { s1.reg with queue := [], list := [], target := 0, limited := false } })

end Sys2Proof.Machine
end

