-- ==== Sys2Proof/Machine/Tension.lean ====
section
/-! DEFINITION. The tension unit (chapter 8): the tension sample stage by stage, the splice hold
windows, and the tickets TENSION_TUNE, TENSION_MIX and AUTO_ZERO. -/

namespace Sys2Proof.Machine

/-! ## Stage 1: cells and mix mode (R136) -/

/-- A raw value at a rail. -/
def atRail (raw : Nat) : Bool := raw == 0 || raw == 32767

/-- A cell's fault run count and lost flag after a raw value (R136). -/
def LoadCell.sample (c : LoadCell) (raw : Nat) : LoadCell :=
  if atRail raw != c.lost then
    (if 10 ≤ c.run + 1 then { c with lost := !c.lost, run := 0, raw := raw }
    else { c with run := c.run + 1, raw := raw })
  else { c with run := 0, raw := raw }

/-- The cell of a side. -/
def TensionZone.cell (t : TensionZone) : Side → LoadCell
  | .left => t.l
  | .right => t.r

/-- Whether a mix mode uses the cell of a side (R145). -/
def MixMode.uses (m : MixMode) : Side → Bool
  | .left => m == .both || m == .leftOnly
  | .right => m == .both || m == .rightOnly

/-- The mix mode degraded where a cell is lost and the other is not (R136). -/
def degraded (t : TensionZone) : MixMode :=
  if t.l.lost && !t.r.lost && t.mix.uses .left then .rightOnly
  else if t.r.lost && !t.l.lost && t.mix.uses .right then .leftOnly
  else t.mix

/-- The zone state and mix mode that follow the lost flags (R136). -/
def followCells (t : TensionZone) : TensionZone :=
  if t.l.lost && t.r.lost then
    { t with lost := true, integral := 0, trim := 0, breakCount := 0, skewCount := 0 }
  else
    { t with lost := false, integral := if t.lost then 0 else t.integral, mix := degraded t }

/-- The sides whose lost flag has just been set, L before R: where both are set at one sample, L is
raised and reported first (log 44). -/
def newlyLost (before after : TensionZone) : List Side :=
  [Side.left, Side.right].filter fun sd => (after.cell sd).lost && !(before.cell sd).lost

/-- How an auto-zero ends: its record and the values its ticket finishes with (R147, R148). -/
structure AutoEnd where
  auto : AutoZero
  zeroL : Int
  zeroR : Int
  code : ResultCode
  detail : Nat
  reason : Nat
  side : Nat

/-- A failed auto-zero: TRIM_FAILED with the saved zeros (R148). -/
def autoFailed (a : AutoZero) (reason : Nat) (side : Side) : AutoEnd :=
  { auto := a, zeroL := a.savedL, zeroR := a.savedR, code := .trimFailed, detail := 0,
    reason := reason, side := side.code }

/-- The end of an auto-zero by a cell of its own that has become lost, reason 3 LOST; where both cells
have, the side is L (R148; log 44). -/
def autoLost (before after : TensionZone) : Option AutoEnd :=
  match before.auto with
  | none => none
  | some a => ((newlyLost before after).find? fun sd => a.cells.contains sd).map (autoFailed a 3)

/-- The zone once an auto-zero has ended: the zeros it leaves, the record IDLE. -/
def TensionZone.endAuto (t : TensionZone) : Option AutoEnd → TensionZone
  | none => t
  | some e => { t with l := { t.l with zero := e.zeroL }, r := { t.r with zero := e.zeroR },
                       auto := none }

/-- Stage 1 with the raw values taken. -/
def sampleCells (raw : RawPair) (t : TensionZone) : TensionZone :=
  let t1 := { t with l := t.l.sample raw.l.toNat, r := t.r.sample raw.r.toNat }
  followCells (t1.endAuto (autoLost t t1))

/-! ## Stage 2: measurement (R135) -/

/-- A cell's tension: (raw − zero) × gain / 1024, limited to 0..20000 (R135). -/
def LoadCell.tension (c : LoadCell) : Nat :=
  limitNat 0 20000 ((((c.raw : Int) - c.zero) * (c.gain : Int)).tdiv 1024)

/-- The measured tension and skew (R135). -/
def measure (t : TensionZone) : TensionZone :=
  if t.lost then { t with measured := 0, skew := 0 }
  else match t.mix with
    | .both => { t with measured := t.l.tension + t.r.tension,
                        skew := (t.l.tension : Int) - (t.r.tension : Int) }
    | .leftOnly => { t with measured := 2 * t.l.tension, skew := 0 }
    | .rightOnly => { t with measured := 2 * t.r.tension, skew := 0 }

/-! ## Stage 3: targets and taper (R137, R138) -/

/-- A held diameter after its channel's reading record is looked at (R138). -/
def heldDiameter (held : Nat) (r : Reading) : Nat := if r.valid ∧ r.age ≤ 20 then r.value else held

/-- Update both held diameters (R138). -/
def updateHeld (s : State) : State :=
  { s with tens := { s.tens with
      heldFabric := heldDiameter s.tens.heldFabric s.heat.readings[(8 : Fin 10)],
      heldPaper := heldDiameter s.tens.heldPaper s.heat.readings[(9 : Fin 10)] } }

/-- The tapered setpoint (R138). -/
def taperedTarget (base held : Nat) (t : Taper) : Nat :=
  base * (1000 - t.taper * (limitNat t.dc t.df held - t.dc) / (t.df - t.dc)) / 1000

/-- A setpoint under a taper part that may be absent (R138). -/
def withTaper (base held : Nat) : Option Taper → Nat
  | none => base
  | some t => taperedTarget base held t

/-- The target of a zone (R137). -/
def tensionTarget (s : State) (z : Fin 4) : Nat :=
  if !started s ∨ s.line.state = .cold then 0
  else match s.tens.nip with
    | none => defaultTension s z
    | some c =>
      if z = 1 then withTaper c.setpoints[z] s.tens.heldFabric c.fabricOut
      else if z = 3 then withTaper c.setpoints[z] s.tens.heldPaper c.paperOut
      else c.setpoints[z]

/-! ## Stages 4 and 5: ramp and regulator (R139, R140) -/

/-- One ramp step of a working setpoint, never passing the target (R139). -/
def rampWorking (working target step : Nat) : Nat :=
  if working < target then min target (working + step) else max target (working - step)

/-- Stages 3 and 4 of a zone. -/
def rampZone (target : Nat) (cold : Bool) (t : TensionZone) : TensionZone :=
  let w := if cold then t.working else rampWorking t.working target t.rampStep
  { t with target := target, working := w, rampDone := w == target }

/-- The control error (R140). -/
def TensionZone.error (t : TensionZone) : Int := (t.working : Int) - (t.measured : Int)

/-- Whether the integral keeps its value at this sample (R140). -/
def TensionZone.frozen (t : TensionZone) (sCmd : Nat) : Bool :=
  t.holdEnd.isSome || (t.trim == 200 && decide (0 < t.error))
  || (t.trim == -200 && decide (t.error < 0)) || sCmd == 0

/-- Stage 5 (R140). -/
def regulateZone (sCmd : Nat) (t : TensionZone) : TensionZone :=
  if t.lost then t
  else
    let i := if t.frozen sCmd then t.integral
      else limit (-200) 200 (t.integral + ((t.ki : Int) * t.error).tdiv 4096)
    { t with
      integral := i,
      trim := if sCmd = 0 then 0 else limit (-200) 200 (((t.kp : Int) * t.error).tdiv 256 + i) }

/-! ## Stage 6: guards (R141, R142) -/

/-- Whether the break test is made in a line state (R141). -/
def breakTested : LineState → Bool
  | .ready | .run | .hold => true
  | .cold | .thread | .warm | .halt => false

/-- The break count after the test (R141). -/
def breakZone (st : LineState) (t : TensionZone) : TensionZone :=
  if t.lost || !breakTested st then t
  else if t.measured < t.working / 8 then { t with breakCount := min 50 (t.breakCount + 1) }
  else { t with breakCount := 0 }

/-- The skew count after the test (R142). -/
def skewZone (started : Bool) (lim : Nat) (t : TensionZone) : TensionZone :=
  if started && !t.lost && t.mix == .both && decide (lim < t.skew.natAbs) then
    { t with skewCount := min 100 (t.skewCount + 1) }
  else { t with skewCount := 0 }

/-! ## Stage 7: auto-zero (R147) -/

/-- raw − zero of a side's cell. -/
def TensionZone.offsetOf (t : TensionZone) (sd : Side) : Int :=
  ((t.cell sd).raw : Int) - (t.cell sd).zero

/-- Whether the cell in work is done (R147). -/
def AutoZero.done (a : AutoZero) (t : TensionZone) : Bool :=
  match a.mode with
  | .cross => (t.offsetOf a.work).sign == 0 || (t.offsetOf a.work).sign != a.sign
  | .meet => decide ((t.offsetOf a.work).natAbs < a.step)

/-- The cell that follows the one in work, if any. -/
def AutoZero.follower (a : AutoZero) : Option Side :=
  if a.work = .left ∧ a.cells.contains .right then some .right else none

/-- The zero of the cell in work one step toward its raw value (R147). -/
def AutoZero.movedZero (a : AutoZero) (t : TensionZone) : Int :=
  (t.cell a.work).zero + (if 0 < t.offsetOf a.work then (a.step : Int) else -(a.step : Int))

/-- Write the zero of one side's cell. -/
def TensionZone.setZero (t : TensionZone) (sd : Side) (v : Int) : TensionZone :=
  match sd with
  | .left => { t with l := { t.l with zero := v } }
  | .right => { t with r := { t.r with zero := v } }

/-- A paced sample: the zone after it, and the end it brings, if any (R147, R148). -/
def pacedSample (a : AutoZero) (t : TensionZone) : TensionZone × Option AutoEnd :=
  if a.done t then
    match a.follower with
    | some sd =>
      ({ t with auto := some { a with work := sd, steps := 0, sign := (t.offsetOf sd).sign } }, none)
    | none =>
      (t, some { auto := a, zeroL := t.l.zero, zeroR := t.r.zero, code := .ok, detail := a.total,
                 reason := 0, side := 0 })
  else if 512 ≤ a.steps then (t, some (autoFailed a 1 a.work))
  else if a.movedZero t < -4096 ∨ 4096 < a.movedZero t then (t, some (autoFailed a 2 a.work))
  else
    ({ t.setZero a.work (a.movedZero t) with
        auto := some { a with steps := a.steps + 1, total := a.total + 1 } }, none)

/-- Stage 7 of a zone (R147). -/
def autoStage (t : TensionZone) : TensionZone × Option AutoEnd :=
  match t.auto with
  | none => (t, none)
  | some a =>
    if a.paceCount + 1 < a.pace then
      ({ t with auto := some { a with paceCount := a.paceCount + 1 } }, none)
    else pacedSample { a with paceCount := 0 } t

/-! ## The sample (R134) -/

/-- What one zone's sample leaves and reports. -/
structure ZoneSample where
  zone : TensionZone
  lostSides : List Side
  ended : Option AutoEnd

/-- Stages 1 to 6 of a zone, decided from the state at the expiry (R134). -/
def sampleStages (s : State) (z : Fin 4) (raw : RawPair) : TensionZone :=
  skewZone (started s) (skewLimit s)
    (breakZone s.line.state
      (regulateZone s.dose.sCmd
        (rampZone (tensionTarget s z) (s.line.state == .cold)
          (measure (sampleCells raw s.tens.zones[z])))))

/-- One zone's sample (R134). -/
def sampleZone (s : State) (z : Fin 4) (raw : RawPair) : ZoneSample :=
  let before := s.tens.zones[z]
  let cells := { before with l := before.l.sample raw.l.toNat, r := before.r.sample raw.r.toNat }
  let r := autoStage (sampleStages s z raw)
  { zone := r.1.endAuto r.2, lostSides := newlyLost before cells,
    ended := (autoLost before cells).or r.2 }

/-- Finish the ticket of an ended auto-zero (R147, R148). -/
def finishAuto (z : Fin 4) (e : AutoEnd) (s : State) : State :=
  endAuto z e.auto e.zeroL e.zeroR e.code (natWord e.detail) e.reason e.side s

/-- The LOAD_CELL_LOST raises of a zone (R136). -/
def raiseLostCells (z : Fin 4) (sides : List Side) (s : State) : State :=
  sides.foldl (fun s sd => raiseAlarm .loadCellLost (natWord z.val) (natWord sd.code) s) s

/-- The ZONE_LOST raise of a zone, at each sample while it is LOST (R136). -/
def raiseZoneLost (z : Fin 4) (s : State) : State :=
  if s.tens.zones[z].lost then raiseAlarm .zoneLost (natWord z.val) 0 s else s

/-- The WEB_BREAK raise of a zone whose break count stands at 50 (R141). -/
def raiseBreak (z : Fin 4) (s : State) : State :=
  if s.tens.zones[z].breakCount = 50 then
    raiseAlarm .webBreak (natWord z.val) (natWord s.tens.zones[z].measured) s
  else s

/-- The SKEW raise of a zone whose skew count stands at 100 (R142). -/
def raiseSkew (z : Fin 4) (s : State) : State :=
  if s.tens.zones[z].skewCount = 100 then
    raiseAlarm .skew (natWord z.val) (intWord s.tens.zones[z].skew) s
  else s

/-- The end of a zone's auto-zero, if the sample brought one. -/
def reportAuto (z : Fin 4) (e : Option AutoEnd) (s : State) : State :=
  match e with
  | none => s
  | some e => finishAuto z e s

/-- What one zone's sample reports, in stage order. -/
def reportZone (z : Fin 4) (r : ZoneSample) (s : State) : State :=
  reportAuto z r.ended (raiseSkew z (raiseBreak z (raiseZoneLost z (raiseLostCells z r.lostSides s))))

/-- End a condition when a test on the whole state says so. -/
def endWhen (b : Bool) (a : Alarm) (s : State) : State := if b then endCondition a s else s

/-- The ends of the tension alarms after the four zones (R136, R141, R142). -/
def endTensionAlarms (s : State) : State :=
  endWhen (s.tens.zones.all fun t => t.skewCount != 100) .skew
    (endWhen (s.tens.zones.all fun t => t.breakCount != 50) .webBreak
      (endWhen (s.tens.zones.all fun t => !t.lost) .zoneLost
        (endWhen (s.tens.zones.all fun t => !t.l.lost && !t.r.lost) .loadCellLost s)))

/-- The zones after their samples, all decided from the state at the expiry. -/
def setSampled (a b c d : TensionZone) (s : State) : State :=
  { s with tens := { s.tens with zones := #v[a, b, c, d] } }

/-- One tension sample (R134). Its raises act once the four zones are decided (log 16). -/
def tensionStep (a b c d : RawPair) (s : State) : State :=
  let s0 := updateHeld s
  let ra := sampleZone s0 0 a
  let rb := sampleZone s0 1 b
  let rc := sampleZone s0 2 c
  let rd := sampleZone s0 3 d
  retest (endTensionAlarms
    (reportZone 3 rd (reportZone 2 rc (reportZone 1 rb (reportZone 0 ra
      (setSampled ra.zone rb.zone rc.zone rd.zone s0))))))

/-! ## Splice hold windows (R143) -/

/-- The open and close marks of a splice record at a zone, on the zone's own counter (R143). -/
def holdMarks (z : Fin 4) (r : Splice) : Option (Word × Word) :=
  if z = 2 then
    (if r.web = .paper then some (r.seen + 12500, r.seen + 17500) else none)
  else match r.arrival with
    | none => none
    | some a =>
      if z = 0 then (if r.web = .fabric then some (a - 22500, a - 17500) else none)
      else if z = 3 then (if r.web = .paper then some (a + 33500, a + 38500) else none)
      else (if r.web = .fabric then some (a + 53500, a + 58500) else none)

/-- The hold end mark after one record is tested: the counter goes from `old` to `new` (R143). -/
def openHold (z : Fin 4) (old new : Word) (mark : Option Word) (r : Splice) : Option Word :=
  match holdMarks z r with
  | none => mark
  | some (o, c) =>
    if !reached old o && reached new o && !reached new c then
      (match mark with
        | none => some c
        | some e => if 0 < sdiff c e then some c else some e)
    else mark

/-- The mark becomes absent when the counter reaches it (R143). -/
def closeHold (new : Word) (mark : Option Word) : Option Word :=
  match mark with
  | none => none
  | some e => if reached new e then none else some e

/-- A forward step or a setting of a zone's counter (R143). -/
def holdTest (old new : Word) (s : State) (z : Fin 4) : State :=
  updTension z (fun t => { t with
    holdEnd := closeHold new (s.pos.splices.foldl (openHold z old new) t.holdEnd) }) s

/-! ## Tickets (R144 to R146) -/

/-- The refusal of a TENSION_TUNE body: the index of its first field that is not accepted (R144). -/
def tensionTuneChecks (s : State) (n : Nat) : List (Nat × Bool) :=
  [ (1, decide (bodyByte s n 0x20 ≤ 3)),
    (2, decide (bodyHalf s n 0x22 ≤ 255)),
    (3, decide (bodyHalf s n 0x24 ≤ 255)),
    (4, [1, 2, 4, 8].contains (bodyByte s n 0x26)),
    (5, within 1 4096 (bodyHalf s n 0x28)),
    (6, within 1 4096 (bodyHalf s n 0x2A)) ]

/-- TENSION_TUNE (R144). -/
def takeTensionTune (n : Nat) (s : State) : State :=
  match firstFailure (tensionTuneChecks s n) with
  | some i => refuseTicket n .badField (natWord i) s
  | none =>
    finishTicket n .ok (natWord (bodyByte s n 0x20))
      (updTension (Fin.ofNat 4 (bodyByte s n 0x20)) (fun t => { t with
        kp := bodyHalf s n 0x22, ki := bodyHalf s n 0x24, rampStep := bodyByte s n 0x26,
        l := { t.l with gain := bodyHalf s n 0x28 },
        r := { t.r with gain := bodyHalf s n 0x2A } }) s)

def mixOf (b : Nat) : Option MixMode :=
  match b with | 0 => some .both | 1 => some .leftOnly | 2 => some .rightOnly | _ => none

/-- Whether a mix mode uses a cell whose lost flag is set (R145). -/
def usesLostCell (t : TensionZone) (m : MixMode) : Bool :=
  (m.uses .left && t.l.lost) || (m.uses .right && t.r.lost)

/-- TENSION_MIX (R145). -/
def takeTensionMix (n : Nat) (s : State) : State :=
  let z : Fin 4 := Fin.ofNat 4 (bodyByte s n 0x20)
  if 3 < bodyByte s n 0x20 then refuseTicket n .badField 1 s
  else match mixOf (bodyByte s n 0x21) with
    | none => refuseTicket n .badField 2 s
    | some m =>
      if usesLostCell s.tens.zones[z] m then refuseTicket n .badField 2 s
      else finishTicket n .ok (natWord m.code) (updTension z (fun t => { t with
        mix := m, skewCount := if m = .both then t.skewCount else 0 }) s)

/-- The cells an AUTO_ZERO's cell choice names, in order (R146, 10.6: 0 L, 1 R, 2 BOTH). -/
def chosenCells (b : Nat) : List Side :=
  match b with | 0 => [.left] | 1 => [.right] | _ => [.left, .right]

/-- The field checks of an AUTO_ZERO body in field order (R146, refusal 1). -/
def autoZeroChecks (s : State) (n : Nat) : List (Nat × Bool) :=
  [ (1, decide (bodyByte s n 0x20 ≤ 3)),
    (2, decide (bodyByte s n 0x21 ≤ 2)),
    (3, [1, 2, 4, 8].contains (bodyByte s n 0x22)),
    (4, within 1 4 (bodyByte s n 0x23)),
    (5, decide (bodyByte s n 0x24 ≤ 1)) ]

/-- The auto-zero record at the take (R146). -/
def newAuto (s : State) (n : Nat) (t : TensionZone) : AutoZero where
  ticket := n
  step := bodyByte s n 0x22
  pace := bodyByte s n 0x23
  mode := if bodyByte s n 0x24 = 0 then .cross else .meet
  cells := chosenCells (bodyByte s n 0x21)
  work := (chosenCells (bodyByte s n 0x21)).headD .left
  savedL := t.l.zero
  savedR := t.r.zero
  steps := 0
  paceCount := 0
  sign := (t.offsetOf ((chosenCells (bodyByte s n 0x21)).headD .left)).sign
  total := 0

/-- Whether the line state allows an AUTO_ZERO (R146, refusal 3). -/
def autoZeroAllowed (s : State) : Bool :=
  s.line.state == .cold || (s.line.state == .thread && s.line.jog == .still)

/-- AUTO_ZERO (R146). -/
def takeAutoZero (n : Nat) (s : State) : State :=
  let z : Fin 4 := Fin.ofNat 4 (bodyByte s n 0x20)
  match firstFailure (autoZeroChecks s n) with
  | some i => refuseTicket n .badField (natWord i) s
  | none =>
    if (chosenCells (bodyByte s n 0x21)).any fun sd => (s.tens.zones[z].cell sd).lost then
      refuseTicket n .badField 2 s
    else if !autoZeroAllowed s then refuseTicket n .state 0 s
    else if s.tens.zones[z].auto.isSome then refuseTicket n .busy 0 s
    else raiseCount (updTension z (fun t => { t with auto := some (newAuto s n t) }) s)

/-! ## Line reset (R133, R148) -/

/-- The tension unit's line reset: auto-zeros end ABORTED with reason RESET first. -/
def tensReset (s : State) : State :=
  endCondition .skew (endCondition .webBreak
    (mapTension (fun t => { t with
      target := 0, working := 0, integral := 0, trim := 0, rampDone := true, breakCount := 0,
      skewCount := 0, holdEnd := none }) (abortAutos 6 s)))

end Sys2Proof.Machine
end

