-- ==== Sys2Proof/Machine/Position.lean ====
section
/-! DEFINITION. The position unit (chapter 3): the splice list, the sensor sightings, what the blocks
do at a change of U and of the store level, the entry to WARM, and the steps of the three encoders
with all their readers. -/

namespace Sys2Proof.Machine

/-! ## The splice list (R43 to R45) -/

def setSplices (l : List Splice) (s : State) : State := { s with pos := { s.pos with splices := l } }

/-- Place a fixed record among the fixed ones by its arrival, after any equal one and before every
pending record (R43). -/
def insertFixed (a : Word) (r : Splice) : List Splice → List Splice
  | [] => [r]
  | q :: qs =>
    match q.arrival with
    | none => r :: q :: qs
    | some b => if reached a b then q :: insertFixed a r qs else r :: q :: qs

/-- Place a record in the list: a pending one last, a fixed one by its arrival (R43). -/
def insertSplice (r : Splice) (l : List Splice) : List Splice :=
  match r.arrival with
  | none => l ++ [r]
  | some a => insertFixed a r l

/-- The arrival word of a splice notice: for a pending record the U at which it is fixed (R43). -/
def Splice.arrivalWord (r : Splice) : Word := r.arrival.getD (r.seen + 40000)

/-- A sighting that finds 8 records drops the head with its notice (R45). -/
def dropFull (s : State) : State :=
  match s.pos.splices with
  | [] => s
  | r :: rs =>
    if 8 ≤ (r :: rs).length then
      writeNotice .spliceDropped (natWord r.web.code) r.seen r.arrivalWord (setSplices rs s)
    else s

/-- A splice sighting joins the list, with its notice (R43, R45). -/
def seeSplice (r : Splice) (s : State) : State :=
  let s1 := dropFull s
  writeNotice .spliceSeen (natWord r.web.code) r.seen r.arrivalWord
    (setSplices (insertSplice r s1.pos.splices) s1)

/-- Whether a pending record is due at the present U (R44). -/
def spliceDue (u : Word) (r : Splice) : Bool := r.arrival.isNone && reached u (r.seen + 40000)

/-- Fix the due records in the order they were seen (R44), with the X standing when the change of U is
taken (log 48). -/
def fixSplices (s : State) : State :=
  let a := s.pos.x + intWord s.reg.position
  setSplices
    ((s.pos.splices.filter (spliceDue s.pos.u)).foldl
      (fun l r => insertFixed a { r with arrival := some a } l)
      (s.pos.splices.filter fun r => !spliceDue s.pos.u r)) s

/-- Records whose leaving mark X has reached leave the list (R45). -/
def leaveSplices (s : State) : State :=
  setSplices (s.pos.splices.filter fun r =>
    match r.arrival with
    | none => true
    | some a => !reached s.pos.x (a + 56000)) s

/-! ## The store level (R72) -/

/-- Whether the store level is tested (R72). -/
def storeTested : LineState → Bool
  | .warm | .ready | .run | .hold => true
  | .cold | .thread | .halt => false

/-- Raise or end one store condition (R72). -/
def storeCondition (a : Alarm) (mark : Int) (s : State) : State :=
  if storeTested s.line.state then
    (if storeLevel s ≤ mark then raiseAlarm a (intWord (storeLevel s)) 0 s else endCondition a s)
  else s

/-- The store test at a change of L, STORE_LOW before STORE_EMPTY (R72). -/
def storeTest (s : State) : State := storeCondition .storeEmpty 3000 (storeCondition .storeLow 10000 s)

/-! ## A change of U (R41, R44, R80, R143) -/

/-- What the readers of U do at a change of U from `old`; `tests` tells whether the change is a
forward step or a setting, at which the hold window of PAPER_IN is tested (R143). -/
def exitChanged (old : Word) (tests : Bool) (s : State) : State :=
  let s1 := windowTests (fixSplices s)
  storeTest (if tests then holdTest old s1.pos.u s1 2 else s1)

/-- U is set on entry to WARM from COLD or THREAD (R41). -/
def setExit (s : State) : State :=
  exitChanged s.pos.u true { s with pos := { s.pos with u := s.pos.s - 60000 - lThread s } }

/-- The line enters WARM by a command or a key: U is set where it comes from COLD or THREAD (R41). -/
def enterWarm (cause : LineCause) (s : State) : State :=
  if s.line.state = .cold ∨ s.line.state = .thread then setExit (enterState .warm cause s)
  else enterState .warm cause s

/-! ## Sightings (R42) -/

/-- The stamp of a sighting: the counts at this command, or the ones it was stamped with. -/
def stampOf (o : Option Stamp) (s : State) : Stamp := o.getD ⟨s.pos.x, s.pos.s, s.pos.u⟩

/-- A sighting is ignored while the jog state is REV (R42). The jog state is tested when the sighting is
handed on, also for one that carries an earlier stamp (DESIGN CHOICE, log 25). -/
def unlessReverse (f : State → State) (s : State) : State := if s.line.jog = .rev then s else f s

/-- A fabric mark sighting (R42, R48, R78). -/
def seeFabricMark (o : Option Stamp) (s : State) : State :=
  unlessReverse (fun s =>
    retest (armEvent .fabricMark allChannels (fabricMarkAt (stampOf o s).x s))) s

/-- A paper mark sighting (R42, R48, R81). -/
def seePaperMark (o : Option Stamp) (s : State) : State :=
  unlessReverse (fun s =>
    retest (armEvent .paperMark allChannels (paperMarkAt (stampOf o s) s))) s

/-- A fabric splice sighting (R42, R43, R48). -/
def seeFabricSplice (o : Option Stamp) (s : State) : State :=
  unlessReverse (fun s =>
    armEvent .fabricSplice allChannels
      (seeSplice { web := .fabric, seen := (stampOf o s).x,
                   arrival := some ((stampOf o s).x + 30000) } s)) s

/-- Flag the record whose print span holds a paper splice (R65). -/
def flagPrinted (sp : Word) (s : State) : State :=
  mapPanels (fun p => if inSpan sp p.sLead p.length then { p with paperSplice := true } else p) s

/-- A paper splice sighting (R42, R43, R65). -/
def seePaperSplice (o : Option Stamp) (s : State) : State :=
  unlessReverse (fun s =>
    flagPrinted (stampOf o s).s
      (seeSplice { web := .paper, seen := (stampOf o s).s, arrival := none } s)) s

/-! ## Drum steps (R40) -/

/-- A VOID record that holds no copy and whose tail has passed the nip (R62). -/
def tailPassed (s : State) (p : Panel) : Bool :=
  p.state == .void && !p.finalVoid && leadReached s p 0

/-- VOID records without the final void flag are freed when their tails have passed the nip (R62), several
at one step in the order of the panel table, each with its print start test (log 43). -/
def freeTails (s : State) : State :=
  ((s.ord.panels.filter (tailPassed s)).map (·.number)).foldl (fun s n => freePanel n s) s

/-- The zones whose hold windows follow X (R143). -/
def drumHoldZones : List (Fin 4) := [0, 1, 3]

/-- The counters after a forward drum step (R40). -/
def countDrum (s : State) : State :=
  { s with pos := { s.pos with x := s.pos.x + 1, phase := s.pos.phase + 1 } }

/-- The dose, registration, order and check units at a forward drum step: the cell shift, the
registration step with its arrivals, the dose completion, and the tests of the order and check units
(R114, R116, R94, R117, R62, R153 to R155; log 24). -/
def panelStages (crosses : Bool) (s : State) : State :=
  let s1 := registrationStep crosses (if crosses then crossCells s else s)
  verdicts (headTest (tailFindings (freeTails (completeDose s1))))

/-- A forward drum step with all its readers. The marker and knife channels that this step fires
take it after the verdict requests (log 10). -/
def drumForward (s : State) : State :=
  let held := heldChannels s
  let s1 := countDrum s
  let s2 := offerSteps .drum s1.pos.x (allChannels.filter fun c => !held.contains c) s1
  let s3 := leaveSplices (panelStages (decide (s.pos.phase = 999)) s2)
  let s4 := drumHoldZones.foldl (holdTest s.pos.x s1.pos.x) s3
  retest (offerSteps .drum s1.pos.x held s4)

/-- A reverse drum step: the counters alone (R40, R47, R114, R143). -/
def drumReverse (s : State) : State :=
  { s with pos := { s.pos with x := s.pos.x - 1, phase := s.pos.phase - 1 } }

/-! ## Print steps (R40, R63, R68) -/

/-- Place a record by s_lead, after any equal one (log 43). -/
def insertByStart (p : Panel) : List Panel → List Panel
  | [] => [p]
  | q :: qs => if 0 ≤ sdiff p.sLead q.sLead then q :: insertByStart p qs else p :: q :: qs

/-- A PRINTING record whose loss mark S has reached (R68). -/
def printLost (s : State) (p : Panel) : Bool :=
  p.state == .printing && reached s.pos.s (p.sLead + BitVec.ofNat 32 (p.length + 10000))

/-- The lost prints in s_lead order (R68). -/
def lostPrints (s : State) : List Panel :=
  (s.ord.panels.filter (printLost s)).foldl (fun l p => insertByStart p l) []

/-- One lost print: the alarm, then the fault (R68). -/
def losePrint (s : State) (p : Panel) : State :=
  faultPrint p (raiseAlarm .printEngineLost (p.number.setWidth 32) 0 s)

/-- Every lost print (R68). -/
def losePrints (s : State) : State := (lostPrints s).foldl losePrint s

/-- The engine loss test and the print start test of a step of S; the manual does not order the two,
and a free value does where both act (R63, R68; log 17). -/
def printTests (s : State) : State :=
  if (lostPrints s).isEmpty then printTest s
  else if printReady s then
    (if Config.firstOfTwo s.drawn then printTest (losePrints (draw s))
    else losePrints (printTest (draw s)))
  else losePrints s

/-- A forward print step with all its readers (R40). -/
def printForward (s : State) : State :=
  let s1 := { s with pos := { s.pos with s := s.pos.s + 1 } }
  retest (storeTest (printTests (offerSteps .print s1.pos.x allChannels s1)))

/-- A reverse print step: S and the store level alone (R40, R72). -/
def printReverse (s : State) : State :=
  retest (storeTest { s with pos := { s.pos with s := s.pos.s - 1 } })

/-! ## Store-exit steps (R40) -/

/-- A forward store-exit step with all its readers (R40, R44, R80, R143, R72). -/
def exitForward (s : State) : State :=
  retest (exitChanged s.pos.u true { s with pos := { s.pos with u := s.pos.u + 1 } })

/-- A reverse store-exit step: the changes of U that are no forward step (R40, R44, R80, R72). -/
def exitReverse (s : State) : State :=
  retest (exitChanged s.pos.u false { s with pos := { s.pos with u := s.pos.u - 1 } })

/-! ## Ahead fires and pulse ends (R47, R54) -/

/-- A channel due to fire at the coming forward step takes that step now, before the other events
of the same moment (log 10). -/
def fireAhead (c : Fin 12) (s : State) : State :=
  let ch := s.trig.channels[c]
  if ch.due ∧ !ch.ahead then
    updChannel c (fun ch => { ch with ahead := true })
      (fireChannel (if ch.source = .drum then s.pos.x + 1 else s.pos.x) c s)
  else s

/-- Whether the clock has reached a latch's pulse end. -/
def pulseDue (clock : Word) (l : Latch) : Bool :=
  match l.pulseEnd with
  | none => false
  | some t => reached clock t

/-- The clock reaches a latch's pulse end: the pulse ends (R54). -/
def endPulse (i : Fin 8) (s : State) : State :=
  if pulseDue s.host.clock s.trig.latches[i] then
    updLatch i (fun l => { l with level := false, pulseEnd := none }) s
  else s

end Sys2Proof.Machine
end

