-- ==== Sys2Proof/Machine/LineTickets.lean ====
section
/-! DEFINITION. The line mode controller's commands: the tickets LINE_COMMAND, AUTHORITY,
SPEED_CLASS, SECTION_CLEAR and FABRIC_LOADED (R8, R10 to R12, R14). -/

namespace Sys2Proof.Machine

/-! ## Line targets (R10) -/

/-- Whether the table accepts a target from the present line state, its conditions included (R10). -/
def lineAccepts (s : State) (target : LineState) : Bool :=
  match target, s.line.state with
  | .cold, .cold | .cold, .thread | .cold, .warm | .cold, .ready | .cold, .run | .cold, .hold => true
  | .warm, .cold | .warm, .hold | .warm, .warm | .warm, .ready => true
  | .run, .ready => s.reg.home.isNone
  | .run, .hold => !holdCauseLatched s && runHeatTest s && s.reg.home.isNone
  | .run, .run => true
  | .hold, .run | .hold, .hold => true
  | .cold, .halt | .warm, .thread | .warm, .run | .warm, .halt
  | .run, .cold | .run, .thread | .run, .warm | .run, .halt
  | .hold, .cold | .hold, .thread | .hold, .warm | .hold, .ready | .hold, .halt => false
  | .thread, _ | .ready, _ | .halt, _ => false

/-- Whether an accepted target leaves the line state as it is (R10). -/
def lineStays (s : State) (target : LineState) : Bool :=
  s.line.state == target || (target == .warm && s.line.state == .ready)

/-- Carry out an accepted target, with the readiness test (R3, R10). -/
def lineGo (target : LineState) (cause : LineCause) (s : State) : State :=
  if lineStays s target then s
  else match target with
    | .cold => setJog .still (enterState .cold cause s)
    | .warm => retest (enterWarm cause s)
    | .run => enterState .run cause s
    | .hold => enterState .hold cause s
    | .thread | .ready | .halt => s

/-- The target a LINE_COMMAND names (10.6). -/
def targetOf (b : Nat) : Option LineState :=
  match b with
  | 0 => some .cold | 2 => some .warm | 4 => some .run | 5 => some .hold | _ => none

/-- Whether the pendant holds the authority: LOCAL or LOCAL_HELD. -/
def isLocal (s : State) : Bool := s.line.auth == .localPendant || s.line.auth == .localHeld

/-- The detail word of a ticket that reports the line state. -/
def stateWord (s : State) : Word := natWord s.line.state.code

/-- LINE_COMMAND (R10). -/
def takeLineCommand (n : Nat) (s : State) : State :=
  match targetOf (bodyByte s n 0x20) with
  | none => refuseTicket n .badField 0 s
  | some t =>
    if isLocal s then refuseTicket n .authority 0 s
    else if !lineAccepts s t then refuseTicket n .state 0 s
    else finishTicket n .ok (stateWord (lineGo t .command s)) (lineGo t .command s)

/-! ## Authority (R13, R14) -/

/-- Change the authority, with the notice and the end of a jog that left LOCAL (R13); `source` is
1 PENDANT, 2 TICKET, 3 RESET. -/
def setAuthority (new : Authority) (source : Word) (s : State) : State :=
  if s.line.auth = new then s
  else
    let s1 := writeNotice .authority (natWord s.line.auth.code) (natWord new.code) source
      { s with line := { s.line with auth := new } }
    if isLocal s ∧ new = .remote then setJog .still s1 else s1

/-- The outcome of an AUTHORITY operation: the authority after it, or a refusal (R14, 10.6:
1 LOCKOUT, 2 UNLOCK, 3 CLAIM). -/
def authorityAfter (op : Nat) (a : Authority) : Except ResultCode Authority :=
  match op, a with
  | 1, .remote => .ok .remoteLockout
  | 1, .remoteLockout => .ok .remoteLockout
  | 1, .localPendant => .error .authority
  | 1, .localHeld => .error .authority
  | 2, .remote => .ok .remote
  | 2, .remoteLockout => .ok .remote
  | 2, .localPendant => .error .authority
  | 2, .localHeld => .error .authority
  | 3, .remote => .ok .remote
  | 3, .remoteLockout => .ok .remoteLockout
  | 3, .localPendant => .ok .remote
  | 3, .localHeld => .error .authority
  | _, _ => .error .badField

/-- AUTHORITY (R14). -/
def takeAuthority (n : Nat) (s : State) : State :=
  match authorityAfter (bodyByte s n 0x20) s.line.auth with
  | .error code => refuseTicket n code 0 s
  | .ok a => finishTicket n .ok (natWord a.code) (setAuthority a 2 s)

/-! ## Speed class and fabric (R11, R12) -/

/-- SPEED_CLASS (R11), with the limit on S_cmd (R129). -/
def takeSpeedClass (n : Nat) (s : State) : State :=
  if s.line.classLock then refuseTicket n .locked 0 s
  else if 3 < bodyByte s n 0x20 then refuseTicket n .badField 0 s
  else
    finishTicket n .ok (natWord (bodyByte s n 0x20))
      (limitSpeed { s with line := { s.line with
        speedClass := Fin.ofNat 4 (bodyByte s n 0x20), classLock := bodyByte s n 0x21 == 1 } })

/-- The marks flag a FABRIC_LOADED body gives (R12); a byte other than 0 and 1 stands for a free
value (log 6). -/
def marksOf (b : Byte) : Bool := if b = 0 then false else if b = 1 then true else Config.oddFlag b

/-- Whether the line state allows a FABRIC_LOADED (R12). -/
def fabricAllowed : LineState → Bool
  | .cold | .thread | .warm | .ready => true
  | .run | .hold | .halt => false

/-- FABRIC_LOADED (R12). -/
def takeFabricLoaded (n : Nat) (s : State) : State :=
  if bodyByte s n 0x20 = 0 then refuseTicket n .badField 0 s
  else if !fabricAllowed s.line.state then refuseTicket n .state 0 s
  else
    finishTicket n .ok 0 { s with line := { s.line with
      fabric := ticketByte s n 0x20, marks := marksOf (ticketByte s n 0x21) } }

/-! ## SECTION_CLEAR (R8) -/

/-- Whether a section set names a section: its own bit, or ALL (R8, 10.6). -/
def namesSection (set : Byte) (k : Nat) : Bool := set.getLsbD k || set.getLsbD 7

/-- Clear one alarm's latch if the set names its section and it is not active (R8). -/
def clearLatch (set : Byte) (s : State) (a : Alarm) : State :=
  if namesSection set a.section_ ∧ latched s a ∧ !conditionActive s a then removeLatch 1 a s else s

/-- Leave HALT for COLD when the set names LINE and no HALT cause is latched (R8). -/
def leaveHalt (set : Byte) (s : State) : State :=
  if s.line.state = .halt ∧ namesSection set 0 ∧ !haltCauseLatched s then
    enterState .cold .haltClear s
  else s

/-- The clearing itself, in the order of the alarm table, with the readiness test that the latches bear
on (R3, R8; the order, log 41). -/
def clearSections (set : Byte) (s : State) : State :=
  retest (leaveHalt set (Alarm.all.foldl (clearLatch set) s))

/-- The numbers of the alarms of the named sections still latched, in table order (R8). -/
def stillLatched (set : Byte) (s : State) : List Nat :=
  (Alarm.all.filter fun a => namesSection set a.section_ && latched s a).map Alarm.number

/-- The result area of a SECTION_CLEAR: the count, then the numbers (10.6). -/
def clearResult (set : Byte) (s : State) : List Byte :=
  natByte (stillLatched set s).length :: (stillLatched set s).map natByte

/-- SECTION_CLEAR (R8). -/
def takeSectionClear (n : Nat) (s : State) : State :=
  let set := ticketByte s n 0x20
  if set = 0 then refuseTicket n .badField 0 s
  else
    finishTicket n .ok (stateWord (clearSections set s))
      (putBytes (ticketBase n + 0x80) (clearResult set (clearSections set s)) (clearSections set s))

end Sys2Proof.Machine
end

