-- ==== Sys2Proof/Machine/LinePorts.lean ====
section
/-! DEFINITION. The pendant port, the E-stop input, the drive link, the print link's messages and the
deadlines of the line clock (R13, R15 to R18, R20, R66, R69, R120). -/

namespace Sys2Proof.Machine

/-! ## Pendant messages (R18) -/

/-- A message from the pendant makes it PRESENT and restarts its 500 ms (R18). -/
def pendantMessage (s : State) : State :=
  { s with line := { s.line with pendant := .present, pendantAt := s.host.clock } }

/-- The authority keys (R13). -/
def keyTake (s : State) : State :=
  match s.line.auth with
  | .remote => setAuthority .localPendant 1 s
  | .remoteLockout => lightLocked s
  | .localPendant | .localHeld => s

def keyGive (s : State) : State :=
  match s.line.auth with
  | .remote | .remoteLockout => s
  | .localPendant | .localHeld => setAuthority .remote 1 s

def keyKeep (s : State) : State :=
  match s.line.auth with
  | .remote | .remoteLockout => lightLocked s
  | .localPendant => setAuthority .localHeld 1 s
  | .localHeld => s

/-- The STOP key (R17). -/
def keyStop (s : State) : State :=
  match s.line.state with
  | .run => enterState .hold .stopKey s
  | .thread => setJog .still s
  | .cold | .warm | .ready | .hold | .halt => s

/-- Whether the line keys are answered: the pendant holds authority and START was accepted (R15). -/
def keysAnswered (s : State) : Bool := isLocal s && started s

/-- The RUN, HOLD, WARM and COLD keys (R15). -/
def keyLine (target : LineState) (s : State) : State :=
  if keysAnswered s ∧ lineAccepts s target then lineGo target .pendant s else lightLocked s

/-- The end of THREAD by the THREAD key (R16). -/
def endThread (s : State) : State :=
  if s.line.threadHeat then retest (enterWarm .pendant s) else enterState .cold .pendant s

/-- The THREAD key (R15, R16). -/
def keyThread (s : State) : State :=
  if keysAnswered s then
    match s.line.state with
    | .cold | .warm | .ready => enterState .thread .pendant s
    | .thread => endThread s
    | .run | .hold | .halt => lightLocked s
  else lightLocked s

/-- What forbids a reverse jog (R16). -/
def reverseBlocked (s : State) : Bool :=
  !s.ord.panels.isEmpty || !s.reg.queue.isEmpty || !s.pos.splices.isEmpty
  || s.trig.channels.any fun ch => ch.state == .counting

/-- A jog key-down (R16). -/
def keyJog (j : Jog) (s : State) : State :=
  if s.line.state ≠ .thread ∨ !isLocal s then lightLocked s
  else if s.line.jog = j then s
  else if s.line.jog ≠ .still then lightLocked s
  else if j = .rev ∧ reverseBlocked s then lightLocked s
  else setJog j s

/-- The jog state a key holds. -/
def keyJogState : Key → Option Jog
  | .jogFwd => some .fwd
  | .jogRev => some .rev
  | .take | .give | .keep | .stop | .run | .hold | .warm | .cold | .thread => none

/-- A key-up (R16). -/
def keyRelease (k : Key) (s : State) : State :=
  if s.line.state = .thread ∧ isLocal s ∧ keyJogState k = some s.line.jog then setJog .still s else s

/-- Whether 2000 ms have passed since the last refused key (R18). -/
def lampDue (s : State) : Bool :=
  match s.line.lockedAt with
  | none => false
  | some t => decide (2000 ≤ (s.host.clock - t).toNat)

/-- The LOCKED lamp goes out (R18). -/
def expireLamp (s : State) : State :=
  if lampDue s then { s with line := { s.line with lockedAt := none } } else s

/-- Whether 500 ms have passed without a message of a PRESENT pendant (R18). -/
def silenceDue (s : State) : Bool :=
  s.line.pendant == .present && decide (500 ≤ (s.host.clock - s.line.pendantAt).toNat)

/-- The pendant becomes SILENT, and the jog ends (R18). -/
def fallSilent (s : State) : State :=
  if silenceDue s then setJog .still { s with line := { s.line with pendant := .silent } } else s

/-! ## E-stop input (R17) -/

/-- The chain opens. R17 names no detail value for ESTOP: both words are 0 (log 49). -/
def openChain (s : State) : State :=
  raiseAlarm .estop 0 0 { s with line := { s.line with chainOpen := true } }

/-- The chain closes. -/
def closeChain (s : State) : State :=
  endCondition .estop { s with line := { s.line with chainOpen := false } }

/-! ## Drive link (R20) -/

/-- Keep the drive status, with the DRIVE_FAULT condition (R20). -/
def keepDriveStatus (d : DriveStatus) (s : State) : State :=
  let s1 := { s with line := { s.line with drive := d } }
  match d with
  | .ok => endCondition .driveFault s1
  | .fault code => raiseAlarm .driveFault code 0 s1

/-- The link comes back UP (R20). -/
def linkUp (s : State) : State :=
  if s.line.link = .lost then
    endCondition .driveLinkLost { s with line := { s.line with link := .up } }
  else s

/-- A status frame (R20, R91, R119). Its WRAP_STATE acts first, with the print start that may follow, and
its DRIVE_STATUS after it: the order within one frame is a DESIGN CHOICE (log 50). -/
def statusFrame (w : WrapReport) (phase : Word) (d : DriveStatus) (s : State) : State :=
  let s1 := { s with line := { s.line with linkWatch := some (s.host.clock + 50) } }
  let s2 := wrapReport w s1
  let s3 := { s2 with reg := { s2.reg with measured := phase } }
  linkUp (keepDriveStatus d s3)

/-- Whether the link watch has run out. -/
def linkDue (s : State) : Bool :=
  match s.line.linkWatch with
  | none => false
  | some t => reached s.host.clock t

/-- The link watch expires (R20). The rule names no detail value for DRIVE_LINK_LOST: both words are 0
(log 49). -/
def loseLink (s : State) : State :=
  if linkDue s then
    raiseAlarm .driveLinkLost 0 0
      { s with line := { s.line with link := .lost, linkWatch := none } }
  else s

/-- The wrap watch expires (R120). -/
def wrapExpiry (s : State) : State := if watchDue s then wrapTimedOut s else s

/-! ## Print link (R66, R69) -/

/-- A PRINT_DONE (R66). -/
def printAnswer (n : Half) (r : PrintResult) (s : State) : State :=
  match findPanel n s with
  | none => s
  | some p =>
    if p.state = .printing then
      match r with
      | .ok => updPanel n (fun q => { q with state := .onPaper }) s
      | .fault => faultPrint p s
    else s

/-- READY ends the PRINT_ENGINE_LOST condition (R68). -/
def engineBack (v : EngineState) (s : State) : State :=
  match v with
  | .ready => endCondition .printEngineLost s
  | .busy => s

/-- An ENGINE_STATE (R69). -/
def engineReport (v : EngineState) (s : State) : State :=
  retest (printTest (engineBack v { s with ord := { s.ord with engine := v } }))

/-! ## Dose interval (R122) -/

/-- The dose interval, taken from the acceptance of START on (R122). -/
def doseInterval (s : State) : State := if started s then doseStep s else s

end Sys2Proof.Machine
end

