-- ==== Sys2Proof/Machine/Reset.lean ====
section
/-! DEFINITION. The two resets: line reset block by block (R9, R33, R39, R46, R76, R77, R96, R100,
R132, R133, R150, R167) and power-on reset (R17, R163). -/

namespace Sys2Proof.Machine

/-! ## Line reset of the order unit (R76, R33) -/

/-- Finish one open order CANCELLED with detail 0, its unsettled copies CANCELLED (R76). -/
def resetOrder (s : State) (o : OpenOrder) : State :=
  finishLong o.ticket .cancelled 0 (writeCancelled o.ticket (o.copiesWhere Copy.unsettled) s)

/-- The order unit's tables emptied, and every in-use count 0 (R76, R33). -/
def emptyOrders (s : State) : State :=
  { s with
    ord := { s.ord with orders := [], entries := [], panels := [], endMark := none },
    lib := { s.lib with slots := s.lib.slots.map fun c => { c with inUse := 0 } } }

/-- The order unit's line reset (R76). -/
def orderReset (s : State) : State :=
  endCondition .printEngineLost (endCondition .storeEmpty (endCondition .storeLow
    (emptyOrders (s.ord.orders.foldl resetOrder s))))

/-! ## Line reset of the line mode controller (R1, R9) -/

/-- The line goes to COLD (R9); heat off, S_cmd 0 and the flags of R1 also where it is COLD already. -/
def coldReset (s : State) : State :=
  let s1 := if s.line.state = .cold then s else enterState .cold .reset s
  setSpeed 0 (setJog .still
    { s1 with line := { s1.line with heat := false, threadHeat := false, lockedAt := none } })

/-- The tension zones that satisfy a test, as detail words. -/
def zonesWhere (p : TensionZone → Bool) (s : State) : List Word :=
  (tensionZones.filter fun z => p s.tens.zones[z]).map fun z => natWord z.val

/-- The lost cells, as pairs of detail words: zone and side. -/
def lostCells (s : State) : List (Word × Word) :=
  tensionZones.flatMap fun z =>
    ([Side.left, Side.right].filter fun sd => (s.tens.zones[z].cell sd).lost).map fun sd =>
      (natWord z.val, natWord sd.code)

/-- The kept fault code of the drive status. -/
def DriveStatus.code : DriveStatus → Word
  | .ok => 0
  | .fault c => c

/-- The owner's detail of a condition raised anew at line reset, as the condition stands (R9). Where
several zones or cells hold it at once the detail is a free value (log 7). ESTOP and DRIVE_LINK_LOST, whose
raising rules name no value, have 0 and 0 (log 49). -/
def reRaiseDetail (a : Alarm) (s : State) : Word × Word :=
  match a with
  | .driveFault => (DriveStatus.code s.line.drive, 0)
  | .wrapTimeout => (natWord s.dose.wrap.code, 0)
  | .zoneLost =>
    match zonesWhere (fun t => t.lost) s with
    | [z] => (z, 0)
    | _ => (Config.freeDetail s.drawn, 0)
  | .loadCellLost =>
    match lostCells s with
    | [c] => c
    | _ => (Config.freeDetail s.drawn, Config.freeDetail (s.drawn + 1))
  | .estop | .driveLinkLost | .webBreak | .storeEmpty | .zoneOvertemp | .heatStarved
  | .zonePairLost | .pieceOverflow | .printEngineLost | .storeLow | .zoneSensorLost | .skew
  | .phaseLimit | .headLost => (0, 0)

/-- Raise an alarm anew if its condition is still active (R9). -/
def reRaise (s : State) (a : Alarm) : State :=
  if conditionActive s a then
    raiseAlarm a (reRaiseDetail a s).1 (reRaiseDetail a s).2 (draw (draw s))
  else s

/-- Remove an alarm's latch at line reset, if it has one (R9). -/
def dropLatch (s : State) (a : Alarm) : State := if latched s a then removeLatch 2 a s else s

/-- Every latch is removed, then every active condition is raised anew, each in the order of the alarm
table (R9; the order, log 41). -/
def renewAlarms (s : State) : State :=
  Alarm.all.foldl reRaise (Alarm.all.foldl dropLatch s)

/-! ## Line reset (R167) -/

/-- The blocks below the line mode controller. -/
def blocksReset (s : State) : State :=
  checkReset (endCondition .heatStarved (resetCells (trigReset (setSplices []
    (orderReset (regReset (tensReset s)))))))

/-- One line reset event (R167): the blocks finish their long tickets and empty their work, the
line goes to COLD, authority to REMOTE, and the alarms are renewed. -/
def lineReset (s : State) : State :=
  renewAlarms (setAuthority .remote 3 (heatReset (coldReset (blocksReset s))))

/-! ## Power-on reset (R163, R17) -/

/-- The state power-on reset leaves before the E-stop chain is looked at; the chain's input, the
waiting commands and the free-value counter are not the part's to reset. -/
def powerUp (s : State) : State :=
  { State.reset with
    line := { LineUnit.reset with chainOpen := s.line.chainOpen },
    drawn := s.drawn, pending := s.pending }

/-- Power-on reset: an OPEN chain raises ESTOP as soon as it ends (R17), with the detail 0 and 0 (log 49). -/
def powerOn (s : State) : State :=
  if s.line.chainOpen then raiseAlarm .estop 0 0 (powerUp s) else powerUp s

end Sys2Proof.Machine
end

