-- ==== Sys2Proof/Machine/Chain.lean ====
section
/-! DEFINITION. The ticket walker's examination, take and dispatch (R170), its restarts and looks
(R172, R174), and START (R166). -/

namespace Sys2Proof.Machine

/-! ## The take (R170) -/

/-- Step 1 of a take: the hand, the open chain, the expected sequence, the from ticket (R170). -/
def claimTicket (n : Nat) (s : State) : State :=
  let s1 := putBytes (ticketBase n) [2] s
  { s1 with walker := { s1.walker with
      chain := s1.walker.chain ++ [{ slot := n, followed := false }],
      expected := s1.walker.expected + 1,
      fromTicket := some n } }

/-- NOP finishes with OK and detail 0 (R170). -/
def takeNop (n : Nat) (s : State) : State := finishTicket n .ok 0 s

/-- A kind the part does not know is refused with BAD_KIND (R170). -/
def takeBadKind (n : Nat) (s : State) : State := refuseTicket n .badKind 0 s

/-- Step 2 of a take: the owning block's answer, by the ticket's kind (R170, codes of 10.6). -/
def dispatch (n : Nat) (s : State) : State :=
  match (kindOf s n).toNat with
  | 0x01 => takeNop n s
  | 0x10 => takeLineCommand n s
  | 0x11 => takeAuthority n s
  | 0x12 => takeSpeedClass n s
  | 0x13 => takeSectionClear n s
  | 0x14 => takeFabricLoaded n s
  | 0x20 => takeProfileCommit n s
  | 0x21 => takeProfileOpen n s
  | 0x22 => takeProfileClear n s
  | 0x23 => takeLibraryLock n s
  | 0x30 => takeTriggerSet n s
  | 0x31 => takeTriggerGroup n s
  | 0x32 => takeTriggerCorrect n s
  | 0x33 => takeOutputSet n s
  | 0x40 => takeQueuePanels n s
  | 0x41 => takeCancelPanels n s
  | 0x50 => takePhaseHome n s
  | 0x60 => takeHeatSetpoint n s
  | 0x61 => takeHeatTune n s
  | 0x62 => takeScanList n s
  | 0x70 => takeTensionTune n s
  | 0x71 => takeTensionMix n s
  | 0x72 => takeAutoZero n s
  | 0x80 => takeTrimReset n s
  | _ => takeBadKind n s

/-- The kind codes the part knows (10.6). -/
def knownKinds : List Nat :=
  [0x01, 0x10, 0x11, 0x12, 0x13, 0x14, 0x20, 0x21, 0x22, 0x23, 0x30, 0x31, 0x32, 0x33, 0x40, 0x41,
   0x50, 0x60, 0x61, 0x62, 0x70, 0x71, 0x72, 0x80]

/-- Step 3 of a take: FULL at the ticket limit, else moving on (R170, R173). -/
def afterTake (s : State) : State :=
  if s.walker.outstanding = ticketLimit s then
    { s with walker := { s.walker with state := .full } }
  else moveOn s

/-- The take of the look slot's ticket, its owner's answer given (R170). -/
def takeLook (answer : Nat → State → State) (s : State) : State :=
  afterTake (answer s.walker.look (claimTicket s.walker.look s))

/-- The hand of the look slot is READY. -/
def lookReady (s : State) : Bool := handOf s s.walker.look == 1

/-- The sequence of the look slot is the expected one. -/
def lookInSequence (s : State) : Bool := sequenceOf s s.walker.look == s.walker.expected

/-- Whether an examination takes the look slot's ticket (R170). -/
def takesNow (s : State) : Bool :=
  s.walker.state == .running && lookReady s && lookInSequence s

/-- One examination of the look slot by a RUNNING walker (R170). -/
def examine (s : State) : State :=
  if s.walker.state ≠ .running then s
  else if !lookReady s then waitWalker .slot s.walker.look s
  else if !lookInSequence s then
    stallWalker .sequence ((sequenceOf s s.walker.look).setWidth 32) s
  else takeLook dispatch s

/-- A take of one ticket kind: the examination that takes a ticket of that kind. Where the walker
would not take one, the command does nothing (log 2). -/
def takeOfKind (kind : Nat) (answer : Nat → State → State) (s : State) : State :=
  if takesNow s ∧ (kindOf s s.walker.look).toNat = kind then takeLook answer s else s

/-- A take of a kind the part does not know. -/
def takeUnknown (s : State) : State :=
  if takesNow s ∧ !knownKinds.contains (kindOf s s.walker.look).toNat then takeLook takeBadKind s
  else s

/-! ## Looks and restart (R172, R174) -/

/-- A WAITING walker looks again (R172). -/
def lookAgain (s : State) : State :=
  if s.walker.state = .waiting then
    match s.walker.wait with
    | .link => moveOn s
    | .slot => runWalker s.walker.look s
  else s

/-- An expiry of the chain look timer; with code 0, or before START, the timer is stopped
(R166, R172). -/
def chainLook (s : State) : State := if started s ∧ lookCode s ≠ 0 then lookAgain s else s

/-- A WALKER_RESTART request (R174). -/
def restartWalker (s : State) : State :=
  if s.walker.state = .stalled then
    let s1 := { s with walker := { s.walker with stall := .none, state := .running } }
    if s.walker.stall = .sequence then s1 else moveOn s1
  else s

/-! ## START (R166) -/

/-- Write the START status and raise the START cause (R166). -/
def answerStart (st : StartStatus) (s : State) : State :=
  raiseCause .start { s with host := { s.host with startStatus := st } }

/-- A START request (R166). -/
def startPart (s : State) : State :=
  if started s then s
  else match firstFailure (configChecks s) with
    | some i => answerStart (.badField i) s
    | none =>
      answerStart .ok
        (runWalker (chainStart s)
          { s with walker := { s.walker with expected := firstSequence s } })

end Sys2Proof.Machine
end

