-- ==== Sys2Proof/Machine/HostPort.lean ====
section
/-! DEFINITION. The memory port with its guard and the registers (R163, R164, R177, R182), the line
picture (R180), the notice reminder (R181) and the line clock (R165). -/

namespace Sys2Proof.Machine

/-! ## The guard (R177, R165, R22) -/

/-- The ticket slot that an address of the ticket area lies in. -/
def ticketAt (a : Nat) : Nat := (a - 0x5000) / 256 + 1

/-- Whether an anchor word is guarded (R165, R166). -/
def anchorGuarded (s : State) (a : Nat) : Bool :=
  if 0x010 ≤ a ∧ a < 0x02C then started s else !(a == 0x080)

/-- Whether a profile word is guarded (R22). -/
def profileGuarded (s : State) (a : Nat) : Bool :=
  s.lib.slots[slotAt a].state == .valid || decide (0x1F0 ≤ (a - 0x3000) % 512)

/-- Whether the walker leaves the next-link word of slot n open to the host (R177). -/
def linkOpen (s : State) (n : Nat) : Bool :=
  s.walker.fromTicket == some n
  && ((s.walker.state == .waiting && s.walker.wait == .link)
    || (s.walker.state == .stalled
      && (s.walker.stall == .linkRange || s.walker.stall == .linkTaken)))

/-- Whether a ticket word is guarded (R177). -/
def ticketGuarded (s : State) (a : Nat) : Bool :=
  inChain s (ticketAt a) && !(a % 256 == 4 && linkOpen s (ticketAt a))

/-- Whether the guard drops a host write to a word of exchange memory (R177). -/
def guarded (s : State) (a : Nat) : Bool :=
  if a < 0x400 then anchorGuarded s a
  else if a < 0x3000 then true
  else if a < 0x5000 then profileGuarded s a
  else ticketGuarded s a

/-- Whether byte k of a served word is stored. The bytes that the anchor and header layouts do not
name read 0 and are not stored (10.6); of the next-link word that leaves the link half-word (R177). -/
def storedByte (a k : Nat) : Bool :=
  if a = 0x028 ∨ (0x5000 ≤ a ∧ (a % 256 = 4 ∨ a % 256 = 8)) then decide (k < 2) else true

/-- Store byte k of a served write, if it is enabled. -/
def storeLane (a : Nat) (data : Word) (enables : BitVec 4) (s : State) (k : Nat) : State :=
  if enables.getLsbD k ∧ storedByte a k then putBytes (a + k) [wordByte data k] s else s

/-- Store the enabled bytes of a served write. -/
def storeWord (a : Nat) (data : Word) (enables : BitVec 4) (s : State) : State :=
  [0, 1, 2, 3].foldl (storeLane a data enables) s

/-- A dropped write: captured if no capture is held (R177). -/
def dropWrite (a : Nat) (s : State) : State :=
  if causeSet s .guard then s
  else raiseCause .guard { s with host := { s.host with guardAddress := natWord a } }

/-- A host write to exchange memory (R177). -/
def memoryWrite (a : Nat) (data : Word) (enables : BitVec 4) (s : State) : State :=
  if guarded s a then dropWrite a s else storeWord a data enables s

/-! ## The registers (R164, R182) -/

/-- Clear attention causes (R182). -/
def clearCauses (bits : Word) (s : State) : State :=
  { s with host := { s.host with causes := s.host.causes &&& ~~~(bits.setWidth 6) } }

/-- Set the attention mask (R182). -/
def setMask (bits : Word) (s : State) : State :=
  { s with host := { s.host with mask := bits.setWidth 6 } }

/-- A LINE_CTRL write: START, RESET_LINE and WALKER_RESTART in this order (R164). -/
def controlWrite (data : Word) (s : State) : State :=
  let s1 := if data.getLsbD 0 then startPart s else s
  let s2 := if data.getLsbD 1 then lineReset s1 else s1
  if data.getLsbD 2 then restartWalker s2 else s2

/-- A host write to a register; the fields of the registers lie in their lowest byte (R164). -/
def registerWrite (a : Nat) (data : Word) (enables : BitVec 4) (s : State) : State :=
  if a = 0x18004 then lookAgain s
  else if !enables.getLsbD 0 then s
  else if a = 0x18000 then controlWrite data s
  else if a = 0x18008 then clearCauses data s
  else setMask data s

/-- A host word write to the window, at the word the offset lies in (R163, R164). -/
def hostWrite (offset data : Word) (enables : BitVec 4) (s : State) : State :=
  let a := offset.toNat - offset.toNat % 4
  if a < memEnd then memoryWrite a data enables s
  else if 0x18000 ≤ a ∧ a < 0x18010 then registerWrite a data enables s
  else s

/-! ## The line picture (R180, layout of 10.6) -/

/-- The latched alarms, bit n − 1 for alarm n (R180). -/
def latchedBits (s : State) : Nat := bitsOf (Alarm.all.map (latched s))

/-- One drum zone in the picture at its expiry: the reading value of its channel, its setpoint, power and
state (R180; beside the last sentence of R110: log 46). -/
def zonePicture (s : State) (k : Fin 8) : List Byte :=
  natHalf (measuredT s k) ++ intHalf (zoneSetpoint s k)
  ++ natHalf s.heat.zones[k].power
  ++ [natByte s.heat.zones[k].state.code, 0]

/-- One tension zone in the picture. -/
def tensionPicture (t : TensionZone) : List Byte :=
  natHalf t.measured ++ natHalf t.working ++ intHalf t.trim

/-- How many live records stand in a state. -/
def panelCount (s : State) (st : PanelState) : Nat :=
  (s.ord.panels.filter fun p => p.state == st).length

/-- The fields of the picture after its count, from 0x004 on. -/
def pictureFields (s : State) : List Byte :=
  [natByte s.line.state.code, natByte s.line.auth.code, natByte s.line.speedClass.val,
   boolByte s.line.classLock, natByte s.dose.wrap.code, natByte s.walker.state.code]
  ++ natHalf s.walker.outstanding ++ natHalf s.dose.sTarget ++ natHalf s.dose.sCmd
  ++ wordBytes (intWord (storeLevel s)) ++ wordBytes (natWord (latchedBits s))
  ++ intHalf s.reg.target ++ intHalf s.reg.position ++ [boolByte s.line.heat, 0, 0, 0]
  ++ drumZones.flatMap (zonePicture s)
  ++ s.tens.zones.toList.flatMap tensionPicture
  ++ s.host.nipName.toList
  ++ [PanelState.printing, .onPaper, .staged, .onFabric, .finished, .void].flatMap
      fun st => natHalf (panelCount s st)

/-- The picture count (R180). -/
def pictureCount (s : State) : Word := Memory.word s.mem 0x400

/-- The notice reminder (R181). -/
def remind (s : State) : State :=
  if !causeSet s .notice ∧ s.host.written ≠ noticesRead s then raiseCause .notice s else s

/-- A picture interval: the picture rewritten between two rises of its count (R180), and the
reminder (R181). -/
def pictureStep (s : State) : State :=
  remind (putBytes 0x400 (wordBytes (pictureCount s + 2) ++ pictureFields s) s)

/-! ## The line clock -/

/-- One millisecond of line clock (R165). -/
def tickClock (s : State) : State := { s with host := { s.host with clock := s.host.clock + 1 } }

end Sys2Proof.Machine
end

