-- ==== Sys2Proof/Machine/Answer.lean ====
section
/-! DEFINITION. How a command is answered: its effect on the state, then the messages its changes
bring, a command frame when a carried value has changed (R19) and LAMPS when the set of lit lamps
has changed (R18). The messages of the command before are no longer listed (log 11). -/

namespace Sys2Proof.Machine

/-- The outcome of a command. -/
abbrev Answer := Host.Outcome State Fault Refusal

/-- Forget the messages of the latest command (log 11). -/
def clearSent (s : State) : State := { s with sent := [] }

/-- Send a command frame if a carried value differs from `before`, or when forced (R19). -/
def sendFrame (force : Bool) (before after : State) : State :=
  if force || frameOf after != frameOf before then send (.frame (frameOf after)) after else after

/-- Send LAMPS if the set of lit lamps differs from `before`, or when forced (R18). -/
def sendLamps (force : Bool) (before after : State) : State :=
  if force || lampSet after != lampSet before then send (.lamps (lampSet after)) after else after

/-- The messages a command's changes bring, each forced or not. -/
def announce (frame lamps : Bool) (before after : State) : State :=
  sendLamps lamps before (sendFrame frame before after)

/-- Answer a command by its effect. -/
def answer (effect : State → State) (s : State) : Answer :=
  .next (announce false false s (effect (clearSent s)))

/-- Answer a pendant message: it makes the pendant PRESENT, and one from a SILENT pendant is answered
with LAMPS whatever has changed (R18). -/
def answerPendant (effect : State → State) (s : State) : Answer :=
  .next (announce false (s.line.pendant == .silent) s (effect (pendantMessage (clearSent s))))

/-- Whether a status frame makes the part send CLOSE again: the wrap has left CLOSED for CLOSING
(R119). -/
def closesAgain (before after : State) : Bool :=
  before.dose.wrap == .closed && after.dose.wrap == .closing

/-- Answer a status frame (R20, R119). -/
def answerStatus (effect : State → State) (s : State) : Answer :=
  .next (announce (closesAgain s (effect (clearSent s))) false s (effect (clearSent s)))

end Sys2Proof.Machine
end

