-- ==== Sys2Proof/Machine/HostCommands.lean ====
section
/-! DEFINITION. The meanings of the host bus commands, the walker's looks, the picture interval and
the line clock. -/

namespace Sys2Proof.Machine

/-- POWER_ON_RESET (R163, R17): every block returns to its power-on values. -/
def execPowerOnReset (s : State) : Answer := .next (announce false false (powerUp s) (powerOn s))

/-- START (R166). -/
def execStart (s : State) : Answer := answer startPart s

/-- RESET_LINE (R167). -/
def execResetLine (s : State) : Answer := answer lineReset s

/-- WALKER_RESTART (R174). -/
def execWalkerRestart (s : State) : Answer := answer restartWalker s

/-- NUDGE with any value (R172). -/
def execNudge (_value : Word) (s : State) : Answer := answer lookAgain s

/-- A write of ATTN (R182). -/
def execAttnClear (bits : Word) (s : State) : Answer := answer (clearCauses bits) s

/-- A write of ATTN_MASK (R182). -/
def execAttnMaskWrite (bits : Word) (s : State) : Answer := answer (setMask bits) s

/-- A write to the unmapped span or beyond the registers: ignored, and not captured (R163). -/
def execRegisterWriteIgnored (_offset _data : Word) (_enables : BitVec 4) (s : State) : Answer := answer id s

/-- A host word write (R163, R177). -/
def execHostWrite (offset data : Word) (enables : BitVec 4) (s : State) : Answer := answer (Sys2Proof.Machine.hostWrite offset data enables) s

/-- An examination of the look slot (R170). -/
def execWalkerExamine (s : State) : Answer := answer examine s

/-- An expiry of the chain look timer (R172). -/
def execChainLook (s : State) : Answer := answer Sys2Proof.Machine.chainLook s

/-- An expiry of the picture interval timer (R180, R181). -/
def execPictureInterval (s : State) : Answer := answer pictureStep s

/-- One millisecond of line clock (R165). -/
def execLineClock (s : State) : Answer := answer tickClock s

end Sys2Proof.Machine
end

