-- ==== Sys2Proof/Machine/LineCommands.lean ====
section
/-! DEFINITION. The meanings of the sensor sightings, the encoder steps and the timers of the line
side. -/

namespace Sys2Proof.Machine

/-- A fabric mark sighting (R42, R78). -/
def execFabricMark (stamp : Option Stamp) (s : State) : Answer :=
  answer (seeFabricMark stamp) s

/-- A paper mark sighting (R42, R81). -/
def execPaperMark (stamp : Option Stamp) (s : State) : Answer :=
  answer (seePaperMark stamp) s

/-- A fabric splice sighting (R42, R43). -/
def execFabricSplice (stamp : Option Stamp) (s : State) : Answer :=
  answer (seeFabricSplice stamp) s

/-- A paper splice sighting (R42, R43, R65). -/
def execPaperSplice (stamp : Option Stamp) (s : State) : Answer :=
  answer (seePaperSplice stamp) s

/-- A channel that the coming step fires takes it now (R47; log 10). -/
def execTriggerFire (channel : Fin 12) (s : State) : Answer :=
  answer (fireAhead channel) s

/-- A latch's pulse ends (R54). -/
def execLatchPulseEnd (latch : Fin 8) (s : State) : Answer :=
  answer (endPulse latch) s

/-- The wrap watch runs out (R120). -/
def execWrapTimeout (s : State) : Answer :=
  answer wrapExpiry s

/-- An expiry of the dose interval timer (R122). -/
def execDoseInterval (s : State) : Answer :=
  answer Sys2Proof.Machine.doseInterval s

/-- An expiry of the heat interval timer (R104). -/
def execHeatInterval (s : State) : Answer :=
  answer heatStep s

/-- An expiry of the heater window timer (R111). -/
def execHeaterWindow (s : State) : Answer :=
  answer windowStep s

/-- A heater's on-end time (R111). -/
def execHeaterOnEnd (zone : Fin 8) (s : State) : Answer :=
  answer (heaterEnd zone) s

/-- An expiry of the scanner conversion timer (R97). -/
def execScannerConversion (raw : Half) (s : State) : Answer :=
  answer (convert raw) s

/-- An expiry of the tension sample timer (R134). -/
def execTensionSample (fabricIn fabricOut paperIn paperOut : RawPair) (s : State) : Answer :=
  answer (tensionStep fabricIn fabricOut paperIn paperOut) s

/-- A drum encoder step (R40). -/
def execDrumStep (dir : Dir) (s : State) : Answer :=
  match dir with
  | .forward => answer drumForward s
  | .reverse => answer drumReverse s

/-- A print encoder step (R40). -/
def execPrintStep (dir : Dir) (s : State) : Answer :=
  match dir with
  | .forward => answer printForward s
  | .reverse => answer printReverse s

/-- A store-exit encoder step (R40). -/
def execStoreExitStep (dir : Dir) (s : State) : Answer :=
  match dir with
  | .forward => answer exitForward s
  | .reverse => answer exitReverse s

end Sys2Proof.Machine
end

