-- ==== Sys2Proof/Machine/PortCommands.lean ====
section
/-! DEFINITION. The meanings of the commands of the pendant port, the E-stop input, the drive link,
the print link and the colour head link. -/

namespace Sys2Proof.Machine

/-- The TAKE key (R13). -/
def execKeyTake (s : State) : Answer :=
  answerPendant Sys2Proof.Machine.keyTake s

/-- The GIVE key (R13). -/
def execKeyGive (s : State) : Answer :=
  answerPendant Sys2Proof.Machine.keyGive s

/-- The KEEP key (R13). -/
def execKeyKeep (s : State) : Answer :=
  answerPendant Sys2Proof.Machine.keyKeep s

/-- The STOP key (R17). -/
def execKeyStop (s : State) : Answer :=
  answerPendant Sys2Proof.Machine.keyStop s

/-- The RUN key (R15). -/
def execKeyRun (s : State) : Answer :=
  answerPendant (keyLine .run) s

/-- The HOLD key (R15). -/
def execKeyHold (s : State) : Answer :=
  answerPendant (keyLine .hold) s

/-- The WARM key (R15). -/
def execKeyWarm (s : State) : Answer :=
  answerPendant (keyLine .warm) s

/-- The COLD key (R15). -/
def execKeyCold (s : State) : Answer :=
  answerPendant (keyLine .cold) s

/-- The THREAD key (R15, R16). -/
def execKeyThread (s : State) : Answer :=
  answerPendant Sys2Proof.Machine.keyThread s

/-- The JOG_FWD key going down (R16). -/
def execKeyJogFwd (s : State) : Answer :=
  answerPendant (keyJog .fwd) s

/-- The JOG_REV key going down (R16). -/
def execKeyJogRev (s : State) : Answer :=
  answerPendant (keyJog .rev) s

/-- A key going up (R16). -/
def execKeyUp (key : Key) (s : State) : Answer :=
  answerPendant (keyRelease key) s

/-- ALIVE: a message and nothing more (R18). -/
def execAlive (s : State) : Answer :=
  answerPendant id s

/-- 2000 ms after the last refused key the LOCKED lamp goes out (R18). -/
def execLockedLampExpiry (s : State) : Answer :=
  answer expireLamp s

/-- 500 ms without a message (R18). -/
def execPendantSilent (s : State) : Answer :=
  answer fallSilent s

/-- The E-stop chain opens (R17). -/
def execEstopOpen (s : State) : Answer :=
  answer openChain s

/-- The E-stop chain closes (R17). -/
def execEstopClose (s : State) : Answer :=
  answer closeChain s

/-- A status frame of the drive cabinet (R20). -/
def execStatusFrame (wrap : WrapReport) (phasePos : Word) (drive : DriveStatus) (s : State) : Answer :=
  answerStatus (Sys2Proof.Machine.statusFrame wrap phasePos drive) s

/-- 50 ms without a status frame (R20). -/
def execDriveLinkWatchExpiry (s : State) : Answer :=
  answer loseLink s

/-- The command frame of every 10 ms (R19). -/
def execCommandFrame (s : State) : Answer :=
  .next (announce true false s (clearSent s))

/-- A PRINT_DONE (R66). -/
def execPrintDone (panel : Half) (result : PrintResult) (s : State) : Answer :=
  answer (printAnswer panel result) s

/-- An ENGINE_STATE (R69). -/
def execEngineState (value : EngineState) (s : State) : Answer :=
  answer (engineReport value) s

/-- A READING (R151). -/
def execReading (xr : Word) (density : Cmyk Half) (quality : Quality) (s : State) : Answer :=
  answer (takeReading xr density quality) s

end Sys2Proof.Machine
end

