-- ==== Sys2Proof/Machine/TicketCommands.lean ====
section
/-! DEFINITION. The meanings of the ticket rows: each is the examination at which the walker takes a
ticket of that kind (R170). The ticket's fields are read from exchange memory at the take. -/

namespace Sys2Proof.Machine

/-- The take of a NOP ticket (R170). -/
def execNop (s : State) : Answer := answer (takeOfKind 0x01 takeNop) s

/-- The take of a ticket of a kind the part does not know (R170). -/
def execBadKind (s : State) : Answer := answer takeUnknown s

/-- The take of a LINE_COMMAND ticket (R10). -/
def execLineCommand (s : State) : Answer := answer (takeOfKind 0x10 takeLineCommand) s

/-- The take of a AUTHORITY ticket (R14). -/
def execAuthority (s : State) : Answer := answer (takeOfKind 0x11 takeAuthority) s

/-- The take of a SPEED_CLASS ticket (R11). -/
def execSpeedClass (s : State) : Answer := answer (takeOfKind 0x12 takeSpeedClass) s

/-- The take of a SECTION_CLEAR ticket (R8). -/
def execSectionClear (s : State) : Answer := answer (takeOfKind 0x13 takeSectionClear) s

/-- The take of a FABRIC_LOADED ticket (R12). -/
def execFabricLoaded (s : State) : Answer := answer (takeOfKind 0x14 takeFabricLoaded) s

/-- The take of a PROFILE_COMMIT ticket (R24). -/
def execProfileCommit (s : State) : Answer := answer (takeOfKind 0x20 takeProfileCommit) s

/-- The take of a PROFILE_OPEN ticket (R27). -/
def execProfileOpen (s : State) : Answer := answer (takeOfKind 0x21 takeProfileOpen) s

/-- The take of a PROFILE_CLEAR ticket (R28). -/
def execProfileClear (s : State) : Answer := answer (takeOfKind 0x22 takeProfileClear) s

/-- The take of a LIBRARY_LOCK ticket (R29). -/
def execLibraryLock (s : State) : Answer := answer (takeOfKind 0x23 takeLibraryLock) s

/-- The take of a TRIGGER_SET ticket (R49). -/
def execTriggerSet (s : State) : Answer := answer (takeOfKind 0x30 takeTriggerSet) s

/-- The take of a TRIGGER_GROUP ticket (R50). -/
def execTriggerGroup (s : State) : Answer := answer (takeOfKind 0x31 takeTriggerGroup) s

/-- The take of a TRIGGER_CORRECT ticket (R51). -/
def execTriggerCorrect (s : State) : Answer := answer (takeOfKind 0x32 takeTriggerCorrect) s

/-- The take of a OUTPUT_SET ticket (R55). -/
def execOutputSet (s : State) : Answer := answer (takeOfKind 0x33 takeOutputSet) s

/-- The take of a QUEUE_PANELS ticket (R56). -/
def execQueuePanels (s : State) : Answer := answer (takeOfKind 0x40 takeQueuePanels) s

/-- The take of a CANCEL_PANELS ticket (R73). -/
def execCancelPanels (s : State) : Answer := answer (takeOfKind 0x41 takeCancelPanels) s

/-- The take of a PHASE_HOME ticket (R92). -/
def execPhaseHome (s : State) : Answer := answer (takeOfKind 0x50 takePhaseHome) s

/-- The take of a HEAT_SETPOINT ticket (R101). -/
def execHeatSetpoint (s : State) : Answer := answer (takeOfKind 0x60 takeHeatSetpoint) s

/-- The take of a HEAT_TUNE ticket (R102). -/
def execHeatTune (s : State) : Answer := answer (takeOfKind 0x61 takeHeatTune) s

/-- The take of a SCAN_LIST ticket (R99). -/
def execScanList (s : State) : Answer := answer (takeOfKind 0x62 takeScanList) s

/-- The take of a TENSION_TUNE ticket (R144). -/
def execTensionTune (s : State) : Answer := answer (takeOfKind 0x70 takeTensionTune) s

/-- The take of a TENSION_MIX ticket (R145). -/
def execTensionMix (s : State) : Answer := answer (takeOfKind 0x71 takeTensionMix) s

/-- The take of a AUTO_ZERO ticket (R146). -/
def execAutoZero (s : State) : Answer := answer (takeOfKind 0x72 takeAutoZero) s

/-- The take of a TRIM_RESET ticket (R162). -/
def execTrimReset (s : State) : Answer := answer (takeOfKind 0x80 takeTrimReset) s

end Sys2Proof.Machine
end

