-- ==== Sys2Proof/Machine/Dispatch.lean ====
section
/-! DEFINITION. The dispatch of the commands to their meanings, one arm each. -/

namespace Sys2Proof.Machine

/-- The effect of a command on everything but the queue of waiting commands. -/
def exec (i : Instr) (s : State) : Host.Outcome State Fault Refusal :=
  match i with
  | .powerOnReset => Sys2Proof.Machine.execPowerOnReset s
  | .start => Sys2Proof.Machine.execStart s
  | .resetLine => Sys2Proof.Machine.execResetLine s
  | .walkerRestart => Sys2Proof.Machine.execWalkerRestart s
  | .nudge value => Sys2Proof.Machine.execNudge value s
  | .attnClear bits => Sys2Proof.Machine.execAttnClear bits s
  | .attnMaskWrite bits => Sys2Proof.Machine.execAttnMaskWrite bits s
  | .registerWriteIgnored offset data enables => Sys2Proof.Machine.execRegisterWriteIgnored offset data enables s
  | .hostWrite offset data enables => Sys2Proof.Machine.execHostWrite offset data enables s
  | .walkerExamine => Sys2Proof.Machine.execWalkerExamine s
  | .nop => Sys2Proof.Machine.execNop s
  | .badKind => Sys2Proof.Machine.execBadKind s
  | .lineCommand => Sys2Proof.Machine.execLineCommand s
  | .authority => Sys2Proof.Machine.execAuthority s
  | .speedClass => Sys2Proof.Machine.execSpeedClass s
  | .sectionClear => Sys2Proof.Machine.execSectionClear s
  | .fabricLoaded => Sys2Proof.Machine.execFabricLoaded s
  | .profileCommit => Sys2Proof.Machine.execProfileCommit s
  | .profileOpen => Sys2Proof.Machine.execProfileOpen s
  | .profileClear => Sys2Proof.Machine.execProfileClear s
  | .libraryLock => Sys2Proof.Machine.execLibraryLock s
  | .triggerSet => Sys2Proof.Machine.execTriggerSet s
  | .triggerGroup => Sys2Proof.Machine.execTriggerGroup s
  | .triggerCorrect => Sys2Proof.Machine.execTriggerCorrect s
  | .outputSet => Sys2Proof.Machine.execOutputSet s
  | .queuePanels => Sys2Proof.Machine.execQueuePanels s
  | .cancelPanels => Sys2Proof.Machine.execCancelPanels s
  | .phaseHome => Sys2Proof.Machine.execPhaseHome s
  | .heatSetpoint => Sys2Proof.Machine.execHeatSetpoint s
  | .heatTune => Sys2Proof.Machine.execHeatTune s
  | .scanList => Sys2Proof.Machine.execScanList s
  | .tensionTune => Sys2Proof.Machine.execTensionTune s
  | .tensionMix => Sys2Proof.Machine.execTensionMix s
  | .autoZero => Sys2Proof.Machine.execAutoZero s
  | .trimReset => Sys2Proof.Machine.execTrimReset s
  | .keyTake => Sys2Proof.Machine.execKeyTake s
  | .keyGive => Sys2Proof.Machine.execKeyGive s
  | .keyKeep => Sys2Proof.Machine.execKeyKeep s
  | .keyStop => Sys2Proof.Machine.execKeyStop s
  | .keyRun => Sys2Proof.Machine.execKeyRun s
  | .keyHold => Sys2Proof.Machine.execKeyHold s
  | .keyWarm => Sys2Proof.Machine.execKeyWarm s
  | .keyCold => Sys2Proof.Machine.execKeyCold s
  | .keyThread => Sys2Proof.Machine.execKeyThread s
  | .keyJogFwd => Sys2Proof.Machine.execKeyJogFwd s
  | .keyJogRev => Sys2Proof.Machine.execKeyJogRev s
  | .keyUp key => Sys2Proof.Machine.execKeyUp key s
  | .alive => Sys2Proof.Machine.execAlive s
  | .lockedLampExpiry => Sys2Proof.Machine.execLockedLampExpiry s
  | .pendantSilent => Sys2Proof.Machine.execPendantSilent s
  | .estopOpen => Sys2Proof.Machine.execEstopOpen s
  | .estopClose => Sys2Proof.Machine.execEstopClose s
  | .statusFrame wrap phasePos drive => Sys2Proof.Machine.execStatusFrame wrap phasePos drive s
  | .driveLinkWatchExpiry => Sys2Proof.Machine.execDriveLinkWatchExpiry s
  | .commandFrame => Sys2Proof.Machine.execCommandFrame s
  | .printDone panel result => Sys2Proof.Machine.execPrintDone panel result s
  | .engineState value => Sys2Proof.Machine.execEngineState value s
  | .reading xr density quality => Sys2Proof.Machine.execReading xr density quality s
  | .fabricMark stamp => Sys2Proof.Machine.execFabricMark stamp s
  | .paperMark stamp => Sys2Proof.Machine.execPaperMark stamp s
  | .fabricSplice stamp => Sys2Proof.Machine.execFabricSplice stamp s
  | .paperSplice stamp => Sys2Proof.Machine.execPaperSplice stamp s
  | .drumStep dir => Sys2Proof.Machine.execDrumStep dir s
  | .printStep dir => Sys2Proof.Machine.execPrintStep dir s
  | .storeExitStep dir => Sys2Proof.Machine.execStoreExitStep dir s
  | .triggerFire channel => Sys2Proof.Machine.execTriggerFire channel s
  | .latchPulseEnd latch => Sys2Proof.Machine.execLatchPulseEnd latch s
  | .wrapTimeout => Sys2Proof.Machine.execWrapTimeout s
  | .doseInterval => Sys2Proof.Machine.execDoseInterval s
  | .heatInterval => Sys2Proof.Machine.execHeatInterval s
  | .heaterWindow => Sys2Proof.Machine.execHeaterWindow s
  | .heaterOnEnd zone => Sys2Proof.Machine.execHeaterOnEnd zone s
  | .scannerConversion raw => Sys2Proof.Machine.execScannerConversion raw s
  | .tensionSample fabricIn fabricOut paperIn paperOut => Sys2Proof.Machine.execTensionSample fabricIn fabricOut paperIn paperOut s
  | .chainLook => Sys2Proof.Machine.execChainLook s
  | .pictureInterval => Sys2Proof.Machine.execPictureInterval s
  | .lineClock => Sys2Proof.Machine.execLineClock s

end Sys2Proof.Machine
end

