-- ==== Sys2Proof/Safety.lean ====
section
/-! DEFINITION. The terms the statements are written in: the parts of the state, what a command
changes at most, a ticket taken and finished, the regions of exchange memory, and the properties
every step keeps. -/

namespace Sys2Proof.Machine

/-! ## Frames -/

/-- The parts of the state. -/
inductive Part
  | mem | line | lib | pos | trig | ord | reg | heat | dose | tens | check | walker | host
  | sent | drawn | queue
  deriving DecidableEq, Repr

/-- A part holds the same in two states. -/
def samePart : Part → State → State → Prop
  | .mem, s, t => t.mem = s.mem
  | .line, s, t => t.line = s.line
  | .lib, s, t => t.lib = s.lib
  | .pos, s, t => t.pos = s.pos
  | .trig, s, t => t.trig = s.trig
  | .ord, s, t => t.ord = s.ord
  | .reg, s, t => t.reg = s.reg
  | .heat, s, t => t.heat = s.heat
  | .dose, s, t => t.dose = s.dose
  | .tens, s, t => t.tens = s.tens
  | .check, s, t => t.lastReading = s.lastReading
  | .walker, s, t => t.walker = s.walker
  | .host, s, t => t.host = s.host
  | .sent, s, t => t.sent = s.sent
  | .drawn, s, t => t.drawn = s.drawn
  | .queue, s, t => t.pending = s.pending

/-- At most the named parts differ. -/
def ChangesOnly (ps : List Part) (s t : State) : Prop := ∀ p, p ∉ ps → samePart p s t

/-- Every byte outside a region reads as before. -/
def BytesKept (region : Nat → Prop) (s t : State) : Prop :=
  ∀ a, ¬ region a → Memory.get t.mem a = Memory.get s.mem a

/-- The bytes a finish writes into the header of ticket slot n: the hand, the result code, the
detail and the stamps (R175, 10.6). -/
def finishBytes (n a : Nat) : Prop :=
  a = ticketBase n ∨ (ticketBase n + 0x08 ≤ a ∧ a < ticketBase n + 0x0A) ∨
    (ticketBase n + 0x0C ≤ a ∧ a < ticketBase n + 0x18)

/-- The 32 bytes of the log entry that the next notice of a state is written to (R178). -/
def nextNoticeBytes (s : State) (a : Nat) : Prop := noticeAt s ≤ a ∧ a < noticeAt s + 32

/-- The notice log (10.1). -/
def logBytes (a : Nat) : Prop := 0x1000 ≤ a ∧ a < 0x3000

/-- The ticket area (10.1). -/
def ticketBytes (a : Nat) : Prop := 0x5000 ≤ a ∧ a < 0x15000

/-- The log entry that the next notice of `s` takes shows, in `t`, a notice of a kind with a line
state and three detail words, and with the sequence, X and line clock of `s` (R178, 10.6). -/
def NoticeShown (k : NoticeKind) (st : LineState) (d1 d2 d3 : Word) (s t : State) : Prop :=
  Memory.word t.mem (noticeAt s) = s.host.written
  ∧ Memory.half t.mem (noticeAt s + 0x04) = BitVec.ofNat 16 k.code
  ∧ Memory.get t.mem (noticeAt s + 0x06) = natByte st.code
  ∧ Memory.word t.mem (noticeAt s + 0x08) = s.pos.x
  ∧ Memory.word t.mem (noticeAt s + 0x0C) = s.host.clock
  ∧ Memory.word t.mem (noticeAt s + 0x10) = d1
  ∧ Memory.word t.mem (noticeAt s + 0x14) = d2
  ∧ Memory.word t.mem (noticeAt s + 0x18) = d3
  ∧ causeSet t .notice = true

/-! ## One element of a bank replaced -/

/-- The trigger unit with one channel replaced. -/
def TrigUnit.withChannel (u : TrigUnit) (c : Fin 12) (ch : Channel) : TrigUnit :=
  { u with channels := u.channels.set c ch }

/-- The trigger unit with one latch replaced. -/
def TrigUnit.withLatch (u : TrigUnit) (i : Fin 8) (l : Latch) : TrigUnit :=
  { u with latches := u.latches.set i l }

/-- The tension unit with one zone replaced. -/
def TensionUnit.withZone (u : TensionUnit) (z : Fin 4) (t : TensionZone) : TensionUnit :=
  { u with zones := u.zones.set z t }

/-- The library with one slot replaced. -/
def Library.withSlot (u : Library) (i : Fin 16) (c : Slot) : Library :=
  { u with slots := u.slots.set i c }

/-! ## Tickets -/

/-- The result area of an AUTO_ZERO ticket: the two zeros, the reason and the side (R148, 10.6). -/
def AutoResult (n : Nat) (zeroL zeroR : Int) (reason side : Byte) (t : State) : Prop :=
  ticketHalf t n 0x80 = BitVec.ofInt 16 zeroL ∧ ticketHalf t n 0x82 = BitVec.ofInt 16 zeroR
  ∧ ticketByte t n 0x84 = reason ∧ ticketByte t n 0x85 = side

/-- The slot the walker looks at. -/
def look (s : State) : Nat := s.walker.look

/-- The walker takes, at its next examination, a ticket of a kind (R170); exchange memory stands in
its canonical form and the look slot is a ticket slot, which every step keeps (`Memory.wf`,
`TicketLaw`). -/
def TakesKind (s : State) (kind : Nat) : Prop :=
  takesNow s = true ∧ (kindOf s (look s)).toNat = kind ∧ 1 ≤ look s ∧ look s ≤ 256
  ∧ Memory.wf s.mem = true

/-- Ticket slot n shows a finish with a code and a detail, stamped with X and the line clock of a
state (R175). -/
def TicketShows (n : Nat) (code : ResultCode) (detail : Word) (s t : State) : Prop :=
  handOf t n = code.hand ∧ ticketHalf t n 0x08 = BitVec.ofNat 16 code.code
  ∧ ticketWord t n 0x0C = detail ∧ ticketWord t n 0x10 = s.pos.x ∧ ticketWord t n 0x14 = s.host.clock
  ∧ causeSet t .ticket = true

/-- The take of the look slot as the walker records it (R170, step 1). -/
def TakeRecorded (s t : State) : Prop :=
  t.walker.expected = s.walker.expected + 1 ∧ t.walker.fromTicket = some (look s)

/-- The host unit's fields beside the attention causes and the notice count. -/
def HostKept (s t : State) : Prop :=
  t.host = { s.host with causes := t.host.causes, written := t.host.written }

/-- The walker stands stalled with a code, the CHAIN cause and its notice; `off` is the offending
value (R174). -/
def StalledWith (code : StallCode) (f : Nat) (off : Word) (s t : State) : Prop :=
  t.walker.state = .stalled ∧ t.walker.stall = code ∧ causeSet t .chain = true
  ∧ NoticeShown .chainStall s.line.state (natWord code.code) (natWord f) off s t
  ∧ t.host.written = s.host.written + 1

/-- The walker has moved on from ticket f, whose link it read in `s` (R171): it waits at link 0,
stalls on a link above 256 or, where `taken`, to a slot of the open chain, and else runs with the linked
slot. -/
def MovedOnFrom (taken : Bool) (f : Nat) (s t : State) : Prop :=
  if linkOf s f = 0 then
    t.walker.state = .waiting ∧ t.walker.wait = .link ∧ t.walker.look = 0
    ∧ t.host.written = s.host.written
  else if 256 < linkOf s f then StalledWith .linkRange f (natWord (linkOf s f)) s t
  else if taken = true then StalledWith .linkTaken f (natWord (linkOf s f)) s t
  else t.walker.state = .running ∧ t.walker.look = linkOf s f ∧ t.host.written = s.host.written

/-- The walker has moved on from ticket f, by the open chain of `t` (R171). -/
def MovedOn (f : Nat) (s t : State) : Prop := MovedOnFrom (inChain t (linkOf s f)) f s t

/-- A FULL walker has moved on at the finish of a long ticket (R173), by the open chain of `s`, since the
retire mark passes the finished ticket after it (log 15). -/
def FullResumed (f : Nat) (s t : State) : Prop := MovedOnFrom (inChain s (linkOf s f)) f s t

/-- What the walker does after a take (R170, R173): FULL at the ticket limit, else moved on. -/
def WalkerWentOn (s t : State) : Prop :=
  if t.walker.outstanding = ticketLimit s then t.walker.state = .full ∧ t.host.written = s.host.written
  else MovedOn (look s) s t

/-- An immediate ticket: taken, finished with a code and a detail at the same event, and the walker
FULL or moved on; nothing of exchange memory is written but the finish and, where the walker stalls
on the next link, one notice (R170, R171, R173 to R175). -/
def TakenAndFinished (code : ResultCode) (detail : Word) (s t : State) : Prop :=
  TicketShows (look s) code detail s t ∧ TakeRecorded s t ∧ HostKept s t
  ∧ t.walker.outstanding = s.walker.outstanding ∧ WalkerWentOn s t
  ∧ BytesKept (fun a => finishBytes (look s) a ∨ nextNoticeBytes s a) s t

/-- The parts every immediate ticket may change beside its owner's. -/
def ticketParts : List Part := [.mem, .walker, .host, .sent]

/-- A refused ticket: finished with a refusal code, and nothing else changed (R175). -/
def Refused (code : ResultCode) (detail : Word) (c : Instr) (s : State) : Prop :=
  ∃ t, exec c s = .next t ∧ TakenAndFinished code detail s t ∧ ChangesOnly ticketParts s t
    ∧ t.sent = []

/-- An immediate ticket that is accepted: the state after it, with what the walker does. -/
def Accepted (code : ResultCode) (detail : Word) (owner : List Part) (c : Instr) (s : State)
    (effect : State → Prop) : Prop :=
  ∃ t, exec c s = .next t ∧ effect t ∧ TakenAndFinished code detail s t
    ∧ ChangesOnly (owner ++ ticketParts) s t

/-- A long ticket taken: it stays TAKEN, and the outstanding count has risen by one (R170, R173). -/
def TakenLong (s t : State) : Prop :=
  handOf t (look s) = 2 ∧ TakeRecorded s t ∧ HostKept s t
  ∧ t.walker.outstanding = s.walker.outstanding + 1 ∧ WalkerWentOn s t

/-- The print start conditions that do not speak of the print order list (R63). -/
def Startable (s : State) : Prop :=
  s.line.state = .run ∧ s.dose.wrap = .closed ∧ s.ord.panels.length < 64 ∧ s.ord.engine = .ready
  ∧ (∀ m, s.ord.endMark = some m → 0 ≤ sdiff s.pos.s (m + 500))

/-- The ticket rows with their kind codes (10.6). -/
def ticketRows : List (Nat × Instr) :=
  [ (0x01, .nop), (0x10, .lineCommand), (0x11, .authority), (0x12, .speedClass),
    (0x13, .sectionClear), (0x14, .fabricLoaded), (0x20, .profileCommit), (0x21, .profileOpen),
    (0x22, .profileClear), (0x23, .libraryLock), (0x30, .triggerSet), (0x31, .triggerGroup),
    (0x32, .triggerCorrect), (0x33, .outputSet), (0x40, .queuePanels), (0x41, .cancelPanels),
    (0x50, .phaseHome), (0x60, .heatSetpoint), (0x61, .heatTune), (0x62, .scanList),
    (0x70, .tensionTune), (0x71, .tensionMix), (0x72, .autoZero), (0x80, .trimReset) ]

/-! ## The pendant -/

/-- A message of the pendant: a key going down or up, or ALIVE (R18). -/
def isPendantMessage (c : Instr) : Prop :=
  c ∈ [ Instr.keyTake, .keyGive, .keyKeep, .keyStop, .keyRun, .keyHold, .keyWarm, .keyCold, .keyThread,
        .keyJogFwd, .keyJogRev, .alive ]
  ∨ ∃ k, c = .keyUp k

/-! ## A change of line state -/

/-- A cell of the wrap names the record. -/
def NamedInWrap (s : State) (p : Panel) : Prop := ∃ c ∈ s.dose.cells, c.panel = some p.number

/-- The records of `s` stand in `t` as they were, but that the ones that a cell names are INTERRUPTED
where the wrap has begun to move; there no record has come or gone (R121). -/
def InterruptedByWrap (s t : State) : Prop :=
  (t.dose.wrap ≠ s.dose.wrap → t.ord.panels.length = s.ord.panels.length)
  ∧ ∀ (k : Nat) (p : Panel), s.ord.panels[k]? = some p →
    (t.dose.wrap ≠ s.dose.wrap → NamedInWrap s p →
      t.ord.panels[k]? = some { p with interrupted := true })
    ∧ (t.dose.wrap = s.dose.wrap ∨ ¬ NamedInWrap s p → t.ord.panels[k]? = some p)

/-- The line has entered a state, from the one it had in `s`, with everything the blocks answer the
entry with (R2, R7, R103, R118, R121, R129, R148); no latch changes at an entry. -/
structure Entered (new : LineState) (cause : LineCause) (s t : State) : Prop where
  state : t.line.state = new
  heat : t.line.heat =
    (if new = .cold ∨ new = .halt then false else if new = .thread then s.line.heat else true)
  flag : t.line.threadHeat = (if new = .thread then s.line.heat else s.line.threadHeat)
  kept : t.line = { s.line with
    state := t.line.state, heat := t.line.heat, threadHeat := t.line.threadHeat,
    jog := t.line.jog, alarms := t.line.alarms }
  latches : ∀ a, latched t a = latched s a
  zones : s.line.heat = true → t.line.heat = false → ∀ k : Fin 8,
    t.heat.zones[k].state = .off ∧ t.heat.zones[k].heater = false ∧ t.heat.zones[k].power = 0
  zonesKept : s.line.heat = false ∨ t.line.heat = true → t.heat = s.heat
  wrap : t.dose.wrap =
    (if new = .run then
      (if s.dose.wrap = .opened ∨ s.dose.wrap = .opening then .closing else s.dose.wrap)
    else if s.line.state = .run ∧ (s.dose.wrap = .closing ∨ s.dose.wrap = .closed) then .opening
    else s.dose.wrap)
  interrupted : InterruptedByWrap s t
  autos : ∀ z : Fin 4, t.tens.zones[z].auto = none
    ∧ (s.tens.zones[z].auto = none → t.tens.zones[z].l.zero = s.tens.zones[z].l.zero
      ∧ t.tens.zones[z].r.zero = s.tens.zones[z].r.zero)
    ∧ ∀ a, s.tens.zones[z].auto = some a →
      t.tens.zones[z].l.zero = a.savedL ∧ t.tens.zones[z].r.zero = a.savedR
  speed : t.dose.sCmd =
    (if new = .cold ∨ new = .halt ∨ new = .thread then 0
    else if new = .hold then s.dose.sCmd else 20)
  notice : NoticeShown .lineState new (natWord s.line.state.code) (natWord new.code) cause.word s t
  cause : new = .halt → causeSet t .halt = true

/-- The parts a change of line state may change. -/
def lineParts : List Part := [.mem, .line, .lib, .ord, .heat, .dose, .tens, .walker, .host, .sent]

/-- Exchange memory outside the notice log and the ticket area reads as before. -/
def LogAndTicketsOnly (s t : State) : Prop := BytesKept (fun a => logBytes a ∨ ticketBytes a) s t

/-! ## Properties every step keeps -/

/-- The lists stay within their capacities, the wrap has exactly 30 cells with consecutive start
coordinates, and the pass position names an entry (R39, R53, R59, R77, R96, R114). -/
structure WithinCapacity (s : State) : Prop where
  panels : s.ord.panels.length ≤ 64
  splices : s.pos.splices.length ≤ 8
  cuts : s.trig.cuts.length ≤ 4
  pieces : s.reg.queue.length ≤ 8
  cells : s.dose.cells.length = 30
  steps : ∀ k, k < 29 → (s.dose.cells.map (·.xc)).getD k 0
    = (s.dose.cells.map (·.xc)).getD (k + 1) 0 + 1000
  scan : 1 ≤ s.heat.scan.length ∧ s.heat.scan.length ≤ 16
  shadow : ∀ l, s.heat.shadow = some l → 1 ≤ l.length ∧ l.length ≤ 16
  pass : s.heat.pass < s.heat.scan.length

/-- Whether a zone state has no heat: OFF, CUT or LOST (R112). -/
def unheated (z : ZoneState) : Bool := z == .off || z == .cut || z == .lost

/-- With the heat enable off every zone is OFF, and the heater of a zone that is OFF, CUT or LOST is
off with power 0 (R2, R103, R112). -/
structure HeatersSafe (s : State) : Prop where
  disabled : s.line.heat = false → ∀ k : Fin 8, s.heat.zones[k].state = .off
  unheated : ∀ k : Fin 8, unheated s.heat.zones[k].state = true →
    s.heat.zones[k].heater = false ∧ s.heat.zones[k].power = 0 ∧ s.heat.zones[k].onEnd = none

/-- The ranges of the dose trims (R30), the phase roller (R86, R87), the zone regulators (R100) and
the tension regulators (R133). -/
structure WithinRange (s : State) : Prop where
  trims : ∀ i : Fin 16, -100 ≤ s.lib.slots[i].trim ∧ s.lib.slots[i].trim ≤ 100
  target : -600 ≤ s.reg.target ∧ s.reg.target ≤ 600
  position : -600 ≤ s.reg.position ∧ s.reg.position ≤ 600
  zones : ∀ k : Fin 8, 0 ≤ s.heat.zones[k].integral ∧ s.heat.zones[k].integral ≤ 1000
    ∧ s.heat.zones[k].power ≤ 1000 ∧ s.heat.zones[k].settle ≤ 600
  tension : ∀ z : Fin 4, -200 ≤ s.tens.zones[z].trim ∧ s.tens.zones[z].trim ≤ 200
    ∧ -200 ≤ s.tens.zones[z].integral ∧ s.tens.zones[z].integral ≤ 200
    ∧ s.tens.zones[z].breakCount ≤ 50 ∧ s.tens.zones[z].skewCount ≤ 100

/-- Whether the configuration stands accepted (R165, R166). -/
def configAccepted (s : State) : Prop := firstFailure (configChecks s) = none

/-- The speed law: before START the line is in COLD or HALT and the walker OFF; COLD and HALT have S_cmd 0; S_cmd is at
most V_lim; the wrap is CLOSING or CLOSED only in RUN (R41, R118, R125, R128, R129, R166). -/
structure SpeedLaw (s : State) : Prop where
  config : started s = true → configAccepted s
  unstarted : started s = false →
    (s.line.state = .cold ∨ s.line.state = .halt) ∧ s.walker.state = .off
  stopped : s.line.state = .cold ∨ s.line.state = .halt → s.dose.sCmd = 0
  limited : s.dose.sCmd ≤ vLim s
  wrap : s.dose.wrap = .closing ∨ s.dose.wrap = .closed → s.line.state = .run

/-- The ticket law: the outstanding count stays at most the ticket limit, and below it unless the
walker is FULL; before START the walker is OFF with nothing outstanding; a walker that runs, or will
examine the look slot again, looks at a ticket slot, and one that stalled on a link has a from ticket
(R166, R169 to R174). -/
structure TicketLaw (s : State) : Prop where
  config : started s = true → configAccepted s
  unstarted : started s = false → s.walker.state = .off ∧ s.walker.outstanding = 0
  limited : started s = true → s.walker.outstanding ≤ ticketLimit s
  full : started s = true → s.walker.state ≠ .full → s.walker.outstanding < ticketLimit s
  look : s.walker.state = .running ∨ (s.walker.state = .waiting ∧ s.walker.wait = .slot)
      ∨ (s.walker.state = .stalled ∧ s.walker.stall = .sequence) →
    1 ≤ s.walker.look ∧ s.walker.look ≤ 256
  linked : s.walker.state = .stalled ∧ s.walker.stall ≠ .sequence → s.walker.fromTicket.isSome = true

/-- The chain law: every slot of the open chain is a ticket slot, the chain holds no slot twice, it is
empty before START, and the slot that a walker runs with, or will examine again, is not in it (R166,
R169 to R174, R176). -/
structure ChainLaw (s : State) : Prop where
  slots : ∀ e ∈ s.walker.chain, 1 ≤ e.slot ∧ e.slot ≤ 256
  once : (s.walker.chain.map (·.slot)).Nodup
  unstarted : started s = false → s.walker.chain = []
  fresh : s.walker.state = .running ∨ (s.walker.state = .waiting ∧ s.walker.wait = .slot)
      ∨ (s.walker.state = .stalled ∧ s.walker.stall = .sequence) →
    ∀ e ∈ s.walker.chain, e.slot ≠ s.walker.look

/-- A ticket slot shows a finish: DONE or REFUSED (R175). -/
def finished (s : State) (n : Nat) : Prop := handOf s n = 3 ∨ handOf s n = 4

/-- The retire law: the head of the open chain is not both finished and followed (R176). -/
def RetireLaw (s : State) : Prop :=
  ∀ e, s.walker.chain.head? = some e → ¬ (e.followed = true ∧ finished s e.slot)

/-- The walker has followed the next link of ticket n between `s` and `t`: n is the ticket it has taken,
or the from ticket that it moved on from, and it runs with the linked slot (R171, R173, R174). -/
structure LinkFollowed (n : Nat) (s t : State) : Prop where
  source : (takesNow s = true ∧ n = look s)
    ∨ (takesNow s = false ∧ s.walker.state ≠ .running ∧ s.walker.fromTicket = some n)
  running : t.walker.state = .running
  fromTicket : t.walker.fromTicket = some n
  link : t.walker.look = linkOf t n ∧ 1 ≤ linkOf t n ∧ linkOf t n ≤ 256

/-- The retire mark of `t` has passed, since `s`, the first slots of the open chain, a ticket taken
meanwhile among them: each shows a finish, and its next link was followed before or is followed now; and
the mark is the last of them, or as before where it has passed none (R176). -/
def MarkPassed (s t : State) : Prop :=
  ∃ passed taken : List Nat,
    s.walker.chain.map (·.slot) ++ taken = passed ++ t.walker.chain.map (·.slot)
    ∧ (taken = [] ∨ (takesNow s = true ∧ taken = [look s]))
    ∧ (∀ n ∈ passed, finished t n ∧ (⟨n, true⟩ ∈ s.walker.chain ∨ LinkFollowed n s t))
    ∧ (passed = [] → t.walker.retireSlot = s.walker.retireSlot
      ∧ t.walker.retireSeq = s.walker.retireSeq)
    ∧ ∀ n, passed.getLast? = some n → t.walker.retireSlot = n ∧ t.walker.retireSeq = sequenceOf t n

/-- The copy law: the copies that orders hold, that entries are still to print and that live records
were printed for are numbered 1 to 8 (R56, R58, R60, R67). -/
structure CopyLaw (s : State) : Prop where
  orders : ∀ o ∈ s.ord.orders, o.copies.length ≤ 8
  entries : ∀ e ∈ s.ord.entries, 1 ≤ e.next ∧ (e.retry = [] → e.next ≤ 8)
    ∧ ∀ k ∈ e.retry, 1 ≤ k ∧ k ≤ 8
  panels : ∀ p ∈ s.ord.panels, 1 ≤ p.copy ∧ p.copy ≤ 8

/-- An auto-zero runs only in COLD, or in THREAD with the jog state NONE (R146, R148). -/
def AutoZeroLaw (s : State) : Prop :=
  ∀ z : Fin 4, s.tens.zones[z].auto.isSome = true →
    s.line.state = .cold ∨ (s.line.state = .thread ∧ s.line.jog = .still)

/-- How many print order entries and live panel records name a slot (R32). -/
def slotUses (s : State) (i : Fin 16) : Nat :=
  (s.ord.entries.filter fun e => e.profile == i).length
    + (s.ord.panels.filter fun p => p.profile == i).length

/-- A slot's in-use count equals the entries and records that name it, and a slot in use is VALID
(R32). -/
def InUseExact (s : State) : Prop :=
  ∀ i : Fin 16, s.lib.slots[i].inUse = slotUses s i
    ∧ (0 < s.lib.slots[i].inUse → s.lib.slots[i].state = .valid)

/-- Panel numbers lie in 1..65535 and are unique among the at most 64 live records (R59). -/
structure NumbersUnique (s : State) : Prop where
  room : s.ord.panels.length ≤ 64
  counter : s.ord.counter ≠ 0
  live : ∀ p ∈ s.ord.panels, p.number ≠ 0
  unique : (s.ord.panels.map (·.number)).Nodup

/-! ## Profile validation -/

/-- Which host field each index of the table of 2.2 names, at its place of 10.6, and when validation does
not accept it: outside its own range, or in a relation with the field before it (R25). The fields of a
part whose present flag is not 1 are not checked (R23). -/
def FieldRefused (s : State) (i : Fin 16) (f : Nat) : Prop :=
  (f = 1 ∧ ∃ k : Fin 16, ¬ (32 ≤ (nameByte s i k).toNat ∧ (nameByte s i k).toNat ≤ 126))
  ∨ (f = 2 ∧ ¬ (1 ≤ prof s i 0x010 ∧ prof s i 0x010 ≤ 255))
  ∨ (∃ k : Fin 8, f = 3 + k.val ∧ (¬ (1000 ≤ knotT s i k ∧ knotT s i k ≤ 2500)
      ∨ (0 < k.val ∧ knotT s i k ≤ knotT s i (k.val - 1))))
  ∨ (∃ k : Fin 8, f = 11 + k.val ∧ (1000 < knotR s i k
      ∨ (0 < k.val ∧ knotR s i k < knotR s i (k.val - 1))))
  ∨ (f = 19 ∧ ¬ (1 ≤ dMin s i ∧ dMin s i ≤ 60000))
  ∨ (f = 20 ∧ ¬ (1 ≤ dTarget s i ∧ dTarget s i ≤ 60000 ∧ dMin s i ≤ dTarget s i))
  ∨ (f = 21 ∧ ¬ (1 ≤ dMax s i ∧ dMax s i ≤ 60000 ∧ dTarget s i ≤ dMax s i))
  ∨ (f = 22 ∧ ¬ (1000 ≤ tScorch s i ∧ tScorch s i ≤ 2500))
  ∨ (f = 23 ∧ ¬ (20 ≤ maxSpeed s i ∧ maxSpeed s i ≤ 400))
  ∨ (∃ z : Fin 4, f = 24 + z.val ∧ 40000 < setpoint s i z)
  ∨ (∃ p ∈ [(28, 0x044), (32, 0x04C)],
      (f = p.1 ∧ 1 < prof s i p.2)
      ∨ (prof s i p.2 = 1
        ∧ ((f = p.1 + 1 ∧ 500 < prof s i (p.2 + 2))
          ∨ (f = p.1 + 2 ∧ ¬ (50 ≤ prof s i (p.2 + 4) ∧ prof s i (p.2 + 4) ≤ 1500))
          ∨ (f = p.1 + 3 ∧ ¬ (50 ≤ prof s i (p.2 + 6) ∧ prof s i (p.2 + 6) ≤ 1500
              ∧ prof s i (p.2 + 4) < prof s i (p.2 + 6))))))
  ∨ (f = 36 ∧ ¬ (5 ≤ regTolerance s i ∧ regTolerance s i ≤ 200))
  ∨ (f = 37 ∧ 1 < prof s i 0x056)
  ∨ (prof s i 0x056 = 1
    ∧ ((∃ c : Fin 4, f = 38 + c.val ∧ 3000 < expected s i c)
      ∨ (∃ c : Fin 4, f = 42 + c.val ∧ ¬ (1 ≤ tolerance s i c ∧ tolerance s i c ≤ 500))
      ∨ (f = 46 ∧ 1 < prof s i 0x068)))

/-! ## The lines the part drives -/

/-- The attention line is asserted exactly while some cause is set and unmasked (R181). -/
def AttentionFollows (s : State) : Prop :=
  attentionLine s = true ↔ ∃ k, k < 6 ∧ s.host.causes.getLsbD k = true ∧ s.host.mask.getLsbD k = true

end Sys2Proof.Machine
end

