-- ==== Sys2Proof/WellFormed.lean ====
section
/-! DEFINITION. Which commands the spec's links and bus can deliver: word-aligned offsets (R163),
load cell values of 0..32767 (8.1) and panel numbers of 1..65535 (R59). The machine gives every
command a meaning, ill-formed ones too; the log (entry 9) says which. -/

namespace Sys2Proof

/-- A word-aligned byte offset (R163). -/
def wordAligned (offset : Word) : Bool := offset.toNat % 4 == 0

/-- The offsets at which a write is ignored: the unmapped span and everything from 0x18010 (R163). -/
def ignoredOffset (offset : Word) : Bool :=
  (0x15000 ≤ offset.toNat && offset.toNat < 0x18000) || 0x18010 ≤ offset.toNat

/-- A raw load cell pair within 0..32767 (8.1). -/
def rawInRange (p : RawPair) : Bool := p.l.toNat ≤ 32767 && p.r.toNat ≤ 32767

/-- The commands the outside world can send. -/
def WellFormed : Instr → Bool
  | .hostWrite offset _ _ => wordAligned offset && !ignoredOffset offset
  | .registerWriteIgnored offset _ _ => wordAligned offset && ignoredOffset offset
  | .tensionSample a b c d => rawInRange a && rawInRange b && rawInRange c && rawInRange d
  | .printDone panel _ => panel != 0
  | .powerOnReset | .start | .resetLine | .walkerRestart | .nudge _ | .attnClear _
  | .attnMaskWrite _ | .walkerExamine | .nop | .badKind | .lineCommand | .authority
  | .speedClass | .sectionClear | .fabricLoaded | .profileCommit | .profileOpen
  | .profileClear | .libraryLock | .triggerSet | .triggerGroup | .triggerCorrect
  | .outputSet | .queuePanels | .cancelPanels | .phaseHome | .heatSetpoint | .heatTune
  | .scanList | .tensionTune | .tensionMix | .autoZero | .trimReset | .keyTake | .keyGive
  | .keyKeep | .keyStop | .keyRun | .keyHold | .keyWarm | .keyCold | .keyThread | .keyJogFwd
  | .keyJogRev | .keyUp _ | .alive | .lockedLampExpiry | .pendantSilent | .estopOpen
  | .estopClose | .statusFrame _ _ _ | .driveLinkWatchExpiry | .commandFrame | .engineState _
  | .reading _ _ _ | .fabricMark _ | .paperMark _ | .fabricSplice _ | .paperSplice _
  | .drumStep _ | .printStep _ | .storeExitStep _ | .triggerFire _ | .latchPulseEnd _
  | .wrapTimeout | .doseInterval | .heatInterval | .heaterWindow | .heaterOnEnd _
  | .scannerConversion _ | .chainLook | .pictureInterval | .lineClock => true

end Sys2Proof
end

