-- ==== Sys2Proof/Certificates/Slice0/Obligations.lean ====
section
/-! DEFINITION. The statements about the OJ-3210 for the provers: the step and its messages, reset, the
properties every step keeps, the host port, the walker and its tickets, the links, the encoders and
sensors, and the periodic timers. -/

section Statements

open Sys2Proof Sys2Proof.Machine

/-! ## The step, the queue and the messages -/

/-- A step takes the command at the front of the queue and is its effect with the queue's rest; with no
command waiting the block idles (the model's queue, log 1). -/
def Obligations.StepTakesFrontCommand : Prop :=
  (∀ (c : Instr) (rest : List Instr) (s : State),
    step (s.withPending (c :: rest)) = exec c (s.withPending rest))
  ∧ (∀ s : State, s.pending = [] → step s = .next s)

/-- No command faults or is refused, in any state, and none touches the commands that wait behind it. -/
def Obligations.EveryCommandAnswers : Prop :=
  ∀ (c : Instr) (s : State), ∃ t, exec c s = .next t ∧ t.pending = s.pending

/-- The messages of a command (log 11): a command frame with the present values stands among them
whenever a carried value has changed, LAMPS whenever the set of lit lamps has, and no frame and no
LAMPS otherwise, but for the commands that send one of their own: a frame at COMMAND_FRAME and at a
STATUS_FRAME with the wrap CLOSED, LAMPS at a message of a pendant that was SILENT (R18, R19). -/
def Obligations.MessagesFollowChanges : Prop :=
  ∀ (c : Instr) (s t : State), exec c s = .next t → c ≠ .powerOnReset →
    (frameOf t ≠ frameOf s → Message.frame (frameOf t) ∈ t.sent)
    ∧ (lampSet t ≠ lampSet s → Message.lamps (lampSet t) ∈ t.sent)
    ∧ (∀ f, Message.frame f ∈ t.sent → f = frameOf t)
    ∧ (∀ l, Message.lamps l ∈ t.sent → l = lampSet t)
    ∧ ((∃ f, Message.frame f ∈ t.sent) → frameOf t ≠ frameOf s ∨ c = .commandFrame
        ∨ ∃ w p d, c = .statusFrame w p d ∧ s.dose.wrap = .closed)
    ∧ ((∃ l, Message.lamps l ∈ t.sent) → lampSet t ≠ lampSet s
        ∨ (s.line.pendant = .silent ∧ isPendantMessage c))

/-- The host-written bytes of the anchor block and the profile library, and the picture, belong to
their writers: of the bytes that exchange memory keeps, no command but a host write, a picture interval
and power-on reset changes one outside the notice log and the ticket area (R22, R163, R165, R180). The
fields that the part writes into the anchor and into the slots (R165, R178, R31) are not among these
bytes: the model reads them from the blocks that hold them (`hostRead`; `HostReads`). -/
def Obligations.PartWritesLogAndTicketsOnly : Prop :=
  ∀ (c : Instr) (s t : State), exec c s = .next t →
    c ≠ .powerOnReset → c ≠ .pictureInterval → (∀ o d e, c ≠ .hostWrite o d e) →
    LogAndTicketsOnly s t

/-! ## Reset -/

/-- What power-on reset leaves, where the manual gives the value (R1, R21, R39, R59, R69, R100, R163,
R165, R181), and that it has every property that steps keep. -/
def Obligations.ResetState : Prop :=
  (State.reset.line.state = .cold ∧ State.reset.line.heat = false ∧ State.reset.line.auth = .remote
  ∧ State.reset.line.speedClass = 0 ∧ State.reset.line.classLock = false
  ∧ State.reset.line.fabric = 0 ∧ State.reset.line.pendant = .silent
  ∧ State.reset.line.link = .up ∧ (∀ a, alarmRec State.reset a = ⟨false, false⟩)
  ∧ (∀ i : Fin 16, State.reset.lib.slots[i] = ⟨.empty, 0, 0, 0⟩)
  ∧ State.reset.pos.x = 0 ∧ State.reset.pos.s = 0 ∧ State.reset.pos.u = 0
  ∧ State.reset.pos.phase = 0 ∧ storeLevel State.reset = -60000
  ∧ State.reset.ord.counter = 1 ∧ State.reset.ord.engine = .busy
  ∧ State.reset.heat.base = 1000 ∧ (∀ k : Fin 8, State.reset.heat.zones[k].state = .off)
  ∧ State.reset.dose.wrap = .opened ∧ State.reset.dose.sCmd = 0
  ∧ State.reset.walker.state = .off ∧ State.reset.host.startStatus = .never
  ∧ State.reset.host.guardAddress = 0xFFFFFFFF ∧ State.reset.host.mask = 0x3F
  ∧ (∀ a, Memory.get State.reset.mem a = 0))
  ∧ (Memory.wf State.reset.mem = true ∧ WithinCapacity State.reset ∧ HeatersSafe State.reset
  ∧ WithinRange State.reset ∧ SpeedLaw State.reset ∧ TicketLaw State.reset ∧ ChainLaw State.reset
  ∧ RetireLaw State.reset ∧ CopyLaw State.reset ∧ AutoZeroLaw State.reset
  ∧ InUseExact State.reset ∧ NumbersUnique State.reset)

/-- POWER_ON_RESET (R163, R17). With the E-stop chain CLOSED every field returns to its power-on value.
With the chain OPEN the reset is followed by ESTOP: the line is in HALT with the chain OPEN, ESTOP alone
is latched and active, two notices are written, the causes HALT and NOTICE alone are set, and the rest
of the line mode controller and of the host registers, exchange memory outside the two notices and every
other part, the messages apart, are as after the reset. The commands that wait and the free-value
counter are not the part's (log 3). The power-on values are State.reset's, among them values of the
model: the line clock at 0 (log 4), the channels' field `ahead`, the model's own (log 10), the raw load
cell values (log 13), and the pendant time, the walker's wait kind and the absent ends (log 37). The
details 0 and 0 of ESTOP are not stated here (log 49). -/
def Obligations.PowerOnReset : Prop :=
  ∀ s : State,
    (s.line.chainOpen = false →
      exec .powerOnReset s = .next { State.reset with drawn := s.drawn, pending := s.pending })
    ∧ (s.line.chainOpen = true → ∃ t, exec .powerOnReset s = .next t
        ∧ t.line = { State.reset.line with
            state := .halt, chainOpen := true, alarms := t.line.alarms }
        ∧ alarmRec t .estop = ⟨true, true⟩ ∧ (∀ a, a ≠ .estop → alarmRec t a = ⟨false, false⟩)
        ∧ t.host = { State.reset.host with causes := t.host.causes, written := 2 }
        ∧ (∀ k, causeSet t k = true ↔ k = .halt ∨ k = .notice)
        ∧ Memory.wf t.mem = true
        ∧ (∀ a, ¬ (0x1000 ≤ a ∧ a < 0x1040) → Memory.get t.mem a = 0)
        ∧ ChangesOnly [.mem, .line, .host, .sent, .drawn, .queue] State.reset t
        ∧ t.drawn = s.drawn ∧ t.pending = s.pending)

/-- RESET_LINE (R167, R9, R33, R76, R118, R132, R133): the work is emptied, every alarm whose condition
has ended is unlatched, authority is REMOTE, and the line is in COLD, or in HALT where a condition with
request HALT is still active. The conditions of ESTOP, DRIVE_FAULT, DRIVE_LINK_LOST, WRAP_TIMEOUT,
ZONE_LOST and LOAD_CELL_LOST keep their values and every other one ends. Where the line was in RUN a
wrap in CLOSING or CLOSED goes to OPENING, with the command OPEN and a fresh watch; else the wrap, its
command and its watch are kept; S_target and the governing panel are kept. Each tension zone has its
target, working setpoint, integral, trim and counts at 0, ramp-done set and no hold window, and keeps
all else. The profiles with their trims and the lock, the counters, the trigger settings, the setpoints
and gains of the heat unit with the scan list, the class, fabric and marks, the mask and the START
status are kept; a load cell keeps its zero, or gets back the saved one where its zone was in an
auto-zero, whose ticket finishes ABORTED with reason RESET (R148), the side byte of its result 0 (DESIGN
CHOICE, log 33). (A channel's `ahead` flag, the model's own, is cleared: log 10.) -/
def Obligations.LineResetEmptiesTheLine : Prop :=
  ∀ s : State, ∃ t, exec .resetLine s = .next t
    ∧ t.ord.orders = [] ∧ t.ord.entries = [] ∧ t.ord.panels = [] ∧ t.ord.endMark = none
    ∧ t.ord.counter = s.ord.counter ∧ t.ord.engine = s.ord.engine
    ∧ (∀ i : Fin 16, t.lib.slots[i] = { s.lib.slots[i] with inUse := 0 }) ∧ t.lib.lock = s.lib.lock
    ∧ t.pos = { s.pos with splices := [] }
    ∧ t.trig.cuts = [] ∧ (∀ c : Fin 12, t.trig.channels[c] =
        { s.trig.channels[c] with state := .idle, remaining := 0, ahead := false })
    ∧ (∀ l : Fin 8, t.trig.latches[l] = { s.trig.latches[l] with level := false, pulseEnd := none })
    ∧ t.reg.queue = [] ∧ t.reg.list = [] ∧ t.reg.target = 0 ∧ t.reg.home = none
    ∧ t.reg.position = s.reg.position ∧ t.reg.measured = s.reg.measured
    ∧ t.dose = { s.dose with
        cells := blankCells (s.pos.x - BitVec.ofNat 32 s.pos.phase.val), sCmd := 0,
        wrap := t.dose.wrap, command := t.dose.command, watch := t.dose.watch }
    ∧ (s.line.state = .run ∧ (s.dose.wrap = .closing ∨ s.dose.wrap = .closed) →
      t.dose.wrap = .opening ∧ t.dose.command = .opened ∧ t.dose.watch = some (s.host.clock + 5000))
    ∧ (s.line.state ≠ .run ∨ s.dose.wrap = .opening ∨ s.dose.wrap = .opened →
      t.dose.wrap = s.dose.wrap ∧ t.dose.command = s.dose.command ∧ t.dose.watch = s.dose.watch)
    ∧ (∀ z : Fin 4, t.tens.zones[z] = { s.tens.zones[z] with
        l := { s.tens.zones[z].l with zero := t.tens.zones[z].l.zero },
        r := { s.tens.zones[z].r with zero := t.tens.zones[z].r.zero },
        target := 0, working := 0, integral := 0, trim := 0, rampDone := true, breakCount := 0,
        skewCount := 0, holdEnd := none, auto := none }
      ∧ (s.tens.zones[z].auto = none → t.tens.zones[z].l.zero = s.tens.zones[z].l.zero
        ∧ t.tens.zones[z].r.zero = s.tens.zones[z].r.zero)
      ∧ (∀ a, s.tens.zones[z].auto = some a →
        t.tens.zones[z].l.zero = a.savedL ∧ t.tens.zones[z].r.zero = a.savedR))
    ∧ t.tens.nip = s.tens.nip ∧ t.tens.heldFabric = s.tens.heldFabric
    ∧ t.tens.heldPaper = s.tens.heldPaper
    ∧ (∀ (z : Fin 4) (a : AutoZero), s.tens.zones[z].auto = some a →
        (∀ y : Fin 4, y ≠ z → s.tens.zones[y].auto = none) → s.ord.orders = [] → s.reg.home = none →
        1 ≤ a.ticket → a.ticket ≤ 256 → Memory.wf s.mem = true →
        TicketShows a.ticket .aborted 0 s t ∧ AutoResult a.ticket a.savedL a.savedR 6 0 t)
    ∧ (∀ k : Fin 8, t.heat.zones[k].state = .off ∧ t.heat.zones[k].heater = false)
    ∧ t.heat.base = s.heat.base ∧ t.heat.offsets = s.heat.offsets ∧ t.heat.scan = s.heat.scan
    ∧ t.heat.kp = s.heat.kp ∧ t.heat.ki = s.heat.ki
    ∧ t.line.heat = false ∧ t.line.jog = .still ∧ t.line.auth = .remote
    ∧ t.line.lockedAt = none ∧ t.line.speedClass = s.line.speedClass
    ∧ t.line.classLock = s.line.classLock ∧ t.line.fabric = s.line.fabric
    ∧ t.line.marks = s.line.marks
    ∧ (∀ a, latched t a = conditionActive t a)
    ∧ (∀ a, conditionActive t a = (conditionActive s a
        && decide (a ∈ [Alarm.estop, .driveFault, .driveLinkLost, .wrapTimeout, .zoneLost,
          .loadCellLost])))
    ∧ t.line.state = (if haltCauseLatched t = true then .halt else .cold)
    ∧ t.host.startStatus = s.host.startStatus ∧ t.host.mask = s.host.mask
    ∧ t.host.clock = s.host.clock ∧ LogAndTicketsOnly s t
    ∧ (∀ o, s.ord.orders = [o] → 1 ≤ o.ticket → o.ticket ≤ 256 → o.copies.length ≤ 8 →
        Memory.wf s.mem = true → TicketShows o.ticket .cancelled 0 s t)

/-! ## Properties every step keeps -/

/-- Exchange memory keeps its canonical form. -/
def Obligations.StepKeepsMemoryCanonical : Prop :=
  ∀ s t : State, Memory.wf s.mem = true → step s = .next t → Memory.wf t.mem = true

/-- The tables, lists and queues stay within their capacities and the wrap keeps its 30 consecutive
cells (R39, R53, R59, R77, R96, R114); panel numbers stay in 1..65535 and unique among live records
(R59); and the copies that orders, print order entries and panel records name are numbered 1 to 8 (R56,
R58, R60, R67). -/
def Obligations.StepKeepsTablesWithinBounds : Prop :=
  (∀ s t : State, WithinCapacity s → step s = .next t → WithinCapacity t)
  ∧ (∀ s t : State, NumbersUnique s → step s = .next t → NumbersUnique t)
  ∧ (∀ s t : State, CopyLaw s → step s = .next t → CopyLaw t)

/-- With the heat enable off every drum zone is OFF, and a zone that is OFF, CUT or LOST has power 0
and its heater off (R2, R103, R112). Dose trims, the phase roller, the zone regulators and the tension
regulators stay in range (R30, R86, R87, R100, R133). -/
def Obligations.StepKeepsHeatersAndRanges : Prop :=
  (∀ s t : State, HeatersSafe s → step s = .next t → HeatersSafe t)
  ∧ (∀ s t : State, WithinRange s → step s = .next t → WithinRange t)

/-- The speed law (R41, R118, R125, R128, R129, R166). -/
def Obligations.StepKeepsSpeedLaw : Prop :=
  ∀ s t : State, SpeedLaw s → step s = .next t → SpeedLaw t

/-- The ticket law (R166, R169 to R174); the chain law: the open chain holds no slot twice and only
slots 1 to 256, and never the slot that the walker is to examine (R169, R171, R176); and an auto-zero
runs only in COLD, or in THREAD with the jog state NONE, since every change of line state and every jog
that leaves NONE ends it (R146, R148). -/
def Obligations.StepKeepsTicketLaw : Prop :=
  (∀ s t : State, TicketLaw s → step s = .next t → TicketLaw t)
  ∧ (∀ s t : State, TicketLaw s → ChainLaw s → step s = .next t → ChainLaw t)
  ∧ (∀ s t : State, AutoZeroLaw s → step s = .next t → AutoZeroLaw t)

/-- A slot's in-use count equals the print order entries and panel records that name it, and a slot
with a count above 0 is VALID: every step keeps it so; PROFILE_OPEN and PROFILE_CLEAR refuse a slot
whose count is above 0, and QUEUE_PANELS one that is not VALID; and the host fields of a slot in use do
not change (R32). -/
def Obligations.SlotsInUse : Prop :=
  (∀ s t : State, InUseExact s → step s = .next t → InUseExact t)
  ∧ (∀ s : State, TakesKind s 0x21 → bodyByte s (look s) 0x20 ≤ 15 → s.lib.lock = false →
      s.lib.slots[slotField s (look s)].state = .valid →
      0 < s.lib.slots[slotField s (look s)].inUse →
      Refused .inUse (natWord s.lib.slots[slotField s (look s)].inUse) .profileOpen s)
  ∧ (∀ s : State, TakesKind s 0x22 → bodyByte s (look s) 0x20 ≤ 15 → s.lib.lock = false →
      0 < s.lib.slots[slotField s (look s)].inUse →
      Refused .inUse (natWord s.lib.slots[slotField s (look s)].inUse) .profileClear s)
  ∧ (∀ s : State, TakesKind s 0x40 → firstFailure (orderChecks s (look s)) = none →
      s.lib.slots[slotField s (look s)].state ≠ .valid → Refused .profile 0 .queuePanels s)
  ∧ (∀ (s t : State) (c : Instr) (i : Fin 16) (k : Nat), InUseExact s → exec c s = .next t →
      c ≠ .powerOnReset → 0 < s.lib.slots[i].inUse → k < 512 →
      Memory.get t.mem (profileBase i + k) = Memory.get s.mem (profileBase i + k))
  ∧ (∀ (s t : State) (c : Instr) (i : Fin 16), InUseExact s → exec c s = .next t →
      slotUses s i = 0 → 0 < slotUses t i → c = .queuePanels ∨ c = .walkerExamine)

/-! ## START, the registers and the memory port -/

/-- START (R166): ignored once accepted; a configuration with a field out of range is answered
BAD_FIELD with the first such index; a good one starts the walker at the chain start. WALKER_RESTART,
NUDGE and CHAIN_LOOK (R172, R174): a walker stalled with SEQUENCE runs again with the same slot, one
stalled on a link moves on afresh, one that waits on a slot becomes RUNNING with that slot to examine,
one that waits on a link moves on afresh, and any other is left alone; the chain look acts only after
START and with a look code above 0. The examination itself, which R172 and R174 name with the change to
RUNNING, is a command of its own (`WalkerExamine`): that split is the model's (log 2). -/
def Obligations.StartRestartAndLooks : Prop :=
  (∀ s : State,
    (started s = true → exec .start s = .next { s with sent := [] })
    ∧ (∀ i, started s = false → firstFailure (configChecks s) = some i →
      exec .start s = .next { s with sent := [], host := { s.host with
        startStatus := .badField i, causes := s.host.causes ||| 0x20 } })
    ∧ (started s = false → firstFailure (configChecks s) = none →
      exec .start s = .next { s with
        sent := [],
        host := { s.host with startStatus := .ok, causes := s.host.causes ||| 0x20 },
        walker := { s.walker with
          state := .running, look := chainStart s, expected := firstSequence s } }))
  ∧ (∀ s : State,
    (s.walker.state ≠ .stalled → exec .walkerRestart s = .next { s with sent := [] })
    ∧ (s.walker.state = .stalled → s.walker.stall = .sequence →
      exec .walkerRestart s = .next { s with
        sent := [], walker := { s.walker with state := .running, stall := .none } })
    ∧ (∀ f, s.walker.state = .stalled → s.walker.stall ≠ .sequence → s.walker.fromTicket = some f →
      Memory.wf s.mem = true →
      ∃ t, exec .walkerRestart s = .next t ∧ MovedOn f s t ∧ HostKept s t
        ∧ (t.walker.state ≠ .stalled → t.walker.stall = .none)
        ∧ ChangesOnly ticketParts s t ∧ BytesKept (nextNoticeBytes s) s t)
    ∧ (∀ v, s.walker.state ≠ .waiting → exec (.nudge v) s = .next { s with sent := [] })
    ∧ (∀ v, s.walker.state = .waiting → s.walker.wait = .slot →
      exec (.nudge v) s = .next { s with
        sent := [], walker := { s.walker with state := .running } })
    ∧ (∀ v f, s.walker.state = .waiting → s.walker.wait = .link → s.walker.fromTicket = some f →
      Memory.wf s.mem = true →
      ∃ t, exec (.nudge v) s = .next t ∧ MovedOn f s t ∧ HostKept s t
        ∧ ChangesOnly ticketParts s t ∧ BytesKept (nextNoticeBytes s) s t)
    ∧ (∀ v, exec .chainLook s =
      if started s = true ∧ lookCode s ≠ 0 then exec (.nudge v) s else .next { s with sent := [] }))

/-- A write of ATTN clears every cause whose bit is 1 and leaves the others; a write of ATTN_MASK sets
the six mask bits; neither changes anything else, and the attention line is asserted exactly while a
cause is set and unmasked (R182). Clearing GUARD re-arms the capture; a raise taken before the write is
cleared by it, one taken after sets the cause again, and for GUARD the first order leaves the captured
address in place and the second the cause set. -/
def Obligations.AttentionRegisters : Prop :=
  ∀ s : State,
    (∀ bits : Word, exec (.attnClear bits) s = .next { s with
        sent := [], host := { s.host with causes := s.host.causes &&& ~~~(bits.setWidth 6) } })
    ∧ (∀ (bits : Word) (t : State), exec (.attnClear bits) s = .next t →
      ∀ c : Cause, causeSet t c = (causeSet s c && !bits.getLsbD c.bit))
    ∧ (∀ bits : Word, exec (.attnMaskWrite bits) s = .next { s with
        sent := [], host := { s.host with mask := bits.setWidth 6 } })
    ∧ AttentionFollows s
    ∧ (∀ (bits : Word) (a : Nat), bits.getLsbD 3 = true →
      (dropWrite a (clearCauses bits s)).host.guardAddress = natWord a
      ∧ causeSet (dropWrite a (clearCauses bits s)) .guard = true
      ∧ causeSet (clearCauses bits (dropWrite a s)) .guard = false
      ∧ (clearCauses bits (dropWrite a s)).host.guardAddress = (dropWrite a s).host.guardAddress)
    ∧ (∀ (bits : Word) (c : Cause), bits.getLsbD c.bit = true →
      causeSet (clearCauses bits (raiseCause c s)) c = false
      ∧ causeSet (raiseCause c (clearCauses bits s)) c = true)

/-- A HOST_WRITE to exchange memory (R163, R177). One the guard serves stores exactly its enabled
bytes, and nothing else changes; of the anchor word at 0x028 and the header words at 0x04 and 0x08 of a
ticket slot the low half alone is stored, since 10.6 names no byte above it (log 20). One to a guarded
word leaves exchange memory unchanged; the first is captured with the GUARD cause, and later ones
change nothing until the cause is cleared. -/
def Obligations.HostWriteToMemory : Prop :=
  (∀ (s : State) (a : Nat) (data : Word) (en : BitVec 4),
    a < 0x15000 → a % 4 = 0 → guarded s a = false → Memory.wf s.mem = true →
    ∃ t, exec (.hostWrite (BitVec.ofNat 32 a) data en) s = .next t
      ∧ (∀ k, k < 4 → Memory.get t.mem (a + k) =
          if en.getLsbD k = true ∧ storedByte a k = true then wordByte data k
          else Memory.get s.mem (a + k))
      ∧ (∀ k, k < 4 → (storedByte a k = false ↔
          2 ≤ k ∧ (a = 0x028 ∨ (0x5000 ≤ a ∧ (a % 256 = 0x04 ∨ a % 256 = 0x08)))))
      ∧ BytesKept (fun x => a ≤ x ∧ x < a + 4) s t ∧ ChangesOnly [.mem, .sent] s t ∧ t.sent = [])
  ∧ (∀ (s : State) (a : Nat) (data : Word) (en : BitVec 4),
    a < 0x15000 → a % 4 = 0 → guarded s a = true →
    exec (.hostWrite (BitVec.ofNat 32 a) data en) s =
      if s.host.causes.getLsbD 3 = true then .next { s with sent := [] }
      else .next { s with sent := [], host := { s.host with
        guardAddress := BitVec.ofNat 32 a, causes := s.host.causes ||| 0x08 } })

/-- Which words of exchange memory the guard keeps from the host (R22, R165, R166, R177): the
part-written anchor fields always and the configuration from the accepted START on, the line picture
and the notice log, the part-owned profile fields and every word of a VALID slot, and every word of a
taken, unretired ticket but the next link of the ticket the walker waits or stalls on. -/
def Obligations.GuardedWords : Prop :=
  ∀ (s : State) (a : Nat), a < 0x15000 → a % 4 = 0 →
    (guarded s a = true ↔
      (a < 0x010) ∨ (0x010 ≤ a ∧ a < 0x02C ∧ started s = true)
      ∨ (0x02C ≤ a ∧ a < 0x400 ∧ a ≠ 0x080) ∨ (0x400 ≤ a ∧ a < 0x3000)
      ∨ (∃ (i : Fin 16) (k : Nat), a = 0x3000 + 512 * i.val + k ∧ k < 512
          ∧ (s.lib.slots[i].state = .valid ∨ 0x1F0 ≤ k))
      ∨ (∃ n k, a = 0x5000 + 256 * n + k ∧ k < 256 ∧ n < 256
          ∧ (∃ e ∈ s.walker.chain, e.slot = n + 1)
          ∧ ¬ (k = 4 ∧ s.walker.fromTicket = some (n + 1)
            ∧ ((s.walker.state = .waiting ∧ s.walker.wait = .link)
              ∨ (s.walker.state = .stalled
                ∧ (s.walker.stall = .linkRange ∨ s.walker.stall = .linkTaken))))))

/-- A write to a register is the command its register stands for: any write of NUDGE, a write of ATTN
or of ATTN_MASK, and a LINE_CTRL write whose set bits are requests, carried out in the order START,
RESET_LINE, WALKER_RESTART (R164, R172). A write to the unmapped span or from 0x18010 on is ignored and
not captured (R163). That the lowest byte must be enabled for LINE_CTRL, ATTN and ATTN_MASK, and that a
write of NUDGE acts with any enables, is the model's choice (log 32). -/
def Obligations.RegisterWrites : Prop :=
  ∀ (s : State) (data : Word) (en : BitVec 4),
    exec (.hostWrite 0x18004 data en) s = exec (.nudge data) s
    ∧ (en.getLsbD 0 = true → exec (.hostWrite 0x18008 data en) s = exec (.attnClear data) s)
    ∧ (en.getLsbD 0 = true → exec (.hostWrite 0x1800C data en) s = exec (.attnMaskWrite data) s)
    ∧ (en.getLsbD 0 = true → data.extractLsb' 0 3 = 1 →
        exec (.hostWrite 0x18000 data en) s = exec .start s)
    ∧ (en.getLsbD 0 = true → data.extractLsb' 0 3 = 2 →
        exec (.hostWrite 0x18000 data en) s = exec .resetLine s)
    ∧ (en.getLsbD 0 = true → data.extractLsb' 0 3 = 4 →
        exec (.hostWrite 0x18000 data en) s = exec .walkerRestart s)
    ∧ (en.getLsbD 0 = true → data.extractLsb' 0 3 = 3 →
        exec (.hostWrite 0x18000 data en) s = answer (fun s => lineReset (startPart s)) s)
    ∧ (en.getLsbD 0 = true → data.extractLsb' 0 3 = 5 →
        exec (.hostWrite 0x18000 data en) s = answer (fun s => restartWalker (startPart s)) s)
    ∧ (en.getLsbD 0 = true → data.extractLsb' 0 3 = 6 →
        exec (.hostWrite 0x18000 data en) s = answer (fun s => restartWalker (lineReset s)) s)
    ∧ (en.getLsbD 0 = true → data.extractLsb' 0 3 = 7 →
        exec (.hostWrite 0x18000 data en) s =
          answer (fun s => restartWalker (lineReset (startPart s))) s)
    ∧ (en.getLsbD 0 = true → data.extractLsb' 0 3 = 0 →
        exec (.hostWrite 0x18000 data en) s = .next { s with sent := [] })
    ∧ (∀ o : Word, en.getLsbD 0 = false → 0x18000 ≤ o.toNat → o.toNat < 0x18010 →
        o.toNat / 4 ≠ 0x6001 → exec (.hostWrite o data en) s = .next { s with sent := [] })
    ∧ (∀ o : Word, ignoredOffset o = true → wordAligned o = true →
        exec (.registerWriteIgnored o data en) s = .next { s with sent := [] }
        ∧ exec (.hostWrite o data en) s = .next { s with sent := [] })

/-- What a host read returns (R31, R163 to R165, R182, places of 10.6): 0 at LINE_CTRL and NUDGE and at
the unmapped offsets, the causes and the mask at ATTN and ATTN_MASK, the identification and the
part-written fields of the anchor and the part-owned fields of a profile slot from the blocks that hold
them, and every other word of exchange memory byte by byte as it was last written. -/
def Obligations.HostReads : Prop :=
  ∀ s : State,
    hostRead s 0x18000 = 0 ∧ hostRead s 0x18004 = 0
    ∧ hostRead s 0x18008 = s.host.causes.setWidth 32 ∧ hostRead s 0x1800C = s.host.mask.setWidth 32
    ∧ (∀ o : Word, (0x15000 ≤ o.toNat ∧ o.toNat < 0x18000) ∨ 0x18010 ≤ o.toNat → hostRead s o = 0)
    ∧ hostRead s 0x000 = 0x32100C4D ∧ hostRead s 0x004 = 1
    ∧ (hostRead s 0x040).extractLsb' 0 16 = BitVec.ofNat 16 s.host.startStatus.code
    ∧ (hostRead s 0x040).extractLsb' 16 16 = BitVec.ofNat 16 s.host.startStatus.index
    ∧ (hostRead s 0x044).extractLsb' 0 8 = natByte s.walker.state.code
    ∧ (hostRead s 0x044).extractLsb' 8 8 = natByte s.walker.stall.code
    ∧ (hostRead s 0x044).extractLsb' 16 16 = BitVec.ofNat 16 s.walker.outstanding
    ∧ (hostRead s 0x048).extractLsb' 0 16 = BitVec.ofNat 16 s.walker.look
    ∧ (hostRead s 0x048).extractLsb' 16 16 = s.walker.expected
    ∧ (hostRead s 0x04C).extractLsb' 0 16 = BitVec.ofNat 16 s.walker.retireSlot
    ∧ (hostRead s 0x04C).extractLsb' 16 16 = s.walker.retireSeq
    ∧ hostRead s 0x050 = s.host.written ∧ hostRead s 0x054 = s.host.guardAddress
    ∧ hostRead s 0x058 = s.host.clock
    ∧ (∀ (i : Fin 16) (a : Nat), a = 0x3000 + 512 * i.val →
      (hostRead s (BitVec.ofNat 32 (a + 0x1F0))).extractLsb' 0 16
        = BitVec.ofNat 16 s.lib.slots[i].state.code
      ∧ (hostRead s (BitVec.ofNat 32 (a + 0x1F0))).extractLsb' 16 16
        = BitVec.ofNat 16 s.lib.slots[i].inUse
      ∧ (hostRead s (BitVec.ofNat 32 (a + 0x1F4))).extractLsb' 0 16
        = BitVec.ofInt 16 s.lib.slots[i].trim
      ∧ (hostRead s (BitVec.ofNat 32 (a + 0x1F4))).extractLsb' 16 16 = s.lib.slots[i].commits
      ∧ hostRead s (BitVec.ofNat 32 (a + 0x1F8)) = 0 ∧ hostRead s (BitVec.ofNat 32 (a + 0x1FC)) = 0)
    ∧ (∀ a k, a < 0x15000 → a % 4 = 0 → a ∉ [0x000, 0x004, 0x040, 0x044, 0x048, 0x04C, 0x050, 0x054,
        0x058] → ¬ (0x3000 ≤ a ∧ a < 0x5000 ∧ 0x1F0 ≤ a % 512) → k < 4 →
      (hostRead s (BitVec.ofNat 32 a)).extractLsb' (8 * k) 8 = Memory.get s.mem (a + k))

/-! ## The walker -/

/-- One examination (R170, R171, R174): a walker that is not RUNNING does nothing, one whose slot is
not READY waits for it, one that finds another sequence stalls with SEQUENCE and its notice. One that
takes a ticket is the take of that kind's row, the rows' kinds being the codes of 10.6, and of BAD_KIND
for every other kind. A ticket row changes nothing where the walker would not take a ticket of its kind
(the model's choice, log 2). NOP finishes OK with detail 0, and a kind the part does not know is
refused with BAD_KIND; either way the walker is FULL at the ticket limit and else moves on (R170, R171,
R173, R175). -/
def Obligations.WalkerExamine : Prop :=
  ((∀ s : State,
    (s.walker.state ≠ .running → exec .walkerExamine s = .next { s with sent := [] })
    ∧ (s.walker.state = .running → handOf s (look s) ≠ 1 →
      exec .walkerExamine s = .next { s with
        sent := [], walker := { s.walker with state := .waiting, wait := .slot } })
    ∧ (s.walker.state = .running → handOf s (look s) = 1 → Memory.wf s.mem = true →
      sequenceOf s (look s) ≠ s.walker.expected →
      ∃ t, exec .walkerExamine s = .next t
        ∧ StalledWith .sequence (s.walker.fromTicket.getD 0)
            ((sequenceOf s (look s)).setWidth 32) s t
        ∧ t.walker = { s.walker with state := .stalled, stall := .sequence }
        ∧ HostKept s t ∧ BytesKept (nextNoticeBytes s) s t ∧ ChangesOnly ticketParts s t
        ∧ t.sent = []))
  ∧ (∀ s : State, takesNow s = true →
    (∀ k c, (k, c) ∈ ticketRows → (kindOf s (look s)).toNat = k →
      exec .walkerExamine s = exec c s)
    ∧ ((∀ k c, (k, c) ∈ ticketRows → (kindOf s (look s)).toNat ≠ k) →
      exec .walkerExamine s = exec .badKind s))
  ∧ (∀ (s : State) (k : Nat) (c : Instr), (k, c) ∈ ticketRows →
    ¬ (takesNow s = true ∧ (kindOf s (look s)).toNat = k) → exec c s = .next { s with sent := [] }))
  ∧ (∀ s : State,
    (TakesKind s 0x01 → Accepted .ok 0 [] .nop s fun t => t.sent = [])
    ∧ (∀ k, TakesKind s k → k ∉ ticketRows.map (·.1) → Refused .badKind 0 .badKind s))

/-- The retire mark passes every finished and followed ticket at the head of the open chain and stops
before the first that is not both (R176): so `retire` does, no step leaves such a ticket at the head,
and after any command but power-on reset the open chain is the one before, with the ticket that the
command took at its tail, less the slots that the mark has passed: each of these shows a finish, and its
next link was followed before the command or is followed by it, and the mark is the last of them with
its sequence, or stands as before where it has passed none. Only tickets that a command finishes, or
whose next link it follows, let the mark move (R171, R173, R175, R176). -/
def Obligations.RetireMarkAdvances : Prop :=
  (∀ (s : State) (pre rest : List ChainEntry),
    s.walker.chain = pre ++ rest →
    (∀ e ∈ pre, e.followed = true ∧ finished s e.slot) →
    (∀ e, rest.head? = some e → ¬ (e.followed = true ∧ finished s e.slot)) →
    (retire s).walker.chain = rest
    ∧ (∀ e, pre.getLast? = some e →
      (retire s).walker.retireSlot = e.slot ∧ (retire s).walker.retireSeq = sequenceOf s e.slot)
    ∧ (pre = [] → (retire s).walker = s.walker) ∧ ChangesOnly [.walker] s (retire s))
  ∧ (∀ s t : State, RetireLaw s → ChainLaw s → TicketLaw s → CopyLaw s → Memory.wf s.mem = true →
    step s = .next t → RetireLaw t)
  ∧ (∀ (c : Instr) (s t : State), ChainLaw s → TicketLaw s → CopyLaw s → Memory.wf s.mem = true →
    c ≠ .powerOnReset → exec c s = .next t → MarkPassed s t)

/-! ## Tickets of the heat unit and the scanner -/

/-- HEAT_TUNE, HEAT_SETPOINT and SCAN_LIST (R99, R101, R102): each is refused with the index of its
first field out of range; else the gains, or the base and all eight offsets, or the shadow list are
written, and nothing else of the heat unit and the scanner changes. -/
def Obligations.HeatAndScanTickets : Prop :=
  (∀ s : State, TakesKind s 0x61 →
    (255 < bodyHalf s (look s) 0x20 → Refused .badField 1 .heatTune s)
    ∧ (bodyHalf s (look s) 0x20 ≤ 255 → 255 < bodyHalf s (look s) 0x22 →
      Refused .badField 2 .heatTune s)
    ∧ (bodyHalf s (look s) 0x20 ≤ 255 → bodyHalf s (look s) 0x22 ≤ 255 →
      Accepted .ok 0 [.heat] .heatTune s fun t => t.sent = [] ∧
        t.heat = { s.heat with kp := bodyHalf s (look s) 0x20, ki := bodyHalf s (look s) 0x22 }))
  ∧ (∀ s : State, TakesKind s 0x60 →
    ((bodyHalf s (look s) 0x20 < 1000 ∨ 2400 < bodyHalf s (look s) 0x20) →
      Refused .badField 1 .heatSetpoint s)
    ∧ (∀ k : Fin 8, 1000 ≤ bodyHalf s (look s) 0x20 → bodyHalf s (look s) 0x20 ≤ 2400 →
      (∀ j : Fin 8, j < k →
        -50 ≤ bodyInt s (look s) (0x22 + 2 * j.val) ∧ bodyInt s (look s) (0x22 + 2 * j.val) ≤ 50) →
      (bodyInt s (look s) (0x22 + 2 * k.val) < -50 ∨ 50 < bodyInt s (look s) (0x22 + 2 * k.val)) →
      Refused .badField (natWord (1 + k.val + 1)) .heatSetpoint s)
    ∧ (1000 ≤ bodyHalf s (look s) 0x20 → bodyHalf s (look s) 0x20 ≤ 2400 →
      (∀ j : Fin 8,
        -50 ≤ bodyInt s (look s) (0x22 + 2 * j.val) ∧ bodyInt s (look s) (0x22 + 2 * j.val) ≤ 50) →
      Accepted .ok (natWord (bodyHalf s (look s) 0x20)) [.heat] .heatSetpoint s fun t => t.sent = [] ∧
        t.heat = { s.heat with
          base := bodyHalf s (look s) 0x20,
          offsets := Vector.ofFn fun k => bodyInt s (look s) (0x22 + 2 * k.val) }))
  ∧ (∀ s : State, TakesKind s 0x62 →
    ((bodyByte s (look s) 0x20 = 0 ∨ 16 < bodyByte s (look s) 0x20) →
      Refused .badField 1 .scanList s)
    ∧ (∀ i, 1 ≤ i → i ≤ bodyByte s (look s) 0x20 → bodyByte s (look s) 0x20 ≤ 16 →
      (∀ j, 1 ≤ j → j < i → bodyByte s (look s) (0x20 + j) ≤ 9) →
      9 < bodyByte s (look s) (0x20 + i) → Refused .badField (natWord (1 + i)) .scanList s)
    ∧ (1 ≤ bodyByte s (look s) 0x20 → bodyByte s (look s) 0x20 ≤ 16 →
      (∀ j, 1 ≤ j → j ≤ bodyByte s (look s) 0x20 → bodyByte s (look s) (0x20 + j) ≤ 9) →
      Accepted .ok (if s.heat.shadow.isSome = true then 1 else 0) [.heat] .scanList s fun t =>
        t.sent = [] ∧ ∃ l : List (Fin 10),
          l.map (·.val) = (List.range (bodyByte s (look s) 0x20)).map (fun j =>
            bodyByte s (look s) (0x21 + j))
          ∧ t.heat = { s.heat with shadow := some l }))

/-! ## Tickets of the profile library -/

/-- TRIM_RESET (R162): refused for a slot above 15; else the slot's dose trim becomes 0, its state,
in-use count and commit count stay, every other slot stays, and the detail holds the old trim. -/
def Obligations.TrimReset : Prop :=
  ∀ s : State, TakesKind s 0x80 →
    (15 < bodyByte s (look s) 0x20 → Refused .badField 0 .trimReset s)
    ∧ (∀ i : Fin 16, bodyByte s (look s) 0x20 = i.val →
      Accepted .ok (intWord s.lib.slots[i].trim) [.lib] .trimReset s fun t => t.sent = [] ∧
        t.lib = s.lib.withSlot i { s.lib.slots[i] with trim := 0 }
        ∧ dEff t i = limit (dMin s i) (dMax s i) (dTarget s i)
        ∧ t.host.written = s.host.written + (if t.walker.state = .stalled then 1 else 0))

/-- PROFILE_COMMIT, PROFILE_OPEN, PROFILE_CLEAR and LIBRARY_LOCK (R24, R27 to R29): the refusals in
order; else the slot goes to VALID with trim 0 and one commit more, from VALID to EDIT with trim and
commit count kept, or from any state to EMPTY with trim 0, or the lock is set with detail 1 if it was
clear; no other slot changes. -/
def Obligations.ProfileSlotTickets : Prop :=
  (∀ s : State, TakesKind s 0x20 →
    (15 < bodyByte s (look s) 0x20 → Refused .badField 0 .profileCommit s)
    ∧ (∀ i : Fin 16, bodyByte s (look s) 0x20 = i.val →
      (s.lib.lock = true → Refused .locked 0 .profileCommit s)
      ∧ (s.lib.lock = false → s.lib.slots[i].state = .valid → Refused .state 0 .profileCommit s)
      ∧ (∀ f, s.lib.lock = false → s.lib.slots[i].state ≠ .valid →
        firstFailure (profileChecks s i) = some f → Refused .badField (natWord f) .profileCommit s)
      ∧ (s.lib.lock = false → s.lib.slots[i].state ≠ .valid →
        firstFailure (profileChecks s i) = none →
        Accepted .ok ((s.lib.slots[i].commits + 1).setWidth 32) [.lib] .profileCommit s fun t =>
          t.sent = [] ∧ t.lib.lock = s.lib.lock
          ∧ t.lib.slots[i] = { s.lib.slots[i] with
              state := .valid, trim := 0, commits := s.lib.slots[i].commits + 1 }
          ∧ (∀ j : Fin 16, j ≠ i → t.lib.slots[j] = s.lib.slots[j]))))
  ∧ ((∀ s : State, TakesKind s 0x21 →
    (15 < bodyByte s (look s) 0x20 → Refused .badField 0 .profileOpen s)
    ∧ (∀ i : Fin 16, bodyByte s (look s) 0x20 = i.val →
      (s.lib.lock = true → Refused .locked 0 .profileOpen s)
      ∧ (s.lib.lock = false → s.lib.slots[i].state ≠ .valid → Refused .state 0 .profileOpen s)
      ∧ (s.lib.lock = false → s.lib.slots[i].state = .valid → 0 < s.lib.slots[i].inUse →
        Refused .inUse (natWord s.lib.slots[i].inUse) .profileOpen s)
      ∧ (s.lib.lock = false → s.lib.slots[i].state = .valid → s.lib.slots[i].inUse = 0 →
        Accepted .ok 0 [.lib] .profileOpen s fun t =>
          t.sent = [] ∧ t.lib = s.lib.withSlot i { s.lib.slots[i] with state := .edit })))
  ∧ (∀ s : State, TakesKind s 0x22 →
    (15 < bodyByte s (look s) 0x20 → Refused .badField 0 .profileClear s)
    ∧ (∀ i : Fin 16, bodyByte s (look s) 0x20 = i.val →
      (s.lib.lock = true → Refused .locked 0 .profileClear s)
      ∧ (s.lib.lock = false → 0 < s.lib.slots[i].inUse →
        Refused .inUse (natWord s.lib.slots[i].inUse) .profileClear s)
      ∧ (s.lib.lock = false → s.lib.slots[i].inUse = 0 →
        Accepted .ok 0 [.lib] .profileClear s fun t =>
          t.sent = [] ∧ t.lib = s.lib.withSlot i { s.lib.slots[i] with state := .empty, trim := 0 })))
  ∧ (∀ s : State, TakesKind s 0x23 →
    Accepted .ok (if s.lib.lock = true then 0 else 1) [.lib] .libraryLock s fun t => t.sent = [] ∧
      t.lib = { s.lib with lock := true }))

/-- Validation of a profile (R25): it passes exactly when every host field of a present part has an
accepted value and the relations hold; the index reported is the lowest whose field is not accepted,
with the field of each index as the table of 2.2 names it (`FieldRefused`): that is the later field of a
relation, and none of an absent part (R23). -/
def Obligations.ProfileValidation : Prop :=
  ∀ (s : State) (i : Fin 16),
    (firstFailure (profileChecks s i) = none ↔
      (∀ k, k < 16 → 32 ≤ (nameByte s i k).toNat ∧ (nameByte s i k).toNat ≤ 126)
      ∧ (1 ≤ fabricClass s i ∧ fabricClass s i ≤ 255)
      ∧ (∀ k, k < 8 → 1000 ≤ knotT s i k ∧ knotT s i k ≤ 2500 ∧ knotR s i k ≤ 1000)
      ∧ (∀ k, k < 7 → knotT s i k < knotT s i (k + 1) ∧ knotR s i k ≤ knotR s i (k + 1))
      ∧ 1 ≤ dMin s i ∧ dMin s i ≤ dTarget s i ∧ dTarget s i ≤ dMax s i ∧ dMax s i ≤ 60000
      ∧ (1000 ≤ tScorch s i ∧ tScorch s i ≤ 2500) ∧ (20 ≤ maxSpeed s i ∧ maxSpeed s i ≤ 400)
      ∧ (∀ z : Fin 4, setpoint s i z ≤ 40000)
      ∧ (∀ at_, at_ = 0x044 ∨ at_ = 0x04C → prof s i at_ = 0 ∨ (prof s i at_ = 1
          ∧ prof s i (at_ + 2) ≤ 500 ∧ 50 ≤ prof s i (at_ + 4)
          ∧ prof s i (at_ + 4) < prof s i (at_ + 6) ∧ prof s i (at_ + 6) ≤ 1500))
      ∧ (5 ≤ regTolerance s i ∧ regTolerance s i ≤ 200)
      ∧ (prof s i 0x056 = 0 ∨ (prof s i 0x056 = 1
          ∧ (∀ c, c < 4 → expected s i c ≤ 3000 ∧ 1 ≤ tolerance s i c ∧ tolerance s i c ≤ 500)
          ∧ prof s i 0x068 ≤ 1)))
    ∧ (∀ f, firstFailure (profileChecks s i) = some f ↔
      FieldRefused s i f ∧ ∀ g, g < f → ¬ FieldRefused s i g)

/-- D_eff (R36): for a validated profile and a trim in −100..+100 it is floor(D_target × (1000 + trim)
/ 1000) limited to D_min..D_max, the product at most 66,000,000; it lies in D_min..D_max and is at
least 1; the governor's cap is the quotient by it; a higher trim gives no lower D_eff and no higher
cap; and no verdict depends on the trim. -/
def Obligations.EffectiveDoseTarget : Prop :=
  ∀ (s : State) (i : Fin 16), firstFailure (profileChecks s i) = none →
    -100 ≤ s.lib.slots[i].trim → s.lib.slots[i].trim ≤ 100 →
    dEff s i = max (dMin s i : Int) (min (dMax s i : Int)
      (((dTarget s i : Int) * (1000 + s.lib.slots[i].trim)).fdiv 1000))
    ∧ (dTarget s i : Int) * (1000 + s.lib.slots[i].trim) ≤ 66000000
    ∧ (dMin s i : Int) ≤ dEff s i ∧ dEff s i ≤ (dMax s i : Int) ∧ 1 ≤ dEff s i
    ∧ (∀ p : Panel, p.profile = i →
      capOf s p = 30000 * rateOf s p / (dEff s i).toNat)
    ∧ (∀ higher : Int, s.lib.slots[i].trim ≤ higher → higher ≤ 100 →
      dEff s i ≤ dEff (setTrim i higher s) i
      ∧ (∀ p : Panel, p.profile = i → capOf (setTrim i higher s) p ≤ capOf s p)
      ∧ (∀ p : Panel, verdictOf (setTrim i higher s) p = verdictOf s p))

/-! ## Tickets of the trigger unit -/

/-- TRIGGER_SET (R49): the refusals in order, then the channel is written and starts or not: IDLE with
start flag 0, else ARMED for DELAYED_ONE_SHOT and COUNTING from the reload count for the other modes;
the detail holds its state (codes: log 14). A start under a reverse jog ends the jog (R16). The channel
counts from the present value of its counter: its field `ahead`, the model's own, is clear (DESIGN
CHOICE, log 10). -/
def Obligations.TriggerSet : Prop :=
  ∀ s : State, TakesKind s 0x30 →
    (11 < bodyByte s (look s) 0x20 → Refused .badField 1 .triggerSet s)
    ∧ (bodyByte s (look s) 0x20 ≤ 1 → Refused .locked 0 .triggerSet s)
    ∧ (∀ c : Fin 12, bodyByte s (look s) 0x20 = c.val → 2 ≤ c.val →
      (1 < bodyByte s (look s) 0x21 → Refused .badField 2 .triggerSet s)
      ∧ (bodyByte s (look s) 0x21 ≤ 1 → 2 < bodyByte s (look s) 0x22 →
        Refused .badField 3 .triggerSet s)
      ∧ (bodyByte s (look s) 0x21 ≤ 1 → bodyByte s (look s) 0x22 ≤ 2 →
        bodyHalf s (look s) 0x24 = 0 → Refused .badField 4 .triggerSet s)
      ∧ (bodyByte s (look s) 0x21 ≤ 1 → bodyByte s (look s) 0x22 ≤ 2 →
        bodyHalf s (look s) 0x24 ≠ 0 →
        (4 < bodyByte s (look s) 0x26
          ∨ (bodyByte s (look s) 0x22 = 1 ∧ bodyByte s (look s) 0x26 = 0)
          ∨ (bodyByte s (look s) 0x22 = 0 ∧ bodyByte s (look s) 0x26 ≠ 0)) →
        Refused .badField 5 .triggerSet s)
      ∧ (∀ src m a, sourceOf (bodyByte s (look s) 0x21) = some src →
        modeOf (bodyByte s (look s) 0x22) = some m → bodyHalf s (look s) 0x24 ≠ 0 →
        armOf (bodyByte s (look s) 0x26) = some a →
        ¬ (m = .delayedOneShot ∧ a = .unarmed) → ¬ (m = .oneShot ∧ a ≠ .unarmed) →
        (1 < bodyByte s (look s) 0x27 → Refused .badField 6 .triggerSet s)
        ∧ (bodyByte s (look s) 0x27 = 0 → Accepted .ok 0 [.trig] .triggerSet s fun t => t.sent = [] ∧
          t.trig = s.trig.withChannel c
            { s.trig.channels[c] with source := src, mode := m, reload := bodyHalf s (look s) 0x24,
                                      arm := a, state := .idle, remaining := 0,
                                      ahead := false })
        ∧ (bodyByte s (look s) 0x27 = 1 → m = .delayedOneShot →
          Accepted .ok 1 [.trig] .triggerSet s fun t => t.sent = [] ∧
          t.trig = s.trig.withChannel c
            { s.trig.channels[c] with source := src, mode := m, reload := bodyHalf s (look s) 0x24,
                                      arm := a, state := .armed, remaining := 0,
                                      ahead := false })
        ∧ (bodyByte s (look s) 0x27 = 1 → m ≠ .delayedOneShot →
          s.line.jog ≠ .rev ∨ s.trig.channels[c].state = .counting →
          Accepted .ok 2 [.trig] .triggerSet s fun t => t.sent = [] ∧
          t.trig = s.trig.withChannel c
            { s.trig.channels[c] with source := src, mode := m, reload := bodyHalf s (look s) 0x24,
                                      arm := a, state := .counting,
                                      remaining := bodyHalf s (look s) 0x24,
                                      ahead := false })
        ∧ (bodyByte s (look s) 0x27 = 1 → m ≠ .delayedOneShot →
          s.line.jog = .rev → s.trig.channels[c].state ≠ .counting →
          Accepted .ok 2 [.trig, .line, .dose] .triggerSet s fun t =>
            t.line = { s.line with jog := .still, lockedAt := some s.host.clock }
            ∧ t.dose = { s.dose with sCmd := if s.line.state = .thread then 0 else s.dose.sCmd }
            ∧ t.trig = s.trig.withChannel c
              { s.trig.channels[c] with source := src, mode := m, reload := bodyHalf s (look s) 0x24,
                                        arm := a, state := .counting,
                                        remaining := bodyHalf s (look s) 0x24,
                                        ahead := false })))

/-- TRIGGER_GROUP and TRIGGER_CORRECT (R50, R51): the refusals in order; a group fire starts or reloads
exactly the channels of the set with arm source GROUP_FIRE that R48 moves, and reports how many; a
correction moves the remaining count of a COUNTING channel, limited to 0..65535 (the state code in the
detail of a refusal is the model's, log 14). A channel so started, and one corrected to 0, has the
model's field `ahead` clear, so that it counts, or fires at, its next forward step (DESIGN CHOICE, log
10). OUTPUT_SET (R55): the refusals in order; a protected latch
ignores the ticket with detail 1; LEVEL sets a DIRECT latch and is refused with STATE on one that
follows a channel; CONFIGURE writes the latch with level 0 and no pulse. After an accepted or ignored
OUTPUT_SET the result area holds the eight levels. -/
def Obligations.TriggerGroupCorrectAndOutputs : Prop :=
  ((∀ s : State, TakesKind s 0x31 →
    ((ticketHalf s (look s) 0x20).extractLsb' 0 12 = 0 → Refused .badField 0 .triggerGroup s)
    ∧ ((ticketHalf s (look s) 0x20).extractLsb' 0 2 ≠ 0 → Refused .locked 0 .triggerGroup s)
    ∧ ((ticketHalf s (look s) 0x20).extractLsb' 0 12 ≠ 0 →
      (ticketHalf s (look s) 0x20).extractLsb' 0 2 = 0 →
      ∃ hit : Fin 12 → Bool,
        (∀ c, hit c = ((ticketHalf s (look s) 0x20).getLsbD c.val
          && s.trig.channels[c].arm == .groupFire
          && (s.trig.channels[c].state == .armed || (s.trig.channels[c].state == .counting
            && s.trig.channels[c].mode == .repeating))))
        ∧ Accepted .ok (natWord (allChannels.filter hit).length) [.trig, .line, .dose]
          .triggerGroup s fun t =>
            t.trig.latches = s.trig.latches ∧ t.trig.cuts = s.trig.cuts
            ∧ (∀ c : Fin 12, t.trig.channels[c] = if hit c = true then
                { s.trig.channels[c] with
                  state := .counting, remaining := s.trig.channels[c].reload, ahead := false }
              else s.trig.channels[c])
            ∧ (s.line.jog = .rev ∧ (∃ c, hit c = true ∧ s.trig.channels[c].state = .armed) →
              t.line = { s.line with jog := .still, lockedAt := some s.host.clock })
            ∧ (s.line.jog ≠ .rev ∨ (∀ c, hit c = true → s.trig.channels[c].state ≠ .armed) →
              t.line = s.line ∧ t.dose = s.dose ∧ t.sent = [])))
  ∧ (∀ s : State, TakesKind s 0x32 →
    (11 < bodyByte s (look s) 0x20 → Refused .badField 1 .triggerCorrect s)
    ∧ (bodyByte s (look s) 0x20 ≤ 1 → Refused .locked 0 .triggerCorrect s)
    ∧ (∀ c : Fin 12, bodyByte s (look s) 0x20 = c.val → 2 ≤ c.val →
      ((correctionOf s (look s) < -65535 ∨ 65535 < correctionOf s (look s)) →
        Refused .badField 2 .triggerCorrect s)
      ∧ (-65535 ≤ correctionOf s (look s) → correctionOf s (look s) ≤ 65535 →
        (s.trig.channels[c].state ≠ .counting →
          Refused .state (natWord s.trig.channels[c].state.code) .triggerCorrect s)
        ∧ (∀ r : Nat, s.trig.channels[c].state = .counting →
          (r : Int) = max 0 (min 65535 (s.trig.channels[c].remaining + correctionOf s (look s))) →
          Accepted .ok (natWord r) [.trig] .triggerCorrect s fun t => t.sent = [] ∧
            t.trig = s.trig.withChannel c
              { s.trig.channels[c] with
                remaining := r, ahead := s.trig.channels[c].ahead && decide (r ≠ 0) })))))
  ∧ (∀ s : State, TakesKind s 0x33 →
    ((7 < bodyByte s (look s) 0x20 ∨ 1 < bodyByte s (look s) 0x21) →
      Refused .badField 1 .outputSet s)
    ∧ (∀ i : Fin 8, bodyByte s (look s) 0x20 = i.val →
      (bodyByte s (look s) 0x21 = 0 → 1 < bodyByte s (look s) 0x22 →
        Refused .badField 2 .outputSet s)
      ∧ (bodyByte s (look s) 0x21 = 1 →
        ((12 ≤ bodyByte s (look s) 0x23 ∧ bodyByte s (look s) 0x23 ≠ 255)
          ∨ bodyHalf s (look s) 0x26 = 0 ∨ 1000 < bodyHalf s (look s) 0x26
          ∨ 1 < bodyByte s (look s) 0x24) → Refused .badField 2 .outputSet s)
      ∧ (bodyByte s (look s) 0x21 = 0 → bodyByte s (look s) 0x22 ≤ 1 →
        s.trig.latches[i].protect = false → s.trig.latches[i].source ≠ none →
        Refused .state 0 .outputSet s)
      ∧ (∀ (l : Latch) (d : Word) (inRange : Prop),
        (inRange ↔ (bodyByte s (look s) 0x23 < 12 ∨ bodyByte s (look s) 0x23 = 255)
          ∧ 1 ≤ bodyHalf s (look s) 0x26 ∧ bodyHalf s (look s) 0x26 ≤ 1000
          ∧ bodyByte s (look s) 0x24 ≤ 1) →
        (s.trig.latches[i].protect = true ∧ d = 1 ∧ l = s.trig.latches[i]
          ∧ ((bodyByte s (look s) 0x21 = 0 ∧ bodyByte s (look s) 0x22 ≤ 1)
            ∨ (bodyByte s (look s) 0x21 = 1 ∧ inRange)))
        ∨ (s.trig.latches[i].protect = false ∧ d = 0 ∧ bodyByte s (look s) 0x21 = 0
          ∧ bodyByte s (look s) 0x22 ≤ 1 ∧ s.trig.latches[i].source = none
          ∧ l = { s.trig.latches[i] with level := decide (bodyByte s (look s) 0x22 = 1) })
        ∨ (s.trig.latches[i].protect = false ∧ d = 0 ∧ bodyByte s (look s) 0x21 = 1
          ∧ inRange
          ∧ l = { source := (latchSourceOf (bodyByte s (look s) 0x23)).getD none,
                  width := bodyHalf s (look s) 0x26,
                  protect := decide (bodyByte s (look s) 0x24 = 1), level := false,
                  pulseEnd := none }) →
        ∃ t, exec .outputSet s = .next t
          ∧ t.trig = s.trig.withLatch i l
          ∧ TicketShows (look s) .ok d s t ∧ TakeRecorded s t ∧ HostKept s t
          ∧ t.walker.outstanding = s.walker.outstanding ∧ WalkerWentOn s t
          ∧ (∀ j : Fin 8, ticketByte t (look s) (0x80 + j.val) = boolByte t.trig.latches[j].level)
          ∧ BytesKept (fun a => finishBytes (look s) a ∨ nextNoticeBytes s a
              ∨ (ticketBase (look s) + 0x80 ≤ a ∧ a < ticketBase (look s) + 0x88)) s t
          ∧ ChangesOnly [.mem, .walker, .host, .sent, .trig] s t ∧ t.sent = [])))

/-! ## Tickets of the tension unit -/

/-- TENSION_TUNE and TENSION_MIX (R144, R145): refused with the index of the first field not accepted,
a mode that uses a lost cell included; else the zone's gains, ramp step and cell gains, or its mix mode
with the skew count at 0 for a mode other than BOTH, are written and nothing else of the tension unit
changes. -/
def Obligations.TensionTuneAndMix : Prop :=
  (∀ s : State, TakesKind s 0x70 →
    (3 < bodyByte s (look s) 0x20 → Refused .badField 1 .tensionTune s)
    ∧ (∀ z : Fin 4, bodyByte s (look s) 0x20 = z.val →
      (255 < bodyHalf s (look s) 0x22 → Refused .badField 2 .tensionTune s)
      ∧ (bodyHalf s (look s) 0x22 ≤ 255 →
        (255 < bodyHalf s (look s) 0x24 → Refused .badField 3 .tensionTune s)
        ∧ (bodyHalf s (look s) 0x24 ≤ 255 →
          (bodyByte s (look s) 0x26 ∉ [1, 2, 4, 8] → Refused .badField 4 .tensionTune s)
          ∧ (bodyByte s (look s) 0x26 ∈ [1, 2, 4, 8] →
            ((bodyHalf s (look s) 0x28 = 0 ∨ 4096 < bodyHalf s (look s) 0x28) →
              Refused .badField 5 .tensionTune s)
            ∧ (1 ≤ bodyHalf s (look s) 0x28 → bodyHalf s (look s) 0x28 ≤ 4096 →
              ((bodyHalf s (look s) 0x2A = 0 ∨ 4096 < bodyHalf s (look s) 0x2A) →
                Refused .badField 6 .tensionTune s)
              ∧ (1 ≤ bodyHalf s (look s) 0x2A → bodyHalf s (look s) 0x2A ≤ 4096 →
                Accepted .ok (natWord z.val) [.tens] .tensionTune s fun t => t.sent = [] ∧
                  t.tens = s.tens.withZone z { s.tens.zones[z] with
                    kp := bodyHalf s (look s) 0x22, ki := bodyHalf s (look s) 0x24,
                    rampStep := bodyByte s (look s) 0x26,
                    l := { s.tens.zones[z].l with gain := bodyHalf s (look s) 0x28 },
                    r := { s.tens.zones[z].r with gain := bodyHalf s (look s) 0x2A } }))))))
  ∧ (∀ s : State, TakesKind s 0x71 →
    (3 < bodyByte s (look s) 0x20 → Refused .badField 1 .tensionMix s)
    ∧ (∀ z : Fin 4, bodyByte s (look s) 0x20 = z.val →
      (2 < bodyByte s (look s) 0x21 → Refused .badField 2 .tensionMix s)
      ∧ (∀ m, mixOf (bodyByte s (look s) 0x21) = some m →
        ((m ≠ .rightOnly ∧ s.tens.zones[z].l.lost = true)
          ∨ (m ≠ .leftOnly ∧ s.tens.zones[z].r.lost = true) → Refused .badField 2 .tensionMix s)
        ∧ ((m = .rightOnly ∨ s.tens.zones[z].l.lost = false) →
          (m = .leftOnly ∨ s.tens.zones[z].r.lost = false) →
          Accepted .ok (natWord (bodyByte s (look s) 0x21)) [.tens] .tensionMix s fun t =>
            t.sent = [] ∧
            t.tens = s.tens.withZone z { s.tens.zones[z] with
              mix := m,
              skewCount := if m = .both then s.tens.zones[z].skewCount else 0 })))))

/-- AUTO_ZERO (R146): the refusals in order; an accepted ticket stays TAKEN with the outstanding count
one higher, and the zone's record RUNNING with the fields of the body, both saved zeros, counts of 0 and
the start sign of the first cell. A change of line state by ESTOP_OPEN or a line key, and a jog key that
takes the jog out of NONE, end it: the record is IDLE, both zeros are the saved ones, and the ticket is
finished ABORTED with reason LINE_STATE or JOG (R148), the side byte of its result 0 (DESIGN CHOICE, log
33). -/
def Obligations.AutoZeroTaken : Prop :=
  (∀ s : State, TakesKind s 0x72 →
    (∀ f, firstFailure
        [ (1, decide (bodyByte s (look s) 0x20 ≤ 3)), (2, decide (bodyByte s (look s) 0x21 ≤ 2)),
          (3, [1, 2, 4, 8].contains (bodyByte s (look s) 0x22)),
          (4, decide (1 ≤ bodyByte s (look s) 0x23 ∧ bodyByte s (look s) 0x23 ≤ 4)),
          (5, decide (bodyByte s (look s) 0x24 ≤ 1)) ] = some f →
      Refused .badField (natWord f) .autoZero s)
    ∧ (∀ (z : Fin 4) (cells : List Side) (first : Side), bodyByte s (look s) 0x20 = z.val →
      bodyByte s (look s) 0x22 ∈ [1, 2, 4, 8] → 1 ≤ bodyByte s (look s) 0x23 →
      bodyByte s (look s) 0x23 ≤ 4 → bodyByte s (look s) 0x24 ≤ 1 →
      (bodyByte s (look s) 0x21, cells, first) ∈
        [(0, [Side.left], Side.left), (1, [.right], .right), (2, [.left, .right], .left)] →
      ((∃ sd ∈ cells, (s.tens.zones[z].cell sd).lost = true) → Refused .badField 2 .autoZero s)
      ∧ ((∀ sd ∈ cells, (s.tens.zones[z].cell sd).lost = false) →
        (¬ (s.line.state = .cold ∨ (s.line.state = .thread ∧ s.line.jog = .still)) →
          Refused .state 0 .autoZero s)
        ∧ ((s.line.state = .cold ∨ (s.line.state = .thread ∧ s.line.jog = .still)) →
          (s.tens.zones[z].auto.isSome = true → Refused .busy 0 .autoZero s)
          ∧ (s.tens.zones[z].auto = none → ∃ t, exec .autoZero s = .next t
            ∧ t.tens = s.tens.withZone z { s.tens.zones[z] with
                auto := some {
                  ticket := look s, step := bodyByte s (look s) 0x22,
                  pace := bodyByte s (look s) 0x23,
                  mode := if bodyByte s (look s) 0x24 = 0 then .cross else .meet,
                  cells := cells, work := first,
                  savedL := s.tens.zones[z].l.zero, savedR := s.tens.zones[z].r.zero,
                  steps := 0, paceCount := 0,
                  sign := (((s.tens.zones[z].cell first).raw : Int)
                    - (s.tens.zones[z].cell first).zero).sign,
                  total := 0 } }
            ∧ TakenLong s t ∧ ChangesOnly (.tens :: ticketParts) s t ∧ t.sent = []
            ∧ BytesKept (fun a => a = ticketBase (look s) ∨ nextNoticeBytes s a) s t)))))
  ∧ (∀ (s : State) (z : Fin 4) (a : AutoZero) (c : Instr) (reason : Byte),
    s.tens.zones[z].auto = some a → (∀ y : Fin 4, y ≠ z → s.tens.zones[y].auto = none) →
    AutoZeroLaw s → 1 ≤ a.ticket → a.ticket ≤ 256 → Memory.wf s.mem = true →
    c ∈ [Instr.estopOpen, .keyWarm, .keyCold, .keyThread, .keyJogFwd, .keyJogRev] →
    ∃ t, exec c s = .next t
      ∧ (t.line.state ≠ s.line.state ∧ reason = 4
          ∨ t.line.state = s.line.state ∧ s.line.jog = .still ∧ t.line.jog ≠ .still ∧ reason = 5 →
        t.tens.zones[z].auto = none ∧ t.tens.zones[z].l.zero = a.savedL
        ∧ t.tens.zones[z].r.zero = a.savedR ∧ TicketShows a.ticket .aborted 0 s t
        ∧ AutoResult a.ticket a.savedL a.savedR reason 0 t)
      ∧ (t.line.state = s.line.state → t.line.jog = s.line.jog → t.tens.zones[z].auto = some a))

/-! ## Tickets of the order unit -/

/-- QUEUE_PANELS (R56, R57): refused with the index of the first bad field, then with PROFILE, FABRIC
or NO_MARKS; else the ticket stays TAKEN, its record and a list entry join at the tail, the slot's
in-use count rises by one and the eight summaries are NONE. Where the print start conditions hold, a
print starts at once (R63; `PrintStart`); here they do not. -/
def Obligations.QueuePanels : Prop :=
  ∀ s : State, TakesKind s 0x40 →
    (∀ f, firstFailure
        [ (1, decide (bodyByte s (look s) 0x20 ≤ 15)),
          (2, decide (4000 ≤ bodyHalf s (look s) 0x22 ∧ bodyHalf s (look s) 0x22 ≤ 60000)),
          (3, decide (bodyHalf s (look s) 0x24 ≤ 3200)),
          (4, decide (bodyHalf s (look s) 0x26 ≤ 3200
            ∧ bodyHalf s (look s) 0x24 + 100 ≤ bodyHalf s (look s) 0x26)),
          (5, decide (1 ≤ bodyByte s (look s) 0x28 ∧ bodyByte s (look s) 0x28 ≤ 8)),
          (6, decide (bodyByte s (look s) 0x29 ≤ 1)), (7, decide (bodyByte s (look s) 0x2A ≤ 1)),
          (8, decide (bodyByte s (look s) 0x2B ≤ 1)) ] = some f →
      Refused .badField (natWord f) .queuePanels s)
    ∧ (∀ i : Fin 16, bodyByte s (look s) 0x20 = i.val →
      4000 ≤ bodyHalf s (look s) 0x22 → bodyHalf s (look s) 0x22 ≤ 60000 →
      bodyHalf s (look s) 0x24 + 100 ≤ bodyHalf s (look s) 0x26 →
      bodyHalf s (look s) 0x26 ≤ 3200 → 1 ≤ bodyByte s (look s) 0x28 →
      bodyByte s (look s) 0x28 ≤ 8 → bodyByte s (look s) 0x29 ≤ 1 →
      bodyByte s (look s) 0x2A ≤ 1 → bodyByte s (look s) 0x2B ≤ 1 →
      (s.lib.slots[i].state ≠ .valid → Refused .profile 0 .queuePanels s)
      ∧ (s.lib.slots[i].state = .valid → fabricClass s i ≠ s.line.fabric.toNat →
        Refused .fabric 0 .queuePanels s)
      ∧ (s.lib.slots[i].state = .valid → fabricClass s i = s.line.fabric.toNat →
        (bodyByte s (look s) 0x29 = 1 → s.line.marks = false → Refused .noMarks 0 .queuePanels s)
        ∧ ((bodyByte s (look s) 0x29 = 0 ∨ s.line.marks = true) → ¬ Startable s →
          ∃ t, exec .queuePanels s = .next t
            ∧ t.ord = { s.ord with
                orders := s.ord.orders ++ [{
                  ticket := look s, profile := i, length := bodyHalf s (look s) 0x22,
                  laneStart := bodyHalf s (look s) 0x24, laneEnd := bodyHalf s (look s) 0x26,
                  matched := decide (bodyByte s (look s) 0x29 = 1),
                  rejectMark := decide (bodyByte s (look s) 0x2A = 1),
                  cutLast := decide (bodyByte s (look s) 0x2B = 1),
                  tag := ticketWord s (look s) 0x2C,
                  copies := List.replicate (bodyByte s (look s) 0x28) ⟨.waiting, 0⟩,
                  cancel := false, rejects := 0 }],
                entries := s.ord.entries ++ [{
                  ticket := look s, profile := i, next := 1, retry := [] }] }
            ∧ t.lib = s.lib.withSlot i { s.lib.slots[i] with inUse := s.lib.slots[i].inUse + 1 }
            ∧ (∀ k, k < 128 → ticketByte t (look s) (0x80 + k) = 0)
            ∧ TakenLong s t ∧ t.sent = []
            ∧ ChangesOnly (.ord :: .lib :: ticketParts) s t
            ∧ BytesKept (fun a => a = ticketBase (look s) ∨ nextNoticeBytes s a
                ∨ (ticketBase (look s) + 0x80 ≤ a ∧ a < ticketBase (look s) + 0x100)) s t)))

/-- A print start (R60, R63, R64), by an ENGINE_STATE READY that finds the line in RUN, the wrap
CLOSED, room in the panel table and S past the print gap: the front entry's copy gets a record in
PRINTING at S with a number no live record holds, the counter moves past it, the copy's place is
PRINTED, PRINT_START is sent, and an entry with nothing left to print leaves (the record's profile is
its entry's: log 18). -/
def Obligations.PrintStart : Prop :=
  ∀ (s : State) (e : Entry) (rest : List Entry) (o : OpenOrder),
    s.line.state = .run → s.dose.wrap = .closed → s.ord.panels.length < 64 →
    (∀ m, s.ord.endMark = some m → 0 ≤ sdiff s.pos.s (m + 500)) →
    s.ord.entries = e :: rest → findOrder e.ticket s = some o → NumbersUnique s →
    ∃ t p, exec (.engineState .ready) s = .next t
      ∧ t.ord.engine = .ready ∧ t.ord.panels = s.ord.panels ++ [p]
      ∧ p.number ≠ 0 ∧ (∀ q ∈ s.ord.panels, q.number ≠ p.number)
      ∧ ((∀ q ∈ s.ord.panels, q.number ≠ s.ord.counter) → p.number = s.ord.counter)
      ∧ t.ord.counter = (if p.number = 65535 then 1 else p.number + 1)
      ∧ p.ticket = o.ticket ∧ p.copy = e.retry.headD e.next ∧ p.profile = e.profile
      ∧ p.length = o.length ∧ p.laneStart = o.laneStart ∧ p.laneEnd = o.laneEnd
      ∧ p.matched = o.matched ∧ p.rejectMark = o.rejectMark ∧ p.sLead = s.pos.s
      ∧ p.state = .printing ∧ p.travel = none
      ∧ p.retries = (o.copies[p.copy - 1]?.map (·.faults)).getD 0
      ∧ p.paperSplice = false ∧ p.finalVoid = false ∧ p.xp = none ∧ p.piece = none
      ∧ p.offset = 0 ∧ p.regError = none ∧ p.stretch = 0 ∧ p.markMissed = false
      ∧ p.phaseLimit = false ∧ p.fLead = none ∧ p.doseMin = 65535 ∧ p.doseMax = 0
      ∧ p.interrupted = false ∧ p.overheat = false ∧ p.fabricSplice = false
      ∧ p.readings = 0 ∧ p.sums = ⟨0, 0, 0, 0⟩ ∧ p.verdict = none
      ∧ t.ord.endMark = some (s.pos.s + BitVec.ofNat 32 o.length)
      ∧ t.ord.orders = s.ord.orders.map (fun q => if q.ticket = o.ticket then
          { q with copies := q.copies.modify (p.copy - 1) fun c => { c with place := .printed } }
        else q)
      ∧ t.ord.entries =
        (if e.retry = [] then
          (if o.copies.length < e.next + 1 then rest else { e with next := e.next + 1 } :: rest)
        else if e.retry.tail = [] ∧ o.copies.length < e.next then rest
        else { e with retry := e.retry.tail } :: rest)
      ∧ t.lib.slots[e.profile].inUse + (s.ord.entries.length - t.ord.entries.length)
        = s.lib.slots[e.profile].inUse + 1
      ∧ (∀ i : Fin 16, i ≠ e.profile → t.lib.slots[i] = s.lib.slots[i])
      ∧ Message.printStart p.number o.length o.laneStart o.laneEnd o.tag ∈ t.sent
      ∧ ChangesOnly [.line, .ord, .lib, .sent] s t

/-- CANCEL_PANELS (R73, R75): refused for a slot outside 1..256 and for one with no open order; else
the order's cancel flag is set, its entry leaves the list with the in-use count, its WAITING copies are
CANCELLED with their summaries and counted in the detail, and the order finishes at the same event if
no copy of it is PRINTED. Where the print start conditions hold, a print may follow (R63); here they do
not. -/
def Obligations.CancelPanels : Prop :=
  ∀ s : State, TakesKind s 0x41 →
    ((bodyHalf s (look s) 0x20 < 1 ∨ 256 < bodyHalf s (look s) 0x20) →
      Refused .badField 0 .cancelPanels s)
    ∧ (1 ≤ bodyHalf s (look s) 0x20 → bodyHalf s (look s) 0x20 ≤ 256 →
      findOrder (bodyHalf s (look s) 0x20) s = none → Refused .state 0 .cancelPanels s)
    ∧ (∀ (n : Nat) (o : OpenOrder), n = bodyHalf s (look s) 0x20 → 1 ≤ n → n ≤ 256 →
      findOrder n s = some o → n ≠ look s → o.copies.length ≤ 8 → ¬ Startable s →
      ∃ (t : State) (after : OpenOrder), exec .cancelPanels s = .next t
        ∧ after = { o with
            cancel := true,
            copies := o.copies.map fun c =>
              if c.place = .waiting then { c with place := .cancelled } else c }
        ∧ TicketShows (look s) .ok (natWord (o.copies.countP fun c => c.place == .waiting)) s t
        ∧ t.ord.entries = s.ord.entries.eraseP (fun e => e.ticket == n)
        ∧ (∀ i : Fin 16, t.lib.slots[i] = { s.lib.slots[i] with
            inUse := s.lib.slots[i].inUse - (match findEntry n s with
              | none => 0
              | some e => if e.profile = i then 1 else 0) })
        ∧ (∀ k, 1 ≤ k → k ≤ o.copies.length →
          (o.copies[k - 1]?.map (·.place)) = some CopyPlace.waiting →
          ticketByte t n (0x80 + 16 * (k - 1) + 2) = 3
          ∧ ticketHalf t n (0x80 + 16 * (k - 1)) = 0
          ∧ ticketHalf t n (0x80 + 16 * (k - 1) + 10) = 0x8000)
        ∧ ((∃ c ∈ o.copies, c.place = .printed) →
          t.ord.orders = s.ord.orders.map (fun q => if q.ticket = n then
            { q with cancel := true, copies := q.copies.map fun c =>
                if c.place = .waiting then { c with place := .cancelled } else c }
            else q)
          ∧ t.walker.outstanding = s.walker.outstanding)
        ∧ ((∀ c ∈ o.copies, c.place ≠ .printed) →
          (∀ q ∈ t.ord.orders, q.ticket ≠ n)
          ∧ t.walker.outstanding = s.walker.outstanding - 1
          ∧ TicketShows n (if after.copies.all (fun c => c.place == .settled) then .ok
              else if after.copies.all (fun c => c.place == .cancelled) then .cancelled
              else .partly) (natWord o.rejects) s t)
        ∧ TakeRecorded s t ∧ HostKept s t ∧ t.sent = []
        ∧ ChangesOnly (.ord :: .lib :: ticketParts) s t ∧ LogAndTicketsOnly s t)

/-! ## Tickets of the line mode controller and of the registration unit -/

/-- LINE_COMMAND (R10): the refusals in order, then OK with the line state as detail: no change where
the table says so, else the line enters COLD, RUN or HOLD. WARM is stated in `LineToWarm`. -/
def Obligations.LineCommand : Prop :=
  ∀ s : State, TakesKind s 0x10 →
    (bodyByte s (look s) 0x20 ∉ [0, 2, 4, 5] → Refused .badField 0 .lineCommand s)
    ∧ (∀ target, targetOf (bodyByte s (look s) 0x20) = some target →
      (s.line.auth = .localPendant ∨ s.line.auth = .localHeld →
        Refused .authority 0 .lineCommand s)
      ∧ (s.line.auth = .remote ∨ s.line.auth = .remoteLockout →
        ((s.line.state = .halt
          ∨ (target = .warm ∧ (s.line.state = .thread ∨ s.line.state = .run))
          ∨ (target = .run ∧ (s.line.state = .cold ∨ s.line.state = .thread ∨ s.line.state = .warm))
          ∨ (target = .run ∧ s.line.state = .ready ∧ s.reg.home.isSome = true)
          ∨ (target = .run ∧ s.line.state = .hold
            ∧ (s.reg.home.isSome = true ∨ holdCauseLatched s = true ∨ runHeatTest s = false))
          ∨ (target = .hold ∧ s.line.state ≠ .run ∧ s.line.state ≠ .hold)) →
          Refused .state 0 .lineCommand s)
        ∧ ((target = s.line.state ∨ (target = .warm ∧ s.line.state = .ready)) →
          Accepted .ok (natWord s.line.state.code) [] .lineCommand s fun t => t.sent = [])
        ∧ (((target = .cold ∧ s.line.state ≠ .cold ∧ s.line.state ≠ .halt)
            ∨ (target = .run ∧ s.line.state = .ready ∧ s.reg.home = none)
            ∨ (target = .run ∧ s.line.state = .hold ∧ holdCauseLatched s = false
              ∧ runHeatTest s = true ∧ s.reg.home = none)
            ∨ (target = .hold ∧ s.line.state = .run)) →
          ∃ t, exec .lineCommand s = .next t ∧ Entered target .command s t
            ∧ t.line.jog = (if target = .cold then .still else s.line.jog)
            ∧ TicketShows (look s) .ok (natWord target.code) s t ∧ TakeRecorded s t
            ∧ ChangesOnly lineParts s t ∧ LogAndTicketsOnly s t)))

/-- The line enters WARM (R2, R3, R10, R15, R16, R41): by LINE_COMMAND WARM or by the WARM key, from
COLD and from HOLD, and by the THREAD key that leaves THREAD for WARM. From HOLD the counters stay, no
latch changes and no condition begins. From COLD and THREAD U becomes S − 60000 − L_thread and so the
store level L_thread. With more than 1000.0 mm in the store no alarm is raised but, where the step of U
brings a panel under the roller, PHASE_LIMIT; STORE_LOW and STORE_EMPTY are not active, and the line is
tested for READY at once. With 1000.0 mm or less STORE_LOW is latched and the line stays in WARM; with
300.0 mm or less STORE_EMPTY takes it to HALT (R72; that STORE_LOW is raised before STORE_EMPTY is the
model's reading, DEDUCED, log 22). The detail of LINE_COMMAND is the line state after the readiness test
(the model's reading, log 27). -/
def Obligations.LineToWarm : Prop :=
  ∀ (s : State) (c : Instr),
    (c = .lineCommand ∧ TakesKind s 0x10 ∧ bodyByte s (look s) 0x20 = 2
        ∧ (s.line.auth = .remote ∨ s.line.auth = .remoteLockout))
    ∨ (c = .keyWarm ∧ started s = true ∧ (s.line.auth = .localPendant ∨ s.line.auth = .localHeld))
    ∨ (c = .keyThread ∧ s.line.state = .thread ∧ s.line.threadHeat = true ∧ started s = true
        ∧ (s.line.auth = .localPendant ∨ s.line.auth = .localHeld)) →
    (s.line.state = .hold → ∃ t, exec c s = .next t ∧ t.line.heat = true
      ∧ t.line.state = (if readyTest t = true then .ready else .warm) ∧ t.dose.sCmd = 20
      ∧ (∀ a, latched t a = latched s a) ∧ causeSet t .halt = causeSet s .halt
      ∧ (∀ a, conditionActive t a = true → conditionActive s a = true)
      ∧ (c = .lineCommand → TakeRecorded s t
        ∧ TicketShows (look s) .ok (natWord t.line.state.code) s t)
      ∧ ChangesOnly [.mem, .line, .dose, .tens, .walker, .host, .sent] s t ∧ LogAndTicketsOnly s t)
    ∧ (s.line.state = .cold ∨ c = .keyThread → 10000 < (lThread s).toInt → ∃ t, exec c s = .next t
      ∧ t.pos.u = s.pos.s - 60000 - lThread s ∧ t.pos.x = s.pos.x ∧ t.pos.s = s.pos.s
      ∧ t.pos.phase = s.pos.phase ∧ storeLevel t = (lThread s).toInt ∧ t.line.heat = true
      ∧ t.line.state = (if readyTest t = true then .ready else .warm) ∧ t.dose.sCmd = 20
      ∧ (∀ a, a ≠ .phaseLimit → latched t a = latched s a
        ∧ (conditionActive t a = true → conditionActive s a = true))
      ∧ (latched s .phaseLimit = true → latched t .phaseLimit = true)
      ∧ (s.ord.panels = [] → latched t .phaseLimit = latched s .phaseLimit)
      ∧ conditionActive t .storeLow = false ∧ conditionActive t .storeEmpty = false
      ∧ causeSet t .halt = causeSet s .halt
      ∧ (c = .lineCommand → TakeRecorded s t
        ∧ TicketShows (look s) .ok (natWord t.line.state.code) s t)
      ∧ ChangesOnly [.mem, .line, .pos, .ord, .reg, .dose, .tens, .walker, .host, .sent] s t
      ∧ LogAndTicketsOnly s t)
    ∧ (s.line.state = .cold ∨ c = .keyThread → (lThread s).toInt ≤ 10000 → ∃ t, exec c s = .next t
      ∧ t.pos.u = s.pos.s - 60000 - lThread s ∧ storeLevel t = (lThread s).toInt
      ∧ latched t .storeLow = true
      ∧ (3000 < (lThread s).toInt ∨ alarmRec s .storeEmpty = ⟨true, true⟩ →
        t.line.state = .warm ∧ t.line.heat = true ∧ t.dose.sCmd = 20
        ∧ conditionActive t .storeLow = true
        ∧ (3000 < (lThread s).toInt → conditionActive t .storeEmpty = false))
      ∧ ((lThread s).toInt ≤ 3000 → alarmRec s .storeEmpty ≠ ⟨true, true⟩ →
        t.line.state = .halt ∧ t.line.heat = false ∧ t.dose.sCmd = 0
        ∧ latched t .storeEmpty = true ∧ causeSet t .halt = true
        ∧ conditionActive t .storeLow = false ∧ conditionActive t .storeEmpty = false)
      ∧ (c = .lineCommand → TakeRecorded s t
        ∧ TicketShows (look s) .ok (natWord t.line.state.code) s t)
      ∧ LogAndTicketsOnly s t)

/-- AUTHORITY (R14): the table of operations and authorities; a change is noticed with source TICKET,
one from LOCAL to REMOTE ends the jog, and the line state never changes. SPEED_CLASS and FABRIC_LOADED
(R11, R12): the refusals in order; the class and, with a lock flag of 1, its lock are set and S_cmd is
limited to the new V_lim at once; the fabric class and marks flag are set. A marks byte other than 0
and 1 leaves the flag open (log 6). -/
def Obligations.AuthorityClassAndFabric : Prop :=
  (∀ s : State, TakesKind s 0x11 →
    (bodyByte s (look s) 0x20 ∉ [1, 2, 3] → Refused .badField 0 .authority s)
    ∧ (bodyByte s (look s) 0x20 ∈ [1, 2, 3] →
      (s.line.auth = .localHeld ∨ (s.line.auth = .localPendant ∧ bodyByte s (look s) 0x20 ≠ 3) →
        Refused .authority 0 .authority s)
      ∧ (∀ new, (s.line.auth, bodyByte s (look s) 0x20, new) ∈
          [ (Authority.remote, 1, Authority.remoteLockout), (.remoteLockout, 1, .remoteLockout),
            (.remote, 2, .remote), (.remoteLockout, 2, .remote), (.remote, 3, .remote),
            (.remoteLockout, 3, .remoteLockout), (.localPendant, 3, .remote) ] →
        (new = s.line.auth →
          Accepted .ok (natWord new.code) [] .authority s fun t => t.sent = [])
        ∧ (new ≠ s.line.auth → ∃ t, exec .authority s = .next t
          ∧ t.line = { s.line with
              auth := new, jog := if s.line.auth = .localPendant then .still else s.line.jog }
          ∧ t.dose = { s.dose with sCmd :=
              if s.line.auth = .localPendant ∧ s.line.state = .thread ∧ s.line.jog ≠ .still then 0
              else s.dose.sCmd }
          ∧ NoticeShown .authority s.line.state (natWord s.line.auth.code) (natWord new.code) 2 s t
          ∧ TicketShows (look s) .ok (natWord new.code) s t ∧ TakeRecorded s t ∧ HostKept s t
          ∧ t.walker.outstanding = s.walker.outstanding
          ∧ ChangesOnly (.line :: .dose :: ticketParts) s t ∧ LogAndTicketsOnly s t))))
  ∧ ((∀ s : State, TakesKind s 0x12 →
    (s.line.classLock = true → Refused .locked 0 .speedClass s)
    ∧ (s.line.classLock = false → 3 < bodyByte s (look s) 0x20 →
      Refused .badField 0 .speedClass s)
    ∧ (∀ k : Fin 4, s.line.classLock = false → bodyByte s (look s) 0x20 = k.val →
      Accepted .ok (natWord k.val) [.line, .dose] .speedClass s fun t =>
        t.line = { s.line with
          speedClass := k, classLock := decide (bodyByte s (look s) 0x21 = 1) }
        ∧ vLim t = vMax s * (8 - k.val) / 8
        ∧ t.dose = { s.dose with sCmd := min s.dose.sCmd (vMax s * (8 - k.val) / 8) }))
  ∧ (∀ s : State, TakesKind s 0x14 →
    (bodyByte s (look s) 0x20 = 0 → Refused .badField 0 .fabricLoaded s)
    ∧ (bodyByte s (look s) 0x20 ≠ 0 →
      (s.line.state = .run ∨ s.line.state = .hold ∨ s.line.state = .halt →
        Refused .state 0 .fabricLoaded s)
      ∧ (s.line.state = .cold ∨ s.line.state = .thread ∨ s.line.state = .warm
          ∨ s.line.state = .ready →
        Accepted .ok 0 [.line] .fabricLoaded s fun t => t.sent = [] ∧
          t.line = { s.line with
            fabric := ticketByte s (look s) 0x20, marks := t.line.marks }
          ∧ (bodyByte s (look s) 0x21 = 0 → t.line.marks = false)
          ∧ (bodyByte s (look s) 0x21 = 1 → t.line.marks = true)))))

/-- SECTION_CLEAR (R8): refused for an empty set; else exactly the latches of alarms in the named
sections that are not active are cleared, each with a notice, HALT is left for COLD when LINE is named
and no HALT cause stays latched, the readiness test follows (R3), the detail holds the line state and
the result area the alarms of the named sections still latched, in table order. That the test is made
once, at the end, and the detail taken after it, is the model's reading (log 27). -/
def Obligations.SectionClear : Prop :=
  ∀ s : State, TakesKind s 0x13 →
    (bodyByte s (look s) 0x20 = 0 → Refused .badField 0 .sectionClear s)
    ∧ (∀ named : Alarm → Bool, bodyByte s (look s) 0x20 ≠ 0 →
      (∀ a, named a = ((ticketByte s (look s) 0x20).getLsbD a.section_
        || (ticketByte s (look s) 0x20).getLsbD 7)) →
      ∃ t, exec .sectionClear s = .next t
        ∧ (∀ a, latched t a = (latched s a && (!named a || conditionActive s a)))
        ∧ t.line.state =
          (if s.line.state = .halt then
            (if named .estop = true ∧ haltCauseLatched t = false then .cold else .halt)
          else if s.line.state = .warm ∨ s.line.state = .ready then
            (if readyTest t = true then .ready else .warm)
          else s.line.state)
        ∧ TicketShows (look s) .ok (natWord t.line.state.code) s t ∧ TakeRecorded s t
        ∧ ticketByte t (look s) 0x80 =
          natByte (Alarm.all.filter fun a => named a && latched t a).length
        ∧ (∀ k a, (Alarm.all.filter fun a => named a && latched t a)[k]? = some a →
          ticketByte t (look s) (0x81 + k) = natByte a.number)
        ∧ t.host.written = s.host.written + natWord
          ((Alarm.all.filter fun a => latched s a && !latched t a).length
          + (if t.line.state ≠ s.line.state then 1 else 0)
          + (if t.walker.state = .stalled then 1 else 0))
        ∧ (s.line.state ≠ .halt → s.line.state ≠ .warm → s.line.state ≠ .ready →
          ChangesOnly (.line :: ticketParts) s t)
        ∧ LogAndTicketsOnly s t)

/-- PHASE_HOME (R92): refused with STATE in RUN and BUSY while one runs; else the roller target is 0
and PHASE_LIMIT ends; at position 0 the ticket finishes OK with the measured phase, else it stays TAKEN
as the home request. In WARM and READY the readiness test follows (R3). The forward DRUM_STEP that
brings the roller to 0 finishes a running one: OK with the measured phase, the outstanding count one
lower, the home request absent, and the target reviewed from the head of the list (R86); a FULL walker
then moves on (R173; before the mark passes the ticket, log 15), and no other walker does. A step that
leaves the roller short of 0 leaves the request. -/
def Obligations.PhaseHome : Prop :=
  (∀ s : State, TakesKind s 0x50 →
    (s.line.state = .run → Refused .state 0 .phaseHome s)
    ∧ (s.line.state ≠ .run → s.reg.home.isSome = true → Refused .busy 0 .phaseHome s)
    ∧ (s.line.state ≠ .run → s.reg.home = none → AutoZeroLaw s →
      ∃ t, exec .phaseHome s = .next t
        ∧ t.reg = { s.reg with
            target := 0, limited := false, home := if s.reg.position = 0 then none else some (look s) }
        ∧ conditionActive t .phaseLimit = false ∧ (∀ a, latched t a = latched s a)
        ∧ TakeRecorded s t
        ∧ (s.reg.position = 0 → TicketShows (look s) .ok s.reg.measured s t
          ∧ t.walker.outstanding = s.walker.outstanding)
        ∧ (s.reg.position ≠ 0 → handOf t (look s) = 2
          ∧ t.walker.outstanding = s.walker.outstanding + 1)
        ∧ t.line.state = (if s.line.state = .warm ∨ s.line.state = .ready then
            (if readyTest t = true then .ready else .warm) else s.line.state)
        ∧ (s.line.state ≠ .warm → s.line.state ≠ .ready →
          ChangesOnly (.line :: .reg :: ticketParts) s t ∧ WalkerWentOn s t)
        ∧ LogAndTicketsOnly s t))
  ∧ (∀ (s u : State) (n : Nat), s.reg.home = some n → s.reg.target = 0 → s.reg.position ≠ 0 →
    s.pos.phase = 999 → u = { s with pos := { s.pos with x := s.pos.x + 1 } } →
    (∀ p ∈ s.ord.panels, p.fLead = none ∧ ∀ xp, p.xp = some xp →
      sdiff u.pos.x
        (xp + 12000 + intWord (s.reg.position + max (-20) (min 20 (-s.reg.position)))) < 0) →
    AutoZeroLaw s → 1 ≤ n → n ≤ 256 → Memory.wf s.mem = true →
    ∃ t, exec (.drumStep .forward) s = .next t
      ∧ (20 < s.reg.position.natAbs → t.reg.home = some n ∧ t.reg.target = 0 ∧ handOf t n = handOf s n
        ∧ t.walker = s.walker)
      ∧ (s.reg.position.natAbs ≤ 20 → t.reg.position = 0 ∧ t.reg.home = none
        ∧ TicketShows n .ok s.reg.measured u t
        ∧ t.walker.outstanding = s.walker.outstanding - 1
        ∧ (∀ m p, s.reg.list.head? = some m → findPanel m s = some p →
          t.reg.target = (if p.piece.isSome = true then max (-600) (min 600 p.offset) else 0))
        ∧ (s.reg.list = [] → t.reg.target = 0)
        ∧ (s.walker.state ≠ .full → t.walker.state = s.walker.state ∧ t.walker.look = s.walker.look)
        ∧ (∀ f, s.walker.state = .full → s.walker.fromTicket = some f → s.reg.list = [] →
          s.reg.queue = [] → s.line.state ≠ .warm → s.line.state ≠ .ready → FullResumed f u t)))

/-! ## The pendant and the E-stop chain -/

/-- The authority keys, STOP and ALIVE (R13, R17, R18): every message makes the pendant PRESENT, one
from a SILENT pendant is answered with LAMPS, the table of R13 gives the authority or the LOCKED lamp,
a change writes its notice with source PENDANT, one to REMOTE ends the jog, and STOP takes RUN to HOLD
and THREAD to jog NONE, in every authority and before START. -/
def Obligations.PendantAuthorityAndStop : Prop :=
  ∀ s : State, Memory.wf s.mem = true →
    (∀ c locked new, (c, s.line.auth, locked, new) ∈
        [ (Instr.keyTake, Authority.remote, false, Authority.localPendant),
          (.keyTake, .remoteLockout, true, .remoteLockout),
          (.keyTake, .localPendant, false, .localPendant), (.keyTake, .localHeld, false, .localHeld),
          (.keyGive, .remote, false, .remote), (.keyGive, .remoteLockout, false, .remoteLockout),
          (.keyGive, .localPendant, false, .remote), (.keyGive, .localHeld, false, .remote),
          (.keyKeep, .remote, true, .remote), (.keyKeep, .remoteLockout, true, .remoteLockout),
          (.keyKeep, .localPendant, false, .localHeld), (.keyKeep, .localHeld, false, .localHeld),
          (.alive, s.line.auth, false, s.line.auth) ] →
      ∃ t, exec c s = .next t
        ∧ t.line = { (pendantMessage s).line with
            auth := new,
            lockedAt := if locked = true then some s.host.clock else s.line.lockedAt,
            jog := if c = .keyGive ∧ new ≠ s.line.auth then .still else s.line.jog }
        ∧ t.dose = { s.dose with sCmd :=
            if c = .keyGive ∧ new ≠ s.line.auth ∧ s.line.state = .thread ∧ s.line.jog ≠ .still
            then 0 else s.dose.sCmd }
        ∧ (new = s.line.auth → t.mem = s.mem ∧ t.host = s.host)
        ∧ (new ≠ s.line.auth →
          NoticeShown .authority s.line.state (natWord s.line.auth.code) (natWord new.code) 1 s t
          ∧ t.host.written = s.host.written + 1 ∧ HostKept s t
          ∧ BytesKept (nextNoticeBytes s) s t)
        ∧ (s.line.pendant = .silent → Message.lamps (lampSet t) ∈ t.sent)
        ∧ ChangesOnly [.mem, .line, .dose, .host, .sent] s t)
    ∧ (s.line.state = .run → ∃ t, exec .keyStop s = .next t
        ∧ Entered .hold .stopKey (pendantMessage s) t ∧ t.line.jog = s.line.jog
        ∧ ChangesOnly lineParts s t ∧ LogAndTicketsOnly s t)
    ∧ (s.line.state ≠ .run → ∃ t, exec .keyStop s = .next t
        ∧ t.line = { (pendantMessage s).line with
            jog := if s.line.state = .thread then .still else s.line.jog }
        ∧ t.dose = { s.dose with sCmd :=
            if s.line.state = .thread ∧ s.line.jog ≠ .still then 0 else s.dose.sCmd }
        ∧ (s.line.pendant = .silent → Message.lamps (lampSet t) ∈ t.sent)
        ∧ ChangesOnly [.line, .dose, .sent] s t)

/-- The RUN, HOLD, COLD and THREAD keys (R15, R16; WARM: `LineToWarm` and here its refusal; the THREAD
key that leaves THREAD for WARM: here, and with its alarms in `LineToWarm`): refused
with the LOCKED lamp under REMOTE and REMOTE_LOCKOUT, before START, and where the table of R10 refuses
the target; a target that changes nothing leaves the line; any other is entered. That the THREAD key
keeps the jog state when it leaves THREAD is the model's reading (log 36), and so is the one readiness
test at the end of an entry to WARM (log 27). The jog keys (R16, R129, R148): refused with the LOCKED
lamp outside THREAD, under REMOTE and REMOTE_LOCKOUT, against the other key's jog, and for JOG_REV
while a record, a piece, a splice or a COUNTING channel is there; else from NONE the jog starts, S_cmd
is 20 and running auto-zeros end; the key that holds the jog changes nothing. A key-up of it ends the
jog, and no other key-up does anything. -/
def Obligations.PendantLineAndJogKeys : Prop :=
  (∀ s : State, Memory.wf s.mem = true →
    (∀ c target, (c, target) ∈ [ (Instr.keyRun, LineState.run), (.keyHold, .hold), (.keyCold, .cold),
        (.keyWarm, .warm), (.keyThread, .thread) ] →
      (s.line.auth = .remote ∨ s.line.auth = .remoteLockout ∨ started s = false
        ∨ s.line.state = .halt
        ∨ (target = .warm ∧ (s.line.state = .thread ∨ s.line.state = .run))
        ∨ (target = .run ∧ (s.line.state = .cold ∨ s.line.state = .thread ∨ s.line.state = .warm))
        ∨ (target = .run ∧ s.line.state = .ready ∧ s.reg.home.isSome = true)
        ∨ (target = .run ∧ s.line.state = .hold
          ∧ (s.reg.home.isSome = true ∨ holdCauseLatched s = true ∨ runHeatTest s = false))
        ∨ (target = .hold ∧ s.line.state ≠ .run ∧ s.line.state ≠ .hold)
        ∨ (target = .thread ∧ (s.line.state = .run ∨ s.line.state = .hold))) →
      ∃ t, exec c s = .next t
        ∧ t.line = { (pendantMessage s).line with lockedAt := some s.host.clock }
        ∧ ChangesOnly [.line, .sent] s t)
    ∧ (started s = true → s.line.auth = .localPendant ∨ s.line.auth = .localHeld →
      (∀ c target, (c, target, s.line.state) ∈
          [ (Instr.keyRun, LineState.run, LineState.run), (.keyHold, .hold, .hold),
            (.keyCold, .cold, .cold), (.keyWarm, .warm, .warm), (.keyWarm, .warm, .ready) ] →
        ∃ t, exec c s = .next t ∧ t.line = (pendantMessage s).line ∧ ChangesOnly [.line, .sent] s t)
      ∧ (∀ c target, (c = .keyCold ∧ target = .cold ∧ s.line.state ≠ .cold ∧ s.line.state ≠ .halt)
          ∨ (c = .keyRun ∧ target = .run ∧ s.line.state = .ready ∧ s.reg.home = none)
          ∨ (c = .keyRun ∧ target = .run ∧ s.line.state = .hold ∧ holdCauseLatched s = false
            ∧ runHeatTest s = true ∧ s.reg.home = none)
          ∨ (c = .keyHold ∧ target = .hold ∧ s.line.state = .run)
          ∨ (c = .keyThread ∧ target = .thread ∧ (s.line.state = .cold ∨ s.line.state = .warm
            ∨ s.line.state = .ready))
          ∨ (c = .keyThread ∧ target = .cold ∧ s.line.state = .thread
            ∧ s.line.threadHeat = false) →
        ∃ t, exec c s = .next t ∧ Entered target .pendant (pendantMessage s) t
          ∧ t.line.jog = (if target = .thread ∨ c = .keyCold then .still else s.line.jog)
          ∧ ChangesOnly lineParts s t ∧ LogAndTicketsOnly s t)
      ∧ (s.line.state = .thread → s.line.threadHeat = true → 10000 < (lThread s).toInt →
        ∃ t, exec .keyThread s = .next t ∧ t.pos.u = s.pos.s - 60000 - lThread s
          ∧ storeLevel t = (lThread s).toInt ∧ t.line.heat = true ∧ t.dose.sCmd = 20
          ∧ t.line.state = (if readyTest t = true then .ready else .warm)
          ∧ ChangesOnly [.mem, .line, .pos, .ord, .reg, .dose, .tens, .walker, .host, .sent] s t
          ∧ LogAndTicketsOnly s t)))
  ∧ (∀ (s : State) (c : Instr) (j : Jog), (c = .keyJogFwd ∧ j = .fwd) ∨ (c = .keyJogRev ∧ j = .rev) →
    ((s.line.state ≠ .thread ∨ s.line.auth = .remote ∨ s.line.auth = .remoteLockout
        ∨ (s.line.jog ≠ .still ∧ s.line.jog ≠ j)
        ∨ (s.line.jog = .still ∧ j = .rev ∧ (s.ord.panels ≠ [] ∨ s.reg.queue ≠ []
          ∨ s.pos.splices ≠ [] ∨ ∃ k : Fin 12, s.trig.channels[k].state = .counting))) →
      ∃ t, exec c s = .next t
        ∧ t.line = { (pendantMessage s).line with lockedAt := some s.host.clock }
        ∧ ChangesOnly [.line, .sent] s t)
    ∧ (s.line.state = .thread → s.line.auth = .localPendant ∨ s.line.auth = .localHeld →
      (s.line.jog = j →
        ∃ t, exec c s = .next t ∧ t.line = (pendantMessage s).line ∧ ChangesOnly [.line, .sent] s t)
      ∧ (s.line.jog = .still → (j = .fwd ∨ (s.ord.panels = [] ∧ s.reg.queue = []
            ∧ s.pos.splices = [] ∧ ∀ k : Fin 12, s.trig.channels[k].state ≠ .counting)) →
        ∃ t, exec c s = .next t ∧ t.line = { (pendantMessage s).line with jog := j }
          ∧ t.dose = { s.dose with sCmd := 20 } ∧ (∀ z : Fin 4, t.tens.zones[z].auto = none)
          ∧ ChangesOnly [.mem, .line, .dose, .tens, .walker, .host, .sent] s t
          ∧ LogAndTicketsOnly s t)
      ∧ (∀ k, (k = .jogFwd ∧ s.line.jog = .fwd) ∨ (k = .jogRev ∧ s.line.jog = .rev) →
        ∃ t, exec (.keyUp k) s = .next t ∧ t.line = { (pendantMessage s).line with jog := .still }
          ∧ t.dose = { s.dose with sCmd := 0 } ∧ ChangesOnly [.line, .dose, .sent] s t))
    ∧ (∀ k, s.line.state ≠ .thread ∨ s.line.auth = .remote ∨ s.line.auth = .remoteLockout
        ∨ ¬ ((k = .jogFwd ∧ s.line.jog = .fwd) ∨ (k = .jogRev ∧ s.line.jog = .rev)) →
      ∃ t, exec (.keyUp k) s = .next t ∧ t.line = (pendantMessage s).line
        ∧ ChangesOnly [.line, .sent] s t))

/-- ESTOP_OPEN and ESTOP_CLOSE, and with them the alarm record and a HALT request (R5, R7, R17): a
raise of an alarm not latched and active latches it, with its notice, and takes the line to HALT from
every other state, with heat off, jog NONE, S_cmd 0 and the wrap opened; a repeated raise changes
nothing; the end keeps the latch and writes no notice. The details 0 and 0 of the notice, for which R17
names no value, are the model's (DESIGN CHOICE, log 49). -/
def Obligations.EstopChain : Prop :=
  ∀ s : State,
    (alarmRec s .estop = ⟨true, true⟩ → exec .estopOpen s =
      .next { s with sent := [], line := { s.line with chainOpen := true } })
    ∧ (alarmRec s .estop ≠ ⟨true, true⟩ → Memory.wf s.mem = true →
      ∃ t, exec .estopOpen s = .next t ∧ t.line.chainOpen = true
        ∧ alarmRec t .estop = ⟨true, true⟩ ∧ t.line.state = .halt
        ∧ (∀ a, a ≠ .estop → latched t a = latched s a)
        ∧ NoticeShown .alarmRaised s.line.state 1 0 0 s t
        ∧ (s.line.state = .halt → ChangesOnly [.mem, .line, .host, .sent] s t
          ∧ t.host.written = s.host.written + 1
          ∧ t.line = { s.line with chainOpen := true, alarms := t.line.alarms })
        ∧ (s.line.state ≠ .halt → t.line.heat = false ∧ t.line.jog = .still ∧ t.dose.sCmd = 0
          ∧ causeSet t .halt = true
          ∧ (s.line.heat = true → ∀ k : Fin 8,
            t.heat.zones[k].state = .off ∧ t.heat.zones[k].heater = false)
          ∧ t.dose.wrap = (if s.line.state = .run
              ∧ (s.dose.wrap = .closing ∨ s.dose.wrap = .closed) then .opening else s.dose.wrap)
          ∧ t.line.auth = s.line.auth ∧ t.line.fabric = s.line.fabric
          ∧ t.line.speedClass = s.line.speedClass ∧ t.ord.orders = s.ord.orders
          ∧ t.ord.entries = s.ord.entries ∧ t.ord.panels.length = s.ord.panels.length
          ∧ ChangesOnly lineParts s t)
        ∧ LogAndTicketsOnly s t)
    ∧ (∃ t, exec .estopClose s = .next t
        ∧ t.line = { s.line with chainOpen := false, alarms := t.line.alarms }
        ∧ alarmRec t .estop = ⟨latched s .estop, false⟩
        ∧ (∀ a, a ≠ .estop → alarmRec t a = alarmRec s a)
        ∧ ChangesOnly [.line] s { t with sent := s.sent } ∧ t.sent = [])

/-- The deadlines of the line clock: the LOCKED lamp, the silent pendant, the drive link's and the
wrap's watches, a latch's pulse and a heater's on-time (R18, R20, R54, R111, R120). Each acts when its
time has come, and does nothing before (the model's due-tests, log 21). -/
def Obligations.Deadlines : Prop :=
  ∀ s : State,
    ((∀ t0, s.line.lockedAt = some t0 → (s.host.clock - t0).toNat < 2000) →
      exec .lockedLampExpiry s = .next { s with sent := [] })
    ∧ (∀ t0, s.line.lockedAt = some t0 → 2000 ≤ (s.host.clock - t0).toNat →
      ∃ t, exec .lockedLampExpiry s = .next t ∧ t.line = { s.line with lockedAt := none }
        ∧ ChangesOnly [.line, .sent] s t)
    ∧ (s.line.pendant = .present → 500 ≤ (s.host.clock - s.line.pendantAt).toNat →
      ∃ t, exec .pendantSilent s = .next t
        ∧ t.line = { s.line with pendant := .silent, jog := .still }
        ∧ t.dose = { s.dose with sCmd :=
            if s.line.state = .thread ∧ s.line.jog ≠ .still then 0 else s.dose.sCmd }
        ∧ ChangesOnly [.line, .dose, .sent] s t)
    ∧ (s.line.pendant = .silent ∨ (s.host.clock - s.line.pendantAt).toNat < 500 →
      exec .pendantSilent s = .next { s with sent := [] })
    ∧ (∀ w, s.line.linkWatch = some w → 0 ≤ sdiff s.host.clock w →
      ∃ t, exec .driveLinkWatchExpiry s = .next t ∧ t.line.link = .lost ∧ t.line.linkWatch = none
        ∧ alarmRec t .driveLinkLost = ⟨true, true⟩ ∧ t.line.drive = s.line.drive
        ∧ (alarmRec s .driveLinkLost ≠ ⟨true, true⟩ → t.line.state = .halt)
        ∧ t.reg = s.reg ∧ ChangesOnly lineParts s t)
    ∧ ((∀ w, s.line.linkWatch = some w → sdiff s.host.clock w < 0) →
      exec .driveLinkWatchExpiry s = .next { s with sent := [] })
    ∧ (∀ d, s.dose.wrap = .closing ∨ s.dose.wrap = .opening → s.dose.watch = some d →
      0 ≤ sdiff s.host.clock d →
      ∃ t, exec .wrapTimeout s = .next t ∧ t.dose.watch.isSome = (decide (t.dose.wrap ≠ s.dose.wrap))
        ∧ alarmRec t .wrapTimeout = ⟨true, true⟩
        ∧ (alarmRec s .wrapTimeout ≠ ⟨true, true⟩ → t.line.state = .halt)
        ∧ ChangesOnly lineParts s t)
    ∧ (s.dose.wrap = .opened ∨ s.dose.wrap = .closed ∨ s.dose.watch = none
        ∨ (∃ d, s.dose.watch = some d ∧ sdiff s.host.clock d < 0) →
      exec .wrapTimeout s = .next { s with sent := [] })
    ∧ (∀ (l : Fin 8) (e : Word), s.trig.latches[l].pulseEnd = some e → 0 ≤ sdiff s.host.clock e →
      exec (.latchPulseEnd l) s = .next { s with
        sent := [],
        trig := s.trig.withLatch l { s.trig.latches[l] with level := false, pulseEnd := none } })
    ∧ (∀ l : Fin 8, (∀ e, s.trig.latches[l].pulseEnd = some e → sdiff s.host.clock e < 0) →
      exec (.latchPulseEnd l) s = .next { s with sent := [] })
    ∧ (∀ (k : Fin 8) (e : Word), s.heat.zones[k].heater = true → s.heat.zones[k].onEnd = some e →
      0 ≤ sdiff s.host.clock e →
      exec (.heaterOnEnd k) s = .next { s with
        sent := [],
        heat := { s.heat with
          zones := s.heat.zones.set k { s.heat.zones[k] with heater := false, onEnd := none } } })
    ∧ (∀ k : Fin 8, s.heat.zones[k].heater = false
        ∨ (∀ e, s.heat.zones[k].onEnd = some e → sdiff s.host.clock e < 0) →
      exec (.heaterOnEnd k) s = .next { s with sent := [] })

/-! ## The links -/

/-- The drive link (R19, R20, R71, R91, R119): the command frame carries the present value of each
message; a status frame restarts the watch, keeps the drive status and the measured phase, brings the
link UP, moves the wrap by its report, and holds or ends DRIVE_FAULT. A report other than CLOSED from a
CLOSED wrap closes it again, and marks the records that a cell names INTERRUPTED (R121). -/
def Obligations.DriveLink : Prop :=
  ∀ s : State,
    (∃ f, exec .commandFrame s = .next { s with sent := [.frame f] }
      ∧ f.speed = s.dose.sCmd ∧ f.wrap = s.dose.command ∧ f.phase = s.reg.position
      ∧ (f.reverse = true ↔ s.line.state = .thread ∧ s.line.jog = .rev)
      ∧ (∀ z : Fin 4, f.trims[z] = s.tens.zones[z].trim)
      ∧ f.printSpeed = min 400
        (if storeLevel s < 60000 then s.dose.sCmd * 12 / 10 else s.dose.sCmd))
    ∧ (∀ (w : WrapReport) (ph : Word) (d : DriveStatus),
      ∃ t, exec (.statusFrame w ph d) s = .next t
        ∧ t.line.linkWatch = some (s.host.clock + 50) ∧ t.line.drive = d ∧ t.line.link = .up
        ∧ t.reg = { s.reg with measured := ph }
        ∧ (s.line.link = .lost → conditionActive t .driveLinkLost = false)
        ∧ (d = .ok → conditionActive t .driveFault = false ∧ (∀ a, latched t a = latched s a)
          ∧ t.line.state = s.line.state ∧ t.mem = s.mem ∧ t.host = s.host
          ∧ t.dose.wrap =
            (if s.dose.wrap = .closing ∧ w = .closed then .closed
            else if s.dose.wrap = .opening ∧ w = .opened then .opened
            else if s.dose.wrap = .closed ∧ w ≠ .closed then .closing
            else s.dose.wrap)
          ∧ t.dose.watch =
            (if (s.dose.wrap = .closing ∧ w = .closed) ∨ (s.dose.wrap = .opening ∧ w = .opened)
              then none
            else if s.dose.wrap = .closed ∧ w ≠ .closed then some (s.host.clock + 5000)
            else s.dose.watch)
          ∧ t.dose.sCmd = (if s.dose.wrap = .closed ∧ w ≠ .closed then 20 else s.dose.sCmd)
          ∧ (s.dose.wrap = .closed → w ≠ .closed → InterruptedByWrap s t ∧ t.dose.command = .close
            ∧ Message.frame (frameOf t) ∈ t.sent)
          ∧ ((s.dose.wrap = .closing ∧ w = .closed) ∨ (s.dose.wrap = .opening ∧ w = .opened) →
            conditionActive t .wrapTimeout = false)
          ∧ ChangesOnly [.line, .reg, .dose, .ord, .lib, .sent] s t)
        ∧ (∀ code, d = .fault code → alarmRec t .driveFault = ⟨true, true⟩
          ∧ (alarmRec s .driveFault ≠ ⟨true, true⟩ → t.line.state = .halt)
          ∧ ChangesOnly (.reg :: lineParts) s t))

/-- The print link (R66, R67, R69): a PRINT_DONE for no live record, or for one not in PRINTING, is
ignored; OK takes the record to ON_PAPER; a FAULT takes it to VOID with travel stage PAPER, and its
copy goes back to be printed, or is CANCELLED after a cancel, or stays with the final void flag at its
third fault. ENGINE_STATE keeps the state, and READY ends PRINT_ENGINE_LOST. -/
def Obligations.PrintLink : Prop :=
  ∀ (s : State) (n : Half),
    (∀ r, (findPanel n s = none ∨ ∃ p, findPanel n s = some p ∧ p.state ≠ .printing) →
      exec (.printDone n r) s = .next { s with sent := [] })
    ∧ (∀ p, findPanel n s = some p → p.state = .printing →
      exec (.printDone n .ok) s = .next { s with
        sent := [],
        ord := { s.ord with panels := s.ord.panels.map fun q =>
          if q.number = n then { q with state := .onPaper } else q } })
    ∧ (∀ p o, findPanel n s = some p → p.state = .printing → findOrder p.ticket s = some o →
      ¬ Startable s →
      (o.cancel = false → (o.copies[p.copy - 1]?.map (·.faults)).getD 0 < 2 →
        ∃ t e, exec (.printDone n .fault) s = .next t
          ∧ t.ord = { s.ord with
              panels := s.ord.panels.map fun q =>
                if q.number = n then { q with state := .void, travel := some .paper } else q,
              orders := s.ord.orders.map fun q => if q.ticket = o.ticket then
                { q with copies := q.copies.modify (p.copy - 1) fun c =>
                    { c with place := .waiting, faults := c.faults + 1 } } else q,
              entries := e :: s.ord.entries.eraseP (fun q => q.ticket == o.ticket) }
          ∧ e.ticket = o.ticket
          ∧ (∀ e0, findEntry o.ticket s = some e0 → e = { e0 with retry := e0.retry ++ [p.copy] }
            ∧ t.lib = s.lib)
          ∧ (findEntry o.ticket s = none → e.retry = [p.copy] ∧ e.next = o.copies.length + 1
            ∧ e.profile = p.profile ∧ t.lib = s.lib.withSlot p.profile
              { s.lib.slots[p.profile] with inUse := s.lib.slots[p.profile].inUse + 1 })
          ∧ t.sent = [] ∧ ChangesOnly [.ord, .lib, .sent] s t)
      ∧ (o.cancel = false → 2 ≤ (o.copies[p.copy - 1]?.map (·.faults)).getD 0 →
        exec (.printDone n .fault) s = .next { s with
          sent := [],
          ord := { s.ord with
            panels := s.ord.panels.map fun q => if q.number = n then
              { q with state := .void, travel := some .paper, finalVoid := true } else q,
            orders := s.ord.orders.map fun q => if q.ticket = o.ticket then
              { q with copies := q.copies.modify (p.copy - 1) fun c => { c with faults := 3 } }
              else q } })
      ∧ (o.cancel = true → ∃ t, exec (.printDone n .fault) s = .next t
          ∧ t.ord.panels = s.ord.panels.map (fun q =>
            if q.number = n then { q with state := .void, travel := some .paper } else q)
          ∧ t.ord.entries = s.ord.entries
          ∧ ((∃ k c, o.copies[k]? = some c ∧ k ≠ p.copy - 1
              ∧ (c.place = .waiting ∨ c.place = .printed)) →
            t.ord.orders = s.ord.orders.map (fun q => if q.ticket = o.ticket then
              { q with copies := q.copies.modify (p.copy - 1) fun c =>
                  { c with place := .cancelled } } else q))
          ∧ ((∀ k c, o.copies[k]? = some c → k ≠ p.copy - 1 →
              c.place ≠ .waiting ∧ c.place ≠ .printed) →
            (∀ q ∈ t.ord.orders, q.ticket ≠ o.ticket) ∧ causeSet t .ticket = true)
          ∧ (Memory.wf s.mem = true → 1 ≤ o.ticket → o.ticket ≤ 256 → 1 ≤ p.copy → p.copy ≤ 8 →
            ticketByte t o.ticket (0x80 + 16 * (p.copy - 1) + 2) = 3)
          ∧ ChangesOnly [.mem, .ord, .walker, .host, .sent] s t ∧ LogAndTicketsOnly s t))
    ∧ (∀ v : EngineState, s.line.state ≠ .warm → s.line.state ≠ .ready →
      (v = .busy ∨ s.ord.entries = [] ∨ ¬ Startable { s with ord := { s.ord with engine := .ready } }) →
      ∃ t, exec (.engineState v) s = .next t ∧ t.ord = { s.ord with engine := v }
        ∧ (v = .busy → t.line = s.line)
        ∧ (v = .ready → conditionActive t .printEngineLost = false
          ∧ t.line = { s.line with alarms := t.line.alarms } ∧ ∀ a, latched t a = latched s a)
        ∧ t.sent = [] ∧ ChangesOnly [.ord, .line, .sent] s t)
    ∧ (∀ v : EngineState, s.line.state = .warm ∨ s.line.state = .ready →
      ∃ t, exec (.engineState v) s = .next t ∧ t.ord.engine = v
        ∧ t.line.state = (if readyTest t = true then .ready else .warm)
        ∧ (∀ a, latched t a = latched s a) ∧ t.ord.panels = s.ord.panels
        ∧ t.ord.entries = s.ord.entries
        ∧ ChangesOnly [.mem, .line, .ord, .dose, .tens, .walker, .host, .sent] s t)

/-! ## The colour head -/

/-- READING (R151, R152): every reading sets the last reading time and ends HEAD_LOST; a GOOD one with
four densities of at most 3000 whose place at the nip, x_r − 45000, lies in the strip window of one
record with a check part joins that record's sums, up to 255 readings, and any other joins none. -/
def Obligations.ReadingIsCredited : Prop :=
  ∀ (s : State) (xr : Word) (d : Cmyk Half) (q : Quality) (matched : Panel → Prop),
    (∀ p, matched p ↔ p.state ≠ .void ∧ checkPresent s p.profile = true ∧ ∃ f, p.fLead = some f
      ∧ 0 ≤ sdiff (xr - 45000) (f + BitVec.ofNat 32 p.length - 600)
      ∧ sdiff (xr - 45000) (f + BitVec.ofNat 32 p.length) < 0) →
    ∃ t, exec (.reading xr d q) s = .next t
      ∧ t.lastReading = s.host.clock ∧ conditionActive t .headLost = false
      ∧ (∀ a, latched t a = latched s a) ∧ t.sent = []
      ∧ t.line = { s.line with alarms := t.line.alarms } ∧ ChangesOnly [.line, .ord, .check, .sent] s t
      ∧ (q = .bad ∨ 3000 < d.c.toNat ∨ 3000 < d.m.toNat ∨ 3000 < d.y.toNat ∨ 3000 < d.k.toNat
          ∨ (∀ p ∈ s.ord.panels, ¬ matched p) → t.ord = s.ord)
      ∧ (∀ p ∈ s.ord.panels, q = .good → d.c.toNat ≤ 3000 → d.m.toNat ≤ 3000 → d.y.toNat ≤ 3000 →
        d.k.toNat ≤ 3000 → matched p → (∀ o ∈ s.ord.panels, matched o → o = p) →
        (∀ o ∈ s.ord.panels, o.number = p.number → o = p) →
        t.ord = { s.ord with panels := s.ord.panels.map fun o =>
          if o = p ∧ p.readings < 255 then { p with
            readings := p.readings + 1,
            sums := { c := p.sums.c + d.c.toNat, m := p.sums.m + d.m.toNat,
                      y := p.sums.y + d.y.toNat, k := p.sums.k + d.k.toNat } }
          else o })

/-- The verdict (R156 to R158): each reason and each warning holds exactly where its rule says, in the
bit order of the copy summary (10.6), the outcome is REJECT exactly where some reason holds, and the
largest deviation is the first of the greatest size in the order C, M, Y, K. -/
def Obligations.VerdictFindings : Prop :=
  ∀ (s : State) (p : Panel) (v : Verdict) (judged : Prop) (dev : Nat → Int),
    v = verdictOf s p →
    (judged ↔ p.state = .finished ∧ checkPresent s p.profile = true ∧ 0 < p.readings) →
    (∀ c, dev c = ((([p.sums.c, p.sums.m, p.sums.y, p.sums.k].getD c 0) / p.readings : Nat) : Int)
      - (expected s p.profile c : Int)) →
    (v.reject = true ↔ v.reasons ≠ 0)
    ∧ (v.reasons.getLsbD 0 = true ↔ p.state = .finished ∧ p.doseMin < dMin s p.profile)
    ∧ (v.reasons.getLsbD 1 = true ↔ p.state = .finished ∧ dMax s p.profile < p.doseMax)
    ∧ (v.reasons.getLsbD 2 = true ↔ p.state = .finished ∧ p.interrupted = true)
    ∧ (v.reasons.getLsbD 3 = true ↔ p.state = .finished ∧ p.overheat = true)
    ∧ (v.reasons.getLsbD 4 = true ↔ (∃ e, p.regError = some e ∧ regTolerance s p.profile < e.natAbs)
        ∨ regTolerance s p.profile < p.stretch)
    ∧ (v.reasons.getLsbD 5 = true ↔ p.matched = true ∧ p.piece = none)
    ∧ (v.reasons.getLsbD 6 = true ↔ p.paperSplice = true ∨ p.fabricSplice = true)
    ∧ (v.reasons.getLsbD 7 = true ↔ p.finalVoid = true)
    ∧ (v.reasons.getLsbD 8 = true ↔ judged ∧ ∃ c, c < 4 ∧ dev c < -(tolerance s p.profile c : Int))
    ∧ (v.reasons.getLsbD 9 = true ↔ judged ∧ ∃ c, c < 4 ∧ (tolerance s p.profile c : Int) < dev c)
    ∧ (∀ k, 10 ≤ k → v.reasons.getLsbD k = false)
    ∧ (v.warnings.getLsbD 0 = true ↔ p.markMissed = true)
    ∧ (v.warnings.getLsbD 1 = true ↔ p.phaseLimit = true)
    ∧ (v.warnings.getLsbD 2 = true ↔ p.state = .finished ∧ checkPresent s p.profile = true
        ∧ p.readings = 0)
    ∧ (v.warnings.getLsbD 3 = true ↔ 0 < p.retries)
    ∧ (¬ judged → v.deviation = 0)
    ∧ (judged → ∃ c, c < 4 ∧ v.deviation = dev c ∧ (∀ d, d < c → (dev d).natAbs < (dev c).natAbs)
        ∧ ∀ d, d < 4 → (dev d).natAbs ≤ (dev c).natAbs)

/-! ## Sensor sightings -/

/-- The four sightings (R42, R43, R45, R48, R65, R78, R81). None is handed on while the jog is REV. A
splice joins the list in its place with its notice, a full list dropping its head first; a fabric mark
makes a piece where the fabric is marked, or PIECE_OVERFLOW where the queue is full; a paper mark in no
record's window is a stray; and each channel that waits for the sighting starts, the model's field
`ahead` clear (log 10). The stamp that a sighting may carry is the model's form, and so is that the jog
state counts at the hand-over, whatever the stamp (log 25); that the two ends of a mark window, 27500
and 28500 past s_lead, lie inside it is the model's reading (log 26). -/
def Obligations.Sightings : Prop :=
  ∀ (s : State) (stamp : Option Stamp) (st : Stamp), Memory.wf s.mem = true →
    st = stamp.getD ⟨s.pos.x, s.pos.s, s.pos.u⟩ →
    (s.line.jog = .rev → ∀ c, c = Instr.fabricMark stamp ∨ c = .paperMark stamp
      ∨ c = .fabricSplice stamp ∨ c = .paperSplice stamp → exec c s = .next { s with sent := [] })
    ∧ (s.line.jog ≠ .rev →
      (∀ c src, (c = Instr.fabricMark stamp ∧ src = ArmSource.fabricMark)
          ∨ (c = .paperMark stamp ∧ src = .paperMark)
          ∨ (c = .fabricSplice stamp ∧ src = .fabricSplice) →
        ∃ t, exec c s = .next t ∧ t.trig.latches = s.trig.latches ∧ t.trig.cuts = s.trig.cuts
          ∧ t.pos.x = s.pos.x ∧ t.pos.s = s.pos.s ∧ t.pos.u = s.pos.u
          ∧ ∀ k : Fin 12, t.trig.channels[k] =
            if s.trig.channels[k].arm = src ∧ (s.trig.channels[k].state = .armed
              ∨ (s.trig.channels[k].state = .counting ∧ s.trig.channels[k].mode = .repeating)) then
              { s.trig.channels[k] with
                state := .counting, remaining := s.trig.channels[k].reload, ahead := false }
            else s.trig.channels[k])
      ∧ (s.pos.splices.length < 8 →
        (∃ t pre post, exec (.fabricSplice stamp) s = .next t ∧ s.pos.splices = pre ++ post
          ∧ t.pos = { s.pos with splices := pre ++
              { web := .fabric, seen := st.x, arrival := some (st.x + 30000) } :: post }
          ∧ (∀ r ∈ pre, ∃ a, r.arrival = some a ∧ 0 ≤ sdiff (st.x + 30000) a)
          ∧ (∀ r a, post.head? = some r → r.arrival = some a → sdiff (st.x + 30000) a < 0)
          ∧ NoticeShown .spliceSeen s.line.state 1 st.x (st.x + 30000) s t
          ∧ t.host.written = s.host.written + 1 ∧ HostKept s t ∧ BytesKept (nextNoticeBytes s) s t
          ∧ t.sent = [] ∧ ChangesOnly [.mem, .pos, .trig, .host, .sent] s t)
        ∧ (∃ t, exec (.paperSplice stamp) s = .next t
          ∧ t.pos = { s.pos with splices := s.pos.splices ++
              [{ web := .paper, seen := st.s, arrival := none }] }
          ∧ t.ord = { s.ord with panels := s.ord.panels.map (fun p =>
              if 0 ≤ sdiff st.s p.sLead ∧ sdiff st.s (p.sLead + BitVec.ofNat 32 p.length) < 0 then
                { p with paperSplice := true } else p) }
          ∧ NoticeShown .spliceSeen s.line.state 0 st.s (st.s + 40000) s t
          ∧ t.host.written = s.host.written + 1 ∧ HostKept s t ∧ BytesKept (nextNoticeBytes s) s t
          ∧ t.sent = [] ∧ ChangesOnly [.mem, .pos, .ord, .host, .sent] s t))
      ∧ (∀ r rest, s.pos.splices = r :: rest → rest.length = 7 →
        ∀ c, c = Instr.fabricSplice stamp ∨ c = .paperSplice stamp →
        ∃ t, exec c s = .next t ∧ t.pos.splices.length = 8 ∧ (∀ q ∈ rest, q ∈ t.pos.splices)
          ∧ NoticeShown .spliceDropped s.line.state (natWord r.web.code) r.seen
              (r.arrival.getD (r.seen + 40000)) s t
          ∧ t.host.written = s.host.written + 2 ∧ HostKept s t)
      ∧ (s.line.state ≠ .warm → s.line.state ≠ .ready →
        (s.line.marks = false → ∃ t, exec (.fabricMark stamp) s = .next t ∧ t.sent = []
          ∧ ChangesOnly [.trig, .sent] s t)
        ∧ (s.line.marks = true → s.reg.queue.length < 8 → s.reg.list = [] →
          ∃ t, exec (.fabricMark stamp) s = .next t
            ∧ t.reg = { s.reg with queue := s.reg.queue ++ [⟨st.x, false, false⟩] }
            ∧ t.sent = [] ∧ ChangesOnly [.trig, .reg, .sent] s t)
        ∧ (s.line.marks = true → 8 ≤ s.reg.queue.length →
          ∃ t, exec (.fabricMark stamp) s = .next t ∧ t.reg = s.reg
            ∧ alarmRec t .pieceOverflow = ⟨true, true⟩
            ∧ (alarmRec s .pieceOverflow ≠ ⟨true, true⟩ →
              NoticeShown .alarmRaised s.line.state 11 st.x 0 s t
              ∧ t.line.state = (if s.line.state = .run then .hold else s.line.state))
            ∧ ChangesOnly (.trig :: lineParts) s t)
        ∧ ((∀ p ∈ s.ord.panels, (p.state = .onPaper ∨ (p.state = .void ∧ p.travel = some .paper)) →
            sdiff st.u (p.sLead + 27500) < 0 ∨ 0 < sdiff st.u (p.sLead + 28500)) →
          ∃ t, exec (.paperMark stamp) s = .next t
            ∧ NoticeShown .markStray s.line.state st.x st.s st.u s t
            ∧ t.host.written = s.host.written + 1 ∧ HostKept s t ∧ t.sent = []
            ∧ BytesKept (nextNoticeBytes s) s t ∧ ChangesOnly [.mem, .trig, .host, .sent] s t)
        ∧ (∀ p, s.ord.panels = [p] → p.state = .onPaper → p.matched = false → p.piece = none →
          s.reg.list = [] →
          0 ≤ sdiff st.u (p.sLead + 27500) → sdiff st.u (p.sLead + 28500) ≤ 0 →
          ∃ t, exec (.paperMark stamp) s = .next t
            ∧ t.ord = { s.ord with panels := [{ p with xp := some st.x, state := .staged }] }
            ∧ t.reg.list = [p.number] ∧ t.reg.queue = s.reg.queue ∧ t.reg.position = s.reg.position
            ∧ t.sent = [] ∧ t.mem = s.mem)))

/-! ## Encoder steps -/

/-- DRUM_STEP (R40, R45, R47, R87, R114, R143): a reverse step takes one from X and from the phase and
changes nothing else. A forward step adds one to both; splice records whose leaving mark X reaches
leave; the phase roller moves toward its target by at most 20, and the wrap queue shifts by one cell,
only where the step brings X to a multiple of 1000. -/
def Obligations.DrumStep : Prop :=
  ∀ s : State,
    exec (.drumStep .reverse) s = .next { s with
      sent := [], pos := { s.pos with x := s.pos.x - 1, phase := s.pos.phase - 1 } }
    ∧ ∃ t, exec (.drumStep .forward) s = .next t
      ∧ t.pos.x = s.pos.x + 1 ∧ t.pos.phase = s.pos.phase + 1 ∧ t.pos.s = s.pos.s
      ∧ t.pos.u = s.pos.u
      ∧ t.pos.splices = s.pos.splices.filter (fun r => match r.arrival with
        | none => true
        | some a => decide (sdiff (s.pos.x + 1) (a + 56000) < 0))
      ∧ t.reg.position = (if s.pos.phase = 999 then
          s.reg.position + max (-20) (min 20 (s.reg.target - s.reg.position)) else s.reg.position)
      ∧ t.reg.measured = s.reg.measured
      ∧ t.dose.cells.map (·.xc) =
        (match s.dose.cells.map (·.xc) with
          | [] => []
          | m :: ms => if s.pos.phase = 999 ∧ s.pos.x + 1 = m + 1000 then
              (s.pos.x + 1) :: (m :: ms).dropLast else m :: ms)
      ∧ t.lib.lock = s.lib.lock ∧ t.line.auth = s.line.auth ∧ t.line.fabric = s.line.fabric
      ∧ t.host.clock = s.host.clock ∧ t.ord.engine = s.ord.engine ∧ t.lastReading = s.lastReading
      ∧ t.heat.readings = s.heat.readings ∧ t.heat.base = s.heat.base ∧ LogAndTicketsOnly s t

/-- A forward DRUM_STEP at the panel records (R62, R115, R116, R117, R153, R154), with `x` the count the
step brings X to. The wrap queue shifts where x is the next multiple: the leaving cell folds its dose
into its panel, and the new cell names the ON_FABRIC record whose body holds x. A record ON_FABRIC is
FINISHED where x has reached f_lead + length + 30000 and stays ON_FABRIC before; it gets the
fabric-splice flag at its tail, f_lead + length, exactly where a fabric splice has its arrival under the
body (one that leaves the list at this very step may count or not: log 8). Where the step brings X to a
multiple of 1000, a record on the fabric, VOID or not, whose body spans the nip gains the size of the
roller's move in stretch (R88). A VOID record without the final void flag is freed where x has reached
its tail, and stays before. HEAD_LOST is raised in RUN where no reading has come for 5000 ms and the
strip at the head is that of a record that would accept one, and changes nowhere else. -/
def Obligations.DrumPanels : Prop :=
  ∀ (s : State) (x : Word) (shifts : Prop) (stretched : Panel → Word → Nat),
    x = s.pos.x + 1 → NumbersUnique s →
    (∀ p f, stretched p f = if s.pos.phase = 999 ∧ 0 ≤ sdiff x f
        ∧ sdiff x (f + BitVec.ofNat 32 p.length) < 0 then
      min 65535 (p.stretch + (max (-20) (min 20 (s.reg.target - s.reg.position))).natAbs)
      else p.stretch) →
    (shifts ↔ s.pos.phase = 999 ∧ ∃ c, s.dose.cells.head? = some c ∧ x = c.xc + 1000) →
    ∃ t, exec (.drumStep .forward) s = .next t
      ∧ (∀ (p : Panel) (f : Word), p ∈ s.ord.panels → p.state = .onFabric → p.fLead = some f →
        p.number ∉ s.reg.list → sdiff x (f + BitVec.ofNat 32 (p.length + 45100)) < 0 →
        ∃ q ∈ t.ord.panels, q.number = p.number ∧ q.fLead = some f
          ∧ q.state = (if 0 ≤ sdiff x (f + BitVec.ofNat 32 (p.length + 30000)) then .finished
              else .onFabric)
          ∧ q.readings = p.readings ∧ q.sums = p.sums ∧ q.regError = p.regError
          ∧ q.stretch = stretched p f ∧ (t.line.state = s.line.state → q.interrupted = p.interrupted)
          ∧ (∀ c, s.dose.cells.getLast? = some c → shifts → c.panel = some p.number →
            q.doseMin = min p.doseMin c.dose ∧ q.doseMax = max p.doseMax c.dose)
          ∧ ((¬ shifts ∨ ∀ c, s.dose.cells.getLast? = some c → c.panel ≠ some p.number) →
            q.doseMin = p.doseMin ∧ q.doseMax = p.doseMax)
          ∧ (x = f + BitVec.ofNat 32 p.length → (∃ r ∈ s.pos.splices, r.web = .fabric
              ∧ ∃ a, r.arrival = some a ∧ 0 ≤ sdiff a f
                ∧ sdiff a (f + BitVec.ofNat 32 p.length) < 0 ∧ sdiff x (a + 56000) < 0) →
            q.fabricSplice = true)
          ∧ ((x ≠ f + BitVec.ofNat 32 p.length ∨ ∀ r ∈ s.pos.splices, r.web = .fabric →
              ∀ a, r.arrival = some a →
              ¬ (0 ≤ sdiff a f ∧ sdiff a (f + BitVec.ofNat 32 p.length) < 0)) →
            q.fabricSplice = p.fabricSplice))
      ∧ (∀ (p : Panel) (f : Word), p ∈ s.ord.panels → p.state = .void → p.finalVoid = false →
        p.fLead = some f → p.number ∉ s.reg.list →
        (0 ≤ sdiff x (f + BitVec.ofNat 32 p.length) →
          ∀ q ∈ t.ord.panels, q.number = p.number → q.fLead = none)
        ∧ (sdiff x (f + BitVec.ofNat 32 p.length) < 0 →
          ∃ q ∈ t.ord.panels, q.number = p.number ∧ q.state = .void ∧ q.fLead = some f
            ∧ q.stretch = (if p.travel = some .fabric then stretched p f else p.stretch)))
      ∧ (shifts → ∃ c, t.dose.cells = c :: s.dose.cells.dropLast ∧ c.xc = x ∧ c.dose = 0
        ∧ (∀ (p : Panel) (f : Word), p ∈ s.ord.panels → s.reg.list = [] → p.state = .onFabric →
          p.fLead = some f → 0 ≤ sdiff x f → sdiff x (f + BitVec.ofNat 32 p.length) < 0 →
          (∀ q ∈ s.ord.panels, q.state = .onFabric → ∀ g, q.fLead = some g → 0 ≤ sdiff x g →
            sdiff x (g + BitVec.ofNat 32 q.length) < 0 → q = p) → c.panel = some p.number)
        ∧ (s.reg.list = [] → (∀ q ∈ s.ord.panels, q.state = .onFabric → ∀ g, q.fLead = some g →
            ¬ (0 ≤ sdiff x g ∧ sdiff x (g + BitVec.ofNat 32 q.length) < 0)) → c.panel = none))
      ∧ (¬ shifts → s.reg.list = [] → t.dose.cells = s.dose.cells)
      ∧ (∀ (p : Panel) (f : Word), p ∈ s.ord.panels → s.reg.list = [] → s.line.state = .run →
        5000 ≤ sdiff s.host.clock s.lastReading → p.state ≠ .void → p.fLead = some f →
        checkPresent s p.profile = true → p.readings < 255 →
        0 ≤ sdiff (x - 45000) (f + BitVec.ofNat 32 p.length - 600) →
        sdiff (x - 45000) (f + BitVec.ofNat 32 p.length) < 0 →
        (∀ q ∈ s.ord.panels, q.state ≠ .void → checkPresent s q.profile = true →
          ∀ g, q.fLead = some g → 0 ≤ sdiff (x - 45000) (g + BitVec.ofNat 32 q.length - 600) →
          sdiff (x - 45000) (g + BitVec.ofNat 32 q.length) < 0 → q = p) →
        alarmRec t .headLost = ⟨true, true⟩
        ∧ (s.ord.panels = [p] → s.reg.queue = [] → s.reg.home = none → Memory.wf s.mem = true →
          alarmRec s .headLost ≠ ⟨true, true⟩ →
          NoticeShown .alarmRaised .run 18 (p.number.setWidth 32) 0
            { s with pos := { s.pos with x := x } } t))
      ∧ ((s.line.state ≠ .run ∨ sdiff s.host.clock s.lastReading < 5000 ∨ (s.reg.list = []
          ∧ ∀ q ∈ s.ord.panels, q.state ≠ .void → checkPresent s q.profile = true → q.readings < 255 →
            ∀ g, q.fLead = some g →
            ¬ (0 ≤ sdiff (x - 45000) (g + BitVec.ofNat 32 q.length - 600)
              ∧ sdiff (x - 45000) (g + BitVec.ofNat 32 q.length) < 0))) →
        alarmRec t .headLost = alarmRec s .headLost)

/-- The fabric pieces (R79, R83 to R86) and the splice hold windows (R143). A forward DRUM_STEP takes
from the head of the queue the pieces whose lead has reached the nip, with a PIECE_SKIPPED notice for
an unpaired one, and ends PIECE_OVERFLOW where the queue held 8. A matched record that is staged by its
mark takes the oldest piece that qualifies, and the unpaired pieces ahead of it are skipped; a fabric
mark pairs the waiting record at the head of the list; a pairing writes the offset, limits the roller
target, and notices an offset above 600. The two ends of a mark window lie inside it (the model's
reading, log 26), and a sighting may carry a stamp (the model's form, log 25). A splice record opens a
zone's hold window at the step that brings the zone's counter to the open mark, and the window closes
at its end mark. -/
def Obligations.PiecesAndHoldWindows : Prop :=
  (∀ s : State, ∃ t, exec (.drumStep .forward) s = .next t
    ∧ t.reg.queue = s.reg.queue.dropWhile
        (fun pc => decide (0 ≤ sdiff (s.pos.x + 1) (pc.xf + 30000)))
    ∧ latched t .pieceOverflow = latched s .pieceOverflow
    ∧ (8 ≤ s.reg.queue.length →
      (∀ pc, s.reg.queue.head? = some pc → 0 ≤ sdiff (s.pos.x + 1) (pc.xf + 30000)) →
      conditionActive t .pieceOverflow = false)
    ∧ ((s.reg.queue.length < 8
        ∨ ∀ pc, s.reg.queue.head? = some pc → sdiff (s.pos.x + 1) (pc.xf + 30000) < 0) →
      alarmRec t .pieceOverflow = alarmRec s .pieceOverflow)
    ∧ (∀ pc, s.reg.queue = [pc] → s.ord.panels = [] → s.reg.home = none → Memory.wf s.mem = true →
      s.line.state ≠ .warm → s.line.state ≠ .ready → 0 ≤ sdiff (s.pos.x + 1) (pc.xf + 30000) →
      (pc.paired = true → t.mem = s.mem ∧ t.host = s.host)
      ∧ (pc.paired = false →
        NoticeShown .pieceSkipped s.line.state pc.xf (if pc.skipped = true then 1 else 0) 0
          { s with pos := { s.pos with x := s.pos.x + 1 } } t
        ∧ t.host.written = s.host.written + 1 ∧ HostKept s t)))
  ∧ (∀ (s : State) (stamp : Option Stamp) (st : Stamp) (p : Panel) (offset : Word → Word → Int),
    Memory.wf s.mem = true → st = stamp.getD ⟨s.pos.x, s.pos.s, s.pos.u⟩ →
    (∀ xf xp, offset xf xp = sdiff (xf + 30000) (xp + 12000)) →
    s.line.jog ≠ .rev → s.line.state ≠ .warm → s.line.state ≠ .ready → s.ord.panels = [p] →
    s.reg.home = none → p.matched = true → p.piece = none →
    (p.state = .onPaper → s.reg.list = [] →
      0 ≤ sdiff st.u (p.sLead + 27500) → sdiff st.u (p.sLead + 28500) ≤ 0 →
      (∀ (pre post : List Piece) (pc : Piece), s.reg.queue = pre ++ pc :: post →
        (∀ q ∈ pre, q.paired = true ∨ q.skipped = true ∨ offset q.xf st.x < -600) →
        pc.paired = false → pc.skipped = false → -600 ≤ offset pc.xf st.x →
        ∃ t, exec (.paperMark stamp) s = .next t
          ∧ t.reg.queue = pre.map (fun q => if q.paired = true then q else { q with skipped := true })
              ++ { pc with paired := true } :: post
          ∧ t.ord.panels = [{ p with
              xp := some st.x, state := .staged, piece := some pc.xf, offset := offset pc.xf st.x,
              phaseLimit := p.phaseLimit || decide (600 < offset pc.xf st.x) }]
          ∧ t.reg.list = [p.number] ∧ t.reg.position = s.reg.position
          ∧ t.reg.target = max (-600) (min 600 (offset pc.xf st.x))
          ∧ t.reg.limited = decide (600 < offset pc.xf st.x)
          ∧ (600 < offset pc.xf st.x → alarmRec t .phaseLimit = ⟨true, true⟩
            ∧ NoticeShown .pairLimited s.line.state (p.number.setWidth 32)
                (intWord (offset pc.xf st.x)) pc.xf s t)
          ∧ (offset pc.xf st.x ≤ 600 → conditionActive t .phaseLimit = false ∧ t.mem = s.mem))
      ∧ ((∀ q ∈ s.reg.queue, q.paired = true ∨ q.skipped = true ∨ offset q.xf st.x < -600) →
        ∃ t, exec (.paperMark stamp) s = .next t ∧ t.reg = { s.reg with list := [p.number] }
          ∧ t.ord.panels = [{ p with xp := some st.x, state := .staged }]))
    ∧ (∀ xp, p.xp = some xp → s.reg.list = [p.number] → s.reg.queue = [] → s.line.marks = true →
      (offset st.x xp < -600 → ∃ t, exec (.fabricMark stamp) s = .next t
        ∧ t.reg = { s.reg with queue := [⟨st.x, false, false⟩] } ∧ t.ord = s.ord)
      ∧ (-600 ≤ offset st.x xp → ∃ t, exec (.fabricMark stamp) s = .next t
        ∧ t.reg = { s.reg with
            queue := [⟨st.x, true, false⟩], target := max (-600) (min 600 (offset st.x xp)),
            limited := decide (600 < offset st.x xp) }
        ∧ t.ord = { s.ord with panels := [{ p with
            piece := some st.x, offset := offset st.x xp,
            phaseLimit := p.phaseLimit || decide (600 < offset st.x xp) }] }
        ∧ (600 < offset st.x xp → alarmRec t .phaseLimit = ⟨true, true⟩
          ∧ NoticeShown .pairLimited s.line.state (p.number.setWidth 32)
              (intWord (offset st.x xp)) st.x s t)
        ∧ (offset st.x xp ≤ 600 → conditionActive t .phaseLimit = false))))
  ∧ (∀ (s : State) (c : Instr) (z : Fin 4) (r : Splice) (at_ open_ : Word), s.pos.splices = [r] →
    (c = .drumStep .forward ∧ at_ = s.pos.x + 1 ∧ ∃ a, r.arrival = some a
      ∧ ((z = 0 ∧ r.web = .fabric ∧ open_ = a - 22500) ∨ (z = 3 ∧ r.web = .paper ∧ open_ = a + 33500)
        ∨ (z = 1 ∧ r.web = .fabric ∧ open_ = a + 53500)))
    ∨ (c = .storeExitStep .forward ∧ at_ = s.pos.u + 1 ∧ z = 2 ∧ r.web = .paper
      ∧ open_ = r.seen + 12500) →
    ∃ t, exec c s = .next t
      ∧ (at_ ≠ open_ → s.tens.zones[z].holdEnd = none → t.tens.zones[z].holdEnd = none)
      ∧ (∀ e, at_ ≠ open_ → s.tens.zones[z].holdEnd = some e →
        t.tens.zones[z].holdEnd = if 0 ≤ sdiff at_ e then none else some e)
      ∧ (at_ = open_ → s.tens.zones[z].holdEnd = none →
        t.tens.zones[z].holdEnd = some (open_ + 5000))
      ∧ (∀ e, at_ = open_ → s.tens.zones[z].holdEnd = some e →
        -1000000000 < sdiff (open_ + 5000) e →
        t.tens.zones[z].holdEnd = some (if 0 < sdiff (open_ + 5000) e then open_ + 5000 else e)))

/-- A channel at a forward step of its counter (R47, R54): a COUNTING channel loses one count, or fires
where one or none is left; any other stays. A fire sets the latches that follow the channel. The marker
channel does so while COUNTING whatever the check unit asks at the step (R52; the request is skipped, as
log 10 orders the two), and a fire of the knife channel takes the head off the cut list and loads the
channel from the next position, or leaves it FIRED (R53). Of the
model's choice (DESIGN CHOICE, log 10), and not the manual's, are the first three clauses, on what the
command TRIGGER_FIRE does; the field `ahead`, by which a channel that TRIGGER_FIRE has fired ahead of
the step lets that step pass; and the X + 1 from which the early fire of the knife channel loads its
next count from the cut list, where R53 counts from X at the fire. -/
def Obligations.ChannelSteps : Prop :=
  ∀ (s : State) (stepped : Channel → Channel) (fires : Channel → Bool),
    (∀ ch, fires ch = true ↔ ch.state = .counting ∧ ch.remaining ≤ 1 ∧ ch.ahead = false) →
    (∀ ch, stepped ch =
      if ch.ahead = true then { ch with ahead := false }
      else if ch.state = .counting then
        (if 1 < ch.remaining then { ch with remaining := ch.remaining - 1 }
        else if ch.mode = .repeating then { ch with remaining := ch.reload }
        else { ch with state := .fired, remaining := 0 })
      else ch) →
    (∀ c : Fin 12, fires s.trig.channels[c] = false →
      exec (.triggerFire c) s = .next { s with sent := [] })
    ∧ (∀ c : Fin 12, c ≠ 1 → fires s.trig.channels[c] = true →
      exec (.triggerFire c) s = .next { s with
        sent := [],
        trig := { s.trig.withChannel c { stepped s.trig.channels[c] with ahead := true } with
          latches := s.trig.latches.map fun l => if l.source = some c then
            { l with level := true, pulseEnd := some (s.host.clock + BitVec.ofNat 32 l.width) }
            else l } })
    ∧ (∀ rest p, fires s.trig.channels[(1 : Fin 12)] = true → s.trig.cuts = p :: rest →
      s.trig.channels[(1 : Fin 12)].source = .drum → s.trig.channels[(1 : Fin 12)].mode = .oneShot →
      ∃ t, exec (.triggerFire 1) s = .next t ∧ t.trig.cuts = rest
        ∧ (rest = [] → t.trig.channels[(1 : Fin 12)].state = .fired)
        ∧ (∀ q, rest.head? = some q → t.trig.channels[(1 : Fin 12)].state = .counting
          ∧ (t.trig.channels[(1 : Fin 12)].remaining : Int)
            = max 0 (min 65535 (sdiff q (s.pos.x + 1))))
        ∧ ChangesOnly [.trig, .sent] s t)
    ∧ (∃ t, exec (.drumStep .forward) s = .next t
      ∧ (∀ c : Fin 12, 2 ≤ c.val → t.trig.channels[c] =
        if s.trig.channels[c].source = .drum then stepped s.trig.channels[c] else s.trig.channels[c])
      ∧ (∀ (l : Fin 8) (c : Fin 12), s.trig.latches[l].source = some c → 2 ≤ c.val →
        t.trig.latches[l] =
          if s.trig.channels[c].source = .drum ∧ fires s.trig.channels[c] = true then
            { s.trig.latches[l] with
              level := true,
              pulseEnd := some (s.host.clock + BitVec.ofNat 32 s.trig.latches[l].width) }
          else s.trig.latches[l])
      ∧ (∀ l : Fin 8, s.trig.latches[l].source = none → t.trig.latches[l] = s.trig.latches[l])
      ∧ (s.trig.channels[(0 : Fin 12)].state = .counting ∨ s.ord.panels = [] →
        t.trig.channels[(0 : Fin 12)] =
          if s.trig.channels[(0 : Fin 12)].source = .drum then stepped s.trig.channels[(0 : Fin 12)]
          else s.trig.channels[(0 : Fin 12)])
      ∧ (s.ord.panels = [] →
        (¬ (s.trig.channels[(1 : Fin 12)].source = .drum ∧ fires s.trig.channels[(1 : Fin 12)] = true) →
          t.trig.cuts = s.trig.cuts ∧ t.trig.channels[(1 : Fin 12)] =
            if s.trig.channels[(1 : Fin 12)].source = .drum then stepped s.trig.channels[(1 : Fin 12)]
            else s.trig.channels[(1 : Fin 12)])
        ∧ (s.trig.channels[(1 : Fin 12)].source = .drum → fires s.trig.channels[(1 : Fin 12)] = true →
          s.trig.channels[(1 : Fin 12)].mode = .oneShot → t.trig.cuts = s.trig.cuts.tail
          ∧ (s.trig.cuts.tail = [] →
            t.trig.channels[(1 : Fin 12)] = stepped s.trig.channels[(1 : Fin 12)])
          ∧ (∀ q, s.trig.cuts.tail.head? = some q →
            t.trig.channels[(1 : Fin 12)].state = .counting
            ∧ (t.trig.channels[(1 : Fin 12)].remaining : Int)
              = max 0 (min 65535 (sdiff q (s.pos.x + 1))))))
      ∧ (∀ (l : Fin 8) (c : Fin 12), s.trig.latches[l].source = some c → c.val ≤ 1 →
        (c = 0 ∧ s.trig.channels[c].state = .counting) ∨ s.ord.panels = [] →
        t.trig.latches[l] =
          if s.trig.channels[c].source = .drum ∧ fires s.trig.channels[c] = true then
            { s.trig.latches[l] with
              level := true,
              pulseEnd := some (s.host.clock + BitVec.ofNat 32 s.trig.latches[l].width) }
          else s.trig.latches[l]))
    ∧ (∃ t, exec (.printStep .forward) s = .next t
      ∧ (∀ c : Fin 12, c ≠ 1 → t.trig.channels[c] =
        if s.trig.channels[c].source = .print then stepped s.trig.channels[c] else s.trig.channels[c])
      ∧ (∀ (l : Fin 8) (c : Fin 12), s.trig.latches[l].source = some c → c ≠ 1 →
        t.trig.latches[l] =
          if s.trig.channels[c].source = .print ∧ fires s.trig.channels[c] = true then
            { s.trig.latches[l] with
              level := true,
              pulseEnd := some (s.host.clock + BitVec.ofNat 32 s.trig.latches[l].width) }
          else s.trig.latches[l]))

/-- A nip arrival (R35, R87, R89, R90, R94, R116): at the first step at which X reaches x_p + 12000 +
the roller position, the staged record takes its f_lead, goes to ON_FABRIC (a VOID one to travel stage
FABRIC) with its registration error, leaves the list, and its profile's tensions, tapers and name are
copied. Where the step brings X to a multiple of 1000 the roller moves first, and the test and the error
take the moved position, the move adding no stretch to the arriving record (R88); a home request that
the move brings to 0 ends first, and the target takes the offset of a paired record (R92). The wrap
queue may shift at such a step, and its tail cell, new or standing, names the arriving record where it
starts at the f_lead: not a VOID one. A leaving cell that names the record folds its dose into it
(R115). -/
def Obligations.NipArrival : Prop :=
  ∀ (s : State) (p q : Panel) (xp : Word) (position : Int) (shifts : Bool),
    s.ord.panels = [p] → s.reg.list = [p.number] → s.reg.queue = [] → p.fLead = none →
    (p.state = .staged ∨ (p.state = .void ∧ p.travel = some .staged)) →
    p.xp = some xp → 1 ≤ p.length → p.length ≤ 60000 →
    (s.pos.phase = 999 → s.reg.home.isSome = true → Memory.wf s.mem = true) →
    position = (if s.pos.phase = 999 then
      s.reg.position + max (-20) (min 20 (s.reg.target - s.reg.position)) else s.reg.position) →
    (shifts = true ↔ s.pos.phase = 999
      ∧ ∃ c, s.dose.cells.head? = some c ∧ s.pos.x + 1 = c.xc + 1000) →
    (∀ c, shifts = true → s.dose.cells.getLast? = some c → c.panel = some p.number →
      q = { p with doseMin := min p.doseMin c.dose, doseMax := max p.doseMax c.dose }) →
    (shifts = false ∨ (∀ c, s.dose.cells.getLast? = some c → c.panel ≠ some p.number) → q = p) →
    0 ≤ sdiff (s.pos.x + 1) (xp + 12000 + intWord position) →
    ∃ t, exec (.drumStep .forward) s = .next t
      ∧ t.ord.panels = [{ q with
          state := if p.state = .void then .void else .onFabric,
          travel := if p.state = .void then some .fabric else p.travel,
          fLead := some (s.pos.x + 1),
          regError := p.piece.map fun _ => max (-32767) (min 32767 (position - p.offset)) }]
      ∧ t.reg.list = [] ∧ t.reg.position = position
      ∧ t.reg.target = (if s.pos.phase = 999 ∧ s.reg.home.isSome = true ∧ position = 0
          ∧ p.piece.isSome = true then max (-600) (min 600 p.offset) else s.reg.target)
      ∧ t.dose.cells =
        (match (if shifts = true then
            { xc := s.pos.x + 1, panel := none, dose := 0 } :: s.dose.cells.dropLast
          else s.dose.cells) with
        | [] => []
        | c :: cs => (if p.state ≠ .void ∧ c.xc = s.pos.x + 1 then
            { c with panel := some p.number } else c) :: cs)
      ∧ t.tens.nip = some {
          setpoints := Vector.ofFn fun z => setpoint s p.profile z,
          fabricOut := taperPart s p.profile 0x044, paperOut := taperPart s p.profile 0x04C }
      ∧ t.host.nipName = nameTag s p.profile
      ∧ t.lib = s.lib ∧ t.ord.orders = s.ord.orders ∧ t.ord.entries = s.ord.entries

/-- A forward PRINT_STEP at the print side (R63, R64, R68). A PRINTING record whose loss mark, s_lead +
length + 10000, S has reached goes to VOID on paper, PRINT_ENGINE_LOST is raised and the line leaves
RUN; every other PRINTING record stays. Where the print start conditions hold at the count the step
brings S to, one print starts there from the front entry, and none where the print gap has not passed.
Where both tests act, their order is free (log 17). -/
def Obligations.PrintStepEvents : Prop :=
  (∀ (s : State) (lost : Panel → Prop), NumbersUnique s →
    (∀ p, lost p ↔ p ∈ s.ord.panels ∧ p.state = .printing
      ∧ 0 ≤ sdiff (s.pos.s + 1) (p.sLead + BitVec.ofNat 32 (p.length + 10000))) →
    ∃ t, exec (.printStep .forward) s = .next t
      ∧ (∀ p ∈ s.ord.panels, p.state = .printing → ∃ q ∈ t.ord.panels, q.number = p.number
        ∧ q.sLead = p.sLead ∧ q.ticket = p.ticket ∧ q.copy = p.copy
        ∧ (lost p → q.state = .void ∧ q.travel = some .paper)
        ∧ (¬ lost p → q.state = .printing))
      ∧ ((∃ p, lost p) → alarmRec t .printEngineLost = ⟨true, true⟩
        ∧ (alarmRec s .printEngineLost ≠ ⟨true, true⟩ → t.line.state ≠ .run))
      ∧ ((∀ p, ¬ lost p) → alarmRec t .printEngineLost = alarmRec s .printEngineLost))
  ∧ (∀ (s : State) (e : Entry) (rest : List Entry) (o : OpenOrder), NumbersUnique s →
    s.line.state = .run → s.dose.wrap = .closed → s.ord.engine = .ready → s.ord.panels.length < 64 →
    s.ord.entries = e :: rest → findOrder e.ticket s = some o →
    10000 < sdiff (s.pos.s + 1 - s.pos.u) 60000 →
    (∀ p ∈ s.ord.panels, p.state = .printing →
      sdiff (s.pos.s + 1) (p.sLead + BitVec.ofNat 32 (p.length + 10000)) < 0) →
    ((∀ m, s.ord.endMark = some m → 0 ≤ sdiff (s.pos.s + 1) (m + 500)) →
      ∃ t p, exec (.printStep .forward) s = .next t ∧ t.ord.panels = s.ord.panels ++ [p]
        ∧ p.sLead = s.pos.s + 1 ∧ p.state = .printing ∧ p.number ≠ 0
        ∧ (∀ q ∈ s.ord.panels, q.number ≠ p.number) ∧ p.ticket = o.ticket
        ∧ p.copy = e.retry.headD e.next ∧ p.profile = e.profile ∧ p.length = o.length
        ∧ p.xp = none ∧ p.fLead = none ∧ p.readings = 0
        ∧ t.ord.endMark = some (s.pos.s + 1 + BitVec.ofNat 32 o.length)
        ∧ t.ord.orders = s.ord.orders.map (fun q => if q.ticket = o.ticket then
            { q with copies := q.copies.modify (p.copy - 1) fun c => { c with place := .printed } }
          else q)
        ∧ Message.printStart p.number o.length o.laneStart o.laneEnd o.tag ∈ t.sent
        ∧ t.line.state = .run)
    ∧ (∀ m, s.ord.endMark = some m → sdiff (s.pos.s + 1) (m + 500) < 0 →
      ∃ t, exec (.printStep .forward) s = .next t ∧ t.ord = s.ord ∧ t.line.state = .run))

/-- PRINT_STEP and STORE_EXIT_STEP (R40, R44, R70, R72, R80): each moves its own counter by one and no
other; the store level, tested in WARM, READY, RUN and HOLD and in no other line state, here where
nothing else waits on the paper, raises STORE_LOW at 10000 or below and STORE_EMPTY at 3000 or below,
STORE_LOW first (the model's reading, log 22), and ends each above its mark; in WARM and READY the
readiness test follows; a pending splice whose fixing mark U reaches gets its arrival; a record on paper
gets its stand-in x_p, and is staged with MARK_MISSED once U is strictly beyond 28500 past its s_lead
(strictly: the model's reading, log 26). That the X of that arrival and that stand-in is the X standing
when the step is taken is the model's choice (log 48). -/
def Obligations.PaperSteps : Prop :=
  ∀ (s : State) (c : Instr) (ds du : Word),
    (c, ds, du) ∈ [ (Instr.printStep .forward, (1 : Word), (0 : Word)), (.printStep .reverse, -1, 0),
      (.storeExitStep .forward, 0, 1), (.storeExitStep .reverse, 0, -1) ] →
    (∃ t, exec c s = .next t ∧ t.pos.s = s.pos.s + ds ∧ t.pos.u = s.pos.u + du
      ∧ t.pos.x = s.pos.x ∧ t.pos.phase = s.pos.phase
      ∧ t.reg.position = s.reg.position ∧ t.reg.queue.length = s.reg.queue.length
      ∧ t.lib.lock = s.lib.lock ∧ t.dose.cells = s.dose.cells ∧ t.line.auth = s.line.auth
      ∧ t.lastReading = s.lastReading ∧ LogAndTicketsOnly s t)
    ∧ (∀ level, level = sdiff (s.pos.s + ds - (s.pos.u + du)) 60000 →
      s.ord.panels = [] → s.ord.entries = [] →
      (s.line.state = .cold ∨ s.line.state = .thread ∨ s.line.state = .halt →
        ∃ t, exec c s = .next t ∧ t.line = s.line ∧ t.ord = s.ord)
      ∧ (s.line.state = .run ∨ s.line.state = .hold →
        (10000 < level → ∃ t, exec c s = .next t ∧ t.line.state = s.line.state
          ∧ conditionActive t .storeLow = false ∧ conditionActive t .storeEmpty = false
          ∧ (∀ a, latched t a = latched s a))
        ∧ (3000 < level → level ≤ 10000 → ∃ t, exec c s = .next t
          ∧ alarmRec t .storeLow = ⟨true, true⟩ ∧ conditionActive t .storeEmpty = false
          ∧ (alarmRec s .storeLow ≠ ⟨true, true⟩ → t.line.state = .hold)
          ∧ (alarmRec s .storeLow = ⟨true, true⟩ → t.line.state = s.line.state))
        ∧ (level ≤ 3000 → alarmRec s .storeEmpty ≠ ⟨true, true⟩ → ∃ t, exec c s = .next t
          ∧ t.line.state = .halt ∧ latched t .storeLow = true ∧ latched t .storeEmpty = true
          ∧ conditionActive t .storeLow = false ∧ conditionActive t .storeEmpty = false)
        ∧ (level ≤ 3000 → alarmRec s .storeEmpty = ⟨true, true⟩ → ∃ t, exec c s = .next t
          ∧ alarmRec t .storeLow = ⟨true, true⟩ ∧ alarmRec t .storeEmpty = ⟨true, true⟩
          ∧ t.line.state = (if alarmRec s .storeLow = ⟨true, true⟩ then s.line.state else .hold)))
      ∧ (s.line.state = .warm ∨ s.line.state = .ready →
        (10000 < level → ∃ t, exec c s = .next t
          ∧ t.line.state = (if readyTest t = true then .ready else .warm)
          ∧ conditionActive t .storeLow = false ∧ conditionActive t .storeEmpty = false
          ∧ (∀ a, latched t a = latched s a))
        ∧ (3000 < level → level ≤ 10000 → ∃ t, exec c s = .next t ∧ t.line.state = .warm
          ∧ alarmRec t .storeLow = ⟨true, true⟩ ∧ conditionActive t .storeEmpty = false)
        ∧ (level ≤ 3000 → alarmRec s .storeEmpty ≠ ⟨true, true⟩ → ∃ t, exec c s = .next t
          ∧ t.line.state = .halt ∧ latched t .storeLow = true ∧ latched t .storeEmpty = true
          ∧ conditionActive t .storeLow = false ∧ conditionActive t .storeEmpty = false)
        ∧ (level ≤ 3000 → alarmRec s .storeEmpty = ⟨true, true⟩ → ∃ t, exec c s = .next t
          ∧ t.line.state = .warm ∧ alarmRec t .storeLow = ⟨true, true⟩
          ∧ alarmRec t .storeEmpty = ⟨true, true⟩)))
    ∧ (∀ sp, ds = 0 → s.pos.splices = [{ web := .paper, seen := sp, arrival := none }] →
      ∃ t, exec c s = .next t ∧ t.pos.splices = [{ web := .paper, seen := sp, arrival := (
        if 0 ≤ sdiff (s.pos.u + du) (sp + 40000) then some (s.pos.x + intWord s.reg.position)
        else none) }])
    ∧ (∀ p, ds = 0 → s.ord.panels = [p] → p.state = .onPaper → p.matched = false →
      p.piece = none → s.reg.list = [] → (∀ k ∈ s.dose.cells, k.panel ≠ some p.number) →
      ∃ (t : State) (xp : Option Word), exec c s = .next t
        ∧ xp = (if p.xp = none ∧ 0 ≤ sdiff (s.pos.u + du) (p.sLead + 28000) then some s.pos.x
            else p.xp)
        ∧ t.ord.panels = (if 0 < sdiff (s.pos.u + du) (p.sLead + 28500) then
            [{ p with xp := xp, state := .staged, markMissed := true }] else [{ p with xp := xp }])
        ∧ t.reg.list = (if 0 < sdiff (s.pos.u + du) (p.sLead + 28500) then [p.number] else []))

/-! ## The verdict event -/

/-- A verdict's stages 3 to 5, its settlement and its place in the drum step (R53, R52, R75, R155, R159
to R161): the drift step moves the slot's trim within −100..+100 only where colour is judged, drift is
enabled and no dose reason holds; a rejected record that asks for it requests a mark; the verdict on the
last unsettled copy of an order that asks for a cut requests one 250 counts past the tail at the knife,
which joins the cut list in its place and loads the knife channel where that is due, or is skipped with
its notice where the list is full; the settlement moves the copy to SETTLED, counts a reject, writes its
summary, frees the record with its in-use count, and finishes an order with nothing left. A print that
follows the freeing (R63) is shut out only where the clause says what else changes. The forward
DRUM_STEP that brings X to f_lead + length + 45100 of a FINISHED record, or of one with the final void
flag on the fabric, makes all this its effect (under `AutoZeroLaw`, which every step keeps: an auto-zero
that a readiness test ended could write the same ticket). (A marker channel that starts has the model's
field `ahead` clear: log 10.) -/
def Obligations.VerdictEvent : Prop :=
  (∀ (s : State) (p : Panel),
    ((p.state = .finished ∧ checkPresent s p.profile = true ∧ 0 < p.readings
        ∧ driftEnable s p.profile = true ∧ ¬ (p.doseMin < dMin s p.profile)
        ∧ ¬ (dMax s p.profile < p.doseMax) ∧ p.interrupted = false ∧ p.overheat = false) →
      ∃ step : Int,
        step = max (-5) (min 5
          ((-((deviation s p 0 + deviation s p 1 + deviation s p 2 + deviation s p 3).tdiv 4)).tdiv 4))
        ∧ (driftStage p s).lib = s.lib.withSlot p.profile { s.lib.slots[p.profile] with
            trim := max (-100) (min 100 (s.lib.slots[p.profile].trim + step)) }
        ∧ (driftStage p s).host.written = s.host.written
          + (if step ≠ 0 ∧ (100 ≤ s.lib.slots[p.profile].trim + step
              ∨ s.lib.slots[p.profile].trim + step ≤ -100) then 1 else 0)
        ∧ ChangesOnly [.mem, .lib, .host] s (driftStage p s))
    ∧ (¬ (p.state = .finished ∧ checkPresent s p.profile = true ∧ 0 < p.readings
        ∧ driftEnable s p.profile = true ∧ ¬ (p.doseMin < dMin s p.profile)
        ∧ ¬ (dMax s p.profile < p.doseMax) ∧ p.interrupted = false ∧ p.overheat = false) →
      driftStage p s = s))
  ∧ (∀ (s : State) (p : Panel) (v : Verdict), s.line.jog ≠ .rev →
    (¬ (v.reject = true ∧ p.rejectMark = true) → markStage p v s = s)
    ∧ (v.reject = true → p.rejectMark = true → s.trig.channels[(0 : Fin 12)].state ≠ .counting →
      markStage p v s = { s with trig := (s.trig.withChannel 0
        { s.trig.channels[(0 : Fin 12)] with
          state := .counting, remaining := 3900, ahead := false }) })
    ∧ (v.reject = true → p.rejectMark = true → s.trig.channels[(0 : Fin 12)].state = .counting →
      Memory.wf s.mem = true → (markStage p v s).trig = s.trig
      ∧ NoticeShown .markSkipped s.line.state (p.number.setWidth 32)
          (natWord s.trig.channels[(0 : Fin 12)].remaining) 0 s (markStage p v s)))
  ∧ (∀ (s : State) (p : Panel) (o : OpenOrder) (last : Prop) (at_ : Word),
    findOrder p.ticket s = some o → 1 ≤ p.copy → s.line.jog ≠ .rev →
    (last ↔ o.cutLast = true ∧ ∀ k c, o.copies[k]? = some c → k ≠ p.copy - 1 →
      c.place ≠ .waiting ∧ c.place ≠ .printed) →
    at_ = p.fLead.getD 0 + BitVec.ofNat 32 p.length + 250 + 52000 →
    (¬ last → cutStage p s = s)
    ∧ (last → 4 ≤ s.trig.cuts.length → Memory.wf s.mem = true →
      NoticeShown .cutSkipped s.line.state (p.number.setWidth 32) at_ 0 s (cutStage p s)
      ∧ (cutStage p s).host.written = s.host.written + 1
      ∧ ChangesOnly [.mem, .host] s (cutStage p s))
    ∧ (last → s.trig.cuts.length < 4 → ∃ pre post, s.trig.cuts = pre ++ post
      ∧ (cutStage p s).trig.cuts = pre ++ at_ :: post
      ∧ (∀ q ∈ pre, 0 ≤ sdiff at_ q) ∧ (∀ q, post.head? = some q → sdiff at_ q < 0)
      ∧ (cutStage p s).trig.latches = s.trig.latches
      ∧ (∀ c : Fin 12, c ≠ 1 → (cutStage p s).trig.channels[c] = s.trig.channels[c])
      ∧ (pre ≠ [] → s.trig.channels[(1 : Fin 12)].state = .counting →
        (cutStage p s).trig.channels[(1 : Fin 12)] = s.trig.channels[(1 : Fin 12)])
      ∧ (∀ head, (pre ++ at_ :: post).head? = some head →
        pre = [] ∨ s.trig.channels[(1 : Fin 12)].state ≠ .counting →
        (cutStage p s).trig.channels[(1 : Fin 12)].state = .counting
        ∧ ((cutStage p s).trig.channels[(1 : Fin 12)].remaining : Int)
          = max 0 (min 65535 (sdiff head s.pos.x)))
      ∧ ChangesOnly [.trig] s (cutStage p s)))
  ∧ (∀ (s : State) (p : Panel) (v : Verdict) (o : OpenOrder),
    findPanel p.number s = some p → findOrder p.ticket s = some o →
    1 ≤ p.ticket → p.ticket ≤ 256 → 1 ≤ p.copy → p.copy ≤ o.copies.length →
    o.copies.length ≤ 8 → Memory.wf s.mem = true →
    ∃ t, t = settleCopy p v s
      ∧ ticketHalf t p.ticket (0x80 + 16 * (p.copy - 1)) = p.number
      ∧ ticketByte t p.ticket (0x80 + 16 * (p.copy - 1) + 2) = (if v.reject = true then 2 else 1)
      ∧ ticketByte t p.ticket (0x80 + 16 * (p.copy - 1) + 3) = v.warnings
      ∧ ticketHalf t p.ticket (0x80 + 16 * (p.copy - 1) + 4) = v.reasons
      ∧ ticketHalf t p.ticket (0x80 + 16 * (p.copy - 1) + 6) = BitVec.ofNat 16 p.doseMin
      ∧ ticketHalf t p.ticket (0x80 + 16 * (p.copy - 1) + 8) = BitVec.ofNat 16 p.doseMax
      ∧ ticketHalf t p.ticket (0x80 + 16 * (p.copy - 1) + 10)
        = BitVec.ofInt 16 (p.regError.getD (-32768))
      ∧ ticketHalf t p.ticket (0x80 + 16 * (p.copy - 1) + 12) = BitVec.ofNat 16 p.stretch
      ∧ ticketHalf t p.ticket (0x80 + 16 * (p.copy - 1) + 14) = BitVec.ofInt 16 v.deviation
      ∧ LogAndTicketsOnly s t
      ∧ (s.ord.entries = [] ∨ ¬ Startable { s with ord := { s.ord with panels := [] } } →
        t.ord.panels = s.ord.panels.eraseP (fun q => q.number == p.number)
        ∧ t.lib = s.lib.withSlot p.profile
            { s.lib.slots[p.profile] with inUse := s.lib.slots[p.profile].inUse - 1 }
        ∧ ((∃ k c, o.copies[k]? = some c ∧ k ≠ p.copy - 1
            ∧ (c.place = .waiting ∨ c.place = .printed)) →
          t.ord.orders = s.ord.orders.map (fun q => if q.ticket = p.ticket then
            { q with
              copies := q.copies.modify (p.copy - 1) fun c => { c with place := .settled },
              rejects := if v.reject = true then q.rejects + 1 else q.rejects } else q)
          ∧ t.walker = s.walker)
        ∧ ((∀ k c, o.copies[k]? = some c → k ≠ p.copy - 1 →
            c.place ≠ .waiting ∧ c.place ≠ .printed) →
          (∀ q ∈ t.ord.orders, q.ticket ≠ p.ticket)
          ∧ TicketShows p.ticket
            (if (o.copies.eraseIdx (p.copy - 1)).all (fun c => c.place == .settled) = true then .ok
            else .partly)
            (natWord (if v.reject = true then o.rejects + 1 else o.rejects)) s t)
        ∧ ChangesOnly [.mem, .ord, .lib, .walker, .host] s t))
  ∧ (∀ (s : State) (p : Panel) (f : Word) (o : OpenOrder) (v : Verdict),
    s.ord.panels = [p] → findOrder p.ticket s = some o → p.fLead = some f →
    s.pos.x + 1 = f + BitVec.ofNat 32 (p.length + 45100) → v = verdictOf s p →
    (p.state = .finished ∨ (p.state = .void ∧ p.travel = some .fabric ∧ p.finalVoid = true)) →
    s.reg.list = [] → s.reg.home = none → (∀ c ∈ s.dose.cells, c.panel ≠ some p.number) →
    1 ≤ p.ticket → p.ticket ≤ 256 → 1 ≤ p.copy → p.copy ≤ o.copies.length → o.copies.length ≤ 8 →
    1 ≤ p.length → p.length ≤ 60000 → Memory.wf s.mem = true → s.line.jog ≠ .rev → AutoZeroLaw s →
    ∃ t, exec (.drumStep .forward) s = .next t ∧ (∀ q ∈ t.ord.panels, q.fLead = none)
      ∧ ticketHalf t p.ticket (0x80 + 16 * (p.copy - 1)) = p.number
      ∧ ticketByte t p.ticket (0x80 + 16 * (p.copy - 1) + 2) = (if v.reject = true then 2 else 1)
      ∧ ticketByte t p.ticket (0x80 + 16 * (p.copy - 1) + 3) = v.warnings
      ∧ ticketHalf t p.ticket (0x80 + 16 * (p.copy - 1) + 4) = v.reasons
      ∧ ticketHalf t p.ticket (0x80 + 16 * (p.copy - 1) + 6) = BitVec.ofNat 16 p.doseMin
      ∧ ticketHalf t p.ticket (0x80 + 16 * (p.copy - 1) + 8) = BitVec.ofNat 16 p.doseMax
      ∧ ticketHalf t p.ticket (0x80 + 16 * (p.copy - 1) + 10)
        = BitVec.ofInt 16 (p.regError.getD (-32768))
      ∧ ticketHalf t p.ticket (0x80 + 16 * (p.copy - 1) + 12) = BitVec.ofNat 16 p.stretch
      ∧ ticketHalf t p.ticket (0x80 + 16 * (p.copy - 1) + 14) = BitVec.ofInt 16 v.deviation
      ∧ t.lib.slots[p.profile].trim = (driftStage p s).lib.slots[p.profile].trim
      ∧ (v.reject = true → p.rejectMark = true →
        s.trig.channels[(0 : Fin 12)].state ≠ .counting →
        t.trig.channels[(0 : Fin 12)].state = .counting
        ∧ t.trig.channels[(0 : Fin 12)].remaining = 3900)
      ∧ (s.trig.cuts = [] → s.trig.channels[(1 : Fin 12)].state ≠ .counting →
        (o.cutLast = true → (∀ k c, o.copies[k]? = some c → k ≠ p.copy - 1 →
            c.place ≠ .waiting ∧ c.place ≠ .printed) →
          t.trig.cuts = [f + BitVec.ofNat 32 p.length + 250 + 52000]
          ∧ t.trig.channels[(1 : Fin 12)].state = .counting
          ∧ t.trig.channels[(1 : Fin 12)].remaining = 7150)
        ∧ (o.cutLast = false → t.trig.cuts = []))
      ∧ (s.ord.entries = [] → t.ord.panels = []
        ∧ ((∀ k c, o.copies[k]? = some c → k ≠ p.copy - 1 →
            c.place ≠ .waiting ∧ c.place ≠ .printed) →
          (∀ q ∈ t.ord.orders, q.ticket ≠ p.ticket)
          ∧ TicketShows p.ticket
            (if (o.copies.eraseIdx (p.copy - 1)).all (fun c => c.place == .settled) = true then .ok
            else .partly)
            (natWord (if v.reject = true then o.rejects + 1 else o.rejects)) t t)))

/-! ## The periodic timers -/

/-- DOSE_INTERVAL (R122, R125 to R128, R130): nothing before START; then each cell that names a live
record gains its rate while the wrap is CLOSED, and a record in the wrap whose effective temperature is
above its T_scorch gets OVERHEAT; S_target is the least of the caps and maximum speeds of the governed
set and V_lim, and the governing panel is one whose cap equals it with none nearer the nip, or 0; S_cmd
steps by the table of R128, and HEAT_STARVED is raised in RUN with the wrap CLOSED where S_target is
below 20, or ends where it is not; where that opens the wrap, the records that a cell names are
INTERRUPTED (R121). A panel's effective temperature is the lowest used temperature of the zones under
its lanes (R123), and its rate is 0 below the first knot, the last knot's from there on, and the floor
of the interpolation between two knots (R124). -/
def Obligations.DoseInterval : Prop :=
  (∀ s : State,
    (started s = false → exec .doseInterval s = .next { s with sent := [] })
    ∧ (∀ (G : Panel → Prop), started s = true →
      (∀ p, G p ↔ p ∈ s.ord.panels ∧ ((p.state = .onFabric
          ∧ ∃ c ∈ s.dose.cells, c.panel = some p.number)
        ∨ (p.state = .staged ∧ ∃ xp, p.xp = some xp
          ∧ 0 ≤ sdiff (s.pos.x + 30000) (xp + 12000 + intWord s.reg.position)))) →
      ∃ t, exec .doseInterval s = .next t
        ∧ ((∀ p, ¬ G p) → t.dose.sTarget = min (idleSpeed s) (vLim s) ∧ t.dose.governing = 0)
        ∧ ((∃ p, G p) → t.dose.sTarget ≤ vLim s
          ∧ (∀ p, G p → t.dose.sTarget ≤ 30000 * rateOf s p / (dEff s p.profile).toNat
            ∧ t.dose.sTarget ≤ maxSpeed s p.profile)
          ∧ (t.dose.sTarget = vLim s ∨ ∃ p, G p
            ∧ (t.dose.sTarget = 30000 * rateOf s p / (dEff s p.profile).toNat
              ∨ t.dose.sTarget = maxSpeed s p.profile)))
        ∧ ((∀ p, G p → 30000 * rateOf s p / (dEff s p.profile).toNat ≠ t.dose.sTarget) →
          t.dose.governing = 0)
        ∧ (∀ p, G p → 30000 * rateOf s p / (dEff s p.profile).toNat = t.dose.sTarget →
          (∀ q r, G q → G r → q.state = r.state →
            (sdiff (q.fLead.getD 0) (r.fLead.getD 0)).natAbs < 1000000000
            ∧ (sdiff (q.xp.getD 0) (r.xp.getD 0)).natAbs < 1000000000) →
          ∃ q, G q ∧ t.dose.governing = q.number
            ∧ 30000 * rateOf s q / (dEff s q.profile).toNat = t.dose.sTarget
            ∧ (p.state = .onFabric → q.state = .onFabric
              ∧ sdiff (q.fLead.getD 0) (p.fLead.getD 0) ≤ 0)
            ∧ (p.state = .staged → q.state = .staged → sdiff (q.xp.getD 0) (p.xp.getD 0) ≤ 0))
        ∧ t.ord.panels.map (·.overheat) = s.ord.panels.map (fun p => p.overheat
            || decide (s.dose.wrap = .closed ∧ (∃ c ∈ s.dose.cells, c.panel = some p.number)
              ∧ tScorch s p.profile < tEff s p))
        ∧ t.dose.cells = (if s.dose.wrap = .closed then s.dose.cells.map (fun c =>
            match c.panel.bind fun n => findPanel n s with
            | none => c
            | some p => { c with dose := min 65535 (c.dose + rateOf s p) }) else s.dose.cells)
        ∧ t.dose.sCmd =
          (match s.line.state with
          | .run => if s.dose.wrap = .closed then
              (if s.dose.sCmd < t.dose.sTarget then min t.dose.sTarget (s.dose.sCmd + 5)
              else max t.dose.sTarget (s.dose.sCmd - 10)) else 20
          | .warm | .ready => 20
          | .hold => if s.dose.sCmd < 20 then min 20 (s.dose.sCmd + 5) else max 20 (s.dose.sCmd - 10)
          | .thread => if s.line.jog = .still then 0 else 20
          | .cold | .halt => 0)
        ∧ (20 ≤ t.dose.sTarget → conditionActive t .heatStarved = false
          ∧ t.line.state = s.line.state ∧ ∀ a, latched t a = latched s a)
        ∧ (t.dose.sTarget < 20 → s.line.state = .run → s.dose.wrap = .closed →
          alarmRec t .heatStarved = ⟨true, true⟩
          ∧ (alarmRec s .heatStarved ≠ ⟨true, true⟩ → t.line.state = .hold ∧ t.dose.wrap = .opening))
        ∧ (t.dose.sTarget < 20 → s.line.state ≠ .run ∨ s.dose.wrap ≠ .closed → t.line = s.line)
        ∧ t.ord.panels.map (·.interrupted) = s.ord.panels.map (fun p => p.interrupted
            || decide (t.dose.wrap ≠ s.dose.wrap ∧ ∃ c ∈ s.dose.cells, c.panel = some p.number))
        ∧ ChangesOnly lineParts s t))
  ∧ (∀ (s : State) (p : Panel), p.laneStart < p.laneEnd → p.laneEnd ≤ 3200 →
    (∃ k : Fin 8, p.laneStart / 400 ≤ k.val ∧ k.val ≤ (p.laneEnd - 1) / 400
      ∧ tEff s p = s.heat.zones[k].used)
    ∧ ∀ k : Fin 8, p.laneStart / 400 ≤ k.val → k.val ≤ (p.laneEnd - 1) / 400 →
      tEff s p ≤ s.heat.zones[k].used)
  ∧ (∀ (s : State) (p : Panel) (T r : Nat → Nat),
    (∀ k, T k = knotT s p.profile k ∧ r k = knotR s p.profile k) →
    (∀ k, k < 7 → T k < T (k + 1) ∧ r k ≤ r (k + 1)) →
    (tEff s p < T 0 → rateOf s p = 0) ∧ (T 7 ≤ tEff s p → rateOf s p = r 7)
    ∧ ∀ k, k < 7 → T k ≤ tEff s p → tEff s p < T (k + 1) →
      (rateOf s p : Int) = r k
        + (((r (k + 1) : Int) - r k) * ((tEff s p : Int) - T k)).fdiv ((T (k + 1) : Int) - T k))

/-- HEAT_INTERVAL (R98, R103 to R110): every reading age rises by one; with the heat enable off every
zone is OFF without power; with it on, a zone whose reading is older than 20 is LOST, one at T_CUT or
above is CUT, and any other is regulated and settles; ZONE_OVERTEMP and ZONE_SENSOR_LOST are raised by
the zones that enter CUT and LOST and end with the last of them, and ZONE_PAIR_LOST is held exactly
while two adjacent zones are LOST; the line leaves RUN where a zone is left HEATING or OFF, and in WARM
and READY the readiness test follows. A regulated zone has R107's power, and power 0 with Kp and Ki both
0, as R102 says (log 45). It holds for either order of the alarm raises and the run heat test (log
17). -/
def Obligations.HeatInterval : Prop :=
  ∀ (s : State) (age T : Fin 8 → Nat) (e : Fin 8 → Int),
    (∀ k, age k = min 255 ((zoneReading s k).age + 1)) → (∀ k, T k = (zoneReading s k).value) →
    (∀ k, e k = zoneSetpoint s k - (T k : Int)) →
    ∃ t, exec .heatInterval s = .next t
      ∧ t.heat.readings = s.heat.readings.map (fun r => { r with age := min 255 (r.age + 1) })
      ∧ t.heat.base = s.heat.base ∧ t.heat.offsets = s.heat.offsets ∧ t.heat.scan = s.heat.scan
      ∧ (s.line.heat = false → ChangesOnly [.heat, .sent] s t ∧ ∀ k : Fin 8,
        t.heat.zones[k] = { state := .off, integral := 0, power := 0, settle := 0,
                            used := T k, heater := false, onEnd := none })
      ∧ (s.line.heat = true → ∀ (k : Fin 8) (z0 : Zone),
        z0 = (if s.heat.zones[k].state = .lost ∨ s.heat.zones[k].state = .off
              ∨ (s.heat.zones[k].state = .cut ∧ T k + 50 < tCut s) then
            { s.heat.zones[k] with state := .heating, integral := 0, power := 0, settle := 0 }
          else s.heat.zones[k]) →
        (20 < age k → t.heat.zones[k].state = .lost ∧ t.heat.zones[k].power = 0
          ∧ t.heat.zones[k].integral = 0 ∧ t.heat.zones[k].settle = 0
          ∧ t.heat.zones[k].heater = false
          ∧ ((∀ j : Fin 8, (j.val + 1 = k.val ∨ j.val = k.val + 1) → 20 < age j) →
            t.heat.zones[k].used = 0)
          ∧ (∀ j : Fin 8, (j.val + 1 = k.val ∨ j.val = k.val + 1) → age j ≤ 20 →
            (∀ i : Fin 8, (i.val + 1 = k.val ∨ i.val = k.val + 1) → age i ≤ 20 → T j ≤ T i) →
            t.heat.zones[k].used = min 2500 (T j - 50)))
        ∧ (age k ≤ 20 → t.heat.zones[k].used = T k
          ∧ (s.heat.zones[k].state = .cut → tCut s ≤ T k + 50 →
            t.heat.zones[k].state = .cut ∧ t.heat.zones[k].power = 0)
          ∧ (s.heat.zones[k].state ≠ .cut → tCut s ≤ T k →
            t.heat.zones[k] = { state := .cut, integral := 0, power := 0, settle := 0, used := T k,
                                heater := false, onEnd := none }
            ∧ latched t .zoneOvertemp = true)
          ∧ (z0.state ≠ .cut → (s.heat.zones[k].state = .cut ∨ T k < tCut s) →
            t.heat.zones[k].integral =
              (if (z0.power = 1000 ∧ 0 < e k) ∨ (z0.power = 0 ∧ e k < 0) then z0.integral
              else max 0 (min 1000 (z0.integral + ((s.heat.ki : Int) * e k).tdiv 256)))
            ∧ (t.heat.zones[k].power : Int) = (if s.heat.kp = 0 ∧ s.heat.ki = 0 then 0
                else max 0 (min 1000 (((s.heat.kp : Int) * e k).tdiv 16 + t.heat.zones[k].integral)))
            ∧ t.heat.zones[k].settle = (if (e k).natAbs ≤ 30 then min 600 (z0.settle + 1) else 0)
            ∧ t.heat.zones[k].state = (if (e k).natAbs ≤ 30 then
                (if 600 ≤ z0.settle + 1 then .settled else z0.state) else .heating)
            ∧ t.heat.zones[k].heater = s.heat.zones[k].heater)))
      ∧ (s.line.heat = true → s.line.state = .run →
        (∃ k : Fin 8, t.heat.zones[k].state = .heating ∨ t.heat.zones[k].state = .off) →
        t.line.state = .hold)
      ∧ (s.line.heat = true → (∀ k : Fin 8, t.heat.zones[k].state ≠ .cut) →
        conditionActive t .zoneOvertemp = false)
      ∧ (s.line.heat = true → (∀ k : Fin 8, t.heat.zones[k].state ≠ .lost) →
        conditionActive t .zoneSensorLost = false)
      ∧ (s.line.heat = true → (∃ k : Fin 8, 20 < age k ∧ s.heat.zones[k].state ≠ .lost) →
        alarmRec t .zoneSensorLost = ⟨true, true⟩)
      ∧ (s.line.heat = true → (∀ j k : Fin 8, k.val = j.val + 1 →
          t.heat.zones[j].state ≠ .lost ∨ t.heat.zones[k].state ≠ .lost) →
        conditionActive t .zonePairLost = false)
      ∧ (∀ j k : Fin 8, s.line.heat = true → k.val = j.val + 1 → t.heat.zones[j].state = .lost →
        t.heat.zones[k].state = .lost → alarmRec t .zonePairLost = ⟨true, true⟩)
      ∧ (s.line.heat = true → s.line.state = .warm ∨ s.line.state = .ready →
        t.line.state = (if readyTest t = true then .ready else .warm))
      ∧ ChangesOnly (.drawn :: lineParts) s t

/-- HEATER_WINDOW and SCANNER_CONVERSION (R97, R111): a window start turns each heater on for 2 × power
ms, or off at power 0; a conversion within the channel's range sets value, valid flag and age, one
outside clears the valid flag alone, and the pass position moves on, a waiting shadow list becoming
active at the end of the pass. PICTURE_INTERVAL (R180, R181) and LINE_CLOCK (R165): the picture shows
every field of its layout as it stands, its count two higher, so an even count stays even; a
zone shows the reading value of its channel, its setpoint, power and state at the expiry (log 46);
unread notices raise the NOTICE cause again; a millisecond adds one to the line clock and changes
nothing else. -/
def Obligations.HeaterScannerPictureAndClock : Prop :=
  (∀ s : State,
    exec .heaterWindow s = .next { s with
      sent := [],
      heat := { s.heat with zones := s.heat.zones.map fun z =>
        if 0 < z.power then
          { z with heater := true,
                   onEnd := some (s.host.clock + BitVec.ofNat 32 (2 * z.power)) }
        else { z with heater := false, onEnd := none } } }
    ∧ (∀ (raw : Half) (c : Fin 10), s.heat.scan[s.heat.pass]? = some c →
      exec (.scannerConversion raw) s = .next { s with
        sent := [],
        heat := { s.heat with
          readings := s.heat.readings.set c
            (if raw.toNat ≤ (if c.val < 8 then 2500 else 1500) then
              { value := raw.toNat, valid := true, age := 0 }
            else { s.heat.readings[c] with valid := false }),
          pass := if s.heat.pass + 1 < s.heat.scan.length then s.heat.pass + 1 else 0,
          scan := if s.heat.pass + 1 < s.heat.scan.length then s.heat.scan
            else s.heat.shadow.getD s.heat.scan,
          shadow := if s.heat.pass + 1 < s.heat.scan.length then s.heat.shadow else none } }))
  ∧ (∀ s : State,
    exec .lineClock s = .next { s with
      sent := [], host := { s.host with clock := s.host.clock + 1 } }
    ∧ (Memory.wf s.mem = true → ∃ t, exec .pictureInterval s = .next t
      ∧ Memory.word t.mem 0x400 = Memory.word s.mem 0x400 + 2
      ∧ Memory.get t.mem 0x404 = natByte s.line.state.code
      ∧ Memory.get t.mem 0x405 = natByte s.line.auth.code
      ∧ Memory.get t.mem 0x406 = natByte s.line.speedClass.val
      ∧ Memory.get t.mem 0x407 = boolByte s.line.classLock
      ∧ Memory.get t.mem 0x408 = natByte s.dose.wrap.code
      ∧ Memory.get t.mem 0x409 = natByte s.walker.state.code
      ∧ Memory.half t.mem 0x40A = BitVec.ofNat 16 s.walker.outstanding
      ∧ Memory.half t.mem 0x40C = BitVec.ofNat 16 s.dose.sTarget
      ∧ Memory.half t.mem 0x40E = BitVec.ofNat 16 s.dose.sCmd
      ∧ Memory.word t.mem 0x410 = s.pos.s - s.pos.u - 60000
      ∧ (∀ a : Alarm, (Memory.word t.mem 0x414).getLsbD (a.number - 1) = latched s a)
      ∧ Memory.half t.mem 0x418 = BitVec.ofInt 16 s.reg.target
      ∧ Memory.half t.mem 0x41A = BitVec.ofInt 16 s.reg.position
      ∧ Memory.get t.mem 0x41C = boolByte s.line.heat
      ∧ (∀ k : Fin 8,
        Memory.half t.mem (0x420 + 8 * k.val) = BitVec.ofNat 16
            (zoneReading s k).value
        ∧ Memory.half t.mem (0x422 + 8 * k.val) = BitVec.ofInt 16
            ((s.heat.base : Int) + s.heat.offsets[k])
        ∧ Memory.half t.mem (0x424 + 8 * k.val) = BitVec.ofNat 16 s.heat.zones[k].power
        ∧ Memory.get t.mem (0x426 + 8 * k.val) = natByte s.heat.zones[k].state.code
        ∧ Memory.get t.mem (0x427 + 8 * k.val) = 0)
      ∧ (∀ z : Fin 4,
        Memory.half t.mem (0x460 + 6 * z.val) = BitVec.ofNat 16 s.tens.zones[z].measured
        ∧ Memory.half t.mem (0x462 + 6 * z.val) = BitVec.ofNat 16 s.tens.zones[z].working
        ∧ Memory.half t.mem (0x464 + 6 * z.val) = BitVec.ofInt 16 s.tens.zones[z].trim)
      ∧ (∀ k : Fin 16, Memory.get t.mem (0x478 + k.val) = s.host.nipName[k])
      ∧ (∀ at_ st, (at_, st) ∈ [ (0x488, PanelState.printing), (0x48A, .onPaper), (0x48C, .staged),
          (0x48E, .onFabric), (0x490, .finished), (0x492, .void) ] →
        Memory.half t.mem at_ = BitVec.ofNat 16 (s.ord.panels.countP fun p => p.state == st))
      ∧ causeSet t .notice = (causeSet s .notice || (s.host.written != noticesRead s))
      ∧ (∀ c, c ≠ Cause.notice → causeSet t c = causeSet s c)
      ∧ t.host = { s.host with causes := t.host.causes } ∧ t.sent = []
      ∧ BytesKept (fun a => 0x400 ≤ a ∧ a < 0x494) s t ∧ ChangesOnly [.mem, .host, .sent] s t))

/-- TENSION_SAMPLE (R135, R137 to R140, R147): each zone's target is 0 before START and in COLD, else
its setpoint; its working setpoint moves toward it by at most the ramp step and never passes it, and
ramp-done says whether they are equal. A zone in mode BOTH with healthy cells measures L + R, one in
LEFT_ONLY or RIGHT_ONLY twice its healthy cell with skew 0, and the regulator forms integral and trim.
An auto-zero counts its pace; its paced sample moves the zero of the cell in work one step toward the
raw value, or goes on to the next cell, or finishes the ticket: OK when the last cell is done,
TRIM_FAILED with the saved zeros after 512 steps or where the zero would leave −4096..+4096 (R147,
R148). A cell of the auto-zero that becomes lost ends it TRIM_FAILED with the saved zeros and reason
LOST (R136, R148; of two cells L is named, log 44). The four zones are decided from the state at the
expiry, also after a zone that raises a HALT or HOLD cause (the model's choice, log 16). -/
def Obligations.TensionSample : Prop :=
  ∀ (s : State) (raws : Fin 4 → RawPair) (step : Nat → Nat → Nat → Nat),
    (∀ w g d, step w g d = if w ≤ g then min g (w + d) else max g (w - d)) →
    ∃ t, exec (.tensionSample (raws 0) (raws 1) (raws 2) (raws 3)) s = .next t
      ∧ t.tens.nip = s.tens.nip
      ∧ t.tens.heldFabric = (if s.heat.readings[(8 : Fin 10)].valid = true
          ∧ s.heat.readings[(8 : Fin 10)].age ≤ 20 then s.heat.readings[(8 : Fin 10)].value
          else s.tens.heldFabric)
      ∧ t.tens.heldPaper = (if s.heat.readings[(9 : Fin 10)].valid = true
          ∧ s.heat.readings[(9 : Fin 10)].age ≤ 20 then s.heat.readings[(9 : Fin 10)].value
          else s.tens.heldPaper)
      ∧ (∀ z : Fin 4,
        (started s = false ∨ s.line.state = .cold → t.tens.zones[z].target = 0)
        ∧ (started s = true → s.line.state ≠ .cold →
          (s.tens.nip = none → t.tens.zones[z].target = defaultTension s z)
          ∧ (∀ n, s.tens.nip = some n →
            ((z = 0 ∨ z = 2 ∨ (z = 1 ∧ n.fabricOut = none) ∨ (z = 3 ∧ n.paperOut = none)) →
              t.tens.zones[z].target = n.setpoints[z])
            ∧ (∀ (tp : Taper) (held : Nat), (z = 1 ∧ n.fabricOut = some tp ∧ held = t.tens.heldFabric)
                ∨ (z = 3 ∧ n.paperOut = some tp ∧ held = t.tens.heldPaper) → tp.dc ≤ tp.df →
              t.tens.zones[z].target = n.setpoints[z] *
                (1000 - tp.taper * (max tp.dc (min tp.df held) - tp.dc) / (tp.df - tp.dc)) / 1000)))
        ∧ t.tens.zones[z].working = (if s.line.state = .cold then s.tens.zones[z].working
          else step s.tens.zones[z].working t.tens.zones[z].target s.tens.zones[z].rampStep)
        ∧ (t.tens.zones[z].rampDone = true ↔ t.tens.zones[z].working = t.tens.zones[z].target)
        ∧ (s.tens.zones[z].auto = none → ∀ (L R : Prop) (vl vr m d err : Int),
            (L ↔ s.tens.zones[z].l.lost = false ∧ 1 ≤ (raws z).l.toNat ∧ (raws z).l.toNat ≤ 32766) →
            (R ↔ s.tens.zones[z].r.lost = false ∧ 1 ≤ (raws z).r.toNat ∧ (raws z).r.toNat ≤ 32766) →
            vl = max 0 (min 20000
              ((((raws z).l.toNat - s.tens.zones[z].l.zero) * s.tens.zones[z].l.gain).tdiv 1024)) →
            vr = max 0 (min 20000
              ((((raws z).r.toNat - s.tens.zones[z].r.zero) * s.tens.zones[z].r.gain).tdiv 1024)) →
            (s.tens.zones[z].mix = .both ∧ L ∧ R ∧ m = vl + vr ∧ d = vl - vr)
              ∨ (s.tens.zones[z].mix = .leftOnly ∧ L ∧ m = 2 * vl ∧ d = 0)
              ∨ (s.tens.zones[z].mix = .rightOnly ∧ R ∧ m = 2 * vr ∧ d = 0) →
            err = (t.tens.zones[z].working : Int) - m →
            (t.tens.zones[z].measured : Int) = m ∧ t.tens.zones[z].skew = d
            ∧ t.tens.zones[z].lost = false
            ∧ (s.tens.zones[z].lost = false → t.tens.zones[z].integral =
              (if s.tens.zones[z].holdEnd.isSome = true ∨ (s.tens.zones[z].trim = 200 ∧ 0 < err)
                ∨ (s.tens.zones[z].trim = -200 ∧ err < 0) ∨ s.dose.sCmd = 0 then
                s.tens.zones[z].integral
              else max (-200) (min 200
                (s.tens.zones[z].integral + (s.tens.zones[z].ki * err).tdiv 4096))))
            ∧ t.tens.zones[z].trim = (if s.dose.sCmd = 0 then 0 else max (-200) (min 200
                ((s.tens.zones[z].kp * err).tdiv 256 + t.tens.zones[z].integral)))))
      ∧ (∀ (z : Fin 4) (a : AutoZero) (sd : Side), s.tens.zones[z].auto = some a →
        (∀ y : Fin 4, y ≠ z → s.tens.zones[y].auto = none) →
        sd ∈ a.cells → (s.tens.zones[z].cell sd).lost = false → (t.tens.zones[z].cell sd).lost = true →
        (sd = .right → Side.left ∈ a.cells → t.tens.zones[z].l.lost = true →
          s.tens.zones[z].l.lost = true) →
        t.tens.zones[z].auto = none ∧ t.tens.zones[z].l.zero = a.savedL
        ∧ t.tens.zones[z].r.zero = a.savedR
        ∧ (Memory.wf s.mem = true → 1 ≤ a.ticket → a.ticket ≤ 256 →
          TicketShows a.ticket .trimFailed 0 s t
          ∧ AutoResult a.ticket a.savedL a.savedR 3 (if sd = .left then 0 else 1) t))
      ∧ (∀ (z : Fin 4) (a : AutoZero) (offset : Side → Int) (done : Prop) (moved : Int),
        s.tens.zones[z].auto = some a → (∀ y : Fin 4, y ≠ z → s.tens.zones[y].auto = none) →
        s.line.state = .cold ∨ s.line.state = .thread → t.line.state = s.line.state →
        (∀ sd ∈ a.cells, (t.tens.zones[z].cell sd).lost = true →
          (s.tens.zones[z].cell sd).lost = true) →
        offset .left = ((raws z).l.toNat : Int) - s.tens.zones[z].l.zero →
        offset .right = ((raws z).r.toNat : Int) - s.tens.zones[z].r.zero →
        (done ↔ (a.mode = .cross ∧ (offset a.work = 0 ∨ (offset a.work).sign ≠ a.sign))
          ∨ (a.mode = .meet ∧ (offset a.work).natAbs < a.step)) →
        moved = (s.tens.zones[z].cell a.work).zero
          + (if 0 < offset a.work then (a.step : Int) else -(a.step : Int)) →
        (a.paceCount + 1 < a.pace →
          t.tens.zones[z].auto = some { a with paceCount := a.paceCount + 1 }
          ∧ ∀ sd, (t.tens.zones[z].cell sd).zero = (s.tens.zones[z].cell sd).zero)
        ∧ (a.pace ≤ a.paceCount + 1 →
          (done → a.work = .left → Side.right ∈ a.cells → t.tens.zones[z].auto = some { a with
              work := .right, steps := 0, paceCount := 0, sign := (offset .right).sign }
            ∧ ∀ sd, (t.tens.zones[z].cell sd).zero = (s.tens.zones[z].cell sd).zero)
          ∧ (done → ¬ (a.work = .left ∧ Side.right ∈ a.cells) → t.tens.zones[z].auto = none
            ∧ (∀ sd, (t.tens.zones[z].cell sd).zero = (s.tens.zones[z].cell sd).zero)
            ∧ (Memory.wf s.mem = true → 1 ≤ a.ticket → a.ticket ≤ 256 →
              TicketShows a.ticket .ok (natWord a.total) s t))
          ∧ (¬ done → a.steps < 512 → -4096 ≤ moved → moved ≤ 4096 →
            t.tens.zones[z].auto = some { a with
              steps := a.steps + 1, paceCount := 0, total := a.total + 1 }
            ∧ (t.tens.zones[z].cell a.work).zero = moved
            ∧ ∀ sd, sd ≠ a.work →
              (t.tens.zones[z].cell sd).zero = (s.tens.zones[z].cell sd).zero)
          ∧ (¬ done → 512 ≤ a.steps ∨ moved < -4096 ∨ 4096 < moved → t.tens.zones[z].auto = none
            ∧ t.tens.zones[z].l.zero = a.savedL ∧ t.tens.zones[z].r.zero = a.savedR
            ∧ (Memory.wf s.mem = true → 1 ≤ a.ticket → a.ticket ≤ 256 →
              TicketShows a.ticket .trimFailed 0 s t
              ∧ ticketByte t a.ticket 0x84 = (if 512 ≤ a.steps then 1 else 2)))))
      ∧ ChangesOnly lineParts s t ∧ LogAndTicketsOnly s t

/-- TENSION_SAMPLE at the guards (R136, R141, R142). A cell's run count rises while its raw value
speaks against its lost flag, and the tenth such sample turns the flag; a zone is LOST exactly while
both cells are, with measurement, regulator and counts 0, and a zone that loses one cell goes to the
mode of the other. The break count rises in READY, RUN and HOLD while the measurement is below an
eighth of the working setpoint, and at 50 WEB_BREAK takes the line to HALT; the skew count rises after
START in mode BOTH while the skew is beyond the limit, and at 100 SKEW is raised. LOAD_CELL_LOST,
ZONE_LOST and SKEW end with the last cell or zone that holds them. The four zones are decided from the
state at the expiry, before any of these raises acts (the model's choice, log 16). -/
def Obligations.TensionAlarms : Prop :=
  ∀ (s : State) (raws : Fin 4 → RawPair) (turns : LoadCell → Nat → Bool),
    (∀ c raw, turns c raw = true ↔ (c.lost = false ∧ (raw = 0 ∨ raw = 32767))
      ∨ (c.lost = true ∧ raw ≠ 0 ∧ raw ≠ 32767)) →
    ∃ t, exec (.tensionSample (raws 0) (raws 1) (raws 2) (raws 3)) s = .next t
      ∧ (∀ z : Fin 4,
        (∀ (sd : Side) (c d : LoadCell) (raw : Nat), c = s.tens.zones[z].cell sd →
          d = t.tens.zones[z].cell sd →
          raw = (if sd = .left then (raws z).l.toNat else (raws z).r.toNat) →
          d.raw = raw ∧ d.gain = c.gain
          ∧ (turns c raw = false → d.run = 0 ∧ d.lost = c.lost)
          ∧ (turns c raw = true → c.run < 9 → d.run = c.run + 1 ∧ d.lost = c.lost)
          ∧ (turns c raw = true → 9 ≤ c.run → d.run = 0 ∧ d.lost = !c.lost))
        ∧ t.tens.zones[z].lost = (t.tens.zones[z].l.lost && t.tens.zones[z].r.lost)
        ∧ (t.tens.zones[z].lost = true → t.tens.zones[z].measured = 0 ∧ t.tens.zones[z].skew = 0
          ∧ t.tens.zones[z].integral = 0 ∧ t.tens.zones[z].trim = 0
          ∧ t.tens.zones[z].breakCount = 0 ∧ t.tens.zones[z].skewCount = 0)
        ∧ t.tens.zones[z].mix =
          (if t.tens.zones[z].l.lost = true ∧ t.tens.zones[z].r.lost = false then .rightOnly
          else if t.tens.zones[z].r.lost = true ∧ t.tens.zones[z].l.lost = false then .leftOnly
          else s.tens.zones[z].mix)
        ∧ (t.tens.zones[z].lost = false → t.line.state ≠ .halt →
          (s.line.state = .run ∨ s.line.state = .hold ∨ (s.line.state = .ready ∧ t.line.state = .ready
            ∧ ∀ y : Fin 4, t.tens.zones[y].lost = false)) →
          t.tens.zones[z].breakCount =
            if t.tens.zones[z].measured < t.tens.zones[z].working / 8 then
              min 50 (s.tens.zones[z].breakCount + 1) else 0)
        ∧ (t.tens.zones[z].lost = false → t.line.state ≠ .halt →
          (s.line.state = .cold ∨ s.line.state = .thread ∨ s.line.state = .warm) →
          t.tens.zones[z].breakCount = s.tens.zones[z].breakCount)
        ∧ (t.tens.zones[z].lost = false → (s.line.state = .run ∨ s.line.state = .hold
            ∨ (s.line.state = .ready ∧ ∀ y : Fin 4, t.tens.zones[y].lost = false)) →
          t.tens.zones[z].measured < t.tens.zones[z].working / 8 → 49 ≤ s.tens.zones[z].breakCount →
          latched t .webBreak = true
          ∧ (alarmRec s .webBreak ≠ ⟨true, true⟩ → t.line.state = .halt
            ∧ conditionActive t .webBreak = false))
        ∧ t.tens.zones[z].skewCount =
          (if started s = true ∧ t.tens.zones[z].lost = false ∧ t.tens.zones[z].mix = .both
              ∧ skewLimit s < t.tens.zones[z].skew.natAbs then
            min 100 (s.tens.zones[z].skewCount + 1) else 0)
        ∧ (∀ sd, (s.tens.zones[z].cell sd).lost = false → (t.tens.zones[z].cell sd).lost = true →
          alarmRec t .loadCellLost = ⟨true, true⟩)
        ∧ (t.tens.zones[z].lost = true → alarmRec t .zoneLost = ⟨true, true⟩
          ∧ (alarmRec s .zoneLost ≠ ⟨true, true⟩ → t.line.state ≠ .run))
        ∧ (t.tens.zones[z].skewCount = 100 → alarmRec t .skew = ⟨true, true⟩))
      ∧ ((∀ z : Fin 4, t.tens.zones[z].l.lost = false ∧ t.tens.zones[z].r.lost = false) →
        conditionActive t .loadCellLost = false)
      ∧ ((∀ z : Fin 4, t.tens.zones[z].lost = false) → conditionActive t .zoneLost = false)
      ∧ ((∀ z : Fin 4, t.tens.zones[z].skewCount ≠ 100) → conditionActive t .skew = false)
      ∧ ((∀ z : Fin 4, t.tens.zones[z].breakCount ≠ 50) → conditionActive t .webBreak = false)

end Statements
end

