-- ==== Sys2Proof/Laws/Frames.lean ====
section
/-! SUPPORT. Frames: for each operation, one lemma that lists every field of the state the operation
never writes. The lemmas are simp lemmas, so a proof about an untouched field of a command's next
state needs no unfolding. -/

set_option linter.unusedTactic false
set_option linter.unreachableTactic false
set_option linter.unusedSimpArgs false

namespace Sys2Proof.Machine

/-! ## Folds over a list -/

@[simp] theorem foldl_mem {α : Type} (f : State → α → State) (h : ∀ s a, (f s a).mem = s.mem)
    (l : List α) (s : State) : (l.foldl f s).mem = s.mem := by
  induction l generalizing s with
  | nil => rfl
  | cons a l ih => rw [List.foldl_cons, ih, h]

@[simp] theorem foldl_line {α : Type} (f : State → α → State) (h : ∀ s a, (f s a).line = s.line)
    (l : List α) (s : State) : (l.foldl f s).line = s.line := by
  induction l generalizing s with
  | nil => rfl
  | cons a l ih => rw [List.foldl_cons, ih, h]

@[simp] theorem foldl_lib {α : Type} (f : State → α → State) (h : ∀ s a, (f s a).lib = s.lib)
    (l : List α) (s : State) : (l.foldl f s).lib = s.lib := by
  induction l generalizing s with
  | nil => rfl
  | cons a l ih => rw [List.foldl_cons, ih, h]

@[simp] theorem foldl_pos {α : Type} (f : State → α → State) (h : ∀ s a, (f s a).pos = s.pos)
    (l : List α) (s : State) : (l.foldl f s).pos = s.pos := by
  induction l generalizing s with
  | nil => rfl
  | cons a l ih => rw [List.foldl_cons, ih, h]

@[simp] theorem foldl_trig {α : Type} (f : State → α → State) (h : ∀ s a, (f s a).trig = s.trig)
    (l : List α) (s : State) : (l.foldl f s).trig = s.trig := by
  induction l generalizing s with
  | nil => rfl
  | cons a l ih => rw [List.foldl_cons, ih, h]

@[simp] theorem foldl_ord {α : Type} (f : State → α → State) (h : ∀ s a, (f s a).ord = s.ord)
    (l : List α) (s : State) : (l.foldl f s).ord = s.ord := by
  induction l generalizing s with
  | nil => rfl
  | cons a l ih => rw [List.foldl_cons, ih, h]

@[simp] theorem foldl_reg {α : Type} (f : State → α → State) (h : ∀ s a, (f s a).reg = s.reg)
    (l : List α) (s : State) : (l.foldl f s).reg = s.reg := by
  induction l generalizing s with
  | nil => rfl
  | cons a l ih => rw [List.foldl_cons, ih, h]

@[simp] theorem foldl_heat {α : Type} (f : State → α → State) (h : ∀ s a, (f s a).heat = s.heat)
    (l : List α) (s : State) : (l.foldl f s).heat = s.heat := by
  induction l generalizing s with
  | nil => rfl
  | cons a l ih => rw [List.foldl_cons, ih, h]

@[simp] theorem foldl_dose {α : Type} (f : State → α → State) (h : ∀ s a, (f s a).dose = s.dose)
    (l : List α) (s : State) : (l.foldl f s).dose = s.dose := by
  induction l generalizing s with
  | nil => rfl
  | cons a l ih => rw [List.foldl_cons, ih, h]

@[simp] theorem foldl_tens {α : Type} (f : State → α → State) (h : ∀ s a, (f s a).tens = s.tens)
    (l : List α) (s : State) : (l.foldl f s).tens = s.tens := by
  induction l generalizing s with
  | nil => rfl
  | cons a l ih => rw [List.foldl_cons, ih, h]

@[simp] theorem foldl_lastReading {α : Type} (f : State → α → State) (h : ∀ s a, (f s a).lastReading = s.lastReading)
    (l : List α) (s : State) : (l.foldl f s).lastReading = s.lastReading := by
  induction l generalizing s with
  | nil => rfl
  | cons a l ih => rw [List.foldl_cons, ih, h]

@[simp] theorem foldl_walker {α : Type} (f : State → α → State) (h : ∀ s a, (f s a).walker = s.walker)
    (l : List α) (s : State) : (l.foldl f s).walker = s.walker := by
  induction l generalizing s with
  | nil => rfl
  | cons a l ih => rw [List.foldl_cons, ih, h]

@[simp] theorem foldl_host {α : Type} (f : State → α → State) (h : ∀ s a, (f s a).host = s.host)
    (l : List α) (s : State) : (l.foldl f s).host = s.host := by
  induction l generalizing s with
  | nil => rfl
  | cons a l ih => rw [List.foldl_cons, ih, h]

@[simp] theorem foldl_sent {α : Type} (f : State → α → State) (h : ∀ s a, (f s a).sent = s.sent)
    (l : List α) (s : State) : (l.foldl f s).sent = s.sent := by
  induction l generalizing s with
  | nil => rfl
  | cons a l ih => rw [List.foldl_cons, ih, h]

@[simp] theorem foldl_drawn {α : Type} (f : State → α → State) (h : ∀ s a, (f s a).drawn = s.drawn)
    (l : List α) (s : State) : (l.foldl f s).drawn = s.drawn := by
  induction l generalizing s with
  | nil => rfl
  | cons a l ih => rw [List.foldl_cons, ih, h]

@[simp] theorem foldl_pending {α : Type} (f : State → α → State) (h : ∀ s a, (f s a).pending = s.pending)
    (l : List α) (s : State) : (l.foldl f s).pending = s.pending := by
  induction l generalizing s with
  | nil => rfl
  | cons a l ih => rw [List.foldl_cons, ih, h]

@[simp] theorem putBytes_keeps (a : Nat) (bs : List Byte) (s : State) :
    (putBytes a bs s).line = s.line ∧
    (putBytes a bs s).lib = s.lib ∧
    (putBytes a bs s).pos = s.pos ∧
    (putBytes a bs s).trig = s.trig ∧
    (putBytes a bs s).ord = s.ord ∧
    (putBytes a bs s).reg = s.reg ∧
    (putBytes a bs s).heat = s.heat ∧
    (putBytes a bs s).dose = s.dose ∧
    (putBytes a bs s).tens = s.tens ∧
    (putBytes a bs s).lastReading = s.lastReading ∧
    (putBytes a bs s).walker = s.walker ∧
    (putBytes a bs s).host = s.host ∧
    (putBytes a bs s).sent = s.sent ∧
    (putBytes a bs s).drawn = s.drawn ∧
    (putBytes a bs s).pending = s.pending := by
  and_intros <;> rfl

/-! ## Operations of Ops -/

@[simp] theorem raiseCause_keeps (c : Cause) (s : State) :
    (raiseCause c s).mem = s.mem ∧
    (raiseCause c s).line = s.line ∧
    (raiseCause c s).lib = s.lib ∧
    (raiseCause c s).pos = s.pos ∧
    (raiseCause c s).trig = s.trig ∧
    (raiseCause c s).ord = s.ord ∧
    (raiseCause c s).reg = s.reg ∧
    (raiseCause c s).heat = s.heat ∧
    (raiseCause c s).dose = s.dose ∧
    (raiseCause c s).tens = s.tens ∧
    (raiseCause c s).lastReading = s.lastReading ∧
    (raiseCause c s).walker = s.walker ∧
    (raiseCause c s).sent = s.sent ∧
    (raiseCause c s).drawn = s.drawn ∧
    (raiseCause c s).pending = s.pending := by
  and_intros <;> unfold raiseCause <;> (try dsimp only) <;> (repeat' split) <;> first | with_reducible rfl | simp

@[simp] theorem countNotice_keeps (s : State) :
    (countNotice s).mem = s.mem ∧
    (countNotice s).line = s.line ∧
    (countNotice s).lib = s.lib ∧
    (countNotice s).pos = s.pos ∧
    (countNotice s).trig = s.trig ∧
    (countNotice s).ord = s.ord ∧
    (countNotice s).reg = s.reg ∧
    (countNotice s).heat = s.heat ∧
    (countNotice s).dose = s.dose ∧
    (countNotice s).tens = s.tens ∧
    (countNotice s).lastReading = s.lastReading ∧
    (countNotice s).walker = s.walker ∧
    (countNotice s).sent = s.sent ∧
    (countNotice s).drawn = s.drawn ∧
    (countNotice s).pending = s.pending := by
  and_intros <;> unfold countNotice <;> (try dsimp only) <;> (repeat' split) <;> first | with_reducible rfl | simp

@[simp] theorem writeNotice_keeps (k : NoticeKind) (d1 d2 d3 : Word) (s : State) :
    (writeNotice k d1 d2 d3 s).line = s.line ∧
    (writeNotice k d1 d2 d3 s).lib = s.lib ∧
    (writeNotice k d1 d2 d3 s).pos = s.pos ∧
    (writeNotice k d1 d2 d3 s).trig = s.trig ∧
    (writeNotice k d1 d2 d3 s).ord = s.ord ∧
    (writeNotice k d1 d2 d3 s).reg = s.reg ∧
    (writeNotice k d1 d2 d3 s).heat = s.heat ∧
    (writeNotice k d1 d2 d3 s).dose = s.dose ∧
    (writeNotice k d1 d2 d3 s).tens = s.tens ∧
    (writeNotice k d1 d2 d3 s).lastReading = s.lastReading ∧
    (writeNotice k d1 d2 d3 s).walker = s.walker ∧
    (writeNotice k d1 d2 d3 s).sent = s.sent ∧
    (writeNotice k d1 d2 d3 s).drawn = s.drawn ∧
    (writeNotice k d1 d2 d3 s).pending = s.pending := by
  and_intros <;> unfold writeNotice <;> (try dsimp only) <;> (repeat' split) <;> first | with_reducible rfl | simp

@[simp] theorem send_keeps (m : Message) (s : State) :
    (send m s).mem = s.mem ∧
    (send m s).line = s.line ∧
    (send m s).lib = s.lib ∧
    (send m s).pos = s.pos ∧
    (send m s).trig = s.trig ∧
    (send m s).ord = s.ord ∧
    (send m s).reg = s.reg ∧
    (send m s).heat = s.heat ∧
    (send m s).dose = s.dose ∧
    (send m s).tens = s.tens ∧
    (send m s).lastReading = s.lastReading ∧
    (send m s).walker = s.walker ∧
    (send m s).host = s.host ∧
    (send m s).drawn = s.drawn ∧
    (send m s).pending = s.pending := by
  and_intros <;> unfold send <;> (try dsimp only) <;> (repeat' split) <;> first | with_reducible rfl | simp

@[simp] theorem setAlarm_keeps (a : Alarm) (r : AlarmRec) (s : State) :
    (setAlarm a r s).mem = s.mem ∧
    (setAlarm a r s).lib = s.lib ∧
    (setAlarm a r s).pos = s.pos ∧
    (setAlarm a r s).trig = s.trig ∧
    (setAlarm a r s).ord = s.ord ∧
    (setAlarm a r s).reg = s.reg ∧
    (setAlarm a r s).heat = s.heat ∧
    (setAlarm a r s).dose = s.dose ∧
    (setAlarm a r s).tens = s.tens ∧
    (setAlarm a r s).lastReading = s.lastReading ∧
    (setAlarm a r s).walker = s.walker ∧
    (setAlarm a r s).host = s.host ∧
    (setAlarm a r s).sent = s.sent ∧
    (setAlarm a r s).drawn = s.drawn ∧
    (setAlarm a r s).pending = s.pending := by
  and_intros <;> unfold setAlarm <;> (try dsimp only) <;> (repeat' split) <;> first | with_reducible rfl | simp

@[simp] theorem endCondition_keeps (a : Alarm) (s : State) :
    (endCondition a s).mem = s.mem ∧
    (endCondition a s).lib = s.lib ∧
    (endCondition a s).pos = s.pos ∧
    (endCondition a s).trig = s.trig ∧
    (endCondition a s).ord = s.ord ∧
    (endCondition a s).reg = s.reg ∧
    (endCondition a s).heat = s.heat ∧
    (endCondition a s).dose = s.dose ∧
    (endCondition a s).tens = s.tens ∧
    (endCondition a s).lastReading = s.lastReading ∧
    (endCondition a s).walker = s.walker ∧
    (endCondition a s).host = s.host ∧
    (endCondition a s).sent = s.sent ∧
    (endCondition a s).drawn = s.drawn ∧
    (endCondition a s).pending = s.pending := by
  and_intros <;> unfold endCondition <;> (try dsimp only) <;> (repeat' split) <;> first | with_reducible rfl | simp

@[simp] theorem removeLatch_keeps (how : Word) (a : Alarm) (s : State) :
    (removeLatch how a s).lib = s.lib ∧
    (removeLatch how a s).pos = s.pos ∧
    (removeLatch how a s).trig = s.trig ∧
    (removeLatch how a s).ord = s.ord ∧
    (removeLatch how a s).reg = s.reg ∧
    (removeLatch how a s).heat = s.heat ∧
    (removeLatch how a s).dose = s.dose ∧
    (removeLatch how a s).tens = s.tens ∧
    (removeLatch how a s).lastReading = s.lastReading ∧
    (removeLatch how a s).walker = s.walker ∧
    (removeLatch how a s).sent = s.sent ∧
    (removeLatch how a s).drawn = s.drawn ∧
    (removeLatch how a s).pending = s.pending := by
  and_intros <;> unfold removeLatch <;> (try dsimp only) <;> (repeat' split) <;> first | with_reducible rfl | simp

@[simp] theorem lightLocked_keeps (s : State) :
    (lightLocked s).mem = s.mem ∧
    (lightLocked s).lib = s.lib ∧
    (lightLocked s).pos = s.pos ∧
    (lightLocked s).trig = s.trig ∧
    (lightLocked s).ord = s.ord ∧
    (lightLocked s).reg = s.reg ∧
    (lightLocked s).heat = s.heat ∧
    (lightLocked s).dose = s.dose ∧
    (lightLocked s).tens = s.tens ∧
    (lightLocked s).lastReading = s.lastReading ∧
    (lightLocked s).walker = s.walker ∧
    (lightLocked s).host = s.host ∧
    (lightLocked s).sent = s.sent ∧
    (lightLocked s).drawn = s.drawn ∧
    (lightLocked s).pending = s.pending := by
  and_intros <;> unfold lightLocked <;> (try dsimp only) <;> (repeat' split) <;> first | with_reducible rfl | simp

@[simp] theorem updSlot_keeps (i : Fin 16) (f : Slot → Slot) (s : State) :
    (updSlot i f s).mem = s.mem ∧
    (updSlot i f s).line = s.line ∧
    (updSlot i f s).pos = s.pos ∧
    (updSlot i f s).trig = s.trig ∧
    (updSlot i f s).ord = s.ord ∧
    (updSlot i f s).reg = s.reg ∧
    (updSlot i f s).heat = s.heat ∧
    (updSlot i f s).dose = s.dose ∧
    (updSlot i f s).tens = s.tens ∧
    (updSlot i f s).lastReading = s.lastReading ∧
    (updSlot i f s).walker = s.walker ∧
    (updSlot i f s).host = s.host ∧
    (updSlot i f s).sent = s.sent ∧
    (updSlot i f s).drawn = s.drawn ∧
    (updSlot i f s).pending = s.pending := by
  and_intros <;> unfold updSlot <;> (try dsimp only) <;> (repeat' split) <;> first | with_reducible rfl | simp

@[simp] theorem useSlot_keeps (i : Fin 16) (s : State) :
    (useSlot i s).mem = s.mem ∧
    (useSlot i s).line = s.line ∧
    (useSlot i s).pos = s.pos ∧
    (useSlot i s).trig = s.trig ∧
    (useSlot i s).ord = s.ord ∧
    (useSlot i s).reg = s.reg ∧
    (useSlot i s).heat = s.heat ∧
    (useSlot i s).dose = s.dose ∧
    (useSlot i s).tens = s.tens ∧
    (useSlot i s).lastReading = s.lastReading ∧
    (useSlot i s).walker = s.walker ∧
    (useSlot i s).host = s.host ∧
    (useSlot i s).sent = s.sent ∧
    (useSlot i s).drawn = s.drawn ∧
    (useSlot i s).pending = s.pending := by
  and_intros <;> unfold useSlot <;> (try dsimp only) <;> (repeat' split) <;> first | with_reducible rfl | simp

@[simp] theorem releaseSlot_keeps (i : Fin 16) (s : State) :
    (releaseSlot i s).mem = s.mem ∧
    (releaseSlot i s).line = s.line ∧
    (releaseSlot i s).pos = s.pos ∧
    (releaseSlot i s).trig = s.trig ∧
    (releaseSlot i s).ord = s.ord ∧
    (releaseSlot i s).reg = s.reg ∧
    (releaseSlot i s).heat = s.heat ∧
    (releaseSlot i s).dose = s.dose ∧
    (releaseSlot i s).tens = s.tens ∧
    (releaseSlot i s).lastReading = s.lastReading ∧
    (releaseSlot i s).walker = s.walker ∧
    (releaseSlot i s).host = s.host ∧
    (releaseSlot i s).sent = s.sent ∧
    (releaseSlot i s).drawn = s.drawn ∧
    (releaseSlot i s).pending = s.pending := by
  and_intros <;> unfold releaseSlot <;> (try dsimp only) <;> (repeat' split) <;> first | with_reducible rfl | simp

@[simp] theorem setTrim_keeps (i : Fin 16) (t : Int) (s : State) :
    (setTrim i t s).mem = s.mem ∧
    (setTrim i t s).line = s.line ∧
    (setTrim i t s).pos = s.pos ∧
    (setTrim i t s).trig = s.trig ∧
    (setTrim i t s).ord = s.ord ∧
    (setTrim i t s).reg = s.reg ∧
    (setTrim i t s).heat = s.heat ∧
    (setTrim i t s).dose = s.dose ∧
    (setTrim i t s).tens = s.tens ∧
    (setTrim i t s).lastReading = s.lastReading ∧
    (setTrim i t s).walker = s.walker ∧
    (setTrim i t s).host = s.host ∧
    (setTrim i t s).sent = s.sent ∧
    (setTrim i t s).drawn = s.drawn ∧
    (setTrim i t s).pending = s.pending := by
  and_intros <;> unfold setTrim <;> (try dsimp only) <;> (repeat' split) <;> first | with_reducible rfl | simp

@[simp] theorem mapPanels_keeps (f : Panel → Panel) (s : State) :
    (mapPanels f s).mem = s.mem ∧
    (mapPanels f s).line = s.line ∧
    (mapPanels f s).lib = s.lib ∧
    (mapPanels f s).pos = s.pos ∧
    (mapPanels f s).trig = s.trig ∧
    (mapPanels f s).reg = s.reg ∧
    (mapPanels f s).heat = s.heat ∧
    (mapPanels f s).dose = s.dose ∧
    (mapPanels f s).tens = s.tens ∧
    (mapPanels f s).lastReading = s.lastReading ∧
    (mapPanels f s).walker = s.walker ∧
    (mapPanels f s).host = s.host ∧
    (mapPanels f s).sent = s.sent ∧
    (mapPanels f s).drawn = s.drawn ∧
    (mapPanels f s).pending = s.pending := by
  and_intros <;> unfold mapPanels <;> (try dsimp only) <;> (repeat' split) <;> first | with_reducible rfl | simp

@[simp] theorem updPanel_keeps (n : Half) (f : Panel → Panel) (s : State) :
    (updPanel n f s).mem = s.mem ∧
    (updPanel n f s).line = s.line ∧
    (updPanel n f s).lib = s.lib ∧
    (updPanel n f s).pos = s.pos ∧
    (updPanel n f s).trig = s.trig ∧
    (updPanel n f s).reg = s.reg ∧
    (updPanel n f s).heat = s.heat ∧
    (updPanel n f s).dose = s.dose ∧
    (updPanel n f s).tens = s.tens ∧
    (updPanel n f s).lastReading = s.lastReading ∧
    (updPanel n f s).walker = s.walker ∧
    (updPanel n f s).host = s.host ∧
    (updPanel n f s).sent = s.sent ∧
    (updPanel n f s).drawn = s.drawn ∧
    (updPanel n f s).pending = s.pending := by
  and_intros <;> unfold updPanel <;> (try dsimp only) <;> (repeat' split) <;> first | with_reducible rfl | simp

@[simp] theorem updOrder_keeps (t : Nat) (f : OpenOrder → OpenOrder) (s : State) :
    (updOrder t f s).mem = s.mem ∧
    (updOrder t f s).line = s.line ∧
    (updOrder t f s).lib = s.lib ∧
    (updOrder t f s).pos = s.pos ∧
    (updOrder t f s).trig = s.trig ∧
    (updOrder t f s).reg = s.reg ∧
    (updOrder t f s).heat = s.heat ∧
    (updOrder t f s).dose = s.dose ∧
    (updOrder t f s).tens = s.tens ∧
    (updOrder t f s).lastReading = s.lastReading ∧
    (updOrder t f s).walker = s.walker ∧
    (updOrder t f s).host = s.host ∧
    (updOrder t f s).sent = s.sent ∧
    (updOrder t f s).drawn = s.drawn ∧
    (updOrder t f s).pending = s.pending := by
  and_intros <;> unfold updOrder <;> (try dsimp only) <;> (repeat' split) <;> first | with_reducible rfl | simp

@[simp] theorem retire_keeps (s : State) :
    (retire s).mem = s.mem ∧
    (retire s).line = s.line ∧
    (retire s).lib = s.lib ∧
    (retire s).pos = s.pos ∧
    (retire s).trig = s.trig ∧
    (retire s).ord = s.ord ∧
    (retire s).reg = s.reg ∧
    (retire s).heat = s.heat ∧
    (retire s).dose = s.dose ∧
    (retire s).tens = s.tens ∧
    (retire s).lastReading = s.lastReading ∧
    (retire s).host = s.host ∧
    (retire s).sent = s.sent ∧
    (retire s).drawn = s.drawn ∧
    (retire s).pending = s.pending := by
  and_intros <;> unfold retire <;> (try dsimp only) <;> (repeat' split) <;> first | with_reducible rfl | simp

@[simp] theorem stallWalker_keeps (code : StallCode) (offending : Word) (s : State) :
    (stallWalker code offending s).line = s.line ∧
    (stallWalker code offending s).lib = s.lib ∧
    (stallWalker code offending s).pos = s.pos ∧
    (stallWalker code offending s).trig = s.trig ∧
    (stallWalker code offending s).ord = s.ord ∧
    (stallWalker code offending s).reg = s.reg ∧
    (stallWalker code offending s).heat = s.heat ∧
    (stallWalker code offending s).dose = s.dose ∧
    (stallWalker code offending s).tens = s.tens ∧
    (stallWalker code offending s).lastReading = s.lastReading ∧
    (stallWalker code offending s).sent = s.sent ∧
    (stallWalker code offending s).drawn = s.drawn ∧
    (stallWalker code offending s).pending = s.pending := by
  and_intros <;> unfold stallWalker <;> (try dsimp only) <;> (repeat' split) <;> first | with_reducible rfl | simp

@[simp] theorem waitWalker_keeps (kind : WaitKind) (look : Nat) (s : State) :
    (waitWalker kind look s).mem = s.mem ∧
    (waitWalker kind look s).line = s.line ∧
    (waitWalker kind look s).lib = s.lib ∧
    (waitWalker kind look s).pos = s.pos ∧
    (waitWalker kind look s).trig = s.trig ∧
    (waitWalker kind look s).ord = s.ord ∧
    (waitWalker kind look s).reg = s.reg ∧
    (waitWalker kind look s).heat = s.heat ∧
    (waitWalker kind look s).dose = s.dose ∧
    (waitWalker kind look s).tens = s.tens ∧
    (waitWalker kind look s).lastReading = s.lastReading ∧
    (waitWalker kind look s).host = s.host ∧
    (waitWalker kind look s).sent = s.sent ∧
    (waitWalker kind look s).drawn = s.drawn ∧
    (waitWalker kind look s).pending = s.pending := by
  and_intros <;> unfold waitWalker <;> (try dsimp only) <;> (repeat' split) <;> first | with_reducible rfl | simp

@[simp] theorem runWalker_keeps (look : Nat) (s : State) :
    (runWalker look s).mem = s.mem ∧
    (runWalker look s).line = s.line ∧
    (runWalker look s).lib = s.lib ∧
    (runWalker look s).pos = s.pos ∧
    (runWalker look s).trig = s.trig ∧
    (runWalker look s).ord = s.ord ∧
    (runWalker look s).reg = s.reg ∧
    (runWalker look s).heat = s.heat ∧
    (runWalker look s).dose = s.dose ∧
    (runWalker look s).tens = s.tens ∧
    (runWalker look s).lastReading = s.lastReading ∧
    (runWalker look s).host = s.host ∧
    (runWalker look s).sent = s.sent ∧
    (runWalker look s).drawn = s.drawn ∧
    (runWalker look s).pending = s.pending := by
  and_intros <;> unfold runWalker <;> (try dsimp only) <;> (repeat' split) <;> first | with_reducible rfl | simp

@[simp] theorem markFollowed_keeps (n : Nat) (s : State) :
    (markFollowed n s).mem = s.mem ∧
    (markFollowed n s).line = s.line ∧
    (markFollowed n s).lib = s.lib ∧
    (markFollowed n s).pos = s.pos ∧
    (markFollowed n s).trig = s.trig ∧
    (markFollowed n s).ord = s.ord ∧
    (markFollowed n s).reg = s.reg ∧
    (markFollowed n s).heat = s.heat ∧
    (markFollowed n s).dose = s.dose ∧
    (markFollowed n s).tens = s.tens ∧
    (markFollowed n s).lastReading = s.lastReading ∧
    (markFollowed n s).host = s.host ∧
    (markFollowed n s).sent = s.sent ∧
    (markFollowed n s).drawn = s.drawn ∧
    (markFollowed n s).pending = s.pending := by
  and_intros <;> unfold markFollowed <;> (try dsimp only) <;> (repeat' split) <;> first | with_reducible rfl | simp

@[simp] theorem moveOn_keeps (s : State) :
    (moveOn s).line = s.line ∧
    (moveOn s).lib = s.lib ∧
    (moveOn s).pos = s.pos ∧
    (moveOn s).trig = s.trig ∧
    (moveOn s).ord = s.ord ∧
    (moveOn s).reg = s.reg ∧
    (moveOn s).heat = s.heat ∧
    (moveOn s).dose = s.dose ∧
    (moveOn s).tens = s.tens ∧
    (moveOn s).lastReading = s.lastReading ∧
    (moveOn s).sent = s.sent ∧
    (moveOn s).drawn = s.drawn ∧
    (moveOn s).pending = s.pending := by
  and_intros <;> unfold moveOn <;> (try dsimp only) <;> (repeat' split) <;> first | with_reducible rfl | simp

@[simp] theorem writeFinish_keeps (n : Nat) (code : ResultCode) (detail : Word) (s : State) :
    (writeFinish n code detail s).line = s.line ∧
    (writeFinish n code detail s).lib = s.lib ∧
    (writeFinish n code detail s).pos = s.pos ∧
    (writeFinish n code detail s).trig = s.trig ∧
    (writeFinish n code detail s).ord = s.ord ∧
    (writeFinish n code detail s).reg = s.reg ∧
    (writeFinish n code detail s).heat = s.heat ∧
    (writeFinish n code detail s).dose = s.dose ∧
    (writeFinish n code detail s).tens = s.tens ∧
    (writeFinish n code detail s).lastReading = s.lastReading ∧
    (writeFinish n code detail s).walker = s.walker ∧
    (writeFinish n code detail s).host = s.host ∧
    (writeFinish n code detail s).sent = s.sent ∧
    (writeFinish n code detail s).drawn = s.drawn ∧
    (writeFinish n code detail s).pending = s.pending := by
  and_intros <;> unfold writeFinish <;> (try dsimp only) <;> (repeat' split) <;> first | with_reducible rfl | simp

@[simp] theorem reportFinish_keeps (n : Nat) (code : ResultCode) (detail : Word) (s : State) :
    (reportFinish n code detail s).line = s.line ∧
    (reportFinish n code detail s).lib = s.lib ∧
    (reportFinish n code detail s).pos = s.pos ∧
    (reportFinish n code detail s).trig = s.trig ∧
    (reportFinish n code detail s).ord = s.ord ∧
    (reportFinish n code detail s).reg = s.reg ∧
    (reportFinish n code detail s).heat = s.heat ∧
    (reportFinish n code detail s).dose = s.dose ∧
    (reportFinish n code detail s).tens = s.tens ∧
    (reportFinish n code detail s).lastReading = s.lastReading ∧
    (reportFinish n code detail s).walker = s.walker ∧
    (reportFinish n code detail s).sent = s.sent ∧
    (reportFinish n code detail s).drawn = s.drawn ∧
    (reportFinish n code detail s).pending = s.pending := by
  and_intros <;> unfold reportFinish <;> (try dsimp only) <;> (repeat' split) <;> first | with_reducible rfl | simp

@[simp] theorem finishTicket_keeps (n : Nat) (code : ResultCode) (detail : Word) (s : State) :
    (finishTicket n code detail s).line = s.line ∧
    (finishTicket n code detail s).lib = s.lib ∧
    (finishTicket n code detail s).pos = s.pos ∧
    (finishTicket n code detail s).trig = s.trig ∧
    (finishTicket n code detail s).ord = s.ord ∧
    (finishTicket n code detail s).reg = s.reg ∧
    (finishTicket n code detail s).heat = s.heat ∧
    (finishTicket n code detail s).dose = s.dose ∧
    (finishTicket n code detail s).tens = s.tens ∧
    (finishTicket n code detail s).lastReading = s.lastReading ∧
    (finishTicket n code detail s).sent = s.sent ∧
    (finishTicket n code detail s).drawn = s.drawn ∧
    (finishTicket n code detail s).pending = s.pending := by
  and_intros <;> unfold finishTicket <;> (try dsimp only) <;> (repeat' split) <;> first | with_reducible rfl | simp

@[simp] theorem lowerCount_keeps (s : State) :
    (lowerCount s).mem = s.mem ∧
    (lowerCount s).line = s.line ∧
    (lowerCount s).lib = s.lib ∧
    (lowerCount s).pos = s.pos ∧
    (lowerCount s).trig = s.trig ∧
    (lowerCount s).ord = s.ord ∧
    (lowerCount s).reg = s.reg ∧
    (lowerCount s).heat = s.heat ∧
    (lowerCount s).dose = s.dose ∧
    (lowerCount s).tens = s.tens ∧
    (lowerCount s).lastReading = s.lastReading ∧
    (lowerCount s).host = s.host ∧
    (lowerCount s).sent = s.sent ∧
    (lowerCount s).drawn = s.drawn ∧
    (lowerCount s).pending = s.pending := by
  and_intros <;> unfold lowerCount <;> (try dsimp only) <;> (repeat' split) <;> first | with_reducible rfl | simp

@[simp] theorem resumeFull_keeps (s : State) :
    (resumeFull s).line = s.line ∧
    (resumeFull s).lib = s.lib ∧
    (resumeFull s).pos = s.pos ∧
    (resumeFull s).trig = s.trig ∧
    (resumeFull s).ord = s.ord ∧
    (resumeFull s).reg = s.reg ∧
    (resumeFull s).heat = s.heat ∧
    (resumeFull s).dose = s.dose ∧
    (resumeFull s).tens = s.tens ∧
    (resumeFull s).lastReading = s.lastReading ∧
    (resumeFull s).sent = s.sent ∧
    (resumeFull s).drawn = s.drawn ∧
    (resumeFull s).pending = s.pending := by
  and_intros <;> unfold resumeFull <;> (try dsimp only) <;> (repeat' split) <;> first | with_reducible rfl | simp

@[simp] theorem finishLong_keeps (n : Nat) (code : ResultCode) (detail : Word) (s : State) :
    (finishLong n code detail s).line = s.line ∧
    (finishLong n code detail s).lib = s.lib ∧
    (finishLong n code detail s).pos = s.pos ∧
    (finishLong n code detail s).trig = s.trig ∧
    (finishLong n code detail s).ord = s.ord ∧
    (finishLong n code detail s).reg = s.reg ∧
    (finishLong n code detail s).heat = s.heat ∧
    (finishLong n code detail s).dose = s.dose ∧
    (finishLong n code detail s).tens = s.tens ∧
    (finishLong n code detail s).lastReading = s.lastReading ∧
    (finishLong n code detail s).sent = s.sent ∧
    (finishLong n code detail s).drawn = s.drawn ∧
    (finishLong n code detail s).pending = s.pending := by
  and_intros <;> unfold finishLong <;> (try dsimp only) <;> (repeat' split) <;> first | with_reducible rfl | simp

@[simp] theorem raiseCount_keeps (s : State) :
    (raiseCount s).mem = s.mem ∧
    (raiseCount s).line = s.line ∧
    (raiseCount s).lib = s.lib ∧
    (raiseCount s).pos = s.pos ∧
    (raiseCount s).trig = s.trig ∧
    (raiseCount s).ord = s.ord ∧
    (raiseCount s).reg = s.reg ∧
    (raiseCount s).heat = s.heat ∧
    (raiseCount s).dose = s.dose ∧
    (raiseCount s).tens = s.tens ∧
    (raiseCount s).lastReading = s.lastReading ∧
    (raiseCount s).host = s.host ∧
    (raiseCount s).sent = s.sent ∧
    (raiseCount s).drawn = s.drawn ∧
    (raiseCount s).pending = s.pending := by
  and_intros <;> unfold raiseCount <;> (try dsimp only) <;> (repeat' split) <;> first | with_reducible rfl | simp

@[simp] theorem refuseTicket_keeps (n : Nat) (code : ResultCode) (detail : Word) (s : State) :
    (refuseTicket n code detail s).line = s.line ∧
    (refuseTicket n code detail s).lib = s.lib ∧
    (refuseTicket n code detail s).pos = s.pos ∧
    (refuseTicket n code detail s).trig = s.trig ∧
    (refuseTicket n code detail s).ord = s.ord ∧
    (refuseTicket n code detail s).reg = s.reg ∧
    (refuseTicket n code detail s).heat = s.heat ∧
    (refuseTicket n code detail s).dose = s.dose ∧
    (refuseTicket n code detail s).tens = s.tens ∧
    (refuseTicket n code detail s).lastReading = s.lastReading ∧
    (refuseTicket n code detail s).sent = s.sent ∧
    (refuseTicket n code detail s).drawn = s.drawn ∧
    (refuseTicket n code detail s).pending = s.pending := by
  and_intros <;> unfold refuseTicket <;> (try dsimp only) <;> (repeat' split) <;> first | with_reducible rfl | simp

@[simp] theorem draw_keeps (s : State) :
    (draw s).mem = s.mem ∧
    (draw s).line = s.line ∧
    (draw s).lib = s.lib ∧
    (draw s).pos = s.pos ∧
    (draw s).trig = s.trig ∧
    (draw s).ord = s.ord ∧
    (draw s).reg = s.reg ∧
    (draw s).heat = s.heat ∧
    (draw s).dose = s.dose ∧
    (draw s).tens = s.tens ∧
    (draw s).lastReading = s.lastReading ∧
    (draw s).walker = s.walker ∧
    (draw s).host = s.host ∧
    (draw s).sent = s.sent ∧
    (draw s).pending = s.pending := by
  and_intros <;> unfold draw <;> (try dsimp only) <;> (repeat' split) <;> first | with_reducible rfl | simp

/-! ## Operations of Orders -/

@[simp] theorem writeCancelled_keeps (t : Nat) (ks : List Nat) (s : State) :
    (writeCancelled t ks s).line = s.line ∧
    (writeCancelled t ks s).lib = s.lib ∧
    (writeCancelled t ks s).pos = s.pos ∧
    (writeCancelled t ks s).trig = s.trig ∧
    (writeCancelled t ks s).ord = s.ord ∧
    (writeCancelled t ks s).reg = s.reg ∧
    (writeCancelled t ks s).heat = s.heat ∧
    (writeCancelled t ks s).dose = s.dose ∧
    (writeCancelled t ks s).tens = s.tens ∧
    (writeCancelled t ks s).lastReading = s.lastReading ∧
    (writeCancelled t ks s).walker = s.walker ∧
    (writeCancelled t ks s).host = s.host ∧
    (writeCancelled t ks s).sent = s.sent ∧
    (writeCancelled t ks s).drawn = s.drawn ∧
    (writeCancelled t ks s).pending = s.pending := by
  and_intros <;> unfold writeCancelled <;> (try dsimp only) <;> (repeat' split) <;> first | with_reducible rfl | simp

@[simp] theorem removeOrder_keeps (t : Nat) (s : State) :
    (removeOrder t s).mem = s.mem ∧
    (removeOrder t s).line = s.line ∧
    (removeOrder t s).lib = s.lib ∧
    (removeOrder t s).pos = s.pos ∧
    (removeOrder t s).trig = s.trig ∧
    (removeOrder t s).reg = s.reg ∧
    (removeOrder t s).heat = s.heat ∧
    (removeOrder t s).dose = s.dose ∧
    (removeOrder t s).tens = s.tens ∧
    (removeOrder t s).lastReading = s.lastReading ∧
    (removeOrder t s).walker = s.walker ∧
    (removeOrder t s).host = s.host ∧
    (removeOrder t s).sent = s.sent ∧
    (removeOrder t s).drawn = s.drawn ∧
    (removeOrder t s).pending = s.pending := by
  and_intros <;> unfold removeOrder <;> (try dsimp only) <;> (repeat' split) <;> first | with_reducible rfl | simp

@[simp] theorem finishIfSettled_keeps (t : Nat) (s : State) :
    (finishIfSettled t s).line = s.line ∧
    (finishIfSettled t s).lib = s.lib ∧
    (finishIfSettled t s).pos = s.pos ∧
    (finishIfSettled t s).trig = s.trig ∧
    (finishIfSettled t s).reg = s.reg ∧
    (finishIfSettled t s).heat = s.heat ∧
    (finishIfSettled t s).dose = s.dose ∧
    (finishIfSettled t s).tens = s.tens ∧
    (finishIfSettled t s).lastReading = s.lastReading ∧
    (finishIfSettled t s).sent = s.sent ∧
    (finishIfSettled t s).drawn = s.drawn ∧
    (finishIfSettled t s).pending = s.pending := by
  and_intros <;> unfold finishIfSettled <;> (try dsimp only) <;> (repeat' split) <;> first | with_reducible rfl | simp

@[simp] theorem setEntries_keeps (es : List Entry) (s : State) :
    (setEntries es s).mem = s.mem ∧
    (setEntries es s).line = s.line ∧
    (setEntries es s).lib = s.lib ∧
    (setEntries es s).pos = s.pos ∧
    (setEntries es s).trig = s.trig ∧
    (setEntries es s).reg = s.reg ∧
    (setEntries es s).heat = s.heat ∧
    (setEntries es s).dose = s.dose ∧
    (setEntries es s).tens = s.tens ∧
    (setEntries es s).lastReading = s.lastReading ∧
    (setEntries es s).walker = s.walker ∧
    (setEntries es s).host = s.host ∧
    (setEntries es s).sent = s.sent ∧
    (setEntries es s).drawn = s.drawn ∧
    (setEntries es s).pending = s.pending := by
  and_intros <;> unfold setEntries <;> (try dsimp only) <;> (repeat' split) <;> first | with_reducible rfl | simp

@[simp] theorem appendEntry_keeps (e : Entry) (s : State) :
    (appendEntry e s).mem = s.mem ∧
    (appendEntry e s).line = s.line ∧
    (appendEntry e s).pos = s.pos ∧
    (appendEntry e s).trig = s.trig ∧
    (appendEntry e s).reg = s.reg ∧
    (appendEntry e s).heat = s.heat ∧
    (appendEntry e s).dose = s.dose ∧
    (appendEntry e s).tens = s.tens ∧
    (appendEntry e s).lastReading = s.lastReading ∧
    (appendEntry e s).walker = s.walker ∧
    (appendEntry e s).host = s.host ∧
    (appendEntry e s).sent = s.sent ∧
    (appendEntry e s).drawn = s.drawn ∧
    (appendEntry e s).pending = s.pending := by
  and_intros <;> unfold appendEntry <;> (try dsimp only) <;> (repeat' split) <;> first | with_reducible rfl | simp

@[simp] theorem insertFront_keeps (e : Entry) (s : State) :
    (insertFront e s).mem = s.mem ∧
    (insertFront e s).line = s.line ∧
    (insertFront e s).pos = s.pos ∧
    (insertFront e s).trig = s.trig ∧
    (insertFront e s).reg = s.reg ∧
    (insertFront e s).heat = s.heat ∧
    (insertFront e s).dose = s.dose ∧
    (insertFront e s).tens = s.tens ∧
    (insertFront e s).lastReading = s.lastReading ∧
    (insertFront e s).walker = s.walker ∧
    (insertFront e s).host = s.host ∧
    (insertFront e s).sent = s.sent ∧
    (insertFront e s).drawn = s.drawn ∧
    (insertFront e s).pending = s.pending := by
  and_intros <;> unfold insertFront <;> (try dsimp only) <;> (repeat' split) <;> first | with_reducible rfl | simp

@[simp] theorem dropEntry_keeps (t : Nat) (s : State) :
    (dropEntry t s).mem = s.mem ∧
    (dropEntry t s).line = s.line ∧
    (dropEntry t s).pos = s.pos ∧
    (dropEntry t s).trig = s.trig ∧
    (dropEntry t s).reg = s.reg ∧
    (dropEntry t s).heat = s.heat ∧
    (dropEntry t s).dose = s.dose ∧
    (dropEntry t s).tens = s.tens ∧
    (dropEntry t s).lastReading = s.lastReading ∧
    (dropEntry t s).walker = s.walker ∧
    (dropEntry t s).host = s.host ∧
    (dropEntry t s).sent = s.sent ∧
    (dropEntry t s).drawn = s.drawn ∧
    (dropEntry t s).pending = s.pending := by
  and_intros <;> unfold dropEntry <;> (try dsimp only) <;> (repeat' split) <;> first | with_reducible rfl | simp

@[simp] theorem createPanel_keeps (p : Panel) (s : State) :
    (createPanel p s).mem = s.mem ∧
    (createPanel p s).line = s.line ∧
    (createPanel p s).pos = s.pos ∧
    (createPanel p s).trig = s.trig ∧
    (createPanel p s).reg = s.reg ∧
    (createPanel p s).heat = s.heat ∧
    (createPanel p s).dose = s.dose ∧
    (createPanel p s).tens = s.tens ∧
    (createPanel p s).lastReading = s.lastReading ∧
    (createPanel p s).walker = s.walker ∧
    (createPanel p s).host = s.host ∧
    (createPanel p s).sent = s.sent ∧
    (createPanel p s).drawn = s.drawn ∧
    (createPanel p s).pending = s.pending := by
  and_intros <;> unfold createPanel <;> (try dsimp only) <;> (repeat' split) <;> first | with_reducible rfl | simp

@[simp] theorem setEndMark_keeps (m : Option Word) (s : State) :
    (setEndMark m s).mem = s.mem ∧
    (setEndMark m s).line = s.line ∧
    (setEndMark m s).lib = s.lib ∧
    (setEndMark m s).pos = s.pos ∧
    (setEndMark m s).trig = s.trig ∧
    (setEndMark m s).reg = s.reg ∧
    (setEndMark m s).heat = s.heat ∧
    (setEndMark m s).dose = s.dose ∧
    (setEndMark m s).tens = s.tens ∧
    (setEndMark m s).lastReading = s.lastReading ∧
    (setEndMark m s).walker = s.walker ∧
    (setEndMark m s).host = s.host ∧
    (setEndMark m s).sent = s.sent ∧
    (setEndMark m s).drawn = s.drawn ∧
    (setEndMark m s).pending = s.pending := by
  and_intros <;> unfold setEndMark <;> (try dsimp only) <;> (repeat' split) <;> first | with_reducible rfl | simp

@[simp] theorem startPrintOf_keeps (e : Entry) (rest : List Entry) (o : OpenOrder) (s : State) :
    (startPrintOf e rest o s).mem = s.mem ∧
    (startPrintOf e rest o s).line = s.line ∧
    (startPrintOf e rest o s).pos = s.pos ∧
    (startPrintOf e rest o s).trig = s.trig ∧
    (startPrintOf e rest o s).reg = s.reg ∧
    (startPrintOf e rest o s).heat = s.heat ∧
    (startPrintOf e rest o s).dose = s.dose ∧
    (startPrintOf e rest o s).tens = s.tens ∧
    (startPrintOf e rest o s).lastReading = s.lastReading ∧
    (startPrintOf e rest o s).walker = s.walker ∧
    (startPrintOf e rest o s).host = s.host ∧
    (startPrintOf e rest o s).drawn = s.drawn ∧
    (startPrintOf e rest o s).pending = s.pending := by
  and_intros <;> unfold startPrintOf <;> (try dsimp only) <;> (repeat' split) <;> first | with_reducible rfl | simp

@[simp] theorem startPrint_keeps (s : State) :
    (startPrint s).mem = s.mem ∧
    (startPrint s).line = s.line ∧
    (startPrint s).pos = s.pos ∧
    (startPrint s).trig = s.trig ∧
    (startPrint s).reg = s.reg ∧
    (startPrint s).heat = s.heat ∧
    (startPrint s).dose = s.dose ∧
    (startPrint s).tens = s.tens ∧
    (startPrint s).lastReading = s.lastReading ∧
    (startPrint s).walker = s.walker ∧
    (startPrint s).host = s.host ∧
    (startPrint s).drawn = s.drawn ∧
    (startPrint s).pending = s.pending := by
  and_intros <;> unfold startPrint <;> (try dsimp only) <;> (repeat' split) <;> first | with_reducible rfl | simp

@[simp] theorem printTest_keeps (s : State) :
    (printTest s).mem = s.mem ∧
    (printTest s).line = s.line ∧
    (printTest s).pos = s.pos ∧
    (printTest s).trig = s.trig ∧
    (printTest s).reg = s.reg ∧
    (printTest s).heat = s.heat ∧
    (printTest s).dose = s.dose ∧
    (printTest s).tens = s.tens ∧
    (printTest s).lastReading = s.lastReading ∧
    (printTest s).walker = s.walker ∧
    (printTest s).host = s.host ∧
    (printTest s).drawn = s.drawn ∧
    (printTest s).pending = s.pending := by
  and_intros <;> unfold printTest <;> (try dsimp only) <;> (repeat' split) <;> first | with_reducible rfl | simp

@[simp] theorem removePanel_keeps (n : Half) (s : State) :
    (removePanel n s).mem = s.mem ∧
    (removePanel n s).line = s.line ∧
    (removePanel n s).pos = s.pos ∧
    (removePanel n s).trig = s.trig ∧
    (removePanel n s).reg = s.reg ∧
    (removePanel n s).heat = s.heat ∧
    (removePanel n s).dose = s.dose ∧
    (removePanel n s).tens = s.tens ∧
    (removePanel n s).lastReading = s.lastReading ∧
    (removePanel n s).walker = s.walker ∧
    (removePanel n s).host = s.host ∧
    (removePanel n s).sent = s.sent ∧
    (removePanel n s).drawn = s.drawn ∧
    (removePanel n s).pending = s.pending := by
  and_intros <;> unfold removePanel <;> (try dsimp only) <;> (repeat' split) <;> first | with_reducible rfl | simp

@[simp] theorem freePanel_keeps (n : Half) (s : State) :
    (freePanel n s).mem = s.mem ∧
    (freePanel n s).line = s.line ∧
    (freePanel n s).pos = s.pos ∧
    (freePanel n s).trig = s.trig ∧
    (freePanel n s).reg = s.reg ∧
    (freePanel n s).heat = s.heat ∧
    (freePanel n s).dose = s.dose ∧
    (freePanel n s).tens = s.tens ∧
    (freePanel n s).lastReading = s.lastReading ∧
    (freePanel n s).walker = s.walker ∧
    (freePanel n s).host = s.host ∧
    (freePanel n s).drawn = s.drawn ∧
    (freePanel n s).pending = s.pending := by
  and_intros <;> unfold freePanel <;> (try dsimp only) <;> (repeat' split) <;> first | with_reducible rfl | simp

@[simp] theorem writeVerdictSummary_keeps (p : Panel) (v : Verdict) (s : State) :
    (writeVerdictSummary p v s).line = s.line ∧
    (writeVerdictSummary p v s).lib = s.lib ∧
    (writeVerdictSummary p v s).pos = s.pos ∧
    (writeVerdictSummary p v s).trig = s.trig ∧
    (writeVerdictSummary p v s).ord = s.ord ∧
    (writeVerdictSummary p v s).reg = s.reg ∧
    (writeVerdictSummary p v s).heat = s.heat ∧
    (writeVerdictSummary p v s).dose = s.dose ∧
    (writeVerdictSummary p v s).tens = s.tens ∧
    (writeVerdictSummary p v s).lastReading = s.lastReading ∧
    (writeVerdictSummary p v s).walker = s.walker ∧
    (writeVerdictSummary p v s).host = s.host ∧
    (writeVerdictSummary p v s).sent = s.sent ∧
    (writeVerdictSummary p v s).drawn = s.drawn ∧
    (writeVerdictSummary p v s).pending = s.pending := by
  and_intros <;> unfold writeVerdictSummary <;> (try dsimp only) <;> (repeat' split) <;> first | with_reducible rfl | simp

@[simp] theorem settleCopy_keeps (p : Panel) (v : Verdict) (s : State) :
    (settleCopy p v s).line = s.line ∧
    (settleCopy p v s).pos = s.pos ∧
    (settleCopy p v s).trig = s.trig ∧
    (settleCopy p v s).reg = s.reg ∧
    (settleCopy p v s).heat = s.heat ∧
    (settleCopy p v s).dose = s.dose ∧
    (settleCopy p v s).tens = s.tens ∧
    (settleCopy p v s).lastReading = s.lastReading ∧
    (settleCopy p v s).drawn = s.drawn ∧
    (settleCopy p v s).pending = s.pending := by
  and_intros <;> unfold settleCopy <;> (try dsimp only) <;> (repeat' split) <;> first | with_reducible rfl | simp

@[simp] theorem requeueCopy_keeps (o : OpenOrder) (p : Panel) (s : State) :
    (requeueCopy o p s).mem = s.mem ∧
    (requeueCopy o p s).line = s.line ∧
    (requeueCopy o p s).pos = s.pos ∧
    (requeueCopy o p s).trig = s.trig ∧
    (requeueCopy o p s).reg = s.reg ∧
    (requeueCopy o p s).heat = s.heat ∧
    (requeueCopy o p s).dose = s.dose ∧
    (requeueCopy o p s).tens = s.tens ∧
    (requeueCopy o p s).lastReading = s.lastReading ∧
    (requeueCopy o p s).walker = s.walker ∧
    (requeueCopy o p s).host = s.host ∧
    (requeueCopy o p s).sent = s.sent ∧
    (requeueCopy o p s).drawn = s.drawn ∧
    (requeueCopy o p s).pending = s.pending := by
  and_intros <;> unfold requeueCopy <;> (try dsimp only) <;> (repeat' split) <;> first | with_reducible rfl | simp

@[simp] theorem faultCopy_keeps (p : Panel) (o : OpenOrder) (s : State) :
    (faultCopy p o s).line = s.line ∧
    (faultCopy p o s).pos = s.pos ∧
    (faultCopy p o s).trig = s.trig ∧
    (faultCopy p o s).reg = s.reg ∧
    (faultCopy p o s).heat = s.heat ∧
    (faultCopy p o s).dose = s.dose ∧
    (faultCopy p o s).tens = s.tens ∧
    (faultCopy p o s).lastReading = s.lastReading ∧
    (faultCopy p o s).drawn = s.drawn ∧
    (faultCopy p o s).pending = s.pending := by
  and_intros <;> unfold faultCopy <;> (try dsimp only) <;> (repeat' split) <;> first | with_reducible rfl | simp

@[simp] theorem faultPrint_keeps (p : Panel) (s : State) :
    (faultPrint p s).line = s.line ∧
    (faultPrint p s).pos = s.pos ∧
    (faultPrint p s).trig = s.trig ∧
    (faultPrint p s).reg = s.reg ∧
    (faultPrint p s).heat = s.heat ∧
    (faultPrint p s).dose = s.dose ∧
    (faultPrint p s).tens = s.tens ∧
    (faultPrint p s).lastReading = s.lastReading ∧
    (faultPrint p s).drawn = s.drawn ∧
    (faultPrint p s).pending = s.pending := by
  and_intros <;> unfold faultPrint <;> (try dsimp only) <;> (repeat' split) <;> first | with_reducible rfl | simp

/-! ## Operations of Line -/

@[simp] theorem setZones_keeps (zs : Vector Zone 8) (s : State) :
    (setZones zs s).mem = s.mem ∧
    (setZones zs s).line = s.line ∧
    (setZones zs s).lib = s.lib ∧
    (setZones zs s).pos = s.pos ∧
    (setZones zs s).trig = s.trig ∧
    (setZones zs s).ord = s.ord ∧
    (setZones zs s).reg = s.reg ∧
    (setZones zs s).dose = s.dose ∧
    (setZones zs s).tens = s.tens ∧
    (setZones zs s).lastReading = s.lastReading ∧
    (setZones zs s).walker = s.walker ∧
    (setZones zs s).host = s.host ∧
    (setZones zs s).sent = s.sent ∧
    (setZones zs s).drawn = s.drawn ∧
    (setZones zs s).pending = s.pending := by
  and_intros <;> unfold setZones <;> (try dsimp only) <;> (repeat' split) <;> first | with_reducible rfl | simp

@[simp] theorem heatOff_keeps (s : State) :
    (heatOff s).mem = s.mem ∧
    (heatOff s).lib = s.lib ∧
    (heatOff s).pos = s.pos ∧
    (heatOff s).trig = s.trig ∧
    (heatOff s).ord = s.ord ∧
    (heatOff s).reg = s.reg ∧
    (heatOff s).dose = s.dose ∧
    (heatOff s).tens = s.tens ∧
    (heatOff s).lastReading = s.lastReading ∧
    (heatOff s).walker = s.walker ∧
    (heatOff s).host = s.host ∧
    (heatOff s).sent = s.sent ∧
    (heatOff s).drawn = s.drawn ∧
    (heatOff s).pending = s.pending := by
  and_intros <;> unfold heatOff <;> (try dsimp only) <;> (repeat' split) <;> first | with_reducible rfl | simp

@[simp] theorem markInterrupted_keeps (s : State) :
    (markInterrupted s).mem = s.mem ∧
    (markInterrupted s).line = s.line ∧
    (markInterrupted s).lib = s.lib ∧
    (markInterrupted s).pos = s.pos ∧
    (markInterrupted s).trig = s.trig ∧
    (markInterrupted s).reg = s.reg ∧
    (markInterrupted s).heat = s.heat ∧
    (markInterrupted s).dose = s.dose ∧
    (markInterrupted s).tens = s.tens ∧
    (markInterrupted s).lastReading = s.lastReading ∧
    (markInterrupted s).walker = s.walker ∧
    (markInterrupted s).host = s.host ∧
    (markInterrupted s).sent = s.sent ∧
    (markInterrupted s).drawn = s.drawn ∧
    (markInterrupted s).pending = s.pending := by
  and_intros <;> unfold markInterrupted <;> (try dsimp only) <;> (repeat' split) <;> first | with_reducible rfl | simp

@[simp] theorem moveWrap_keeps (w : WrapState) (c : WrapCommand) (s : State) :
    (moveWrap w c s).mem = s.mem ∧
    (moveWrap w c s).line = s.line ∧
    (moveWrap w c s).lib = s.lib ∧
    (moveWrap w c s).pos = s.pos ∧
    (moveWrap w c s).trig = s.trig ∧
    (moveWrap w c s).reg = s.reg ∧
    (moveWrap w c s).heat = s.heat ∧
    (moveWrap w c s).tens = s.tens ∧
    (moveWrap w c s).lastReading = s.lastReading ∧
    (moveWrap w c s).walker = s.walker ∧
    (moveWrap w c s).host = s.host ∧
    (moveWrap w c s).sent = s.sent ∧
    (moveWrap w c s).drawn = s.drawn ∧
    (moveWrap w c s).pending = s.pending := by
  and_intros <;> unfold moveWrap <;> (try dsimp only) <;> (repeat' split) <;> first | with_reducible rfl | simp

@[simp] theorem wrapAnswer_keeps (old new : LineState) (s : State) :
    (wrapAnswer old new s).mem = s.mem ∧
    (wrapAnswer old new s).line = s.line ∧
    (wrapAnswer old new s).lib = s.lib ∧
    (wrapAnswer old new s).pos = s.pos ∧
    (wrapAnswer old new s).trig = s.trig ∧
    (wrapAnswer old new s).reg = s.reg ∧
    (wrapAnswer old new s).heat = s.heat ∧
    (wrapAnswer old new s).tens = s.tens ∧
    (wrapAnswer old new s).lastReading = s.lastReading ∧
    (wrapAnswer old new s).walker = s.walker ∧
    (wrapAnswer old new s).host = s.host ∧
    (wrapAnswer old new s).sent = s.sent ∧
    (wrapAnswer old new s).drawn = s.drawn ∧
    (wrapAnswer old new s).pending = s.pending := by
  and_intros <;> unfold wrapAnswer <;> (try dsimp only) <;> (repeat' split) <;> first | with_reducible rfl | simp

@[simp] theorem setSpeed_keeps (v : Nat) (s : State) :
    (setSpeed v s).mem = s.mem ∧
    (setSpeed v s).line = s.line ∧
    (setSpeed v s).lib = s.lib ∧
    (setSpeed v s).pos = s.pos ∧
    (setSpeed v s).trig = s.trig ∧
    (setSpeed v s).ord = s.ord ∧
    (setSpeed v s).reg = s.reg ∧
    (setSpeed v s).heat = s.heat ∧
    (setSpeed v s).tens = s.tens ∧
    (setSpeed v s).lastReading = s.lastReading ∧
    (setSpeed v s).walker = s.walker ∧
    (setSpeed v s).host = s.host ∧
    (setSpeed v s).sent = s.sent ∧
    (setSpeed v s).drawn = s.drawn ∧
    (setSpeed v s).pending = s.pending := by
  and_intros <;> unfold setSpeed <;> (try dsimp only) <;> (repeat' split) <;> first | with_reducible rfl | simp

@[simp] theorem speedAnswer_keeps (new : LineState) (s : State) :
    (speedAnswer new s).mem = s.mem ∧
    (speedAnswer new s).line = s.line ∧
    (speedAnswer new s).lib = s.lib ∧
    (speedAnswer new s).pos = s.pos ∧
    (speedAnswer new s).trig = s.trig ∧
    (speedAnswer new s).ord = s.ord ∧
    (speedAnswer new s).reg = s.reg ∧
    (speedAnswer new s).heat = s.heat ∧
    (speedAnswer new s).tens = s.tens ∧
    (speedAnswer new s).lastReading = s.lastReading ∧
    (speedAnswer new s).walker = s.walker ∧
    (speedAnswer new s).host = s.host ∧
    (speedAnswer new s).sent = s.sent ∧
    (speedAnswer new s).drawn = s.drawn ∧
    (speedAnswer new s).pending = s.pending := by
  and_intros <;> unfold speedAnswer <;> (try dsimp only) <;> (repeat' split) <;> first | with_reducible rfl | simp

@[simp] theorem storeAnswer_keeps (new : LineState) (s : State) :
    (storeAnswer new s).mem = s.mem ∧
    (storeAnswer new s).lib = s.lib ∧
    (storeAnswer new s).pos = s.pos ∧
    (storeAnswer new s).trig = s.trig ∧
    (storeAnswer new s).ord = s.ord ∧
    (storeAnswer new s).reg = s.reg ∧
    (storeAnswer new s).heat = s.heat ∧
    (storeAnswer new s).dose = s.dose ∧
    (storeAnswer new s).tens = s.tens ∧
    (storeAnswer new s).lastReading = s.lastReading ∧
    (storeAnswer new s).walker = s.walker ∧
    (storeAnswer new s).host = s.host ∧
    (storeAnswer new s).sent = s.sent ∧
    (storeAnswer new s).drawn = s.drawn ∧
    (storeAnswer new s).pending = s.pending := by
  and_intros <;> unfold storeAnswer <;> (try dsimp only) <;> (repeat' split) <;> first | with_reducible rfl | simp

@[simp] theorem updTension_keeps (z : Fin 4) (f : TensionZone → TensionZone) (s : State) :
    (updTension z f s).mem = s.mem ∧
    (updTension z f s).line = s.line ∧
    (updTension z f s).lib = s.lib ∧
    (updTension z f s).pos = s.pos ∧
    (updTension z f s).trig = s.trig ∧
    (updTension z f s).ord = s.ord ∧
    (updTension z f s).reg = s.reg ∧
    (updTension z f s).heat = s.heat ∧
    (updTension z f s).dose = s.dose ∧
    (updTension z f s).lastReading = s.lastReading ∧
    (updTension z f s).walker = s.walker ∧
    (updTension z f s).host = s.host ∧
    (updTension z f s).sent = s.sent ∧
    (updTension z f s).drawn = s.drawn ∧
    (updTension z f s).pending = s.pending := by
  and_intros <;> unfold updTension <;> (try dsimp only) <;> (repeat' split) <;> first | with_reducible rfl | simp

@[simp] theorem mapTension_keeps (f : TensionZone → TensionZone) (s : State) :
    (mapTension f s).mem = s.mem ∧
    (mapTension f s).line = s.line ∧
    (mapTension f s).lib = s.lib ∧
    (mapTension f s).pos = s.pos ∧
    (mapTension f s).trig = s.trig ∧
    (mapTension f s).ord = s.ord ∧
    (mapTension f s).reg = s.reg ∧
    (mapTension f s).heat = s.heat ∧
    (mapTension f s).dose = s.dose ∧
    (mapTension f s).lastReading = s.lastReading ∧
    (mapTension f s).walker = s.walker ∧
    (mapTension f s).host = s.host ∧
    (mapTension f s).sent = s.sent ∧
    (mapTension f s).drawn = s.drawn ∧
    (mapTension f s).pending = s.pending := by
  and_intros <;> unfold mapTension <;> (try dsimp only) <;> (repeat' split) <;> first | with_reducible rfl | simp

@[simp] theorem endAuto_keeps (z : Fin 4) (a : AutoZero) (zeroL zeroR : Int) (code : ResultCode) (detail : Word) (reason side : Nat) (s : State) :
    (endAuto z a zeroL zeroR code detail reason side s).line = s.line ∧
    (endAuto z a zeroL zeroR code detail reason side s).lib = s.lib ∧
    (endAuto z a zeroL zeroR code detail reason side s).pos = s.pos ∧
    (endAuto z a zeroL zeroR code detail reason side s).trig = s.trig ∧
    (endAuto z a zeroL zeroR code detail reason side s).ord = s.ord ∧
    (endAuto z a zeroL zeroR code detail reason side s).reg = s.reg ∧
    (endAuto z a zeroL zeroR code detail reason side s).heat = s.heat ∧
    (endAuto z a zeroL zeroR code detail reason side s).dose = s.dose ∧
    (endAuto z a zeroL zeroR code detail reason side s).lastReading = s.lastReading ∧
    (endAuto z a zeroL zeroR code detail reason side s).sent = s.sent ∧
    (endAuto z a zeroL zeroR code detail reason side s).drawn = s.drawn ∧
    (endAuto z a zeroL zeroR code detail reason side s).pending = s.pending := by
  and_intros <;> unfold endAuto <;> (try dsimp only) <;> (repeat' split) <;> first | with_reducible rfl | simp

@[simp] theorem abortAuto_keeps (reason : Nat) (s : State) (z : Fin 4) :
    (abortAuto reason s z).line = s.line ∧
    (abortAuto reason s z).lib = s.lib ∧
    (abortAuto reason s z).pos = s.pos ∧
    (abortAuto reason s z).trig = s.trig ∧
    (abortAuto reason s z).ord = s.ord ∧
    (abortAuto reason s z).reg = s.reg ∧
    (abortAuto reason s z).heat = s.heat ∧
    (abortAuto reason s z).dose = s.dose ∧
    (abortAuto reason s z).lastReading = s.lastReading ∧
    (abortAuto reason s z).sent = s.sent ∧
    (abortAuto reason s z).drawn = s.drawn ∧
    (abortAuto reason s z).pending = s.pending := by
  and_intros <;> unfold abortAuto <;> (try dsimp only) <;> (repeat' split) <;> first | with_reducible rfl | simp

@[simp] theorem abortAutos_keeps (reason : Nat) (s : State) :
    (abortAutos reason s).line = s.line ∧
    (abortAutos reason s).lib = s.lib ∧
    (abortAutos reason s).pos = s.pos ∧
    (abortAutos reason s).trig = s.trig ∧
    (abortAutos reason s).ord = s.ord ∧
    (abortAutos reason s).reg = s.reg ∧
    (abortAutos reason s).heat = s.heat ∧
    (abortAutos reason s).dose = s.dose ∧
    (abortAutos reason s).lastReading = s.lastReading ∧
    (abortAutos reason s).sent = s.sent ∧
    (abortAutos reason s).drawn = s.drawn ∧
    (abortAutos reason s).pending = s.pending := by
  and_intros <;> unfold abortAutos <;> (try dsimp only) <;> (repeat' split) <;> first | with_reducible rfl | simp

@[simp] theorem coldTargets_keeps (s : State) :
    (coldTargets s).mem = s.mem ∧
    (coldTargets s).line = s.line ∧
    (coldTargets s).lib = s.lib ∧
    (coldTargets s).pos = s.pos ∧
    (coldTargets s).trig = s.trig ∧
    (coldTargets s).ord = s.ord ∧
    (coldTargets s).reg = s.reg ∧
    (coldTargets s).heat = s.heat ∧
    (coldTargets s).dose = s.dose ∧
    (coldTargets s).lastReading = s.lastReading ∧
    (coldTargets s).walker = s.walker ∧
    (coldTargets s).host = s.host ∧
    (coldTargets s).sent = s.sent ∧
    (coldTargets s).drawn = s.drawn ∧
    (coldTargets s).pending = s.pending := by
  and_intros <;> unfold coldTargets <;> (try dsimp only) <;> (repeat' split) <;> first | with_reducible rfl | simp

@[simp] theorem endBreak_keeps (s : State) :
    (endBreak s).mem = s.mem ∧
    (endBreak s).lib = s.lib ∧
    (endBreak s).pos = s.pos ∧
    (endBreak s).trig = s.trig ∧
    (endBreak s).ord = s.ord ∧
    (endBreak s).reg = s.reg ∧
    (endBreak s).heat = s.heat ∧
    (endBreak s).dose = s.dose ∧
    (endBreak s).lastReading = s.lastReading ∧
    (endBreak s).walker = s.walker ∧
    (endBreak s).host = s.host ∧
    (endBreak s).sent = s.sent ∧
    (endBreak s).drawn = s.drawn ∧
    (endBreak s).pending = s.pending := by
  and_intros <;> unfold endBreak <;> (try dsimp only) <;> (repeat' split) <;> first | with_reducible rfl | simp

@[simp] theorem tensionAnswer_keeps (new : LineState) (s : State) :
    (tensionAnswer new s).lib = s.lib ∧
    (tensionAnswer new s).pos = s.pos ∧
    (tensionAnswer new s).trig = s.trig ∧
    (tensionAnswer new s).ord = s.ord ∧
    (tensionAnswer new s).reg = s.reg ∧
    (tensionAnswer new s).heat = s.heat ∧
    (tensionAnswer new s).dose = s.dose ∧
    (tensionAnswer new s).lastReading = s.lastReading ∧
    (tensionAnswer new s).sent = s.sent ∧
    (tensionAnswer new s).drawn = s.drawn ∧
    (tensionAnswer new s).pending = s.pending := by
  and_intros <;> unfold tensionAnswer <;> (try dsimp only) <;> (repeat' split) <;> first | with_reducible rfl | simp

@[simp] theorem setLineState_keeps (new : LineState) (s : State) :
    (setLineState new s).mem = s.mem ∧
    (setLineState new s).lib = s.lib ∧
    (setLineState new s).pos = s.pos ∧
    (setLineState new s).trig = s.trig ∧
    (setLineState new s).ord = s.ord ∧
    (setLineState new s).reg = s.reg ∧
    (setLineState new s).heat = s.heat ∧
    (setLineState new s).dose = s.dose ∧
    (setLineState new s).tens = s.tens ∧
    (setLineState new s).lastReading = s.lastReading ∧
    (setLineState new s).walker = s.walker ∧
    (setLineState new s).host = s.host ∧
    (setLineState new s).sent = s.sent ∧
    (setLineState new s).drawn = s.drawn ∧
    (setLineState new s).pending = s.pending := by
  and_intros <;> unfold setLineState <;> (try dsimp only) <;> (repeat' split) <;> first | with_reducible rfl | simp

@[simp] theorem haltCause_keeps (new : LineState) (s : State) :
    (haltCause new s).mem = s.mem ∧
    (haltCause new s).line = s.line ∧
    (haltCause new s).lib = s.lib ∧
    (haltCause new s).pos = s.pos ∧
    (haltCause new s).trig = s.trig ∧
    (haltCause new s).ord = s.ord ∧
    (haltCause new s).reg = s.reg ∧
    (haltCause new s).heat = s.heat ∧
    (haltCause new s).dose = s.dose ∧
    (haltCause new s).tens = s.tens ∧
    (haltCause new s).lastReading = s.lastReading ∧
    (haltCause new s).walker = s.walker ∧
    (haltCause new s).sent = s.sent ∧
    (haltCause new s).drawn = s.drawn ∧
    (haltCause new s).pending = s.pending := by
  and_intros <;> unfold haltCause <;> (try dsimp only) <;> (repeat' split) <;> first | with_reducible rfl | simp

@[simp] theorem heatAnswer_keeps (had : Bool) (s : State) :
    (heatAnswer had s).mem = s.mem ∧
    (heatAnswer had s).lib = s.lib ∧
    (heatAnswer had s).pos = s.pos ∧
    (heatAnswer had s).trig = s.trig ∧
    (heatAnswer had s).ord = s.ord ∧
    (heatAnswer had s).reg = s.reg ∧
    (heatAnswer had s).dose = s.dose ∧
    (heatAnswer had s).tens = s.tens ∧
    (heatAnswer had s).lastReading = s.lastReading ∧
    (heatAnswer had s).walker = s.walker ∧
    (heatAnswer had s).host = s.host ∧
    (heatAnswer had s).sent = s.sent ∧
    (heatAnswer had s).drawn = s.drawn ∧
    (heatAnswer had s).pending = s.pending := by
  and_intros <;> unfold heatAnswer <;> (try dsimp only) <;> (repeat' split) <;> first | with_reducible rfl | simp

@[simp] theorem enterState_keeps (new : LineState) (cause : LineCause) (s : State) :
    (enterState new cause s).pos = s.pos ∧
    (enterState new cause s).trig = s.trig ∧
    (enterState new cause s).reg = s.reg ∧
    (enterState new cause s).lastReading = s.lastReading ∧
    (enterState new cause s).drawn = s.drawn ∧
    (enterState new cause s).pending = s.pending := by
  and_intros <;> unfold enterState <;> (try dsimp only) <;> (repeat' split) <;> first | with_reducible rfl | simp

@[simp] theorem retest_keeps (s : State) :
    (retest s).pos = s.pos ∧
    (retest s).trig = s.trig ∧
    (retest s).reg = s.reg ∧
    (retest s).lastReading = s.lastReading ∧
    (retest s).drawn = s.drawn ∧
    (retest s).pending = s.pending := by
  and_intros <;> unfold retest <;> (try dsimp only) <;> (repeat' split) <;> first | with_reducible rfl | simp

@[simp] theorem runRetest_keeps (s : State) :
    (runRetest s).pos = s.pos ∧
    (runRetest s).trig = s.trig ∧
    (runRetest s).reg = s.reg ∧
    (runRetest s).lastReading = s.lastReading ∧
    (runRetest s).drawn = s.drawn ∧
    (runRetest s).pending = s.pending := by
  and_intros <;> unfold runRetest <;> (try dsimp only) <;> (repeat' split) <;> first | with_reducible rfl | simp

@[simp] theorem applyRequest_keeps (a : Alarm) (s : State) :
    (applyRequest a s).pos = s.pos ∧
    (applyRequest a s).trig = s.trig ∧
    (applyRequest a s).reg = s.reg ∧
    (applyRequest a s).lastReading = s.lastReading ∧
    (applyRequest a s).drawn = s.drawn ∧
    (applyRequest a s).pending = s.pending := by
  and_intros <;> unfold applyRequest <;> (try dsimp only) <;> (repeat' split) <;> first | with_reducible rfl | simp

@[simp] theorem raiseAlarm_keeps (a : Alarm) (d1 d2 : Word) (s : State) :
    (raiseAlarm a d1 d2 s).pos = s.pos ∧
    (raiseAlarm a d1 d2 s).trig = s.trig ∧
    (raiseAlarm a d1 d2 s).reg = s.reg ∧
    (raiseAlarm a d1 d2 s).lastReading = s.lastReading ∧
    (raiseAlarm a d1 d2 s).drawn = s.drawn ∧
    (raiseAlarm a d1 d2 s).pending = s.pending := by
  and_intros <;> unfold raiseAlarm <;> (try dsimp only) <;> (repeat' split) <;> first | with_reducible rfl | simp

@[simp] theorem jogSpeed_keeps (j : Jog) (s : State) :
    (jogSpeed j s).mem = s.mem ∧
    (jogSpeed j s).line = s.line ∧
    (jogSpeed j s).lib = s.lib ∧
    (jogSpeed j s).pos = s.pos ∧
    (jogSpeed j s).trig = s.trig ∧
    (jogSpeed j s).ord = s.ord ∧
    (jogSpeed j s).reg = s.reg ∧
    (jogSpeed j s).heat = s.heat ∧
    (jogSpeed j s).tens = s.tens ∧
    (jogSpeed j s).lastReading = s.lastReading ∧
    (jogSpeed j s).walker = s.walker ∧
    (jogSpeed j s).host = s.host ∧
    (jogSpeed j s).sent = s.sent ∧
    (jogSpeed j s).drawn = s.drawn ∧
    (jogSpeed j s).pending = s.pending := by
  and_intros <;> unfold jogSpeed <;> (try dsimp only) <;> (repeat' split) <;> first | with_reducible rfl | simp

@[simp] theorem setJog_keeps (j : Jog) (s : State) :
    (setJog j s).lib = s.lib ∧
    (setJog j s).pos = s.pos ∧
    (setJog j s).trig = s.trig ∧
    (setJog j s).ord = s.ord ∧
    (setJog j s).reg = s.reg ∧
    (setJog j s).heat = s.heat ∧
    (setJog j s).lastReading = s.lastReading ∧
    (setJog j s).sent = s.sent ∧
    (setJog j s).drawn = s.drawn ∧
    (setJog j s).pending = s.pending := by
  and_intros <;> unfold setJog <;> (try dsimp only) <;> (repeat' split) <;> first | with_reducible rfl | simp

/-! ## Operations of Trigger -/

@[simp] theorem updChannel_keeps (c : Fin 12) (f : Channel → Channel) (s : State) :
    (updChannel c f s).mem = s.mem ∧
    (updChannel c f s).line = s.line ∧
    (updChannel c f s).lib = s.lib ∧
    (updChannel c f s).pos = s.pos ∧
    (updChannel c f s).ord = s.ord ∧
    (updChannel c f s).reg = s.reg ∧
    (updChannel c f s).heat = s.heat ∧
    (updChannel c f s).dose = s.dose ∧
    (updChannel c f s).tens = s.tens ∧
    (updChannel c f s).lastReading = s.lastReading ∧
    (updChannel c f s).walker = s.walker ∧
    (updChannel c f s).host = s.host ∧
    (updChannel c f s).sent = s.sent ∧
    (updChannel c f s).drawn = s.drawn ∧
    (updChannel c f s).pending = s.pending := by
  and_intros <;> unfold updChannel <;> (try dsimp only) <;> (repeat' split) <;> first | with_reducible rfl | simp

@[simp] theorem setLatches_keeps (ls : Vector Latch 8) (s : State) :
    (setLatches ls s).mem = s.mem ∧
    (setLatches ls s).line = s.line ∧
    (setLatches ls s).lib = s.lib ∧
    (setLatches ls s).pos = s.pos ∧
    (setLatches ls s).ord = s.ord ∧
    (setLatches ls s).reg = s.reg ∧
    (setLatches ls s).heat = s.heat ∧
    (setLatches ls s).dose = s.dose ∧
    (setLatches ls s).tens = s.tens ∧
    (setLatches ls s).lastReading = s.lastReading ∧
    (setLatches ls s).walker = s.walker ∧
    (setLatches ls s).host = s.host ∧
    (setLatches ls s).sent = s.sent ∧
    (setLatches ls s).drawn = s.drawn ∧
    (setLatches ls s).pending = s.pending := by
  and_intros <;> unfold setLatches <;> (try dsimp only) <;> (repeat' split) <;> first | with_reducible rfl | simp

@[simp] theorem setCuts_keeps (cs : List Word) (s : State) :
    (setCuts cs s).mem = s.mem ∧
    (setCuts cs s).line = s.line ∧
    (setCuts cs s).lib = s.lib ∧
    (setCuts cs s).pos = s.pos ∧
    (setCuts cs s).ord = s.ord ∧
    (setCuts cs s).reg = s.reg ∧
    (setCuts cs s).heat = s.heat ∧
    (setCuts cs s).dose = s.dose ∧
    (setCuts cs s).tens = s.tens ∧
    (setCuts cs s).lastReading = s.lastReading ∧
    (setCuts cs s).walker = s.walker ∧
    (setCuts cs s).host = s.host ∧
    (setCuts cs s).sent = s.sent ∧
    (setCuts cs s).drawn = s.drawn ∧
    (setCuts cs s).pending = s.pending := by
  and_intros <;> unfold setCuts <;> (try dsimp only) <;> (repeat' split) <;> first | with_reducible rfl | simp

@[simp] theorem endReverseJog_keeps (s : State) :
    (endReverseJog s).lib = s.lib ∧
    (endReverseJog s).pos = s.pos ∧
    (endReverseJog s).trig = s.trig ∧
    (endReverseJog s).ord = s.ord ∧
    (endReverseJog s).reg = s.reg ∧
    (endReverseJog s).heat = s.heat ∧
    (endReverseJog s).lastReading = s.lastReading ∧
    (endReverseJog s).sent = s.sent ∧
    (endReverseJog s).drawn = s.drawn ∧
    (endReverseJog s).pending = s.pending := by
  and_intros <;> unfold endReverseJog <;> (try dsimp only) <;> (repeat' split) <;> first | with_reducible rfl | simp

@[simp] theorem startCounting_keeps (c : Fin 12) (remaining : Nat) (s : State) :
    (startCounting c remaining s).lib = s.lib ∧
    (startCounting c remaining s).pos = s.pos ∧
    (startCounting c remaining s).ord = s.ord ∧
    (startCounting c remaining s).reg = s.reg ∧
    (startCounting c remaining s).heat = s.heat ∧
    (startCounting c remaining s).lastReading = s.lastReading ∧
    (startCounting c remaining s).sent = s.sent ∧
    (startCounting c remaining s).drawn = s.drawn ∧
    (startCounting c remaining s).pending = s.pending := by
  and_intros <;> unfold startCounting <;> (try dsimp only) <;> (repeat' split) <;> first | with_reducible rfl | simp

@[simp] theorem fireLatches_keeps (c : Fin 12) (s : State) :
    (fireLatches c s).mem = s.mem ∧
    (fireLatches c s).line = s.line ∧
    (fireLatches c s).lib = s.lib ∧
    (fireLatches c s).pos = s.pos ∧
    (fireLatches c s).ord = s.ord ∧
    (fireLatches c s).reg = s.reg ∧
    (fireLatches c s).heat = s.heat ∧
    (fireLatches c s).dose = s.dose ∧
    (fireLatches c s).tens = s.tens ∧
    (fireLatches c s).lastReading = s.lastReading ∧
    (fireLatches c s).walker = s.walker ∧
    (fireLatches c s).host = s.host ∧
    (fireLatches c s).sent = s.sent ∧
    (fireLatches c s).drawn = s.drawn ∧
    (fireLatches c s).pending = s.pending := by
  and_intros <;> unfold fireLatches <;> (try dsimp only) <;> (repeat' split) <;> first | with_reducible rfl | simp

@[simp] theorem cutFired_keeps (x : Word) (s : State) :
    (cutFired x s).mem = s.mem ∧
    (cutFired x s).line = s.line ∧
    (cutFired x s).lib = s.lib ∧
    (cutFired x s).pos = s.pos ∧
    (cutFired x s).ord = s.ord ∧
    (cutFired x s).reg = s.reg ∧
    (cutFired x s).heat = s.heat ∧
    (cutFired x s).dose = s.dose ∧
    (cutFired x s).tens = s.tens ∧
    (cutFired x s).lastReading = s.lastReading ∧
    (cutFired x s).walker = s.walker ∧
    (cutFired x s).host = s.host ∧
    (cutFired x s).sent = s.sent ∧
    (cutFired x s).drawn = s.drawn ∧
    (cutFired x s).pending = s.pending := by
  and_intros <;> unfold cutFired <;> (try dsimp only) <;> (repeat' split) <;> first | with_reducible rfl | simp

@[simp] theorem fireChannel_keeps (x : Word) (c : Fin 12) (s : State) :
    (fireChannel x c s).mem = s.mem ∧
    (fireChannel x c s).line = s.line ∧
    (fireChannel x c s).lib = s.lib ∧
    (fireChannel x c s).pos = s.pos ∧
    (fireChannel x c s).ord = s.ord ∧
    (fireChannel x c s).reg = s.reg ∧
    (fireChannel x c s).heat = s.heat ∧
    (fireChannel x c s).dose = s.dose ∧
    (fireChannel x c s).tens = s.tens ∧
    (fireChannel x c s).lastReading = s.lastReading ∧
    (fireChannel x c s).walker = s.walker ∧
    (fireChannel x c s).host = s.host ∧
    (fireChannel x c s).sent = s.sent ∧
    (fireChannel x c s).drawn = s.drawn ∧
    (fireChannel x c s).pending = s.pending := by
  and_intros <;> unfold fireChannel <;> (try dsimp only) <;> (repeat' split) <;> first | with_reducible rfl | simp

@[simp] theorem stepChannel_keeps (x : Word) (c : Fin 12) (s : State) :
    (stepChannel x c s).mem = s.mem ∧
    (stepChannel x c s).line = s.line ∧
    (stepChannel x c s).lib = s.lib ∧
    (stepChannel x c s).pos = s.pos ∧
    (stepChannel x c s).ord = s.ord ∧
    (stepChannel x c s).reg = s.reg ∧
    (stepChannel x c s).heat = s.heat ∧
    (stepChannel x c s).dose = s.dose ∧
    (stepChannel x c s).tens = s.tens ∧
    (stepChannel x c s).lastReading = s.lastReading ∧
    (stepChannel x c s).walker = s.walker ∧
    (stepChannel x c s).host = s.host ∧
    (stepChannel x c s).sent = s.sent ∧
    (stepChannel x c s).drawn = s.drawn ∧
    (stepChannel x c s).pending = s.pending := by
  and_intros <;> unfold stepChannel <;> (try dsimp only) <;> (repeat' split) <;> first | with_reducible rfl | simp

@[simp] theorem offerStep_keeps (src : ChanSource) (x : Word) (s : State) (c : Fin 12) :
    (offerStep src x s c).mem = s.mem ∧
    (offerStep src x s c).line = s.line ∧
    (offerStep src x s c).lib = s.lib ∧
    (offerStep src x s c).pos = s.pos ∧
    (offerStep src x s c).ord = s.ord ∧
    (offerStep src x s c).reg = s.reg ∧
    (offerStep src x s c).heat = s.heat ∧
    (offerStep src x s c).dose = s.dose ∧
    (offerStep src x s c).tens = s.tens ∧
    (offerStep src x s c).lastReading = s.lastReading ∧
    (offerStep src x s c).walker = s.walker ∧
    (offerStep src x s c).host = s.host ∧
    (offerStep src x s c).sent = s.sent ∧
    (offerStep src x s c).drawn = s.drawn ∧
    (offerStep src x s c).pending = s.pending := by
  and_intros <;> unfold offerStep <;> (try dsimp only) <;> (repeat' split) <;> first | with_reducible rfl | simp

@[simp] theorem offerSteps_keeps (src : ChanSource) (x : Word) (cs : List (Fin 12)) (s : State) :
    (offerSteps src x cs s).mem = s.mem ∧
    (offerSteps src x cs s).line = s.line ∧
    (offerSteps src x cs s).lib = s.lib ∧
    (offerSteps src x cs s).pos = s.pos ∧
    (offerSteps src x cs s).ord = s.ord ∧
    (offerSteps src x cs s).reg = s.reg ∧
    (offerSteps src x cs s).heat = s.heat ∧
    (offerSteps src x cs s).dose = s.dose ∧
    (offerSteps src x cs s).tens = s.tens ∧
    (offerSteps src x cs s).lastReading = s.lastReading ∧
    (offerSteps src x cs s).walker = s.walker ∧
    (offerSteps src x cs s).host = s.host ∧
    (offerSteps src x cs s).sent = s.sent ∧
    (offerSteps src x cs s).drawn = s.drawn ∧
    (offerSteps src x cs s).pending = s.pending := by
  and_intros <;> unfold offerSteps <;> (try dsimp only) <;> (repeat' split) <;> first | with_reducible rfl | simp

@[simp] theorem armChannel_keeps (src : ArmSource) (s : State) (c : Fin 12) :
    (armChannel src s c).lib = s.lib ∧
    (armChannel src s c).pos = s.pos ∧
    (armChannel src s c).ord = s.ord ∧
    (armChannel src s c).reg = s.reg ∧
    (armChannel src s c).heat = s.heat ∧
    (armChannel src s c).lastReading = s.lastReading ∧
    (armChannel src s c).sent = s.sent ∧
    (armChannel src s c).drawn = s.drawn ∧
    (armChannel src s c).pending = s.pending := by
  and_intros <;> unfold armChannel <;> (try dsimp only) <;> (repeat' split) <;> first | with_reducible rfl | simp

@[simp] theorem armEvent_keeps (src : ArmSource) (cs : List (Fin 12)) (s : State) :
    (armEvent src cs s).lib = s.lib ∧
    (armEvent src cs s).pos = s.pos ∧
    (armEvent src cs s).ord = s.ord ∧
    (armEvent src cs s).reg = s.reg ∧
    (armEvent src cs s).heat = s.heat ∧
    (armEvent src cs s).lastReading = s.lastReading ∧
    (armEvent src cs s).sent = s.sent ∧
    (armEvent src cs s).drawn = s.drawn ∧
    (armEvent src cs s).pending = s.pending := by
  and_intros <;> unfold armEvent <;> (try dsimp only) <;> (repeat' split) <;> first | with_reducible rfl | simp

@[simp] theorem markRequest_keeps (panel : Half) (s : State) :
    (markRequest panel s).lib = s.lib ∧
    (markRequest panel s).pos = s.pos ∧
    (markRequest panel s).ord = s.ord ∧
    (markRequest panel s).reg = s.reg ∧
    (markRequest panel s).heat = s.heat ∧
    (markRequest panel s).lastReading = s.lastReading ∧
    (markRequest panel s).sent = s.sent ∧
    (markRequest panel s).drawn = s.drawn ∧
    (markRequest panel s).pending = s.pending := by
  and_intros <;> unfold markRequest <;> (try dsimp only) <;> (repeat' split) <;> first | with_reducible rfl | simp

@[simp] theorem loadKnife_keeps (s : State) :
    (loadKnife s).lib = s.lib ∧
    (loadKnife s).pos = s.pos ∧
    (loadKnife s).ord = s.ord ∧
    (loadKnife s).reg = s.reg ∧
    (loadKnife s).heat = s.heat ∧
    (loadKnife s).lastReading = s.lastReading ∧
    (loadKnife s).sent = s.sent ∧
    (loadKnife s).drawn = s.drawn ∧
    (loadKnife s).pending = s.pending := by
  and_intros <;> unfold loadKnife <;> (try dsimp only) <;> (repeat' split) <;> first | with_reducible rfl | simp

@[simp] theorem cutRequest_keeps (position : Word) (panel : Half) (s : State) :
    (cutRequest position panel s).lib = s.lib ∧
    (cutRequest position panel s).pos = s.pos ∧
    (cutRequest position panel s).ord = s.ord ∧
    (cutRequest position panel s).reg = s.reg ∧
    (cutRequest position panel s).heat = s.heat ∧
    (cutRequest position panel s).lastReading = s.lastReading ∧
    (cutRequest position panel s).sent = s.sent ∧
    (cutRequest position panel s).drawn = s.drawn ∧
    (cutRequest position panel s).pending = s.pending := by
  and_intros <;> unfold cutRequest <;> (try dsimp only) <;> (repeat' split) <;> first | with_reducible rfl | simp

@[simp] theorem writeChannel_keeps (c : Fin 12) (src : ChanSource) (m : ChanMode) (reload : Nat) (a : ArmSource) (begin : Bool) (s : State) :
    (writeChannel c src m reload a begin s).lib = s.lib ∧
    (writeChannel c src m reload a begin s).pos = s.pos ∧
    (writeChannel c src m reload a begin s).ord = s.ord ∧
    (writeChannel c src m reload a begin s).reg = s.reg ∧
    (writeChannel c src m reload a begin s).heat = s.heat ∧
    (writeChannel c src m reload a begin s).lastReading = s.lastReading ∧
    (writeChannel c src m reload a begin s).sent = s.sent ∧
    (writeChannel c src m reload a begin s).drawn = s.drawn ∧
    (writeChannel c src m reload a begin s).pending = s.pending := by
  and_intros <;> unfold writeChannel <;> (try dsimp only) <;> (repeat' split) <;> first | with_reducible rfl | simp

@[simp] theorem takeTriggerSet_keeps (n : Nat) (s : State) :
    (takeTriggerSet n s).lib = s.lib ∧
    (takeTriggerSet n s).pos = s.pos ∧
    (takeTriggerSet n s).ord = s.ord ∧
    (takeTriggerSet n s).reg = s.reg ∧
    (takeTriggerSet n s).heat = s.heat ∧
    (takeTriggerSet n s).lastReading = s.lastReading ∧
    (takeTriggerSet n s).sent = s.sent ∧
    (takeTriggerSet n s).drawn = s.drawn ∧
    (takeTriggerSet n s).pending = s.pending := by
  and_intros <;> unfold takeTriggerSet <;> (try dsimp only) <;> (repeat' split) <;> first | with_reducible rfl | simp

@[simp] theorem takeTriggerGroup_keeps (n : Nat) (s : State) :
    (takeTriggerGroup n s).lib = s.lib ∧
    (takeTriggerGroup n s).pos = s.pos ∧
    (takeTriggerGroup n s).ord = s.ord ∧
    (takeTriggerGroup n s).reg = s.reg ∧
    (takeTriggerGroup n s).heat = s.heat ∧
    (takeTriggerGroup n s).lastReading = s.lastReading ∧
    (takeTriggerGroup n s).sent = s.sent ∧
    (takeTriggerGroup n s).drawn = s.drawn ∧
    (takeTriggerGroup n s).pending = s.pending := by
  and_intros <;> unfold takeTriggerGroup <;> (try dsimp only) <;> (repeat' split) <;> first | with_reducible rfl | simp

@[simp] theorem takeTriggerCorrect_keeps (n : Nat) (s : State) :
    (takeTriggerCorrect n s).line = s.line ∧
    (takeTriggerCorrect n s).lib = s.lib ∧
    (takeTriggerCorrect n s).pos = s.pos ∧
    (takeTriggerCorrect n s).ord = s.ord ∧
    (takeTriggerCorrect n s).reg = s.reg ∧
    (takeTriggerCorrect n s).heat = s.heat ∧
    (takeTriggerCorrect n s).dose = s.dose ∧
    (takeTriggerCorrect n s).tens = s.tens ∧
    (takeTriggerCorrect n s).lastReading = s.lastReading ∧
    (takeTriggerCorrect n s).sent = s.sent ∧
    (takeTriggerCorrect n s).drawn = s.drawn ∧
    (takeTriggerCorrect n s).pending = s.pending := by
  and_intros <;> unfold takeTriggerCorrect <;> (try dsimp only) <;> (repeat' split) <;> first | with_reducible rfl | simp

@[simp] theorem finishOutput_keeps (n : Nat) (detail : Word) (s : State) :
    (finishOutput n detail s).line = s.line ∧
    (finishOutput n detail s).lib = s.lib ∧
    (finishOutput n detail s).pos = s.pos ∧
    (finishOutput n detail s).trig = s.trig ∧
    (finishOutput n detail s).ord = s.ord ∧
    (finishOutput n detail s).reg = s.reg ∧
    (finishOutput n detail s).heat = s.heat ∧
    (finishOutput n detail s).dose = s.dose ∧
    (finishOutput n detail s).tens = s.tens ∧
    (finishOutput n detail s).lastReading = s.lastReading ∧
    (finishOutput n detail s).sent = s.sent ∧
    (finishOutput n detail s).drawn = s.drawn ∧
    (finishOutput n detail s).pending = s.pending := by
  and_intros <;> unfold finishOutput <;> (try dsimp only) <;> (repeat' split) <;> first | with_reducible rfl | simp

@[simp] theorem updLatch_keeps (i : Fin 8) (f : Latch → Latch) (s : State) :
    (updLatch i f s).mem = s.mem ∧
    (updLatch i f s).line = s.line ∧
    (updLatch i f s).lib = s.lib ∧
    (updLatch i f s).pos = s.pos ∧
    (updLatch i f s).ord = s.ord ∧
    (updLatch i f s).reg = s.reg ∧
    (updLatch i f s).heat = s.heat ∧
    (updLatch i f s).dose = s.dose ∧
    (updLatch i f s).tens = s.tens ∧
    (updLatch i f s).lastReading = s.lastReading ∧
    (updLatch i f s).walker = s.walker ∧
    (updLatch i f s).host = s.host ∧
    (updLatch i f s).sent = s.sent ∧
    (updLatch i f s).drawn = s.drawn ∧
    (updLatch i f s).pending = s.pending := by
  and_intros <;> unfold updLatch <;> (try dsimp only) <;> (repeat' split) <;> first | with_reducible rfl | simp

@[simp] theorem takeOutputSet_keeps (n : Nat) (s : State) :
    (takeOutputSet n s).line = s.line ∧
    (takeOutputSet n s).lib = s.lib ∧
    (takeOutputSet n s).pos = s.pos ∧
    (takeOutputSet n s).ord = s.ord ∧
    (takeOutputSet n s).reg = s.reg ∧
    (takeOutputSet n s).heat = s.heat ∧
    (takeOutputSet n s).dose = s.dose ∧
    (takeOutputSet n s).tens = s.tens ∧
    (takeOutputSet n s).lastReading = s.lastReading ∧
    (takeOutputSet n s).sent = s.sent ∧
    (takeOutputSet n s).drawn = s.drawn ∧
    (takeOutputSet n s).pending = s.pending := by
  and_intros <;> unfold takeOutputSet <;> (try dsimp only) <;> (repeat' split) <;> first | with_reducible rfl | simp

@[simp] theorem trigReset_keeps (s : State) :
    (trigReset s).mem = s.mem ∧
    (trigReset s).line = s.line ∧
    (trigReset s).lib = s.lib ∧
    (trigReset s).pos = s.pos ∧
    (trigReset s).ord = s.ord ∧
    (trigReset s).reg = s.reg ∧
    (trigReset s).heat = s.heat ∧
    (trigReset s).dose = s.dose ∧
    (trigReset s).tens = s.tens ∧
    (trigReset s).lastReading = s.lastReading ∧
    (trigReset s).walker = s.walker ∧
    (trigReset s).host = s.host ∧
    (trigReset s).sent = s.sent ∧
    (trigReset s).drawn = s.drawn ∧
    (trigReset s).pending = s.pending := by
  and_intros <;> unfold trigReset <;> (try dsimp only) <;> (repeat' split) <;> first | with_reducible rfl | simp

/-! ## Operations of Dose -/

@[simp] theorem setCells_keeps (cs : List WrapCell) (s : State) :
    (setCells cs s).mem = s.mem ∧
    (setCells cs s).line = s.line ∧
    (setCells cs s).lib = s.lib ∧
    (setCells cs s).pos = s.pos ∧
    (setCells cs s).trig = s.trig ∧
    (setCells cs s).ord = s.ord ∧
    (setCells cs s).reg = s.reg ∧
    (setCells cs s).heat = s.heat ∧
    (setCells cs s).tens = s.tens ∧
    (setCells cs s).lastReading = s.lastReading ∧
    (setCells cs s).walker = s.walker ∧
    (setCells cs s).host = s.host ∧
    (setCells cs s).sent = s.sent ∧
    (setCells cs s).drawn = s.drawn ∧
    (setCells cs s).pending = s.pending := by
  and_intros <;> unfold setCells <;> (try dsimp only) <;> (repeat' split) <;> first | with_reducible rfl | simp

@[simp] theorem foldCell_keeps (c : WrapCell) (s : State) :
    (foldCell c s).mem = s.mem ∧
    (foldCell c s).line = s.line ∧
    (foldCell c s).lib = s.lib ∧
    (foldCell c s).pos = s.pos ∧
    (foldCell c s).trig = s.trig ∧
    (foldCell c s).reg = s.reg ∧
    (foldCell c s).heat = s.heat ∧
    (foldCell c s).dose = s.dose ∧
    (foldCell c s).tens = s.tens ∧
    (foldCell c s).lastReading = s.lastReading ∧
    (foldCell c s).walker = s.walker ∧
    (foldCell c s).host = s.host ∧
    (foldCell c s).sent = s.sent ∧
    (foldCell c s).drawn = s.drawn ∧
    (foldCell c s).pending = s.pending := by
  and_intros <;> unfold foldCell <;> (try dsimp only) <;> (repeat' split) <;> first | with_reducible rfl | simp

@[simp] theorem shiftCells_keeps (m : Word) (s : State) :
    (shiftCells m s).mem = s.mem ∧
    (shiftCells m s).line = s.line ∧
    (shiftCells m s).lib = s.lib ∧
    (shiftCells m s).pos = s.pos ∧
    (shiftCells m s).trig = s.trig ∧
    (shiftCells m s).reg = s.reg ∧
    (shiftCells m s).heat = s.heat ∧
    (shiftCells m s).tens = s.tens ∧
    (shiftCells m s).lastReading = s.lastReading ∧
    (shiftCells m s).walker = s.walker ∧
    (shiftCells m s).host = s.host ∧
    (shiftCells m s).sent = s.sent ∧
    (shiftCells m s).drawn = s.drawn ∧
    (shiftCells m s).pending = s.pending := by
  and_intros <;> unfold shiftCells <;> (try dsimp only) <;> (repeat' split) <;> first | with_reducible rfl | simp

@[simp] theorem crossCells_keeps (s : State) :
    (crossCells s).mem = s.mem ∧
    (crossCells s).line = s.line ∧
    (crossCells s).lib = s.lib ∧
    (crossCells s).pos = s.pos ∧
    (crossCells s).trig = s.trig ∧
    (crossCells s).reg = s.reg ∧
    (crossCells s).heat = s.heat ∧
    (crossCells s).tens = s.tens ∧
    (crossCells s).lastReading = s.lastReading ∧
    (crossCells s).walker = s.walker ∧
    (crossCells s).host = s.host ∧
    (crossCells s).sent = s.sent ∧
    (crossCells s).drawn = s.drawn ∧
    (crossCells s).pending = s.pending := by
  and_intros <;> unfold crossCells <;> (try dsimp only) <;> (repeat' split) <;> first | with_reducible rfl | simp

@[simp] theorem nameTail_keeps (n : Half) (f : Word) (s : State) :
    (nameTail n f s).mem = s.mem ∧
    (nameTail n f s).line = s.line ∧
    (nameTail n f s).lib = s.lib ∧
    (nameTail n f s).pos = s.pos ∧
    (nameTail n f s).trig = s.trig ∧
    (nameTail n f s).ord = s.ord ∧
    (nameTail n f s).reg = s.reg ∧
    (nameTail n f s).heat = s.heat ∧
    (nameTail n f s).tens = s.tens ∧
    (nameTail n f s).lastReading = s.lastReading ∧
    (nameTail n f s).walker = s.walker ∧
    (nameTail n f s).host = s.host ∧
    (nameTail n f s).sent = s.sent ∧
    (nameTail n f s).drawn = s.drawn ∧
    (nameTail n f s).pending = s.pending := by
  and_intros <;> unfold nameTail <;> (try dsimp only) <;> (repeat' split) <;> first | with_reducible rfl | simp

@[simp] theorem completeDose_keeps (s : State) :
    (completeDose s).mem = s.mem ∧
    (completeDose s).line = s.line ∧
    (completeDose s).lib = s.lib ∧
    (completeDose s).pos = s.pos ∧
    (completeDose s).trig = s.trig ∧
    (completeDose s).reg = s.reg ∧
    (completeDose s).heat = s.heat ∧
    (completeDose s).dose = s.dose ∧
    (completeDose s).tens = s.tens ∧
    (completeDose s).lastReading = s.lastReading ∧
    (completeDose s).walker = s.walker ∧
    (completeDose s).host = s.host ∧
    (completeDose s).sent = s.sent ∧
    (completeDose s).drawn = s.drawn ∧
    (completeDose s).pending = s.pending := by
  and_intros <;> unfold completeDose <;> (try dsimp only) <;> (repeat' split) <;> first | with_reducible rfl | simp

@[simp] theorem wrapReached_keeps (w : WrapState) (s : State) :
    (wrapReached w s).mem = s.mem ∧
    (wrapReached w s).lib = s.lib ∧
    (wrapReached w s).pos = s.pos ∧
    (wrapReached w s).trig = s.trig ∧
    (wrapReached w s).ord = s.ord ∧
    (wrapReached w s).reg = s.reg ∧
    (wrapReached w s).heat = s.heat ∧
    (wrapReached w s).tens = s.tens ∧
    (wrapReached w s).lastReading = s.lastReading ∧
    (wrapReached w s).walker = s.walker ∧
    (wrapReached w s).host = s.host ∧
    (wrapReached w s).sent = s.sent ∧
    (wrapReached w s).drawn = s.drawn ∧
    (wrapReached w s).pending = s.pending := by
  and_intros <;> unfold wrapReached <;> (try dsimp only) <;> (repeat' split) <;> first | with_reducible rfl | simp

@[simp] theorem wrapReport_keeps (r : WrapReport) (s : State) :
    (wrapReport r s).mem = s.mem ∧
    (wrapReport r s).pos = s.pos ∧
    (wrapReport r s).trig = s.trig ∧
    (wrapReport r s).reg = s.reg ∧
    (wrapReport r s).heat = s.heat ∧
    (wrapReport r s).tens = s.tens ∧
    (wrapReport r s).lastReading = s.lastReading ∧
    (wrapReport r s).walker = s.walker ∧
    (wrapReport r s).host = s.host ∧
    (wrapReport r s).drawn = s.drawn ∧
    (wrapReport r s).pending = s.pending := by
  and_intros <;> unfold wrapReport <;> (try dsimp only) <;> (repeat' split) <;> first | with_reducible rfl | simp

@[simp] theorem wrapTimedOut_keeps (s : State) :
    (wrapTimedOut s).pos = s.pos ∧
    (wrapTimedOut s).trig = s.trig ∧
    (wrapTimedOut s).reg = s.reg ∧
    (wrapTimedOut s).lastReading = s.lastReading ∧
    (wrapTimedOut s).drawn = s.drawn ∧
    (wrapTimedOut s).pending = s.pending := by
  and_intros <;> unfold wrapTimedOut <;> (try dsimp only) <;> (repeat' split) <;> first | with_reducible rfl | simp

@[simp] theorem accumulate_keeps (s : State) :
    (accumulate s).mem = s.mem ∧
    (accumulate s).line = s.line ∧
    (accumulate s).lib = s.lib ∧
    (accumulate s).pos = s.pos ∧
    (accumulate s).trig = s.trig ∧
    (accumulate s).reg = s.reg ∧
    (accumulate s).heat = s.heat ∧
    (accumulate s).tens = s.tens ∧
    (accumulate s).lastReading = s.lastReading ∧
    (accumulate s).walker = s.walker ∧
    (accumulate s).host = s.host ∧
    (accumulate s).sent = s.sent ∧
    (accumulate s).drawn = s.drawn ∧
    (accumulate s).pending = s.pending := by
  and_intros <;> unfold accumulate <;> (try dsimp only) <;> (repeat' split) <;> first | with_reducible rfl | simp

@[simp] theorem govern_keeps (s : State) :
    (govern s).mem = s.mem ∧
    (govern s).line = s.line ∧
    (govern s).lib = s.lib ∧
    (govern s).pos = s.pos ∧
    (govern s).trig = s.trig ∧
    (govern s).ord = s.ord ∧
    (govern s).reg = s.reg ∧
    (govern s).heat = s.heat ∧
    (govern s).tens = s.tens ∧
    (govern s).lastReading = s.lastReading ∧
    (govern s).walker = s.walker ∧
    (govern s).host = s.host ∧
    (govern s).sent = s.sent ∧
    (govern s).drawn = s.drawn ∧
    (govern s).pending = s.pending := by
  and_intros <;> unfold govern <;> (try dsimp only) <;> (repeat' split) <;> first | with_reducible rfl | simp

@[simp] theorem stepSpeed_keeps (s : State) :
    (stepSpeed s).mem = s.mem ∧
    (stepSpeed s).line = s.line ∧
    (stepSpeed s).lib = s.lib ∧
    (stepSpeed s).pos = s.pos ∧
    (stepSpeed s).trig = s.trig ∧
    (stepSpeed s).ord = s.ord ∧
    (stepSpeed s).reg = s.reg ∧
    (stepSpeed s).heat = s.heat ∧
    (stepSpeed s).tens = s.tens ∧
    (stepSpeed s).lastReading = s.lastReading ∧
    (stepSpeed s).walker = s.walker ∧
    (stepSpeed s).host = s.host ∧
    (stepSpeed s).sent = s.sent ∧
    (stepSpeed s).drawn = s.drawn ∧
    (stepSpeed s).pending = s.pending := by
  and_intros <;> unfold stepSpeed <;> (try dsimp only) <;> (repeat' split) <;> first | with_reducible rfl | simp

@[simp] theorem starveTest_keeps (s : State) :
    (starveTest s).pos = s.pos ∧
    (starveTest s).trig = s.trig ∧
    (starveTest s).reg = s.reg ∧
    (starveTest s).lastReading = s.lastReading ∧
    (starveTest s).drawn = s.drawn ∧
    (starveTest s).pending = s.pending := by
  and_intros <;> unfold starveTest <;> (try dsimp only) <;> (repeat' split) <;> first | with_reducible rfl | simp

@[simp] theorem doseStep_keeps (s : State) :
    (doseStep s).pos = s.pos ∧
    (doseStep s).trig = s.trig ∧
    (doseStep s).reg = s.reg ∧
    (doseStep s).lastReading = s.lastReading ∧
    (doseStep s).drawn = s.drawn ∧
    (doseStep s).pending = s.pending := by
  and_intros <;> unfold doseStep <;> (try dsimp only) <;> (repeat' split) <;> first | with_reducible rfl | simp

@[simp] theorem limitSpeed_keeps (s : State) :
    (limitSpeed s).mem = s.mem ∧
    (limitSpeed s).line = s.line ∧
    (limitSpeed s).lib = s.lib ∧
    (limitSpeed s).pos = s.pos ∧
    (limitSpeed s).trig = s.trig ∧
    (limitSpeed s).ord = s.ord ∧
    (limitSpeed s).reg = s.reg ∧
    (limitSpeed s).heat = s.heat ∧
    (limitSpeed s).tens = s.tens ∧
    (limitSpeed s).lastReading = s.lastReading ∧
    (limitSpeed s).walker = s.walker ∧
    (limitSpeed s).host = s.host ∧
    (limitSpeed s).sent = s.sent ∧
    (limitSpeed s).drawn = s.drawn ∧
    (limitSpeed s).pending = s.pending := by
  and_intros <;> unfold limitSpeed <;> (try dsimp only) <;> (repeat' split) <;> first | with_reducible rfl | simp

@[simp] theorem resetCells_keeps (s : State) :
    (resetCells s).mem = s.mem ∧
    (resetCells s).line = s.line ∧
    (resetCells s).lib = s.lib ∧
    (resetCells s).pos = s.pos ∧
    (resetCells s).trig = s.trig ∧
    (resetCells s).ord = s.ord ∧
    (resetCells s).reg = s.reg ∧
    (resetCells s).heat = s.heat ∧
    (resetCells s).tens = s.tens ∧
    (resetCells s).lastReading = s.lastReading ∧
    (resetCells s).walker = s.walker ∧
    (resetCells s).host = s.host ∧
    (resetCells s).sent = s.sent ∧
    (resetCells s).drawn = s.drawn ∧
    (resetCells s).pending = s.pending := by
  and_intros <;> unfold resetCells <;> (try dsimp only) <;> (repeat' split) <;> first | with_reducible rfl | simp

/-! ## Operations of Registration -/

@[simp] theorem setQueue_keeps (q : List Piece) (s : State) :
    (setQueue q s).mem = s.mem ∧
    (setQueue q s).line = s.line ∧
    (setQueue q s).lib = s.lib ∧
    (setQueue q s).pos = s.pos ∧
    (setQueue q s).trig = s.trig ∧
    (setQueue q s).ord = s.ord ∧
    (setQueue q s).heat = s.heat ∧
    (setQueue q s).dose = s.dose ∧
    (setQueue q s).tens = s.tens ∧
    (setQueue q s).lastReading = s.lastReading ∧
    (setQueue q s).walker = s.walker ∧
    (setQueue q s).host = s.host ∧
    (setQueue q s).sent = s.sent ∧
    (setQueue q s).drawn = s.drawn ∧
    (setQueue q s).pending = s.pending := by
  and_intros <;> unfold setQueue <;> (try dsimp only) <;> (repeat' split) <;> first | with_reducible rfl | simp

@[simp] theorem limitPairing_keeps (n : Half) (offset : Int) (xf : Word) (s : State) :
    (limitPairing n offset xf s).line = s.line ∧
    (limitPairing n offset xf s).lib = s.lib ∧
    (limitPairing n offset xf s).pos = s.pos ∧
    (limitPairing n offset xf s).trig = s.trig ∧
    (limitPairing n offset xf s).reg = s.reg ∧
    (limitPairing n offset xf s).heat = s.heat ∧
    (limitPairing n offset xf s).dose = s.dose ∧
    (limitPairing n offset xf s).tens = s.tens ∧
    (limitPairing n offset xf s).lastReading = s.lastReading ∧
    (limitPairing n offset xf s).walker = s.walker ∧
    (limitPairing n offset xf s).sent = s.sent ∧
    (limitPairing n offset xf s).drawn = s.drawn ∧
    (limitPairing n offset xf s).pending = s.pending := by
  and_intros <;> unfold limitPairing <;> (try dsimp only) <;> (repeat' split) <;> first | with_reducible rfl | simp

@[simp] theorem pairPanel_keeps (n : Half) (xp : Word) (s : State) :
    (pairPanel n xp s).line = s.line ∧
    (pairPanel n xp s).lib = s.lib ∧
    (pairPanel n xp s).pos = s.pos ∧
    (pairPanel n xp s).trig = s.trig ∧
    (pairPanel n xp s).heat = s.heat ∧
    (pairPanel n xp s).dose = s.dose ∧
    (pairPanel n xp s).tens = s.tens ∧
    (pairPanel n xp s).lastReading = s.lastReading ∧
    (pairPanel n xp s).walker = s.walker ∧
    (pairPanel n xp s).sent = s.sent ∧
    (pairPanel n xp s).drawn = s.drawn ∧
    (pairPanel n xp s).pending = s.pending := by
  and_intros <;> unfold pairPanel <;> (try dsimp only) <;> (repeat' split) <;> first | with_reducible rfl | simp

@[simp] theorem setTarget_keeps (n : Half) (target : Int) (limited : Bool) (s : State) :
    (setTarget n target limited s).pos = s.pos ∧
    (setTarget n target limited s).trig = s.trig ∧
    (setTarget n target limited s).lastReading = s.lastReading ∧
    (setTarget n target limited s).drawn = s.drawn ∧
    (setTarget n target limited s).pending = s.pending := by
  and_intros <;> unfold setTarget <;> (try dsimp only) <;> (repeat' split) <;> first | with_reducible rfl | simp

@[simp] theorem review_keeps (s : State) :
    (review s).pos = s.pos ∧
    (review s).trig = s.trig ∧
    (review s).lastReading = s.lastReading ∧
    (review s).drawn = s.drawn ∧
    (review s).pending = s.pending := by
  and_intros <;> unfold review <;> (try dsimp only) <;> (repeat' split) <;> first | with_reducible rfl | simp

@[simp] theorem setList_keeps (l : List Half) (s : State) :
    (setList l s).mem = s.mem ∧
    (setList l s).line = s.line ∧
    (setList l s).lib = s.lib ∧
    (setList l s).pos = s.pos ∧
    (setList l s).trig = s.trig ∧
    (setList l s).ord = s.ord ∧
    (setList l s).heat = s.heat ∧
    (setList l s).dose = s.dose ∧
    (setList l s).tens = s.tens ∧
    (setList l s).lastReading = s.lastReading ∧
    (setList l s).walker = s.walker ∧
    (setList l s).host = s.host ∧
    (setList l s).sent = s.sent ∧
    (setList l s).drawn = s.drawn ∧
    (setList l s).pending = s.pending := by
  and_intros <;> unfold setList <;> (try dsimp only) <;> (repeat' split) <;> first | with_reducible rfl | simp

@[simp] theorem stagePanel_keeps (n : Half) (s : State) :
    (stagePanel n s).pos = s.pos ∧
    (stagePanel n s).trig = s.trig ∧
    (stagePanel n s).lastReading = s.lastReading ∧
    (stagePanel n s).drawn = s.drawn ∧
    (stagePanel n s).pending = s.pending := by
  and_intros <;> unfold stagePanel <;> (try dsimp only) <;> (repeat' split) <;> first | with_reducible rfl | simp

@[simp] theorem passWindow_keeps (s : State) (n : Half) :
    (passWindow s n).pos = s.pos ∧
    (passWindow s n).trig = s.trig ∧
    (passWindow s n).lastReading = s.lastReading ∧
    (passWindow s n).drawn = s.drawn ∧
    (passWindow s n).pending = s.pending := by
  and_intros <;> unfold passWindow <;> (try dsimp only) <;> (repeat' split) <;> first | with_reducible rfl | simp

@[simp] theorem windowTests_keeps (s : State) :
    (windowTests s).pos = s.pos ∧
    (windowTests s).trig = s.trig ∧
    (windowTests s).lastReading = s.lastReading ∧
    (windowTests s).drawn = s.drawn ∧
    (windowTests s).pending = s.pending := by
  and_intros <;> unfold windowTests <;> (try dsimp only) <;> (repeat' split) <;> first | with_reducible rfl | simp

@[simp] theorem paperMarkAt_keeps (st : Stamp) (s : State) :
    (paperMarkAt st s).pos = s.pos ∧
    (paperMarkAt st s).trig = s.trig ∧
    (paperMarkAt st s).lastReading = s.lastReading ∧
    (paperMarkAt st s).drawn = s.drawn ∧
    (paperMarkAt st s).pending = s.pending := by
  and_intros <;> unfold paperMarkAt <;> (try dsimp only) <;> (repeat' split) <;> first | with_reducible rfl | simp

@[simp] theorem retryPanel_keeps (s : State) (n : Half) :
    (retryPanel s n).line = s.line ∧
    (retryPanel s n).lib = s.lib ∧
    (retryPanel s n).pos = s.pos ∧
    (retryPanel s n).trig = s.trig ∧
    (retryPanel s n).heat = s.heat ∧
    (retryPanel s n).dose = s.dose ∧
    (retryPanel s n).tens = s.tens ∧
    (retryPanel s n).lastReading = s.lastReading ∧
    (retryPanel s n).walker = s.walker ∧
    (retryPanel s n).sent = s.sent ∧
    (retryPanel s n).drawn = s.drawn ∧
    (retryPanel s n).pending = s.pending := by
  and_intros <;> unfold retryPanel <;> (try dsimp only) <;> (repeat' split) <;> first | with_reducible rfl | simp

@[simp] theorem retryWaiting_keeps (s : State) :
    (retryWaiting s).pos = s.pos ∧
    (retryWaiting s).trig = s.trig ∧
    (retryWaiting s).lastReading = s.lastReading ∧
    (retryWaiting s).drawn = s.drawn ∧
    (retryWaiting s).pending = s.pending := by
  and_intros <;> unfold retryWaiting <;> (try dsimp only) <;> (repeat' split) <;> first | with_reducible rfl | simp

@[simp] theorem fabricMarkAt_keeps (x : Word) (s : State) :
    (fabricMarkAt x s).pos = s.pos ∧
    (fabricMarkAt x s).trig = s.trig ∧
    (fabricMarkAt x s).lastReading = s.lastReading ∧
    (fabricMarkAt x s).drawn = s.drawn ∧
    (fabricMarkAt x s).pending = s.pending := by
  and_intros <;> unfold fabricMarkAt <;> (try dsimp only) <;> (repeat' split) <;> first | with_reducible rfl | simp

@[simp] theorem addStretch_keeps (size : Nat) (s : State) :
    (addStretch size s).mem = s.mem ∧
    (addStretch size s).line = s.line ∧
    (addStretch size s).lib = s.lib ∧
    (addStretch size s).pos = s.pos ∧
    (addStretch size s).trig = s.trig ∧
    (addStretch size s).reg = s.reg ∧
    (addStretch size s).heat = s.heat ∧
    (addStretch size s).dose = s.dose ∧
    (addStretch size s).tens = s.tens ∧
    (addStretch size s).lastReading = s.lastReading ∧
    (addStretch size s).walker = s.walker ∧
    (addStretch size s).host = s.host ∧
    (addStretch size s).sent = s.sent ∧
    (addStretch size s).drawn = s.drawn ∧
    (addStretch size s).pending = s.pending := by
  and_intros <;> unfold addStretch <;> (try dsimp only) <;> (repeat' split) <;> first | with_reducible rfl | simp

@[simp] theorem finishHome_keeps (s : State) :
    (finishHome s).pos = s.pos ∧
    (finishHome s).trig = s.trig ∧
    (finishHome s).lastReading = s.lastReading ∧
    (finishHome s).drawn = s.drawn ∧
    (finishHome s).pending = s.pending := by
  and_intros <;> unfold finishHome <;> (try dsimp only) <;> (repeat' split) <;> first | with_reducible rfl | simp

@[simp] theorem rollerStage_keeps (s : State) :
    (rollerStage s).pos = s.pos ∧
    (rollerStage s).trig = s.trig ∧
    (rollerStage s).lastReading = s.lastReading ∧
    (rollerStage s).drawn = s.drawn ∧
    (rollerStage s).pending = s.pending := by
  and_intros <;> unfold rollerStage <;> (try dsimp only) <;> (repeat' split) <;> first | with_reducible rfl | simp

@[simp] theorem nipHandover_keeps (i : Fin 16) (s : State) :
    (nipHandover i s).mem = s.mem ∧
    (nipHandover i s).line = s.line ∧
    (nipHandover i s).lib = s.lib ∧
    (nipHandover i s).pos = s.pos ∧
    (nipHandover i s).trig = s.trig ∧
    (nipHandover i s).ord = s.ord ∧
    (nipHandover i s).reg = s.reg ∧
    (nipHandover i s).heat = s.heat ∧
    (nipHandover i s).dose = s.dose ∧
    (nipHandover i s).lastReading = s.lastReading ∧
    (nipHandover i s).walker = s.walker ∧
    (nipHandover i s).sent = s.sent ∧
    (nipHandover i s).drawn = s.drawn ∧
    (nipHandover i s).pending = s.pending := by
  and_intros <;> unfold nipHandover <;> (try dsimp only) <;> (repeat' split) <;> first | with_reducible rfl | simp

@[simp] theorem arrive_keeps (p : Panel) (s : State) :
    (arrive p s).pos = s.pos ∧
    (arrive p s).trig = s.trig ∧
    (arrive p s).lastReading = s.lastReading ∧
    (arrive p s).drawn = s.drawn ∧
    (arrive p s).pending = s.pending := by
  and_intros <;> unfold arrive <;> (try dsimp only) <;> (repeat' split) <;> first | with_reducible rfl | simp

@[simp] theorem arrivalTest_keeps (s : State) (n : Half) :
    (arrivalTest s n).pos = s.pos ∧
    (arrivalTest s n).trig = s.trig ∧
    (arrivalTest s n).lastReading = s.lastReading ∧
    (arrivalTest s n).drawn = s.drawn ∧
    (arrivalTest s n).pending = s.pending := by
  and_intros <;> unfold arrivalTest <;> (try dsimp only) <;> (repeat' split) <;> first | with_reducible rfl | simp

@[simp] theorem arrivalStage_keeps (s : State) :
    (arrivalStage s).pos = s.pos ∧
    (arrivalStage s).trig = s.trig ∧
    (arrivalStage s).lastReading = s.lastReading ∧
    (arrivalStage s).drawn = s.drawn ∧
    (arrivalStage s).pending = s.pending := by
  and_intros <;> unfold arrivalStage <;> (try dsimp only) <;> (repeat' split) <;> first | with_reducible rfl | simp

@[simp] theorem leavePiece_keeps (p : Piece) (full : Bool) (s : State) :
    (leavePiece p full s).lib = s.lib ∧
    (leavePiece p full s).pos = s.pos ∧
    (leavePiece p full s).trig = s.trig ∧
    (leavePiece p full s).ord = s.ord ∧
    (leavePiece p full s).reg = s.reg ∧
    (leavePiece p full s).heat = s.heat ∧
    (leavePiece p full s).dose = s.dose ∧
    (leavePiece p full s).tens = s.tens ∧
    (leavePiece p full s).lastReading = s.lastReading ∧
    (leavePiece p full s).walker = s.walker ∧
    (leavePiece p full s).sent = s.sent ∧
    (leavePiece p full s).drawn = s.drawn ∧
    (leavePiece p full s).pending = s.pending := by
  and_intros <;> unfold leavePiece <;> (try dsimp only) <;> (repeat' split) <;> first | with_reducible rfl | simp

@[simp] theorem leavePieces_keeps (ps : List Piece) (s : State) :
    (leavePieces s ps).lib = s.lib ∧
    (leavePieces s ps).pos = s.pos ∧
    (leavePieces s ps).trig = s.trig ∧
    (leavePieces s ps).ord = s.ord ∧
    (leavePieces s ps).heat = s.heat ∧
    (leavePieces s ps).dose = s.dose ∧
    (leavePieces s ps).tens = s.tens ∧
    (leavePieces s ps).lastReading = s.lastReading ∧
    (leavePieces s ps).walker = s.walker ∧
    (leavePieces s ps).sent = s.sent ∧
    (leavePieces s ps).drawn = s.drawn ∧
    (leavePieces s ps).pending = s.pending := by
  induction ps generalizing s with
  | nil => simp [leavePieces]
  | cons p ps ih =>
    unfold leavePieces
    split
    · simpa using ih (leavePiece p (decide (8 ≤ (p :: ps).length)) s)
    · simp

@[simp] theorem pieceStage_keeps (s : State) :
    (pieceStage s).lib = s.lib ∧
    (pieceStage s).pos = s.pos ∧
    (pieceStage s).trig = s.trig ∧
    (pieceStage s).ord = s.ord ∧
    (pieceStage s).heat = s.heat ∧
    (pieceStage s).dose = s.dose ∧
    (pieceStage s).tens = s.tens ∧
    (pieceStage s).lastReading = s.lastReading ∧
    (pieceStage s).walker = s.walker ∧
    (pieceStage s).sent = s.sent ∧
    (pieceStage s).drawn = s.drawn ∧
    (pieceStage s).pending = s.pending := by
  and_intros <;> unfold pieceStage <;> (try dsimp only) <;> (repeat' split) <;> first | with_reducible rfl | simp

@[simp] theorem registrationStep_keeps (crosses : Bool) (s : State) :
    (registrationStep crosses s).pos = s.pos ∧
    (registrationStep crosses s).trig = s.trig ∧
    (registrationStep crosses s).lastReading = s.lastReading ∧
    (registrationStep crosses s).drawn = s.drawn ∧
    (registrationStep crosses s).pending = s.pending := by
  and_intros <;> unfold registrationStep <;> (try dsimp only) <;> (repeat' split) <;> first | with_reducible rfl | simp

@[simp] theorem takePhaseHome_keeps (n : Nat) (s : State) :
    (takePhaseHome n s).pos = s.pos ∧
    (takePhaseHome n s).trig = s.trig ∧
    (takePhaseHome n s).lastReading = s.lastReading ∧
    (takePhaseHome n s).drawn = s.drawn ∧
    (takePhaseHome n s).pending = s.pending := by
  and_intros <;> unfold takePhaseHome <;> (try dsimp only) <;> (repeat' split) <;> first | with_reducible rfl | simp

@[simp] theorem regReset_keeps (s : State) :
    (regReset s).lib = s.lib ∧
    (regReset s).pos = s.pos ∧
    (regReset s).trig = s.trig ∧
    (regReset s).ord = s.ord ∧
    (regReset s).heat = s.heat ∧
    (regReset s).dose = s.dose ∧
    (regReset s).tens = s.tens ∧
    (regReset s).lastReading = s.lastReading ∧
    (regReset s).sent = s.sent ∧
    (regReset s).drawn = s.drawn ∧
    (regReset s).pending = s.pending := by
  and_intros <;> unfold regReset <;> (try dsimp only) <;> (repeat' split) <;> first | with_reducible rfl | simp

/-! ## Operations of Tension -/

@[simp] theorem updateHeld_keeps (s : State) :
    (updateHeld s).mem = s.mem ∧
    (updateHeld s).line = s.line ∧
    (updateHeld s).lib = s.lib ∧
    (updateHeld s).pos = s.pos ∧
    (updateHeld s).trig = s.trig ∧
    (updateHeld s).ord = s.ord ∧
    (updateHeld s).reg = s.reg ∧
    (updateHeld s).heat = s.heat ∧
    (updateHeld s).dose = s.dose ∧
    (updateHeld s).lastReading = s.lastReading ∧
    (updateHeld s).walker = s.walker ∧
    (updateHeld s).host = s.host ∧
    (updateHeld s).sent = s.sent ∧
    (updateHeld s).drawn = s.drawn ∧
    (updateHeld s).pending = s.pending := by
  and_intros <;> unfold updateHeld <;> (try dsimp only) <;> (repeat' split) <;> first | with_reducible rfl | simp

@[simp] theorem finishAuto_keeps (z : Fin 4) (e : AutoEnd) (s : State) :
    (finishAuto z e s).line = s.line ∧
    (finishAuto z e s).lib = s.lib ∧
    (finishAuto z e s).pos = s.pos ∧
    (finishAuto z e s).trig = s.trig ∧
    (finishAuto z e s).ord = s.ord ∧
    (finishAuto z e s).reg = s.reg ∧
    (finishAuto z e s).heat = s.heat ∧
    (finishAuto z e s).dose = s.dose ∧
    (finishAuto z e s).lastReading = s.lastReading ∧
    (finishAuto z e s).sent = s.sent ∧
    (finishAuto z e s).drawn = s.drawn ∧
    (finishAuto z e s).pending = s.pending := by
  and_intros <;> unfold finishAuto <;> (try dsimp only) <;> (repeat' split) <;> first | with_reducible rfl | simp

@[simp] theorem raiseLostCells_keeps (z : Fin 4) (sides : List Side) (s : State) :
    (raiseLostCells z sides s).pos = s.pos ∧
    (raiseLostCells z sides s).trig = s.trig ∧
    (raiseLostCells z sides s).reg = s.reg ∧
    (raiseLostCells z sides s).lastReading = s.lastReading ∧
    (raiseLostCells z sides s).drawn = s.drawn ∧
    (raiseLostCells z sides s).pending = s.pending := by
  and_intros <;> unfold raiseLostCells <;> (try dsimp only) <;> (repeat' split) <;> first | with_reducible rfl | simp

@[simp] theorem raiseZoneLost_keeps (z : Fin 4) (s : State) :
    (raiseZoneLost z s).pos = s.pos ∧
    (raiseZoneLost z s).trig = s.trig ∧
    (raiseZoneLost z s).reg = s.reg ∧
    (raiseZoneLost z s).lastReading = s.lastReading ∧
    (raiseZoneLost z s).drawn = s.drawn ∧
    (raiseZoneLost z s).pending = s.pending := by
  and_intros <;> unfold raiseZoneLost <;> (try dsimp only) <;> (repeat' split) <;> first | with_reducible rfl | simp

@[simp] theorem raiseBreak_keeps (z : Fin 4) (s : State) :
    (raiseBreak z s).pos = s.pos ∧
    (raiseBreak z s).trig = s.trig ∧
    (raiseBreak z s).reg = s.reg ∧
    (raiseBreak z s).lastReading = s.lastReading ∧
    (raiseBreak z s).drawn = s.drawn ∧
    (raiseBreak z s).pending = s.pending := by
  and_intros <;> unfold raiseBreak <;> (try dsimp only) <;> (repeat' split) <;> first | with_reducible rfl | simp

@[simp] theorem raiseSkew_keeps (z : Fin 4) (s : State) :
    (raiseSkew z s).pos = s.pos ∧
    (raiseSkew z s).trig = s.trig ∧
    (raiseSkew z s).reg = s.reg ∧
    (raiseSkew z s).lastReading = s.lastReading ∧
    (raiseSkew z s).drawn = s.drawn ∧
    (raiseSkew z s).pending = s.pending := by
  and_intros <;> unfold raiseSkew <;> (try dsimp only) <;> (repeat' split) <;> first | with_reducible rfl | simp

@[simp] theorem reportAuto_keeps (z : Fin 4) (e : Option AutoEnd) (s : State) :
    (reportAuto z e s).line = s.line ∧
    (reportAuto z e s).lib = s.lib ∧
    (reportAuto z e s).pos = s.pos ∧
    (reportAuto z e s).trig = s.trig ∧
    (reportAuto z e s).ord = s.ord ∧
    (reportAuto z e s).reg = s.reg ∧
    (reportAuto z e s).heat = s.heat ∧
    (reportAuto z e s).dose = s.dose ∧
    (reportAuto z e s).lastReading = s.lastReading ∧
    (reportAuto z e s).sent = s.sent ∧
    (reportAuto z e s).drawn = s.drawn ∧
    (reportAuto z e s).pending = s.pending := by
  and_intros <;> unfold reportAuto <;> (try dsimp only) <;> (repeat' split) <;> first | with_reducible rfl | simp

@[simp] theorem reportZone_keeps (z : Fin 4) (r : ZoneSample) (s : State) :
    (reportZone z r s).pos = s.pos ∧
    (reportZone z r s).trig = s.trig ∧
    (reportZone z r s).reg = s.reg ∧
    (reportZone z r s).lastReading = s.lastReading ∧
    (reportZone z r s).drawn = s.drawn ∧
    (reportZone z r s).pending = s.pending := by
  and_intros <;> unfold reportZone <;> (try dsimp only) <;> (repeat' split) <;> first | with_reducible rfl | simp

@[simp] theorem endWhen_keeps (b : Bool) (a : Alarm) (s : State) :
    (endWhen b a s).mem = s.mem ∧
    (endWhen b a s).lib = s.lib ∧
    (endWhen b a s).pos = s.pos ∧
    (endWhen b a s).trig = s.trig ∧
    (endWhen b a s).ord = s.ord ∧
    (endWhen b a s).reg = s.reg ∧
    (endWhen b a s).heat = s.heat ∧
    (endWhen b a s).dose = s.dose ∧
    (endWhen b a s).tens = s.tens ∧
    (endWhen b a s).lastReading = s.lastReading ∧
    (endWhen b a s).walker = s.walker ∧
    (endWhen b a s).host = s.host ∧
    (endWhen b a s).sent = s.sent ∧
    (endWhen b a s).drawn = s.drawn ∧
    (endWhen b a s).pending = s.pending := by
  and_intros <;> unfold endWhen <;> (try dsimp only) <;> (repeat' split) <;> first | with_reducible rfl | simp

@[simp] theorem endTensionAlarms_keeps (s : State) :
    (endTensionAlarms s).mem = s.mem ∧
    (endTensionAlarms s).lib = s.lib ∧
    (endTensionAlarms s).pos = s.pos ∧
    (endTensionAlarms s).trig = s.trig ∧
    (endTensionAlarms s).ord = s.ord ∧
    (endTensionAlarms s).reg = s.reg ∧
    (endTensionAlarms s).heat = s.heat ∧
    (endTensionAlarms s).dose = s.dose ∧
    (endTensionAlarms s).tens = s.tens ∧
    (endTensionAlarms s).lastReading = s.lastReading ∧
    (endTensionAlarms s).walker = s.walker ∧
    (endTensionAlarms s).host = s.host ∧
    (endTensionAlarms s).sent = s.sent ∧
    (endTensionAlarms s).drawn = s.drawn ∧
    (endTensionAlarms s).pending = s.pending := by
  and_intros <;> unfold endTensionAlarms <;> (try dsimp only) <;> (repeat' split) <;> first | with_reducible rfl | simp

@[simp] theorem setSampled_keeps (a b c d : TensionZone) (s : State) :
    (setSampled a b c d s).mem = s.mem ∧
    (setSampled a b c d s).line = s.line ∧
    (setSampled a b c d s).lib = s.lib ∧
    (setSampled a b c d s).pos = s.pos ∧
    (setSampled a b c d s).trig = s.trig ∧
    (setSampled a b c d s).ord = s.ord ∧
    (setSampled a b c d s).reg = s.reg ∧
    (setSampled a b c d s).heat = s.heat ∧
    (setSampled a b c d s).dose = s.dose ∧
    (setSampled a b c d s).lastReading = s.lastReading ∧
    (setSampled a b c d s).walker = s.walker ∧
    (setSampled a b c d s).host = s.host ∧
    (setSampled a b c d s).sent = s.sent ∧
    (setSampled a b c d s).drawn = s.drawn ∧
    (setSampled a b c d s).pending = s.pending := by
  and_intros <;> unfold setSampled <;> (try dsimp only) <;> (repeat' split) <;> first | with_reducible rfl | simp

@[simp] theorem tensionStep_keeps (a b c d : RawPair) (s : State) :
    (tensionStep a b c d s).pos = s.pos ∧
    (tensionStep a b c d s).trig = s.trig ∧
    (tensionStep a b c d s).reg = s.reg ∧
    (tensionStep a b c d s).lastReading = s.lastReading ∧
    (tensionStep a b c d s).drawn = s.drawn ∧
    (tensionStep a b c d s).pending = s.pending := by
  and_intros <;> unfold tensionStep <;> (try dsimp only) <;> (repeat' split) <;> first | with_reducible rfl | simp

@[simp] theorem holdTest_keeps (old new : Word) (s : State) (z : Fin 4) :
    (holdTest old new s z).mem = s.mem ∧
    (holdTest old new s z).line = s.line ∧
    (holdTest old new s z).lib = s.lib ∧
    (holdTest old new s z).pos = s.pos ∧
    (holdTest old new s z).trig = s.trig ∧
    (holdTest old new s z).ord = s.ord ∧
    (holdTest old new s z).reg = s.reg ∧
    (holdTest old new s z).heat = s.heat ∧
    (holdTest old new s z).dose = s.dose ∧
    (holdTest old new s z).lastReading = s.lastReading ∧
    (holdTest old new s z).walker = s.walker ∧
    (holdTest old new s z).host = s.host ∧
    (holdTest old new s z).sent = s.sent ∧
    (holdTest old new s z).drawn = s.drawn ∧
    (holdTest old new s z).pending = s.pending := by
  and_intros <;> unfold holdTest <;> (try dsimp only) <;> (repeat' split) <;> first | with_reducible rfl | simp

@[simp] theorem takeTensionTune_keeps (n : Nat) (s : State) :
    (takeTensionTune n s).line = s.line ∧
    (takeTensionTune n s).lib = s.lib ∧
    (takeTensionTune n s).pos = s.pos ∧
    (takeTensionTune n s).trig = s.trig ∧
    (takeTensionTune n s).ord = s.ord ∧
    (takeTensionTune n s).reg = s.reg ∧
    (takeTensionTune n s).heat = s.heat ∧
    (takeTensionTune n s).dose = s.dose ∧
    (takeTensionTune n s).lastReading = s.lastReading ∧
    (takeTensionTune n s).sent = s.sent ∧
    (takeTensionTune n s).drawn = s.drawn ∧
    (takeTensionTune n s).pending = s.pending := by
  and_intros <;> unfold takeTensionTune <;> (try dsimp only) <;> (repeat' split) <;> first | with_reducible rfl | simp

@[simp] theorem takeTensionMix_keeps (n : Nat) (s : State) :
    (takeTensionMix n s).line = s.line ∧
    (takeTensionMix n s).lib = s.lib ∧
    (takeTensionMix n s).pos = s.pos ∧
    (takeTensionMix n s).trig = s.trig ∧
    (takeTensionMix n s).ord = s.ord ∧
    (takeTensionMix n s).reg = s.reg ∧
    (takeTensionMix n s).heat = s.heat ∧
    (takeTensionMix n s).dose = s.dose ∧
    (takeTensionMix n s).lastReading = s.lastReading ∧
    (takeTensionMix n s).sent = s.sent ∧
    (takeTensionMix n s).drawn = s.drawn ∧
    (takeTensionMix n s).pending = s.pending := by
  and_intros <;> unfold takeTensionMix <;> (try dsimp only) <;> (repeat' split) <;> first | with_reducible rfl | simp

@[simp] theorem takeAutoZero_keeps (n : Nat) (s : State) :
    (takeAutoZero n s).line = s.line ∧
    (takeAutoZero n s).lib = s.lib ∧
    (takeAutoZero n s).pos = s.pos ∧
    (takeAutoZero n s).trig = s.trig ∧
    (takeAutoZero n s).ord = s.ord ∧
    (takeAutoZero n s).reg = s.reg ∧
    (takeAutoZero n s).heat = s.heat ∧
    (takeAutoZero n s).dose = s.dose ∧
    (takeAutoZero n s).lastReading = s.lastReading ∧
    (takeAutoZero n s).sent = s.sent ∧
    (takeAutoZero n s).drawn = s.drawn ∧
    (takeAutoZero n s).pending = s.pending := by
  and_intros <;> unfold takeAutoZero <;> (try dsimp only) <;> (repeat' split) <;> first | with_reducible rfl | simp

@[simp] theorem tensReset_keeps (s : State) :
    (tensReset s).lib = s.lib ∧
    (tensReset s).pos = s.pos ∧
    (tensReset s).trig = s.trig ∧
    (tensReset s).ord = s.ord ∧
    (tensReset s).reg = s.reg ∧
    (tensReset s).heat = s.heat ∧
    (tensReset s).dose = s.dose ∧
    (tensReset s).lastReading = s.lastReading ∧
    (tensReset s).sent = s.sent ∧
    (tensReset s).drawn = s.drawn ∧
    (tensReset s).pending = s.pending := by
  and_intros <;> unfold tensReset <;> (try dsimp only) <;> (repeat' split) <;> first | with_reducible rfl | simp

/-! ## Operations of Check -/

@[simp] theorem creditReading_keeps (xr : Word) (d : Cmyk Half) (s : State) :
    (creditReading xr d s).mem = s.mem ∧
    (creditReading xr d s).line = s.line ∧
    (creditReading xr d s).lib = s.lib ∧
    (creditReading xr d s).pos = s.pos ∧
    (creditReading xr d s).trig = s.trig ∧
    (creditReading xr d s).reg = s.reg ∧
    (creditReading xr d s).heat = s.heat ∧
    (creditReading xr d s).dose = s.dose ∧
    (creditReading xr d s).tens = s.tens ∧
    (creditReading xr d s).lastReading = s.lastReading ∧
    (creditReading xr d s).walker = s.walker ∧
    (creditReading xr d s).host = s.host ∧
    (creditReading xr d s).sent = s.sent ∧
    (creditReading xr d s).drawn = s.drawn ∧
    (creditReading xr d s).pending = s.pending := by
  and_intros <;> unfold creditReading <;> (try dsimp only) <;> (repeat' split) <;> first | with_reducible rfl | simp

@[simp] theorem takeReading_keeps (xr : Word) (d : Cmyk Half) (q : Quality) (s : State) :
    (takeReading xr d q s).mem = s.mem ∧
    (takeReading xr d q s).lib = s.lib ∧
    (takeReading xr d q s).pos = s.pos ∧
    (takeReading xr d q s).trig = s.trig ∧
    (takeReading xr d q s).reg = s.reg ∧
    (takeReading xr d q s).heat = s.heat ∧
    (takeReading xr d q s).dose = s.dose ∧
    (takeReading xr d q s).tens = s.tens ∧
    (takeReading xr d q s).walker = s.walker ∧
    (takeReading xr d q s).host = s.host ∧
    (takeReading xr d q s).sent = s.sent ∧
    (takeReading xr d q s).drawn = s.drawn ∧
    (takeReading xr d q s).pending = s.pending := by
  and_intros <;> unfold takeReading <;> (try dsimp only) <;> (repeat' split) <;> first | with_reducible rfl | simp

@[simp] theorem headTest_keeps (s : State) :
    (headTest s).pos = s.pos ∧
    (headTest s).trig = s.trig ∧
    (headTest s).reg = s.reg ∧
    (headTest s).lastReading = s.lastReading ∧
    (headTest s).drawn = s.drawn ∧
    (headTest s).pending = s.pending := by
  and_intros <;> unfold headTest <;> (try dsimp only) <;> (repeat' split) <;> first | with_reducible rfl | simp

@[simp] theorem tailFindings_keeps (s : State) :
    (tailFindings s).mem = s.mem ∧
    (tailFindings s).line = s.line ∧
    (tailFindings s).lib = s.lib ∧
    (tailFindings s).pos = s.pos ∧
    (tailFindings s).trig = s.trig ∧
    (tailFindings s).reg = s.reg ∧
    (tailFindings s).heat = s.heat ∧
    (tailFindings s).dose = s.dose ∧
    (tailFindings s).tens = s.tens ∧
    (tailFindings s).lastReading = s.lastReading ∧
    (tailFindings s).walker = s.walker ∧
    (tailFindings s).host = s.host ∧
    (tailFindings s).sent = s.sent ∧
    (tailFindings s).pending = s.pending := by
  and_intros <;> unfold tailFindings <;> (try dsimp only) <;> (repeat' split) <;> first | with_reducible rfl | simp

@[simp] theorem noteTrimLimit_keeps (p : Panel) (step trim : Int) (s : State) :
    (noteTrimLimit p step trim s).line = s.line ∧
    (noteTrimLimit p step trim s).lib = s.lib ∧
    (noteTrimLimit p step trim s).pos = s.pos ∧
    (noteTrimLimit p step trim s).trig = s.trig ∧
    (noteTrimLimit p step trim s).ord = s.ord ∧
    (noteTrimLimit p step trim s).reg = s.reg ∧
    (noteTrimLimit p step trim s).heat = s.heat ∧
    (noteTrimLimit p step trim s).dose = s.dose ∧
    (noteTrimLimit p step trim s).tens = s.tens ∧
    (noteTrimLimit p step trim s).lastReading = s.lastReading ∧
    (noteTrimLimit p step trim s).walker = s.walker ∧
    (noteTrimLimit p step trim s).sent = s.sent ∧
    (noteTrimLimit p step trim s).drawn = s.drawn ∧
    (noteTrimLimit p step trim s).pending = s.pending := by
  and_intros <;> unfold noteTrimLimit <;> (try dsimp only) <;> (repeat' split) <;> first | with_reducible rfl | simp

@[simp] theorem driftStage_keeps (p : Panel) (s : State) :
    (driftStage p s).line = s.line ∧
    (driftStage p s).pos = s.pos ∧
    (driftStage p s).trig = s.trig ∧
    (driftStage p s).ord = s.ord ∧
    (driftStage p s).reg = s.reg ∧
    (driftStage p s).heat = s.heat ∧
    (driftStage p s).dose = s.dose ∧
    (driftStage p s).tens = s.tens ∧
    (driftStage p s).lastReading = s.lastReading ∧
    (driftStage p s).walker = s.walker ∧
    (driftStage p s).sent = s.sent ∧
    (driftStage p s).drawn = s.drawn ∧
    (driftStage p s).pending = s.pending := by
  and_intros <;> unfold driftStage <;> (try dsimp only) <;> (repeat' split) <;> first | with_reducible rfl | simp

@[simp] theorem markStage_keeps (p : Panel) (v : Verdict) (s : State) :
    (markStage p v s).lib = s.lib ∧
    (markStage p v s).pos = s.pos ∧
    (markStage p v s).ord = s.ord ∧
    (markStage p v s).reg = s.reg ∧
    (markStage p v s).heat = s.heat ∧
    (markStage p v s).lastReading = s.lastReading ∧
    (markStage p v s).sent = s.sent ∧
    (markStage p v s).drawn = s.drawn ∧
    (markStage p v s).pending = s.pending := by
  and_intros <;> unfold markStage <;> (try dsimp only) <;> (repeat' split) <;> first | with_reducible rfl | simp

@[simp] theorem cutStage_keeps (p : Panel) (s : State) :
    (cutStage p s).lib = s.lib ∧
    (cutStage p s).pos = s.pos ∧
    (cutStage p s).ord = s.ord ∧
    (cutStage p s).reg = s.reg ∧
    (cutStage p s).heat = s.heat ∧
    (cutStage p s).lastReading = s.lastReading ∧
    (cutStage p s).sent = s.sent ∧
    (cutStage p s).drawn = s.drawn ∧
    (cutStage p s).pending = s.pending := by
  and_intros <;> unfold cutStage <;> (try dsimp only) <;> (repeat' split) <;> first | with_reducible rfl | simp

@[simp] theorem verdictEvent_keeps (p : Panel) (s : State) :
    (verdictEvent p s).pos = s.pos ∧
    (verdictEvent p s).reg = s.reg ∧
    (verdictEvent p s).heat = s.heat ∧
    (verdictEvent p s).lastReading = s.lastReading ∧
    (verdictEvent p s).drawn = s.drawn ∧
    (verdictEvent p s).pending = s.pending := by
  and_intros <;> unfold verdictEvent <;> (try dsimp only) <;> (repeat' split) <;> first | with_reducible rfl | simp

@[simp] theorem verdictOn_keeps (s : State) (n : Half) :
    (verdictOn s n).pos = s.pos ∧
    (verdictOn s n).reg = s.reg ∧
    (verdictOn s n).heat = s.heat ∧
    (verdictOn s n).lastReading = s.lastReading ∧
    (verdictOn s n).drawn = s.drawn ∧
    (verdictOn s n).pending = s.pending := by
  and_intros <;> unfold verdictOn <;> (try dsimp only) <;> (repeat' split) <;> first | with_reducible rfl | simp

@[simp] theorem verdicts_keeps (s : State) :
    (verdicts s).pos = s.pos ∧
    (verdicts s).reg = s.reg ∧
    (verdicts s).heat = s.heat ∧
    (verdicts s).lastReading = s.lastReading ∧
    (verdicts s).drawn = s.drawn ∧
    (verdicts s).pending = s.pending := by
  and_intros <;> unfold verdicts <;> (try dsimp only) <;> (repeat' split) <;> first | with_reducible rfl | simp

@[simp] theorem takeTrimReset_keeps (n : Nat) (s : State) :
    (takeTrimReset n s).line = s.line ∧
    (takeTrimReset n s).pos = s.pos ∧
    (takeTrimReset n s).trig = s.trig ∧
    (takeTrimReset n s).ord = s.ord ∧
    (takeTrimReset n s).reg = s.reg ∧
    (takeTrimReset n s).heat = s.heat ∧
    (takeTrimReset n s).dose = s.dose ∧
    (takeTrimReset n s).tens = s.tens ∧
    (takeTrimReset n s).lastReading = s.lastReading ∧
    (takeTrimReset n s).sent = s.sent ∧
    (takeTrimReset n s).drawn = s.drawn ∧
    (takeTrimReset n s).pending = s.pending := by
  and_intros <;> unfold takeTrimReset <;> (try dsimp only) <;> (repeat' split) <;> first | with_reducible rfl | simp

@[simp] theorem checkReset_keeps (s : State) :
    (checkReset s).mem = s.mem ∧
    (checkReset s).lib = s.lib ∧
    (checkReset s).pos = s.pos ∧
    (checkReset s).trig = s.trig ∧
    (checkReset s).ord = s.ord ∧
    (checkReset s).reg = s.reg ∧
    (checkReset s).heat = s.heat ∧
    (checkReset s).dose = s.dose ∧
    (checkReset s).tens = s.tens ∧
    (checkReset s).lastReading = s.lastReading ∧
    (checkReset s).walker = s.walker ∧
    (checkReset s).host = s.host ∧
    (checkReset s).sent = s.sent ∧
    (checkReset s).drawn = s.drawn ∧
    (checkReset s).pending = s.pending := by
  and_intros <;> unfold checkReset <;> (try dsimp only) <;> (repeat' split) <;> first | with_reducible rfl | simp

/-! ## Operations of Heat -/

@[simp] theorem advancePass_keeps (s : State) :
    (advancePass s).mem = s.mem ∧
    (advancePass s).line = s.line ∧
    (advancePass s).lib = s.lib ∧
    (advancePass s).pos = s.pos ∧
    (advancePass s).trig = s.trig ∧
    (advancePass s).ord = s.ord ∧
    (advancePass s).reg = s.reg ∧
    (advancePass s).dose = s.dose ∧
    (advancePass s).tens = s.tens ∧
    (advancePass s).lastReading = s.lastReading ∧
    (advancePass s).walker = s.walker ∧
    (advancePass s).host = s.host ∧
    (advancePass s).sent = s.sent ∧
    (advancePass s).drawn = s.drawn ∧
    (advancePass s).pending = s.pending := by
  and_intros <;> unfold advancePass <;> (try dsimp only) <;> (repeat' split) <;> first | with_reducible rfl | simp

@[simp] theorem updReading_keeps (c : Fin 10) (f : Reading → Reading) (s : State) :
    (updReading c f s).mem = s.mem ∧
    (updReading c f s).line = s.line ∧
    (updReading c f s).lib = s.lib ∧
    (updReading c f s).pos = s.pos ∧
    (updReading c f s).trig = s.trig ∧
    (updReading c f s).ord = s.ord ∧
    (updReading c f s).reg = s.reg ∧
    (updReading c f s).dose = s.dose ∧
    (updReading c f s).tens = s.tens ∧
    (updReading c f s).lastReading = s.lastReading ∧
    (updReading c f s).walker = s.walker ∧
    (updReading c f s).host = s.host ∧
    (updReading c f s).sent = s.sent ∧
    (updReading c f s).drawn = s.drawn ∧
    (updReading c f s).pending = s.pending := by
  and_intros <;> unfold updReading <;> (try dsimp only) <;> (repeat' split) <;> first | with_reducible rfl | simp

@[simp] theorem convert_keeps (raw : Half) (s : State) :
    (convert raw s).mem = s.mem ∧
    (convert raw s).line = s.line ∧
    (convert raw s).lib = s.lib ∧
    (convert raw s).pos = s.pos ∧
    (convert raw s).trig = s.trig ∧
    (convert raw s).ord = s.ord ∧
    (convert raw s).reg = s.reg ∧
    (convert raw s).dose = s.dose ∧
    (convert raw s).tens = s.tens ∧
    (convert raw s).lastReading = s.lastReading ∧
    (convert raw s).walker = s.walker ∧
    (convert raw s).host = s.host ∧
    (convert raw s).sent = s.sent ∧
    (convert raw s).drawn = s.drawn ∧
    (convert raw s).pending = s.pending := by
  and_intros <;> unfold convert <;> (try dsimp only) <;> (repeat' split) <;> first | with_reducible rfl | simp

@[simp] theorem takeScanList_keeps (n : Nat) (s : State) :
    (takeScanList n s).line = s.line ∧
    (takeScanList n s).lib = s.lib ∧
    (takeScanList n s).pos = s.pos ∧
    (takeScanList n s).trig = s.trig ∧
    (takeScanList n s).ord = s.ord ∧
    (takeScanList n s).reg = s.reg ∧
    (takeScanList n s).dose = s.dose ∧
    (takeScanList n s).tens = s.tens ∧
    (takeScanList n s).lastReading = s.lastReading ∧
    (takeScanList n s).sent = s.sent ∧
    (takeScanList n s).drawn = s.drawn ∧
    (takeScanList n s).pending = s.pending := by
  and_intros <;> unfold takeScanList <;> (try dsimp only) <;> (repeat' split) <;> first | with_reducible rfl | simp

@[simp] theorem takeHeatSetpoint_keeps (n : Nat) (s : State) :
    (takeHeatSetpoint n s).line = s.line ∧
    (takeHeatSetpoint n s).lib = s.lib ∧
    (takeHeatSetpoint n s).pos = s.pos ∧
    (takeHeatSetpoint n s).trig = s.trig ∧
    (takeHeatSetpoint n s).ord = s.ord ∧
    (takeHeatSetpoint n s).reg = s.reg ∧
    (takeHeatSetpoint n s).dose = s.dose ∧
    (takeHeatSetpoint n s).tens = s.tens ∧
    (takeHeatSetpoint n s).lastReading = s.lastReading ∧
    (takeHeatSetpoint n s).sent = s.sent ∧
    (takeHeatSetpoint n s).drawn = s.drawn ∧
    (takeHeatSetpoint n s).pending = s.pending := by
  and_intros <;> unfold takeHeatSetpoint <;> (try dsimp only) <;> (repeat' split) <;> first | with_reducible rfl | simp

@[simp] theorem takeHeatTune_keeps (n : Nat) (s : State) :
    (takeHeatTune n s).line = s.line ∧
    (takeHeatTune n s).lib = s.lib ∧
    (takeHeatTune n s).pos = s.pos ∧
    (takeHeatTune n s).trig = s.trig ∧
    (takeHeatTune n s).ord = s.ord ∧
    (takeHeatTune n s).reg = s.reg ∧
    (takeHeatTune n s).dose = s.dose ∧
    (takeHeatTune n s).tens = s.tens ∧
    (takeHeatTune n s).lastReading = s.lastReading ∧
    (takeHeatTune n s).sent = s.sent ∧
    (takeHeatTune n s).drawn = s.drawn ∧
    (takeHeatTune n s).pending = s.pending := by
  and_intros <;> unfold takeHeatTune <;> (try dsimp only) <;> (repeat' split) <;> first | with_reducible rfl | simp

@[simp] theorem riseAges_keeps (s : State) :
    (riseAges s).mem = s.mem ∧
    (riseAges s).line = s.line ∧
    (riseAges s).lib = s.lib ∧
    (riseAges s).pos = s.pos ∧
    (riseAges s).trig = s.trig ∧
    (riseAges s).ord = s.ord ∧
    (riseAges s).reg = s.reg ∧
    (riseAges s).dose = s.dose ∧
    (riseAges s).tens = s.tens ∧
    (riseAges s).lastReading = s.lastReading ∧
    (riseAges s).walker = s.walker ∧
    (riseAges s).host = s.host ∧
    (riseAges s).sent = s.sent ∧
    (riseAges s).drawn = s.drawn ∧
    (riseAges s).pending = s.pending := by
  and_intros <;> unfold riseAges <;> (try dsimp only) <;> (repeat' split) <;> first | with_reducible rfl | simp

@[simp] theorem raiseZone_keeps (was : Vector Zone 8) (s : State) (k : Fin 8) :
    (raiseZone was s k).pos = s.pos ∧
    (raiseZone was s k).trig = s.trig ∧
    (raiseZone was s k).reg = s.reg ∧
    (raiseZone was s k).lastReading = s.lastReading ∧
    (raiseZone was s k).drawn = s.drawn ∧
    (raiseZone was s k).pending = s.pending := by
  and_intros <;> unfold raiseZone <;> (try dsimp only) <;> (repeat' split) <;> first | with_reducible rfl | simp

@[simp] theorem pairTest_keeps (zs : Vector Zone 8) (s : State) :
    (pairTest zs s).pos = s.pos ∧
    (pairTest zs s).trig = s.trig ∧
    (pairTest zs s).reg = s.reg ∧
    (pairTest zs s).lastReading = s.lastReading ∧
    (pairTest zs s).drawn = s.drawn ∧
    (pairTest zs s).pending = s.pending := by
  and_intros <;> unfold pairTest <;> (try dsimp only) <;> (repeat' split) <;> first | with_reducible rfl | simp

@[simp] theorem endZoneAlarms_keeps (zs : Vector Zone 8) (s : State) :
    (endZoneAlarms zs s).mem = s.mem ∧
    (endZoneAlarms zs s).lib = s.lib ∧
    (endZoneAlarms zs s).pos = s.pos ∧
    (endZoneAlarms zs s).trig = s.trig ∧
    (endZoneAlarms zs s).ord = s.ord ∧
    (endZoneAlarms zs s).reg = s.reg ∧
    (endZoneAlarms zs s).heat = s.heat ∧
    (endZoneAlarms zs s).dose = s.dose ∧
    (endZoneAlarms zs s).tens = s.tens ∧
    (endZoneAlarms zs s).lastReading = s.lastReading ∧
    (endZoneAlarms zs s).walker = s.walker ∧
    (endZoneAlarms zs s).host = s.host ∧
    (endZoneAlarms zs s).sent = s.sent ∧
    (endZoneAlarms zs s).drawn = s.drawn ∧
    (endZoneAlarms zs s).pending = s.pending := by
  and_intros <;> unfold endZoneAlarms <;> (try dsimp only) <;> (repeat' split) <;> first | with_reducible rfl | simp

@[simp] theorem zoneAlarms_keeps (was : Vector Zone 8) (s : State) :
    (zoneAlarms was s).pos = s.pos ∧
    (zoneAlarms was s).trig = s.trig ∧
    (zoneAlarms was s).reg = s.reg ∧
    (zoneAlarms was s).lastReading = s.lastReading ∧
    (zoneAlarms was s).drawn = s.drawn ∧
    (zoneAlarms was s).pending = s.pending := by
  and_intros <;> unfold zoneAlarms <;> (try dsimp only) <;> (repeat' split) <;> first | with_reducible rfl | simp

@[simp] theorem judgeZones_keeps (was : Vector Zone 8) (s : State) :
    (judgeZones was s).pos = s.pos ∧
    (judgeZones was s).trig = s.trig ∧
    (judgeZones was s).reg = s.reg ∧
    (judgeZones was s).lastReading = s.lastReading ∧
    (judgeZones was s).pending = s.pending := by
  and_intros <;> unfold judgeZones <;> (try dsimp only) <;> (repeat' split) <;> first | with_reducible rfl | simp

@[simp] theorem heatStep_keeps (s : State) :
    (heatStep s).pos = s.pos ∧
    (heatStep s).trig = s.trig ∧
    (heatStep s).reg = s.reg ∧
    (heatStep s).lastReading = s.lastReading ∧
    (heatStep s).pending = s.pending := by
  and_intros <;> unfold heatStep <;> (try dsimp only) <;> (repeat' split) <;> first | with_reducible rfl | simp

@[simp] theorem windowStep_keeps (s : State) :
    (windowStep s).mem = s.mem ∧
    (windowStep s).line = s.line ∧
    (windowStep s).lib = s.lib ∧
    (windowStep s).pos = s.pos ∧
    (windowStep s).trig = s.trig ∧
    (windowStep s).ord = s.ord ∧
    (windowStep s).reg = s.reg ∧
    (windowStep s).dose = s.dose ∧
    (windowStep s).tens = s.tens ∧
    (windowStep s).lastReading = s.lastReading ∧
    (windowStep s).walker = s.walker ∧
    (windowStep s).host = s.host ∧
    (windowStep s).sent = s.sent ∧
    (windowStep s).drawn = s.drawn ∧
    (windowStep s).pending = s.pending := by
  and_intros <;> unfold windowStep <;> (try dsimp only) <;> (repeat' split) <;> first | with_reducible rfl | simp

@[simp] theorem heaterEnd_keeps (k : Fin 8) (s : State) :
    (heaterEnd k s).mem = s.mem ∧
    (heaterEnd k s).line = s.line ∧
    (heaterEnd k s).lib = s.lib ∧
    (heaterEnd k s).pos = s.pos ∧
    (heaterEnd k s).trig = s.trig ∧
    (heaterEnd k s).ord = s.ord ∧
    (heaterEnd k s).reg = s.reg ∧
    (heaterEnd k s).dose = s.dose ∧
    (heaterEnd k s).tens = s.tens ∧
    (heaterEnd k s).lastReading = s.lastReading ∧
    (heaterEnd k s).walker = s.walker ∧
    (heaterEnd k s).host = s.host ∧
    (heaterEnd k s).sent = s.sent ∧
    (heaterEnd k s).drawn = s.drawn ∧
    (heaterEnd k s).pending = s.pending := by
  and_intros <;> unfold heaterEnd <;> (try dsimp only) <;> (repeat' split) <;> first | with_reducible rfl | simp

@[simp] theorem heatReset_keeps (s : State) :
    (heatReset s).mem = s.mem ∧
    (heatReset s).lib = s.lib ∧
    (heatReset s).pos = s.pos ∧
    (heatReset s).trig = s.trig ∧
    (heatReset s).ord = s.ord ∧
    (heatReset s).reg = s.reg ∧
    (heatReset s).dose = s.dose ∧
    (heatReset s).tens = s.tens ∧
    (heatReset s).lastReading = s.lastReading ∧
    (heatReset s).walker = s.walker ∧
    (heatReset s).host = s.host ∧
    (heatReset s).sent = s.sent ∧
    (heatReset s).drawn = s.drawn ∧
    (heatReset s).pending = s.pending := by
  and_intros <;> unfold heatReset <;> (try dsimp only) <;> (repeat' split) <;> first | with_reducible rfl | simp

/-! ## Operations of Position -/

@[simp] theorem setSplices_keeps (l : List Splice) (s : State) :
    (setSplices l s).mem = s.mem ∧
    (setSplices l s).line = s.line ∧
    (setSplices l s).lib = s.lib ∧
    (setSplices l s).trig = s.trig ∧
    (setSplices l s).ord = s.ord ∧
    (setSplices l s).reg = s.reg ∧
    (setSplices l s).heat = s.heat ∧
    (setSplices l s).dose = s.dose ∧
    (setSplices l s).tens = s.tens ∧
    (setSplices l s).lastReading = s.lastReading ∧
    (setSplices l s).walker = s.walker ∧
    (setSplices l s).host = s.host ∧
    (setSplices l s).sent = s.sent ∧
    (setSplices l s).drawn = s.drawn ∧
    (setSplices l s).pending = s.pending := by
  and_intros <;> unfold setSplices <;> (try dsimp only) <;> (repeat' split) <;> first | with_reducible rfl | simp

@[simp] theorem dropFull_keeps (s : State) :
    (dropFull s).line = s.line ∧
    (dropFull s).lib = s.lib ∧
    (dropFull s).trig = s.trig ∧
    (dropFull s).ord = s.ord ∧
    (dropFull s).reg = s.reg ∧
    (dropFull s).heat = s.heat ∧
    (dropFull s).dose = s.dose ∧
    (dropFull s).tens = s.tens ∧
    (dropFull s).lastReading = s.lastReading ∧
    (dropFull s).walker = s.walker ∧
    (dropFull s).sent = s.sent ∧
    (dropFull s).drawn = s.drawn ∧
    (dropFull s).pending = s.pending := by
  and_intros <;> unfold dropFull <;> (try dsimp only) <;> (repeat' split) <;> first | with_reducible rfl | simp

@[simp] theorem seeSplice_keeps (r : Splice) (s : State) :
    (seeSplice r s).line = s.line ∧
    (seeSplice r s).lib = s.lib ∧
    (seeSplice r s).trig = s.trig ∧
    (seeSplice r s).ord = s.ord ∧
    (seeSplice r s).reg = s.reg ∧
    (seeSplice r s).heat = s.heat ∧
    (seeSplice r s).dose = s.dose ∧
    (seeSplice r s).tens = s.tens ∧
    (seeSplice r s).lastReading = s.lastReading ∧
    (seeSplice r s).walker = s.walker ∧
    (seeSplice r s).sent = s.sent ∧
    (seeSplice r s).drawn = s.drawn ∧
    (seeSplice r s).pending = s.pending := by
  and_intros <;> unfold seeSplice <;> (try dsimp only) <;> (repeat' split) <;> first | with_reducible rfl | simp

@[simp] theorem fixSplices_keeps (s : State) :
    (fixSplices s).mem = s.mem ∧
    (fixSplices s).line = s.line ∧
    (fixSplices s).lib = s.lib ∧
    (fixSplices s).trig = s.trig ∧
    (fixSplices s).ord = s.ord ∧
    (fixSplices s).reg = s.reg ∧
    (fixSplices s).heat = s.heat ∧
    (fixSplices s).dose = s.dose ∧
    (fixSplices s).tens = s.tens ∧
    (fixSplices s).lastReading = s.lastReading ∧
    (fixSplices s).walker = s.walker ∧
    (fixSplices s).host = s.host ∧
    (fixSplices s).sent = s.sent ∧
    (fixSplices s).drawn = s.drawn ∧
    (fixSplices s).pending = s.pending := by
  and_intros <;> unfold fixSplices <;> (try dsimp only) <;> (repeat' split) <;> first | with_reducible rfl | simp

@[simp] theorem leaveSplices_keeps (s : State) :
    (leaveSplices s).mem = s.mem ∧
    (leaveSplices s).line = s.line ∧
    (leaveSplices s).lib = s.lib ∧
    (leaveSplices s).trig = s.trig ∧
    (leaveSplices s).ord = s.ord ∧
    (leaveSplices s).reg = s.reg ∧
    (leaveSplices s).heat = s.heat ∧
    (leaveSplices s).dose = s.dose ∧
    (leaveSplices s).tens = s.tens ∧
    (leaveSplices s).lastReading = s.lastReading ∧
    (leaveSplices s).walker = s.walker ∧
    (leaveSplices s).host = s.host ∧
    (leaveSplices s).sent = s.sent ∧
    (leaveSplices s).drawn = s.drawn ∧
    (leaveSplices s).pending = s.pending := by
  and_intros <;> unfold leaveSplices <;> (try dsimp only) <;> (repeat' split) <;> first | with_reducible rfl | simp

@[simp] theorem storeCondition_keeps (a : Alarm) (mark : Int) (s : State) :
    (storeCondition a mark s).pos = s.pos ∧
    (storeCondition a mark s).trig = s.trig ∧
    (storeCondition a mark s).reg = s.reg ∧
    (storeCondition a mark s).lastReading = s.lastReading ∧
    (storeCondition a mark s).drawn = s.drawn ∧
    (storeCondition a mark s).pending = s.pending := by
  and_intros <;> unfold storeCondition <;> (try dsimp only) <;> (repeat' split) <;> first | with_reducible rfl | simp

@[simp] theorem storeTest_keeps (s : State) :
    (storeTest s).pos = s.pos ∧
    (storeTest s).trig = s.trig ∧
    (storeTest s).reg = s.reg ∧
    (storeTest s).lastReading = s.lastReading ∧
    (storeTest s).drawn = s.drawn ∧
    (storeTest s).pending = s.pending := by
  and_intros <;> unfold storeTest <;> (try dsimp only) <;> (repeat' split) <;> first | with_reducible rfl | simp

@[simp] theorem exitChanged_keeps (old : Word) (tests : Bool) (s : State) :
    (exitChanged old tests s).trig = s.trig ∧
    (exitChanged old tests s).lastReading = s.lastReading ∧
    (exitChanged old tests s).drawn = s.drawn ∧
    (exitChanged old tests s).pending = s.pending := by
  and_intros <;> unfold exitChanged <;> (try dsimp only) <;> (repeat' split) <;> first | with_reducible rfl | simp

@[simp] theorem setExit_keeps (s : State) :
    (setExit s).trig = s.trig ∧
    (setExit s).lastReading = s.lastReading ∧
    (setExit s).drawn = s.drawn ∧
    (setExit s).pending = s.pending := by
  and_intros <;> unfold setExit <;> (try dsimp only) <;> (repeat' split) <;> first | with_reducible rfl | simp

@[simp] theorem enterWarm_keeps (cause : LineCause) (s : State) :
    (enterWarm cause s).trig = s.trig ∧
    (enterWarm cause s).lastReading = s.lastReading ∧
    (enterWarm cause s).drawn = s.drawn ∧
    (enterWarm cause s).pending = s.pending := by
  and_intros <;> unfold enterWarm <;> (try dsimp only) <;> (repeat' split) <;> first | with_reducible rfl | simp

@[simp] theorem seeFabricMark_keeps (o : Option Stamp) (s : State) :
    (seeFabricMark o s).pos = s.pos ∧
    (seeFabricMark o s).lastReading = s.lastReading ∧
    (seeFabricMark o s).drawn = s.drawn ∧
    (seeFabricMark o s).pending = s.pending := by
  and_intros <;> unfold seeFabricMark unlessReverse <;> (try dsimp only) <;> (repeat' split) <;> first | with_reducible rfl | simp

@[simp] theorem seePaperMark_keeps (o : Option Stamp) (s : State) :
    (seePaperMark o s).pos = s.pos ∧
    (seePaperMark o s).lastReading = s.lastReading ∧
    (seePaperMark o s).drawn = s.drawn ∧
    (seePaperMark o s).pending = s.pending := by
  and_intros <;> unfold seePaperMark unlessReverse <;> (try dsimp only) <;> (repeat' split) <;> first | with_reducible rfl | simp

@[simp] theorem seeFabricSplice_keeps (o : Option Stamp) (s : State) :
    (seeFabricSplice o s).lib = s.lib ∧
    (seeFabricSplice o s).ord = s.ord ∧
    (seeFabricSplice o s).reg = s.reg ∧
    (seeFabricSplice o s).heat = s.heat ∧
    (seeFabricSplice o s).lastReading = s.lastReading ∧
    (seeFabricSplice o s).sent = s.sent ∧
    (seeFabricSplice o s).drawn = s.drawn ∧
    (seeFabricSplice o s).pending = s.pending := by
  and_intros <;> unfold seeFabricSplice unlessReverse <;> (try dsimp only) <;> (repeat' split) <;> first | with_reducible rfl | simp

@[simp] theorem flagPrinted_keeps (sp : Word) (s : State) :
    (flagPrinted sp s).mem = s.mem ∧
    (flagPrinted sp s).line = s.line ∧
    (flagPrinted sp s).lib = s.lib ∧
    (flagPrinted sp s).pos = s.pos ∧
    (flagPrinted sp s).trig = s.trig ∧
    (flagPrinted sp s).reg = s.reg ∧
    (flagPrinted sp s).heat = s.heat ∧
    (flagPrinted sp s).dose = s.dose ∧
    (flagPrinted sp s).tens = s.tens ∧
    (flagPrinted sp s).lastReading = s.lastReading ∧
    (flagPrinted sp s).walker = s.walker ∧
    (flagPrinted sp s).host = s.host ∧
    (flagPrinted sp s).sent = s.sent ∧
    (flagPrinted sp s).drawn = s.drawn ∧
    (flagPrinted sp s).pending = s.pending := by
  and_intros <;> unfold flagPrinted <;> (try dsimp only) <;> (repeat' split) <;> first | with_reducible rfl | simp

@[simp] theorem seePaperSplice_keeps (o : Option Stamp) (s : State) :
    (seePaperSplice o s).line = s.line ∧
    (seePaperSplice o s).lib = s.lib ∧
    (seePaperSplice o s).trig = s.trig ∧
    (seePaperSplice o s).reg = s.reg ∧
    (seePaperSplice o s).heat = s.heat ∧
    (seePaperSplice o s).dose = s.dose ∧
    (seePaperSplice o s).tens = s.tens ∧
    (seePaperSplice o s).lastReading = s.lastReading ∧
    (seePaperSplice o s).walker = s.walker ∧
    (seePaperSplice o s).sent = s.sent ∧
    (seePaperSplice o s).drawn = s.drawn ∧
    (seePaperSplice o s).pending = s.pending := by
  and_intros <;> unfold seePaperSplice unlessReverse <;> (try dsimp only) <;> (repeat' split) <;> first | with_reducible rfl | simp

@[simp] theorem freeTails_keeps (s : State) :
    (freeTails s).mem = s.mem ∧
    (freeTails s).line = s.line ∧
    (freeTails s).pos = s.pos ∧
    (freeTails s).trig = s.trig ∧
    (freeTails s).reg = s.reg ∧
    (freeTails s).heat = s.heat ∧
    (freeTails s).dose = s.dose ∧
    (freeTails s).tens = s.tens ∧
    (freeTails s).lastReading = s.lastReading ∧
    (freeTails s).walker = s.walker ∧
    (freeTails s).host = s.host ∧
    (freeTails s).drawn = s.drawn ∧
    (freeTails s).pending = s.pending := by
  and_intros <;> unfold freeTails <;> (try dsimp only) <;> (repeat' split) <;> first | with_reducible rfl | simp

@[simp] theorem countDrum_keeps (s : State) :
    (countDrum s).mem = s.mem ∧
    (countDrum s).line = s.line ∧
    (countDrum s).lib = s.lib ∧
    (countDrum s).trig = s.trig ∧
    (countDrum s).ord = s.ord ∧
    (countDrum s).reg = s.reg ∧
    (countDrum s).heat = s.heat ∧
    (countDrum s).dose = s.dose ∧
    (countDrum s).tens = s.tens ∧
    (countDrum s).lastReading = s.lastReading ∧
    (countDrum s).walker = s.walker ∧
    (countDrum s).host = s.host ∧
    (countDrum s).sent = s.sent ∧
    (countDrum s).drawn = s.drawn ∧
    (countDrum s).pending = s.pending := by
  and_intros <;> unfold countDrum <;> (try dsimp only) <;> (repeat' split) <;> first | with_reducible rfl | simp

@[simp] theorem panelStages_keeps (crosses : Bool) (s : State) :
    (panelStages crosses s).pos = s.pos ∧
    (panelStages crosses s).lastReading = s.lastReading ∧
    (panelStages crosses s).pending = s.pending := by
  and_intros <;> unfold panelStages <;> (try dsimp only) <;> (repeat' split) <;> first | with_reducible rfl | simp

@[simp] theorem drumForward_keeps (s : State) :
    (drumForward s).lastReading = s.lastReading ∧
    (drumForward s).pending = s.pending := by
  and_intros <;> unfold drumForward <;> (try dsimp only) <;> (repeat' split) <;> first | with_reducible rfl | simp

@[simp] theorem drumReverse_keeps (s : State) :
    (drumReverse s).mem = s.mem ∧
    (drumReverse s).line = s.line ∧
    (drumReverse s).lib = s.lib ∧
    (drumReverse s).trig = s.trig ∧
    (drumReverse s).ord = s.ord ∧
    (drumReverse s).reg = s.reg ∧
    (drumReverse s).heat = s.heat ∧
    (drumReverse s).dose = s.dose ∧
    (drumReverse s).tens = s.tens ∧
    (drumReverse s).lastReading = s.lastReading ∧
    (drumReverse s).walker = s.walker ∧
    (drumReverse s).host = s.host ∧
    (drumReverse s).sent = s.sent ∧
    (drumReverse s).drawn = s.drawn ∧
    (drumReverse s).pending = s.pending := by
  and_intros <;> unfold drumReverse <;> (try dsimp only) <;> (repeat' split) <;> first | with_reducible rfl | simp

@[simp] theorem losePrint_keeps (s : State) (p : Panel) :
    (losePrint s p).pos = s.pos ∧
    (losePrint s p).trig = s.trig ∧
    (losePrint s p).reg = s.reg ∧
    (losePrint s p).lastReading = s.lastReading ∧
    (losePrint s p).drawn = s.drawn ∧
    (losePrint s p).pending = s.pending := by
  and_intros <;> unfold losePrint <;> (try dsimp only) <;> (repeat' split) <;> first | with_reducible rfl | simp

@[simp] theorem losePrints_keeps (s : State) :
    (losePrints s).pos = s.pos ∧
    (losePrints s).trig = s.trig ∧
    (losePrints s).reg = s.reg ∧
    (losePrints s).lastReading = s.lastReading ∧
    (losePrints s).drawn = s.drawn ∧
    (losePrints s).pending = s.pending := by
  and_intros <;> unfold losePrints <;> (try dsimp only) <;> (repeat' split) <;> first | with_reducible rfl | simp

@[simp] theorem printTests_keeps (s : State) :
    (printTests s).pos = s.pos ∧
    (printTests s).trig = s.trig ∧
    (printTests s).reg = s.reg ∧
    (printTests s).lastReading = s.lastReading ∧
    (printTests s).pending = s.pending := by
  and_intros <;> unfold printTests <;> (try dsimp only) <;> (repeat' split) <;> first | with_reducible rfl | simp

@[simp] theorem printForward_keeps (s : State) :
    (printForward s).reg = s.reg ∧
    (printForward s).lastReading = s.lastReading ∧
    (printForward s).pending = s.pending := by
  and_intros <;> unfold printForward <;> (try dsimp only) <;> (repeat' split) <;> first | with_reducible rfl | simp

@[simp] theorem printReverse_keeps (s : State) :
    (printReverse s).trig = s.trig ∧
    (printReverse s).reg = s.reg ∧
    (printReverse s).lastReading = s.lastReading ∧
    (printReverse s).drawn = s.drawn ∧
    (printReverse s).pending = s.pending := by
  and_intros <;> unfold printReverse <;> (try dsimp only) <;> (repeat' split) <;> first | with_reducible rfl | simp

@[simp] theorem exitForward_keeps (s : State) :
    (exitForward s).trig = s.trig ∧
    (exitForward s).lastReading = s.lastReading ∧
    (exitForward s).drawn = s.drawn ∧
    (exitForward s).pending = s.pending := by
  and_intros <;> unfold exitForward <;> (try dsimp only) <;> (repeat' split) <;> first | with_reducible rfl | simp

@[simp] theorem exitReverse_keeps (s : State) :
    (exitReverse s).trig = s.trig ∧
    (exitReverse s).lastReading = s.lastReading ∧
    (exitReverse s).drawn = s.drawn ∧
    (exitReverse s).pending = s.pending := by
  and_intros <;> unfold exitReverse <;> (try dsimp only) <;> (repeat' split) <;> first | with_reducible rfl | simp

@[simp] theorem fireAhead_keeps (c : Fin 12) (s : State) :
    (fireAhead c s).mem = s.mem ∧
    (fireAhead c s).line = s.line ∧
    (fireAhead c s).lib = s.lib ∧
    (fireAhead c s).pos = s.pos ∧
    (fireAhead c s).ord = s.ord ∧
    (fireAhead c s).reg = s.reg ∧
    (fireAhead c s).heat = s.heat ∧
    (fireAhead c s).dose = s.dose ∧
    (fireAhead c s).tens = s.tens ∧
    (fireAhead c s).lastReading = s.lastReading ∧
    (fireAhead c s).walker = s.walker ∧
    (fireAhead c s).host = s.host ∧
    (fireAhead c s).sent = s.sent ∧
    (fireAhead c s).drawn = s.drawn ∧
    (fireAhead c s).pending = s.pending := by
  and_intros <;> unfold fireAhead <;> (try dsimp only) <;> (repeat' split) <;> first | with_reducible rfl | simp

@[simp] theorem endPulse_keeps (i : Fin 8) (s : State) :
    (endPulse i s).mem = s.mem ∧
    (endPulse i s).line = s.line ∧
    (endPulse i s).lib = s.lib ∧
    (endPulse i s).pos = s.pos ∧
    (endPulse i s).ord = s.ord ∧
    (endPulse i s).reg = s.reg ∧
    (endPulse i s).heat = s.heat ∧
    (endPulse i s).dose = s.dose ∧
    (endPulse i s).tens = s.tens ∧
    (endPulse i s).lastReading = s.lastReading ∧
    (endPulse i s).walker = s.walker ∧
    (endPulse i s).host = s.host ∧
    (endPulse i s).sent = s.sent ∧
    (endPulse i s).drawn = s.drawn ∧
    (endPulse i s).pending = s.pending := by
  and_intros <;> unfold endPulse <;> (try dsimp only) <;> (repeat' split) <;> first | with_reducible rfl | simp

/-! ## Operations of Library -/

@[simp] theorem setSlotState_keeps (i : Fin 16) (st : SlotState) (s : State) :
    (setSlotState i st s).mem = s.mem ∧
    (setSlotState i st s).line = s.line ∧
    (setSlotState i st s).pos = s.pos ∧
    (setSlotState i st s).trig = s.trig ∧
    (setSlotState i st s).ord = s.ord ∧
    (setSlotState i st s).reg = s.reg ∧
    (setSlotState i st s).heat = s.heat ∧
    (setSlotState i st s).dose = s.dose ∧
    (setSlotState i st s).tens = s.tens ∧
    (setSlotState i st s).lastReading = s.lastReading ∧
    (setSlotState i st s).walker = s.walker ∧
    (setSlotState i st s).host = s.host ∧
    (setSlotState i st s).sent = s.sent ∧
    (setSlotState i st s).drawn = s.drawn ∧
    (setSlotState i st s).pending = s.pending := by
  and_intros <;> unfold setSlotState <;> (try dsimp only) <;> (repeat' split) <;> first | with_reducible rfl | simp

@[simp] theorem commitSlot_keeps (i : Fin 16) (s : State) :
    (commitSlot i s).mem = s.mem ∧
    (commitSlot i s).line = s.line ∧
    (commitSlot i s).pos = s.pos ∧
    (commitSlot i s).trig = s.trig ∧
    (commitSlot i s).ord = s.ord ∧
    (commitSlot i s).reg = s.reg ∧
    (commitSlot i s).heat = s.heat ∧
    (commitSlot i s).dose = s.dose ∧
    (commitSlot i s).tens = s.tens ∧
    (commitSlot i s).lastReading = s.lastReading ∧
    (commitSlot i s).walker = s.walker ∧
    (commitSlot i s).host = s.host ∧
    (commitSlot i s).sent = s.sent ∧
    (commitSlot i s).drawn = s.drawn ∧
    (commitSlot i s).pending = s.pending := by
  and_intros <;> unfold commitSlot <;> (try dsimp only) <;> (repeat' split) <;> first | with_reducible rfl | simp

@[simp] theorem takeProfileCommit_keeps (n : Nat) (s : State) :
    (takeProfileCommit n s).line = s.line ∧
    (takeProfileCommit n s).pos = s.pos ∧
    (takeProfileCommit n s).trig = s.trig ∧
    (takeProfileCommit n s).ord = s.ord ∧
    (takeProfileCommit n s).reg = s.reg ∧
    (takeProfileCommit n s).heat = s.heat ∧
    (takeProfileCommit n s).dose = s.dose ∧
    (takeProfileCommit n s).tens = s.tens ∧
    (takeProfileCommit n s).lastReading = s.lastReading ∧
    (takeProfileCommit n s).sent = s.sent ∧
    (takeProfileCommit n s).drawn = s.drawn ∧
    (takeProfileCommit n s).pending = s.pending := by
  and_intros <;> unfold takeProfileCommit <;> (try dsimp only) <;> (repeat' split) <;> first | with_reducible rfl | simp

@[simp] theorem takeProfileOpen_keeps (n : Nat) (s : State) :
    (takeProfileOpen n s).line = s.line ∧
    (takeProfileOpen n s).pos = s.pos ∧
    (takeProfileOpen n s).trig = s.trig ∧
    (takeProfileOpen n s).ord = s.ord ∧
    (takeProfileOpen n s).reg = s.reg ∧
    (takeProfileOpen n s).heat = s.heat ∧
    (takeProfileOpen n s).dose = s.dose ∧
    (takeProfileOpen n s).tens = s.tens ∧
    (takeProfileOpen n s).lastReading = s.lastReading ∧
    (takeProfileOpen n s).sent = s.sent ∧
    (takeProfileOpen n s).drawn = s.drawn ∧
    (takeProfileOpen n s).pending = s.pending := by
  and_intros <;> unfold takeProfileOpen <;> (try dsimp only) <;> (repeat' split) <;> first | with_reducible rfl | simp

@[simp] theorem takeProfileClear_keeps (n : Nat) (s : State) :
    (takeProfileClear n s).line = s.line ∧
    (takeProfileClear n s).pos = s.pos ∧
    (takeProfileClear n s).trig = s.trig ∧
    (takeProfileClear n s).ord = s.ord ∧
    (takeProfileClear n s).reg = s.reg ∧
    (takeProfileClear n s).heat = s.heat ∧
    (takeProfileClear n s).dose = s.dose ∧
    (takeProfileClear n s).tens = s.tens ∧
    (takeProfileClear n s).lastReading = s.lastReading ∧
    (takeProfileClear n s).sent = s.sent ∧
    (takeProfileClear n s).drawn = s.drawn ∧
    (takeProfileClear n s).pending = s.pending := by
  and_intros <;> unfold takeProfileClear <;> (try dsimp only) <;> (repeat' split) <;> first | with_reducible rfl | simp

@[simp] theorem takeLibraryLock_keeps (n : Nat) (s : State) :
    (takeLibraryLock n s).line = s.line ∧
    (takeLibraryLock n s).pos = s.pos ∧
    (takeLibraryLock n s).trig = s.trig ∧
    (takeLibraryLock n s).ord = s.ord ∧
    (takeLibraryLock n s).reg = s.reg ∧
    (takeLibraryLock n s).heat = s.heat ∧
    (takeLibraryLock n s).dose = s.dose ∧
    (takeLibraryLock n s).tens = s.tens ∧
    (takeLibraryLock n s).lastReading = s.lastReading ∧
    (takeLibraryLock n s).sent = s.sent ∧
    (takeLibraryLock n s).drawn = s.drawn ∧
    (takeLibraryLock n s).pending = s.pending := by
  and_intros <;> unfold takeLibraryLock <;> (try dsimp only) <;> (repeat' split) <;> first | with_reducible rfl | simp

@[simp] theorem openOrder_keeps (n : Nat) (s : State) :
    (openOrder n s).line = s.line ∧
    (openOrder n s).pos = s.pos ∧
    (openOrder n s).trig = s.trig ∧
    (openOrder n s).reg = s.reg ∧
    (openOrder n s).heat = s.heat ∧
    (openOrder n s).dose = s.dose ∧
    (openOrder n s).tens = s.tens ∧
    (openOrder n s).lastReading = s.lastReading ∧
    (openOrder n s).walker = s.walker ∧
    (openOrder n s).host = s.host ∧
    (openOrder n s).drawn = s.drawn ∧
    (openOrder n s).pending = s.pending := by
  and_intros <;> unfold openOrder <;> (try dsimp only) <;> (repeat' split) <;> first | with_reducible rfl | simp

@[simp] theorem takeQueuePanels_keeps (n : Nat) (s : State) :
    (takeQueuePanels n s).line = s.line ∧
    (takeQueuePanels n s).pos = s.pos ∧
    (takeQueuePanels n s).trig = s.trig ∧
    (takeQueuePanels n s).reg = s.reg ∧
    (takeQueuePanels n s).heat = s.heat ∧
    (takeQueuePanels n s).dose = s.dose ∧
    (takeQueuePanels n s).tens = s.tens ∧
    (takeQueuePanels n s).lastReading = s.lastReading ∧
    (takeQueuePanels n s).drawn = s.drawn ∧
    (takeQueuePanels n s).pending = s.pending := by
  and_intros <;> unfold takeQueuePanels <;> (try dsimp only) <;> (repeat' split) <;> first | with_reducible rfl | simp

@[simp] theorem cancelOrder_keeps (o : OpenOrder) (s : State) :
    (cancelOrder o s).line = s.line ∧
    (cancelOrder o s).pos = s.pos ∧
    (cancelOrder o s).trig = s.trig ∧
    (cancelOrder o s).reg = s.reg ∧
    (cancelOrder o s).heat = s.heat ∧
    (cancelOrder o s).dose = s.dose ∧
    (cancelOrder o s).tens = s.tens ∧
    (cancelOrder o s).lastReading = s.lastReading ∧
    (cancelOrder o s).walker = s.walker ∧
    (cancelOrder o s).host = s.host ∧
    (cancelOrder o s).sent = s.sent ∧
    (cancelOrder o s).drawn = s.drawn ∧
    (cancelOrder o s).pending = s.pending := by
  and_intros <;> unfold cancelOrder <;> (try dsimp only) <;> (repeat' split) <;> first | with_reducible rfl | simp

@[simp] theorem takeCancelPanels_keeps (n : Nat) (s : State) :
    (takeCancelPanels n s).line = s.line ∧
    (takeCancelPanels n s).pos = s.pos ∧
    (takeCancelPanels n s).trig = s.trig ∧
    (takeCancelPanels n s).reg = s.reg ∧
    (takeCancelPanels n s).heat = s.heat ∧
    (takeCancelPanels n s).dose = s.dose ∧
    (takeCancelPanels n s).tens = s.tens ∧
    (takeCancelPanels n s).lastReading = s.lastReading ∧
    (takeCancelPanels n s).drawn = s.drawn ∧
    (takeCancelPanels n s).pending = s.pending := by
  and_intros <;> unfold takeCancelPanels <;> (try dsimp only) <;> (repeat' split) <;> first | with_reducible rfl | simp

/-! ## Operations of LineTickets -/

@[simp] theorem lineGo_keeps (target : LineState) (cause : LineCause) (s : State) :
    (lineGo target cause s).trig = s.trig ∧
    (lineGo target cause s).lastReading = s.lastReading ∧
    (lineGo target cause s).drawn = s.drawn ∧
    (lineGo target cause s).pending = s.pending := by
  and_intros <;> unfold lineGo <;> (try dsimp only) <;> (repeat' split) <;> first | with_reducible rfl | simp

@[simp] theorem takeLineCommand_keeps (n : Nat) (s : State) :
    (takeLineCommand n s).trig = s.trig ∧
    (takeLineCommand n s).lastReading = s.lastReading ∧
    (takeLineCommand n s).drawn = s.drawn ∧
    (takeLineCommand n s).pending = s.pending := by
  and_intros <;> unfold takeLineCommand <;> (try dsimp only) <;> (repeat' split) <;> first | with_reducible rfl | simp

@[simp] theorem setAuthority_keeps (new : Authority) (source : Word) (s : State) :
    (setAuthority new source s).lib = s.lib ∧
    (setAuthority new source s).pos = s.pos ∧
    (setAuthority new source s).trig = s.trig ∧
    (setAuthority new source s).ord = s.ord ∧
    (setAuthority new source s).reg = s.reg ∧
    (setAuthority new source s).heat = s.heat ∧
    (setAuthority new source s).lastReading = s.lastReading ∧
    (setAuthority new source s).sent = s.sent ∧
    (setAuthority new source s).drawn = s.drawn ∧
    (setAuthority new source s).pending = s.pending := by
  and_intros <;> unfold setAuthority <;> (try dsimp only) <;> (repeat' split) <;> first | with_reducible rfl | simp

@[simp] theorem takeAuthority_keeps (n : Nat) (s : State) :
    (takeAuthority n s).lib = s.lib ∧
    (takeAuthority n s).pos = s.pos ∧
    (takeAuthority n s).trig = s.trig ∧
    (takeAuthority n s).ord = s.ord ∧
    (takeAuthority n s).reg = s.reg ∧
    (takeAuthority n s).heat = s.heat ∧
    (takeAuthority n s).lastReading = s.lastReading ∧
    (takeAuthority n s).sent = s.sent ∧
    (takeAuthority n s).drawn = s.drawn ∧
    (takeAuthority n s).pending = s.pending := by
  and_intros <;> unfold takeAuthority <;> (try dsimp only) <;> (repeat' split) <;> first | with_reducible rfl | simp

@[simp] theorem takeSpeedClass_keeps (n : Nat) (s : State) :
    (takeSpeedClass n s).lib = s.lib ∧
    (takeSpeedClass n s).pos = s.pos ∧
    (takeSpeedClass n s).trig = s.trig ∧
    (takeSpeedClass n s).ord = s.ord ∧
    (takeSpeedClass n s).reg = s.reg ∧
    (takeSpeedClass n s).heat = s.heat ∧
    (takeSpeedClass n s).tens = s.tens ∧
    (takeSpeedClass n s).lastReading = s.lastReading ∧
    (takeSpeedClass n s).sent = s.sent ∧
    (takeSpeedClass n s).drawn = s.drawn ∧
    (takeSpeedClass n s).pending = s.pending := by
  and_intros <;> unfold takeSpeedClass <;> (try dsimp only) <;> (repeat' split) <;> first | with_reducible rfl | simp

@[simp] theorem takeFabricLoaded_keeps (n : Nat) (s : State) :
    (takeFabricLoaded n s).lib = s.lib ∧
    (takeFabricLoaded n s).pos = s.pos ∧
    (takeFabricLoaded n s).trig = s.trig ∧
    (takeFabricLoaded n s).ord = s.ord ∧
    (takeFabricLoaded n s).reg = s.reg ∧
    (takeFabricLoaded n s).heat = s.heat ∧
    (takeFabricLoaded n s).dose = s.dose ∧
    (takeFabricLoaded n s).tens = s.tens ∧
    (takeFabricLoaded n s).lastReading = s.lastReading ∧
    (takeFabricLoaded n s).sent = s.sent ∧
    (takeFabricLoaded n s).drawn = s.drawn ∧
    (takeFabricLoaded n s).pending = s.pending := by
  and_intros <;> unfold takeFabricLoaded <;> (try dsimp only) <;> (repeat' split) <;> first | with_reducible rfl | simp

@[simp] theorem clearLatch_keeps (set : Byte) (s : State) (a : Alarm) :
    (clearLatch set s a).lib = s.lib ∧
    (clearLatch set s a).pos = s.pos ∧
    (clearLatch set s a).trig = s.trig ∧
    (clearLatch set s a).ord = s.ord ∧
    (clearLatch set s a).reg = s.reg ∧
    (clearLatch set s a).heat = s.heat ∧
    (clearLatch set s a).dose = s.dose ∧
    (clearLatch set s a).tens = s.tens ∧
    (clearLatch set s a).lastReading = s.lastReading ∧
    (clearLatch set s a).walker = s.walker ∧
    (clearLatch set s a).sent = s.sent ∧
    (clearLatch set s a).drawn = s.drawn ∧
    (clearLatch set s a).pending = s.pending := by
  and_intros <;> unfold clearLatch <;> (try dsimp only) <;> (repeat' split) <;> first | with_reducible rfl | simp

@[simp] theorem leaveHalt_keeps (set : Byte) (s : State) :
    (leaveHalt set s).pos = s.pos ∧
    (leaveHalt set s).trig = s.trig ∧
    (leaveHalt set s).reg = s.reg ∧
    (leaveHalt set s).lastReading = s.lastReading ∧
    (leaveHalt set s).drawn = s.drawn ∧
    (leaveHalt set s).pending = s.pending := by
  and_intros <;> unfold leaveHalt <;> (try dsimp only) <;> (repeat' split) <;> first | with_reducible rfl | simp

@[simp] theorem clearSections_keeps (set : Byte) (s : State) :
    (clearSections set s).pos = s.pos ∧
    (clearSections set s).trig = s.trig ∧
    (clearSections set s).reg = s.reg ∧
    (clearSections set s).lastReading = s.lastReading ∧
    (clearSections set s).drawn = s.drawn ∧
    (clearSections set s).pending = s.pending := by
  and_intros <;> unfold clearSections <;> (try dsimp only) <;> (repeat' split) <;> first | with_reducible rfl | simp

@[simp] theorem takeSectionClear_keeps (n : Nat) (s : State) :
    (takeSectionClear n s).pos = s.pos ∧
    (takeSectionClear n s).trig = s.trig ∧
    (takeSectionClear n s).reg = s.reg ∧
    (takeSectionClear n s).lastReading = s.lastReading ∧
    (takeSectionClear n s).drawn = s.drawn ∧
    (takeSectionClear n s).pending = s.pending := by
  and_intros <;> unfold takeSectionClear <;> (try dsimp only) <;> (repeat' split) <;> first | with_reducible rfl | simp

/-! ## Operations of LinePorts -/

@[simp] theorem pendantMessage_keeps (s : State) :
    (pendantMessage s).mem = s.mem ∧
    (pendantMessage s).lib = s.lib ∧
    (pendantMessage s).pos = s.pos ∧
    (pendantMessage s).trig = s.trig ∧
    (pendantMessage s).ord = s.ord ∧
    (pendantMessage s).reg = s.reg ∧
    (pendantMessage s).heat = s.heat ∧
    (pendantMessage s).dose = s.dose ∧
    (pendantMessage s).tens = s.tens ∧
    (pendantMessage s).lastReading = s.lastReading ∧
    (pendantMessage s).walker = s.walker ∧
    (pendantMessage s).host = s.host ∧
    (pendantMessage s).sent = s.sent ∧
    (pendantMessage s).drawn = s.drawn ∧
    (pendantMessage s).pending = s.pending := by
  and_intros <;> unfold pendantMessage <;> (try dsimp only) <;> (repeat' split) <;> first | with_reducible rfl | simp

@[simp] theorem keyTake_keeps (s : State) :
    (keyTake s).lib = s.lib ∧
    (keyTake s).pos = s.pos ∧
    (keyTake s).trig = s.trig ∧
    (keyTake s).ord = s.ord ∧
    (keyTake s).reg = s.reg ∧
    (keyTake s).heat = s.heat ∧
    (keyTake s).lastReading = s.lastReading ∧
    (keyTake s).sent = s.sent ∧
    (keyTake s).drawn = s.drawn ∧
    (keyTake s).pending = s.pending := by
  and_intros <;> unfold keyTake <;> (try dsimp only) <;> (repeat' split) <;> first | with_reducible rfl | simp

@[simp] theorem keyGive_keeps (s : State) :
    (keyGive s).lib = s.lib ∧
    (keyGive s).pos = s.pos ∧
    (keyGive s).trig = s.trig ∧
    (keyGive s).ord = s.ord ∧
    (keyGive s).reg = s.reg ∧
    (keyGive s).heat = s.heat ∧
    (keyGive s).lastReading = s.lastReading ∧
    (keyGive s).sent = s.sent ∧
    (keyGive s).drawn = s.drawn ∧
    (keyGive s).pending = s.pending := by
  and_intros <;> unfold keyGive <;> (try dsimp only) <;> (repeat' split) <;> first | with_reducible rfl | simp

@[simp] theorem keyKeep_keeps (s : State) :
    (keyKeep s).lib = s.lib ∧
    (keyKeep s).pos = s.pos ∧
    (keyKeep s).trig = s.trig ∧
    (keyKeep s).ord = s.ord ∧
    (keyKeep s).reg = s.reg ∧
    (keyKeep s).heat = s.heat ∧
    (keyKeep s).lastReading = s.lastReading ∧
    (keyKeep s).sent = s.sent ∧
    (keyKeep s).drawn = s.drawn ∧
    (keyKeep s).pending = s.pending := by
  and_intros <;> unfold keyKeep <;> (try dsimp only) <;> (repeat' split) <;> first | with_reducible rfl | simp

@[simp] theorem keyStop_keeps (s : State) :
    (keyStop s).pos = s.pos ∧
    (keyStop s).trig = s.trig ∧
    (keyStop s).reg = s.reg ∧
    (keyStop s).lastReading = s.lastReading ∧
    (keyStop s).drawn = s.drawn ∧
    (keyStop s).pending = s.pending := by
  and_intros <;> unfold keyStop <;> (try dsimp only) <;> (repeat' split) <;> first | with_reducible rfl | simp

@[simp] theorem keyLine_keeps (target : LineState) (s : State) :
    (keyLine target s).trig = s.trig ∧
    (keyLine target s).lastReading = s.lastReading ∧
    (keyLine target s).drawn = s.drawn ∧
    (keyLine target s).pending = s.pending := by
  and_intros <;> unfold keyLine <;> (try dsimp only) <;> (repeat' split) <;> first | with_reducible rfl | simp

@[simp] theorem endThread_keeps (s : State) :
    (endThread s).trig = s.trig ∧
    (endThread s).lastReading = s.lastReading ∧
    (endThread s).drawn = s.drawn ∧
    (endThread s).pending = s.pending := by
  and_intros <;> unfold endThread <;> (try dsimp only) <;> (repeat' split) <;> first | with_reducible rfl | simp

@[simp] theorem keyThread_keeps (s : State) :
    (keyThread s).trig = s.trig ∧
    (keyThread s).lastReading = s.lastReading ∧
    (keyThread s).drawn = s.drawn ∧
    (keyThread s).pending = s.pending := by
  and_intros <;> unfold keyThread <;> (try dsimp only) <;> (repeat' split) <;> first | with_reducible rfl | simp

@[simp] theorem keyJog_keeps (j : Jog) (s : State) :
    (keyJog j s).lib = s.lib ∧
    (keyJog j s).pos = s.pos ∧
    (keyJog j s).trig = s.trig ∧
    (keyJog j s).ord = s.ord ∧
    (keyJog j s).reg = s.reg ∧
    (keyJog j s).heat = s.heat ∧
    (keyJog j s).lastReading = s.lastReading ∧
    (keyJog j s).sent = s.sent ∧
    (keyJog j s).drawn = s.drawn ∧
    (keyJog j s).pending = s.pending := by
  and_intros <;> unfold keyJog <;> (try dsimp only) <;> (repeat' split) <;> first | with_reducible rfl | simp

@[simp] theorem keyRelease_keeps (k : Key) (s : State) :
    (keyRelease k s).lib = s.lib ∧
    (keyRelease k s).pos = s.pos ∧
    (keyRelease k s).trig = s.trig ∧
    (keyRelease k s).ord = s.ord ∧
    (keyRelease k s).reg = s.reg ∧
    (keyRelease k s).heat = s.heat ∧
    (keyRelease k s).lastReading = s.lastReading ∧
    (keyRelease k s).sent = s.sent ∧
    (keyRelease k s).drawn = s.drawn ∧
    (keyRelease k s).pending = s.pending := by
  and_intros <;> unfold keyRelease <;> (try dsimp only) <;> (repeat' split) <;> first | with_reducible rfl | simp

@[simp] theorem expireLamp_keeps (s : State) :
    (expireLamp s).mem = s.mem ∧
    (expireLamp s).lib = s.lib ∧
    (expireLamp s).pos = s.pos ∧
    (expireLamp s).trig = s.trig ∧
    (expireLamp s).ord = s.ord ∧
    (expireLamp s).reg = s.reg ∧
    (expireLamp s).heat = s.heat ∧
    (expireLamp s).dose = s.dose ∧
    (expireLamp s).tens = s.tens ∧
    (expireLamp s).lastReading = s.lastReading ∧
    (expireLamp s).walker = s.walker ∧
    (expireLamp s).host = s.host ∧
    (expireLamp s).sent = s.sent ∧
    (expireLamp s).drawn = s.drawn ∧
    (expireLamp s).pending = s.pending := by
  and_intros <;> unfold expireLamp <;> (try dsimp only) <;> (repeat' split) <;> first | with_reducible rfl | simp

@[simp] theorem fallSilent_keeps (s : State) :
    (fallSilent s).lib = s.lib ∧
    (fallSilent s).pos = s.pos ∧
    (fallSilent s).trig = s.trig ∧
    (fallSilent s).ord = s.ord ∧
    (fallSilent s).reg = s.reg ∧
    (fallSilent s).heat = s.heat ∧
    (fallSilent s).lastReading = s.lastReading ∧
    (fallSilent s).sent = s.sent ∧
    (fallSilent s).drawn = s.drawn ∧
    (fallSilent s).pending = s.pending := by
  and_intros <;> unfold fallSilent <;> (try dsimp only) <;> (repeat' split) <;> first | with_reducible rfl | simp

@[simp] theorem openChain_keeps (s : State) :
    (openChain s).pos = s.pos ∧
    (openChain s).trig = s.trig ∧
    (openChain s).reg = s.reg ∧
    (openChain s).lastReading = s.lastReading ∧
    (openChain s).drawn = s.drawn ∧
    (openChain s).pending = s.pending := by
  and_intros <;> unfold openChain <;> (try dsimp only) <;> (repeat' split) <;> first | with_reducible rfl | simp

@[simp] theorem closeChain_keeps (s : State) :
    (closeChain s).mem = s.mem ∧
    (closeChain s).lib = s.lib ∧
    (closeChain s).pos = s.pos ∧
    (closeChain s).trig = s.trig ∧
    (closeChain s).ord = s.ord ∧
    (closeChain s).reg = s.reg ∧
    (closeChain s).heat = s.heat ∧
    (closeChain s).dose = s.dose ∧
    (closeChain s).tens = s.tens ∧
    (closeChain s).lastReading = s.lastReading ∧
    (closeChain s).walker = s.walker ∧
    (closeChain s).host = s.host ∧
    (closeChain s).sent = s.sent ∧
    (closeChain s).drawn = s.drawn ∧
    (closeChain s).pending = s.pending := by
  and_intros <;> unfold closeChain <;> (try dsimp only) <;> (repeat' split) <;> first | with_reducible rfl | simp

@[simp] theorem keepDriveStatus_keeps (d : DriveStatus) (s : State) :
    (keepDriveStatus d s).pos = s.pos ∧
    (keepDriveStatus d s).trig = s.trig ∧
    (keepDriveStatus d s).reg = s.reg ∧
    (keepDriveStatus d s).lastReading = s.lastReading ∧
    (keepDriveStatus d s).drawn = s.drawn ∧
    (keepDriveStatus d s).pending = s.pending := by
  and_intros <;> unfold keepDriveStatus <;> (try dsimp only) <;> (repeat' split) <;> first | with_reducible rfl | simp

@[simp] theorem linkUp_keeps (s : State) :
    (linkUp s).mem = s.mem ∧
    (linkUp s).lib = s.lib ∧
    (linkUp s).pos = s.pos ∧
    (linkUp s).trig = s.trig ∧
    (linkUp s).ord = s.ord ∧
    (linkUp s).reg = s.reg ∧
    (linkUp s).heat = s.heat ∧
    (linkUp s).dose = s.dose ∧
    (linkUp s).tens = s.tens ∧
    (linkUp s).lastReading = s.lastReading ∧
    (linkUp s).walker = s.walker ∧
    (linkUp s).host = s.host ∧
    (linkUp s).sent = s.sent ∧
    (linkUp s).drawn = s.drawn ∧
    (linkUp s).pending = s.pending := by
  and_intros <;> unfold linkUp <;> (try dsimp only) <;> (repeat' split) <;> first | with_reducible rfl | simp

@[simp] theorem statusFrame_keeps (w : WrapReport) (phase : Word) (d : DriveStatus) (s : State) :
    (statusFrame w phase d s).pos = s.pos ∧
    (statusFrame w phase d s).trig = s.trig ∧
    (statusFrame w phase d s).lastReading = s.lastReading ∧
    (statusFrame w phase d s).drawn = s.drawn ∧
    (statusFrame w phase d s).pending = s.pending := by
  and_intros <;> unfold statusFrame <;> (try dsimp only) <;> (repeat' split) <;> first | with_reducible rfl | simp

@[simp] theorem loseLink_keeps (s : State) :
    (loseLink s).pos = s.pos ∧
    (loseLink s).trig = s.trig ∧
    (loseLink s).reg = s.reg ∧
    (loseLink s).lastReading = s.lastReading ∧
    (loseLink s).drawn = s.drawn ∧
    (loseLink s).pending = s.pending := by
  and_intros <;> unfold loseLink <;> (try dsimp only) <;> (repeat' split) <;> first | with_reducible rfl | simp

@[simp] theorem wrapExpiry_keeps (s : State) :
    (wrapExpiry s).pos = s.pos ∧
    (wrapExpiry s).trig = s.trig ∧
    (wrapExpiry s).reg = s.reg ∧
    (wrapExpiry s).lastReading = s.lastReading ∧
    (wrapExpiry s).drawn = s.drawn ∧
    (wrapExpiry s).pending = s.pending := by
  and_intros <;> unfold wrapExpiry <;> (try dsimp only) <;> (repeat' split) <;> first | with_reducible rfl | simp

@[simp] theorem printAnswer_keeps (n : Half) (r : PrintResult) (s : State) :
    (printAnswer n r s).line = s.line ∧
    (printAnswer n r s).pos = s.pos ∧
    (printAnswer n r s).trig = s.trig ∧
    (printAnswer n r s).reg = s.reg ∧
    (printAnswer n r s).heat = s.heat ∧
    (printAnswer n r s).dose = s.dose ∧
    (printAnswer n r s).tens = s.tens ∧
    (printAnswer n r s).lastReading = s.lastReading ∧
    (printAnswer n r s).drawn = s.drawn ∧
    (printAnswer n r s).pending = s.pending := by
  and_intros <;> unfold printAnswer <;> (try dsimp only) <;> (repeat' split) <;> first | with_reducible rfl | simp

@[simp] theorem engineBack_keeps (v : EngineState) (s : State) :
    (engineBack v s).mem = s.mem ∧
    (engineBack v s).lib = s.lib ∧
    (engineBack v s).pos = s.pos ∧
    (engineBack v s).trig = s.trig ∧
    (engineBack v s).ord = s.ord ∧
    (engineBack v s).reg = s.reg ∧
    (engineBack v s).heat = s.heat ∧
    (engineBack v s).dose = s.dose ∧
    (engineBack v s).tens = s.tens ∧
    (engineBack v s).lastReading = s.lastReading ∧
    (engineBack v s).walker = s.walker ∧
    (engineBack v s).host = s.host ∧
    (engineBack v s).sent = s.sent ∧
    (engineBack v s).drawn = s.drawn ∧
    (engineBack v s).pending = s.pending := by
  and_intros <;> unfold engineBack <;> (try dsimp only) <;> (repeat' split) <;> first | with_reducible rfl | simp

@[simp] theorem engineReport_keeps (v : EngineState) (s : State) :
    (engineReport v s).pos = s.pos ∧
    (engineReport v s).trig = s.trig ∧
    (engineReport v s).reg = s.reg ∧
    (engineReport v s).lastReading = s.lastReading ∧
    (engineReport v s).drawn = s.drawn ∧
    (engineReport v s).pending = s.pending := by
  and_intros <;> unfold engineReport <;> (try dsimp only) <;> (repeat' split) <;> first | with_reducible rfl | simp

@[simp] theorem doseInterval_keeps (s : State) :
    (doseInterval s).pos = s.pos ∧
    (doseInterval s).trig = s.trig ∧
    (doseInterval s).reg = s.reg ∧
    (doseInterval s).lastReading = s.lastReading ∧
    (doseInterval s).drawn = s.drawn ∧
    (doseInterval s).pending = s.pending := by
  and_intros <;> unfold doseInterval <;> (try dsimp only) <;> (repeat' split) <;> first | with_reducible rfl | simp

/-! ## Operations of Reset -/

@[simp] theorem resetOrder_keeps (s : State) (o : OpenOrder) :
    (resetOrder s o).line = s.line ∧
    (resetOrder s o).lib = s.lib ∧
    (resetOrder s o).pos = s.pos ∧
    (resetOrder s o).trig = s.trig ∧
    (resetOrder s o).ord = s.ord ∧
    (resetOrder s o).reg = s.reg ∧
    (resetOrder s o).heat = s.heat ∧
    (resetOrder s o).dose = s.dose ∧
    (resetOrder s o).tens = s.tens ∧
    (resetOrder s o).lastReading = s.lastReading ∧
    (resetOrder s o).sent = s.sent ∧
    (resetOrder s o).drawn = s.drawn ∧
    (resetOrder s o).pending = s.pending := by
  and_intros <;> unfold resetOrder <;> (try dsimp only) <;> (repeat' split) <;> first | with_reducible rfl | simp

@[simp] theorem emptyOrders_keeps (s : State) :
    (emptyOrders s).mem = s.mem ∧
    (emptyOrders s).line = s.line ∧
    (emptyOrders s).pos = s.pos ∧
    (emptyOrders s).trig = s.trig ∧
    (emptyOrders s).reg = s.reg ∧
    (emptyOrders s).heat = s.heat ∧
    (emptyOrders s).dose = s.dose ∧
    (emptyOrders s).tens = s.tens ∧
    (emptyOrders s).lastReading = s.lastReading ∧
    (emptyOrders s).walker = s.walker ∧
    (emptyOrders s).host = s.host ∧
    (emptyOrders s).sent = s.sent ∧
    (emptyOrders s).drawn = s.drawn ∧
    (emptyOrders s).pending = s.pending := by
  and_intros <;> unfold emptyOrders <;> (try dsimp only) <;> (repeat' split) <;> first | with_reducible rfl | simp

@[simp] theorem orderReset_keeps (s : State) :
    (orderReset s).pos = s.pos ∧
    (orderReset s).trig = s.trig ∧
    (orderReset s).reg = s.reg ∧
    (orderReset s).heat = s.heat ∧
    (orderReset s).dose = s.dose ∧
    (orderReset s).tens = s.tens ∧
    (orderReset s).lastReading = s.lastReading ∧
    (orderReset s).sent = s.sent ∧
    (orderReset s).drawn = s.drawn ∧
    (orderReset s).pending = s.pending := by
  and_intros <;> unfold orderReset <;> (try dsimp only) <;> (repeat' split) <;> first | with_reducible rfl | simp

@[simp] theorem coldReset_keeps (s : State) :
    (coldReset s).pos = s.pos ∧
    (coldReset s).trig = s.trig ∧
    (coldReset s).reg = s.reg ∧
    (coldReset s).lastReading = s.lastReading ∧
    (coldReset s).drawn = s.drawn ∧
    (coldReset s).pending = s.pending := by
  and_intros <;> unfold coldReset <;> (try dsimp only) <;> (repeat' split) <;> first | with_reducible rfl | simp

@[simp] theorem reRaise_keeps (s : State) (a : Alarm) :
    (reRaise s a).pos = s.pos ∧
    (reRaise s a).trig = s.trig ∧
    (reRaise s a).reg = s.reg ∧
    (reRaise s a).lastReading = s.lastReading ∧
    (reRaise s a).pending = s.pending := by
  and_intros <;> unfold reRaise <;> (try dsimp only) <;> (repeat' split) <;> first | with_reducible rfl | simp

@[simp] theorem dropLatch_keeps (s : State) (a : Alarm) :
    (dropLatch s a).lib = s.lib ∧
    (dropLatch s a).pos = s.pos ∧
    (dropLatch s a).trig = s.trig ∧
    (dropLatch s a).ord = s.ord ∧
    (dropLatch s a).reg = s.reg ∧
    (dropLatch s a).heat = s.heat ∧
    (dropLatch s a).dose = s.dose ∧
    (dropLatch s a).tens = s.tens ∧
    (dropLatch s a).lastReading = s.lastReading ∧
    (dropLatch s a).walker = s.walker ∧
    (dropLatch s a).sent = s.sent ∧
    (dropLatch s a).drawn = s.drawn ∧
    (dropLatch s a).pending = s.pending := by
  and_intros <;> unfold dropLatch <;> (try dsimp only) <;> (repeat' split) <;> first | with_reducible rfl | simp

@[simp] theorem renewAlarms_keeps (s : State) :
    (renewAlarms s).pos = s.pos ∧
    (renewAlarms s).trig = s.trig ∧
    (renewAlarms s).reg = s.reg ∧
    (renewAlarms s).lastReading = s.lastReading ∧
    (renewAlarms s).pending = s.pending := by
  and_intros <;> unfold renewAlarms <;> (try dsimp only) <;> (repeat' split) <;> first | with_reducible rfl | simp

@[simp] theorem blocksReset_keeps (s : State) :
    (blocksReset s).heat = s.heat ∧
    (blocksReset s).lastReading = s.lastReading ∧
    (blocksReset s).sent = s.sent ∧
    (blocksReset s).drawn = s.drawn ∧
    (blocksReset s).pending = s.pending := by
  and_intros <;> unfold blocksReset <;> (try dsimp only) <;> (repeat' split) <;> first | with_reducible rfl | simp

@[simp] theorem lineReset_keeps (s : State) :
    (lineReset s).lastReading = s.lastReading ∧
    (lineReset s).pending = s.pending := by
  and_intros <;> unfold lineReset <;> (try dsimp only) <;> (repeat' split) <;> first | with_reducible rfl | simp

/-! ## Operations of Chain -/

@[simp] theorem claimTicket_keeps (n : Nat) (s : State) :
    (claimTicket n s).line = s.line ∧
    (claimTicket n s).lib = s.lib ∧
    (claimTicket n s).pos = s.pos ∧
    (claimTicket n s).trig = s.trig ∧
    (claimTicket n s).ord = s.ord ∧
    (claimTicket n s).reg = s.reg ∧
    (claimTicket n s).heat = s.heat ∧
    (claimTicket n s).dose = s.dose ∧
    (claimTicket n s).tens = s.tens ∧
    (claimTicket n s).lastReading = s.lastReading ∧
    (claimTicket n s).host = s.host ∧
    (claimTicket n s).sent = s.sent ∧
    (claimTicket n s).drawn = s.drawn ∧
    (claimTicket n s).pending = s.pending := by
  and_intros <;> unfold claimTicket <;> (try dsimp only) <;> (repeat' split) <;> first | with_reducible rfl | simp

@[simp] theorem takeNop_keeps (n : Nat) (s : State) :
    (takeNop n s).line = s.line ∧
    (takeNop n s).lib = s.lib ∧
    (takeNop n s).pos = s.pos ∧
    (takeNop n s).trig = s.trig ∧
    (takeNop n s).ord = s.ord ∧
    (takeNop n s).reg = s.reg ∧
    (takeNop n s).heat = s.heat ∧
    (takeNop n s).dose = s.dose ∧
    (takeNop n s).tens = s.tens ∧
    (takeNop n s).lastReading = s.lastReading ∧
    (takeNop n s).sent = s.sent ∧
    (takeNop n s).drawn = s.drawn ∧
    (takeNop n s).pending = s.pending := by
  and_intros <;> unfold takeNop <;> (try dsimp only) <;> (repeat' split) <;> first | with_reducible rfl | simp

@[simp] theorem takeBadKind_keeps (n : Nat) (s : State) :
    (takeBadKind n s).line = s.line ∧
    (takeBadKind n s).lib = s.lib ∧
    (takeBadKind n s).pos = s.pos ∧
    (takeBadKind n s).trig = s.trig ∧
    (takeBadKind n s).ord = s.ord ∧
    (takeBadKind n s).reg = s.reg ∧
    (takeBadKind n s).heat = s.heat ∧
    (takeBadKind n s).dose = s.dose ∧
    (takeBadKind n s).tens = s.tens ∧
    (takeBadKind n s).lastReading = s.lastReading ∧
    (takeBadKind n s).sent = s.sent ∧
    (takeBadKind n s).drawn = s.drawn ∧
    (takeBadKind n s).pending = s.pending := by
  and_intros <;> unfold takeBadKind <;> (try dsimp only) <;> (repeat' split) <;> first | with_reducible rfl | simp

@[simp] theorem dispatch_keeps (n : Nat) (s : State) :
    (dispatch n s).lastReading = s.lastReading ∧
    (dispatch n s).drawn = s.drawn ∧
    (dispatch n s).pending = s.pending := by
  and_intros <;> unfold dispatch <;> (try dsimp only) <;> (repeat' split) <;> first | with_reducible rfl | simp

@[simp] theorem afterTake_keeps (s : State) :
    (afterTake s).line = s.line ∧
    (afterTake s).lib = s.lib ∧
    (afterTake s).pos = s.pos ∧
    (afterTake s).trig = s.trig ∧
    (afterTake s).ord = s.ord ∧
    (afterTake s).reg = s.reg ∧
    (afterTake s).heat = s.heat ∧
    (afterTake s).dose = s.dose ∧
    (afterTake s).tens = s.tens ∧
    (afterTake s).lastReading = s.lastReading ∧
    (afterTake s).sent = s.sent ∧
    (afterTake s).drawn = s.drawn ∧
    (afterTake s).pending = s.pending := by
  and_intros <;> unfold afterTake <;> (try dsimp only) <;> (repeat' split) <;> first | with_reducible rfl | simp

@[simp] theorem examine_keeps (s : State) :
    (examine s).lastReading = s.lastReading ∧
    (examine s).drawn = s.drawn ∧
    (examine s).pending = s.pending := by
  and_intros <;> unfold examine takeLook <;> (try dsimp only) <;> (repeat' split) <;> first | with_reducible rfl | simp

@[simp] theorem takeUnknown_keeps (s : State) :
    (takeUnknown s).line = s.line ∧
    (takeUnknown s).lib = s.lib ∧
    (takeUnknown s).pos = s.pos ∧
    (takeUnknown s).trig = s.trig ∧
    (takeUnknown s).ord = s.ord ∧
    (takeUnknown s).reg = s.reg ∧
    (takeUnknown s).heat = s.heat ∧
    (takeUnknown s).dose = s.dose ∧
    (takeUnknown s).tens = s.tens ∧
    (takeUnknown s).lastReading = s.lastReading ∧
    (takeUnknown s).sent = s.sent ∧
    (takeUnknown s).drawn = s.drawn ∧
    (takeUnknown s).pending = s.pending := by
  and_intros <;> unfold takeUnknown takeLook <;> (try dsimp only) <;> (repeat' split) <;> first | with_reducible rfl | simp

@[simp] theorem lookAgain_keeps (s : State) :
    (lookAgain s).line = s.line ∧
    (lookAgain s).lib = s.lib ∧
    (lookAgain s).pos = s.pos ∧
    (lookAgain s).trig = s.trig ∧
    (lookAgain s).ord = s.ord ∧
    (lookAgain s).reg = s.reg ∧
    (lookAgain s).heat = s.heat ∧
    (lookAgain s).dose = s.dose ∧
    (lookAgain s).tens = s.tens ∧
    (lookAgain s).lastReading = s.lastReading ∧
    (lookAgain s).sent = s.sent ∧
    (lookAgain s).drawn = s.drawn ∧
    (lookAgain s).pending = s.pending := by
  and_intros <;> unfold lookAgain <;> (try dsimp only) <;> (repeat' split) <;> first | with_reducible rfl | simp

@[simp] theorem chainLook_keeps (s : State) :
    (chainLook s).line = s.line ∧
    (chainLook s).lib = s.lib ∧
    (chainLook s).pos = s.pos ∧
    (chainLook s).trig = s.trig ∧
    (chainLook s).ord = s.ord ∧
    (chainLook s).reg = s.reg ∧
    (chainLook s).heat = s.heat ∧
    (chainLook s).dose = s.dose ∧
    (chainLook s).tens = s.tens ∧
    (chainLook s).lastReading = s.lastReading ∧
    (chainLook s).sent = s.sent ∧
    (chainLook s).drawn = s.drawn ∧
    (chainLook s).pending = s.pending := by
  and_intros <;> unfold chainLook <;> (try dsimp only) <;> (repeat' split) <;> first | with_reducible rfl | simp

@[simp] theorem restartWalker_keeps (s : State) :
    (restartWalker s).line = s.line ∧
    (restartWalker s).lib = s.lib ∧
    (restartWalker s).pos = s.pos ∧
    (restartWalker s).trig = s.trig ∧
    (restartWalker s).ord = s.ord ∧
    (restartWalker s).reg = s.reg ∧
    (restartWalker s).heat = s.heat ∧
    (restartWalker s).dose = s.dose ∧
    (restartWalker s).tens = s.tens ∧
    (restartWalker s).lastReading = s.lastReading ∧
    (restartWalker s).sent = s.sent ∧
    (restartWalker s).drawn = s.drawn ∧
    (restartWalker s).pending = s.pending := by
  and_intros <;> unfold restartWalker <;> (try dsimp only) <;> (repeat' split) <;> first | with_reducible rfl | simp

@[simp] theorem answerStart_keeps (st : StartStatus) (s : State) :
    (answerStart st s).mem = s.mem ∧
    (answerStart st s).line = s.line ∧
    (answerStart st s).lib = s.lib ∧
    (answerStart st s).pos = s.pos ∧
    (answerStart st s).trig = s.trig ∧
    (answerStart st s).ord = s.ord ∧
    (answerStart st s).reg = s.reg ∧
    (answerStart st s).heat = s.heat ∧
    (answerStart st s).dose = s.dose ∧
    (answerStart st s).tens = s.tens ∧
    (answerStart st s).lastReading = s.lastReading ∧
    (answerStart st s).walker = s.walker ∧
    (answerStart st s).sent = s.sent ∧
    (answerStart st s).drawn = s.drawn ∧
    (answerStart st s).pending = s.pending := by
  and_intros <;> unfold answerStart <;> (try dsimp only) <;> (repeat' split) <;> first | with_reducible rfl | simp

@[simp] theorem startPart_keeps (s : State) :
    (startPart s).mem = s.mem ∧
    (startPart s).line = s.line ∧
    (startPart s).lib = s.lib ∧
    (startPart s).pos = s.pos ∧
    (startPart s).trig = s.trig ∧
    (startPart s).ord = s.ord ∧
    (startPart s).reg = s.reg ∧
    (startPart s).heat = s.heat ∧
    (startPart s).dose = s.dose ∧
    (startPart s).tens = s.tens ∧
    (startPart s).lastReading = s.lastReading ∧
    (startPart s).sent = s.sent ∧
    (startPart s).drawn = s.drawn ∧
    (startPart s).pending = s.pending := by
  and_intros <;> unfold startPart <;> (try dsimp only) <;> (repeat' split) <;> first | with_reducible rfl | simp

/-! ## Operations of HostPort -/

@[simp] theorem storeLane_keeps (a : Nat) (data : Word) (enables : BitVec 4) (s : State) (k : Nat) :
    (storeLane a data enables s k).line = s.line ∧
    (storeLane a data enables s k).lib = s.lib ∧
    (storeLane a data enables s k).pos = s.pos ∧
    (storeLane a data enables s k).trig = s.trig ∧
    (storeLane a data enables s k).ord = s.ord ∧
    (storeLane a data enables s k).reg = s.reg ∧
    (storeLane a data enables s k).heat = s.heat ∧
    (storeLane a data enables s k).dose = s.dose ∧
    (storeLane a data enables s k).tens = s.tens ∧
    (storeLane a data enables s k).lastReading = s.lastReading ∧
    (storeLane a data enables s k).walker = s.walker ∧
    (storeLane a data enables s k).host = s.host ∧
    (storeLane a data enables s k).sent = s.sent ∧
    (storeLane a data enables s k).drawn = s.drawn ∧
    (storeLane a data enables s k).pending = s.pending := by
  and_intros <;> unfold storeLane <;> (try dsimp only) <;> (repeat' split) <;> first | with_reducible rfl | simp

@[simp] theorem storeWord_keeps (a : Nat) (data : Word) (enables : BitVec 4) (s : State) :
    (storeWord a data enables s).line = s.line ∧
    (storeWord a data enables s).lib = s.lib ∧
    (storeWord a data enables s).pos = s.pos ∧
    (storeWord a data enables s).trig = s.trig ∧
    (storeWord a data enables s).ord = s.ord ∧
    (storeWord a data enables s).reg = s.reg ∧
    (storeWord a data enables s).heat = s.heat ∧
    (storeWord a data enables s).dose = s.dose ∧
    (storeWord a data enables s).tens = s.tens ∧
    (storeWord a data enables s).lastReading = s.lastReading ∧
    (storeWord a data enables s).walker = s.walker ∧
    (storeWord a data enables s).host = s.host ∧
    (storeWord a data enables s).sent = s.sent ∧
    (storeWord a data enables s).drawn = s.drawn ∧
    (storeWord a data enables s).pending = s.pending := by
  and_intros <;> unfold storeWord <;> (try dsimp only) <;> (repeat' split) <;> first | with_reducible rfl | simp

@[simp] theorem dropWrite_keeps (a : Nat) (s : State) :
    (dropWrite a s).mem = s.mem ∧
    (dropWrite a s).line = s.line ∧
    (dropWrite a s).lib = s.lib ∧
    (dropWrite a s).pos = s.pos ∧
    (dropWrite a s).trig = s.trig ∧
    (dropWrite a s).ord = s.ord ∧
    (dropWrite a s).reg = s.reg ∧
    (dropWrite a s).heat = s.heat ∧
    (dropWrite a s).dose = s.dose ∧
    (dropWrite a s).tens = s.tens ∧
    (dropWrite a s).lastReading = s.lastReading ∧
    (dropWrite a s).walker = s.walker ∧
    (dropWrite a s).sent = s.sent ∧
    (dropWrite a s).drawn = s.drawn ∧
    (dropWrite a s).pending = s.pending := by
  and_intros <;> unfold dropWrite <;> (try dsimp only) <;> (repeat' split) <;> first | with_reducible rfl | simp

@[simp] theorem memoryWrite_keeps (a : Nat) (data : Word) (enables : BitVec 4) (s : State) :
    (memoryWrite a data enables s).line = s.line ∧
    (memoryWrite a data enables s).lib = s.lib ∧
    (memoryWrite a data enables s).pos = s.pos ∧
    (memoryWrite a data enables s).trig = s.trig ∧
    (memoryWrite a data enables s).ord = s.ord ∧
    (memoryWrite a data enables s).reg = s.reg ∧
    (memoryWrite a data enables s).heat = s.heat ∧
    (memoryWrite a data enables s).dose = s.dose ∧
    (memoryWrite a data enables s).tens = s.tens ∧
    (memoryWrite a data enables s).lastReading = s.lastReading ∧
    (memoryWrite a data enables s).walker = s.walker ∧
    (memoryWrite a data enables s).sent = s.sent ∧
    (memoryWrite a data enables s).drawn = s.drawn ∧
    (memoryWrite a data enables s).pending = s.pending := by
  and_intros <;> unfold memoryWrite <;> (try dsimp only) <;> (repeat' split) <;> first | with_reducible rfl | simp

@[simp] theorem clearCauses_keeps (bits : Word) (s : State) :
    (clearCauses bits s).mem = s.mem ∧
    (clearCauses bits s).line = s.line ∧
    (clearCauses bits s).lib = s.lib ∧
    (clearCauses bits s).pos = s.pos ∧
    (clearCauses bits s).trig = s.trig ∧
    (clearCauses bits s).ord = s.ord ∧
    (clearCauses bits s).reg = s.reg ∧
    (clearCauses bits s).heat = s.heat ∧
    (clearCauses bits s).dose = s.dose ∧
    (clearCauses bits s).tens = s.tens ∧
    (clearCauses bits s).lastReading = s.lastReading ∧
    (clearCauses bits s).walker = s.walker ∧
    (clearCauses bits s).sent = s.sent ∧
    (clearCauses bits s).drawn = s.drawn ∧
    (clearCauses bits s).pending = s.pending := by
  and_intros <;> unfold clearCauses <;> (try dsimp only) <;> (repeat' split) <;> first | with_reducible rfl | simp

@[simp] theorem setMask_keeps (bits : Word) (s : State) :
    (setMask bits s).mem = s.mem ∧
    (setMask bits s).line = s.line ∧
    (setMask bits s).lib = s.lib ∧
    (setMask bits s).pos = s.pos ∧
    (setMask bits s).trig = s.trig ∧
    (setMask bits s).ord = s.ord ∧
    (setMask bits s).reg = s.reg ∧
    (setMask bits s).heat = s.heat ∧
    (setMask bits s).dose = s.dose ∧
    (setMask bits s).tens = s.tens ∧
    (setMask bits s).lastReading = s.lastReading ∧
    (setMask bits s).walker = s.walker ∧
    (setMask bits s).sent = s.sent ∧
    (setMask bits s).drawn = s.drawn ∧
    (setMask bits s).pending = s.pending := by
  and_intros <;> unfold setMask <;> (try dsimp only) <;> (repeat' split) <;> first | with_reducible rfl | simp

@[simp] theorem controlWrite_keeps (data : Word) (s : State) :
    (controlWrite data s).lastReading = s.lastReading ∧
    (controlWrite data s).pending = s.pending := by
  and_intros <;> unfold controlWrite <;> (try dsimp only) <;> (repeat' split) <;> first | with_reducible rfl | simp

@[simp] theorem registerWrite_keeps (a : Nat) (data : Word) (enables : BitVec 4) (s : State) :
    (registerWrite a data enables s).lastReading = s.lastReading ∧
    (registerWrite a data enables s).pending = s.pending := by
  and_intros <;> unfold registerWrite <;> (try dsimp only) <;> (repeat' split) <;> first | with_reducible rfl | simp

@[simp] theorem hostWrite_keeps (offset data : Word) (enables : BitVec 4) (s : State) :
    (hostWrite offset data enables s).lastReading = s.lastReading ∧
    (hostWrite offset data enables s).pending = s.pending := by
  and_intros <;> unfold hostWrite <;> (try dsimp only) <;> (repeat' split) <;> first | with_reducible rfl | simp

@[simp] theorem remind_keeps (s : State) :
    (remind s).mem = s.mem ∧
    (remind s).line = s.line ∧
    (remind s).lib = s.lib ∧
    (remind s).pos = s.pos ∧
    (remind s).trig = s.trig ∧
    (remind s).ord = s.ord ∧
    (remind s).reg = s.reg ∧
    (remind s).heat = s.heat ∧
    (remind s).dose = s.dose ∧
    (remind s).tens = s.tens ∧
    (remind s).lastReading = s.lastReading ∧
    (remind s).walker = s.walker ∧
    (remind s).sent = s.sent ∧
    (remind s).drawn = s.drawn ∧
    (remind s).pending = s.pending := by
  and_intros <;> unfold remind <;> (try dsimp only) <;> (repeat' split) <;> first | with_reducible rfl | simp

@[simp] theorem pictureStep_keeps (s : State) :
    (pictureStep s).line = s.line ∧
    (pictureStep s).lib = s.lib ∧
    (pictureStep s).pos = s.pos ∧
    (pictureStep s).trig = s.trig ∧
    (pictureStep s).ord = s.ord ∧
    (pictureStep s).reg = s.reg ∧
    (pictureStep s).heat = s.heat ∧
    (pictureStep s).dose = s.dose ∧
    (pictureStep s).tens = s.tens ∧
    (pictureStep s).lastReading = s.lastReading ∧
    (pictureStep s).walker = s.walker ∧
    (pictureStep s).sent = s.sent ∧
    (pictureStep s).drawn = s.drawn ∧
    (pictureStep s).pending = s.pending := by
  and_intros <;> unfold pictureStep <;> (try dsimp only) <;> (repeat' split) <;> first | with_reducible rfl | simp

@[simp] theorem tickClock_keeps (s : State) :
    (tickClock s).mem = s.mem ∧
    (tickClock s).line = s.line ∧
    (tickClock s).lib = s.lib ∧
    (tickClock s).pos = s.pos ∧
    (tickClock s).trig = s.trig ∧
    (tickClock s).ord = s.ord ∧
    (tickClock s).reg = s.reg ∧
    (tickClock s).heat = s.heat ∧
    (tickClock s).dose = s.dose ∧
    (tickClock s).tens = s.tens ∧
    (tickClock s).lastReading = s.lastReading ∧
    (tickClock s).walker = s.walker ∧
    (tickClock s).sent = s.sent ∧
    (tickClock s).drawn = s.drawn ∧
    (tickClock s).pending = s.pending := by
  and_intros <;> unfold tickClock <;> (try dsimp only) <;> (repeat' split) <;> first | with_reducible rfl | simp

/-! ## Operations of Answer -/

@[simp] theorem clearSent_keeps (s : State) :
    (clearSent s).mem = s.mem ∧
    (clearSent s).line = s.line ∧
    (clearSent s).lib = s.lib ∧
    (clearSent s).pos = s.pos ∧
    (clearSent s).trig = s.trig ∧
    (clearSent s).ord = s.ord ∧
    (clearSent s).reg = s.reg ∧
    (clearSent s).heat = s.heat ∧
    (clearSent s).dose = s.dose ∧
    (clearSent s).tens = s.tens ∧
    (clearSent s).lastReading = s.lastReading ∧
    (clearSent s).walker = s.walker ∧
    (clearSent s).host = s.host ∧
    (clearSent s).drawn = s.drawn ∧
    (clearSent s).pending = s.pending := by
  and_intros <;> unfold clearSent <;> (try dsimp only) <;> (repeat' split) <;> first | with_reducible rfl | simp

@[simp] theorem sendFrame_keeps (force : Bool) (before after : State) :
    (sendFrame force before after).mem = after.mem ∧
    (sendFrame force before after).line = after.line ∧
    (sendFrame force before after).lib = after.lib ∧
    (sendFrame force before after).pos = after.pos ∧
    (sendFrame force before after).trig = after.trig ∧
    (sendFrame force before after).ord = after.ord ∧
    (sendFrame force before after).reg = after.reg ∧
    (sendFrame force before after).heat = after.heat ∧
    (sendFrame force before after).dose = after.dose ∧
    (sendFrame force before after).tens = after.tens ∧
    (sendFrame force before after).lastReading = after.lastReading ∧
    (sendFrame force before after).walker = after.walker ∧
    (sendFrame force before after).host = after.host ∧
    (sendFrame force before after).drawn = after.drawn ∧
    (sendFrame force before after).pending = after.pending := by
  and_intros <;> unfold sendFrame <;> (try dsimp only) <;> (repeat' split) <;> first | with_reducible rfl | simp

@[simp] theorem sendLamps_keeps (force : Bool) (before after : State) :
    (sendLamps force before after).mem = after.mem ∧
    (sendLamps force before after).line = after.line ∧
    (sendLamps force before after).lib = after.lib ∧
    (sendLamps force before after).pos = after.pos ∧
    (sendLamps force before after).trig = after.trig ∧
    (sendLamps force before after).ord = after.ord ∧
    (sendLamps force before after).reg = after.reg ∧
    (sendLamps force before after).heat = after.heat ∧
    (sendLamps force before after).dose = after.dose ∧
    (sendLamps force before after).tens = after.tens ∧
    (sendLamps force before after).lastReading = after.lastReading ∧
    (sendLamps force before after).walker = after.walker ∧
    (sendLamps force before after).host = after.host ∧
    (sendLamps force before after).drawn = after.drawn ∧
    (sendLamps force before after).pending = after.pending := by
  and_intros <;> unfold sendLamps <;> (try dsimp only) <;> (repeat' split) <;> first | with_reducible rfl | simp

@[simp] theorem announce_keeps (frame lamps : Bool) (before after : State) :
    (announce frame lamps before after).mem = after.mem ∧
    (announce frame lamps before after).line = after.line ∧
    (announce frame lamps before after).lib = after.lib ∧
    (announce frame lamps before after).pos = after.pos ∧
    (announce frame lamps before after).trig = after.trig ∧
    (announce frame lamps before after).ord = after.ord ∧
    (announce frame lamps before after).reg = after.reg ∧
    (announce frame lamps before after).heat = after.heat ∧
    (announce frame lamps before after).dose = after.dose ∧
    (announce frame lamps before after).tens = after.tens ∧
    (announce frame lamps before after).lastReading = after.lastReading ∧
    (announce frame lamps before after).walker = after.walker ∧
    (announce frame lamps before after).host = after.host ∧
    (announce frame lamps before after).drawn = after.drawn ∧
    (announce frame lamps before after).pending = after.pending := by
  and_intros <;> unfold announce <;> (try dsimp only) <;> (repeat' split) <;> first | with_reducible rfl | simp

end Sys2Proof.Machine
end

