-- ==== Sys2Proof/Laws/Memory.lean ====
section
/-! SUPPORT. Exchange memory: reads after writes, and the canonical form kept by every write. -/

namespace Sys2Proof.Machine

/-- Below its first address a canonical memory reads 0. -/
theorem Memory.get_below {lo : Nat} {m : List Host.Cell} (h : Memory.wfFrom lo m = true) {a : Nat}
    (ha : a < lo) : Memory.get m a = 0 := by
  induction m generalizing lo with
  | nil => rfl
  | cons c m ih =>
    obtain ⟨k, b⟩ := c
    simp only [Memory.wfFrom, Bool.and_eq_true, decide_eq_true_eq] at h
    have hk : a ≠ k := by omega
    simp only [Memory.get, if_neg hk]
    exact ih h.2 (by omega)

/-- Writing one address leaves the others as they read. -/
theorem Memory.get_insert_other (m : List Host.Cell) {a x : Nat} (b : Byte) (h : x ≠ a) :
    Memory.get (Memory.insert m a b) x = Memory.get m x := by
  induction m with
  | nil => simp only [Memory.insert]; split <;> simp [Memory.get, h]
  | cons c m ih =>
    obtain ⟨k, d⟩ := c
    simp only [Memory.insert]
    split
    · split <;> simp [Memory.get, h]
    · split
      · next hk => subst hk; split <;> simp [Memory.get, h]
      · simp [Memory.get, ih]

/-- A canonical memory reads back what was written. -/
theorem Memory.get_insert_same {lo : Nat} {m : List Host.Cell} (h : Memory.wfFrom lo m = true)
    (a : Nat) (b : Byte) : Memory.get (Memory.insert m a b) a = b := by
  induction m generalizing lo with
  | nil => simp only [Memory.insert]; split <;> simp_all [Memory.get]
  | cons c m ih =>
    obtain ⟨k, d⟩ := c
    have h' := h
    simp only [Memory.wfFrom, Bool.and_eq_true, decide_eq_true_eq] at h
    simp only [Memory.insert]
    split
    · next hk =>
      split
      · next hb =>
        have : a ≠ k := by omega
        simp only [Memory.get, if_neg this, hb]
        exact Memory.get_below h.2 (by omega)
      · simp [Memory.get]
    · split
      · next hk =>
        subst hk
        split
        · next hb => rw [hb]; exact Memory.get_below h.2 (by omega)
        · simp [Memory.get]
      · next hk => simp only [Memory.get, if_neg hk]; exact ih h.2

/-- A canonical memory above a bound is canonical above a lower one. -/
theorem Memory.wfFrom_mono {lo lo' : Nat} {m : List Host.Cell} (h : Memory.wfFrom lo m = true)
    (hl : lo' ≤ lo) : Memory.wfFrom lo' m = true := by
  cases m with
  | nil => rfl
  | cons c m =>
    simp only [Memory.wfFrom, Bool.and_eq_true, decide_eq_true_eq] at h ⊢
    exact ⟨⟨⟨by omega, h.1.1.2⟩, h.1.2⟩, h.2⟩

/-- A write within the memory keeps the canonical form. -/
theorem Memory.insert_wfFrom {lo : Nat} {m : List Host.Cell} (h : Memory.wfFrom lo m = true)
    {a : Nat} (hl : lo ≤ a) (ha : a < memEnd) (b : Byte) :
    Memory.wfFrom lo (Memory.insert m a b) = true := by
  induction m generalizing lo with
  | nil => simp only [Memory.insert]; split <;> simp_all [Memory.wfFrom]
  | cons c m ih =>
    obtain ⟨k, d⟩ := c
    have h' := h
    simp only [Memory.wfFrom, Bool.and_eq_true, decide_eq_true_eq, bne_iff_ne, ne_eq] at h
    simp only [Memory.insert]
    split
    · split
      · exact h'
      · next hk hb =>
        simp only [Memory.wfFrom, Bool.and_eq_true, decide_eq_true_eq, bne_iff_ne, ne_eq]
        exact ⟨⟨⟨hl, ha⟩, hb⟩, ⟨⟨by omega, h.1.1.2⟩, h.1.2⟩, h.2⟩
    · split
      · next hk =>
        subst hk
        split
        · exact Memory.wfFrom_mono h.2 (by omega)
        · next hb =>
          simp only [Memory.wfFrom, Bool.and_eq_true, decide_eq_true_eq, bne_iff_ne, ne_eq]
          exact ⟨⟨⟨hl, ha⟩, hb⟩, h.2⟩
      · simp only [Memory.wfFrom, Bool.and_eq_true, decide_eq_true_eq, bne_iff_ne, ne_eq]
        exact ⟨h.1, ih h.2 (by omega)⟩

/-- Every write of one byte keeps the canonical form. -/
theorem Memory.put_wf {m : List Host.Cell} (h : Memory.wf m = true) (a : Nat) (b : Byte) :
    Memory.wf (Memory.put m a b) = true := by
  unfold Memory.put
  split
  · exact Memory.insert_wfFrom h (Nat.zero_le a) ‹_› b
  · exact h

/-- Every write of consecutive bytes keeps the canonical form. -/
theorem Memory.putAll_wf {m : List Host.Cell} (h : Memory.wf m = true) (a : Nat) (bs : List Byte) :
    Memory.wf (Memory.putAll m a bs) = true := by
  induction bs generalizing m a with
  | nil => exact h
  | cons b bs ih => exact ih (Memory.put_wf h a b) (a + 1)

/-- A byte elsewhere reads as before. -/
theorem Memory.get_put_other (m : List Host.Cell) {a x : Nat} (b : Byte) (h : x ≠ a) :
    Memory.get (Memory.put m a b) x = Memory.get m x := by
  unfold Memory.put
  split
  · exact Memory.get_insert_other m b h
  · rfl

/-- A byte within the memory reads back. -/
theorem Memory.get_put_same {m : List Host.Cell} (h : Memory.wf m = true) {a : Nat}
    (ha : a < memEnd) (b : Byte) : Memory.get (Memory.put m a b) a = b := by
  rw [Memory.put, if_pos ha]
  exact Memory.get_insert_same h a b

/-- Bytes outside the written run read as before. -/
theorem Memory.get_putAll_out (m : List Host.Cell) (a : Nat) (bs : List Byte) {x : Nat}
    (h : x < a ∨ a + bs.length ≤ x) : Memory.get (Memory.putAll m a bs) x = Memory.get m x := by
  induction bs generalizing m a with
  | nil => rfl
  | cons b bs ih =>
    simp only [List.length_cons] at h
    rw [Memory.putAll, ih (Memory.put m a b) (a + 1) (by omega),
      Memory.get_put_other m b (by omega)]

/-- Bytes inside the written run read back. -/
theorem Memory.get_putAll_in {m : List Host.Cell} (hm : Memory.wf m = true) (a : Nat)
    (bs : List Byte) (he : a + bs.length ≤ memEnd) (i : Nat) (hi : i < bs.length) :
    Memory.get (Memory.putAll m a bs) (a + i) = bs[i] := by
  induction bs generalizing m a i with
  | nil => exact absurd hi (Nat.not_lt_zero i)
  | cons b bs ih =>
    simp only [List.length_cons] at he hi
    rw [Memory.putAll]
    cases i with
    | zero =>
      rw [Memory.get_putAll_out _ _ _ (Or.inl (by omega))]
      exact Memory.get_put_same hm (by omega) b
    | succ i =>
      have h := ih (Memory.put_wf hm a b) (a + 1) (by omega) i (by omega)
      rw [show a + (i + 1) = a + 1 + i by omega, h]
      rfl

/-- The two bytes of a half-word, joined. -/
theorem halfBytes_join (h : Half) : h.extractLsb' 8 8 ++ h.extractLsb' 0 8 = h := by
  apply BitVec.eq_of_getLsbD_eq
  intro i hi
  simp only [BitVec.getLsbD_append, BitVec.getLsbD_extractLsb']
  by_cases h8 : i < 8
  · simp [h8]
  · simp [h8, show i - 8 < 8 by omega, show 8 + (i - 8) = i by omega]

/-- The four bytes of a word, joined. -/
theorem wordBytes_join (w : Word) :
    (w.extractLsb' 24 8 ++ w.extractLsb' 16 8) ++ (w.extractLsb' 8 8 ++ w.extractLsb' 0 8) = w := by
  apply BitVec.eq_of_getLsbD_eq
  intro i hi
  simp only [BitVec.getLsbD_append, BitVec.getLsbD_extractLsb']
  by_cases h8 : i < 8
  · simp [h8, show i < 16 by omega]
  · by_cases h16 : i < 16
    · simp [h8, h16, show i - 8 < 8 by omega, show 8 + (i - 8) = i by omega]
    · by_cases h24 : i < 24
      · simp [h16, show i - 16 < 8 by omega, show 16 + (i - 16) = i by omega]
      · simp [h16, show ¬ i - 16 < 8 by omega, show i - 16 - 8 < 8 by omega,
          show 24 + (i - 16 - 8) = i by omega]

/-- A half-word reads back from its two bytes. -/
theorem Memory.half_putAll {m : List Host.Cell} (hm : Memory.wf m = true) (a : Nat) (h : Half)
    (he : a + 2 ≤ memEnd) : Memory.half (Memory.putAll m a (halfBytes h)) a = h := by
  have h0 := Memory.get_putAll_in hm a (halfBytes h) (by simpa [halfBytes] using he) 0
    (by simp [halfBytes])
  have h1 := Memory.get_putAll_in hm a (halfBytes h) (by simpa [halfBytes] using he) 1
    (by simp [halfBytes])
  simp only [Nat.add_zero] at h0
  rw [Memory.half, h0, h1]
  exact halfBytes_join h

/-- A word reads back from its four bytes. -/
theorem Memory.word_putAll {m : List Host.Cell} (hm : Memory.wf m = true) (a : Nat) (w : Word)
    (he : a + 4 ≤ memEnd) : Memory.word (Memory.putAll m a (wordBytes w)) a = w := by
  have g := fun i hi => Memory.get_putAll_in hm a (wordBytes w) (by simpa [wordBytes] using he) i hi
  have h0 := g 0 (by simp [wordBytes])
  have h1 := g 1 (by simp [wordBytes])
  have h2 := g 2 (by simp [wordBytes])
  have h3 := g 3 (by simp [wordBytes])
  simp only [Nat.add_zero] at h0
  rw [Memory.word, Memory.half, Memory.half, h0, h1, h2, show a + 2 + 1 = a + 3 by omega, h3]
  exact wordBytes_join w

/-- The state's memory after a write keeps its canonical form. -/
theorem putBytes_wf {s : State} (h : Memory.wf s.mem = true) (a : Nat) (bs : List Byte) :
    Memory.wf (putBytes a bs s).mem = true := Memory.putAll_wf h a bs

/-- The memory after power-on reset is canonical. -/
theorem reset_mem_wf : Memory.wf State.reset.mem = true := rfl

end Sys2Proof.Machine
end

