-- ==== Sys2Proof/Laws/State.lean ====
section
/-! SUPPORT. The updates of the state, field by field: what each writes and, inside the part it
writes, what it leaves. All are true by unfolding; the parts an update never touches are in
Laws/Frames.lean. -/

set_option linter.unusedTactic false

namespace Sys2Proof.Machine

@[simp] theorem putBytes_mem (a : Nat) (bs : List Byte) (s : State) :
    (putBytes a bs s).mem = Memory.putAll s.mem a bs := rfl

@[simp] theorem send_sent (m : Message) (s : State) : (send m s).sent = s.sent ++ [m] := rfl

@[simp] theorem draw_drawn (s : State) : (draw s).drawn = s.drawn + 1 := rfl

@[simp] theorem clearSent_sent (s : State) : (clearSent s).sent = [] := rfl

@[simp] theorem claimTicket_mem (n : Nat) (s : State) :
    (claimTicket n s).mem = Memory.putAll s.mem (ticketBase n) [2] := rfl

@[simp] theorem raiseCause_host_causes (c : Cause) (s : State) :
    (raiseCause c s).host.causes = s.host.causes ||| (1#6 <<< c.bit) := rfl

@[simp] theorem raiseCause_host_keeps (c : Cause) (s : State) :
    (raiseCause c s).host.startStatus = s.host.startStatus ∧
    (raiseCause c s).host.guardAddress = s.host.guardAddress ∧
    (raiseCause c s).host.clock = s.host.clock ∧
    (raiseCause c s).host.written = s.host.written ∧
    (raiseCause c s).host.mask = s.host.mask ∧
    (raiseCause c s).host.nipName = s.host.nipName := by
  and_intros <;> rfl

@[simp] theorem countNotice_host_written (s : State) :
    (countNotice s).host.written = s.host.written + 1 := rfl

@[simp] theorem countNotice_host_keeps (s : State) :
    (countNotice s).host.startStatus = s.host.startStatus ∧
    (countNotice s).host.guardAddress = s.host.guardAddress ∧
    (countNotice s).host.clock = s.host.clock ∧
    (countNotice s).host.causes = s.host.causes ∧
    (countNotice s).host.mask = s.host.mask ∧
    (countNotice s).host.nipName = s.host.nipName := by
  and_intros <;> rfl

@[simp] theorem setAlarm_line_alarms (a : Alarm) (r : AlarmRec) (s : State) :
    (setAlarm a r s).line.alarms = s.line.alarms.set a.idx r := rfl

@[simp] theorem setAlarm_line_keeps (a : Alarm) (r : AlarmRec) (s : State) :
    (setAlarm a r s).line.state = s.line.state ∧
    (setAlarm a r s).line.heat = s.line.heat ∧
    (setAlarm a r s).line.threadHeat = s.line.threadHeat ∧
    (setAlarm a r s).line.jog = s.line.jog ∧
    (setAlarm a r s).line.auth = s.line.auth ∧
    (setAlarm a r s).line.speedClass = s.line.speedClass ∧
    (setAlarm a r s).line.classLock = s.line.classLock ∧
    (setAlarm a r s).line.fabric = s.line.fabric ∧
    (setAlarm a r s).line.marks = s.line.marks ∧
    (setAlarm a r s).line.lockedAt = s.line.lockedAt ∧
    (setAlarm a r s).line.pendant = s.line.pendant ∧
    (setAlarm a r s).line.pendantAt = s.line.pendantAt ∧
    (setAlarm a r s).line.link = s.line.link ∧
    (setAlarm a r s).line.linkWatch = s.line.linkWatch ∧
    (setAlarm a r s).line.drive = s.line.drive ∧
    (setAlarm a r s).line.chainOpen = s.line.chainOpen := by
  and_intros <;> rfl

@[simp] theorem lightLocked_line_lockedAt (s : State) :
    (lightLocked s).line.lockedAt = some s.host.clock := rfl

@[simp] theorem lightLocked_line_keeps (s : State) :
    (lightLocked s).line.state = s.line.state ∧
    (lightLocked s).line.heat = s.line.heat ∧
    (lightLocked s).line.threadHeat = s.line.threadHeat ∧
    (lightLocked s).line.jog = s.line.jog ∧
    (lightLocked s).line.auth = s.line.auth ∧
    (lightLocked s).line.speedClass = s.line.speedClass ∧
    (lightLocked s).line.classLock = s.line.classLock ∧
    (lightLocked s).line.fabric = s.line.fabric ∧
    (lightLocked s).line.marks = s.line.marks ∧
    (lightLocked s).line.alarms = s.line.alarms ∧
    (lightLocked s).line.pendant = s.line.pendant ∧
    (lightLocked s).line.pendantAt = s.line.pendantAt ∧
    (lightLocked s).line.link = s.line.link ∧
    (lightLocked s).line.linkWatch = s.line.linkWatch ∧
    (lightLocked s).line.drive = s.line.drive ∧
    (lightLocked s).line.chainOpen = s.line.chainOpen := by
  and_intros <;> rfl

@[simp] theorem setLineState_line_state (n : LineState) (s : State) :
    (setLineState n s).line.state = n := rfl

@[simp] theorem setLineState_line_heat (n : LineState) (s : State) :
    (setLineState n s).line.heat = heatOf n s.line.heat := rfl

@[simp] theorem setLineState_line_threadHeat (n : LineState) (s : State) :
    (setLineState n s).line.threadHeat = if n = .thread then s.line.heat else s.line.threadHeat := rfl

@[simp] theorem setLineState_line_jog (n : LineState) (s : State) :
    (setLineState n s).line.jog = jogOf n s.line.jog := rfl

@[simp] theorem setLineState_line_keeps (n : LineState) (s : State) :
    (setLineState n s).line.auth = s.line.auth ∧
    (setLineState n s).line.speedClass = s.line.speedClass ∧
    (setLineState n s).line.classLock = s.line.classLock ∧
    (setLineState n s).line.fabric = s.line.fabric ∧
    (setLineState n s).line.marks = s.line.marks ∧
    (setLineState n s).line.alarms = s.line.alarms ∧
    (setLineState n s).line.lockedAt = s.line.lockedAt ∧
    (setLineState n s).line.pendant = s.line.pendant ∧
    (setLineState n s).line.pendantAt = s.line.pendantAt ∧
    (setLineState n s).line.link = s.line.link ∧
    (setLineState n s).line.linkWatch = s.line.linkWatch ∧
    (setLineState n s).line.drive = s.line.drive ∧
    (setLineState n s).line.chainOpen = s.line.chainOpen := by
  and_intros <;> rfl

@[simp] theorem updSlot_lib_slots (i : Fin 16) (f : Slot → Slot) (s : State) :
    (updSlot i f s).lib.slots = s.lib.slots.set i (f s.lib.slots[i]) := rfl

@[simp] theorem updSlot_lib_keeps (i : Fin 16) (f : Slot → Slot) (s : State) :
    (updSlot i f s).lib.lock = s.lib.lock := rfl

@[simp] theorem mapPanels_ord_panels (f : Panel → Panel) (s : State) :
    (mapPanels f s).ord.panels = s.ord.panels.map f := rfl

@[simp] theorem mapPanels_ord_keeps (f : Panel → Panel) (s : State) :
    (mapPanels f s).ord.orders = s.ord.orders ∧
    (mapPanels f s).ord.entries = s.ord.entries ∧
    (mapPanels f s).ord.counter = s.ord.counter ∧
    (mapPanels f s).ord.engine = s.ord.engine ∧
    (mapPanels f s).ord.endMark = s.ord.endMark := by
  and_intros <;> rfl

@[simp] theorem updPanel_ord_panels (n : Half) (f : Panel → Panel) (s : State) :
    (updPanel n f s).ord.panels = s.ord.panels.map fun p => if p.number = n then f p else p := rfl

@[simp] theorem updPanel_ord_keeps (n : Half) (f : Panel → Panel) (s : State) :
    (updPanel n f s).ord.orders = s.ord.orders ∧
    (updPanel n f s).ord.entries = s.ord.entries ∧
    (updPanel n f s).ord.counter = s.ord.counter ∧
    (updPanel n f s).ord.engine = s.ord.engine ∧
    (updPanel n f s).ord.endMark = s.ord.endMark := by
  and_intros <;> rfl

@[simp] theorem updOrder_ord_orders (n : Nat) (f : OpenOrder → OpenOrder) (s : State) :
    (updOrder n f s).ord.orders = s.ord.orders.map fun o => if o.ticket = n then f o else o := rfl

@[simp] theorem updOrder_ord_keeps (n : Nat) (f : OpenOrder → OpenOrder) (s : State) :
    (updOrder n f s).ord.entries = s.ord.entries ∧
    (updOrder n f s).ord.panels = s.ord.panels ∧
    (updOrder n f s).ord.counter = s.ord.counter ∧
    (updOrder n f s).ord.engine = s.ord.engine ∧
    (updOrder n f s).ord.endMark = s.ord.endMark := by
  and_intros <;> rfl

@[simp] theorem removeOrder_ord_orders (n : Nat) (s : State) :
    (removeOrder n s).ord.orders = s.ord.orders.filter fun o => o.ticket != n := rfl

@[simp] theorem removeOrder_ord_keeps (n : Nat) (s : State) :
    (removeOrder n s).ord.entries = s.ord.entries ∧
    (removeOrder n s).ord.panels = s.ord.panels ∧
    (removeOrder n s).ord.counter = s.ord.counter ∧
    (removeOrder n s).ord.engine = s.ord.engine ∧
    (removeOrder n s).ord.endMark = s.ord.endMark := by
  and_intros <;> rfl

@[simp] theorem setEntries_ord_entries (es : List Entry) (s : State) :
    (setEntries es s).ord.entries = es := rfl

@[simp] theorem setEntries_ord_keeps (es : List Entry) (s : State) :
    (setEntries es s).ord.orders = s.ord.orders ∧
    (setEntries es s).ord.panels = s.ord.panels ∧
    (setEntries es s).ord.counter = s.ord.counter ∧
    (setEntries es s).ord.engine = s.ord.engine ∧
    (setEntries es s).ord.endMark = s.ord.endMark := by
  and_intros <;> rfl

@[simp] theorem setEndMark_ord_endMark (m : Option Word) (s : State) :
    (setEndMark m s).ord.endMark = m := rfl

@[simp] theorem setEndMark_ord_keeps (m : Option Word) (s : State) :
    (setEndMark m s).ord.orders = s.ord.orders ∧
    (setEndMark m s).ord.entries = s.ord.entries ∧
    (setEndMark m s).ord.panels = s.ord.panels ∧
    (setEndMark m s).ord.counter = s.ord.counter ∧
    (setEndMark m s).ord.engine = s.ord.engine := by
  and_intros <;> rfl

@[simp] theorem setZones_heat_zones (zs : Vector Zone 8) (s : State) :
    (setZones zs s).heat.zones = zs := rfl

@[simp] theorem setZones_heat_keeps (zs : Vector Zone 8) (s : State) :
    (setZones zs s).heat.scan = s.heat.scan ∧
    (setZones zs s).heat.shadow = s.heat.shadow ∧
    (setZones zs s).heat.pass = s.heat.pass ∧
    (setZones zs s).heat.readings = s.heat.readings ∧
    (setZones zs s).heat.base = s.heat.base ∧
    (setZones zs s).heat.offsets = s.heat.offsets ∧
    (setZones zs s).heat.kp = s.heat.kp ∧
    (setZones zs s).heat.ki = s.heat.ki := by
  and_intros <;> rfl

@[simp] theorem setSpeed_dose_sCmd (v : Nat) (s : State) :
    (setSpeed v s).dose.sCmd = v := rfl

@[simp] theorem setSpeed_dose_keeps (v : Nat) (s : State) :
    (setSpeed v s).dose.cells = s.dose.cells ∧
    (setSpeed v s).dose.wrap = s.dose.wrap ∧
    (setSpeed v s).dose.command = s.dose.command ∧
    (setSpeed v s).dose.watch = s.dose.watch ∧
    (setSpeed v s).dose.sTarget = s.dose.sTarget ∧
    (setSpeed v s).dose.governing = s.dose.governing := by
  and_intros <;> rfl

@[simp] theorem setCells_dose_cells (cs : List WrapCell) (s : State) :
    (setCells cs s).dose.cells = cs := rfl

@[simp] theorem setCells_dose_keeps (cs : List WrapCell) (s : State) :
    (setCells cs s).dose.wrap = s.dose.wrap ∧
    (setCells cs s).dose.command = s.dose.command ∧
    (setCells cs s).dose.watch = s.dose.watch ∧
    (setCells cs s).dose.sTarget = s.dose.sTarget ∧
    (setCells cs s).dose.governing = s.dose.governing ∧
    (setCells cs s).dose.sCmd = s.dose.sCmd := by
  and_intros <;> rfl

@[simp] theorem updTension_tens_zones (z : Fin 4) (f : TensionZone → TensionZone) (s : State) :
    (updTension z f s).tens.zones = s.tens.zones.set z (f s.tens.zones[z]) := rfl

@[simp] theorem updTension_tens_keeps (z : Fin 4) (f : TensionZone → TensionZone) (s : State) :
    (updTension z f s).tens.nip = s.tens.nip ∧
    (updTension z f s).tens.heldFabric = s.tens.heldFabric ∧
    (updTension z f s).tens.heldPaper = s.tens.heldPaper := by
  and_intros <;> rfl

@[simp] theorem mapTension_tens_zones (f : TensionZone → TensionZone) (s : State) :
    (mapTension f s).tens.zones = s.tens.zones.map f := rfl

@[simp] theorem mapTension_tens_keeps (f : TensionZone → TensionZone) (s : State) :
    (mapTension f s).tens.nip = s.tens.nip ∧
    (mapTension f s).tens.heldFabric = s.tens.heldFabric ∧
    (mapTension f s).tens.heldPaper = s.tens.heldPaper := by
  and_intros <;> rfl

@[simp] theorem updChannel_trig_channels (c : Fin 12) (f : Channel → Channel) (s : State) :
    (updChannel c f s).trig.channels = s.trig.channels.set c (f s.trig.channels[c]) := rfl

@[simp] theorem updChannel_trig_keeps (c : Fin 12) (f : Channel → Channel) (s : State) :
    (updChannel c f s).trig.latches = s.trig.latches ∧
    (updChannel c f s).trig.cuts = s.trig.cuts := by
  and_intros <;> rfl

@[simp] theorem setLatches_trig_latches (ls : Vector Latch 8) (s : State) :
    (setLatches ls s).trig.latches = ls := rfl

@[simp] theorem setLatches_trig_keeps (ls : Vector Latch 8) (s : State) :
    (setLatches ls s).trig.channels = s.trig.channels ∧
    (setLatches ls s).trig.cuts = s.trig.cuts := by
  and_intros <;> rfl

@[simp] theorem setCuts_trig_cuts (cs : List Word) (s : State) :
    (setCuts cs s).trig.cuts = cs := rfl

@[simp] theorem setCuts_trig_keeps (cs : List Word) (s : State) :
    (setCuts cs s).trig.channels = s.trig.channels ∧
    (setCuts cs s).trig.latches = s.trig.latches := by
  and_intros <;> rfl

@[simp] theorem setQueue_reg_queue (q : List Piece) (s : State) :
    (setQueue q s).reg.queue = q := rfl

@[simp] theorem setQueue_reg_keeps (q : List Piece) (s : State) :
    (setQueue q s).reg.list = s.reg.list ∧
    (setQueue q s).reg.target = s.reg.target ∧
    (setQueue q s).reg.position = s.reg.position ∧
    (setQueue q s).reg.measured = s.reg.measured ∧
    (setQueue q s).reg.home = s.reg.home ∧
    (setQueue q s).reg.limited = s.reg.limited := by
  and_intros <;> rfl

@[simp] theorem setList_reg_list (l : List Half) (s : State) :
    (setList l s).reg.list = l := rfl

@[simp] theorem setList_reg_keeps (l : List Half) (s : State) :
    (setList l s).reg.queue = s.reg.queue ∧
    (setList l s).reg.target = s.reg.target ∧
    (setList l s).reg.position = s.reg.position ∧
    (setList l s).reg.measured = s.reg.measured ∧
    (setList l s).reg.home = s.reg.home ∧
    (setList l s).reg.limited = s.reg.limited := by
  and_intros <;> rfl

@[simp] theorem setSplices_pos_splices (l : List Splice) (s : State) :
    (setSplices l s).pos.splices = l := rfl

@[simp] theorem setSplices_pos_keeps (l : List Splice) (s : State) :
    (setSplices l s).pos.x = s.pos.x ∧
    (setSplices l s).pos.phase = s.pos.phase ∧
    (setSplices l s).pos.s = s.pos.s ∧
    (setSplices l s).pos.u = s.pos.u := by
  and_intros <;> rfl

@[simp] theorem waitWalker_walker_state (k : WaitKind) (n : Nat) (s : State) :
    (waitWalker k n s).walker.state = .waiting := rfl

@[simp] theorem waitWalker_walker_wait (k : WaitKind) (n : Nat) (s : State) :
    (waitWalker k n s).walker.wait = k := rfl

@[simp] theorem waitWalker_walker_look (k : WaitKind) (n : Nat) (s : State) :
    (waitWalker k n s).walker.look = n := rfl

@[simp] theorem waitWalker_walker_keeps (k : WaitKind) (n : Nat) (s : State) :
    (waitWalker k n s).walker.fromTicket = s.walker.fromTicket ∧
    (waitWalker k n s).walker.expected = s.walker.expected ∧
    (waitWalker k n s).walker.outstanding = s.walker.outstanding ∧
    (waitWalker k n s).walker.chain = s.walker.chain ∧
    (waitWalker k n s).walker.stall = s.walker.stall ∧
    (waitWalker k n s).walker.retireSlot = s.walker.retireSlot ∧
    (waitWalker k n s).walker.retireSeq = s.walker.retireSeq := by
  and_intros <;> rfl

@[simp] theorem runWalker_walker_state (n : Nat) (s : State) :
    (runWalker n s).walker.state = .running := rfl

@[simp] theorem runWalker_walker_look (n : Nat) (s : State) :
    (runWalker n s).walker.look = n := rfl

@[simp] theorem runWalker_walker_keeps (n : Nat) (s : State) :
    (runWalker n s).walker.fromTicket = s.walker.fromTicket ∧
    (runWalker n s).walker.wait = s.walker.wait ∧
    (runWalker n s).walker.expected = s.walker.expected ∧
    (runWalker n s).walker.outstanding = s.walker.outstanding ∧
    (runWalker n s).walker.chain = s.walker.chain ∧
    (runWalker n s).walker.stall = s.walker.stall ∧
    (runWalker n s).walker.retireSlot = s.walker.retireSlot ∧
    (runWalker n s).walker.retireSeq = s.walker.retireSeq := by
  and_intros <;> rfl

@[simp] theorem markFollowed_walker_chain (n : Nat) (s : State) :
    (markFollowed n s).walker.chain = s.walker.chain.map fun e => if e.slot = n then { e with followed := true } else e := rfl

@[simp] theorem markFollowed_walker_keeps (n : Nat) (s : State) :
    (markFollowed n s).walker.state = s.walker.state ∧
    (markFollowed n s).walker.look = s.walker.look ∧
    (markFollowed n s).walker.fromTicket = s.walker.fromTicket ∧
    (markFollowed n s).walker.wait = s.walker.wait ∧
    (markFollowed n s).walker.expected = s.walker.expected ∧
    (markFollowed n s).walker.outstanding = s.walker.outstanding ∧
    (markFollowed n s).walker.stall = s.walker.stall ∧
    (markFollowed n s).walker.retireSlot = s.walker.retireSlot ∧
    (markFollowed n s).walker.retireSeq = s.walker.retireSeq := by
  and_intros <;> rfl

@[simp] theorem lowerCount_walker_outstanding (s : State) :
    (lowerCount s).walker.outstanding = s.walker.outstanding - 1 := rfl

@[simp] theorem lowerCount_walker_keeps (s : State) :
    (lowerCount s).walker.state = s.walker.state ∧
    (lowerCount s).walker.look = s.walker.look ∧
    (lowerCount s).walker.fromTicket = s.walker.fromTicket ∧
    (lowerCount s).walker.wait = s.walker.wait ∧
    (lowerCount s).walker.expected = s.walker.expected ∧
    (lowerCount s).walker.chain = s.walker.chain ∧
    (lowerCount s).walker.stall = s.walker.stall ∧
    (lowerCount s).walker.retireSlot = s.walker.retireSlot ∧
    (lowerCount s).walker.retireSeq = s.walker.retireSeq := by
  and_intros <;> rfl

@[simp] theorem raiseCount_walker_outstanding (s : State) :
    (raiseCount s).walker.outstanding = s.walker.outstanding + 1 := rfl

@[simp] theorem raiseCount_walker_keeps (s : State) :
    (raiseCount s).walker.state = s.walker.state ∧
    (raiseCount s).walker.look = s.walker.look ∧
    (raiseCount s).walker.fromTicket = s.walker.fromTicket ∧
    (raiseCount s).walker.wait = s.walker.wait ∧
    (raiseCount s).walker.expected = s.walker.expected ∧
    (raiseCount s).walker.chain = s.walker.chain ∧
    (raiseCount s).walker.stall = s.walker.stall ∧
    (raiseCount s).walker.retireSlot = s.walker.retireSlot ∧
    (raiseCount s).walker.retireSeq = s.walker.retireSeq := by
  and_intros <;> rfl

@[simp] theorem clearCauses_host_causes (b : Word) (s : State) :
    (clearCauses b s).host.causes = s.host.causes &&& ~~~(b.setWidth 6) := rfl

@[simp] theorem clearCauses_host_keeps (b : Word) (s : State) :
    (clearCauses b s).host.startStatus = s.host.startStatus ∧
    (clearCauses b s).host.guardAddress = s.host.guardAddress ∧
    (clearCauses b s).host.clock = s.host.clock ∧
    (clearCauses b s).host.written = s.host.written ∧
    (clearCauses b s).host.mask = s.host.mask ∧
    (clearCauses b s).host.nipName = s.host.nipName := by
  and_intros <;> rfl

@[simp] theorem setMask_host_mask (b : Word) (s : State) :
    (setMask b s).host.mask = b.setWidth 6 := rfl

@[simp] theorem setMask_host_keeps (b : Word) (s : State) :
    (setMask b s).host.startStatus = s.host.startStatus ∧
    (setMask b s).host.guardAddress = s.host.guardAddress ∧
    (setMask b s).host.clock = s.host.clock ∧
    (setMask b s).host.written = s.host.written ∧
    (setMask b s).host.causes = s.host.causes ∧
    (setMask b s).host.nipName = s.host.nipName := by
  and_intros <;> rfl

@[simp] theorem tickClock_host_clock (s : State) :
    (tickClock s).host.clock = s.host.clock + 1 := rfl

@[simp] theorem tickClock_host_keeps (s : State) :
    (tickClock s).host.startStatus = s.host.startStatus ∧
    (tickClock s).host.guardAddress = s.host.guardAddress ∧
    (tickClock s).host.written = s.host.written ∧
    (tickClock s).host.causes = s.host.causes ∧
    (tickClock s).host.mask = s.host.mask ∧
    (tickClock s).host.nipName = s.host.nipName := by
  and_intros <;> rfl

@[simp] theorem claimTicket_walker_chain (n : Nat) (s : State) :
    (claimTicket n s).walker.chain = s.walker.chain ++ [{ slot := n, followed := false }] := rfl

@[simp] theorem claimTicket_walker_expected (n : Nat) (s : State) :
    (claimTicket n s).walker.expected = s.walker.expected + 1 := rfl

@[simp] theorem claimTicket_walker_fromTicket (n : Nat) (s : State) :
    (claimTicket n s).walker.fromTicket = some n := rfl

@[simp] theorem claimTicket_walker_keeps (n : Nat) (s : State) :
    (claimTicket n s).walker.state = s.walker.state ∧
    (claimTicket n s).walker.look = s.walker.look ∧
    (claimTicket n s).walker.wait = s.walker.wait ∧
    (claimTicket n s).walker.outstanding = s.walker.outstanding ∧
    (claimTicket n s).walker.stall = s.walker.stall ∧
    (claimTicket n s).walker.retireSlot = s.walker.retireSlot ∧
    (claimTicket n s).walker.retireSeq = s.walker.retireSeq := by
  and_intros <;> rfl

/-! ## Reads after writes of the vectors -/

@[simp] theorem alarmRec_setAlarm_same (a : Alarm) (r : AlarmRec) (s : State) :
    alarmRec (setAlarm a r s) a = r := by simp [alarmRec]

@[simp] theorem slots_updSlot_same (i : Fin 16) (f : Slot → Slot) (s : State) :
    (updSlot i f s).lib.slots[i] = f s.lib.slots[i] := by simp

@[simp] theorem channels_updChannel_same (c : Fin 12) (f : Channel → Channel) (s : State) :
    (updChannel c f s).trig.channels[c] = f s.trig.channels[c] := by simp

@[simp] theorem zones_updTension_same (z : Fin 4) (f : TensionZone → TensionZone) (s : State) :
    (updTension z f s).tens.zones[z] = f s.tens.zones[z] := by simp

theorem Alarm.idx_injective {a b : Alarm} (h : a.idx = b.idx) : a = b := by
  cases a <;> cases b <;> first | rfl | exact absurd h (by decide)

theorem alarmRec_setAlarm_other {a b : Alarm} (h : a ≠ b) (r : AlarmRec) (s : State) :
    alarmRec (setAlarm a r s) b = alarmRec s b := by
  have hne : a.idx ≠ b.idx := fun e => h (Alarm.idx_injective e)
  have hv : a.idx.val ≠ b.idx.val := fun e => hne (Fin.ext e)
  simp [alarmRec, hv]

theorem slots_updSlot_other {i j : Fin 16} (h : i ≠ j) (f : Slot → Slot) (s : State) :
    (updSlot i f s).lib.slots[j] = s.lib.slots[j] := by
  have hv : i.val ≠ j.val := fun e => h (Fin.ext e)
  simp [hv]

theorem channels_updChannel_other {c d : Fin 12} (h : c ≠ d) (f : Channel → Channel) (s : State) :
    (updChannel c f s).trig.channels[d] = s.trig.channels[d] := by
  have hv : c.val ≠ d.val := fun e => h (Fin.ext e)
  simp [hv]

theorem zones_updTension_other {y z : Fin 4} (h : y ≠ z) (f : TensionZone → TensionZone)
    (s : State) : (updTension y f s).tens.zones[z] = s.tens.zones[z] := by
  have hv : y.val ≠ z.val := fun e => h (Fin.ext e)
  simp [hv]

/-! ## The model's own fields of a channel -/

@[simp] theorem Channel.start_source (ch : Channel) (r : Nat) : (ch.start r).source = ch.source := rfl

@[simp] theorem Channel.start_mode (ch : Channel) (r : Nat) : (ch.start r).mode = ch.mode := rfl

@[simp] theorem Channel.start_reload (ch : Channel) (r : Nat) : (ch.start r).reload = ch.reload := rfl

@[simp] theorem Channel.start_arm (ch : Channel) (r : Nat) : (ch.start r).arm = ch.arm := rfl

@[simp] theorem Channel.start_state (ch : Channel) (r : Nat) : (ch.start r).state = .counting := rfl

@[simp] theorem Channel.start_remaining (ch : Channel) (r : Nat) : (ch.start r).remaining = r := rfl

@[simp] theorem Channel.start_ahead (ch : Channel) (r : Nat) : (ch.start r).ahead = false := rfl

end Sys2Proof.Machine
end

