-- ==== Sys2Proof/Laws/Ops.lean ====
section
/-! SUPPORT. What the shared operations do, once each: notices, ticket finishes, the walker's moving
on, alarm conditions, the change of line state, the re-tests, and how a command is answered. A proof
about a command cites these and does not unfold the operations. -/

namespace Sys2Proof.Machine

/-! ## Fields inside a run of bytes -/

/-- A half-word written within a run of bytes reads back at its place. -/
theorem Memory.half_putAll_at {m : List Host.Cell} (hm : Memory.wf m = true) (a i : Nat)
    (bs : List Byte) (h : Half) (he : a + bs.length ≤ memEnd) (hi : i + 1 < bs.length)
    (h0 : bs[i]? = some (h.extractLsb' 0 8)) (h1 : bs[i + 1]? = some (h.extractLsb' 8 8)) :
    Memory.half (Memory.putAll m a bs) (a + i) = h := by
  have e0 := Memory.get_putAll_in hm a bs he i (by omega)
  have e1 := Memory.get_putAll_in hm a bs he (i + 1) hi
  rw [List.getElem?_eq_getElem (by omega)] at h0 h1
  rw [Memory.half, show a + i + 1 = a + (i + 1) by omega, e0, e1, Option.some.inj h0,
    Option.some.inj h1]
  exact halfBytes_join h

/-- A word written within a run of bytes reads back at its place. -/
theorem Memory.word_putAll_at {m : List Host.Cell} (hm : Memory.wf m = true) (a i : Nat)
    (bs : List Byte) (w : Word) (he : a + bs.length ≤ memEnd) (hi : i + 3 < bs.length)
    (h0 : bs[i]? = some (w.extractLsb' 0 8)) (h1 : bs[i + 1]? = some (w.extractLsb' 8 8))
    (h2 : bs[i + 2]? = some (w.extractLsb' 16 8)) (h3 : bs[i + 3]? = some (w.extractLsb' 24 8)) :
    Memory.word (Memory.putAll m a bs) (a + i) = w := by
  have e0 := Memory.get_putAll_in hm a bs he i (by omega)
  have e1 := Memory.get_putAll_in hm a bs he (i + 1) (by omega)
  have e2 := Memory.get_putAll_in hm a bs he (i + 2) (by omega)
  have e3 := Memory.get_putAll_in hm a bs he (i + 3) (by omega)
  rw [List.getElem?_eq_getElem (by omega)] at h0 h1 h2 h3
  rw [Memory.word, Memory.half, Memory.half, show a + i + 1 = a + (i + 1) by omega,
    show a + i + 2 + 1 = a + (i + 3) by omega, show a + i + 2 = a + (i + 2) by omega, e0, e1, e2, e3,
    Option.some.inj h0, Option.some.inj h1, Option.some.inj h2, Option.some.inj h3]
  exact wordBytes_join w

/-- A field read beyond or before a run of bytes is as before. -/
theorem Memory.half_putAll_out (m : List Host.Cell) (a x : Nat) (bs : List Byte)
    (h : x + 2 ≤ a ∨ a + bs.length ≤ x) :
    Memory.half (Memory.putAll m a bs) x = Memory.half m x := by
  rw [Memory.half, Memory.half, Memory.get_putAll_out m a bs (by omega),
    Memory.get_putAll_out m a bs (by omega)]

/-- A field read beyond or before a run of bytes is as before. -/
theorem Memory.word_putAll_out (m : List Host.Cell) (a x : Nat) (bs : List Byte)
    (h : x + 4 ≤ a ∨ a + bs.length ≤ x) :
    Memory.word (Memory.putAll m a bs) x = Memory.word m x := by
  rw [Memory.word, Memory.word, Memory.half_putAll_out m a x bs (by omega),
    Memory.half_putAll_out m a (x + 2) bs (by omega)]

/-! ## Notices -/

/-- Every notice goes into the log, 0x1000 to 0x3000. -/
theorem noticeAt_in_log (s : State) : 0x1000 ≤ noticeAt s ∧ noticeAt s + 32 ≤ 0x3000 := by
  have := Nat.mod_lt s.host.written.toNat (show 0 < 256 by decide)
  unfold noticeAt
  omega

theorem noticeBytes_length (k : NoticeKind) (d1 d2 d3 : Word) (s : State) :
    (noticeBytes k d1 d2 d3 s).length = 28 := by
  simp [noticeBytes, wordBytes, natHalf, halfBytes]

/-- A notice's own fields of the host unit. -/
theorem writeNotice_host (k : NoticeKind) (d1 d2 d3 : Word) (s : State) :
    (writeNotice k d1 d2 d3 s).host = { s.host with
      written := s.host.written + 1, causes := s.host.causes ||| 2#6 } := rfl

theorem writeNotice_mem (k : NoticeKind) (d1 d2 d3 : Word) (s : State) :
    (writeNotice k d1 d2 d3 s).mem = Memory.putAll s.mem (noticeAt s) (noticeBytes k d1 d2 d3 s) :=
  rfl

/-- A notice keeps the canonical form of memory. -/
theorem writeNotice_wf {s : State} (h : Memory.wf s.mem = true) (k : NoticeKind) (d1 d2 d3 : Word) :
    Memory.wf (writeNotice k d1 d2 d3 s).mem = true := Memory.putAll_wf h _ _

/-- A notice writes in its entry of the log and nowhere else. -/
theorem writeNotice_bytes (k : NoticeKind) (d1 d2 d3 : Word) (s : State) :
    BytesKept (nextNoticeBytes s) s (writeNotice k d1 d2 d3 s) := by
  intro a h
  rw [writeNotice_mem, Memory.get_putAll_out]
  rw [noticeBytes_length]
  unfold nextNoticeBytes at h
  omega

/-- Bit 1, NOTICE, is set after an or with it. -/
theorem or_notice_bit (v : BitVec 6) : (v ||| 2#6).getLsbD 1 = true := by
  simp only [BitVec.getLsbD_or, Bool.or_eq_true]
  exact Or.inr (by decide)

/-- A notice shows its kind, its details, and the line state, X and line clock of the state it is
written in, and raises NOTICE. -/
theorem writeNotice_shown {s : State} (hm : Memory.wf s.mem = true) (k : NoticeKind)
    (d1 d2 d3 : Word) :
    NoticeShown k s.line.state d1 d2 d3 s (writeNotice k d1 d2 d3 s) := by
  have hb := noticeBytes_length k d1 d2 d3 s
  have hl : noticeAt s + (noticeBytes k d1 d2 d3 s).length ≤ memEnd := by
    have := (noticeAt_in_log s).2
    rw [hb]
    unfold memEnd
    omega
  have hw := fun i w a b c d => Memory.word_putAll_at hm (noticeAt s) i _ w hl a b c d
  refine ⟨?_, ?_, ?_, ?_, ?_, ?_, ?_, ?_, ?_⟩
  · exact hw 0 _ (by rw [hb]; omega) rfl rfl rfl rfl
  · exact Memory.half_putAll_at hm (noticeAt s) 4 _ _ hl (by rw [hb]; omega) rfl rfl
  · have := Memory.get_putAll_in hm (noticeAt s) _ hl 6 (by rw [hb]; omega)
    rw [writeNotice_mem, this]
    rfl
  · exact hw 8 _ (by rw [hb]; omega) rfl rfl rfl rfl
  · exact hw 12 _ (by rw [hb]; omega) rfl rfl rfl rfl
  · exact hw 16 _ (by rw [hb]; omega) rfl rfl rfl rfl
  · exact hw 20 _ (by rw [hb]; omega) rfl rfl rfl rfl
  · exact hw 24 _ (by rw [hb]; omega) rfl rfl rfl rfl
  · exact or_notice_bit s.host.causes

/-! ## Ticket finishes -/

/-- Ticket slots 1 to 256 lie in the ticket area. -/
theorem ticketBase_range {n : Nat} (h1 : 1 ≤ n) (h2 : n ≤ 256) :
    0x5000 ≤ ticketBase n ∧ ticketBase n + 256 ≤ memEnd := by
  unfold ticketBase memEnd
  omega

/-- What a finish writes, byte run by byte run. -/
theorem finishTicket_mem (n : Nat) (code : ResultCode) (detail : Word) (s : State) :
    (finishTicket n code detail s).mem =
      Memory.putAll (Memory.putAll (Memory.putAll s.mem (ticketBase n + 0x08) (natHalf code.code))
        (ticketBase n + 0x0C) (wordBytes detail ++ wordBytes s.pos.x ++ wordBytes s.host.clock))
        (ticketBase n) [code.hand] := rfl

theorem finishTicket_wf {s : State} (h : Memory.wf s.mem = true) (n : Nat) (code : ResultCode)
    (detail : Word) : Memory.wf (finishTicket n code detail s).mem = true :=
  Memory.putAll_wf (Memory.putAll_wf (Memory.putAll_wf h _ _) _ _) _ _

/-- A finish raises TICKET and writes no other field of the host unit. -/
theorem finishTicket_host (n : Nat) (code : ResultCode) (detail : Word) (s : State) :
    (finishTicket n code detail s).host = { s.host with causes := s.host.causes ||| 1#6 } := rfl

/-- A finish writes its header bytes and no other byte. -/
theorem finishTicket_bytes (n : Nat) (code : ResultCode) (detail : Word) (s : State) :
    BytesKept (finishBytes n) s (finishTicket n code detail s) := by
  intro a h
  unfold finishBytes at h
  rw [finishTicket_mem, Memory.get_putAll_out, Memory.get_putAll_out, Memory.get_putAll_out]
  · simp [natHalf, halfBytes]
    omega
  · simp [wordBytes]
    omega
  · simp only [List.length_cons, List.length_nil]
    omega

/-- Bit 0, TICKET, is set after an or with it. -/
theorem or_ticket_bit (v : BitVec 6) : (v ||| 1#6).getLsbD 0 = true := by
  simp only [BitVec.getLsbD_or, Bool.or_eq_true]
  exact Or.inr (by decide)

/-- A finished ticket shows its hand, result code, detail and stamps. -/
theorem finishTicket_shows {s : State} (hm : Memory.wf s.mem = true) {n : Nat} (h1 : 1 ≤ n)
    (h2 : n ≤ 256) (code : ResultCode) (detail : Word) :
    TicketShows n code detail s (finishTicket n code detail s) := by
  have hr := (ticketBase_range h1 h2).2
  have m1 := Memory.putAll_wf hm (ticketBase n + 0x08) (natHalf code.code)
  have m2 := Memory.putAll_wf m1 (ticketBase n + 0x0C)
    (wordBytes detail ++ wordBytes s.pos.x ++ wordBytes s.host.clock)
  have hl : ticketBase n + 0x0C +
      (wordBytes detail ++ wordBytes s.pos.x ++ wordBytes s.host.clock).length ≤ memEnd := by
    simp [wordBytes]
    omega
  have hw := fun i w a b c d => Memory.word_putAll_at m1 (ticketBase n + 0x0C) i _ w hl a b c d
  refine ⟨?_, ?_, ?_, ?_, ?_, ?_⟩
  · have := Memory.get_putAll_in m2 (ticketBase n) [code.hand]
      (by simp only [List.length_cons, List.length_nil]; omega) 0 (by simp)
    simp only [handOf, ticketByte, finishTicket_mem, Nat.add_zero] at this ⊢
    exact this
  · rw [ticketHalf, finishTicket_mem, Memory.half_putAll_out _ _ _ _ (by simp only [List.length_cons, List.length_nil]; omega),
      Memory.half_putAll_out _ _ _ _ (by omega)]
    exact Memory.half_putAll hm _ _ (by omega)
  · rw [ticketWord, finishTicket_mem, Memory.word_putAll_out _ _ _ _ (by simp only [List.length_cons, List.length_nil]; omega)]
    exact hw 0 _ (by simp [wordBytes]) rfl rfl rfl rfl
  · rw [ticketWord, finishTicket_mem, Memory.word_putAll_out _ _ _ _ (by simp only [List.length_cons, List.length_nil]; omega)]
    exact hw 4 _ (by simp [wordBytes]) rfl rfl rfl rfl
  · rw [ticketWord, finishTicket_mem, Memory.word_putAll_out _ _ _ _ (by simp only [List.length_cons, List.length_nil]; omega)]
    exact hw 8 _ (by simp [wordBytes]) rfl rfl rfl rfl
  · exact or_ticket_bit s.host.causes

/-- A finish moves no field of the walker but the retire mark and the chain it has passed. -/
theorem finishTicket_walker (n : Nat) (code : ResultCode) (detail : Word) (s : State) :
    ∃ c slot seq, (finishTicket n code detail s).walker =
      { s.walker with chain := c, retireSlot := slot, retireSeq := seq } := ⟨_, _, _, rfl⟩

/-! ## The walker -/

/-- What moving on from a ticket does (R171): it waits at link 0, stalls on a link above 256 or to a
slot of the open chain, and else looks at the linked slot with the retire mark advanced. -/
theorem moveOn_cases {s : State} {f : Nat} (hf : s.walker.fromTicket = some f) :
    (linkOf s f = 0 ∧ moveOn s = waitWalker .link 0 s)
    ∨ (256 < linkOf s f ∧ moveOn s = stallWalker .linkRange (natWord (linkOf s f)) s)
    ∨ (1 ≤ linkOf s f ∧ linkOf s f ≤ 256 ∧ inChain s (linkOf s f) = true
      ∧ moveOn s = stallWalker .linkTaken (natWord (linkOf s f)) s)
    ∨ (1 ≤ linkOf s f ∧ linkOf s f ≤ 256 ∧ inChain s (linkOf s f) = false
      ∧ moveOn s = runWalker (linkOf s f) (retire (markFollowed f s))) := by
  unfold moveOn
  rw [hf]
  by_cases h0 : linkOf s f = 0
  · exact .inl ⟨h0, by simp [h0]⟩
  by_cases h1 : 256 < linkOf s f
  · exact .inr (.inl ⟨h1, by simp [h0, h1]⟩)
  by_cases h2 : inChain s (linkOf s f) = true
  · exact .inr (.inr (.inl ⟨by omega, by omega, h2, by simp [h0, h1, h2]⟩))
  · exact .inr (.inr (.inr ⟨by omega, by omega, by simpa using h2, by simp [h0, h1, h2]⟩))

/-- A walker that stalls stands with its code, the CHAIN cause and its notice (R174). -/
theorem stallWalker_stands {s : State} (hm : Memory.wf s.mem = true) {f : Nat}
    (hf : s.walker.fromTicket.getD 0 = f) (code : StallCode) (off : Word) :
    StalledWith code f off s (stallWalker code off s) := by
  refine ⟨rfl, rfl, ?_, ?_, rfl⟩
  · show ((s.host.causes ||| 4#6) ||| 2#6).getLsbD 2 = true
    simp only [BitVec.getLsbD_or, Bool.or_eq_true]
    exact .inl (.inr (by decide))
  · have h := writeNotice_shown (s := raiseCause .chain
      { s with walker := { s.walker with state := .stalled, stall := code } }) hm .chainStall
      (natWord code.code) (natWord f) off
    subst hf
    exact h

/-- The two answers of a take of one kind (log 2). -/
theorem takeOfKind_cases (kind : Nat) (f : Nat → State → State) (s : State) :
    (takesNow s = true ∧ (kindOf s s.walker.look).toNat = kind ∧ takeOfKind kind f s = takeLook f s)
    ∨ (¬ (takesNow s = true ∧ (kindOf s s.walker.look).toNat = kind)
      ∧ takeOfKind kind f s = s) := by
  unfold takeOfKind
  split
  · exact .inl ⟨‹_ ∧ _›.1, ‹_ ∧ _›.2, rfl⟩
  · exact .inr ⟨‹_›, rfl⟩

/-- What the take of a ticket records before its owner answers (R170, step 1). -/
theorem claimTicket_walker (n : Nat) (s : State) :
    (claimTicket n s).walker = { s.walker with
      chain := s.walker.chain ++ [{ slot := n, followed := false }],
      expected := s.walker.expected + 1,
      fromTicket := some n } := rfl

/-- The take of a ticket writes its hand alone: every field of its body reads as before. -/
theorem claimTicket_body (n at_ : Nat) (s : State) (h : 1 ≤ at_) :
    ticketByte (claimTicket n s) n at_ = ticketByte s n at_
    ∧ ticketHalf (claimTicket n s) n at_ = ticketHalf s n at_
    ∧ ticketWord (claimTicket n s) n at_ = ticketWord s n at_ := by
  refine ⟨?_, ?_, ?_⟩
  · exact Memory.get_putAll_out s.mem (ticketBase n) [2] (.inr (by simp only [List.length_cons, List.length_nil]; omega))
  · exact Memory.half_putAll_out s.mem (ticketBase n) _ [2] (.inr (by simp only [List.length_cons, List.length_nil]; omega))
  · exact Memory.word_putAll_out s.mem (ticketBase n) _ [2] (.inr (by simp only [List.length_cons, List.length_nil]; omega))

/-- What the finish of a long ticket does once its header is written (R167, R173, R175, R176): the count
falls, a FULL walker alone moves on, and the retire mark advances last. -/
theorem finishLong_cases (n : Nat) (code : ResultCode) (detail : Word) (s : State) :
    (s.walker.state ≠ .full
      ∧ finishLong n code detail s = retire (lowerCount (reportFinish n code detail s)))
    ∨ (s.walker.state = .full
      ∧ finishLong n code detail s = retire (moveOn (lowerCount (reportFinish n code detail s)))) := by
  have h : (lowerCount (reportFinish n code detail s)).walker.state = s.walker.state := rfl
  by_cases hf : s.walker.state = .full
  · exact .inr ⟨hf, by simp only [finishLong, resumeFull, h, if_pos hf]⟩
  · exact .inl ⟨hf, by simp only [finishLong, resumeFull, h, if_neg hf]⟩

/-! ## Alarms and the change of line state -/

/-- What a raise does (R5 to R7): nothing while the alarm is latched and active; else its latch, its
notice and its line request. -/
theorem raiseAlarm_cases (a : Alarm) (d1 d2 : Word) (s : State) :
    ((alarmRec s a).latched = true ∧ (alarmRec s a).active = true ∧ raiseAlarm a d1 d2 s = s)
    ∨ (¬ ((alarmRec s a).latched = true ∧ (alarmRec s a).active = true)
      ∧ raiseAlarm a d1 d2 s = applyRequest a
        (writeNotice .alarmRaised (natWord a.number) d1 d2 (setAlarm a ⟨true, true⟩ s))) := by
  unfold raiseAlarm
  by_cases h : ((alarmRec s a).latched && (alarmRec s a).active) = true
  · rw [if_pos h]
    rw [Bool.and_eq_true] at h
    exact .inl ⟨h.1, h.2, rfl⟩
  · rw [if_neg h]
    exact .inr ⟨by rwa [Bool.and_eq_true] at h, rfl⟩

/-- What a line request does (R6, R7). -/
theorem applyRequest_cases (a : Alarm) (s : State) :
    applyRequest a s = s
    ∨ (a.request = .halt ∧ s.line.state ≠ .halt ∧ applyRequest a s = enterState .halt (.request a) s)
    ∨ (a.request = .hold ∧ s.line.state = .run ∧ applyRequest a s = enterState .hold (.request a) s)
    ∨ (a.request = .hold ∧ s.line.state = .ready
      ∧ applyRequest a s = enterState .warm .readiness s) := by
  unfold applyRequest
  cases h : a.request with
  | nothing => exact .inl rfl
  | halt =>
    by_cases h1 : s.line.state = .halt
    · exact .inl (by simp [h1])
    · exact .inr (.inl ⟨rfl, h1, by simp [h1]⟩)
  | hold =>
    by_cases h1 : s.line.state = .run
    · exact .inr (.inr (.inl ⟨rfl, h1, by simp [h1]⟩))
    · by_cases h2 : s.line.state = .ready
      · exact .inr (.inr (.inr ⟨rfl, h2, by simp [h2]⟩))
      · exact .inl (by simp [h1, h2])

/-- The readiness re-test enters READY or WARM, or changes nothing (R3). -/
theorem retest_cases (s : State) :
    retest s = s
    ∨ (s.line.state = .warm ∧ readyTest s = true ∧ retest s = enterState .ready .readiness s)
    ∨ (s.line.state = .ready ∧ readyTest s = false ∧ retest s = enterState .warm .readiness s) := by
  unfold retest
  split
  · rename_i h
    by_cases hr : readyTest s = true
    · exact .inr (.inl ⟨h, hr, by simp [hr]⟩)
    · exact .inl (by simp [hr])
  · rename_i h
    by_cases hr : readyTest s = true
    · exact .inl (by simp [hr])
    · exact .inr (.inr ⟨h, by simpa using hr, by simp [hr]⟩)
  all_goals exact .inl rfl

/-- The run heat re-test enters HOLD or changes nothing (R6). -/
theorem runRetest_cases (s : State) :
    runRetest s = s
    ∨ (s.line.state = .run ∧ runHeatTest s = false ∧ runRetest s = enterState .hold .readiness s) := by
  unfold runRetest
  split
  · rename_i h
    exact .inr ⟨h.1, by simpa using h.2, rfl⟩
  · exact .inl rfl

/-- A print start test starts one print or changes nothing (R63). -/
theorem printTest_cases (s : State) :
    (printReady s = true ∧ printTest s = startPrint s) ∨ (printReady s = false ∧ printTest s = s) := by
  unfold printTest
  split
  · rename_i h
    exact .inl ⟨h, rfl⟩
  · rename_i h
    exact .inr ⟨by simpa using h, rfl⟩

/-- Every operation that answers an entry leaves the controller's own fields but the alarms. -/
theorem endCondition_line (a : Alarm) (s : State) :
    (endCondition a s).line = { s.line with alarms := (endCondition a s).line.alarms } := rfl

/-- The latch of every alarm survives the end of a condition. -/
@[simp] theorem latched_endCondition (a b : Alarm) (s : State) :
    latched (endCondition a s) b = latched s b := by
  unfold latched alarmRec endCondition setAlarm
  by_cases h : b.idx = a.idx
  · simp [h, alarmRec]
  · have h' : ¬ a.idx.val = b.idx.val := fun e => h (Fin.ext e.symm)
    simp [h']

/-- The latches are part of the line unit alone. -/
theorem latched_congr {s t : State} (h : t.line.alarms = s.line.alarms) (a : Alarm) :
    latched t a = latched s a := by
  unfold latched alarmRec
  rw [h]

/-- Between two states the controller's fields are the same but for the active flags of its alarms. -/
def LineButActive (s t : State) : Prop :=
  t.line = { s.line with alarms := t.line.alarms } ∧ ∀ a, latched t a = latched s a

theorem LineButActive.of_eq {s t : State} (h : t.line = s.line) : LineButActive s t :=
  ⟨by rw [h], latched_congr (by rw [h])⟩

theorem LineButActive.trans {s t u : State} (h1 : LineButActive s t) (h2 : LineButActive t u) :
    LineButActive s u := by
  refine ⟨?_, fun a => (h2.2 a).trans (h1.2 a)⟩
  have e := h2.1
  rw [h1.1] at e
  exact e

theorem LineButActive.endCondition (a : Alarm) (s : State) :
    LineButActive s (endCondition a s) := ⟨rfl, fun b => latched_endCondition a b s⟩

theorem heatAnswer_line (had : Bool) (s : State) : LineButActive s (heatAnswer had s) := by
  unfold heatAnswer
  split
  · unfold heatOff
    exact ((LineButActive.of_eq (by simp)).trans (.endCondition _ _)).trans (.endCondition _ _)
      |>.trans (.endCondition _ _)
  · exact .of_eq rfl

theorem storeAnswer_line (new : LineState) (s : State) : LineButActive s (storeAnswer new s) := by
  unfold storeAnswer
  split
  all_goals first
    | exact .of_eq rfl
    | exact (LineButActive.endCondition _ _).trans (.endCondition _ _)

theorem tensionAnswer_line (new : LineState) (s : State) : LineButActive s (tensionAnswer new s) := by
  have hb : ∀ u : State, LineButActive u (endBreak u) := fun u =>
    LineButActive.trans (t := mapTension (fun t => { t with breakCount := 0 }) u) (.of_eq rfl)
      (.endCondition _ _)
  have ha : ∀ u : State, LineButActive u (abortAutos 4 u) := fun u => .of_eq (abortAutos_keeps 4 u).1
  have hc : LineButActive s (coldTargets s) := .of_eq rfl
  cases new
  · exact (hc.trans (hb _)).trans (ha _)
  · exact (hb _).trans (ha _)
  · exact (hb _).trans (ha _)
  · exact ha _
  · exact ha _
  · exact ha _
  · exact (hb _).trans (ha _)

/-- An entry writes the controller's own fields as `setLineState` gives them, and no latch. -/
theorem enterState_line (new : LineState) (cause : LineCause) (s : State) :
    LineButActive (setLineState new s) (enterState new cause s) := by
  have hn : ∀ (u : State) k a b c, LineButActive u (writeNotice k a b c u) := fun u k a b c => .of_eq rfl
  have hc : ∀ u : State, LineButActive u (haltCause new u) := fun u => .of_eq (by simp)
  have hw : ∀ u o, LineButActive u (wrapAnswer o new u) := fun u o => .of_eq (by simp)
  have hs : ∀ u : State, LineButActive u (speedAnswer new u) := fun u => .of_eq (by simp)
  have hp : ∀ u : State, LineButActive u (printTest u) := fun u => .of_eq (by simp)
  exact (((((((hn _ _ _ _ _).trans (hc _)).trans (heatAnswer_line _ _)).trans (hw _ _)).trans
    (hs _)).trans (storeAnswer_line _ _)).trans (tensionAnswer_line _ _)).trans (hp _)

/-- The line state after an entry. -/
@[simp] theorem enterState_state (new : LineState) (cause : LineCause) (s : State) :
    (enterState new cause s).line.state = new := by rw [(enterState_line new cause s).1]; rfl

/-- An entry keeps every latch. -/
@[simp] theorem latched_enterState (new : LineState) (cause : LineCause) (s : State) (a : Alarm) :
    latched (enterState new cause s) a = latched s a := (enterState_line new cause s).2 a

/-! ## How a command is answered -/

/-- The messages of a command: everything but the list of messages is as the effect leaves it. -/
theorem announce_only_sent (frame lamps : Bool) (before after : State) :
    ∃ l, announce frame lamps before after = { after with sent := after.sent ++ l } := by
  unfold announce sendLamps sendFrame send
  refine ⟨(if frame || frameOf after != frameOf before then [.frame (frameOf after)] else [])
    ++ (if lamps || lampSet after != lampSet before then [.lamps (lampSet after)] else []), ?_⟩
  by_cases hf : (frame || frameOf after != frameOf before) = true
  · rw [if_pos hf, if_pos hf]
    have : lampSet { after with sent := after.sent ++ [.frame (frameOf after)] } = lampSet after := rfl
    by_cases hl : (lamps || lampSet after != lampSet before) = true
    · rw [this, if_pos hl, if_pos hl]
      simp
    · rw [this, if_neg hl, if_neg hl]
      simp
  · rw [if_neg hf, if_neg hf]
    by_cases hl : (lamps || lampSet after != lampSet before) = true
    · rw [if_pos hl, if_pos hl]
      simp
    · rw [if_neg hl, if_neg hl]
      simp

/-- A command that changes neither a carried value nor a lamp sends no message of its own. -/
theorem announce_quiet {before after : State} (hf : frameOf after = frameOf before)
    (hl : lampSet after = lampSet before) : announce false false before after = after := by
  simp [announce, sendFrame, sendLamps, hf, hl]

/-- What a plain command answers. -/
theorem answer_next (effect : State → State) (s : State) :
    ∃ l, answer effect s = .next { effect (clearSent s) with
      sent := (effect (clearSent s)).sent ++ l } := by
  obtain ⟨l, h⟩ := announce_only_sent false false s (effect (clearSent s))
  exact ⟨l, by rw [answer, h]⟩

/-- A command without effect answers with the state it met, its messages forgotten. -/
theorem answer_unchanged {effect : State → State} {s : State}
    (h : effect (clearSent s) = clearSent s) : answer effect s = .next { s with sent := [] } := by
  have hq : announce false false s (clearSent s) = clearSent s := announce_quiet rfl rfl
  rw [answer, h, hq]
  rfl

/-! ## The zone regulator -/

/-- The power of a regulated zone lies in 0..1000 (R100, R107). -/
theorem regulatedPower_le (kp ki : Nat) (e integral : Int) :
    regulatedPower kp ki e integral ≤ 1000 := by
  unfold regulatedPower limitNat limit
  split <;> omega

/-- With both gains 0 a regulated zone has power 0 (R102). -/
@[simp] theorem regulatedPower_untuned (e integral : Int) : regulatedPower 0 0 e integral = 0 := rfl

end Sys2Proof.Machine
end

