-- ==== Sys2Proof/Laws/PerInstr.lean ====
section
/-! SUPPORT. What well-formedness means for each command: the check accepts exactly the operands that
the links and the bus can deliver, stated command by command. -/

namespace Sys2Proof.Laws.WellFormedMeans

/-- The operands the outside world can send with a command: a word-aligned offset of a location that
takes the write or ignores it (R163), raw load cell values of 0..32767 (8.1), a panel number of
1..65535 (R59). -/
def Deliverable : Instr → Prop
  | .registerWriteIgnored offset _ _ =>
    offset.toNat % 4 = 0 ∧ ((0x15000 ≤ offset.toNat ∧ offset.toNat < 0x18000) ∨ 0x18010 ≤ offset.toNat)
  | .hostWrite offset _ _ =>
    offset.toNat % 4 = 0 ∧ (offset.toNat < 0x15000 ∨ (0x18000 ≤ offset.toNat ∧ offset.toNat < 0x18010))
  | .printDone panel _ =>
    1 ≤ panel.toNat
  | .tensionSample fabricIn fabricOut paperIn paperOut =>
    ∀ p ∈ [fabricIn, fabricOut, paperIn, paperOut], p.l.toNat ≤ 32767 ∧ p.r.toNat ≤ 32767
  | .powerOnReset | .start | .resetLine | .walkerRestart | .nudge _ | .attnClear _
  | .attnMaskWrite _ | .walkerExamine | .nop | .badKind | .lineCommand | .authority
  | .speedClass | .sectionClear | .fabricLoaded | .profileCommit | .profileOpen | .profileClear
  | .libraryLock | .triggerSet | .triggerGroup | .triggerCorrect | .outputSet | .queuePanels
  | .cancelPanels | .phaseHome | .heatSetpoint | .heatTune | .scanList | .tensionTune
  | .tensionMix | .autoZero | .trimReset | .keyTake | .keyGive | .keyKeep | .keyStop | .keyRun
  | .keyHold | .keyWarm | .keyCold | .keyThread | .keyJogFwd | .keyJogRev | .keyUp _ | .alive
  | .lockedLampExpiry | .pendantSilent | .estopOpen | .estopClose | .statusFrame _ _ _
  | .driveLinkWatchExpiry | .commandFrame | .engineState _ | .reading _ _ _ | .fabricMark _
  | .paperMark _ | .fabricSplice _ | .paperSplice _ | .drumStep _ | .printStep _
  | .storeExitStep _ | .triggerFire _ | .latchPulseEnd _ | .wrapTimeout | .doseInterval
  | .heatInterval | .heaterWindow | .heaterOnEnd _ | .scannerConversion _ | .chainLook
  | .pictureInterval | .lineClock => True

/-- The check accepts a command exactly where its operands can be delivered. -/
def Statement (c : Instr) : Prop := WellFormed c = true ↔ Deliverable c

theorem powerOnReset : Statement (.powerOnReset) := iff_of_true rfl trivial
theorem start : Statement (.start) := iff_of_true rfl trivial
theorem resetLine : Statement (.resetLine) := iff_of_true rfl trivial
theorem walkerRestart : Statement (.walkerRestart) := iff_of_true rfl trivial
theorem nudge (value : Word) : Statement (.nudge value) := iff_of_true rfl trivial
theorem attnClear (bits : Word) : Statement (.attnClear bits) := iff_of_true rfl trivial
theorem attnMaskWrite (bits : Word) : Statement (.attnMaskWrite bits) := iff_of_true rfl trivial
theorem registerWriteIgnored (offset data : Word) (enables : BitVec 4) :
    Statement (.registerWriteIgnored offset data enables) := by
  simp [Statement, Deliverable, WellFormed, wordAligned, ignoredOffset]
theorem hostWrite (offset data : Word) (enables : BitVec 4) :
    Statement (.hostWrite offset data enables) := by
  simp [Statement, Deliverable, WellFormed, wordAligned, ignoredOffset]
  omega
theorem walkerExamine : Statement (.walkerExamine) := iff_of_true rfl trivial
theorem nop : Statement (.nop) := iff_of_true rfl trivial
theorem badKind : Statement (.badKind) := iff_of_true rfl trivial
theorem lineCommand : Statement (.lineCommand) := iff_of_true rfl trivial
theorem authority : Statement (.authority) := iff_of_true rfl trivial
theorem speedClass : Statement (.speedClass) := iff_of_true rfl trivial
theorem sectionClear : Statement (.sectionClear) := iff_of_true rfl trivial
theorem fabricLoaded : Statement (.fabricLoaded) := iff_of_true rfl trivial
theorem profileCommit : Statement (.profileCommit) := iff_of_true rfl trivial
theorem profileOpen : Statement (.profileOpen) := iff_of_true rfl trivial
theorem profileClear : Statement (.profileClear) := iff_of_true rfl trivial
theorem libraryLock : Statement (.libraryLock) := iff_of_true rfl trivial
theorem triggerSet : Statement (.triggerSet) := iff_of_true rfl trivial
theorem triggerGroup : Statement (.triggerGroup) := iff_of_true rfl trivial
theorem triggerCorrect : Statement (.triggerCorrect) := iff_of_true rfl trivial
theorem outputSet : Statement (.outputSet) := iff_of_true rfl trivial
theorem queuePanels : Statement (.queuePanels) := iff_of_true rfl trivial
theorem cancelPanels : Statement (.cancelPanels) := iff_of_true rfl trivial
theorem phaseHome : Statement (.phaseHome) := iff_of_true rfl trivial
theorem heatSetpoint : Statement (.heatSetpoint) := iff_of_true rfl trivial
theorem heatTune : Statement (.heatTune) := iff_of_true rfl trivial
theorem scanList : Statement (.scanList) := iff_of_true rfl trivial
theorem tensionTune : Statement (.tensionTune) := iff_of_true rfl trivial
theorem tensionMix : Statement (.tensionMix) := iff_of_true rfl trivial
theorem autoZero : Statement (.autoZero) := iff_of_true rfl trivial
theorem trimReset : Statement (.trimReset) := iff_of_true rfl trivial
theorem keyTake : Statement (.keyTake) := iff_of_true rfl trivial
theorem keyGive : Statement (.keyGive) := iff_of_true rfl trivial
theorem keyKeep : Statement (.keyKeep) := iff_of_true rfl trivial
theorem keyStop : Statement (.keyStop) := iff_of_true rfl trivial
theorem keyRun : Statement (.keyRun) := iff_of_true rfl trivial
theorem keyHold : Statement (.keyHold) := iff_of_true rfl trivial
theorem keyWarm : Statement (.keyWarm) := iff_of_true rfl trivial
theorem keyCold : Statement (.keyCold) := iff_of_true rfl trivial
theorem keyThread : Statement (.keyThread) := iff_of_true rfl trivial
theorem keyJogFwd : Statement (.keyJogFwd) := iff_of_true rfl trivial
theorem keyJogRev : Statement (.keyJogRev) := iff_of_true rfl trivial
theorem keyUp (key : Key) : Statement (.keyUp key) := iff_of_true rfl trivial
theorem alive : Statement (.alive) := iff_of_true rfl trivial
theorem lockedLampExpiry : Statement (.lockedLampExpiry) := iff_of_true rfl trivial
theorem pendantSilent : Statement (.pendantSilent) := iff_of_true rfl trivial
theorem estopOpen : Statement (.estopOpen) := iff_of_true rfl trivial
theorem estopClose : Statement (.estopClose) := iff_of_true rfl trivial
theorem statusFrame (wrap : WrapReport) (phasePos : Word) (drive : DriveStatus) :
    Statement (.statusFrame wrap phasePos drive) := iff_of_true rfl trivial
theorem driveLinkWatchExpiry : Statement (.driveLinkWatchExpiry) := iff_of_true rfl trivial
theorem commandFrame : Statement (.commandFrame) := iff_of_true rfl trivial
theorem printDone (panel : Half) (result : PrintResult) :
    Statement (.printDone panel result) := by
  simp [Statement, Deliverable, WellFormed, Nat.one_le_iff_ne_zero, BitVec.toNat_eq]
theorem engineState (value : EngineState) :
    Statement (.engineState value) := iff_of_true rfl trivial
theorem reading (xr : Word) (density : Cmyk Half) (quality : Quality) :
    Statement (.reading xr density quality) := iff_of_true rfl trivial
theorem fabricMark (stamp : Option Stamp) : Statement (.fabricMark stamp) := iff_of_true rfl trivial
theorem paperMark (stamp : Option Stamp) : Statement (.paperMark stamp) := iff_of_true rfl trivial
theorem fabricSplice (stamp : Option Stamp) :
    Statement (.fabricSplice stamp) := iff_of_true rfl trivial
theorem paperSplice (stamp : Option Stamp) :
    Statement (.paperSplice stamp) := iff_of_true rfl trivial
theorem drumStep (dir : Dir) : Statement (.drumStep dir) := iff_of_true rfl trivial
theorem printStep (dir : Dir) : Statement (.printStep dir) := iff_of_true rfl trivial
theorem storeExitStep (dir : Dir) : Statement (.storeExitStep dir) := iff_of_true rfl trivial
theorem triggerFire (channel : Fin 12) : Statement (.triggerFire channel) := iff_of_true rfl trivial
theorem latchPulseEnd (latch : Fin 8) : Statement (.latchPulseEnd latch) := iff_of_true rfl trivial
theorem wrapTimeout : Statement (.wrapTimeout) := iff_of_true rfl trivial
theorem doseInterval : Statement (.doseInterval) := iff_of_true rfl trivial
theorem heatInterval : Statement (.heatInterval) := iff_of_true rfl trivial
theorem heaterWindow : Statement (.heaterWindow) := iff_of_true rfl trivial
theorem heaterOnEnd (zone : Fin 8) : Statement (.heaterOnEnd zone) := iff_of_true rfl trivial
theorem scannerConversion (raw : Half) :
    Statement (.scannerConversion raw) := iff_of_true rfl trivial
theorem tensionSample (fabricIn fabricOut paperIn paperOut : RawPair) :
    Statement (.tensionSample fabricIn fabricOut paperIn paperOut) := by
  simp [Statement, Deliverable, WellFormed, rawInRange, and_assoc]
theorem chainLook : Statement (.chainLook) := iff_of_true rfl trivial
theorem pictureInterval : Statement (.pictureInterval) := iff_of_true rfl trivial
theorem lineClock : Statement (.lineClock) := iff_of_true rfl trivial

end Sys2Proof.Laws.WellFormedMeans
end

