-- ==== Sys2Proof/Tests/Slice0.lean ====
section
/-! SUPPORT. Our own tests: ill-formed commands that WellFormed refuses, the manual's worked values
and tables as single steps on small states, and a witness for the hypotheses of every statement. -/

namespace Sys2Proof.Tests

-- One theorem is checked after the other: many at once ask for more threads than the check allows.
set_option Elab.async false

open Sys2Proof.Machine

/-! ## Small states -/

/-- The state a step answers with; reset where it does not. -/
def after (o : Host.Outcome State Fault Refusal) : State :=
  match o with
  | .next t => t
  | _ => State.reset

/-- The state after one command. -/
def run (c : Instr) (s : State) : State := after (exec c s)

/-- An accepted configuration from 0x010 on (R165): V_MAX 240, idle speed 60, T_CUT 2400, skew limit
100, an L_thread, default tensions 1000, ticket limit 8, look code 4, chain start 1, first sequence 0. -/
def configWith (thread : Word) : List Byte :=
  natHalf 240 ++ natHalf 60 ++ natHalf 2400 ++ natHalf 100 ++ wordBytes thread
    ++ natHalf 1000 ++ natHalf 1000 ++ natHalf 1000 ++ natHalf 1000 ++ [8, 4] ++ natHalf 1 ++ natHalf 0

/-- That configuration with an L_thread of 60000. -/
def config : List Byte := configWith 60000

/-- A rate curve and the other host fields of a profile (2.2), with a check part (9.9): name of A's,
class 12, the curve, doses and speed of 7.7, T_scorch 2100, setpoints 3600, 6000, 1000 and 1000, a
FABRIC_OUT taper of 8.3, tolerance 30. -/
def profileBytes : List Byte :=
  List.replicate 16 65 ++ natHalf 12
    ++ natHalf 1700 ++ natHalf 1800 ++ natHalf 1850 ++ natHalf 1920
    ++ natHalf 2040 ++ natHalf 2100 ++ natHalf 2150 ++ natHalf 2200
    ++ natHalf 0 ++ natHalf 10 ++ natHalf 20 ++ natHalf 30
    ++ natHalf 48 ++ natHalf 60 ++ natHalf 70 ++ natHalf 75
    ++ natHalf 11500 ++ natHalf 12000 ++ natHalf 12500 ++ natHalf 2100 ++ natHalf 150
    ++ natHalf 3600 ++ natHalf 6000 ++ natHalf 1000 ++ natHalf 1000
    ++ natHalf 1 ++ natHalf 300 ++ natHalf 150 ++ natHalf 1150
    ++ natHalf 0 ++ natHalf 0 ++ natHalf 0 ++ natHalf 0
    ++ natHalf 30 ++ natHalf 1
    ++ natHalf 1200 ++ natHalf 1100 ++ natHalf 900 ++ natHalf 1500
    ++ natHalf 60 ++ natHalf 50 ++ natHalf 60 ++ natHalf 60 ++ natHalf 1

/-- The bytes of a region as a canonical piece of exchange memory. -/
def bytesAt (a : Nat) : List Byte → List Host.Cell
  | [] => []
  | b :: bs => if b = 0 then bytesAt (a + 1) bs else (a, b) :: bytesAt (a + 1) bs

/-- Regions joined to exchange memory behind what it holds. -/
def join (a : Nat) (bs : List Byte) (s : State) : State := { s with mem := s.mem ++ bytesAt a bs }

/-- A started part in COLD whose walker will examine slot 1, with an L_thread. -/
def upWith (thread : Word) : State :=
  join 0x10 (configWith thread) { State.reset with
    host := { HostUnit.reset with startStatus := .ok },
    walker := { Walker.reset with state := .running, look := 1 } }

/-- A started part with an L_thread of 60000. -/
def up : State := upWith 60000

/-- Slot 1 holds a READY ticket with a kind code and body bytes from 0x20 on (10.6). -/
def ticket (kind : Nat) (body : List Byte) (s : State := up) : State :=
  join 0x5020 body (join 0x5000 [1, natByte kind] s)

/-- The line in a state, with the heat enable that goes with it (R2). -/
def lineIn (l : LineState) (s : State := up) : State :=
  { s with line := { s.line with state := l, heat := heatOf l false } }

/-- A line state and an authority. -/
def held (l : LineState) (a : Authority) (s : State := up) : State :=
  { lineIn l s with line := { (lineIn l s).line with auth := a } }

/-- Profile slot 0 VALID with the profile above, an in-use count and a trim. -/
def profiled (inUse : Nat) (trim : Int) (s : State := up) : State :=
  join 0x3000 profileBytes (updSlot 0 (fun _ => ⟨.valid, inUse, trim, 1⟩) s)

/-- A panel record of slot 0 for copy 1 of ticket slot 20, length 20000, lanes 300..1900 (7.7). -/
def record (n : Half) (st : PanelState) : Panel :=
  { number := n, ticket := 20, copy := 1, profile := 0, length := 20000, laneStart := 300,
    laneEnd := 1900, matched := false, rejectMark := false, sLead := 0, state := st, travel := none,
    retries := 0, paperSplice := false, finalVoid := false, xp := none, piece := none, offset := 0,
    regError := none, stretch := 0, markMissed := false, phaseLimit := false, fLead := none,
    doseMin := 65535, doseMax := 0, interrupted := false, overheat := false, fabricSplice := false,
    readings := 0, sums := ⟨0, 0, 0, 0⟩, verdict := none }

/-- An order of ticket slot 20 with its copies. -/
def order (copies : List Copy) : OpenOrder :=
  { ticket := 20, profile := 0, length := 20000, laneStart := 300, laneEnd := 1900,
    matched := false, rejectMark := false, cutLast := false, tag := 0, copies := copies,
    cancel := false, rejects := 0 }

/-- Live records, open orders and list entries. -/
def holding (ps : List Panel) (os : List OpenOrder) (es : List Entry) (s : State := up) : State :=
  { s with ord := { s.ord with panels := ps, orders := os, entries := es } }

/-- The drum count. -/
def atX (x : Word) (s : State := up) : State := { s with pos := { s.pos with x := x } }

/-- An alarm record as given. -/
def alarmed (a : Alarm) (latch act : Bool) (s : State := up) : State := setAlarm a ⟨latch, act⟩ s

/-- Every drum zone in a state, with a used temperature. -/
def zonesIn (z : ZoneState) (t : Nat) (s : State := up) : State :=
  { s with heat := { s.heat with zones := Vector.replicate 8 { Zone.reset with state := z, used := t } } }

/-- A state whose readiness test passes in every term but the line state (R3). -/
def fit (l : LineState) (s : State := up) : State :=
  { zonesIn .settled 1985 (lineIn l s) with ord := { s.ord with engine := .ready } }

/-- The loaded fabric, marked. -/
def loaded (f : Byte) (s : State := up) : State := { s with line := { s.line with fabric := f, marks := true } }

/-- The line clock. -/
def clockAt (c : Word) (s : State := up) : State := { s with host := { s.host with clock := c } }

/-- The LOCKED lamp lit at clock 0. -/
def lockedFor (c : Word) : State := clockAt c (lightLocked up)

/-- The pendant PRESENT since clock 0. -/
def presentFor (c : Word) : State := clockAt c { up with line := { up.line with pendant := .present } }

/-- The wrap in a state, its watch ending at 5000. -/
def wrapIn (w : WrapState) (s : State := up) : State :=
  { s with dose := { s.dose with wrap := w, watch := some 5000 } }

/-- The line in RUN with the wrap CLOSED, S at 500000 and one order of two copies at the front (4.8). -/
def printable : State :=
  holding [] [order [⟨.waiting, 0⟩, ⟨.waiting, 0⟩]] [⟨20, 0, 1, []⟩]
    { wrapIn .closed (lineIn .run (profiled 1 0)) with
      pos := { up.pos with s := 500000, u := 400000 }, ord := { up.ord with counter := 7 } }

/-- Panel 70 of 9.9, FINISHED with its four readings, and its order of two copies. -/
def judged : State :=
  holding [{ record 70 .finished with
      fLead := some 4000000, rejectMark := true, doseMin := 12285, doseMax := 12324, readings := 4,
      sums := ⟨4680, 4193, 3528, 5840⟩ }]
    [order [⟨.printed, 0⟩, ⟨.waiting, 0⟩]] [⟨20, 0, 2, []⟩] (profiled 2 20)

/-- The setting of 5.9: match panel 31 on paper and an unpaired piece at 1,000,000. -/
def pairing : State :=
  holding [{ record 31 .onPaper with matched := true }] [] []
    { up with
      pos := { up.pos with x := 1018250, u := 28000, s := 90000 },
      reg := { up.reg with queue := [⟨1000000, false, false⟩], target := 40, position := 40 } }

/-- Two cuts in the list, one count before the first (3.5). -/
def cutting : State :=
  updChannel 1 (fun c => { c with state := .counting, remaining := 1 })
    (setCuts [2072250, 2077250] (atX 2072249))

/-- Latch 1 in a pulse that ends at a clock value, the clock at 80. -/
def pulsing (e : Word) : State :=
  clockAt 80 (setLatches (up.trig.latches.set 1
    { up.trig.latches[(1 : Fin 8)] with level := true, pulseEnd := some e }) up)

/-- Panel 44 of 7.7 in the wrap at a used temperature of all its zones, in RUN with the wrap CLOSED. -/
def governedBy (t : Nat) : State :=
  holding [record 44 .onFabric] [] []
    { zonesIn .settled t (setSpeed 20 (wrapIn .closed (lineIn .run (profiled 1 20)))) with
      line := { (lineIn .run).line with speedClass := 1 },
      dose := { (setSpeed 20 (wrapIn .closed)).dose with
        cells := { xc := 0, panel := some 44, dose := 0 } :: (blankCells 0).tail } }

/-- Zone 2 of 6.5, HEATING toward 2000 with an integral, a power and a fresh reading. -/
def heating (t : Nat) (i : Int) (p : Nat) : State :=
  { lineIn .warm with
    heat := { up.heat with
      base := 2000, kp := 48, ki := 64,
      readings := Vector.replicate 10 ⟨t, true, 0⟩,
      zones := up.heat.zones.set 2
        { Zone.reset with state := .heating, integral := i, power := p } } }

/-- The readings of 6.6 at the interval that brings zone 3's age to 21. -/
def failing : State :=
  { fit .run with
    heat := { (fit .run).heat with
      readings := ((((up.heat.readings.map fun _ => (⟨2000, true, 0⟩ : Reading)).set 2 ⟨1985, true, 0⟩).set 3
        ⟨1990, false, 20⟩).set 4 ⟨2003, true, 0⟩),
      base := 2000 } }

/-- Zone 2's heater on until a clock value, the clock at 314. -/
def heaterOn (e : Word) : State :=
  clockAt 314 (setZones (up.heat.zones.set 2
    { Zone.reset with state := .heating, power := 157, heater := true, onEnd := some e }) (lineIn .warm))

/-- The auto-zero of 8.7 before its first paced sample. -/
def zeroing : State :=
  updTension 2 (fun t => { t with
    l := { t.l with raw := 37 },
    auto := some { ticket := 3, step := 4, pace := 2, mode := .cross, cells := [.left], work := .left,
                   savedL := 0, savedR := 0, steps := 0, paceCount := 1, sign := 1, total := 0 } }) up

/-- The nip copy of 8.3 with a held fabric diameter. -/
def tapering (d : Nat) : State :=
  { lineIn .run with tens := { up.tens with
      heldFabric := d,
      nip := some ⟨#v[3600, 6000, 1000, 1000], some ⟨300, 150, 1150⟩, none⟩ } }

/-! ## WellFormed refuses what the bus and the links cannot deliver -/

/-- Offsets are word-aligned (R163). -/
theorem test_wf_misaligned : WellFormed (.hostWrite 0x5002 0 15) = false := by decide
/-- A write to the unmapped span is REGISTER_WRITE_IGNORED, not HOST_WRITE (R163). -/
theorem test_wf_hostWrite_unmapped : WellFormed (.hostWrite 0x15000 0 15) = false := by decide
theorem test_wf_ignored_served : WellFormed (.registerWriteIgnored 0x1800C 0 15) = false := by decide
theorem test_wf_ignored_misaligned : WellFormed (.registerWriteIgnored 0x18011 0 15) = false := by decide
/-- A raw value lies in 0..32767 (8.1). -/
theorem test_wf_raw : WellFormed (.tensionSample ⟨0, 0⟩ ⟨32767, 0⟩ ⟨0, 32768⟩ ⟨0, 0⟩) = false := by
  decide
/-- Panel number 0 names no record (R59). -/
theorem test_wf_panel : WellFormed (.printDone 0 .ok) = false := by decide
theorem test_wf_accepts : WellFormed (.hostWrite 0x18000 1 15) = true
    ∧ WellFormed (.registerWriteIgnored 0x17FFC 0 15) = true
    ∧ WellFormed (.tensionSample ⟨0, 32767⟩ ⟨0, 0⟩ ⟨0, 0⟩ ⟨0, 0⟩) = true := by decide

/-- No row of the table gives bits, so no word spells a command. -/
theorem test_no_words : decodeTableWord 32 0 = none ∧ State.reset.withFetchWord 32 0 = State.reset := by
  decide

/-! ## The host bus -/

/-- R21, R165: after reset the anchor shows the vendor code and the part code, and START never. -/
theorem test_anchor : hostRead State.reset 0x000 = 0x32100C4D ∧ hostRead State.reset 0x040 = 0 := by
  decide +kernel
/-- R166: the first field out of range is index 1, V_MAX, where all configuration is 0. -/
theorem test_start_zero : (run .start State.reset).host.startStatus = .badField 1 := by decide +kernel
/-- R166: START lights cause START, bit 5, and the walker runs at the chain start. -/
theorem test_start_good :
    (run .start (join 0x10 config State.reset)).walker.state = .running
    ∧ (run .start (join 0x10 config State.reset)).walker.look = 1
    ∧ (run .start (join 0x10 config State.reset)).host.causes = 0x20 := by decide +kernel
/-- R163: a write stores its enabled bytes alone. -/
theorem test_write_enables : Memory.word (run (.hostWrite 0x5020 0x11223344 0b0101) up).mem 0x5020
    = 0x00220044 := by decide +kernel
/-- R177: the notice log is guarded; the offset is captured and GUARD, bit 3, raised. -/
theorem test_guard : (run (.hostWrite 0x1000 1 15) up).host.guardAddress = 0x1000
    ∧ (run (.hostWrite 0x1000 1 15) up).host.causes = 0x08 := by decide +kernel
/-- R182: ATTN clears the causes written 1. -/
theorem test_attn : (run (.attnClear 0x09) { up with host := { up.host with causes := 0x0B } }).host.causes
    = 0x02 := by decide +kernel
theorem test_mask : (run (.attnMaskWrite 0xFFFFFFC1) up).host.mask = 1 := by decide +kernel
theorem test_register_ignored : run (.registerWriteIgnored 0x18010 1 15) up = up := by decide +kernel
/-- R163: reset clears a counter the host cannot write. -/
theorem test_power_on : (run .powerOnReset (atX 5)).pos.x = 0 := by decide +kernel
/-- R167: the line returns to COLD from HALT where no HALT condition is active. -/
theorem test_reset_line : (run .resetLine (alarmed .estop true false (lineIn .halt))).line.state = .cold
    ∧ latched (run .resetLine (alarmed .estop true false (lineIn .halt))) .estop = false := by
  decide +kernel
/-- R165: the line clock is modulo 2^32. -/
theorem test_clock_wraps : (run .lineClock { up with host := { up.host with clock := 0xFFFFFFFF } }).host.clock
    = 0 := by decide +kernel

/-! ## The walker and the tickets -/

/-- 10.5: slot 2 EMPTY: the walker waits for the slot. -/
theorem test_examine_waits : (run .walkerExamine up).walker.state = .waiting
    ∧ (run .walkerExamine up).walker.wait = .slot := by decide +kernel
/-- R170: a sequence other than the expected one stalls the walker. -/
theorem test_examine_stalls :
    (run .walkerExamine (putBytes 0x5000 [1, 1, 5] up)).walker.stall = .sequence := by decide +kernel
/-- 10.5: a NOP finishes DONE with OK, and link 0 leaves the walker WAITING. -/
theorem test_nop : handOf (run .nop (ticket 1 [])) 1 = 3
    ∧ (run .nop (ticket 1 [])).walker.state = .waiting := by decide +kernel
/-- 10.5: the link to slot 2 is followed and slot 1 retired. -/
theorem test_nop_link : (run .nop (putBytes 0x5004 [2] (ticket 1 []))).walker.look = 2
    ∧ (run .nop (putBytes 0x5004 [2] (ticket 1 []))).walker.retireSlot = 1 := by decide +kernel
/-- R175, 10.6: BAD_KIND is code 25 with hand REFUSED. -/
theorem test_bad_kind : handOf (run .badKind (ticket 0x99 [])) 1 = 4
    ∧ ticketHalf (run .badKind (ticket 0x99 [])) 1 0x08 = 25 := by decide +kernel
/-- R174: a NUDGE makes a walker that waits for its slot examine it. -/
theorem test_nudge : (run (.nudge 0) { up with
    walker := { up.walker with state := .waiting, wait := .slot } }).walker.state = .running := by
  decide +kernel
theorem test_restart : (run .walkerRestart { up with
    walker := { up.walker with state := .stalled, stall := .sequence } }).walker.state = .running := by
  decide +kernel
/-- R172: look code 0 means no chain look. -/
theorem test_chain_look_off : (run .chainLook (putBytes 0x25 [0] { up with
    walker := { up.walker with state := .waiting, wait := .slot } })).walker.state = .waiting := by
  decide +kernel
/-- R10: COLD to COLD is accepted with no change; RUN from COLD is refused with STATE, 17. -/
theorem test_line_command : ticketHalf (run .lineCommand (ticket 0x10 [4])) 1 0x08 = 17
    ∧ handOf (run .lineCommand (ticket 0x10 [0])) 1 = 3 := by decide +kernel
/-- R41, R70: WARM from COLD gives the store level L_thread. -/
theorem test_line_warm : storeLevel (run .lineCommand (ticket 0x10 [2])) = 60000
    ∧ (run .lineCommand (ticket 0x10 [2])).line.state = .warm := by decide +kernel
/-- R14: LOCKOUT under REMOTE gives REMOTE_LOCKOUT; CLAIM under LOCAL_HELD is refused, AUTHORITY 18. -/
theorem test_authority : (run .authority (ticket 0x11 [1])).line.auth = .remoteLockout
    ∧ ticketHalf (run .authority (ticket 0x11 [3] (held .cold .localHeld))) 1 0x08 = 18 := by
  decide +kernel
/-- 7.7: V_MAX 240 and class 1 give V_lim 210. -/
theorem test_speed_class : vLim (run .speedClass (ticket 0x12 [1])) = 210 := by decide +kernel
/-- 1.1, worked sequence: SECTION_CLEAR(HEAT) lists an active ZONE_OVERTEMP, alarm 7, as still latched. -/
theorem test_section_active :
    ticketHalf (run .sectionClear (ticket 0x13 [2] (alarmed .zoneOvertemp true true))) 1 0x80 = 0x0701 := by
  decide +kernel
/-- The same with the condition ended: the latch goes and the list is empty. -/
theorem test_section_ended :
    latched (run .sectionClear (ticket 0x13 [2] (alarmed .zoneOvertemp true false))) .zoneOvertemp = false
    ∧ ticketByte (run .sectionClear (ticket 0x13 [2] (alarmed .zoneOvertemp true false))) 1 0x80 = 0 := by
  decide +kernel
theorem test_fabric : (run .fabricLoaded (ticket 0x14 [12, 1])).line.fabric = 12
    ∧ (run .fabricLoaded (ticket 0x14 [12, 1])).line.marks = true := by decide +kernel
/-- 2.10: T_4 equal to T_3 (field 7) refuses the commit with detail 7. -/
theorem test_commit_refused :
    ticketWord (run .profileCommit (ticket 0x20 [0] (putBytes 0x301A (natHalf 1920)
      (join 0x3000 profileBytes up)))) 1 0x0C = 7 := by decide +kernel
/-- 2.10: the corrected profile makes the slot VALID with commit count 1. -/
theorem test_commit :
    (run .profileCommit (ticket 0x20 [0] (join 0x3000 profileBytes up))).lib.slots[(0 : Fin 16)]
      = ⟨.valid, 0, 0, 1⟩ := by decide +kernel
theorem test_open : (run .profileOpen (ticket 0x21 [0] (profiled 0 20))).lib.slots[(0 : Fin 16)]
    = ⟨.edit, 0, 20, 1⟩ := by decide +kernel
theorem test_clear : (run .profileClear (ticket 0x22 [0] (profiled 0 20))).lib.slots[(0 : Fin 16)]
    = ⟨.empty, 0, 0, 1⟩ := by decide +kernel
theorem test_lock : ticketWord (run .libraryLock (ticket 0x23 [])) 1 0x0C = 1 := by decide +kernel
/-- R49: REPEAT with reload 500 and start flag 1 counts from 500. -/
theorem test_trigger_set :
    (run .triggerSet (ticket 0x30 ([2, 0, 2, 0] ++ natHalf 500 ++ [1, 1]))).trig.channels[(2 : Fin 12)].remaining
      = 500 := by decide +kernel
/-- R50: the fire moves the one ARMED channel of the set. -/
theorem test_trigger_group :
    ticketWord (run .triggerGroup (ticket 0x31 (natHalf 0xFFFC) (updChannel 5
      (fun c => { c with arm := .groupFire, state := .armed, reload := 7 }) up))) 1 0x0C = 1 := by
  decide +kernel
/-- R51: a correction below 0 is limited to 0. -/
theorem test_trigger_correct :
    (run .triggerCorrect (ticket 0x32 ([4, 0, 0, 0] ++ wordBytes (-9)) (updChannel 4
      (fun c => { c with state := .counting, remaining := 8 }) up))).trig.channels[(4 : Fin 12)].remaining
      = 0 := by decide +kernel
/-- R55: a protected latch ignores the ticket with detail 1. -/
theorem test_output_protected : ticketWord (run .outputSet (ticket 0x33 [0, 0, 1])) 1 0x0C = 1
    ∧ ticketByte (run .outputSet (ticket 0x33 [7, 0, 1])) 1 0x87 = 1 := by decide +kernel
/-- 4.8: the taken order has a list entry with next copy 1, and slot 0's in-use count is 1. -/
theorem test_queue :
    (run .queuePanels (ticket 0x40 ([0, 0] ++ natHalf 20000 ++ natHalf 300 ++ natHalf 1900 ++ [2, 0, 0, 0])
      (profiled 0 0 (loaded 12)))).lib.slots[(0 : Fin 16)].inUse = 1
    ∧ (run .queuePanels (ticket 0x40 ([0, 0] ++ natHalf 20000 ++ natHalf 300 ++ natHalf 1900 ++ [2, 0, 0, 0])
      (profiled 0 0 (loaded 12)))).ord.entries
      = [⟨1, 0, 1, []⟩] := by decide +kernel
/-- R73: the two waiting copies are cancelled and counted, and the order finishes CANCELLED, code 2. -/
theorem test_cancel :
    ticketWord (run .cancelPanels (ticket 0x41 (natHalf 20)
      (holding [] [order [⟨.waiting, 0⟩, ⟨.waiting, 0⟩]] [⟨20, 0, 1, []⟩]))) 1 0x0C = 2
    ∧ ticketHalf (run .cancelPanels (ticket 0x41 (natHalf 20)
      (holding [] [order [⟨.waiting, 0⟩, ⟨.waiting, 0⟩]] [⟨20, 0, 1, []⟩]))) 20 0x08 = 2 := by
  decide +kernel
theorem test_phase_home : (run .phaseHome (ticket 0x50 [] { up with
    reg := { up.reg with position := -250, target := -250 } })).reg.target = 0 := by decide +kernel
theorem test_heat_setpoint : (run .heatSetpoint (ticket 0x60 (natHalf 2000))).heat.base = 2000 := by
  decide +kernel
theorem test_heat_tune : (run .heatTune (ticket 0x61 (natHalf 48 ++ natHalf 64))).heat.ki = 64
    ∧ ticketWord (run .heatTune (ticket 0x61 (natHalf 48 ++ natHalf 256))) 1 0x0C = 2 := by
  decide +kernel
theorem test_scan_list : (run .scanList (ticket 0x62 [3, 8, 9, 8])).heat.shadow = some [8, 9, 8]
    ∧ ticketWord (run .scanList (ticket 0x62 [3, 8, 9, 10])) 1 0x0C = 4 := by decide +kernel
theorem test_tension_tune :
    (run .tensionTune (ticket 0x70 ([1, 0] ++ natHalf 9 ++ natHalf 8 ++ [4, 0] ++ natHalf 1024
      ++ natHalf 4096))).tens.zones[(1 : Fin 4)].r.gain = 4096 := by decide +kernel
theorem test_tension_mix : (run .tensionMix (ticket 0x71 [3, 2])).tens.zones[(3 : Fin 4)].mix
    = .rightOnly := by decide +kernel
/-- R146: the start sign of a raw value of 37 above zero 0 is +. -/
theorem test_auto_zero :
    ((run .autoZero (ticket 0x72 [2, 0, 4, 2, 0] (updTension 2
      (fun t => { t with l := { t.l with raw := 37 } }) up))).tens.zones[(2 : Fin 4)].auto.map (·.sign))
      = some 1 := by decide +kernel
/-- R162: the detail is the old trim, in two's complement. -/
theorem test_trim_reset : ticketWord (run .trimReset (ticket 0x80 [0] (profiled 0 (-50)))) 1 0x0C
    = 0xFFFFFFCE := by decide +kernel

/-! ## The pendant, the E-stop chain and the links -/

/-- R13: TAKE under REMOTE gives LOCAL; under REMOTE_LOCKOUT the LOCKED lamp is lit. -/
theorem test_take : (run .keyTake up).line.auth = .localPendant
    ∧ (run .keyTake (held .cold .remoteLockout)).line.lockedAt = some 0 := by decide +kernel
theorem test_give : (run .keyGive (held .cold .localHeld)).line.auth = .remote := by decide +kernel
theorem test_keep : (run .keyKeep (held .cold .localPendant)).line.auth = .localHeld := by decide +kernel
/-- R17: STOP acts under REMOTE. -/
theorem test_stop : (run .keyStop (held .run .remote)).line.state = .hold := by decide +kernel
/-- R15: RUN from READY under LOCAL; refused under REMOTE with the LOCKED lamp. -/
theorem test_key_run : (run .keyRun (held .ready .localPendant)).line.state = .run
    ∧ (run .keyRun (held .ready .remote)).line.lockedAt = some 0 := by decide +kernel
theorem test_key_hold : (run .keyHold (held .run .localHeld)).line.state = .hold := by decide +kernel
theorem test_key_warm : (run .keyWarm (held .cold .localPendant)).line.state = .warm := by decide +kernel
theorem test_key_cold : (run .keyCold (held .run .localPendant)).line.state = .cold := by decide +kernel
/-- R16: THREAD entered from COLD has the heat off, and a second press returns to COLD. -/
theorem test_key_thread : (run .keyThread (held .cold .localPendant)).line.state = .thread
    ∧ (run .keyThread (held .thread .localPendant)).line.state = .cold := by decide +kernel
theorem test_jog_fwd : (run .keyJogFwd (held .thread .localPendant)).line.jog = .fwd
    ∧ (run .keyJogFwd (held .thread .localPendant)).dose.sCmd = 20 := by decide +kernel
/-- 3.5: a JOG_REV key is refused while channel 1 is COUNTING. -/
theorem test_jog_rev : (run .keyJogRev (held .thread .localPendant)).line.jog = .rev
    ∧ (run .keyJogRev (updChannel 1 (fun c => { c with state := .counting, remaining := 7150 })
      (held .thread .localPendant))).line.jog = .still := by decide +kernel
theorem test_key_up : (run (.keyUp .jogFwd) (setJog .fwd (held .thread .localPendant))).line.jog
    = .still := by decide +kernel
/-- R18: any message makes the pendant PRESENT, and a SILENT one is answered with LAMPS. -/
theorem test_alive : (run .alive up).line.pendant = .present ∧ (run .alive up).sent = [.lamps 0] := by
  decide +kernel
/-- R18: 2000 ms after the refused key, and not before. -/
theorem test_locked_expiry :
    (run .lockedLampExpiry (lockedFor 2000)).line.lockedAt = none
    ∧ (run .lockedLampExpiry (lockedFor 1999)).line.lockedAt = some 0 := by decide +kernel
/-- R18: 500 ms without a message. -/
theorem test_silent : (run .pendantSilent (presentFor 500)).line.pendant = .silent
    ∧ (run .pendantSilent (presentFor 499)).line.pendant = .present := by decide +kernel
theorem test_estop : (run .estopOpen (lineIn .run)).line.state = .halt
    ∧ (run .estopOpen (lineIn .run)).host.causes = 0x12 := by decide +kernel
/-- R5: the end keeps the latch. -/
theorem test_estop_close : alarmRec (run .estopClose (alarmed .estop true true)) .estop
    = ⟨true, false⟩ := by decide +kernel
/-- 7.7: the report CLOSED takes CLOSING to CLOSED; R20: the watch restarts for 50 ms. -/
theorem test_status : (run (.statusFrame .closed 5 .ok) (wrapIn .closing (lineIn .run))).dose.wrap = .closed
    ∧ (run (.statusFrame .closed 5 .ok) up).line.linkWatch = some 50 := by decide +kernel
/-- R20: a fault code halts the line. -/
theorem test_status_fault : (run (.statusFrame .opened 0 (.fault 3)) (lineIn .run)).line.state = .halt := by
  decide +kernel
theorem test_link_watch : (run .driveLinkWatchExpiry (clockAt 50)).line.link = .lost
    ∧ (run .driveLinkWatchExpiry (clockAt 49)).line.link = .up := by decide +kernel
/-- R71: at a level below 60000 the print drive runs at floor(95 × 1.2) = 114. -/
theorem test_command_frame : (run .commandFrame (setSpeed 95 (atX 0))).sent
    = [.frame { frameOf up with speed := 95, printSpeed := 114 }] := by decide +kernel
/-- 4.8: PRINT_DONE OK takes record 7 to ON_PAPER; a number no record holds changes nothing. -/
theorem test_print_done :
    (run (.printDone 7 .ok) (holding [record 7 .printing] [] [])).ord.panels = [record 7 .onPaper]
    ∧ (run (.printDone 9 .ok) (holding [record 7 .printing] [] [])).ord.panels
      = [record 7 .printing] := by decide +kernel
/-- 4.8: the fault on copy 2 puts the entry back in front with next 3 and retry 2. -/
theorem test_print_fault :
    (run (.printDone 8 .fault) (holding [{ record 8 .printing with copy := 2 }]
      [order [⟨.printed, 0⟩, ⟨.printed, 0⟩]] [])).ord.entries = [⟨20, 0, 3, [2]⟩] := by decide +kernel
/-- 4.8: READY starts print 7 of copy 1, and the counter moves to 8. -/
theorem test_engine_ready :
    ((run (.engineState .ready) printable).ord.panels.map (·.number)) = [7]
    ∧ (run (.engineState .ready) printable).ord.counter = 8
    ∧ (run (.engineState .ready) printable).ord.entries = [⟨20, 0, 2, []⟩] := by decide +kernel
/-- 9.9: the first reading joins panel 70's sums; the one at 4,065,020 lies in no window. -/
theorem test_reading :
    ((run (.reading 4064500 ⟨1172, 1050, 880, 1462⟩ .good) judged).ord.panels.map (·.sums))
      = [⟨5852, 5243, 4408, 7302⟩]
    ∧ ((run (.reading 4065020 ⟨1170, 1047, 882, 1460⟩ .good) judged).ord.panels.map (·.readings))
      = [4] := by decide +kernel

/-! ## Sensors and encoders -/

theorem test_fabric_mark : (run (.fabricMark none) (loaded 12 (atX 1000000))).reg.queue
    = [⟨1000000, false, false⟩] := by decide +kernel
/-- 5.9: panel 31 is staged and paired with the piece at 1,000,000, offset −250; the target is −250. -/
theorem test_paper_mark :
    ((run (.paperMark (some ⟨1018250, 0, 28000⟩)) pairing).ord.panels.map (·.offset)) = [-250]
    ∧ (run (.paperMark (some ⟨1018250, 0, 28000⟩)) pairing).reg.target = -250 := by decide +kernel
/-- R43: a fabric splice arrives at the nip 30000 counts after X. -/
theorem test_fabric_splice : (run (.fabricSplice none) (atX 500)).pos.splices
    = [⟨.fabric, 500, some 30500⟩] := by decide +kernel
theorem test_paper_splice : (run (.paperSplice (some ⟨1, 2, 3⟩)) up).pos.splices
    = [⟨.paper, 2, none⟩] := by decide +kernel
/-- R39, R40: X is modulo 2^32 and the phase 0..999. -/
theorem test_drum_reverse : (run (.drumStep .reverse) up).pos.x = 0xFFFFFFFF
    ∧ (run (.drumStep .reverse) up).pos.phase = 999 := by decide +kernel
/-- 3.5: the step to 2,072,250 fires channel 1, which is loaded with 5000 from the second cut. -/
theorem test_drum_cut :
    (run (.drumStep .forward) cutting).trig.channels[(1 : Fin 12)].remaining = 5000
    ∧ (run (.drumStep .forward) cutting).trig.cuts = [2077250] := by decide +kernel
/-- R68, 4.8: at S = 541000 + 20000 + 10000 the record without a PRINT_DONE goes to VOID. -/
theorem test_print_loss : ((run (.printStep .forward) (holding
      [{ record 9 .printing with sLead := 541000 }] [order [⟨.printed, 0⟩]] []
      { up with pos := { up.pos with s := 570999, u := 400000 } })).ord.panels.map (·.state))
    = [.void] := by decide +kernel
/-- R80: U reaching the lead's place at the mark sensor writes the stand-in x_p. -/
theorem test_exit_step : ((run (.storeExitStep .forward) (holding [record 9 .onPaper] [] []
      { up with pos := { up.pos with x := 77, u := 27999 } })).ord.panels.map (·.xp))
    = [some 77] := by decide +kernel
/-- 3.5: the fire is the last count's. -/
theorem test_trigger_fire : (run (.triggerFire 1) cutting).trig.cuts = [2077250] := by decide +kernel

/-! ## Deadlines and periodic timers -/

/-- R54: the pulse of latch 1 ends at its end time and not before. -/
theorem test_pulse_end :
    (run (.latchPulseEnd 1) (pulsing 80)).trig.latches[(1 : Fin 8)].level = false
    ∧ (run (.latchPulseEnd 1) (pulsing 81)).trig.latches[(1 : Fin 8)].level = true := by decide +kernel
/-- R120: 5000 ms in CLOSING halt the line. -/
theorem test_wrap_timeout :
    (run .wrapTimeout (wrapIn .closing (lineIn .run (clockAt 5000)))).line.state = .halt
    ∧ (run .wrapTimeout (wrapIn .closing (lineIn .run (clockAt 4999)))).line.state = .run := by
  decide +kernel
/-- 7.7: S_target 95, governed by panel 44, and S_cmd goes from 20 to 25. -/
theorem test_dose : (run .doseInterval (governedBy 1985)).dose.sTarget = 95
    ∧ (run .doseInterval (governedBy 1985)).dose.sCmd = 25
    ∧ (run .doseInterval (governedBy 1985)).dose.governing = 44 := by decide +kernel
/-- 7.7: with zone 3 LOST, T_eff 1935 gives rate 32 and cap 78, and 95 falls to 85. -/
theorem test_dose_lost : (run .doseInterval (setSpeed 95 (governedBy 1935))).dose.sTarget = 78
    ∧ (run .doseInterval (setSpeed 95 (governedBy 1935))).dose.sCmd = 85
    ∧ ((run .doseInterval (governedBy 1935)).dose.cells.map (·.dose)).head? = some 32 := by
  decide +kernel
/-- Both gains 0. -/
def untuned (s : State) : State := { s with heat := { s.heat with kp := 0, ki := 0 } }
/-- 6.5: heat intervals 1 and 4 of zone 2; R102: with both gains 0 the power is 0 and the integral is
kept. -/
theorem test_heat :
    (run .heatInterval (heating 1500 0 0)).heat.zones[(2 : Fin 8)].power = 1000
    ∧ (run .heatInterval (heating 1500 0 0)).heat.zones[(2 : Fin 8)].integral = 125
    ∧ (run .heatInterval (heating 1990 125 425)).heat.zones[(2 : Fin 8)].power = 157
    ∧ (run .heatInterval (heating 2010 127 157)).heat.zones[(2 : Fin 8)].power = 95
    ∧ (run .heatInterval (untuned (heating 2010 127 157))).heat.zones[(2 : Fin 8)].power = 0
    ∧ (run .heatInterval (untuned (heating 2010 127 157))).heat.zones[(2 : Fin 8)].integral = 127 := by
  decide +kernel
/-- 6.6: zone 3's age reaches 21; its stand-in is the lowest of 1985 and 2003, minus 50. -/
theorem test_heat_lost : (run .heatInterval failing).heat.zones[(3 : Fin 8)].used = 1935
    ∧ (run .heatInterval failing).heat.zones[(3 : Fin 8)].state = .lost := by decide +kernel
/-- 6.5: power 157 keeps the heater on for 314 ms. -/
theorem test_window : (run .heaterWindow (heating 1990 127 157)).heat.zones[(2 : Fin 8)].onEnd
    = some 314 := by decide +kernel
theorem test_heater_end :
    (run (.heaterOnEnd 2) (heaterOn 314)).heat.zones[(2 : Fin 8)].heater = false
    ∧ (run (.heaterOnEnd 2) (heaterOn 315)).heat.zones[(2 : Fin 8)].heater = true := by decide +kernel
/-- R97: 2500 is the greatest valid value of a drum zone's channel. -/
theorem test_conversion :
    (run (.scannerConversion 2500) up).heat.readings[(0 : Fin 10)] = ⟨2500, true, 0⟩
    ∧ (run (.scannerConversion 2501) up).heat.readings[(0 : Fin 10)] = ⟨0, false, 255⟩ := by
  decide +kernel
/-- 8.7: the first paced sample steps the zero of cell L from 0 to 4. -/
theorem test_sample_zero : (run (.tensionSample ⟨0, 0⟩ ⟨0, 0⟩ ⟨37, 0⟩ ⟨0, 0⟩) zeroing).tens.zones[(2 : Fin 4)].l.zero
    = 4 := by decide +kernel
/-- 8.3: the held diameters 0, 400, 650, 1150 and 1300 taper 6000 to 6000, 5550, 5100, 4200, 4200. -/
theorem test_sample_taper :
    [0, 400, 650, 1150, 1300].map (fun d => (run (.tensionSample ⟨0, 0⟩ ⟨0, 0⟩ ⟨0, 0⟩ ⟨0, 0⟩)
      (tapering d)).tens.zones[(1 : Fin 4)].target) = [6000, 5550, 5100, 4200, 4200] := by decide +kernel

/-- R180: the count rises by two; a zone shows the reading 1990 and the setpoint 2000 that stand at the
expiry; and the line state HOLD shows. -/
theorem test_picture : Memory.word (run .pictureInterval up).mem 0x400 = 2
    ∧ [0x420, 0x422, 0x458, 0x45A].map (fun a =>
      (Memory.half (run .pictureInterval (heating 1990 0 0)).mem a).toNat) = [1990, 2000, 1990, 2000]
    ∧ Memory.get (run .pictureInterval (lineIn .hold)).mem 0x404 = 5 := by decide +kernel

/-- 2.8: the worked values of D_eff. -/
theorem test_dEff : [0, 20, 25, 50, -50, 100].map (fun t => dEff (profiled 0 t) 0)
    = [12000, 12240, 12300, 12500, 11500, 12500] := by decide +kernel
/-- 9.9: COLOUR_LOW alone, deviation −52, REJECT; the trim goes from +20 to +25 and channel 0 to 3900. -/
theorem test_verdict : (judged.ord.panels.map (verdictOf judged)) = [⟨true, 0x100, 0, -52⟩]
    ∧ (judged.ord.panels.map fun p => (driftStage p judged).lib.slots[(0 : Fin 16)].trim) = [25] := by
  decide +kernel
/-- 9.9: the verdict event at X = 4,065,100 frees panel 70 and loads channel 0. -/
theorem test_verdict_event :
    (run (.drumStep .forward) (atX 4065099 judged)).ord.panels = []
    ∧ (run (.drumStep .forward) (atX 4065099 judged)).trig.channels[(0 : Fin 12)].remaining = 3900 := by
  decide +kernel

/-! ## Witnesses: every statement's hypotheses are met together, clause by clause, at boundary values -/

/-- A state meets the hypotheses of a clause. -/
abbrev Meets (s : State) (hyps : State → Prop) : Prop := hyps s

/-- A command waits at the front of the queue. -/
def waiting (c : Instr) (s : State) : State := { s with pending := [c] }

/-- A walker in a state, with what it waits on, its stall code and its from ticket. -/
def walking (w : WalkerState) (k : WaitKind) (c : StallCode) (f : Option Nat) : State :=
  { up with walker := { up.walker with state := w, wait := k, stall := c, fromTicket := f } }

theorem witness_StepTakesFrontCommand : State.reset.pending = [] := by decide

theorem witness_MessagesFollowChanges :
    exec .estopOpen (setSpeed 95 (lineIn .run)) = .next (run .estopOpen (setSpeed 95 (lineIn .run)))
    ∧ Instr.estopOpen ≠ .powerOnReset
    ∧ (Meets (setSpeed 95 (lineIn .run)) fun s =>
      frameOf (run .estopOpen s) ≠ frameOf s ∧ lampSet (run .estopOpen s) ≠ lampSet s
      ∧ Message.frame (frameOf (run .estopOpen s)) ∈ (run .estopOpen s).sent
      ∧ Message.lamps (lampSet (run .estopOpen s)) ∈ (run .estopOpen s).sent)
    ∧ isPendantMessage .alive
    ∧ (Meets up fun s => s.line.pendant = .silent ∧ lampSet (run .alive s) = lampSet s
      ∧ Message.lamps (lampSet (run .alive s)) ∈ (run .alive s).sent) := by
  refine ⟨rfl, by decide, by decide +kernel, .inl (by decide), by decide +kernel⟩

theorem witness_PartWritesLogAndTicketsOnly :
    exec .estopOpen (lineIn .run) = .next (run .estopOpen (lineIn .run))
    ∧ Instr.estopOpen ≠ .powerOnReset ∧ Instr.estopOpen ≠ .pictureInterval
    ∧ ∀ o d e, Instr.estopOpen ≠ .hostWrite o d e := by
  refine ⟨rfl, by decide, by decide, fun o d e => ?_⟩
  intro h
  cases h

theorem witness_PowerOnReset : State.reset.line.chainOpen = false
    ∧ (run .estopOpen State.reset).line.chainOpen = true := by decide +kernel

theorem witness_LineResetEmptiesTheLine :
    (Meets zeroing fun s => (∃ a ∈ s.tens.zones[(2 : Fin 4)].auto.toList, 1 ≤ a.ticket ∧ a.ticket ≤ 256)
      ∧ (∀ y : Fin 4, y ≠ 2 → s.tens.zones[y].auto = none) ∧ s.ord.orders = [] ∧ s.reg.home = none
      ∧ Memory.wf s.mem = true)
    ∧ ∃ o, Meets (holding [] [o] []) fun s => s.ord.orders = [o] ∧ 1 ≤ o.ticket ∧ o.ticket ≤ 256
      ∧ o.copies.length ≤ 8 ∧ Memory.wf s.mem = true :=
  ⟨by decide +kernel,
    { order (List.replicate 8 ⟨.waiting, 0⟩) with ticket := 256 }, by decide +kernel⟩

theorem witness_LineResetEmptiesTheLine_wrap :
    (∀ w ∈ [WrapState.closing, .closed], Meets (wrapIn w (lineIn .run)) fun s =>
      s.line.state = .run ∧ (s.dose.wrap = .closing ∨ s.dose.wrap = .closed))
    ∧ (∀ w ∈ [WrapState.opening, .opened], Meets (wrapIn w (lineIn .run)) fun s =>
      s.dose.wrap = .opening ∨ s.dose.wrap = .opened)
    ∧ (Meets (lineIn .hold) fun s => s.line.state ≠ .run) := by
  dsimp only [Meets]; decide +kernel

theorem witness_StepKeepsMemoryCanonical :
    Memory.wf (waiting .estopOpen (lineIn .run)).mem = true
    ∧ ∃ t, step (waiting .estopOpen (lineIn .run)) = .next t :=
  ⟨by decide +kernel, _, rfl⟩

theorem witness_StepKeepsTablesWithinBounds :
    WithinCapacity (waiting (.drumStep .forward) judged)
    ∧ NumbersUnique (waiting (.drumStep .forward) judged)
    ∧ CopyLaw (waiting (.drumStep .forward) judged)
    ∧ judged.ord.orders ≠ [] ∧ judged.ord.entries ≠ [] ∧ judged.ord.panels ≠ []
    ∧ ∃ t, step (waiting (.drumStep .forward) judged) = .next t := by
  refine ⟨⟨by decide +kernel, by decide +kernel, by decide +kernel, by decide +kernel,
    by decide +kernel, by decide +kernel, by decide +kernel, ?_, by decide +kernel⟩,
    ⟨by decide +kernel, by decide +kernel, by decide +kernel, by decide +kernel⟩,
    ⟨by decide +kernel, by decide +kernel, by decide +kernel⟩, by decide, by decide, by decide, _, rfl⟩
  intro l h
  cases h

theorem witness_StepKeepsHeatersAndRanges :
    (HeatersSafe (waiting .heatInterval (heating 1990 127 157))
      ∧ ∃ t, step (waiting .heatInterval (heating 1990 127 157)) = .next t)
    ∧ (WithinRange (waiting .heatInterval (heating 1990 1000 1000))
      ∧ ∃ t, step (waiting .heatInterval (heating 1990 1000 1000)) = .next t) :=
  ⟨⟨⟨by decide +kernel, by decide +kernel⟩, _, rfl⟩,
    ⟨by decide +kernel, by decide +kernel, by decide +kernel, by decide +kernel, by decide +kernel⟩,
    _, rfl⟩

/-- One started state with S_cmd at V_lim, and one before START. -/
theorem witness_StepKeepsSpeedLaw :
    (SpeedLaw (waiting .doseInterval (setSpeed 240 (wrapIn .closed (lineIn .run))))
      ∧ ∃ t, step (waiting .doseInterval (setSpeed 240 (wrapIn .closed (lineIn .run)))) = .next t)
    ∧ SpeedLaw (waiting .start (join 0x10 config State.reset)) := by
  refine ⟨⟨⟨?_, ?_, ?_, ?_, ?_⟩, _, rfl⟩, ⟨?_, ?_, ?_, ?_, ?_⟩⟩ <;>
    (try unfold configAccepted) <;> decide +kernel

/-- A NOP waits to be taken from slot 1, slots 256 and 2 open in the chain before it. -/
def linked : State :=
  waiting .nop { ticket 1 [] with walker := { up.walker with chain := [⟨256, true⟩, ⟨2, false⟩] } }

theorem witness_StepKeepsTicketLaw :
    (TicketLaw linked ∧ ChainLaw linked ∧ ∃ t, step linked = .next t)
    ∧ (AutoZeroLaw (waiting .keyStop zeroing) ∧ zeroing.tens.zones[(2 : Fin 4)].auto.isSome = true
      ∧ ∃ t, step (waiting .keyStop zeroing) = .next t) := by
  refine ⟨⟨⟨?_, ?_, ?_, ?_, ?_, ?_⟩, ⟨?_, ?_, ?_, ?_⟩, _, rfl⟩, ?_, by decide +kernel, _, rfl⟩ <;>
    (try unfold configAccepted) <;> (try unfold AutoZeroLaw) <;> decide +kernel

/-- A QUEUE_PANELS ticket for slot 0 with a length, lanes, a number of copies and its three flags. -/
def queued (len lo hi : Nat) (copies m r c : Byte) (s : State) : State :=
  ticket 0x40 ([0, 0] ++ natHalf len ++ natHalf lo ++ natHalf hi ++ [copies, m, r, c]) s

theorem witness_SlotsInUse :
    InUseExact (waiting .commandFrame printable)
    ∧ (∃ t, step (waiting .commandFrame printable) = .next t)
    ∧ 0 < printable.lib.slots[(0 : Fin 16)].inUse
    ∧ (Meets (ticket 0x21 [0] (profiled 1 0)) fun s => TakesKind s 0x21 ∧ bodyByte s (look s) 0x20 ≤ 15
      ∧ s.lib.lock = false ∧ s.lib.slots[slotField s (look s)].state = .valid
      ∧ 0 < s.lib.slots[slotField s (look s)].inUse)
    ∧ (Meets (ticket 0x22 [0] (profiled 1 0)) fun s => TakesKind s 0x22 ∧ bodyByte s (look s) 0x20 ≤ 15
      ∧ s.lib.lock = false ∧ 0 < s.lib.slots[slotField s (look s)].inUse)
    ∧ (Meets (queued 4000 0 100 1 0 0 0 up) fun s => TakesKind s 0x40
      ∧ firstFailure (orderChecks s (look s)) = none ∧ s.lib.slots[slotField s (look s)].state ≠ .valid)
    ∧ (Meets (queued 60000 3100 3200 8 1 1 1 (profiled 0 0 (loaded 12))) fun s => InUseExact s
      ∧ slotUses s 0 = 0 ∧ 0 < slotUses (run .queuePanels s) 0) := by
  refine ⟨?_, ⟨_, rfl⟩, ?_⟩ <;> dsimp only [Meets, TakesKind, InUseExact] <;> decide +kernel

theorem witness_StartRestartAndLooks :
    started up = true
    ∧ (Meets State.reset fun s => started s = false ∧ firstFailure (configChecks s) = some 1)
    ∧ (Meets (join 0x10 config State.reset) fun s =>
      started s = false ∧ firstFailure (configChecks s) = none)
    ∧ (up.walker.state ≠ .stalled ∧ up.walker.state ≠ .waiting)
    ∧ (Meets (walking .stalled .slot .sequence none) fun s =>
      s.walker.state = .stalled ∧ s.walker.stall = .sequence)
    ∧ (∀ f ∈ [1, 256], Meets (walking .stalled .link .linkRange (some f)) fun s =>
      s.walker.state = .stalled ∧ s.walker.stall ≠ .sequence ∧ s.walker.fromTicket = some f
      ∧ Memory.wf s.mem = true)
    ∧ (Meets (walking .waiting .slot .none none) fun s =>
      s.walker.state = .waiting ∧ s.walker.wait = .slot)
    ∧ (∀ f ∈ [1, 256], Meets (walking .waiting .link .none (some f)) fun s =>
      s.walker.state = .waiting ∧ s.walker.wait = .link ∧ s.walker.fromTicket = some f
      ∧ Memory.wf s.mem = true) := by decide +kernel

theorem witness_AttentionRegisters :
    exec (.attnClear 8) up = .next (run (.attnClear 8) up)
    ∧ (8 : Word).getLsbD 3 = true ∧ (∀ c ∈ [Cause.ticket, .start], (0x21 : Word).getLsbD c.bit = true) :=
  ⟨rfl, by decide, by decide⟩

/-- Served: the first configuration word before START and the last ticket word; guarded: the first
word, and the last word of the library. -/
theorem witness_HostWriteToMemory :
    (∀ a ∈ [0x010, 0x028, 0x080, 0x3000, 0x31EC, 0x5000, 0x14FFC], a < 0x15000 ∧ a % 4 = 0
      ∧ guarded State.reset a = false ∧ Memory.wf State.reset.mem = true)
    ∧ (∀ a ∈ [0x000, 0x010, 0x028, 0x02C, 0x084, 0x2FFC, 0x31F0, 0x4FFC], a < 0x15000 ∧ a % 4 = 0
      ∧ guarded up a = true) := by decide +kernel

theorem witness_GuardedWords : ∀ a ∈ [0x000, 0x14FFC], a < 0x15000 ∧ a % 4 = 0 := by decide

theorem witness_RegisterWrites :
    (1 : BitVec 4).getLsbD 0 = true ∧ (14 : BitVec 4).getLsbD 0 = false
    ∧ (∀ d ∈ [0, 1, 2, 3, 4, 5, 6, 7], (BitVec.ofNat 32 d).extractLsb' 0 3 = BitVec.ofNat 3 d)
    ∧ (∀ o ∈ [(0x18000 : Word), 0x18008, 0x1800F],
      0x18000 ≤ o.toNat ∧ o.toNat < 0x18010 ∧ o.toNat / 4 ≠ 0x6001)
    ∧ (∀ o ∈ [(0x15000 : Word), 0x17FFC, 0x18010, 0xFFFFFFFC],
      ignoredOffset o = true ∧ wordAligned o = true) := by
  refine ⟨by decide, by decide, by decide, ?_, ?_⟩ <;> simp [ignoredOffset, wordAligned]

/-- Both ends of the unmapped span and of the offsets past the registers, and plain words beside the
fields that the part owns. -/
theorem witness_HostReads :
    (∀ o ∈ [0x15000, 0x17FFF, 0x18010, 0xFFFFFFFF],
      (0x15000 ≤ (BitVec.ofNat 32 o).toNat ∧ (BitVec.ofNat 32 o).toNat < 0x18000)
      ∨ 0x18010 ≤ (BitVec.ofNat 32 o).toNat)
    ∧ (∀ a ∈ [0x008, 0x03C, 0x05C, 0x3000, 0x31EC, 0x4E00, 0x5000, 0x14FFC], a < 0x15000 ∧ a % 4 = 0
      ∧ a ∉ [0x000, 0x004, 0x040, 0x044, 0x048, 0x04C, 0x050, 0x054, 0x058]
      ∧ ¬ (0x3000 ≤ a ∧ a < 0x5000 ∧ 0x1F0 ≤ a % 512)) := by decide +kernel

theorem witness_WalkerExamine :
    (walking .waiting .slot .none none).walker.state ≠ .running
    ∧ (Meets up fun s => s.walker.state = .running ∧ handOf s (look s) ≠ 1)
    ∧ (Meets (join 0x5000 [1, 1, 1] up) fun s => s.walker.state = .running ∧ handOf s (look s) = 1
      ∧ Memory.wf s.mem = true ∧ sequenceOf s (look s) ≠ s.walker.expected)
    ∧ (∀ k ∈ ticketRows.map (·.1), Meets (ticket k []) fun s => takesNow s = true
      ∧ (kindOf s (look s)).toNat = k)
    ∧ (∀ k ∈ [0x00, 0x02, 0x81, 0xFF], Meets (ticket k []) fun s => takesNow s = true
      ∧ ∀ r ∈ ticketRows, (kindOf s (look s)).toNat ≠ r.1)
    ∧ (∀ r ∈ ticketRows, ¬ (takesNow up = true ∧ (kindOf up (look up)).toNat = r.1)) := by
  decide +kernel

theorem witness_WalkerExamine_nop :
    TakesKind (ticket 0x01 []) 0x01
    ∧ (∀ k ∈ [0x00, 0x02, 0x81, 0xFF], TakesKind (ticket k []) k ∧ k ∉ ticketRows.map (·.1)) := by
  dsimp only [TakesKind]; decide +kernel

/-- The open chain of 10.5: slots 2 and 3 finished and followed, slot 4 finished alone. -/
def chained : State :=
  join 0x5200 [3] (join 0x5100 [3] { up with walker := { up.walker with
    chain := [⟨2, true⟩, ⟨3, true⟩, ⟨4, false⟩] } })

/-- A NOP linked to slot 5 waits to be taken from slot 1, slot 2 open in the chain before it, its ticket
DONE and not followed, or nothing. -/
def linkedOn (chain : List ChainEntry) : State :=
  join 0x5100 [3] (join 0x5004 [5] (waiting .nop { ticket 1 [] with
    walker := { up.walker with chain := chain } }))

theorem witness_RetireMarkAdvances :
    (Meets chained fun s => s.walker.chain = [⟨2, true⟩, ⟨3, true⟩] ++ [⟨4, false⟩]
      ∧ (∀ e ∈ [(⟨2, true⟩ : ChainEntry), ⟨3, true⟩],
        e.followed = true ∧ (handOf s e.slot = 3 ∨ handOf s e.slot = 4)))
    ∧ (∀ e, [(⟨4, false⟩ : ChainEntry)].head? = some e →
      ¬ (e.followed = true ∧ (handOf chained e.slot = 3 ∨ handOf chained e.slot = 4))) := by
  refine ⟨by decide +kernel, ?_⟩
  intro e h
  cases h
  decide

/-- With the chain empty the NOP is itself passed by the mark; behind slot 2 it stays. -/
theorem witness_RetireMarkAdvances_step (l : List ChainEntry) (h : l ∈ [[], [⟨2, false⟩]]) :
    RetireLaw (linkedOn l) ∧ ChainLaw (linkedOn l) ∧ TicketLaw (linkedOn l) ∧ CopyLaw (linkedOn l)
    ∧ Memory.wf (linkedOn l).mem = true ∧ Instr.nop ≠ .powerOnReset
    ∧ (∃ t, step (linkedOn l) = .next t) ∧ (∃ t, exec .nop (linkedOn l) = .next t)
    ∧ (run .nop (linkedOn l)).walker.retireSlot = (if l = [] then 1 else 0) := by
  have hr : RetireLaw (linkedOn l) := by
    intro e he
    simp only [List.mem_cons, List.not_mem_nil, or_false] at h
    obtain rfl | rfl := h <;> cases he
    exact fun hf => by cases hf.1
  refine ⟨hr, ⟨?_, ?_, ?_, ?_⟩, ⟨?_, ?_, ?_, ?_, ?_, ?_⟩, ⟨?_, ?_, ?_⟩, ?_, by decide, ⟨_, rfl⟩,
    ⟨_, rfl⟩, ?_⟩ <;> (try unfold configAccepted) <;> clear hr <;> revert l <;> decide +kernel

/-- Every body of a list gives a ticket of a kind that the walker takes and that meets the hypotheses. -/
abbrev EachBody (kind : Nat) (bodies : List (List Byte)) (s : State) (hyps : State → Prop) : Prop :=
  ∀ b ∈ bodies, Meets (ticket kind b s) fun t => TakesKind t kind ∧ hyps t

/-- The eight offsets of a HEAT_SETPOINT body. -/
def offsets (l : List Int) : List Byte := l.flatMap intHalf

theorem witness_HeatAndScanTickets_tune :
    (EachBody 0x61 [natHalf 256, natHalf 65535] up fun s => 255 < bodyHalf s (look s) 0x20)
    ∧ (EachBody 0x61 [natHalf 255 ++ natHalf 256] up fun s =>
      bodyHalf s (look s) 0x20 ≤ 255 ∧ 255 < bodyHalf s (look s) 0x22)
    ∧ (EachBody 0x61 [natHalf 0 ++ natHalf 0, natHalf 255 ++ natHalf 255] up fun s =>
      bodyHalf s (look s) 0x20 ≤ 255 ∧ bodyHalf s (look s) 0x22 ≤ 255) := by
  dsimp only [EachBody, Meets, TakesKind]
  and_intros <;> decide +kernel

theorem witness_HeatAndScanTickets_setpoint :
    (EachBody 0x60 [natHalf 999, natHalf 2401] up fun s =>
      bodyHalf s (look s) 0x20 < 1000 ∨ 2400 < bodyHalf s (look s) 0x20)
    ∧ (∀ p ∈ [((0 : Fin 8), [(-51 : Int)]), (7, [50, 50, 50, 50, -50, -50, -50, 51])],
      EachBody 0x60 [natHalf 2400 ++ offsets p.2] up fun s =>
      1000 ≤ bodyHalf s (look s) 0x20 ∧ bodyHalf s (look s) 0x20 ≤ 2400
      ∧ (∀ j : Fin 8, j < p.1 → -50 ≤ bodyInt s (look s) (0x22 + 2 * j.val)
        ∧ bodyInt s (look s) (0x22 + 2 * j.val) ≤ 50)
      ∧ (bodyInt s (look s) (0x22 + 2 * p.1.val) < -50 ∨ 50 < bodyInt s (look s) (0x22 + 2 * p.1.val)))
    ∧ (EachBody 0x60 [natHalf 1000 ++ offsets [-50, 50, 0, 0, 0, 0, 50, -50]] up fun s =>
      1000 ≤ bodyHalf s (look s) 0x20 ∧ bodyHalf s (look s) 0x20 ≤ 2400
      ∧ ∀ j : Fin 8, -50 ≤ bodyInt s (look s) (0x22 + 2 * j.val)
        ∧ bodyInt s (look s) (0x22 + 2 * j.val) ≤ 50) := by
  dsimp only [EachBody, Meets, TakesKind]
  and_intros <;> decide +kernel

theorem witness_HeatAndScanTickets_scan :
    (EachBody 0x62 [[0], [17]] up fun s => bodyByte s (look s) 0x20 = 0 ∨ 16 < bodyByte s (look s) 0x20)
    ∧ (EachBody 0x62 [1 :: [10]] up fun s => 1 ≤ bodyByte s (look s) 0x20
      ∧ bodyByte s (look s) 0x20 ≤ 16 ∧ 9 < bodyByte s (look s) (0x20 + 1))
    ∧ (EachBody 0x62 [16 :: (List.replicate 15 9 ++ [255])] up fun s => 16 ≤ bodyByte s (look s) 0x20
      ∧ bodyByte s (look s) 0x20 ≤ 16 ∧ (∀ j < 16, 1 ≤ j → bodyByte s (look s) (0x20 + j) ≤ 9)
      ∧ 9 < bodyByte s (look s) (0x20 + 16))
    ∧ (EachBody 0x62 [1 :: [0], 16 :: List.replicate 16 9] up fun s => 1 ≤ bodyByte s (look s) 0x20
      ∧ bodyByte s (look s) 0x20 ≤ 16
      ∧ ∀ j < 17, 1 ≤ j → j ≤ bodyByte s (look s) 0x20 → bodyByte s (look s) (0x20 + j) ≤ 9) := by
  dsimp only [EachBody, Meets, TakesKind]
  and_intros <;> decide +kernel

theorem witness_TrimReset :
    (EachBody 0x80 [[16], [255]] up fun s => 15 < bodyByte s (look s) 0x20)
    ∧ (∀ i : Fin 16, i = 0 ∨ i = 15 →
      EachBody 0x80 [[natByte i.val]] up fun s => bodyByte s (look s) 0x20 = i.val) := by
  dsimp only [EachBody, Meets, TakesKind]
  and_intros <;> decide +kernel

/-- The library with its lock set. -/
def locked (s : State) : State := { s with lib := { s.lib with lock := true } }

theorem witness_ProfileSlotTickets :
    (∀ k ∈ [0x20, 0x21, 0x22], (EachBody k [[16], [255]] up fun s => 15 < bodyByte s (look s) 0x20)
      ∧ (EachBody k [[0], [15]] (locked up) fun s =>
        bodyByte s (look s) 0x20 ≤ 15 ∧ s.lib.lock = true))
    ∧ (EachBody 0x20 [[0]] (profiled 0 0) fun s => bodyByte s (look s) 0x20 = (0 : Fin 16).val
      ∧ s.lib.lock = false ∧ s.lib.slots[(0 : Fin 16)].state = .valid)
    ∧ (EachBody 0x20 [[15]] up fun s => bodyByte s (look s) 0x20 = (15 : Fin 16).val
      ∧ s.lib.lock = false ∧ s.lib.slots[(15 : Fin 16)].state ≠ .valid
      ∧ firstFailure (profileChecks s 15) = some 1)
    ∧ (EachBody 0x20 [[0]] (join 0x3000 profileBytes up) fun s =>
      bodyByte s (look s) 0x20 = (0 : Fin 16).val ∧ s.lib.lock = false
      ∧ s.lib.slots[(0 : Fin 16)].state ≠ .valid ∧ firstFailure (profileChecks s 0) = none)
    ∧ (EachBody 0x21 [[15]] up fun s => bodyByte s (look s) 0x20 = (15 : Fin 16).val
      ∧ s.lib.lock = false ∧ s.lib.slots[(15 : Fin 16)].state ≠ .valid)
    ∧ (∀ k ∈ [0x21, 0x22], (EachBody k [[0]] (profiled 1 0) fun s =>
        bodyByte s (look s) 0x20 = (0 : Fin 16).val ∧ s.lib.lock = false
        ∧ s.lib.slots[(0 : Fin 16)].state = .valid ∧ 0 < s.lib.slots[(0 : Fin 16)].inUse)
      ∧ (EachBody k [[0]] (profiled 0 0) fun s =>
        bodyByte s (look s) 0x20 = (0 : Fin 16).val ∧ s.lib.lock = false
        ∧ s.lib.slots[(0 : Fin 16)].state = .valid ∧ s.lib.slots[(0 : Fin 16)].inUse = 0))
    ∧ (EachBody 0x23 [[]] up fun s => s.lib.lock = false) := by
  dsimp only [EachBody, Meets, TakesKind]
  and_intros <;> decide +kernel

/-- The name tag fails in an empty slot, and the fabric class behind a good tag (2.2). -/
theorem witness_ProfileValidation :
    firstFailure (profileChecks up 0) = some 1 ∧ (0, true) ∉ profileChecks up 0
    ∧ firstFailure (profileChecks (join 0x3000 (List.replicate 16 126) up) 0) = some 2
    ∧ (∃ ok, (1, ok) ∈ profileChecks (join 0x3000 (List.replicate 16 126) up) 0) := by
  refine ⟨by decide +kernel, by decide +kernel, by decide +kernel, true, by decide +kernel⟩

/-- The trims at both ends of their range. -/
theorem witness_EffectiveDoseTarget :
    ∀ t ∈ [(-100 : Int), 100], Meets (profiled 0 t) fun s => firstFailure (profileChecks s 0) = none
      ∧ -100 ≤ s.lib.slots[(0 : Fin 16)].trim ∧ s.lib.slots[(0 : Fin 16)].trim ≤ 100
      ∧ ∃ p ∈ [record 1 .staged], p.profile = 0 := by
  dsimp only [Meets]; decide +kernel

/-- A TRIGGER_SET body: channel, source, mode, reload count, arm source, start flag. -/
def channelBody (c src m : Byte) (reload : Nat) (a start : Byte) : List Byte :=
  [c, src, m, 0] ++ natHalf reload ++ [a, start]

theorem witness_TriggerSet :
    (EachBody 0x30 [[12], [255]] up fun s => 11 < bodyByte s (look s) 0x20)
    ∧ (EachBody 0x30 [[0], [1]] up fun s => bodyByte s (look s) 0x20 ≤ 1)
    ∧ (∀ c : Fin 12, c = 2 ∨ c = 11 →
      (EachBody 0x30 [[natByte c.val, 2]] up fun s => bodyByte s (look s) 0x20 = c.val ∧ 2 ≤ c.val
        ∧ 1 < bodyByte s (look s) 0x21)
      ∧ (EachBody 0x30 [[natByte c.val, 1, 3]] up fun s => bodyByte s (look s) 0x20 = c.val
        ∧ bodyByte s (look s) 0x21 ≤ 1 ∧ 2 < bodyByte s (look s) 0x22)
      ∧ (EachBody 0x30 [channelBody (natByte c.val) 1 2 0 0 0] up fun s =>
        bodyByte s (look s) 0x20 = c.val ∧ bodyByte s (look s) 0x21 ≤ 1
        ∧ bodyByte s (look s) 0x22 ≤ 2 ∧ bodyHalf s (look s) 0x24 = 0)
      ∧ (EachBody 0x30 [channelBody (natByte c.val) 0 2 1 5 0, channelBody (natByte c.val) 0 1 1 0 0,
          channelBody (natByte c.val) 0 0 1 1 0] up fun s =>
        bodyByte s (look s) 0x20 = c.val ∧ bodyByte s (look s) 0x21 ≤ 1
        ∧ bodyByte s (look s) 0x22 ≤ 2 ∧ bodyHalf s (look s) 0x24 ≠ 0
        ∧ (4 < bodyByte s (look s) 0x26
          ∨ (bodyByte s (look s) 0x22 = 1 ∧ bodyByte s (look s) 0x26 = 0)
          ∨ (bodyByte s (look s) 0x22 = 0 ∧ bodyByte s (look s) 0x26 ≠ 0))))
    ∧ (∀ f ∈ [(2 : Byte), 0, 1], ∀ p ∈ [((0 : Byte), ChanMode.oneShot, (0 : Byte), ArmSource.unarmed),
        (1, .delayedOneShot, 4, .fabricSplice), (2, .repeating, 0, .unarmed), (2, .repeating, 4, .fabricSplice)],
      EachBody 0x30 [channelBody 11 1 p.1 65535 p.2.2.1 f] up fun s =>
        sourceOf (bodyByte s (look s) 0x21) = some .print ∧ modeOf (bodyByte s (look s) 0x22) = some p.2.1
        ∧ bodyHalf s (look s) 0x24 ≠ 0 ∧ armOf (bodyByte s (look s) 0x26) = some p.2.2.2
        ∧ ¬ (p.2.1 = .delayedOneShot ∧ p.2.2.2 = .unarmed) ∧ ¬ (p.2.1 = .oneShot ∧ p.2.2.2 ≠ .unarmed)
        ∧ bodyByte s (look s) 0x27 = f.toNat ∧ s.line.jog ≠ .rev)
    ∧ (EachBody 0x30 [channelBody 2 0 0 1 0 1] (setJog .rev (lineIn .thread)) fun s =>
      bodyByte s (look s) 0x27 = 1 ∧ s.line.jog = .rev ∧ s.trig.channels[(2 : Fin 12)].state ≠ .counting)
    ∧ (EachBody 0x30 [channelBody 2 0 0 1 0 1] (updChannel 2 (fun c => { c with state := .counting })
        (setJog .rev (lineIn .thread))) fun s =>
      bodyByte s (look s) 0x27 = 1 ∧ s.trig.channels[(2 : Fin 12)].state = .counting) := by
  dsimp only [EachBody, Meets, TakesKind]
  and_intros <;> decide +kernel

/-- Channel 2 waits for a group fire, and channel 11 counts in REPEAT. -/
def grouped : State :=
  updChannel 2 (fun c => { c with arm := .groupFire, state := .armed, reload := 9 })
    (updChannel 11 (fun c => { c with
      arm := .groupFire, mode := .repeating, state := .counting, remaining := 4 }) up)

theorem witness_TriggerGroupCorrectAndOutputs_groups :
    (EachBody 0x31 [natHalf 0, natHalf 0xF000] up fun s =>
      (ticketHalf s (look s) 0x20).extractLsb' 0 12 = 0)
    ∧ (EachBody 0x31 [natHalf 1, natHalf 0xFFE] up fun s =>
      (ticketHalf s (look s) 0x20).extractLsb' 0 2 ≠ 0)
    ∧ (EachBody 0x31 [natHalf 4, natHalf 0xFFC] grouped fun s =>
      (ticketHalf s (look s) 0x20).extractLsb' 0 12 ≠ 0 ∧ (ticketHalf s (look s) 0x20).extractLsb' 0 2 = 0)
    ∧ (EachBody 0x31 [natHalf 4] (setJog .rev grouped) fun s => s.line.jog = .rev
      ∧ (ticketHalf s (look s) 0x20).getLsbD (2 : Fin 12).val = true
      ∧ s.trig.channels[(2 : Fin 12)].arm = .groupFire ∧ s.trig.channels[(2 : Fin 12)].state = .armed)
    ∧ (EachBody 0x32 [[12], [255]] up fun s => 11 < bodyByte s (look s) 0x20)
    ∧ (EachBody 0x32 [[0], [1]] up fun s => bodyByte s (look s) 0x20 ≤ 1)
    ∧ (EachBody 0x32 [[11, 0, 0, 0] ++ wordBytes (-65536), [2, 0, 0, 0] ++ wordBytes 65536] up fun s =>
      correctionOf s (look s) < -65535 ∨ 65535 < correctionOf s (look s))
    ∧ (EachBody 0x32 [[11, 0, 0, 0] ++ wordBytes (-65535), [11, 0, 0, 0] ++ wordBytes 65535] up fun s =>
      -65535 ≤ correctionOf s (look s) ∧ correctionOf s (look s) ≤ 65535
      ∧ s.trig.channels[(11 : Fin 12)].state ≠ .counting)
    ∧ (∀ p ∈ [((-65535 : Int), (0 : Nat)), (65535, 65535)],
      EachBody 0x32 [[11, 0, 0, 0] ++ wordBytes (BitVec.ofInt 32 p.1)] grouped fun s =>
      bodyByte s (look s) 0x20 = (11 : Fin 12).val ∧ correctionOf s (look s) = p.1
      ∧ s.trig.channels[(11 : Fin 12)].state = .counting
      ∧ (p.2 : Int) = max 0 (min 65535
        (s.trig.channels[(11 : Fin 12)].remaining + correctionOf s (look s)))) := by
  dsimp only [EachBody, Meets, TakesKind]
  and_intros <;> decide +kernel

/-- A CONFIGURE body: latch, source, protect flag, pulse width. -/
def latchBody (l src prot : Byte) (width : Nat) : List Byte := [l, 1, 0, src, prot, 0] ++ natHalf width

theorem witness_TriggerGroupCorrectAndOutputs_outputs :
    (EachBody 0x33 [[8], [255], [0, 2]] up fun s =>
      7 < bodyByte s (look s) 0x20 ∨ 1 < bodyByte s (look s) 0x21)
    ∧ (EachBody 0x33 [[0, 0, 2], [7, 0, 255]] up fun s => bodyByte s (look s) 0x20 ≤ 7
      ∧ bodyByte s (look s) 0x21 = 0 ∧ 1 < bodyByte s (look s) 0x22)
    ∧ (EachBody 0x33 [latchBody 0 12 0 1, latchBody 0 254 0 1, latchBody 7 11 0 0, latchBody 7 0 0 1001,
        latchBody 7 255 2 1000] up fun s => bodyByte s (look s) 0x20 ≤ 7 ∧ bodyByte s (look s) 0x21 = 1
      ∧ ((12 ≤ bodyByte s (look s) 0x23 ∧ bodyByte s (look s) 0x23 ≠ 255)
        ∨ bodyHalf s (look s) 0x26 = 0 ∨ 1000 < bodyHalf s (look s) 0x26
        ∨ 1 < bodyByte s (look s) 0x24))
    ∧ (EachBody 0x33 [[7, 0, 1]] (updLatch 7 (fun l => { l with source := some 3 }) up) fun s =>
      bodyByte s (look s) 0x21 = 0 ∧ bodyByte s (look s) 0x22 ≤ 1
      ∧ s.trig.latches[(7 : Fin 8)].protect = false ∧ s.trig.latches[(7 : Fin 8)].source ≠ none)
    ∧ (EachBody 0x33 [[0, 0, 0], [0, 0, 1], latchBody 0 11 1 1000] up fun s =>
      s.trig.latches[(0 : Fin 8)].protect = true
      ∧ ((bodyByte s (look s) 0x21 = 0 ∧ bodyByte s (look s) 0x22 ≤ 1)
        ∨ (bodyByte s (look s) 0x21 = 1
          ∧ (bodyByte s (look s) 0x23 < 12 ∨ bodyByte s (look s) 0x23 = 255)
          ∧ 1 ≤ bodyHalf s (look s) 0x26 ∧ bodyHalf s (look s) 0x26 ≤ 1000
          ∧ bodyByte s (look s) 0x24 ≤ 1)))
    ∧ (EachBody 0x33 [[7, 0, 0], [7, 0, 1]] up fun s => s.trig.latches[(7 : Fin 8)].protect = false
      ∧ bodyByte s (look s) 0x21 = 0 ∧ bodyByte s (look s) 0x22 ≤ 1
      ∧ s.trig.latches[(7 : Fin 8)].source = none)
    ∧ (EachBody 0x33 [latchBody 7 0 0 1, latchBody 7 11 1 1000, latchBody 7 255 0 1000] up fun s =>
      s.trig.latches[(7 : Fin 8)].protect = false ∧ bodyByte s (look s) 0x21 = 1
      ∧ (bodyByte s (look s) 0x23 < 12 ∨ bodyByte s (look s) 0x23 = 255)
      ∧ 1 ≤ bodyHalf s (look s) 0x26 ∧ bodyHalf s (look s) 0x26 ≤ 1000
      ∧ bodyByte s (look s) 0x24 ≤ 1) := by
  dsimp only [EachBody, Meets, TakesKind]
  and_intros <;> decide +kernel

/-- A TENSION_TUNE body: zone, gains, ramp step, cell gains. -/
def tuneBody (z : Byte) (kp ki : Nat) (step : Byte) (l r : Nat) : List Byte :=
  [z, 0] ++ natHalf kp ++ natHalf ki ++ [step, 0] ++ natHalf l ++ natHalf r

/-- Cells of zone 3 lost or not. -/
def cellsLost (l r : Bool) (s : State := up) : State :=
  updTension 3 (fun t => { t with l := { t.l with lost := l }, r := { t.r with lost := r } }) s

theorem witness_TensionTuneAndMix :
    (∀ k ∈ [0x70, 0x71], EachBody k [[4], [255]] up fun s => 3 < bodyByte s (look s) 0x20)
    ∧ (EachBody 0x70 [tuneBody 3 256 0 0 0 0] up fun s => bodyByte s (look s) 0x20 = (3 : Fin 4).val
      ∧ 255 < bodyHalf s (look s) 0x22)
    ∧ (EachBody 0x70 [tuneBody 0 255 256 0 0 0] up fun s => bodyByte s (look s) 0x20 = (0 : Fin 4).val
      ∧ bodyHalf s (look s) 0x22 ≤ 255 ∧ 255 < bodyHalf s (look s) 0x24)
    ∧ (∀ n ∈ [(0 : Byte), 3, 16], EachBody 0x70 [tuneBody 0 255 255 n 0 0] up fun s =>
      bodyHalf s (look s) 0x22 ≤ 255 ∧ bodyHalf s (look s) 0x24 ≤ 255
      ∧ bodyByte s (look s) 0x26 ∉ [1, 2, 4, 8])
    ∧ (EachBody 0x70 [tuneBody 0 0 0 1 0 0, tuneBody 0 0 0 8 4097 0] up fun s =>
      bodyByte s (look s) 0x26 ∈ [1, 2, 4, 8]
      ∧ (bodyHalf s (look s) 0x28 = 0 ∨ 4096 < bodyHalf s (look s) 0x28))
    ∧ (EachBody 0x70 [tuneBody 0 0 0 2 1 0, tuneBody 0 0 0 4 4096 4097] up fun s =>
      bodyByte s (look s) 0x26 ∈ [1, 2, 4, 8] ∧ 1 ≤ bodyHalf s (look s) 0x28
      ∧ bodyHalf s (look s) 0x28 ≤ 4096
      ∧ (bodyHalf s (look s) 0x2A = 0 ∨ 4096 < bodyHalf s (look s) 0x2A))
    ∧ (EachBody 0x70 [tuneBody 3 0 0 1 1 1, tuneBody 3 255 255 8 4096 4096] up fun s =>
      bodyByte s (look s) 0x20 = (3 : Fin 4).val ∧ bodyHalf s (look s) 0x22 ≤ 255
      ∧ bodyHalf s (look s) 0x24 ≤ 255 ∧ bodyByte s (look s) 0x26 ∈ [1, 2, 4, 8]
      ∧ 1 ≤ bodyHalf s (look s) 0x28 ∧ bodyHalf s (look s) 0x28 ≤ 4096
      ∧ 1 ≤ bodyHalf s (look s) 0x2A ∧ bodyHalf s (look s) 0x2A ≤ 4096)
    ∧ (EachBody 0x71 [[3, 3], [0, 255]] up fun s => 2 < bodyByte s (look s) 0x21)
    ∧ (∀ p ∈ [((0 : Byte), MixMode.both, true, false), (0, .both, false, true), (1, .leftOnly, true, false),
        (2, .rightOnly, false, true)], EachBody 0x71 [[3, p.1]] (cellsLost p.2.2.1 p.2.2.2) fun s =>
      mixOf (bodyByte s (look s) 0x21) = some p.2.1
      ∧ ((p.2.1 ≠ .rightOnly ∧ s.tens.zones[(3 : Fin 4)].l.lost = true)
        ∨ (p.2.1 ≠ .leftOnly ∧ s.tens.zones[(3 : Fin 4)].r.lost = true)))
    ∧ (∀ p ∈ [((0 : Byte), MixMode.both, false, false), (1, .leftOnly, false, true),
        (2, .rightOnly, true, false)], EachBody 0x71 [[3, p.1]] (cellsLost p.2.2.1 p.2.2.2) fun s =>
      mixOf (bodyByte s (look s) 0x21) = some p.2.1
      ∧ (p.2.1 = .rightOnly ∨ s.tens.zones[(3 : Fin 4)].l.lost = false)
      ∧ (p.2.1 = .leftOnly ∨ s.tens.zones[(3 : Fin 4)].r.lost = false)) := by
  dsimp only [EachBody, Meets, TakesKind]
  and_intros <;> decide +kernel

/-- The checks of an AUTO_ZERO body as its statement lists them (R146). -/
def autoChecks (s : State) : List (Nat × Bool) :=
  [ (1, decide (bodyByte s (look s) 0x20 ≤ 3)), (2, decide (bodyByte s (look s) 0x21 ≤ 2)),
    (3, [1, 2, 4, 8].contains (bodyByte s (look s) 0x22)),
    (4, decide (1 ≤ bodyByte s (look s) 0x23 ∧ bodyByte s (look s) 0x23 ≤ 4)),
    (5, decide (bodyByte s (look s) 0x24 ≤ 1)) ]

theorem witness_AutoZeroTaken :
    (∀ p ∈ [(1, [(4 : Byte)]), (2, [3, 3]), (3, [3, 2, 3]), (4, [3, 2, 8, 0]), (4, [3, 2, 8, 5]),
        (5, [3, 2, 8, 4, 2])], EachBody 0x72 [p.2] up fun s => firstFailure (autoChecks s) = some p.1)
    ∧ (∀ p ∈ [((0 : Byte), [Side.left], Side.left), (1, [.right], .right), (2, [.left, .right], .left)],
      ∀ s0 ∈ [lineIn .cold, lineIn .thread], EachBody 0x72 [[3, p.1, 8, 4, 1]] s0 fun s =>
        bodyByte s (look s) 0x20 = (3 : Fin 4).val ∧ bodyByte s (look s) 0x22 ∈ [1, 2, 4, 8]
        ∧ 1 ≤ bodyByte s (look s) 0x23 ∧ bodyByte s (look s) 0x23 ≤ 4 ∧ bodyByte s (look s) 0x24 ≤ 1
        ∧ (bodyByte s (look s) 0x21, p.2.1, p.2.2) ∈
          [(0, [Side.left], Side.left), (1, [.right], .right), (2, [.left, .right], .left)]
        ∧ (∀ sd ∈ p.2.1, (s.tens.zones[(3 : Fin 4)].cell sd).lost = false)
        ∧ (s.line.state = .cold ∨ (s.line.state = .thread ∧ s.line.jog = .still))
        ∧ s.tens.zones[(3 : Fin 4)].auto = none)
    ∧ (EachBody 0x72 [[3, 2, 1, 1, 0]] (cellsLost false true) fun s =>
      ∃ sd ∈ [Side.left, .right], (s.tens.zones[(3 : Fin 4)].cell sd).lost = true)
    ∧ (∀ s0 ∈ [lineIn .warm, setJog .fwd (lineIn .thread)], EachBody 0x72 [[3, 2, 1, 1, 0]] s0 fun s =>
      ¬ (s.line.state = .cold ∨ (s.line.state = .thread ∧ s.line.jog = .still)))
    ∧ (EachBody 0x72 [[2, 2, 1, 1, 0]] zeroing fun s => s.line.state = .cold
      ∧ s.tens.zones[(2 : Fin 4)].auto.isSome = true) := by
  dsimp only [EachBody, Meets, TakesKind]
  and_intros <;> decide +kernel

/-- The auto-zero of zone 2 alone in COLD and in THREAD under LOCAL, ended by a change of line state and by a
jog, and left by the key of the state the line has. -/
theorem witness_AutoZeroTaken_abort :
    ∀ q ∈ [ (LineState.cold, Instr.estopOpen, 4), (.cold, .keyWarm, 4), (.cold, .keyThread, 4),
        (.thread, .estopOpen, 4), (.thread, .keyCold, 4), (.thread, .keyJogFwd, 5),
        (.thread, .keyJogRev, 5), (.cold, .keyCold, 0) ],
      Meets (held q.1 .localPendant zeroing) fun s =>
      (∃ a ∈ s.tens.zones[(2 : Fin 4)].auto.toList, 1 ≤ a.ticket ∧ a.ticket ≤ 256)
      ∧ (∀ y : Fin 4, y ≠ 2 → s.tens.zones[y].auto = none) ∧ AutoZeroLaw s ∧ Memory.wf s.mem = true
      ∧ s.line.jog = .still
      ∧ ((run q.2.1 s).line.state ≠ s.line.state ↔ q.2.2 = 4)
      ∧ ((run q.2.1 s).line.jog ≠ .still ↔ q.2.2 = 5) := by
  dsimp only [Meets, AutoZeroLaw]
  decide +kernel

/-- The checks of a QUEUE_PANELS body as its statement lists them (R56). -/
def bodyChecks (s : State) : List (Nat × Bool) :=
  [ (1, decide (bodyByte s (look s) 0x20 ≤ 15)),
    (2, decide (4000 ≤ bodyHalf s (look s) 0x22 ∧ bodyHalf s (look s) 0x22 ≤ 60000)),
    (3, decide (bodyHalf s (look s) 0x24 ≤ 3200)),
    (4, decide (bodyHalf s (look s) 0x26 ≤ 3200
      ∧ bodyHalf s (look s) 0x24 + 100 ≤ bodyHalf s (look s) 0x26)),
    (5, decide (1 ≤ bodyByte s (look s) 0x28 ∧ bodyByte s (look s) 0x28 ≤ 8)),
    (6, decide (bodyByte s (look s) 0x29 ≤ 1)), (7, decide (bodyByte s (look s) 0x2A ≤ 1)),
    (8, decide (bodyByte s (look s) 0x2B ≤ 1)) ]

/-- The fields of a QUEUE_PANELS body are accepted, for profile slot 0 (R56). -/
def acceptedOrder (s : State) : Prop :=
  TakesKind s 0x40 ∧ bodyByte s (look s) 0x20 = (0 : Fin 16).val
  ∧ 4000 ≤ bodyHalf s (look s) 0x22 ∧ bodyHalf s (look s) 0x22 ≤ 60000
  ∧ bodyHalf s (look s) 0x24 + 100 ≤ bodyHalf s (look s) 0x26 ∧ bodyHalf s (look s) 0x26 ≤ 3200
  ∧ 1 ≤ bodyByte s (look s) 0x28 ∧ bodyByte s (look s) 0x28 ≤ 8
  ∧ bodyByte s (look s) 0x29 ≤ 1 ∧ bodyByte s (look s) 0x2A ≤ 1 ∧ bodyByte s (look s) 0x2B ≤ 1

theorem witness_QueuePanels :
    (∀ p ∈ [(2, queued 3999 0 100 1 0 0 0 up), (2, queued 60001 0 100 1 0 0 0 up),
        (3, queued 4000 3201 0 1 0 0 0 up), (4, queued 4000 3200 3200 1 0 0 0 up),
        (4, queued 4000 0 99 1 0 0 0 up), (4, queued 4000 0 3201 1 0 0 0 up),
        (5, queued 4000 0 100 0 0 0 0 up), (5, queued 4000 0 100 9 0 0 0 up),
        (6, queued 4000 0 100 1 2 0 0 up), (7, queued 4000 0 100 1 0 2 0 up),
        (8, queued 4000 0 100 1 0 0 2 up), (1, ticket 0x40 [16] up)],
      TakesKind p.2 0x40 ∧ firstFailure (bodyChecks p.2) = some p.1)
    ∧ (Meets (queued 4000 0 100 1 0 0 0 up) fun s =>
      acceptedOrder s ∧ s.lib.slots[(0 : Fin 16)].state ≠ .valid)
    ∧ (Meets (queued 60000 3100 3200 8 1 1 1 (profiled 0 0)) fun s => acceptedOrder s
      ∧ s.lib.slots[(0 : Fin 16)].state = .valid ∧ fabricClass s 0 ≠ s.line.fabric.toNat)
    ∧ (Meets (queued 60000 3100 3200 8 1 1 1 (profiled 0 0
        { loaded 12 with line := { (loaded 12).line with marks := false } })) fun s => acceptedOrder s
      ∧ s.lib.slots[(0 : Fin 16)].state = .valid ∧ fabricClass s 0 = s.line.fabric.toNat
      ∧ bodyByte s (look s) 0x29 = 1 ∧ s.line.marks = false)
    ∧ (∀ s ∈ [queued 4000 0 100 1 0 0 0 (profiled 0 0 (loaded 12)),
        queued 60000 3100 3200 8 1 1 1 (profiled 0 0 (loaded 12))], acceptedOrder s
      ∧ s.lib.slots[(0 : Fin 16)].state = .valid ∧ fabricClass s 0 = s.line.fabric.toNat
      ∧ (bodyByte s (look s) 0x29 = 0 ∨ s.line.marks = true) ∧ s.line.state ≠ .run) := by
  dsimp only [Meets, TakesKind, acceptedOrder]
  and_intros <;> decide +kernel

/-- Outside RUN no print can start: the form in which the witnesses below show `¬ Startable`. -/
theorem not_startable (s : State) (h : s.line.state ≠ .run) : ¬ Startable s := fun k => h k.1

/-- 63 live records, a retry waiting and S just at the print gap. -/
def gapped : State :=
  { printable with ord := { printable.ord with
      panels := (List.range 63).map (fun n => record (BitVec.ofNat 16 (n + 1)) .onPaper),
      endMark := some 499500, entries := [⟨20, 0, 3, [2]⟩, ⟨21, 0, 1, []⟩] } }

theorem witness_PrintStart :
    (∀ s ∈ [printable, gapped], s.line.state = .run ∧ s.dose.wrap = .closed
      ∧ s.ord.panels.length < 64
      ∧ findOrder 20 s = some (order [⟨.waiting, 0⟩, ⟨.waiting, 0⟩]))
    ∧ (∀ m, printable.ord.endMark = some m → 0 ≤ sdiff printable.pos.s (m + 500))
    ∧ (∀ m, gapped.ord.endMark = some m → 0 ≤ sdiff gapped.pos.s (m + 500))
    ∧ printable.ord.entries = ⟨20, 0, 1, []⟩ :: []
    ∧ gapped.ord.entries = ⟨20, 0, 3, [2]⟩ :: [⟨21, 0, 1, []⟩]
    ∧ NumbersUnique printable ∧ NumbersUnique gapped := by
  refine ⟨by decide +kernel, ?_, ?_, rfl, rfl,
    ⟨by decide +kernel, by decide +kernel, by decide +kernel, by decide +kernel⟩,
    ⟨by decide +kernel, by decide +kernel, by decide +kernel, by decide +kernel⟩⟩
  · intro m h
    cases h
  · intro m h
    cases h
    decide +kernel

theorem witness_CancelPanels :
    (EachBody 0x41 [natHalf 0, natHalf 257] up fun s =>
      bodyHalf s (look s) 0x20 < 1 ∨ 256 < bodyHalf s (look s) 0x20)
    ∧ (EachBody 0x41 [natHalf 1, natHalf 256] up fun s => 1 ≤ bodyHalf s (look s) 0x20
      ∧ bodyHalf s (look s) 0x20 ≤ 256 ∧ findOrder (bodyHalf s (look s) 0x20) s = none)
    ∧ (∀ o ∈ [order (List.replicate 8 ⟨.waiting, 0⟩), order [⟨.printed, 0⟩, ⟨.waiting, 0⟩]],
      EachBody 0x41 [natHalf 20] (holding [] [o] [⟨20, 0, 1, []⟩]) fun s =>
      20 = bodyHalf s (look s) 0x20 ∧ 1 ≤ 20 ∧ 20 ≤ 256 ∧ findOrder 20 s = some o ∧ 20 ≠ look s
      ∧ o.copies.length ≤ 8 ∧ s.line.state ≠ .run) := by
  dsimp only [EachBody, Meets, TakesKind]
  and_intros <;> decide +kernel

/-- A running home request. -/
def homing (s : State) : State := { s with reg := { s.reg with home := some 9 } }

theorem witness_LineCommand :
    (EachBody 0x10 [[1], [3], [6], [255]] up fun s => bodyByte s (look s) 0x20 ∉ [0, 2, 4, 5])
    ∧ (∀ a ∈ [Authority.localPendant, .localHeld], EachBody 0x10 [[0]] (held .cold a) fun s =>
      targetOf (bodyByte s (look s) 0x20) = some .cold
      ∧ (s.line.auth = .localPendant ∨ s.line.auth = .localHeld))
    ∧ (∀ a ∈ [Authority.remote, .remoteLockout], ∀ p ∈ [((0 : Byte), LineState.cold, held .halt a), (2, .warm, held .thread a),
          (2, .warm, held .run a), (4, .run, held .cold a), (4, .run, held .warm a),
          (4, .run, homing (held .ready a)), (4, .run, alarmed .skew true true (held .hold a)),
          (4, .run, alarmed .zoneLost true false (fit .hold (held .hold a))), (5, .hold, held .ready a)],
        EachBody 0x10 [[p.1]] p.2.2 fun s => targetOf (bodyByte s (look s) 0x20) = some p.2.1
        ∧ (s.line.auth = .remote ∨ s.line.auth = .remoteLockout)
        ∧ (s.line.state = .halt
          ∨ (p.2.1 = .warm ∧ (s.line.state = .thread ∨ s.line.state = .run))
          ∨ (p.2.1 = .run ∧ (s.line.state = .cold ∨ s.line.state = .thread ∨ s.line.state = .warm))
          ∨ (p.2.1 = .run ∧ s.line.state = .ready ∧ s.reg.home.isSome = true)
          ∨ (p.2.1 = .run ∧ s.line.state = .hold
            ∧ (s.reg.home.isSome = true ∨ holdCauseLatched s = true ∨ runHeatTest s = false))
          ∨ (p.2.1 = .hold ∧ s.line.state ≠ .run ∧ s.line.state ≠ .hold)))
    ∧ (∀ a ∈ [Authority.remote, .remoteLockout], ∀ p ∈ [((0 : Byte), LineState.cold, held .cold a), (2, .warm, held .warm a),
          (2, .warm, held .ready a), (4, .run, held .run a), (5, .hold, held .hold a)],
        EachBody 0x10 [[p.1]] p.2.2 fun s => targetOf (bodyByte s (look s) 0x20) = some p.2.1
        ∧ (p.2.1 = s.line.state ∨ (p.2.1 = .warm ∧ s.line.state = .ready)))
    ∧ (∀ a ∈ [Authority.remote, .remoteLockout], ∀ p ∈ [((0 : Byte), LineState.cold, held .run a), (4, .run, held .ready a),
          (4, .run, zonesIn .settled 1985 (held .hold a)), (5, .hold, held .run a)],
        EachBody 0x10 [[p.1]] p.2.2 fun s => targetOf (bodyByte s (look s) 0x20) = some p.2.1
        ∧ ((p.2.1 = .cold ∧ s.line.state ≠ .cold ∧ s.line.state ≠ .halt)
          ∨ (p.2.1 = .run ∧ s.line.state = .ready ∧ s.reg.home = none)
          ∨ (p.2.1 = .run ∧ s.line.state = .hold ∧ holdCauseLatched s = false
            ∧ runHeatTest s = true ∧ s.reg.home = none)
          ∨ (p.2.1 = .hold ∧ s.line.state = .run))) := by
  dsimp only [EachBody, Meets, TakesKind]
  and_intros <;> decide +kernel

/-- From HOLD and from COLD with L_thread above 1000.0 mm, at it, above 300.0 mm and at it. -/
theorem witness_LineToWarm :
    (∀ l ∈ [LineState.hold, .cold], ∀ a ∈ [Authority.remote, .remoteLockout],
      EachBody 0x10 [[2]] (held l a (upWith 10001)) fun s => bodyByte s (look s) 0x20 = 2
      ∧ (s.line.auth = .remote ∨ s.line.auth = .remoteLockout) ∧ s.line.state = l
      ∧ 10000 < (lThread s).toInt)
    ∧ (∀ l ∈ [LineState.hold, .cold], ∀ a ∈ [Authority.localPendant, .localHeld],
      Meets (held l a) fun s => started s = true
      ∧ (s.line.auth = .localPendant ∨ s.line.auth = .localHeld) ∧ s.line.state = l
      ∧ 10000 < (lThread s).toInt)
    ∧ (∀ d ∈ [10000, 3001, 3000, 0], ∀ e ∈ [false, true], EachBody 0x10 [[2]]
        (alarmed .storeEmpty e e (held .cold .remote (upWith (BitVec.ofNat 32 d)))) fun s =>
      bodyByte s (look s) 0x20 = 2 ∧ s.line.auth = .remote ∧ s.line.state = .cold
      ∧ (lThread s).toInt ≤ 10000 ∧ (3000 < (lThread s).toInt ↔ 3000 < d)
      ∧ (alarmRec s .storeEmpty = ⟨true, true⟩ ↔ e = true))
    ∧ (∀ d ∈ [10000, 3001, 3000, 0], ∀ e ∈ [false, true],
      Meets (alarmed .storeEmpty e e (held .cold .localHeld (upWith (BitVec.ofNat 32 d)))) fun s =>
      started s = true ∧ s.line.auth = .localHeld ∧ s.line.state = .cold
      ∧ (lThread s).toInt ≤ 10000 ∧ (3000 < (lThread s).toInt ↔ 3000 < d)
      ∧ (alarmRec s .storeEmpty = ⟨true, true⟩ ↔ e = true)) := by
  dsimp only [EachBody, Meets, TakesKind]
  and_intros <;> decide +kernel

/-- The line in THREAD with the heat held on, with an L_thread, STORE_EMPTY held or not. -/
def threadWarm (a : Authority) (e : Bool) (d : Nat) : State :=
  let s := alarmed .storeEmpty e e (held .thread a (upWith (BitVec.ofNat 32 d)))
  { s with line := { s.line with threadHeat := true } }

theorem witness_LineToWarm_thread :
    ∀ d ∈ [10001, 10000, 3001, 3000, 0], ∀ e ∈ [false, true],
      ∀ a ∈ [Authority.localPendant, .localHeld], Meets (threadWarm a e d) fun s =>
        s.line.state = .thread ∧ s.line.threadHeat = true ∧ started s = true
        ∧ (s.line.auth = .localPendant ∨ s.line.auth = .localHeld)
        ∧ (10000 < (lThread s).toInt ↔ 10000 < d) ∧ (3000 < (lThread s).toInt ↔ 3000 < d)
        ∧ (alarmRec s .storeEmpty = ⟨true, true⟩ ↔ e = true) := by
  dsimp only [Meets]; decide +kernel

/-- R16, R41, R72: the THREAD key leaves THREAD with the heat for WARM; at 300.0 mm in the store the line
goes on to HALT with STORE_LOW and STORE_EMPTY latched. -/
theorem test_thread_to_warm : ([3001, 3000].map fun d =>
      let t := run .keyThread (threadWarm .localHeld false d)
      (t.line.state, t.line.heat, t.dose.sCmd, latched t .storeLow, latched t .storeEmpty))
    = [(.warm, true, 20, true, false), (.halt, false, 0, true, true)] := by decide +kernel

theorem witness_AuthorityClassAndFabric :
    (EachBody 0x11 [[0], [4], [255]] up fun s => bodyByte s (look s) 0x20 ∉ [1, 2, 3])
    ∧ (∀ p ∈ [((1 : Byte), Authority.localHeld), (3, .localHeld), (1, .localPendant), (2, .localPendant)],
      EachBody 0x11 [[p.1]] (held .cold p.2) fun s => bodyByte s (look s) 0x20 ∈ [1, 2, 3]
      ∧ (s.line.auth = .localHeld ∨ (s.line.auth = .localPendant ∧ bodyByte s (look s) 0x20 ≠ 3)))
    ∧ (∀ p ∈ [(Authority.remote, (1 : Byte), Authority.remoteLockout), (.remoteLockout, 1, .remoteLockout),
        (.remote, 2, .remote), (.remoteLockout, 2, .remote), (.remote, 3, .remote),
        (.remoteLockout, 3, .remoteLockout), (.localPendant, 3, .remote)],
      EachBody 0x11 [[p.2.1]] (held .cold p.1) fun s =>
      (s.line.auth, bodyByte s (look s) 0x20, p.2.2) ∈
        [ (Authority.remote, 1, Authority.remoteLockout), (.remoteLockout, 1, .remoteLockout),
          (.remote, 2, .remote), (.remoteLockout, 2, .remote), (.remote, 3, .remote),
          (.remoteLockout, 3, .remoteLockout), (.localPendant, 3, .remote) ])
    ∧ (EachBody 0x12 [[0]] { up with line := { up.line with classLock := true } } fun s =>
      s.line.classLock = true)
    ∧ (EachBody 0x12 [[4], [255]] up fun s => s.line.classLock = false ∧ 3 < bodyByte s (look s) 0x20)
    ∧ (∀ k : Fin 4, EachBody 0x12 [[natByte k.val, 0], [natByte k.val, 1]] up fun s =>
      s.line.classLock = false ∧ bodyByte s (look s) 0x20 = k.val)
    ∧ (EachBody 0x14 [[0]] up fun s => bodyByte s (look s) 0x20 = 0)
    ∧ (∀ l ∈ [LineState.run, .hold, .halt], EachBody 0x14 [[1], [255]] (lineIn l) fun s =>
      bodyByte s (look s) 0x20 ≠ 0
      ∧ (s.line.state = .run ∨ s.line.state = .hold ∨ s.line.state = .halt))
    ∧ (∀ l ∈ [LineState.cold, .thread, .warm, .ready], EachBody 0x14 [[1, 0], [255, 1]] (lineIn l) fun s =>
      bodyByte s (look s) 0x20 ≠ 0 ∧ (bodyByte s (look s) 0x21 = 0 ∨ bodyByte s (look s) 0x21 = 1)
      ∧ (s.line.state = .cold ∨ s.line.state = .thread ∨ s.line.state = .warm
        ∨ s.line.state = .ready)) := by
  dsimp only [EachBody, Meets, TakesKind]
  and_intros <;> decide +kernel

theorem witness_SectionClear :
    (EachBody 0x13 [[0]] up fun s => bodyByte s (look s) 0x20 = 0)
    ∧ (∀ l ∈ [LineState.cold, .thread, .warm, .ready, .run, .hold, .halt],
      EachBody 0x13 [[1], [128]] (alarmed .estop true false (lineIn l)) fun s =>
      bodyByte s (look s) 0x20 ≠ 0 ∧ s.line.state = l)
    ∧ (∀ s : State, ∃ named : Alarm → Bool, ∀ a, named a = ((ticketByte s (look s) 0x20).getLsbD a.section_
      || (ticketByte s (look s) 0x20).getLsbD 7)) := by
  refine ⟨?_, ?_, fun s => ⟨_, fun a => rfl⟩⟩ <;> dsimp only [EachBody, Meets, TakesKind] <;>
    decide +kernel

theorem witness_PhaseHome :
    (EachBody 0x50 [[]] (lineIn .run) fun s => s.line.state = .run)
    ∧ (EachBody 0x50 [[]] (homing up) fun s => s.line.state ≠ .run ∧ s.reg.home.isSome = true)
    ∧ (∀ l ∈ [LineState.cold, .warm, .ready, .hold], ∀ r ∈ [(0 : Int), -600, 600],
      EachBody 0x50 [[]] { lineIn l with reg := { up.reg with position := r } } fun s =>
      s.line.state ≠ .run ∧ s.reg.home = none ∧ AutoZeroLaw s) := by
  dsimp only [EachBody, Meets, TakesKind, AutoZeroLaw]
  and_intros <;> decide +kernel

/-- A home request of slot 7 at a roller position, at the step before a crossing, with a paired match panel
staged at the head of the list. -/
def homingAt (r : Int) : State :=
  holding [{ record 31 .staged with matched := true, xp := some 0, piece := some 5, offset := 30 }] [] []
    { lineIn .hold with
      reg := { up.reg with position := r, home := some 7, list := [31] },
      pos := { up.pos with x := 4999, phase := 999 } }

/-- The roller within 20 of 0 and beyond; and a FULL walker with nothing on the web. -/
theorem witness_PhaseHome_step :
    (∀ r ∈ [(1 : Int), -20, 20, 21, -600], ∀ panels : Bool,
      Meets (if panels then homingAt r else holding [] [] [] { homingAt r with
          reg := { (homingAt r).reg with list := [] },
          walker := { up.walker with state := .full, fromTicket := some 2 } }) fun s =>
      s.reg.home = some 7 ∧ s.reg.target = 0 ∧ s.reg.position ≠ 0 ∧ s.pos.phase = 999
      ∧ (∀ p ∈ s.ord.panels, p.fLead = none ∧ p.xp = some 0 ∧ sdiff (s.pos.x + 1) (0 + 12000
        + intWord (s.reg.position + max (-20) (min 20 (-s.reg.position)))) < 0)
      ∧ AutoZeroLaw s ∧ Memory.wf s.mem = true
      ∧ (panels = true → s.reg.list.head? = some 31 ∧ (findPanel 31 s).isSome = true)
      ∧ (panels = false → s.walker.state = .full ∧ s.walker.fromTicket = some 2 ∧ s.reg.list = []
        ∧ s.reg.queue = [] ∧ s.line.state = .hold)) := by
  dsimp only [Meets, AutoZeroLaw]
  decide +kernel

theorem witness_PendantAuthorityAndStop :
    (∀ a ∈ [Authority.remote, .remoteLockout, .localPendant, .localHeld],
      ∀ c ∈ [Instr.keyTake, .keyGive, .keyKeep, .alive], Meets (held .cold a) fun s =>
      Memory.wf s.mem = true ∧ ∃ locked ∈ [false, true], ∃ new ∈ [Authority.remote, .remoteLockout,
        .localPendant, .localHeld], (c, s.line.auth, locked, new) ∈
        [ (Instr.keyTake, Authority.remote, false, Authority.localPendant),
          (.keyTake, .remoteLockout, true, .remoteLockout),
          (.keyTake, .localPendant, false, .localPendant), (.keyTake, .localHeld, false, .localHeld),
          (.keyGive, .remote, false, .remote), (.keyGive, .remoteLockout, false, .remoteLockout),
          (.keyGive, .localPendant, false, .remote), (.keyGive, .localHeld, false, .remote),
          (.keyKeep, .remote, true, .remote), (.keyKeep, .remoteLockout, true, .remoteLockout),
          (.keyKeep, .localPendant, false, .localHeld), (.keyKeep, .localHeld, false, .localHeld),
          (.alive, s.line.auth, false, s.line.auth) ])
    ∧ (lineIn .run).line.state = .run ∧ Memory.wf (lineIn .run).mem = true
    ∧ (lineIn .thread).line.state ≠ .run := by
  dsimp only [Meets]; decide +kernel

theorem witness_PendantLineAndJogKeys_line :
    (∀ p ∈ [(LineState.run, held .ready .remote), (.run, held .ready .remoteLockout),
        (.warm, { State.reset with line := { State.reset.line with auth := .localPendant } }),
        (.cold, held .halt .localPendant), (.warm, held .thread .localPendant),
        (.run, held .warm .localHeld), (.run, homing (held .ready .localPendant)),
        (.run, held .hold .localPendant), (.hold, held .ready .localPendant),
        (.thread, held .run .localPendant)], Meets p.2 fun s => Memory.wf s.mem = true
      ∧ (s.line.auth = .remote ∨ s.line.auth = .remoteLockout ∨ started s = false
        ∨ s.line.state = .halt
        ∨ (p.1 = .warm ∧ (s.line.state = .thread ∨ s.line.state = .run))
        ∨ (p.1 = .run ∧ (s.line.state = .cold ∨ s.line.state = .thread ∨ s.line.state = .warm))
        ∨ (p.1 = .run ∧ s.line.state = .ready ∧ s.reg.home.isSome = true)
        ∨ (p.1 = .run ∧ s.line.state = .hold
          ∧ (s.reg.home.isSome = true ∨ holdCauseLatched s = true ∨ runHeatTest s = false))
        ∨ (p.1 = .hold ∧ s.line.state ≠ .run ∧ s.line.state ≠ .hold)
        ∨ (p.1 = .thread ∧ (s.line.state = .run ∨ s.line.state = .hold))))
    ∧ (∀ l ∈ [LineState.run, .hold, .cold, .warm, .ready], ∀ a ∈ [Authority.localPendant, .localHeld],
      Meets (held l a) fun s => started s = true
      ∧ (s.line.auth = .localPendant ∨ s.line.auth = .localHeld) ∧ s.line.state = l)
    ∧ (Meets (zonesIn .settled 1985 (held .hold .localPendant)) fun s =>
      s.line.state = .hold ∧ holdCauseLatched s = false ∧ runHeatTest s = true ∧ s.reg.home = none)
    ∧ (Meets (held .thread .localPendant) fun s => s.line.state = .thread ∧ s.line.threadHeat = false)
    ∧ (Meets { held .thread .localPendant with
        line := { (held .thread .localPendant).line with threadHeat := true } } fun s =>
      s.line.state = .thread ∧ s.line.threadHeat = true ∧ 10000 < (lThread s).toInt) := by
  dsimp only [Meets]; decide +kernel

theorem witness_PendantLineAndJogKeys_jog :
    (∀ p ∈ [(Jog.fwd, held .cold .localPendant), (.fwd, held .thread .remote),
        (.rev, held .thread .remoteLockout), (.rev, setJog .fwd (held .thread .localPendant)),
        (.rev, holding [record 1 .onPaper] [] [] (held .thread .localPendant)),
        (.rev, updChannel 11 (fun c => { c with state := .counting }) (held .thread .localPendant))],
      Meets p.2 fun s => s.line.state ≠ .thread ∨ s.line.auth = .remote ∨ s.line.auth = .remoteLockout
      ∨ (s.line.jog ≠ .still ∧ s.line.jog ≠ p.1)
      ∨ (s.line.jog = .still ∧ p.1 = .rev ∧ (s.ord.panels ≠ [] ∨ s.reg.queue ≠ []
        ∨ s.pos.splices ≠ [] ∨ ∃ k : Fin 12, s.trig.channels[k].state = .counting)))
    ∧ (∀ j ∈ [Jog.fwd, .rev], ∀ a ∈ [Authority.localPendant, .localHeld],
      Meets (setJog j (held .thread a)) fun s => s.line.state = .thread
      ∧ (s.line.auth = .localPendant ∨ s.line.auth = .localHeld) ∧ s.line.jog = j)
    ∧ (Meets (held .thread .localHeld) fun s => s.line.state = .thread ∧ s.line.jog = .still
      ∧ s.ord.panels = [] ∧ s.reg.queue = [] ∧ s.pos.splices = []
      ∧ ∀ k : Fin 12, s.trig.channels[k].state ≠ .counting) := by
  dsimp only [Meets]; decide +kernel

theorem witness_EstopChain :
    alarmRec (alarmed .estop true true) .estop = ⟨true, true⟩
    ∧ (∀ s ∈ [lineIn .halt, lineIn .run, alarmed .estop true false (lineIn .halt)],
      alarmRec s .estop ≠ ⟨true, true⟩ ∧ Memory.wf s.mem = true) := by decide +kernel

/-- The watch of the wrap or of the link ends at 50, the clock standing at a value. -/
def watched (w : WrapState) (c : Word) : State :=
  clockAt c { wrapIn w with
    dose := { (wrapIn w).dose with watch := some 50 },
    line := { up.line with linkWatch := some 50 } }

theorem witness_Deadlines :
    (Meets (lockedFor 1999) fun s => s.line.lockedAt = some 0 ∧ (s.host.clock - 0).toNat < 2000)
    ∧ (Meets (lockedFor 2000) fun s => s.line.lockedAt = some 0 ∧ 2000 ≤ (s.host.clock - 0).toNat)
    ∧ (Meets (presentFor 500) fun s => s.line.pendant = .present
      ∧ 500 ≤ (s.host.clock - s.line.pendantAt).toNat)
    ∧ (Meets (presentFor 499) fun s => (s.host.clock - s.line.pendantAt).toNat < 500)
    ∧ up.line.pendant = .silent
    ∧ (∀ w ∈ [WrapState.closing, .opening], Meets (watched w 50) fun s => s.dose.wrap = w
      ∧ s.line.linkWatch = some 50 ∧ s.dose.watch = some 50 ∧ 0 ≤ sdiff s.host.clock 50)
    ∧ (Meets (watched .closing 49) fun s => s.line.linkWatch = some 50 ∧ s.dose.watch = some 50
      ∧ sdiff s.host.clock 50 < 0)
    ∧ (watched .opened 60).dose.wrap = .opened ∧ (watched .closed 60).dose.wrap = .closed
    ∧ (Meets (pulsing 80) fun s => s.trig.latches[(1 : Fin 8)].pulseEnd = some 80
      ∧ 0 ≤ sdiff s.host.clock 80)
    ∧ (Meets (pulsing 81) fun s => s.trig.latches[(1 : Fin 8)].pulseEnd = some 81
      ∧ sdiff s.host.clock 81 < 0)
    ∧ (Meets (heaterOn 314) fun s => s.heat.zones[(2 : Fin 8)].heater = true
      ∧ s.heat.zones[(2 : Fin 8)].onEnd = some 314 ∧ 0 ≤ sdiff s.host.clock 314)
    ∧ (Meets (heaterOn 315) fun s => s.heat.zones[(2 : Fin 8)].onEnd = some 315
      ∧ sdiff s.host.clock 315 < 0)
    ∧ up.heat.zones[(7 : Fin 8)].heater = false := by dsimp only [Meets]; decide +kernel

theorem witness_DriveLink :
    (∀ p ∈ [(WrapState.closing, WrapReport.closed), (.opening, .opened)],
      (wrapIn p.1).dose.wrap = p.1 ∧ ((p.1 = .closing ∧ p.2 = .closed) ∨ (p.1 = .opening ∧ p.2 = .opened)))
    ∧ (∀ w ∈ [WrapReport.opened, .moving], printable.dose.wrap = .closed ∧ w ≠ .closed)
    ∧ { up.line with link := .lost }.link = .lost
    ∧ alarmRec up .driveFault ≠ ⟨true, true⟩ := by decide +kernel

/-- Record 8 PRINTING as copy 2 of an order whose copy 2 has met some faults. -/
def faulted (n : Nat) (cancel : Bool) (other : CopyPlace) (es : List Entry) : State :=
  holding [{ record 8 .printing with copy := 2 }]
    [{ order [⟨other, 0⟩, ⟨.printed, n⟩] with cancel := cancel }] es

theorem witness_PrintLink :
    (findPanel 8 up = none ∧ findPanel 8 (holding [record 8 .onPaper] [] []) = some (record 8 .onPaper))
    ∧ (∀ n ∈ [0, 1, 2], ∀ es ∈ [[], [(⟨20, 0, 3, [1]⟩ : Entry)]], Meets (faulted n false .printed es)
      fun s => findPanel 8 s = some { record 8 .printing with copy := 2 }
      ∧ findOrder 20 s = some (order [⟨.printed, 0⟩, ⟨.printed, n⟩]) ∧ s.line.state ≠ .run)
    ∧ (∀ other ∈ [CopyPlace.printed, .settled], Meets (faulted 0 true other []) fun s =>
      findPanel 8 s = some { record 8 .printing with copy := 2 } ∧ Memory.wf s.mem = true
      ∧ findOrder 20 s = some { order [⟨other, 0⟩, ⟨.printed, 0⟩] with cancel := true }
      ∧ s.line.state ≠ .run)
    ∧ (∀ l ∈ [LineState.cold, .run], Meets (lineIn l) fun s => s.line.state ≠ .warm
      ∧ s.line.state ≠ .ready ∧ s.ord.entries = [])
    ∧ ((lineIn .warm).line.state = .warm ∧ (lineIn .ready).line.state = .ready) := by
  dsimp only [Meets]; decide +kernel

/-- The readings of 9.9 at both ends of panel 70's strip window, and one outside it. -/
theorem witness_ReadingIsCredited :
    (∃ matched : Panel → Prop, ∀ p, matched p ↔ p.state ≠ .void ∧ checkPresent judged p.profile = true
      ∧ ∃ f, p.fLead = some f ∧ 0 ≤ sdiff ((4064400 : Word) - 45000) (f + BitVec.ofNat 32 p.length - 600)
      ∧ sdiff ((4064400 : Word) - 45000) (f + BitVec.ofNat 32 p.length) < 0)
    ∧ (∀ n ∈ [4064400, 4064999], ∀ p ∈ judged.ord.panels, p.state ≠ .void
      ∧ checkPresent judged p.profile = true ∧ p.fLead = some 4000000
      ∧ 0 ≤ sdiff (BitVec.ofNat 32 n - 45000) (4000000 + BitVec.ofNat 32 p.length - 600)
      ∧ sdiff (BitVec.ofNat 32 n - 45000) (4000000 + BitVec.ofNat 32 p.length) < 0)
    ∧ judged.ord.panels.length = 1 ∧ (3000 : Half).toNat ≤ 3000 ∧ 3000 < (3001 : Half).toNat
    ∧ up.ord.panels = [] := by
  refine ⟨⟨_, fun p => Iff.rfl⟩, ?_⟩
  decide +kernel

theorem witness_VerdictFindings :
    (∃ (v : Verdict) (judgedProp : Prop) (dev : Nat → Int), v = verdictOf judged (record 70 .finished)
      ∧ (judgedProp ↔ (record 70 .finished).state = .finished
        ∧ checkPresent judged (record 70 .finished).profile = true ∧ 0 < (record 70 .finished).readings)
      ∧ ∀ c, dev c = ((([0, 0, 0, 0].getD c 0) / 0 : Nat) : Int) - (expected judged 0 c : Int))
    ∧ (∀ p ∈ judged.ord.panels, p.state = .finished ∧ checkPresent judged p.profile = true
      ∧ 0 < p.readings)
    ∧ (record 70 .finished).readings = 0 :=
  ⟨⟨_, _, _, rfl, Iff.rfl, fun _ => rfl⟩, by decide +kernel, rfl⟩

/-- Splice records, the oldest first. -/
def spliced (l : List Splice) (s : State := up) : State := { s with pos := { s.pos with splices := l } }

/-- Panel 31 on paper, its window 27500..28500 by U, and no piece (5.4). -/
def onPaper : State := holding [record 31 .onPaper] [] []

theorem witness_Sightings :
    Memory.wf up.mem = true
    ∧ (setJog .rev (lineIn .thread)).line.jog = .rev ∧ up.line.jog ≠ .rev
    ∧ (∀ l ∈ [[], List.replicate 7 (⟨.paper, 1, none⟩ : Splice)], (spliced l).pos.splices.length < 8)
    ∧ (∃ r rest, (spliced (List.replicate 8 ⟨.fabric, 5, some 30005⟩)).pos.splices = r :: rest
      ∧ rest.length = 7)
    ∧ (up.line.state ≠ .warm ∧ up.line.state ≠ .ready ∧ up.line.marks = false)
    ∧ (∀ q ∈ [[], List.replicate 7 (⟨5, false, false⟩ : Piece)],
      Meets { loaded 12 with reg := { up.reg with queue := q } } fun s =>
      s.line.marks = true ∧ s.reg.queue.length < 8 ∧ s.reg.list = [])
    ∧ (∀ l ∈ [LineState.cold, .run],
      Meets { loaded 12 (lineIn l) with reg := { up.reg with queue := List.replicate 8 ⟨5, false, false⟩ } }
      fun s => s.line.marks = true ∧ 8 ≤ s.reg.queue.length ∧ alarmRec s .pieceOverflow ≠ ⟨true, true⟩)
    ∧ (∀ u ∈ [27499, 28501], ∀ p ∈ onPaper.ord.panels, p.state = .onPaper
      ∧ (sdiff (BitVec.ofNat 32 u) (p.sLead + 27500) < 0 ∨ 0 < sdiff (BitVec.ofNat 32 u) (p.sLead + 28500)))
    ∧ (∀ u ∈ [27500, 28500], ∃ p ∈ onPaper.ord.panels, onPaper.ord.panels = [p] ∧ p.state = .onPaper
      ∧ p.matched = false ∧ p.piece = none ∧ onPaper.reg.list = []
      ∧ 0 ≤ sdiff (BitVec.ofNat 32 u) (p.sLead + 27500)
      ∧ sdiff (BitVec.ofNat 32 u) (p.sLead + 28500) ≤ 0) := by
  refine ⟨by decide +kernel, by decide +kernel, by decide +kernel, by decide +kernel,
    ⟨_, _, rfl, rfl⟩, ?_⟩
  dsimp only [Meets]
  and_intros <;> decide +kernel

theorem witness_ChannelSteps :
    (∃ (stepped : Channel → Channel) (fires : Channel → Bool),
      (∀ ch, fires ch = true ↔ ch.state = .counting ∧ ch.remaining ≤ 1 ∧ ch.ahead = false)
      ∧ (∀ ch, stepped ch =
        if ch.ahead = true then { ch with ahead := false }
        else if ch.state = .counting then
          (if 1 < ch.remaining then { ch with remaining := ch.remaining - 1 }
          else if ch.mode = .repeating then { ch with remaining := ch.reload }
          else { ch with state := .fired, remaining := 0 })
        else ch)
      ∧ fires up.trig.channels[(2 : Fin 12)] = false
      ∧ fires (updChannel 2 (fun c => { c with state := .counting, remaining := 1 }) up).trig.channels[(2 : Fin 12)]
        = true
      ∧ fires cutting.trig.channels[(1 : Fin 12)] = true)
    ∧ (cutting.trig.cuts = 2072250 :: [2077250] ∧ cutting.trig.channels[(1 : Fin 12)].source = .drum
      ∧ cutting.trig.channels[(1 : Fin 12)].mode = .oneShot)
    ∧ (setCuts [2072250] cutting).trig.cuts = 2072250 :: []
    ∧ (up.trig.latches[(0 : Fin 8)].source = some 0 ∧ up.trig.latches[(7 : Fin 8)].source = none)
    ∧ (updLatch 7 (fun l => { l with source := some 11 }) up).trig.latches[(7 : Fin 8)].source = some 11 := by
  refine ⟨⟨_, fun ch => ch.state == .counting && decide (ch.remaining ≤ 1) && !ch.ahead, ?_,
    fun ch => rfl, ?_⟩, by decide +kernel⟩
  · intro ch
    simp [and_assoc]
  · decide +kernel

/-- The marker counting while a verdict is due, and the knife at its fire with and without a next cut. -/
theorem witness_ChannelSteps_markerKnife :
    (updChannel 0 (fun c => { c with state := .counting, remaining := 1 })
      (atX 4065099 judged)).trig.channels[(0 : Fin 12)].state = .counting
    ∧ cutting.ord.panels = [] ∧ cutting.trig.cuts.tail.head? = some 2077250
    ∧ (setCuts [2072250] cutting).trig.cuts.tail = [] ∧ (setCuts [2072250] cutting).ord.panels = []
    ∧ cutting.trig.latches[(1 : Fin 8)].source = some 1 := by decide +kernel

/-- Panel 31 staged with x_p 1,018,250 and the roller at +40: it arrives at the step to 1,030,290 (5.9). -/
def arriving (st : PanelState) (tr : Option Travel) (x : Word) : State :=
  holding [{ record 31 st with travel := tr, xp := some 1018250, piece := some 1000000, offset := -250 }]
    [] [] { up with
      pos := { up.pos with x := x, phase := 289 },
      reg := { up.reg with list := [31], position := 40, target := 40 } }

theorem witness_NipArrival :
    ∀ q ∈ [(PanelState.staged, none), (.void, some Travel.staged)],
      ∃ p ∈ (arriving q.1 q.2 1030289).ord.panels, Meets (arriving q.1 q.2 1030289) fun s =>
        s.ord.panels = [p] ∧ s.reg.list = [p.number] ∧ s.reg.queue = [] ∧ p.fLead = none
        ∧ (p.state = .staged ∨ (p.state = .void ∧ p.travel = some .staged)) ∧ p.xp = some 1018250
        ∧ 1 ≤ p.length ∧ p.length ≤ 60000 ∧ s.pos.phase ≠ 999
        ∧ 0 ≤ sdiff (s.pos.x + 1) (1018250 + 12000 + intWord s.reg.position) := by
  dsimp only [Meets]; decide +kernel

/-- Panel 31 and the roller at `from_`, with target −600 and x_p 1000, at a step that brings X to 13000, the
first multiple past the tail cell; a home request or none. -/
def crossing (st : PanelState) (tr : Option Travel) (from_ : Int) (home : Option Nat) : State :=
  holding [{ record 31 st with travel := tr, xp := some 1000, piece := some 30000, offset := -250 }]
    [] [] { up with
      pos := { up.pos with x := 12999, phase := 999 },
      dose := { up.dose with cells := blankCells 12000 },
      reg := { up.reg with
        list := [31], position := from_, target := if home.isSome then 0 else -600, home := home } }

theorem witness_NipArrival_crossing :
    ∀ q ∈ [(PanelState.staged, none), (.void, some Travel.staged)],
      ∀ r ∈ [((0 : Int), none, (-20 : Int)), (20, some 1, 0), (-20, some 1, 0)],
      Meets (crossing q.1 q.2 r.1 r.2.1) fun s =>
        s.ord.panels = [{ record 31 q.1 with
          travel := q.2, xp := some 1000, piece := some 30000, offset := -250 }]
        ∧ s.reg.list = [31] ∧ s.reg.queue = [] ∧ s.pos.phase = 999 ∧ Memory.wf s.mem = true
        ∧ r.2.2 = s.reg.position + max (-20) (min 20 (s.reg.target - s.reg.position))
        ∧ (s.dose.cells.head?.any fun c => s.pos.x + 1 == c.xc + 1000) = true
        ∧ (s.dose.cells.getLast?.all fun c => c.panel != some 31) = true
        ∧ 0 ≤ sdiff (s.pos.x + 1) (1000 + 12000 + intWord r.2.2) := by
  dsimp only [Meets]; decide +kernel

/-- R87, R89, R116: the roller moves to −20 first, the error is −20 + 250, and the new tail cell at 13000
names panel 31, but not a VOID one; a roller that moves from 21 to 1 leaves the panel one count short of
its arrival. -/
theorem test_arrival_crossing :
    ((run (.drumStep .forward) (crossing .staged none 0 none)).ord.panels.map
      fun p => (p.fLead, p.regError)) = [(some 13000, some 230)]
    ∧ ((run (.drumStep .forward) (crossing .staged none 0 none)).dose.cells.head?.map
      fun c => (c.xc, c.panel)) = some (13000, some 31)
    ∧ ((run (.drumStep .forward) (crossing .void (some .staged) 0 none)).dose.cells.head?.map
      (·.panel)) = some none
    ∧ ((run (.drumStep .forward) (crossing .staged none 21 none)).ord.panels.map (·.fLead)) = [none] := by
  decide +kernel

/-- 5.9: at that step panel 31 takes f_lead 1,030,290 and registration error 40 + 250. -/
theorem test_arrival : ((run (.drumStep .forward) (arriving .staged none 1030289)).ord.panels.map
      fun p => (p.fLead, p.regError)) = [(some 1030290, some 290)]
    ∧ ((run (.drumStep .forward) (arriving .staged none 1030288)).ord.panels.map (·.fLead)) = [none] := by
  decide +kernel

/-- The line in a state with S and U. -/
def stored (l : LineState) (sc uc : Word) : State :=
  { lineIn l with pos := { up.pos with s := sc, u := uc } }

/-- Each line state with the store level after a step at 10001, 10000, 3001 and 3000, its alarms held and
not, a pending splice, and a record on paper on both sides of its marks. -/
theorem witness_PaperSteps :
    (∀ l ∈ [LineState.cold, .thread, .warm, .ready, .run, .hold, .halt], ∀ e ∈ [false, true],
      ∀ q ∈ [(70000, (10001 : Int)), (69999, 10000), (63000, 3001), (62999, 3000)],
      Meets (alarmed .storeLow e e (alarmed .storeEmpty e e (stored l (BitVec.ofNat 32 q.1) 0))) fun s =>
      (Instr.printStep .forward, (1 : Word), (0 : Word)) ∈
        [ (Instr.printStep .forward, (1 : Word), (0 : Word)), (.printStep .reverse, -1, 0),
          (.storeExitStep .forward, 0, 1), (.storeExitStep .reverse, 0, -1) ]
      ∧ q.2 = sdiff (s.pos.s + 1 - (s.pos.u + 0)) 60000 ∧ s.ord.panels = [] ∧ s.ord.entries = []
      ∧ s.line.state = l ∧ (alarmRec s .storeEmpty = ⟨true, true⟩ ↔ e = true)
      ∧ (alarmRec s .storeLow = ⟨true, true⟩ ↔ e = true))
    ∧ (spliced [⟨.paper, 2, none⟩]).pos.splices = [{ web := .paper, seen := 2, arrival := none }]
    ∧ (∀ u ∈ [27999, 28500], Meets { onPaper with pos := { up.pos with u := BitVec.ofNat 32 u } } fun s =>
      ∃ p ∈ s.ord.panels, s.ord.panels = [p] ∧ p.state = .onPaper ∧ p.matched = false ∧ p.piece = none
      ∧ s.reg.list = [] ∧ ∀ k ∈ s.dose.cells, k.panel ≠ some p.number) := by
  dsimp only [Meets]
  and_intros <;> decide +kernel

/-- Panel 70 and an order, with a cut list. -/
def settling (cuts : List Word) (o : OpenOrder) : State :=
  setCuts cuts { judged with ord := { judged.ord with orders := [o], entries := [] } }

/-- An order that asks for a cut after its last copy, and one that does not. -/
def cutOrder (cut : Bool) (others : List Copy) : OpenOrder :=
  { order (⟨.printed, 0⟩ :: others) with cutLast := cut }

/-- Panel 70's drift, mark and settled place: the only copy, one of two with the other waiting, and one of
eight. -/
theorem witness_VerdictEvent :
    (∀ p ∈ judged.ord.panels, p.state = .finished ∧ checkPresent judged p.profile = true
      ∧ 0 < p.readings ∧ driftEnable judged p.profile = true ∧ ¬ (p.doseMin < dMin judged p.profile)
      ∧ ¬ (dMax judged p.profile < p.doseMax) ∧ p.interrupted = false ∧ p.overheat = false)
    ∧ (record 1 .void).state ≠ .finished
    ∧ (∀ p ∈ judged.ord.panels, (verdictOf judged p).reject = true ∧ p.rejectMark = true)
    ∧ (judged.line.jog ≠ .rev ∧ judged.trig.channels[(0 : Fin 12)].state ≠ .counting)
    ∧ (Meets (updChannel 0 (fun c => { c with state := .counting, remaining := 5 }) judged) fun s =>
      s.trig.channels[(0 : Fin 12)].state = .counting ∧ s.line.jog ≠ .rev ∧ Memory.wf s.mem = true)
    ∧ (∀ cs ∈ [[(⟨.printed, 0⟩ : Copy)], [⟨.printed, 0⟩, ⟨.waiting, 0⟩],
        ⟨.printed, 1⟩ :: List.replicate 7 ⟨.cancelled, 0⟩],
      ∀ p ∈ judged.ord.panels, Meets { judged with ord := { judged.ord with orders := [order cs], entries := [] } }
      fun s => findPanel p.number s = some p ∧ findOrder p.ticket s = some (order cs)
      ∧ s.ord.entries = [] ∧ 1 ≤ p.ticket ∧ p.ticket ≤ 256 ∧ 1 ≤ p.copy
      ∧ p.copy ≤ (order cs).copies.length ∧ (order cs).copies.length ≤ 8 ∧ Memory.wf s.mem = true) := by
  dsimp only [Meets]
  and_intros <;> decide +kernel

/-- The cut of panel 70, 250 past its tail at the knife: asked for and not, with a full list, an empty one,
and one that holds an earlier and a later cut, the knife channel waiting and counting. -/
theorem witness_VerdictEvent_cut :
    (∀ b : Bool, ∀ (p : Panel) (o : OpenOrder), ∃ last : Prop, (last ↔ o.cutLast = b ∧ ∀ k c,
      o.copies[k]? = some c → k ≠ p.copy - 1 → c.place ≠ .waiting ∧ c.place ≠ .printed))
    ∧ (∀ q ∈ [(true, ([] : List Copy), true), (true, [⟨.settled, 0⟩, ⟨.cancelled, 0⟩], true),
        (true, [⟨.waiting, 0⟩], false), (true, [⟨.printed, 0⟩], false), (false, [], false)],
      ∀ p ∈ judged.ord.panels, (q.2.2 = true ↔ (cutOrder q.1 q.2.1).cutLast = true ∧ ∀ k < 8,
        ∀ c ∈ (cutOrder q.1 q.2.1).copies[k]?.toList, k ≠ p.copy - 1 →
          c.place ≠ .waiting ∧ c.place ≠ .printed))
    ∧ (∀ cuts ∈ [[], [(4072249 : Word), 4072251], List.replicate 3 4072250, List.replicate 4 4072250],
      ∀ st ∈ [ChanState.idle, .counting], ∀ p ∈ judged.ord.panels,
      Meets (updChannel 1 (fun c => { c with state := st }) (settling cuts (cutOrder true []))) fun s =>
      findOrder p.ticket s = some (cutOrder true []) ∧ 1 ≤ p.copy ∧ s.line.jog ≠ .rev
      ∧ p.fLead.getD 0 + BitVec.ofNat 32 p.length + 250 + 52000 = 4072250
      ∧ s.trig.cuts = cuts ∧ Memory.wf s.mem = true ∧ s.trig.channels[(1 : Fin 12)].state = st) := by
  refine ⟨fun _ _ _ => ⟨_, Iff.rfl⟩, ?_⟩
  dsimp only [Meets]
  and_intros <;> decide +kernel

/-- The drum step that brings X to 4,065,100, panel 70 FINISHED and final void, with the last copy and one
of two, a cut asked for and not; no auto-zero runs, so `AutoZeroLaw` holds. -/
theorem witness_VerdictEvent_step :
    ∀ q ∈ [(true, ([] : List Copy)), (false, []), (true, [⟨.waiting, 0⟩])],
      ∀ v ∈ [(PanelState.finished, (none : Option Travel)), (.void, some Travel.fabric)],
      Meets (holding [{ record 70 v.1 with
          fLead := some 4000000, rejectMark := true, finalVoid := true, travel := v.2, readings := 4 }]
        [cutOrder q.1 q.2] [] (atX 4065099 (profiled 1 20))) fun s =>
      ∃ p ∈ s.ord.panels, s.ord.panels = [p] ∧ findOrder p.ticket s = some (cutOrder q.1 q.2)
      ∧ p.fLead = some 4000000 ∧ s.pos.x + 1 = 4000000 + BitVec.ofNat 32 (p.length + 45100)
      ∧ (p.state = .finished ∨ (p.state = .void ∧ p.travel = some .fabric ∧ p.finalVoid = true))
      ∧ s.reg.list = [] ∧ s.reg.home = none ∧ (∀ c ∈ s.dose.cells, c.panel ≠ some p.number)
      ∧ 1 ≤ p.ticket ∧ p.ticket ≤ 256 ∧ 1 ≤ p.copy ∧ p.copy ≤ (cutOrder q.1 q.2).copies.length
      ∧ (cutOrder q.1 q.2).copies.length ≤ 8 ∧ 1 ≤ p.length ∧ p.length ≤ 60000
      ∧ Memory.wf s.mem = true ∧ s.line.jog ≠ .rev ∧ s.tens.zones.toList.all (·.auto.isNone) = true
      ∧ (verdictOf s p).reject = true ∧ p.rejectMark = true
      ∧ s.trig.channels[(0 : Fin 12)].state ≠ .counting ∧ s.trig.cuts = []
      ∧ s.trig.channels[(1 : Fin 12)].state ≠ .counting ∧ s.ord.entries = [] := by
  dsimp only [Meets]
  decide +kernel

/-- Used temperature 1850 gives rate 20, 1700 rate 0 and so a starved run. -/
theorem witness_DoseInterval :
    started State.reset = false ∧ started (governedBy 1985) = true
    ∧ (∃ G : Panel → Prop, (∀ p, G p ↔ p ∈ (governedBy 1985).ord.panels ∧ ((p.state = .onFabric
          ∧ ∃ c ∈ (governedBy 1985).dose.cells, c.panel = some p.number)
        ∨ (p.state = .staged ∧ ∃ xp, p.xp = some xp ∧ 0 ≤ sdiff ((governedBy 1985).pos.x + 30000)
          (xp + 12000 + intWord (governedBy 1985).reg.position)))))
    ∧ (∀ p ∈ (governedBy 1985).ord.panels, p.state = .onFabric
      ∧ ∃ c ∈ (governedBy 1985).dose.cells, c.panel = some p.number)
    ∧ up.ord.panels = []
    ∧ (Meets (governedBy 1700) fun s => (run .doseInterval s).dose.sTarget < 20 ∧ s.line.state = .run
      ∧ s.dose.wrap = .closed ∧ alarmRec s .heatStarved ≠ ⟨true, true⟩)
    ∧ 20 ≤ (run .doseInterval (governedBy 1985)).dose.sTarget
    ∧ (∀ p ∈ (governedBy 1985).ord.panels, 30000 * rateOf (governedBy 1985) p
        / (dEff (governedBy 1985) p.profile).toNat = (run .doseInterval (governedBy 1985)).dose.sTarget)
    ∧ (governedBy 1985).ord.panels.length = 1 ∧ (Machine.sdiff 0 0).natAbs < 1000000000
    ∧ (∀ p ∈ (governedBy 2150).ord.panels, 30000 * rateOf (governedBy 2150) p
        / (dEff (governedBy 2150) p.profile).toNat ≠ (run .doseInterval (governedBy 2150)).dose.sTarget)
    ∧ (Meets { governedBy 1700 with line := (lineIn .hold).line } fun s =>
      (run .doseInterval s).dose.sTarget < 20 ∧ s.line.state ≠ .run) := by
  refine ⟨by decide +kernel, by decide +kernel, ⟨_, fun p => Iff.rfl⟩, ?_⟩
  dsimp only [Meets]
  and_intros <;> decide +kernel

/-- The curve of 7.7 with the used temperature below it, at its first knot, between two knots, and from its
last knot on. -/
theorem witness_DoseInterval_rate : ∀ q ∈ [(1699, 0), (1700, 1), (1799, 1), (1985, 1), (2200, 2), (2500, 2)],
    Meets (governedBy q.1) fun s => ∀ p ∈ s.ord.panels, p.laneStart < p.laneEnd ∧ p.laneEnd ≤ 3200
      ∧ (∀ k, k < 7 → knotT s p.profile k < knotT s p.profile (k + 1)
        ∧ knotR s p.profile k ≤ knotR s p.profile (k + 1))
      ∧ (tEff s p < knotT s p.profile 0 ↔ q.2 = 0) ∧ (knotT s p.profile 7 ≤ tEff s p ↔ q.2 = 2)
      ∧ ((∃ k, k < 7 ∧ knotT s p.profile k ≤ tEff s p ∧ tEff s p < knotT s p.profile (k + 1)) ↔ q.2 = 1) := by
  dsimp only [Meets]
  decide +kernel

/-- The ages 20 and 21, the cut temperature and 50 below it, and each zone state. -/
theorem witness_HeatInterval :
    (∃ (age T : Fin 8 → Nat) (e : Fin 8 → Int),
      (∀ k, age k = min 255 ((zoneReading failing k).age + 1)) ∧ (∀ k, T k = (zoneReading failing k).value)
      ∧ ∀ k, e k = zoneSetpoint failing k - (T k : Int))
    ∧ (failing.line.heat = true ∧ up.line.heat = false)
    ∧ (Meets failing fun s => 20 < min 255 ((zoneReading s 3).age + 1)
      ∧ min 255 ((zoneReading s 2).age + 1) ≤ 20 ∧ min 255 ((zoneReading s 4).age + 1) ≤ 20
      ∧ (zoneReading s 2).value ≤ (zoneReading s 4).value)
    ∧ (Meets { failing with heat := { failing.heat with readings := Vector.replicate 10 ⟨1990, false, 255⟩ } }
      fun s => ∀ j : Fin 8, 20 < min 255 ((zoneReading s j).age + 1))
    ∧ (Meets (heating 2400 0 0) fun s => s.line.heat = true ∧ s.heat.zones[(2 : Fin 8)].state ≠ .cut
      ∧ tCut s ≤ (zoneReading s 2).value)
    ∧ (∀ t ∈ [2349, 2350], Meets { heating t 0 0 with
        heat := { (heating t 0 0).heat with zones := Vector.replicate 8 { Zone.reset with state := .cut } } }
      fun s => s.heat.zones[(2 : Fin 8)].state = .cut
      ∧ (if t = 2349 then (zoneReading s 2).value + 50 < tCut s else tCut s ≤ (zoneReading s 2).value + 50))
    ∧ (Meets (heating 1990 125 425) fun s => s.heat.zones[(2 : Fin 8)].state ≠ .cut
      ∧ (zoneReading s 2).value < tCut s ∧ s.heat.zones[(0 : Fin 8)].state = .off)
    ∧ (Meets failing fun s => s.line.heat = true ∧ s.line.state = .run
      ∧ (∀ k : Fin 8, (run .heatInterval s).heat.zones[k].state ≠ .cut))
    ∧ (∀ k : Fin 8, (run .heatInterval (heating 1990 125 425)).heat.zones[k].state ≠ .lost)
    ∧ ((heating 1990 125 425).line.state = .warm ∧ (heating 1990 125 425).line.heat = true)
    ∧ (Meets failing fun s => 20 < min 255 ((zoneReading s 3).age + 1) ∧ s.heat.zones[(3 : Fin 8)].state ≠ .lost
      ∧ ∀ j k : Fin 8, k.val = j.val + 1 → (run .heatInterval s).heat.zones[j].state ≠ .lost
        ∨ (run .heatInterval s).heat.zones[k].state ≠ .lost)
    ∧ (Meets (lineIn .warm { failing with
        heat := { failing.heat with readings := Vector.replicate 10 ⟨1990, false, 255⟩ } }) fun s =>
      s.line.heat = true ∧ ∀ j k : Fin 8, k.val = j.val + 1 →
        (run .heatInterval s).heat.zones[j].state = .lost
        ∧ (run .heatInterval s).heat.zones[k].state = .lost) := by
  refine ⟨⟨_, _, _, fun k => rfl, fun k => rfl, fun k => rfl⟩, ?_⟩
  dsimp only [Meets]
  and_intros <;> decide +kernel

/-- In RUN, a zone left HEATING takes the line to HOLD, whichever of the two tests comes first (log 17). -/
theorem witness_HeatInterval_leaves_run : Meets { heating 1500 0 0 with line := (lineIn .run).line } fun s =>
    s.line.heat = true ∧ s.line.state = .run
    ∧ ((run .heatInterval s).heat.zones.any fun z => z.state == .heating) = true := by
  dsimp only [Meets]
  refine ⟨by decide, by decide, ?_⟩
  simp only [run, after, exec, execHeatInterval, answer, heatStep, judgeZones]
  generalize Config.firstOfTwo _ = b
  cases b <;> decide +kernel

/-- The pass position at reset names channel 0. -/
theorem witness_HeaterScannerPictureAndClock_scanner :
    ∃ c, up.heat.scan[up.heat.pass]? = some c := ⟨0, by decide +kernel⟩

theorem witness_TensionSample :
    (∃ step : Nat → Nat → Nat → Nat, ∀ w g d, step w g d = if w ≤ g then min g (w + d) else max g (w - d))
    ∧ (started State.reset = false ∧ up.line.state = .cold)
    ∧ (Meets (lineIn .run) fun s => started s = true ∧ s.line.state ≠ .cold ∧ s.tens.nip = none)
    ∧ (∃ n tp, Meets (tapering 1150) fun s => s.tens.nip = some n ∧ n.fabricOut = some tp
      ∧ n.paperOut = none ∧ tp.dc ≤ tp.df)
    ∧ (∀ z : Fin 4, Meets (lineIn .run) fun s => s.tens.zones[z].l.lost = false
      ∧ s.tens.zones[z].r.lost = false ∧ s.tens.zones[z].mix = .both ∧ s.tens.zones[z].auto = none
      ∧ s.tens.zones[z].lost = false)
    ∧ (1 ≤ (1 : Half).toNat ∧ (32766 : Half).toNat ≤ 32766) := by
  refine ⟨⟨_, fun w g d => rfl⟩, by decide +kernel, by decide +kernel,
    ⟨⟨#v[3600, 6000, 1000, 1000], some ⟨300, 150, 1150⟩, none⟩, ⟨300, 150, 1150⟩, by decide +kernel⟩, ?_⟩
  dsimp only [Meets]
  decide +kernel

/-- A zone in each single mode with its cell healthy and the other at a rail; and an auto-zero whose cell
becomes lost at the sample. -/
theorem witness_TensionSample_cells :
    (∀ m ∈ [MixMode.leftOnly, .rightOnly], Meets (updTension 1 (fun t => { t with mix := m }) (lineIn .run))
      fun s => s.tens.zones[(1 : Fin 4)].auto = none ∧ s.tens.zones[(1 : Fin 4)].mix = m
      ∧ s.tens.zones[(1 : Fin 4)].l.lost = false ∧ s.tens.zones[(1 : Fin 4)].r.lost = false)
    ∧ (Meets (updTension 2 (fun t => { t with l := { t.l with run := 9 } }) zeroing) fun s =>
      (∃ a ∈ s.tens.zones[(2 : Fin 4)].auto.toList, Side.left ∈ a.cells ∧ 1 ≤ a.ticket ∧ a.ticket ≤ 256)
      ∧ (∀ y : Fin 4, y ≠ 2 → s.tens.zones[y].auto = none) ∧ Memory.wf s.mem = true
      ∧ (s.tens.zones[(2 : Fin 4)].cell .left).lost = false
      ∧ ((run (.tensionSample ⟨9, 9⟩ ⟨9, 9⟩ ⟨0, 9⟩ ⟨9, 9⟩) s).tens.zones[(2 : Fin 4)].cell .left).lost = true) := by
  dsimp only [Meets]
  decide +kernel

theorem witness_HeaterScannerPictureAndClock_picture : Memory.wf (join 0x5000 [1, 1] up).mem = true := by decide +kernel

/-- An auto-zero of zone 2 in COLD: the cell in work with its zero, mode, pace count and steps. -/
def stepping (cells : List Side) (work : Side) (m : DoneMode) (zero : Int) (paceCount steps : Nat) : State :=
  updTension 2 (fun t => { t with
    l := { t.l with zero := zero }, r := { t.r with zero := zero },
    auto := some { ticket := 256, step := 4, pace := 2, mode := m, cells := cells, work := work,
                   savedL := 0, savedR := 0, steps := steps, paceCount := paceCount, sign := 1,
                   total := 7 } }) up

/-- One auto-zero sample: before its pace, done with one cell and with the last, moving to the ends of the
range, and failing past 512 steps and past the range. -/
theorem witness_TensionSample_autoZero :
    ∀ q ∈ [ (stepping [.left] .left .cross 0 0 0, 37, false, 4),
        (stepping [.left] .left .cross 37 1 0, 37, true, 33),
        (stepping [.left, .right] .left .meet 34 1 511, 37, true, 38),
        (stepping [.left, .right] .right .cross 40 1 9, 37, true, 36),
        (stepping [.right] .right .cross 4092 1 511, 4100, false, 4096),
        (stepping [.right] .right .meet 4093 1 3, 4100, false, 4097),
        (stepping [.left] .left .cross 0 1 512, 37, false, 4) ],
      Meets q.1 fun s => ∃ a ∈ s.tens.zones[(2 : Fin 4)].auto.toList,
        s.tens.zones[(2 : Fin 4)].auto = some a ∧ (∀ y : Fin 4, y ≠ 2 → s.tens.zones[y].auto = none)
        ∧ s.line.state = .cold ∧ Memory.wf s.mem = true ∧ 1 ≤ a.ticket ∧ a.ticket ≤ 256
        ∧ (Meets (run (.tensionSample ⟨9, 9⟩ ⟨9, 9⟩ ⟨BitVec.ofNat 16 q.2.1, BitVec.ofNat 16 q.2.1⟩ ⟨9, 9⟩) s)
          fun t => t.line.state = s.line.state
            ∧ ∀ sd ∈ [Side.left, .right], (t.tens.zones[(2 : Fin 4)].cell sd).lost = false)
        ∧ (q.2.2.1 = true ↔
          (a.mode = .cross ∧ ((q.2.1 : Int) - (s.tens.zones[(2 : Fin 4)].cell a.work).zero = 0
            ∨ ((q.2.1 : Int) - (s.tens.zones[(2 : Fin 4)].cell a.work).zero).sign ≠ a.sign))
          ∨ (a.mode = .meet ∧ ((q.2.1 : Int) - (s.tens.zones[(2 : Fin 4)].cell a.work).zero).natAbs < a.step))
        ∧ q.2.2.2 = (s.tens.zones[(2 : Fin 4)].cell a.work).zero
          + (if 0 < (q.2.1 : Int) - (s.tens.zones[(2 : Fin 4)].cell a.work).zero then (a.step : Int)
            else -(a.step : Int)) := by
  dsimp only [Meets]
  decide +kernel

/-- Every tension zone changed alike. -/
def sampling (f : TensionZone → TensionZone) (s : State) : State :=
  { s with tens := { s.tens with zones := s.tens.zones.map f } }

/-- Every zone sampled with the same pair of raw values. -/
def sample (l r : Half) : Instr := .tensionSample ⟨l, r⟩ ⟨l, r⟩ ⟨l, r⟩ ⟨l, r⟩

/-- Working at 1000, with counts and cells as given. -/
def guardAt (breaks skews runL : Nat) (lostL : Bool) (t : TensionZone) : TensionZone :=
  { t with working := 1000, target := 1000, rampDone := true, breakCount := breaks, skewCount := skews,
           l := { t.l with run := runL, lost := lostL } }

/-- A run count at 0, 8 and 9 with the raw value speaking against the flag and not, the break count in each
line state, 49 breaks, 99 skew samples, and cells and zones that are lost, healthy and turning. -/
theorem witness_TensionAlarms :
    (∃ turns : LoadCell → Nat → Bool, ∀ c raw, turns c raw = true ↔
      (c.lost = false ∧ (raw = 0 ∨ raw = 32767)) ∨ (c.lost = true ∧ raw ≠ 0 ∧ raw ≠ 32767))
    ∧ (∀ run ∈ [0, 8, 9], ∀ raw ∈ [0, 32767, 1, 32766], ∀ lost : Bool,
      Meets (sampling (guardAt 0 0 run lost) up) fun s =>
      s.tens.zones[(3 : Fin 4)].l.run = run ∧ s.tens.zones[(3 : Fin 4)].l.lost = lost
      ∧ (((lost = false ∧ (raw = 0 ∨ raw = 32767)) ∨ (lost = true ∧ raw ≠ 0 ∧ raw ≠ 32767))
        ↔ ((raw == 0 || raw == 32767) != lost) = true))
    ∧ (∀ l ∈ [LineState.run, .hold, .cold, .thread, .warm], ∀ raw ∈ [500, 10],
      Meets (sampling (guardAt 7 0 0 false) (lineIn l)) fun s => s.line.state = l
      ∧ Meets (run (sample (BitVec.ofNat 16 raw) (BitVec.ofNat 16 raw)) s) fun t =>
        t.line.state ≠ .halt ∧ t.tens.zones[(0 : Fin 4)].lost = false)
    ∧ (Meets (sampling (guardAt 7 0 0 false) (fit .ready)) fun s => s.line.state = .ready
      ∧ Meets (run (sample 10 10) s) fun t => t.line.state = .ready
        ∧ ∀ y : Fin 4, t.tens.zones[y].lost = false)
    ∧ (∀ l ∈ [LineState.run, .hold, .ready], Meets (sampling (guardAt 49 0 0 false) (fit l)) fun s =>
      s.line.state = l ∧ alarmRec s .webBreak ≠ ⟨true, true⟩ ∧ 49 ≤ s.tens.zones[(0 : Fin 4)].breakCount
      ∧ Meets (run (sample 10 10) s) fun t => (∀ y : Fin 4, t.tens.zones[y].lost = false)
        ∧ t.tens.zones[(0 : Fin 4)].measured < t.tens.zones[(0 : Fin 4)].working / 8)
    ∧ (Meets (sampling (guardAt 0 0 9 false) up) fun s => s.tens.zones[(1 : Fin 4)].l.lost = false
      ∧ (run (sample 0 500) s).tens.zones[(1 : Fin 4)].l.lost = true)
    ∧ (Meets (sampling (fun t => { guardAt 0 0 9 false t with r := { t.r with lost := true } }) (lineIn .run))
      fun s => alarmRec s .zoneLost ≠ ⟨true, true⟩ ∧ (run (sample 0 0) s).tens.zones[(1 : Fin 4)].lost = true)
    ∧ (Meets (sampling (guardAt 0 99 0 false) (lineIn .run)) fun s =>
      (run (sample 500 300) s).tens.zones[(1 : Fin 4)].skewCount = 100)
    ∧ (∀ z : Fin 4, Meets (run (sample 500 500) (sampling (guardAt 49 99 9 true) (lineIn .run))) fun t =>
      t.tens.zones[z].l.lost = false ∧ t.tens.zones[z].r.lost = false ∧ t.tens.zones[z].lost = false
      ∧ t.tens.zones[z].skewCount ≠ 100 ∧ t.tens.zones[z].breakCount ≠ 50) := by
  refine ⟨⟨fun c raw => decide ((c.lost = false ∧ (raw = 0 ∨ raw = 32767))
    ∨ (c.lost = true ∧ raw ≠ 0 ∧ raw ≠ 32767)), fun c raw => decide_eq_true_iff⟩, ?_⟩
  dsimp only [Meets]
  and_intros <;> decide +kernel

/-- A record by itself in RUN at a drum count and phase, slot 0 VALID, the last wrap cell naming a number. -/
def onDrum (p : Panel) (x : Nat) (phase : Fin 1000) (last : Option Half) : State :=
  holding [p] [] [] { lineIn .run (profiled 1 0) with
    pos := { up.pos with x := BitVec.ofNat 32 x, phase := phase },
    dose := { up.dose with cells := (blankCells (BitVec.ofNat 32 x - BitVec.ofNat 32 phase.val)).dropLast
      ++ [{ xc := 5, panel := last, dose := 7 }] } }

/-- Panel 31 with its lead at 1,000,000 and 20,000 counts long. -/
def led (st : PanelState) (readings : Nat) : Panel :=
  { record 31 st with fLead := some 1000000, readings := readings }

/-- Panel 31 on the fabric with X reaching its tail, one short of 30000 past it and there, and one short of
its verdict, the wrap shifting and not, the leaving cell naming it and not; a splice under its body. -/
theorem witness_DrumPanels :
    (∀ x ∈ [1000000, 1019999, 1049998, 1049999, 1065098], ∀ full names : Bool,
      Meets (onDrum (led .onFabric 0) x (if full then 999 else 998) (if names then some 31 else none)) fun s =>
      (∃ p ∈ s.ord.panels, p.state = .onFabric ∧ p.fLead = some 1000000 ∧ p.number ∉ s.reg.list
        ∧ sdiff (s.pos.x + 1) (1000000 + BitVec.ofNat 32 (p.length + 45100)) < 0)
      ∧ (∀ q ∈ s.ord.panels, q.number ≠ 0) ∧ s.ord.panels.length ≤ 64 ∧ s.ord.counter ≠ 0
      ∧ (s.ord.panels.map (·.number)).Nodup
      ∧ ((s.pos.phase = 999 ∧ ∃ c ∈ s.dose.cells.head?.toList, s.pos.x + 1 = c.xc + 1000) ↔ full = true)
      ∧ (∃ c ∈ s.dose.cells.getLast?.toList, c.panel = some 31 ↔ names = true) ∧ s.reg.list = []
      ∧ (x = 1000000 ↔ 0 ≤ sdiff (s.pos.x + 1) 1000000
        ∧ sdiff (s.pos.x + 1) (1000000 + BitVec.ofNat 32 (led .onFabric 0).length) < 0))
    ∧ (∀ a ∈ [1000000, 1019999], Meets (spliced [⟨.fabric, 0, some (BitVec.ofNat 32 a)⟩]
        (onDrum (led .onFabric 0) 1019999 5 none)) fun s =>
      s.pos.x + 1 = 1000000 + BitVec.ofNat 32 (led .onFabric 0).length
      ∧ (∃ r ∈ s.pos.splices, r.web = .fabric ∧ r.arrival = some (BitVec.ofNat 32 a))
      ∧ 0 ≤ sdiff (BitVec.ofNat 32 a) 1000000
      ∧ sdiff (BitVec.ofNat 32 a) (1000000 + BitVec.ofNat 32 (led .onFabric 0).length) < 0
      ∧ sdiff (s.pos.x + 1) (BitVec.ofNat 32 a + 56000) < 0)
    ∧ (∀ x ∈ [(1019998, false), (1019999, true)], Meets (onDrum (led .void 0) x.1 5 none) fun s =>
      ∃ p ∈ s.ord.panels, p.state = .void ∧ p.finalVoid = false ∧ p.fLead = some 1000000
      ∧ p.number ∉ s.reg.list
      ∧ (x.2 = true ↔ 0 ≤ sdiff (s.pos.x + 1) (1000000 + BitVec.ofNat 32 p.length))) := by
  dsimp only [Meets]
  and_intros <;> decide +kernel

/-- A VOID record on the fabric and one that is not, at a crossing under the nip. -/
theorem witness_DrumPanels_stretch :
    (∀ (s : State) (x : Word), ∃ stretched : Panel → Word → Nat, ∀ p f, stretched p f =
      if s.pos.phase = 999 ∧ 0 ≤ sdiff x f ∧ sdiff x (f + BitVec.ofNat 32 p.length) < 0 then
        min 65535 (p.stretch + (max (-20) (min 20 (s.reg.target - s.reg.position))).natAbs)
      else p.stretch)
    ∧ (Meets (onDrum (led .void 0) 1009999 999 none) fun s => ∃ p ∈ s.ord.panels, p.state = .void
      ∧ p.finalVoid = false ∧ p.fLead = some 1000000 ∧ s.pos.phase = 999
      ∧ 0 ≤ sdiff (s.pos.x + 1) 1000000
      ∧ sdiff (s.pos.x + 1) (1000000 + BitVec.ofNat 32 p.length) < 0) := by
  refine ⟨fun s x => ⟨_, fun p f => rfl⟩, ?_⟩
  dsimp only [Meets]
  decide +kernel

/-- Panel 31's strip at both its ends under the head, 5000 ms after the last reading; and the states that
keep HEAD_LOST as it is: another line state, 4999 ms, 255 readings, the strip passed. -/
theorem witness_DrumPanels_headLost :
    (∀ x ∈ [1064399, 1064998], ∀ n ∈ [0, 254],
      Meets (clockAt 5000 (onDrum (led .finished n) x 5 none)) fun s => s.reg.list = []
      ∧ s.line.state = .run ∧ 5000 ≤ sdiff s.host.clock s.lastReading ∧ s.reg.queue = []
      ∧ s.reg.home = none ∧ Memory.wf s.mem = true ∧ alarmRec s .headLost ≠ ⟨true, true⟩
      ∧ ∃ p ∈ s.ord.panels, s.ord.panels = [p] ∧ p.state ≠ .void ∧ p.fLead = some 1000000
        ∧ checkPresent s p.profile = true ∧ p.readings < 255
        ∧ 0 ≤ sdiff (s.pos.x + 1 - 45000) (1000000 + BitVec.ofNat 32 p.length - 600)
        ∧ sdiff (s.pos.x + 1 - 45000) (1000000 + BitVec.ofNat 32 p.length) < 0)
    ∧ (∀ s ∈ [lineIn .hold (clockAt 5000 (onDrum (led .finished 0) 1064500 5 none)),
        clockAt 4999 (onDrum (led .finished 0) 1064500 5 none),
        clockAt 5000 (onDrum (led .finished 255) 1064500 5 none),
        clockAt 5000 (onDrum (led .finished 0) 1064999 5 none)],
      s.line.state ≠ .run ∨ sdiff s.host.clock s.lastReading < 5000 ∨ (s.reg.list = []
        ∧ ∀ q ∈ s.ord.panels, q.fLead = some 1000000 ∧ (q.readings < 255 →
          ¬ (0 ≤ sdiff (s.pos.x + 1 - 45000) (1000000 + BitVec.ofNat 32 q.length - 600)
            ∧ sdiff (s.pos.x + 1 - 45000) (1000000 + BitVec.ofNat 32 q.length) < 0)))) := by
  dsimp only [Meets]
  and_intros <;> decide +kernel

/-- R152, R153: a record with 255 readings would accept none, so HEAD_LOST waits for one that would. -/
theorem test_headLost_full : [254, 255].map (fun n => (alarmRec (run (.drumStep .forward)
      (clockAt 5000 (onDrum (led .finished n) 1064500 5 none))) .headLost).active) = [true, false] := by
  decide +kernel

/-- A full queue whose head reaches the nip at the step and one whose head does not; one piece at it, paired
and not, with no record live. -/
theorem witness_PiecesAndHoldWindows_leave :
    (∀ q ∈ [(988251, true), (988252, false)], Meets { pairing with reg := { pairing.reg with
        queue := List.replicate 8 ⟨BitVec.ofNat 32 q.1, false, false⟩ } } fun s =>
      8 ≤ s.reg.queue.length
      ∧ ∀ pc ∈ s.reg.queue.head?.toList, (0 ≤ sdiff (s.pos.x + 1) (pc.xf + 30000) ↔ q.2 = true))
    ∧ (∀ b : Bool, ∀ k : Bool, Meets (holding [] [] [] { pairing with reg := { pairing.reg with
        queue := [⟨988251, b, k⟩] } }) fun s => ∃ pc ∈ s.reg.queue, s.reg.queue = [pc] ∧ pc.paired = b
      ∧ s.ord.panels = [] ∧ s.reg.home = none ∧ Memory.wf s.mem = true ∧ s.line.state = .cold
      ∧ 0 ≤ sdiff (s.pos.x + 1) (pc.xf + 30000)) := by
  dsimp only [Meets]
  and_intros <;> decide +kernel

/-- Panel 31 at its mark at both ends of its window, with a piece behind one that is out of reach at offset
−600, −250, 600 and 601, and with none that qualifies; and panel 31 waiting staged for a fabric mark at
−601, −600, 600 and 601. -/
theorem witness_PiecesAndHoldWindows_pair :
    (∃ offset : Word → Word → Int, ∀ xf xp, offset xf xp = sdiff (xf + 30000) (xp + 12000))
    ∧ (∀ o ∈ [(-600 : Int), -250, 600, 601], ∀ u ∈ [27500, 28500],
      Meets { pairing with
        pos := { pairing.pos with u := BitVec.ofNat 32 u },
        reg := { pairing.reg with queue :=
          [⟨1000250 - 601, false, false⟩, ⟨5, true, false⟩, ⟨5, false, true⟩,
            ⟨1000250 + BitVec.ofInt 32 o, false, false⟩, ⟨1000900, false, false⟩] } } fun s =>
      Memory.wf s.mem = true ∧ s.line.jog ≠ .rev ∧ s.line.state = .cold ∧ s.reg.home = none
      ∧ s.reg.list = [] ∧ ∃ p ∈ s.ord.panels, s.ord.panels = [p] ∧ p.matched = true ∧ p.piece = none
      ∧ p.state = .onPaper ∧ 0 ≤ sdiff s.pos.u (p.sLead + 27500) ∧ sdiff s.pos.u (p.sLead + 28500) ≤ 0
      ∧ s.reg.queue = s.reg.queue.take 3 ++ ⟨1000250 + BitVec.ofInt 32 o, false, false⟩ ::
          [⟨1000900, false, false⟩]
      ∧ (∀ q ∈ s.reg.queue.take 3, q.paired = true ∨ q.skipped = true
        ∨ sdiff (q.xf + 30000) (s.pos.x + 12000) < -600)
      ∧ sdiff (1000250 + BitVec.ofInt 32 o + 30000) (s.pos.x + 12000) = o)
    ∧ (∀ q ∈ [[], [(⟨1000250 - 601, false, false⟩ : Piece)]],
      Meets { pairing with reg := { pairing.reg with queue := q } } fun s =>
      ∀ q ∈ s.reg.queue, q.paired = true ∨ q.skipped = true ∨ sdiff (q.xf + 30000) (s.pos.x + 12000) < -600)
    ∧ (∀ o ∈ [(-601 : Int), -600, 600, 601], Meets (holding
        [{ record 31 .staged with matched := true, xp := some (1036250 - BitVec.ofInt 32 o) }] [] []
        { loaded 12 with
          pos := { up.pos with x := 1018250 }, reg := { up.reg with list := [31] } }) fun s =>
      s.line.marks = true ∧ s.reg.queue = [] ∧ s.line.jog ≠ .rev ∧ s.line.state = .cold
      ∧ (∃ p ∈ s.ord.panels, s.ord.panels = [p] ∧ s.reg.list = [p.number]
        ∧ p.xp = some (1036250 - BitVec.ofInt 32 o))
      ∧ sdiff (s.pos.x + 30000) (1036250 - BitVec.ofInt 32 o + 12000) = o) := by
  refine ⟨⟨_, fun _ _ => rfl⟩, ?_⟩
  dsimp only [Meets]
  and_intros <;> decide +kernel

/-- A splice record at its open mark, one before it and at the end of its window, for each zone, the window
closed, open, and open for longer. -/
theorem witness_PiecesAndHoldWindows_hold :
    ∀ d ∈ [(0 : Int), 1, -5000], ∀ e ∈ [(none : Option Nat), some 2000000, some 2006000],
      ∀ q ∈ [((0 : Fin 4), (⟨.fabric, 0, some (2000000 + intWord d + 22500)⟩ : Splice)),
        (3, ⟨.paper, 0, some (2000000 + intWord d - 33500)⟩),
        (1, ⟨.fabric, 0, some (2000000 + intWord d - 53500)⟩),
        (2, ⟨.paper, 2000000 + intWord d - 12500, none⟩)],
      Meets (updTension q.1 (fun t => { t with holdEnd := e.map (BitVec.ofNat 32) })
        (spliced [q.2] { up with pos := { up.pos with x := 1999999, u := 1999999 } })) fun s =>
      s.pos.splices = [q.2] ∧ s.tens.zones[q.1].holdEnd = e.map (BitVec.ofNat 32)
      ∧ (q.1 = 2 → q.2.web = .paper ∧ s.pos.u + 1 = q.2.seen + 12500 - intWord d)
      ∧ (q.1 = 0 → q.2.web = .fabric ∧ s.pos.x + 1 = q.2.arrival.getD 0 - 22500 - intWord d)
      ∧ (q.1 = 3 → q.2.web = .paper ∧ s.pos.x + 1 = q.2.arrival.getD 0 + 33500 - intWord d)
      ∧ (q.1 = 1 → q.2.web = .fabric ∧ s.pos.x + 1 = q.2.arrival.getD 0 + 53500 - intWord d)
      ∧ (q.1 ≠ 2 → q.2.arrival.isSome = true)
      ∧ ∀ h ∈ e.toList, -1000000000 < sdiff (2000000 + intWord d + 5000) (BitVec.ofNat 32 h) := by
  dsimp only [Meets]
  decide +kernel

/-- The step of S to the loss mark of a record in PRINTING and the one before it; and a print start at the
print gap and one count before it, with a record still in PRINTING. -/
theorem witness_PrintStepEvents :
    (∀ s0 : State, ∃ lost : Panel → Prop, ∀ p, lost p ↔ p ∈ s0.ord.panels ∧ p.state = .printing
      ∧ 0 ≤ sdiff (s0.pos.s + 1) (p.sLead + BitVec.ofNat 32 (p.length + 10000)))
    ∧ (∀ q ∈ [(29999, true), (29998, false)],
      Meets (holding [record 8 .printing] [] [] { lineIn .run with
        pos := { up.pos with s := BitVec.ofNat 32 q.1 } }) fun s =>
      (q.2 = true ↔ ∃ p ∈ s.ord.panels, p.state = .printing
        ∧ 0 ≤ sdiff (s.pos.s + 1) (p.sLead + BitVec.ofNat 32 (p.length + 10000)))
      ∧ alarmRec s .printEngineLost ≠ ⟨true, true⟩ ∧ s.ord.panels.length ≤ 64 ∧ s.ord.counter ≠ 0
      ∧ (∀ p ∈ s.ord.panels, p.number ≠ 0) ∧ (s.ord.panels.map (·.number)).Nodup)
    ∧ (∀ q ∈ [((none : Option Nat), true), (some 499501, true), (some 499502, false)],
      Meets { printable with ord := { printable.ord with
        engine := .ready, endMark := q.1.map (BitVec.ofNat 32), panels := [{ record 8 .printing with sLead := 479501 }] } } fun s =>
      s.line.state = .run ∧ s.dose.wrap = .closed ∧ s.ord.engine = .ready ∧ s.ord.panels.length < 64
      ∧ s.ord.entries = ⟨20, 0, 1, []⟩ :: []
      ∧ findOrder 20 s = some (order [⟨.waiting, 0⟩, ⟨.waiting, 0⟩])
      ∧ 10000 < sdiff (s.pos.s + 1 - s.pos.u) 60000
      ∧ (∀ p ∈ s.ord.panels, p.state = .printing →
        sdiff (s.pos.s + 1) (p.sLead + BitVec.ofNat 32 (p.length + 10000)) < 0)
      ∧ s.ord.endMark = q.1.map (BitVec.ofNat 32)
      ∧ (q.2 = true ↔ ∀ m ∈ q.1.toList, 0 ≤ sdiff (s.pos.s + 1) (BitVec.ofNat 32 m + 500))
      ∧ s.ord.panels.length ≤ 64 ∧ s.ord.counter ≠ 0 ∧ (∀ p ∈ s.ord.panels, p.number ≠ 0)
      ∧ (s.ord.panels.map (·.number)).Nodup) := by
  refine ⟨fun s0 => ⟨_, fun p => Iff.rfl⟩, ?_⟩
  dsimp only [Meets]
  and_intros <;> decide +kernel

/-- R50: a group fire starts its channels at one X with one count to go, also where TRIGGER_FIRE has
fired one of them ahead of the coming step. -/
theorem test_trigger_group_together : [(2 : Fin 12), 3].map (fun k =>
      let ch := (run .triggerGroup (ticket 0x31 (natHalf 0xC) (updChannel 2
        (fun c => { c with mode := .repeating, state := .counting, ahead := true }) (updChannel 3
        (fun c => { c with mode := .delayedOneShot, state := .armed }) { up with trig := { up.trig with
          channels := up.trig.channels.map fun c => { c with arm := .groupFire, reload := 7 } } })))
        ).trig.channels[k]
      (ch.state == .counting, ch.remaining, ch.ahead)) = List.replicate 2 (true, 7, false) := by
  decide +kernel

/-- R167: at a line reset the FULL walker looks at its link before the retire mark passes the ticket that
the reset finishes, so the link to it stalls with LINK_TAKEN. -/
theorem test_resetLine_full : (run .resetLine (join 0x5100 [3, 0, 0, 0, 20] (holding [] [order []] []
      { up with walker := { up.walker with
        state := .full, fromTicket := some 2, chain := [⟨20, true⟩, ⟨2, false⟩], outstanding := 8 } }
      ))).walker.stall = .linkTaken := by decide +kernel

end Sys2Proof.Tests
end

