-- ==== Sys2Proof/Proofs/Inner.lean ====
section
/-! PROOFS. What every operation inside the part keeps, once for each operation: the bytes of exchange
memory outside the notice log and the ticket area, the host registers, the messages other than
PRINT_START, and the laws of heaters, ranges and speed. `Inner` is a preorder, so the proof for an
operation follows its composition. -/

-- One thread for the whole file: each waiting thread reserves its stack.
set_option Elab.async false

namespace Sys2Proof.Machine

/-! ## Exchange memory and the anchor configuration -/

theorem BytesKept.rfl (r : Nat → Prop) (s : State) : BytesKept r s s := fun _ _ => Eq.refl _

theorem BytesKept.trans {r : Nat → Prop} {s t u : State} (h1 : BytesKept r s t)
    (h2 : BytesKept r t u) : BytesKept r s u := fun a ha => (h2 a ha).trans (h1 a ha)

theorem BytesKept.mono {r q : Nat → Prop} {s t : State} (h : BytesKept r s t)
    (hrq : ∀ a, r a → q a) : BytesKept q s t := fun a ha => h a fun hr => ha (hrq a hr)

theorem BytesKept.of_mem {r : Nat → Prop} {s t : State} (h : t.mem = s.mem) : BytesKept r s t :=
  fun _ _ => by rw [h]

/-- A run of bytes inside the region is a write of the region. -/
theorem BytesKept.putBytes {r : Nat → Prop} (a : Nat) (bs : List Byte) (s : State)
    (h : ∀ x, a ≤ x → x < a + bs.length → r x) : BytesKept r s (putBytes a bs s) := by
  intro x hx
  refine Memory.get_putAll_out s.mem a bs ?_
  by_contra hc
  exact hx (h x (by omega) (by omega))

/-- Ticket slots lie above the profile library, whatever their number. -/
theorem ticketBase_low (n : Nat) : 0x5000 ≤ ticketBase n := by unfold ticketBase; omega

theorem Memory.get_put_end (m : List Host.Cell) {a : Nat} (b : Byte) (h : memEnd ≤ a) :
    Memory.put m a b = m := if_neg (by omega)

/-- Bytes written from the ticket area on change no byte outside it: what would lie beyond the end of
exchange memory is not held. -/
theorem putAll_tickets {a : Nat} (h : 0x5000 ≤ a) (bs : List Byte) (m : List Host.Cell) {x : Nat}
    (hx : ¬ ticketBytes x) : Memory.get (Memory.putAll m a bs) x = Memory.get m x := by
  induction bs generalizing m a with
  | nil => rfl
  | cons b bs ih =>
    rw [Memory.putAll, ih (by omega)]
    by_cases hx' : x = a
    · subst hx'
      have he : memEnd ≤ x := by
        unfold ticketBytes at hx
        unfold memEnd
        omega
      rw [Memory.get_put_end m b he]
    · exact Memory.get_put_other m b hx'

theorem LogAndTicketsOnly.putTicket {a : Nat} (h : 0x5000 ≤ a) (bs : List Byte) (s : State) :
    LogAndTicketsOnly s (putBytes a bs s) :=
  fun _ hx => putAll_tickets h bs s.mem fun ht => hx (.inr ht)

theorem LogAndTicketsOnly.writeNotice (k : NoticeKind) (d1 d2 d3 : Word) (s : State) :
    LogAndTicketsOnly s (writeNotice k d1 d2 d3 s) := by
  refine (writeNotice_bytes k d1 d2 d3 s).mono fun a ha => .inl ?_
  have := noticeAt_in_log s
  unfold nextNoticeBytes at ha
  unfold logBytes
  omega

/-- A half-word below the log reads the same where only log and tickets are written. -/
theorem LogAndTicketsOnly.cfgHalf_eq {s t : State} (h : LogAndTicketsOnly s t) {a : Nat}
    (ha : a < 0xFFF) : cfgHalf t a = cfgHalf s a := by
  have hb : ∀ x, x < 0x1000 → Memory.get t.mem x = Memory.get s.mem x := fun x hx =>
    h x (by unfold logBytes ticketBytes; omega)
  unfold cfgHalf Memory.half
  rw [hb a (by omega), hb (a + 1) (by omega)]

theorem LogAndTicketsOnly.cfgByte_eq {s t : State} (h : LogAndTicketsOnly s t) {a : Nat}
    (ha : a < 0x1000) : cfgByte t a = cfgByte s a := by
  unfold cfgByte
  rw [h a (by unfold logBytes ticketBytes; omega)]

/-- The words of exchange memory that the checks of the configuration and V_lim read (R165). -/
def SameConfig (s t : State) : Prop :=
  (∀ a, 0x10 ≤ a → a < 0x27 → cfgHalf t a = cfgHalf s a) ∧ ticketLimit t = ticketLimit s
  ∧ lookCode t = lookCode s ∧ lThread t = lThread s

theorem LogAndTicketsOnly.sameConfig {s t : State} (h : LogAndTicketsOnly s t) : SameConfig s t := by
  refine ⟨fun a _ ha => h.cfgHalf_eq (by omega), h.cfgByte_eq (by decide), h.cfgByte_eq (by decide), ?_⟩
  have hb : ∀ x, x < 0x1000 → Memory.get t.mem x = Memory.get s.mem x := fun x hx =>
    h x (by unfold logBytes ticketBytes; omega)
  unfold lThread Memory.word Memory.half
  rw [hb 0x018 (by decide), hb 0x019 (by decide), hb 0x01A (by decide), hb 0x01B (by decide)]

theorem SameConfig.vMax_eq {s t : State} (h : SameConfig s t) : vMax t = vMax s :=
  h.1 _ (by decide) (by decide)

theorem SameConfig.checks_eq {s t : State} (h : SameConfig s t) : configChecks t = configChecks s := by
  obtain ⟨hh, ht, hl, hw⟩ := h
  have e : ∀ z : Fin 4, defaultTension t z = defaultTension s z := fun z =>
    hh _ (by omega) (by omega)
  have e1 : vMax t = vMax s := hh _ (by decide) (by decide)
  have e2 : idleSpeed t = idleSpeed s := hh _ (by decide) (by decide)
  have e3 : tCut t = tCut s := hh _ (by decide) (by decide)
  have e4 : skewLimit t = skewLimit s := hh _ (by decide) (by decide)
  have e5 : chainStart t = chainStart s := hh _ (by decide) (by decide)
  unfold configChecks
  rw [e 0, e 1, e 2, e 3, e1, e2, e3, e4, e5, ht, hl, hw]

theorem SameConfig.accepted {s t : State} (h : SameConfig s t) : configAccepted t ↔ configAccepted s := by
  unfold configAccepted
  rw [h.checks_eq]

/-- An accepted configuration has V_MAX in 100..400 (R165). -/
theorem configAccepted.vMax_ge {s : State} (h : configAccepted s) : 100 ≤ vMax s := by
  unfold configAccepted firstFailure at h
  rw [Option.map_eq_none_iff, List.find?_eq_none] at h
  have := h (1, decide (100 ≤ vMax s ∧ vMax s ≤ 400)) (by simp [configChecks])
  simp at this
  exact this.1

/-- Under an accepted configuration V_lim is at least the speed of WARM and of a jog (R11, R129). -/
theorem configAccepted.vLim_ge {s : State} (h : configAccepted s) : 20 ≤ vLim s := by
  have hv := h.vMax_ge
  have hc := s.line.speedClass.isLt
  unfold vLim
  have : 100 * 5 ≤ vMax s * (8 - s.line.speedClass.val) := Nat.mul_le_mul hv (by omega)
  omega

/-! ## The relation -/

/-- START is accepted, or the walker is not OFF: an entry to a heated line state needs it (R166). -/
def Live (s : State) : Prop := started s = true ∨ s.walker.state ≠ .off

theorem SpeedLaw.started_of_live {s : State} (h : SpeedLaw s) (hl : Live s) : started s = true := by
  rcases hl with hl | hl
  · exact hl
  · by_contra hs
    exact hl (h.unstarted (by simpa using hs)).2

/-- A message that is neither a command frame nor LAMPS. -/
def Message.isPrint : Message → Bool
  | .printStart .. => true
  | .frame _ | .lamps _ => false

/-- What every operation inside the part leaves at the host's ports: it writes exchange memory in the
log and the ticket area alone and keeps it canonical, keeps START status, clock and mask, sets causes
and clears none, moves the walker neither from nor to OFF, and sends nothing but PRINT_START. -/
structure Ports (s t : State) : Prop where
  bytes : LogAndTicketsOnly s t
  wf : Memory.wf s.mem = true → Memory.wf t.mem = true
  start : t.host.startStatus = s.host.startStatus
  clock : t.host.clock = s.host.clock
  mask : t.host.mask = s.host.mask
  causes : ∀ c, causeSet s c = true → causeSet t c = true
  off : t.walker.state = .off ↔ s.walker.state = .off
  sent : ∃ l, t.sent = s.sent ++ l ∧ ∀ m ∈ l, m.isPrint = true

/-- What holds between the states before and after every operation inside the part. -/
structure Inner (s t : State) : Prop extends Ports s t where
  heaters : HeatersSafe s → HeatersSafe t
  range : WithinRange s → WithinRange t
  speed : SpeedLaw s → SpeedLaw t

theorem Ports.rfl (s : State) : Ports s s where
  bytes := .rfl _ s
  wf := id
  start := Eq.refl _
  clock := Eq.refl _
  mask := Eq.refl _
  causes _ := id
  off := Iff.rfl
  sent := ⟨[], by simp, by simp⟩

theorem Ports.trans {s t u : State} (h1 : Ports s t) (h2 : Ports t u) : Ports s u where
  bytes := h1.bytes.trans h2.bytes
  wf h := h2.wf (h1.wf h)
  start := h2.start.trans h1.start
  clock := h2.clock.trans h1.clock
  mask := h2.mask.trans h1.mask
  causes c h := h2.causes c (h1.causes c h)
  off := h2.off.trans h1.off
  sent := by
    obtain ⟨l, e, hl⟩ := h1.sent
    obtain ⟨m, f, hm⟩ := h2.sent
    refine ⟨l ++ m, by rw [f, e, List.append_assoc], fun x hx => ?_⟩
    rcases List.mem_append.mp hx with hx | hx
    · exact hl x hx
    · exact hm x hx

theorem Inner.rfl (s : State) : Inner s s where
  toPorts := .rfl s
  heaters := id
  range := id
  speed := id

theorem Inner.trans {s t u : State} (h1 : Inner s t) (h2 : Inner t u) : Inner s u where
  toPorts := h1.toPorts.trans h2.toPorts
  heaters h := h2.heaters (h1.heaters h)
  range h := h2.range (h1.range h)
  speed h := h2.speed (h1.speed h)

theorem Inner.of_eq {s t : State} (h : t = s) : Inner s t := h ▸ Inner.rfl s

theorem Inner.foldl {α : Type} {f : State → α → State} (h : ∀ s a, Inner s (f s a)) (l : List α)
    (s : State) : Inner s (l.foldl f s) := by
  induction l generalizing s with
  | nil => exact .rfl s
  | cons a l ih => exact (h s a).trans (ih (f s a))

theorem Ports.started {s t : State} (h : Ports s t) : started t = started s := by
  unfold Machine.started
  rw [h.start]

theorem Ports.live {s t : State} (h : Ports s t) (hl : Live s) : Live t := by
  rcases hl with hl | hl
  · exact .inl (h.started.trans hl)
  · exact .inr fun ht => hl (h.off.mp ht)

theorem Inner.ite {s t u : State} {c : Prop} [Decidable c] (h1 : c → Inner s t)
    (h2 : ¬ c → Inner s u) : Inner s (if c then t else u) := by
  split
  · exact h1 ‹_›
  · exact h2 ‹_›

/-! ## What the laws read -/

/-- The regulator fields of a tension zone are the same. -/
def TensionZone.SameRegulator (a b : TensionZone) : Prop :=
  b.trim = a.trim ∧ b.integral = a.integral ∧ b.breakCount = a.breakCount ∧ b.skewCount = a.skewCount

/-- The fields that the laws of heaters, ranges and speed read are the same. -/
structure SameView (s t : State) : Prop where
  heat : t.line.heat = s.line.heat := by simp
  state : t.line.state = s.line.state := by simp
  cls : t.line.speedClass = s.line.speedClass := by simp
  trims : ∀ i : Fin 16, t.lib.slots[i].trim = s.lib.slots[i].trim := by simp
  target : t.reg.target = s.reg.target := by simp
  position : t.reg.position = s.reg.position := by simp
  zones : t.heat.zones = s.heat.zones := by simp
  tension : ∀ z : Fin 4, s.tens.zones[z].SameRegulator t.tens.zones[z] := by
    simp [TensionZone.SameRegulator]
  sCmd : t.dose.sCmd = s.dose.sCmd := by simp
  wrap : t.dose.wrap = s.dose.wrap := by simp

theorem SameView.heaters {s t : State} (v : SameView s t) (h : HeatersSafe s) : HeatersSafe t where
  disabled hh := by rw [v.zones]; exact h.disabled (v.heat.symm.trans hh)
  unheated := by rw [v.zones]; exact h.unheated

theorem SameView.range {s t : State} (v : SameView s t) (h : WithinRange s) : WithinRange t where
  trims i := by rw [v.trims]; exact h.trims i
  target := by rw [v.target]; exact h.target
  position := by rw [v.position]; exact h.position
  zones := by rw [v.zones]; exact h.zones
  tension z := by
    obtain ⟨e1, e2, e3, e4⟩ := v.tension z
    rw [e1, e2, e3, e4]
    exact h.tension z

theorem SameConfig.vLim_eq {s t : State} (h : SameConfig s t)
    (hc : t.line.speedClass = s.line.speedClass) : vLim t = vLim s := by
  unfold vLim
  rw [h.vMax_eq, hc]

theorem SameView.speed {s t : State} (v : SameView s t) (hc : SameConfig s t)
    (hs : t.host.startStatus = s.host.startStatus) (ho : t.walker.state = .off ↔ s.walker.state = .off)
    (h : SpeedLaw s) : SpeedLaw t := by
  have hst : Machine.started t = Machine.started s := by unfold Machine.started; rw [hs]
  refine ⟨fun ht => ?_, fun ht => ?_, fun ht => ?_, ?_, fun ht => ?_⟩
  · exact hc.accepted.mpr (h.config (hst ▸ ht))
  · rw [v.state, ho]
    exact h.unstarted (hst ▸ ht)
  · rw [v.sCmd]
    exact h.stopped (v.state ▸ ht)
  · rw [v.sCmd, hc.vLim_eq v.cls]
    exact h.limited
  · rw [v.state]
    exact h.wrap (v.wrap ▸ ht)

/-- What an operation leaves at the ports, from what it does to memory, host, walker and messages. -/
theorem Ports.of {s t : State}
    (bytes : LogAndTicketsOnly s t := by exact BytesKept.of_mem (by simp))
    (wf : Memory.wf s.mem = true → Memory.wf t.mem = true := by simp)
    (start : t.host.startStatus = s.host.startStatus := by simp)
    (clock : t.host.clock = s.host.clock := by simp)
    (mask : t.host.mask = s.host.mask := by simp)
    (causes : ∀ c, causeSet s c = true → causeSet t c = true := by simp [causeSet])
    (off : t.walker.state = .off ↔ s.walker.state = .off := by simp)
    (sent : ∃ l, t.sent = s.sent ++ l ∧ ∀ m ∈ l, m.isPrint = true := by
      exact ⟨[], by simp, by simp⟩) : Ports s t :=
  ⟨bytes, wf, start, clock, mask, causes, off, sent⟩

/-- An operation that leaves what the laws read is inner where it is so at the ports. -/
theorem SameView.inner {s t : State} (v : SameView s t) (p : Ports s t := by exact Ports.of) :
    Inner s t where
  toPorts := p
  heaters := v.heaters
  range := v.range
  speed := v.speed p.bytes.sameConfig p.start p.off

end Sys2Proof.Machine
end

