-- ==== Sys2Proof/Proofs/InnerOps.lean ====
section
/-! PROOFS. The shared operations are inner: causes, notices, alarms, slots, panels, tickets, orders. -/

-- One thread for the whole file: each waiting thread reserves its stack.
set_option Elab.async false

namespace Sys2Proof.Machine

/-! ## Causes, notices, alarms -/

theorem causeSet_or {s t : State} {v : BitVec 6} (h : t.host.causes = s.host.causes ||| v) (c : Cause)
    (hc : causeSet s c = true) : causeSet t c = true := by
  unfold causeSet at hc ⊢
  rw [h, BitVec.getLsbD_or, hc, Bool.true_or]

theorem raiseCause_inner (c : Cause) (s : State) : Inner s (raiseCause c s) :=
  SameView.inner {} (.of (causes := causeSet_or (raiseCause_host_causes c s)))

theorem writeNotice_inner (k : NoticeKind) (d1 d2 d3 : Word) (s : State) :
    Inner s (writeNotice k d1 d2 d3 s) :=
  SameView.inner {} (.of (.writeNotice k d1 d2 d3 s) (fun h => writeNotice_wf h k d1 d2 d3)
    (by simp [writeNotice_host]) (by simp [writeNotice_host]) (by simp [writeNotice_host])
    (causeSet_or (congrArg HostUnit.causes (writeNotice_host k d1 d2 d3 s))))

/-- Bytes written in the ticket area. -/
theorem putTicket_inner {a : Nat} (h : 0x5000 ≤ a) (bs : List Byte) (s : State) :
    Inner s (putBytes a bs s) :=
  SameView.inner {} (.of (.putTicket h bs s) (putBytes_wf · a bs))

theorem send_inner {m : Message} (h : m.isPrint = true) (s : State) : Inner s (send m s) :=
  SameView.inner {} (.of (sent := ⟨[m], rfl, by simpa using h⟩))

theorem setAlarm_inner (a : Alarm) (r : AlarmRec) (s : State) : Inner s (setAlarm a r s) :=
  SameView.inner {}

theorem endCondition_inner (a : Alarm) (s : State) : Inner s (endCondition a s) :=
  setAlarm_inner a _ s

theorem removeLatch_inner (how : Word) (a : Alarm) (s : State) : Inner s (removeLatch how a s) :=
  (setAlarm_inner a _ s).trans (writeNotice_inner _ _ _ _ _)

theorem lightLocked_inner (s : State) : Inner s (lightLocked s) := SameView.inner {}

/-! ## Slots, panels, orders -/

/-- A rewrite of a slot that keeps its trim. -/
theorem updSlot_inner (i : Fin 16) {f : Slot → Slot} (h : ∀ c, (f c).trim = c.trim) (s : State) :
    Inner s (updSlot i f s) := by
  refine SameView.inner { trims := fun j => ?_ }
  by_cases hj : i = j
  · subst hj; rw [slots_updSlot_same, h]
  · rw [slots_updSlot_other hj]

theorem useSlot_inner (i : Fin 16) (s : State) : Inner s (useSlot i s) :=
  updSlot_inner i (f := fun c => { c with inUse := c.inUse + 1 }) (fun _ => rfl) s

theorem releaseSlot_inner (i : Fin 16) (s : State) : Inner s (releaseSlot i s) :=
  updSlot_inner i (f := fun c => { c with inUse := c.inUse - 1 }) (fun _ => rfl) s

theorem mapPanels_inner (f : Panel → Panel) (s : State) : Inner s (mapPanels f s) := SameView.inner {}

theorem updPanel_inner (n : Half) (f : Panel → Panel) (s : State) : Inner s (updPanel n f s) :=
  mapPanels_inner _ s

theorem updOrder_inner (t : Nat) (f : OpenOrder → OpenOrder) (s : State) : Inner s (updOrder t f s) :=
  SameView.inner {}

theorem setEntries_inner (es : List Entry) (s : State) : Inner s (setEntries es s) := SameView.inner {}

/-- A rewrite of the order unit's own tables. -/
theorem setOrd_inner (s : State) (o : OrderUnit) : Inner s { s with ord := o } := SameView.inner {}

theorem setEndMark_inner (m : Option Word) (s : State) : Inner s (setEndMark m s) := setOrd_inner s _

theorem draw_inner (s : State) : Inner s (draw s) := SameView.inner {}

/-! ## The walker -/

theorem retire_inner (s : State) : Inner s (retire s) := SameView.inner {} (.of (off := by simp [retire]))

theorem markFollowed_inner (n : Nat) (s : State) : Inner s (markFollowed n s) := SameView.inner {}

theorem lowerCount_inner (s : State) : Inner s (lowerCount s) := SameView.inner {}

theorem raiseCount_inner (s : State) : Inner s (raiseCount s) := SameView.inner {}

/-- A rewrite of the walker alone, which is neither OFF before nor after. -/
theorem setWalker_inner {s : State} (w : Walker) (h : s.walker.state ≠ .off) (hw : w.state ≠ .off) :
    Inner s { s with walker := w } :=
  SameView.inner {} (.of (off := by simp [h, hw]))

theorem stallWalker_inner (code : StallCode) (off : Word) {s : State} (h : s.walker.state ≠ .off) :
    Inner s (stallWalker code off s) :=
  ((setWalker_inner { s.walker with state := .stalled, stall := code } h (by simp)).trans
    (raiseCause_inner .chain _)).trans (writeNotice_inner _ _ _ _ _)

theorem moveOn_inner {s : State} (h : s.walker.state ≠ .off) : Inner s (moveOn s) := by
  cases hf : s.walker.fromTicket with
  | none => exact .of_eq (by simp only [moveOn, hf])
  | some f =>
    rcases moveOn_cases hf with ⟨-, e⟩ | ⟨-, e⟩ | ⟨-, -, -, e⟩ | ⟨-, -, -, e⟩
    · rw [e]; exact setWalker_inner _ h (by simp)
    · rw [e]; exact stallWalker_inner _ _ h
    · rw [e]; exact stallWalker_inner _ _ h
    · rw [e]
      exact ((markFollowed_inner f s).trans (retire_inner _)).trans
        (setWalker_inner _ (by simpa [retire] using h) (by simp))

theorem writeFinish_inner (n : Nat) (code : ResultCode) (detail : Word) (s : State) :
    Inner s (writeFinish n code detail s) := by
  have h := ticketBase_low n
  exact ((putTicket_inner (by omega) _ s).trans (putTicket_inner (by omega) _ _)).trans
    (putTicket_inner h _ _)

theorem reportFinish_inner (n : Nat) (code : ResultCode) (detail : Word) (s : State) :
    Inner s (reportFinish n code detail s) :=
  (writeFinish_inner n code detail s).trans (raiseCause_inner .ticket _)

theorem finishTicket_inner (n : Nat) (code : ResultCode) (detail : Word) (s : State) :
    Inner s (finishTicket n code detail s) :=
  (reportFinish_inner n code detail s).trans (retire_inner _)

theorem finishLong_inner (n : Nat) (code : ResultCode) (detail : Word) (s : State) :
    Inner s (finishLong n code detail s) := by
  have h := (reportFinish_inner n code detail s).trans (lowerCount_inner _)
  rcases finishLong_cases n code detail s with ⟨-, e⟩ | ⟨hf, e⟩
  · rw [e]; exact h.trans (retire_inner _)
  · rw [e]
    exact (h.trans (moveOn_inner fun ho => by rw [h.off.mp ho] at hf; cases hf)).trans (retire_inner _)

theorem refuseTicket_inner (n : Nat) (code : ResultCode) (detail : Word) (s : State) :
    Inner s (refuseTicket n code detail s) := finishTicket_inner n code detail s

/-! ## Orders -/

theorem summaryAt_low (t k : Nat) : 0x5000 ≤ summaryAt t k := by
  have := ticketBase_low t
  unfold summaryAt
  omega

theorem writeCancelled_inner (t : Nat) (ks : List Nat) (s : State) :
    Inner s (writeCancelled t ks s) :=
  Inner.foldl (fun s k => putTicket_inner (summaryAt_low t k) _ s) ks s

theorem finishIfSettled_inner (t : Nat) (s : State) : Inner s (finishIfSettled t s) := by
  unfold finishIfSettled
  split
  · exact .rfl s
  · exact .ite (fun _ => .rfl s) fun _ => (setOrd_inner s _).trans (finishLong_inner _ _ _ _)

theorem appendEntry_inner (e : Entry) (s : State) : Inner s (appendEntry e s) :=
  (setEntries_inner _ s).trans (useSlot_inner _ _)

theorem insertFront_inner (e : Entry) (s : State) : Inner s (insertFront e s) :=
  (setEntries_inner _ s).trans (useSlot_inner _ _)

theorem dropEntry_inner (t : Nat) (s : State) : Inner s (dropEntry t s) := by
  unfold dropEntry
  split
  · exact .rfl s
  · exact (setEntries_inner _ s).trans (releaseSlot_inner _ _)

theorem createPanel_inner (p : Panel) (s : State) : Inner s (createPanel p s) :=
  (setOrd_inner s _).trans (useSlot_inner _ _)

theorem startPrintOf_inner (e : Entry) (rest : List Entry) (o : OpenOrder) (s : State) :
    Inner s (startPrintOf e rest o s) := by
  have h := (((setEntries_inner (e.taken :: rest) s).trans
    (createPanel_inner (newPanel (numberTaken s) o e s.pos.s) _)).trans
    (updOrder_inner o.ticket (fun o => o.setCopy e.copy fun c => { c with place := .printed }) _)).trans
    ((setEndMark_inner (some (s.pos.s + BitVec.ofNat 32 o.length)) _).trans (send_inner (m := .printStart (numberTaken s) o.length o.laneStart
      o.laneEnd o.tag) rfl _))
  exact .ite (fun _ => h.trans ((setEntries_inner rest _).trans (releaseSlot_inner _ _))) fun _ => h

theorem printTest_inner (s : State) : Inner s (printTest s) := by
  refine .ite (fun _ => ?_) fun _ => .rfl s
  unfold startPrint
  split
  · exact .rfl s
  · split
    · exact .rfl s
    · exact startPrintOf_inner _ _ _ s

theorem removePanel_inner (n : Half) (s : State) : Inner s (removePanel n s) := by
  unfold removePanel
  split
  · exact .rfl s
  · exact (setOrd_inner s _).trans (releaseSlot_inner _ _)

theorem freePanel_inner (n : Half) (s : State) : Inner s (freePanel n s) :=
  (removePanel_inner n s).trans (printTest_inner _)

theorem settleCopy_inner (p : Panel) (v : Verdict) (s : State) : Inner s (settleCopy p v s) :=
  (((updOrder_inner p.ticket _ s).trans (putTicket_inner (summaryAt_low _ _) _ _)).trans
    (freePanel_inner p.number _)).trans (finishIfSettled_inner _ _)

theorem requeueCopy_inner (o : OpenOrder) (p : Panel) (s : State) : Inner s (requeueCopy o p s) := by
  unfold requeueCopy
  split
  · exact setEntries_inner _ s
  · exact insertFront_inner _ s

theorem faultCopy_inner (p : Panel) (o : OpenOrder) (s : State) : Inner s (faultCopy p o s) :=
  .ite (fun _ => ((updOrder_inner _ _ s).trans (writeCancelled_inner _ _ _)).trans
      (finishIfSettled_inner _ _)) fun _ =>
    .ite (fun _ => ((updOrder_inner _ _ s).trans (requeueCopy_inner o p _)).trans (printTest_inner _))
      fun _ => (updOrder_inner _ _ s).trans (updPanel_inner _ _ _)

theorem faultPrint_inner (p : Panel) (s : State) : Inner s (faultPrint p s) := by
  have h := updPanel_inner p.number (fun p => { p with state := .void, travel := some .paper }) s
  unfold faultPrint
  split
  · exact h
  · exact h.trans (faultCopy_inner _ _ _)

end Sys2Proof.Machine
end

