-- ==== Sys2Proof/Proofs/Entry.lean ====
section
/-! PROOFS. The change of line state, field by field, and that it is inner: what an entry writes in the
heat, dose and tension units, and the laws of heaters, ranges and speed at an entry. -/

-- One thread for the whole file: each waiting thread reserves its stack.
set_option Elab.async false

namespace Sys2Proof.Machine

/-! ## The tension unit at an entry -/

/-- The zone once its auto-zero is aborted: the saved zeros restored (R148). -/
def TensionZone.aborted (t : TensionZone) : TensionZone :=
  match t.auto with
  | none => t
  | some a => { t with l := { t.l with zero := a.savedL }, r := { t.r with zero := a.savedR },
                       auto := none }

@[simp] theorem TensionZone.aborted_auto (t : TensionZone) : t.aborted.auto = none := by
  unfold aborted
  split
  · assumption
  · rfl

/-- An abort changes the two zeros and the auto-zero record of a zone alone. -/
theorem TensionZone.aborted_keeps (t : TensionZone) : t.aborted = { t with
    l := { t.l with zero := t.aborted.l.zero }, r := { t.r with zero := t.aborted.r.zero },
    auto := none } := by
  unfold aborted
  split
  · next h => rw [← h]
  · rfl

theorem TensionZone.aborted_of_none {t : TensionZone} (h : t.auto = none) : t.aborted = t := by
  unfold aborted
  rw [h]

theorem TensionZone.aborted_zero {t : TensionZone} {a : AutoZero} (h : t.auto = some a) :
    t.aborted.l.zero = a.savedL ∧ t.aborted.r.zero = a.savedR := by
  unfold aborted
  rw [h]
  exact ⟨rfl, rfl⟩

theorem abortAuto_tens (r : Nat) (s : State) (z : Fin 4) :
    (abortAuto r s z).tens = (updTension z TensionZone.aborted s).tens := by
  unfold abortAuto
  split
  · next h =>
    simp only [updTension, TensionZone.aborted_of_none h]
    simp
  · next a h =>
    simp only [endAuto, updTension, TensionZone.aborted, h]
    simp

theorem abortAuto_zone (r : Nat) (s : State) (y z : Fin 4) :
    (abortAuto r s y).tens.zones[z] =
      if y = z then s.tens.zones[z].aborted else s.tens.zones[z] := by
  rw [abortAuto_tens]
  split
  · next h => subst h; exact zones_updTension_same y _ s
  · next h => exact zones_updTension_other h _ s

/-- Aborting every auto-zero aborts each zone's own (R148). -/
theorem abortAutos_zone (r : Nat) (s : State) (z : Fin 4) :
    (abortAutos r s).tens.zones[z] = s.tens.zones[z].aborted := by
  have h : ∀ (l : List (Fin 4)) (u : State), l.Nodup →
      (l.foldl (abortAuto r) u).tens.zones[z] =
        if z ∈ l then u.tens.zones[z].aborted else u.tens.zones[z] := by
    intro l
    induction l with
    | nil => intro u _; simp
    | cons y l ih =>
      intro u hn
      obtain ⟨hy, hl⟩ := List.nodup_cons.mp hn
      rw [List.foldl_cons, ih _ hl, abortAuto_zone]
      by_cases e : y = z
      · subst e; simp [hy]
      · simp [e, Ne.symm e]
  rw [abortAutos, h _ _ (by decide), if_pos (by fin_cases z <;> decide)]

theorem abortAuto_tens_keeps (r : Nat) (s : State) (z : Fin 4) :
    (abortAuto r s z).tens.nip = s.tens.nip
    ∧ (abortAuto r s z).tens.heldFabric = s.tens.heldFabric
    ∧ (abortAuto r s z).tens.heldPaper = s.tens.heldPaper := by
  rw [abortAuto_tens]
  exact ⟨rfl, rfl, rfl⟩

/-- The regulator fields of a zone lie in their ranges (R133). -/
def TensionZone.InRange (t : TensionZone) : Prop :=
  -200 ≤ t.trim ∧ t.trim ≤ 200 ∧ -200 ≤ t.integral ∧ t.integral ≤ 200
    ∧ t.breakCount ≤ 50 ∧ t.skewCount ≤ 100

theorem TensionZone.SameRegulator.inRange {a b : TensionZone} (h : a.SameRegulator b)
    (ha : a.InRange) : b.InRange := by
  obtain ⟨e1, e2, e3, e4⟩ := h
  unfold InRange
  rw [e1, e2, e3, e4]
  exact ha

theorem TensionZone.aborted_regulator (t : TensionZone) : t.SameRegulator t.aborted := by
  rw [t.aborted_keeps]
  exact ⟨rfl, rfl, rfl, rfl⟩

/-- A rewrite of the tension unit that keeps the regulators in range. -/
theorem setTens_inner (s : State) (u : TensionUnit)
    (h : ∀ z : Fin 4, s.tens.zones[z].InRange → u.zones[z].InRange) : Inner s { s with tens := u } where
  toPorts := .of
  heaters h := ⟨h.disabled, h.unheated⟩
  range r := ⟨r.trims, r.target, r.position, r.zones, fun z => h z (r.tension z)⟩
  speed h := ⟨h.config, h.unstarted, h.stopped, h.limited, h.wrap⟩

theorem updTension_inner (z : Fin 4) {f : TensionZone → TensionZone} (h : ∀ t, t.InRange → (f t).InRange)
    (s : State) : Inner s (updTension z f s) := by
  refine setTens_inner s _ fun y hy => ?_
  by_cases e : z = y
  · subst e; simpa using h _ hy
  · have := zones_updTension_other e f s
    unfold updTension at this
    rw [this]
    exact hy

theorem mapTension_inner {f : TensionZone → TensionZone} (h : ∀ t, t.InRange → (f t).InRange)
    (s : State) : Inner s (mapTension f s) :=
  setTens_inner s _ fun z hz => by simpa using h _ hz

theorem endAuto_inner (z : Fin 4) (a : AutoZero) (l r : Int) (code : ResultCode) (d : Word)
    (reason side : Nat) (s : State) : Inner s (endAuto z a l r code d reason side s) := by
  have h := ticketBase_low a.ticket
  exact ((updTension_inner z (f := fun t => { t with
      l := { t.l with zero := l }, r := { t.r with zero := r }, auto := none }) (fun _ => id) s).trans
    (putTicket_inner (by omega) _ _)).trans
    (finishLong_inner _ _ _ _)

theorem abortAuto_inner (r : Nat) (s : State) (z : Fin 4) : Inner s (abortAuto r s z) := by
  unfold abortAuto
  split
  · exact .rfl s
  · exact endAuto_inner _ _ _ _ _ _ _ _ s

theorem abortAutos_inner (r : Nat) (s : State) : Inner s (abortAutos r s) :=
  Inner.foldl (abortAuto_inner r) _ s

/-- No break count is above its limit after it is set to 0. -/
theorem endBreak_inner (s : State) : Inner s (endBreak s) := by
  refine (mapTension_inner (fun t h => ?_) s).trans (endCondition_inner _ _)
  obtain ⟨h1, h2, h3, h4, -, h6⟩ := h
  exact ⟨h1, h2, h3, h4, Nat.zero_le _, h6⟩

theorem coldTargets_inner (s : State) : Inner s (coldTargets s) :=
  mapTension_inner (f := fun t => { t with target := 0, working := 0, rampDone := true }) (fun _ => id) s

theorem tensionAnswer_inner (new : LineState) (s : State) : Inner s (tensionAnswer new s) := by
  cases new
  case cold => exact ((coldTargets_inner s).trans (endBreak_inner _)).trans (abortAutos_inner 4 _)
  case thread => exact (endBreak_inner s).trans (abortAutos_inner 4 _)
  case warm => exact (endBreak_inner s).trans (abortAutos_inner 4 _)
  case ready => exact abortAutos_inner 4 s
  case run => exact abortAutos_inner 4 s
  case hold => exact abortAutos_inner 4 s
  case halt => exact (endBreak_inner s).trans (abortAutos_inner 4 _)

/-! ## The heat and dose units at an entry -/

theorem storeAnswer_inner (new : LineState) (s : State) : Inner s (storeAnswer new s) := by
  cases new
  case cold => exact (endCondition_inner _ s).trans (endCondition_inner _ _)
  case thread => exact (endCondition_inner _ s).trans (endCondition_inner _ _)
  case halt => exact (endCondition_inner _ s).trans (endCondition_inner _ _)
  all_goals exact .rfl s

theorem haltCause_inner (new : LineState) (s : State) : Inner s (haltCause new s) :=
  .ite (fun _ => raiseCause_inner .halt s) fun _ => .rfl s

theorem heatOff_ports (s : State) : Ports s (heatOff s) :=
  (((Ports.of : Ports s (setZones (s.heat.zones.map Zone.shutOff) s)).trans
    (endCondition_inner .zoneOvertemp _).toPorts).trans
    (endCondition_inner .zoneSensorLost _).toPorts).trans (endCondition_inner .zonePairLost _).toPorts

theorem moveWrap_ports (w : WrapState) (c : WrapCommand) (s : State) : Ports s (moveWrap w c s) := .of

theorem wrapAnswer_ports (old new : LineState) (s : State) : Ports s (wrapAnswer old new s) := .of

theorem speedAnswer_ports (new : LineState) (s : State) : Ports s (speedAnswer new s) := .of

theorem setLineState_ports (new : LineState) (s : State) : Ports s (setLineState new s) := .of

theorem heatAnswer_ports (had : Bool) (s : State) : Ports s (heatAnswer had s) := by
  unfold heatAnswer
  split
  · exact heatOff_ports s
  · exact .rfl s

/-- The entry before the wrap and the speed answer it: the controller's fields, the notice, the HALT
cause and the heat unit's answer. -/
def entryHead (new : LineState) (cause : LineCause) (s : State) : State :=
  heatAnswer s.line.heat (haltCause new
    (writeNotice .lineState (natWord s.line.state.code) (natWord new.code) cause.word
      (setLineState new s)))

/-- The entry after the wrap and the speed have answered it. -/
def entryTail (new : LineState) (s : State) : State :=
  printTest (tensionAnswer new (storeAnswer new s))

theorem enterState_eq (new : LineState) (cause : LineCause) (s : State) :
    enterState new cause s =
      entryTail new (speedAnswer new (wrapAnswer s.line.state new (entryHead new cause s))) := rfl

theorem entryHead_ports (new : LineState) (cause : LineCause) (s : State) :
    Ports s (entryHead new cause s) :=
  (((setLineState_ports new s).trans (writeNotice_inner _ _ _ _ _).toPorts).trans
    (haltCause_inner new _).toPorts).trans (heatAnswer_ports _ _)

theorem entryTail_inner (new : LineState) (s : State) : Inner s (entryTail new s) :=
  ((storeAnswer_inner new s).trans (tensionAnswer_inner new _)).trans (printTest_inner _)

theorem enterState_ports (new : LineState) (cause : LineCause) (s : State) :
    Ports s (enterState new cause s) :=
  (((entryHead_ports new cause s).trans (wrapAnswer_ports _ _ _)).trans
    (speedAnswer_ports new _)).trans (entryTail_inner new _).toPorts

@[simp] theorem entryTail_keeps (new : LineState) (s : State) :
    (entryTail new s).heat = s.heat ∧ (entryTail new s).dose = s.dose
    ∧ (entryTail new s).reg = s.reg ∧ (entryTail new s).pos = s.pos
    ∧ (entryTail new s).trig = s.trig := by
  simp [entryTail]

/-- The controller's own fields after an entry: as `setLineState` gives them (R2, R16). -/
theorem enterState_line_eq (new : LineState) (cause : LineCause) (s : State) :
    (enterState new cause s).line = { s.line with
      state := new, heat := heatOf new s.line.heat,
      threadHeat := if new = .thread then s.line.heat else s.line.threadHeat,
      jog := jogOf new s.line.jog, alarms := (enterState new cause s).line.alarms } :=
  (enterState_line new cause s).1

@[simp] theorem enterState_line_heat (new : LineState) (cause : LineCause) (s : State) :
    (enterState new cause s).line.heat = heatOf new s.line.heat := by rw [enterState_line_eq]

@[simp] theorem enterState_line_jog (new : LineState) (cause : LineCause) (s : State) :
    (enterState new cause s).line.jog = jogOf new s.line.jog := by rw [enterState_line_eq]

@[simp] theorem enterState_line_keeps (new : LineState) (cause : LineCause) (s : State) :
    (enterState new cause s).line.auth = s.line.auth
    ∧ (enterState new cause s).line.speedClass = s.line.speedClass
    ∧ (enterState new cause s).line.classLock = s.line.classLock
    ∧ (enterState new cause s).line.fabric = s.line.fabric
    ∧ (enterState new cause s).line.marks = s.line.marks
    ∧ (enterState new cause s).line.lockedAt = s.line.lockedAt
    ∧ (enterState new cause s).line.pendant = s.line.pendant
    ∧ (enterState new cause s).line.pendantAt = s.line.pendantAt
    ∧ (enterState new cause s).line.link = s.line.link
    ∧ (enterState new cause s).line.linkWatch = s.line.linkWatch
    ∧ (enterState new cause s).line.drive = s.line.drive
    ∧ (enterState new cause s).line.chainOpen = s.line.chainOpen := by
  rw [enterState_line_eq]
  exact ⟨rfl, rfl, rfl, rfl, rfl, rfl, rfl, rfl, rfl, rfl, rfl, rfl⟩

theorem heatOff_heat (s : State) :
    (heatOff s).heat = { s.heat with zones := s.heat.zones.map Zone.shutOff } := by
  simp [heatOff, setZones]

/-- The heat enable going off shuts every zone off; any other entry leaves the heat unit (R103). -/
theorem enterState_heat (new : LineState) (cause : LineCause) (s : State) :
    (enterState new cause s).heat = if s.line.heat = true ∧ heatOf new s.line.heat = false then
      { s.heat with zones := s.heat.zones.map Zone.shutOff } else s.heat := by
  have e : (enterState new cause s).heat = (entryHead new cause s).heat := by
    rw [enterState_eq]
    simp
  rw [e]
  unfold entryHead heatAnswer
  simp only [haltCause_keeps, writeNotice_keeps, setLineState_line_heat, Bool.and_eq_true,
    Bool.not_eq_true']
  split
  · rw [heatOff_heat]; simp
  · simp

@[simp] theorem entryHead_dose (new : LineState) (cause : LineCause) (s : State) :
    (entryHead new cause s).dose = s.dose := by simp [entryHead]

theorem heatAnswer_line_keeps (had : Bool) (s : State) :
    (heatAnswer had s).line.jog = s.line.jog ∧ (heatAnswer had s).line.state = s.line.state := by
  rw [(heatAnswer_line had s).1]
  exact ⟨rfl, rfl⟩

@[simp] theorem entryHead_jog (new : LineState) (cause : LineCause) (s : State) :
    (entryHead new cause s).line.jog = jogOf new s.line.jog := by
  simp [entryHead, heatAnswer_line_keeps]

/-- The wrap after a movement has begun (R118, R119). -/
theorem moveWrap_dose (w : WrapState) (c : WrapCommand) (s : State) :
    (moveWrap w c s).dose =
      { s.dose with wrap := w, command := c, watch := some (s.host.clock + 5000) } := by
  simp [moveWrap]

@[simp] theorem speedAnswer_wrap (new : LineState) (s : State) :
    (speedAnswer new s).dose.wrap = s.dose.wrap := by cases new <;> rfl

/-- The wrap after an entry (R118). -/
theorem enterState_wrap (new : LineState) (cause : LineCause) (s : State) :
    (enterState new cause s).dose.wrap = (if new = .run then
        (if s.dose.wrap = .opened ∨ s.dose.wrap = .opening then .closing else s.dose.wrap)
      else if s.line.state = .run ∧ (s.dose.wrap = .closing ∨ s.dose.wrap = .closed) then .opening
      else s.dose.wrap) := by
  rw [enterState_eq]
  simp only [entryTail_keeps, speedAnswer_wrap]
  unfold wrapAnswer
  split
  · split <;> simp_all [moveWrap_dose]
  · split
    · split <;> simp_all [moveWrap_dose]
    · simp_all

theorem wrapAnswer_sCmd (old new : LineState) (s : State) :
    (wrapAnswer old new s).dose.sCmd = s.dose.sCmd := by
  unfold wrapAnswer
  split
  · split <;> simp [moveWrap_dose]
  · split
    · split <;> simp [moveWrap_dose]
    · rfl

/-- S_cmd after an entry (R129): the jog is NONE on entry to THREAD. -/
theorem enterState_speed (new : LineState) (cause : LineCause) (s : State) :
    (enterState new cause s).dose.sCmd = (if new = .cold ∨ new = .halt ∨ new = .thread then 0
      else if new = .hold then s.dose.sCmd else 20) := by
  rw [enterState_eq]
  simp only [entryTail_keeps]
  cases new <;> simp [speedAnswer, wrapAnswer_sCmd, jogOf]

/-! ## The laws at an entry -/

/-- The condition under which an entry keeps the speed law: a line state with a speed is entered from one,
or after START, or by a walker that is not OFF (R166). -/
def MayEnter (new : LineState) (s : State) : Prop :=
  new = .cold ∨ new = .halt ∨ (s.line.state ≠ .cold ∧ s.line.state ≠ .halt) ∨ Live s

theorem SpeedLaw.started_of_mayEnter {new : LineState} {s : State} (h : SpeedLaw s)
    (hm : MayEnter new s) (hc : new ≠ .cold) (hh : new ≠ .halt) : Machine.started s = true := by
  rcases hm with hm | hm | hm | hm
  · exact absurd hm hc
  · exact absurd hm hh
  · by_contra hs
    rcases (h.unstarted (by simpa using hs)).1 with e | e
    · exact hm.1 e
    · exact hm.2 e
  · exact h.started_of_live hm

theorem HeatersSafe.shutOff {u : HeatUnit} (k : Fin 8) :
    (u.zones.map Zone.shutOff)[k].state = .off ∧ (u.zones.map Zone.shutOff)[k].heater = false
    ∧ (u.zones.map Zone.shutOff)[k].power = 0 ∧ (u.zones.map Zone.shutOff)[k].onEnd = none := by
  simp [Zone.shutOff]

theorem enterState_heaters (new : LineState) (cause : LineCause) {s : State} (h : HeatersSafe s) :
    HeatersSafe (enterState new cause s) := by
  have hz := enterState_heat new cause s
  by_cases hc : s.line.heat = true ∧ heatOf new s.line.heat = false
  · rw [if_pos hc] at hz
    refine ⟨fun _ k => ?_, fun k _ => ?_⟩
    · rw [hz]; exact (HeatersSafe.shutOff k).1
    · rw [hz]; exact (HeatersSafe.shutOff k).2
  · rw [if_neg hc] at hz
    refine ⟨fun ht => ?_, ?_⟩
    · rw [hz]
      refine h.disabled ?_
      rw [enterState_line_heat] at ht
      by_contra hs
      exact hc ⟨by simpa using hs, ht⟩
    · rw [hz]; exact h.unheated

/-- The lib, reg and tension fields that the ranges speak of, after an entry. -/
theorem enterState_range (new : LineState) (cause : LineCause) {s : State} (h : WithinRange s) :
    WithinRange (enterState new cause s) := by
  have hr : WithinRange (speedAnswer new (wrapAnswer s.line.state new (entryHead new cause s))) := by
    have e : ∀ u : State, u.lib = s.lib → u.reg = s.reg → u.tens = s.tens →
        u.heat = s.heat ∨ u.heat = { s.heat with zones := s.heat.zones.map Zone.shutOff } →
        WithinRange u := by
      intro u e1 e2 e3 e4
      refine ⟨by rw [e1]; exact h.trims, by rw [e2]; exact h.target, by rw [e2]; exact h.position,
        fun k => ?_, by rw [e3]; exact h.tension⟩
      rcases e4 with e4 | e4
      · rw [e4]; exact h.zones k
      · rw [e4]; simp [Zone.shutOff]
    refine e _ (by simp [entryHead]) (by simp [entryHead]) (by simp [entryHead]) ?_
    have hz := enterState_heat new cause s
    rw [enterState_eq, (entryTail_keeps _ _).1] at hz
    rw [hz]
    split
    · exact .inr rfl
    · exact .inl rfl
  rw [enterState_eq]
  exact (entryTail_inner new _).range hr

theorem enterState_speedLaw {new : LineState} (cause : LineCause) {s : State} (hm : MayEnter new s)
    (h : SpeedLaw s) : SpeedLaw (enterState new cause s) := by
  have hp := enterState_ports new cause s
  have hc := hp.bytes.sameConfig
  have hv : vLim (enterState new cause s) = vLim s := hc.vLim_eq (by simp)
  refine ⟨fun ht => ?_, fun ht => ?_, fun ht => ?_, ?_, fun ht => ?_⟩
  · exact hc.accepted.mpr (h.config (hp.started ▸ ht))
  · have hs : ¬ Machine.started s = true := by rw [← hp.started, ht]; decide
    refine ⟨?_, hp.off.mpr (h.unstarted (by simpa using hs)).2⟩
    rw [enterState_state]
    by_contra hn
    exact hs (h.started_of_mayEnter hm (fun e => hn (.inl e)) fun e => hn (.inr e))
  · rw [enterState_state] at ht
    rw [enterState_speed, if_pos]
    rcases ht with ht | ht
    · exact .inl ht
    · exact .inr (.inl ht)
  · rw [hv, enterState_speed]
    split
    · exact Nat.zero_le _
    · next hn =>
      split
      · exact h.limited
      · exact (h.config (h.started_of_mayEnter hm (fun e => hn (.inl e))
          fun e => hn (.inr (.inl e)))).vLim_ge
  · rw [enterState_state]
    by_contra hn
    rw [enterState_wrap, if_neg hn] at ht
    split at ht
    · simp at ht
    · next hr => exact hr ⟨h.wrap ht, ht⟩

theorem enterState_inner {new : LineState} (cause : LineCause) {s : State} (hm : MayEnter new s) :
    Inner s (enterState new cause s) where
  toPorts := enterState_ports new cause s
  heaters := enterState_heaters new cause
  range := enterState_range new cause
  speed := enterState_speedLaw cause hm

/-! ## Re-tests, requests, raises and the jog -/

theorem MayEnter.of_moving {new : LineState} {s : State} (h1 : s.line.state ≠ .cold)
    (h2 : s.line.state ≠ .halt) : MayEnter new s := .inr (.inr (.inl ⟨h1, h2⟩))

theorem retest_inner (s : State) : Inner s (retest s) := by
  rcases retest_cases s with e | ⟨h, -, e⟩ | ⟨h, -, e⟩
  · exact .of_eq e
  · rw [e]; exact enterState_inner _ (.of_moving (by simp [h]) (by simp [h]))
  · rw [e]; exact enterState_inner _ (.of_moving (by simp [h]) (by simp [h]))

theorem runRetest_inner (s : State) : Inner s (runRetest s) := by
  rcases runRetest_cases s with e | ⟨h, -, e⟩
  · exact .of_eq e
  · rw [e]; exact enterState_inner _ (.of_moving (by simp [h]) (by simp [h]))

theorem applyRequest_inner (a : Alarm) (s : State) : Inner s (applyRequest a s) := by
  rcases applyRequest_cases a s with e | ⟨-, -, e⟩ | ⟨-, h, e⟩ | ⟨-, h, e⟩
  · exact .of_eq e
  · rw [e]; exact enterState_inner _ (.inr (.inl rfl))
  · rw [e]; exact enterState_inner _ (.of_moving (by simp [h]) (by simp [h]))
  · rw [e]; exact enterState_inner _ (.of_moving (by simp [h]) (by simp [h]))

theorem raiseAlarm_inner (a : Alarm) (d1 d2 : Word) (s : State) : Inner s (raiseAlarm a d1 d2 s) := by
  rcases raiseAlarm_cases a d1 d2 s with ⟨-, -, e⟩ | ⟨-, e⟩
  · exact .of_eq e
  · rw [e]
    exact ((setAlarm_inner a _ s).trans (writeNotice_inner _ _ _ _ _)).trans (applyRequest_inner a _)

/-- A speed of at most V_lim, and 0 where the line stands in COLD or HALT. -/
theorem setSpeed_inner {v : Nat} {s : State}
    (h0 : SpeedLaw s → s.line.state = .cold ∨ s.line.state = .halt → v = 0)
    (hv : SpeedLaw s → v ≤ vLim s) :
    Inner s (setSpeed v s) where
  toPorts := .of
  heaters h := ⟨h.disabled, h.unheated⟩
  range r := ⟨r.trims, r.target, r.position, r.zones, r.tension⟩
  speed h := ⟨h.config, h.unstarted, h0 h, hv h, h.wrap⟩

theorem jogSpeed_inner (j : Jog) (s : State) : Inner s (jogSpeed j s) := by
  refine .ite (fun h => ?_) fun _ => .rfl s
  refine setSpeed_inner (by simp [h]) fun hs => ?_
  split
  · exact Nat.zero_le _
  · exact (hs.config (hs.started_of_mayEnter (new := .thread) (.of_moving (by simp [h]) (by simp [h]))
      (by simp) (by simp))).vLim_ge

/-- A rewrite of controller fields that the laws do not read. -/
theorem setLine_inner (s : State) (l : LineUnit) (h1 : l.state = s.line.state := by rfl)
    (h2 : l.heat = s.line.heat := by rfl) (h3 : l.speedClass = s.line.speedClass := by rfl) :
    Inner s { s with line := l } := SameView.inner { heat := h2, state := h1, cls := h3 }

theorem setJog_inner (j : Jog) (s : State) : Inner s (setJog j s) := by
  have h : Inner s (jogSpeed j { s with line := { s.line with jog := j } }) :=
    (setLine_inner s { s.line with jog := j }).trans (jogSpeed_inner j _)
  exact .ite (fun _ => .rfl s) fun _ =>
    .ite (fun _ => h.trans (abortAutos_inner 5 _)) fun _ => h

end Sys2Proof.Machine
end

