-- ==== Sys2Proof/Proofs/InnerBlocks.lean ====
section
/-! PROOFS. The operations of the trigger, dose, registration, tension, check, heat and position units
are inner. -/

-- One thread for the whole file: each waiting thread reserves its stack.
set_option Elab.async false

namespace Sys2Proof.Machine

/-! ## Trigger unit -/

/-- A rewrite of the trigger unit. -/
theorem setTrig_inner (s : State) (u : TrigUnit) : Inner s { s with trig := u } := SameView.inner {}

theorem updChannel_inner (c : Fin 12) (f : Channel → Channel) (s : State) :
    Inner s (updChannel c f s) := setTrig_inner s _

theorem setLatches_inner (ls : Vector Latch 8) (s : State) : Inner s (setLatches ls s) :=
  setTrig_inner s _

theorem setCuts_inner (cs : List Word) (s : State) : Inner s (setCuts cs s) := setTrig_inner s _

theorem endReverseJog_inner (s : State) : Inner s (endReverseJog s) :=
  .ite (fun _ => (setJog_inner .still s).trans (lightLocked_inner _)) fun _ => .rfl s

theorem startCounting_inner (c : Fin 12) (r : Nat) (s : State) : Inner s (startCounting c r s) :=
  .ite (fun _ => updChannel_inner c _ s) fun _ =>
    (updChannel_inner c (fun ch => ch.start r) s).trans (endReverseJog_inner _)

theorem cutFired_inner (x : Word) (s : State) : Inner s (cutFired x s) := by
  have h := setCuts_inner s.trig.cuts.tail s
  unfold cutFired
  split
  · exact h
  · exact h.trans (updChannel_inner _ _ _)

theorem fireChannel_inner (x : Word) (c : Fin 12) (s : State) : Inner s (fireChannel x c s) := by
  have h : Inner s (fireLatches c (updChannel c Channel.fire s)) :=
    (updChannel_inner c Channel.fire s).trans (setLatches_inner _ _)
  exact .ite (fun _ => h.trans (cutFired_inner x _)) fun _ => h

theorem stepChannel_inner (x : Word) (c : Fin 12) (s : State) : Inner s (stepChannel x c s) :=
  .ite (fun _ => .ite (fun _ => updChannel_inner c _ s) fun _ => fireChannel_inner x c s)
    fun _ => .rfl s

theorem offerStep_inner (src : ChanSource) (x : Word) (s : State) (c : Fin 12) :
    Inner s (offerStep src x s c) :=
  .ite (fun _ => .ite (fun _ => updChannel_inner c _ s) fun _ => stepChannel_inner x c s)
    fun _ => .rfl s

theorem offerSteps_inner (src : ChanSource) (x : Word) (cs : List (Fin 12)) (s : State) :
    Inner s (offerSteps src x cs s) := Inner.foldl (offerStep_inner src x) cs s

theorem armChannel_inner (src : ArmSource) (s : State) (c : Fin 12) : Inner s (armChannel src s c) :=
  .ite (fun _ => startCounting_inner c _ s) fun _ => .rfl s

theorem armEvent_inner (src : ArmSource) (cs : List (Fin 12)) (s : State) :
    Inner s (armEvent src cs s) := Inner.foldl (armChannel_inner src) cs s

theorem markRequest_inner (n : Half) (s : State) : Inner s (markRequest n s) :=
  .ite (fun _ => writeNotice_inner _ _ _ _ s) fun _ => startCounting_inner 0 3900 s

theorem loadKnife_inner (s : State) : Inner s (loadKnife s) := by
  unfold loadKnife
  split
  · exact .rfl s
  · exact startCounting_inner _ _ s

theorem cutRequest_inner (p : Word) (n : Half) (s : State) : Inner s (cutRequest p n s) := by
  have h := setCuts_inner (insertCut p s.trig.cuts) s
  exact .ite (fun _ => writeNotice_inner _ _ _ _ s) fun _ =>
    .ite (fun _ => h.trans (loadKnife_inner _)) fun _ => h

theorem writeChannel_inner (c : Fin 12) (src : ChanSource) (m : ChanMode) (r : Nat) (a : ArmSource)
    (b : Bool) (s : State) : Inner s (writeChannel c src m r a b s) :=
  .ite (fun _ => updChannel_inner c _ s) fun _ => .ite (fun _ => updChannel_inner c _ s) fun _ =>
    (updChannel_inner c _ s).trans (startCounting_inner c r _)

theorem takeTriggerSet_inner (n : Nat) (s : State) : Inner s (takeTriggerSet n s) := by
  unfold takeTriggerSet
  split
  · exact refuseTicket_inner _ _ _ s
  · exact (writeChannel_inner _ _ _ _ _ _ s).trans (finishTicket_inner _ _ _ _)

theorem takeTriggerGroup_inner (n : Nat) (s : State) : Inner s (takeTriggerGroup n s) :=
  .ite (fun _ => refuseTicket_inner _ _ _ s) fun _ => .ite (fun _ => refuseTicket_inner _ _ _ s)
    fun _ => (armEvent_inner _ _ s).trans (finishTicket_inner _ _ _ _)

theorem takeTriggerCorrect_inner (n : Nat) (s : State) : Inner s (takeTriggerCorrect n s) :=
  .ite (fun _ => refuseTicket_inner _ _ _ s) fun _ => .ite (fun _ => refuseTicket_inner _ _ _ s)
    fun _ => .ite (fun _ => refuseTicket_inner _ _ _ s) fun _ =>
      .ite (fun _ => refuseTicket_inner _ _ _ s) fun _ =>
        (updChannel_inner _ _ s).trans (finishTicket_inner _ _ _ _)

theorem finishOutput_inner (n : Nat) (d : Word) (s : State) : Inner s (finishOutput n d s) := by
  have h := ticketBase_low n
  exact (putTicket_inner (by omega) _ s).trans (finishTicket_inner _ _ _ _)

theorem updLatch_inner (i : Fin 8) (f : Latch → Latch) (s : State) : Inner s (updLatch i f s) :=
  setLatches_inner _ s

theorem takeOutputSet_inner (n : Nat) (s : State) : Inner s (takeOutputSet n s) :=
  .ite (fun _ => refuseTicket_inner _ _ _ s) fun _ => .ite (fun _ => refuseTicket_inner _ _ _ s)
    fun _ => .ite (fun _ => finishOutput_inner _ _ s) fun _ =>
      .ite (fun _ => .ite (fun _ => (updLatch_inner _ _ s).trans (finishOutput_inner _ _ _))
        fun _ => refuseTicket_inner _ _ _ s)
      fun _ => (updLatch_inner _ _ s).trans (finishOutput_inner _ _ _)

/-! ## Dose unit -/

theorem setCells_inner (cs : List WrapCell) (s : State) : Inner s (setCells cs s) := SameView.inner {}

theorem shiftCells_inner (m : Word) (s : State) : Inner s (shiftCells m s) := by
  refine Inner.trans ?_ (setCells_inner _ _)
  split
  · exact .rfl s
  · unfold foldCell
    split
    · exact .rfl s
    · exact updPanel_inner _ _ s

theorem crossCells_inner (s : State) : Inner s (crossCells s) := by
  unfold crossCells
  split
  · exact .rfl s
  · exact .ite (fun _ => shiftCells_inner _ s) fun _ => .rfl s

theorem nameTail_inner (n : Half) (f : Word) (s : State) : Inner s (nameTail n f s) := by
  unfold nameTail
  split
  · exact .rfl s
  · exact .ite (fun _ => setCells_inner _ s) fun _ => .rfl s

/-- A new wrap state, command and watch that closes only in RUN. -/
theorem setWrap_inner {s : State} (w : WrapState) (c : WrapCommand) (watch : Option Word)
    (h : SpeedLaw s → w = .closing ∨ w = .closed → s.line.state = .run) :
    Inner s { s with dose := { s.dose with wrap := w, command := c, watch := watch } } where
  toPorts := .of
  heaters h := ⟨h.disabled, h.unheated⟩
  range r := ⟨r.trims, r.target, r.position, r.zones, r.tension⟩
  speed hs := ⟨hs.config, hs.unstarted, hs.stopped, hs.limited, h hs⟩

theorem moveWrap_inner {w : WrapState} {c : WrapCommand} {s : State}
    (h : SpeedLaw s → w = .closing ∨ w = .closed → s.line.state = .run) :
    Inner s (moveWrap w c s) :=
  (setWrap_inner w c (some (s.host.clock + 5000)) h).trans (mapPanels_inner _ _)

theorem wrapReached_inner {w : WrapState} {s : State}
    (h : SpeedLaw s → w = .closing ∨ w = .closed → s.line.state = .run) :
    Inner s (wrapReached w s) :=
  (setWrap_inner w s.dose.command none h).trans (endCondition_inner _ _)

theorem wrapReport_inner (r : WrapReport) (s : State) : Inner s (wrapReport r s) := by
  have again : s.dose.wrap = .closed →
      Inner s (printTest (setSpeed 20 (moveWrap .closing .close s))) := fun hw => by
    have hr : SpeedLaw (moveWrap .closing .close s) → s.line.state = .run := fun hs => by
      simpa using hs.wrap (.inl (by simp [moveWrap_dose]))
    refine ((moveWrap_inner fun hs _ => hs.wrap (.inr hw)).trans
      (setSpeed_inner (fun hs => ?_) fun hs => ?_)).trans (printTest_inner _)
    · simp [hr hs]
    · exact (hs.config (hs.started_of_mayEnter (new := .run)
        (.of_moving (by simp [hr hs]) (by simp [hr hs])) (by simp) (by simp))).vLim_ge
  unfold wrapReport
  split
  case h_1 h => exact (wrapReached_inner fun hs _ => hs.wrap (.inl h)).trans (printTest_inner _)
  case h_2 => exact (wrapReached_inner (by simp)).trans (printTest_inner _)
  case h_3 h => exact again h
  case h_4 h => exact again h
  all_goals exact .rfl s

theorem wrapTimedOut_inner (s : State) : Inner s (wrapTimedOut s) :=
  (setWrap_inner s.dose.wrap s.dose.command none fun hs => hs.wrap).trans (raiseAlarm_inner _ _ _ _)

theorem accumulate_inner (s : State) : Inner s (accumulate s) :=
  .ite (fun _ => (mapPanels_inner _ s).trans (setCells_inner _ _)) fun _ => .rfl s

theorem speedTarget_le (s : State) : speedTarget s ≤ vLim s := by
  have hf : ∀ (l : List Panel) (v : Nat),
      l.foldl (fun t p => min t (min (capOf s p) (maxSpeed s p.profile))) v ≤ v := by
    intro l
    induction l with
    | nil => intro v; exact Nat.le_refl v
    | cons p l ih => intro v; exact (ih _).trans (Nat.min_le_left _ _)
  unfold speedTarget
  split
  · exact Nat.min_le_right _ _
  · exact hf _ _

theorem rampSpeed_le {v t top : Nat} (hv : v ≤ top) (ht : t ≤ top) : rampSpeed v t ≤ top := by
  unfold rampSpeed
  split <;> omega

theorem govern_inner (s : State) : Inner s (govern s) :=
  SameView.inner { sCmd := rfl, wrap := rfl }

/-- The speed command after a dose interval is at most V_lim, whose target is (R128). -/
theorem stepSpeed_inner {s : State} (ht : s.dose.sTarget ≤ vLim s) : Inner s (stepSpeed s) := by
  refine setSpeed_inner (fun _ h => ?_) fun hs => ?_
  · unfold steppedSpeed
    rcases h with h | h <;> rw [h]
  · have h20 : s.line.state ≠ .cold → s.line.state ≠ .halt → 20 ≤ vLim s := fun h1 h2 =>
      (hs.config (hs.started_of_mayEnter (new := .run) (.of_moving h1 h2) (by simp) (by simp))).vLim_ge
    unfold steppedSpeed
    cases hl : s.line.state
    case cold => exact Nat.zero_le _
    case halt => exact Nat.zero_le _
    case thread =>
      dsimp only
      split
      · exact Nat.zero_le _
      · exact h20 (by simp [hl]) (by simp [hl])
    case warm => exact h20 (by simp [hl]) (by simp [hl])
    case ready => exact h20 (by simp [hl]) (by simp [hl])
    case run =>
      dsimp only
      split
      · exact rampSpeed_le hs.limited ht
      · exact h20 (by simp [hl]) (by simp [hl])
    case hold => exact rampSpeed_le hs.limited (h20 (by simp [hl]) (by simp [hl]))

theorem starveTest_inner (s : State) : Inner s (starveTest s) :=
  .ite (fun _ => endCondition_inner _ s) fun _ => .ite (fun _ => raiseAlarm_inner _ _ _ s)
    fun _ => .rfl s

theorem doseStep_inner (s : State) : Inner s (doseStep s) := by
  refine (((accumulate_inner s).trans (govern_inner _)).trans (stepSpeed_inner ?_)).trans
    (starveTest_inner _)
  exact speedTarget_le (accumulate s)

theorem doseInterval_inner (s : State) : Inner s (doseInterval s) :=
  .ite (fun _ => doseStep_inner s) fun _ => .rfl s

/-! ## Registration unit -/

/-- A rewrite of the registration unit within the roller's range. -/
theorem setReg_inner (s : State) (u : RegUnit) (h1 : -600 ≤ u.target ∧ u.target ≤ 600 ∨ u.target = s.reg.target)
    (h2 : u.position = s.reg.position ∨ (-600 ≤ s.reg.target ∧ s.reg.target ≤ 600 → -600 ≤ s.reg.position ∧
      s.reg.position ≤ 600 → -600 ≤ u.position ∧ u.position ≤ 600)) : Inner s { s with reg := u } where
  toPorts := .of
  heaters h := ⟨h.disabled, h.unheated⟩
  range r := by
    refine ⟨r.trims, ?_, ?_, r.zones, r.tension⟩
    · rcases h1 with h1 | h1
      · exact h1
      · show -600 ≤ u.target ∧ u.target ≤ 600
        rw [h1]
        exact r.target
    · rcases h2 with h2 | h2
      · show -600 ≤ u.position ∧ u.position ≤ 600
        rw [h2]
        exact r.position
      · exact h2 r.target r.position
  speed h := ⟨h.config, h.unstarted, h.stopped, h.limited, h.wrap⟩

/-- A rewrite of the registration unit that keeps target and position. -/
theorem setRegRest_inner (s : State) (u : RegUnit) (h1 : u.target = s.reg.target := by rfl)
    (h2 : u.position = s.reg.position := by rfl) : Inner s { s with reg := u } :=
  setReg_inner s u (.inr h1) (.inl h2)

theorem setQueue_inner (q : List Piece) (s : State) : Inner s (setQueue q s) := setRegRest_inner s _

theorem setList_inner (l : List Half) (s : State) : Inner s (setList l s) := setRegRest_inner s _

theorem limitPairing_inner (n : Half) (o : Int) (x : Word) (s : State) :
    Inner s (limitPairing n o x s) :=
  .ite (fun _ => (updPanel_inner n _ s).trans (writeNotice_inner _ _ _ _ _)) fun _ => .rfl s

theorem pairPanel_inner (n : Half) (xp : Word) (s : State) : Inner s (pairPanel n xp s) := by
  unfold pairPanel
  split
  · exact .rfl s
  · exact ((setQueue_inner _ s).trans (updPanel_inner n _ _)).trans (limitPairing_inner _ _ _ _)

theorem setTarget_inner (n : Half) {t : Int} (limited : Bool) (s : State) (h : -600 ≤ t ∧ t ≤ 600) :
    Inner s (setTarget n t limited s) := by
  have hr := setReg_inner s { s.reg with target := t, limited := limited } (.inl h) (.inl rfl)
  exact .ite (fun _ => hr.trans (raiseAlarm_inner _ _ _ _)) fun _ => hr.trans (endCondition_inner _ _)

theorem limit_range {lo hi : Int} (h : lo ≤ hi) (v : Int) : lo ≤ limit lo hi v ∧ limit lo hi v ≤ hi := by
  unfold limit
  split
  · omega
  · split <;> omega

theorem review_inner (s : State) : Inner s (review s) := by
  refine .ite (fun _ => .rfl s) fun _ => ?_
  split
  · exact .rfl s
  · split
    · exact .rfl s
    · exact .ite (fun _ => setTarget_inner _ _ s (limit_range (by decide) _)) fun _ => .rfl s

theorem stagePanel_inner (n : Half) (s : State) : Inner s (stagePanel n s) := by
  have h := (updPanel_inner n Panel.toStaged s).trans
    (setList_inner (insertByXp (xpOf (updPanel n Panel.toStaged s)) n
      (updPanel n Panel.toStaged s).reg.list) _)
  unfold stagePanel
  dsimp only
  refine .ite (fun _ => Inner.trans ?_ (review_inner _)) fun _ => ?_
  all_goals
    split
    · exact h
    · exact .ite (fun _ => h.trans (pairPanel_inner _ _ _)) fun _ => h

theorem passWindow_inner (s : State) (n : Half) : Inner s (passWindow s n) := by
  unfold passWindow
  split
  · exact .rfl s
  · exact .ite (fun _ => (updPanel_inner n _ s).trans (stagePanel_inner n _)) fun _ => .rfl s

theorem windowTests_inner (s : State) : Inner s (windowTests s) :=
  (mapPanels_inner _ s).trans (Inner.foldl passWindow_inner _ _)

theorem paperMarkAt_inner (st : Stamp) (s : State) : Inner s (paperMarkAt st s) := by
  unfold paperMarkAt
  split
  · exact writeNotice_inner _ _ _ _ s
  · exact (updPanel_inner _ _ s).trans (stagePanel_inner _ _)

theorem retryPanel_inner (s : State) (n : Half) : Inner s (retryPanel s n) := by
  unfold retryPanel
  split
  · exact .rfl s
  · exact .ite (fun _ => pairPanel_inner _ _ s) fun _ => .rfl s

theorem retryWaiting_inner (s : State) : Inner s (retryWaiting s) := by
  have h := Inner.foldl retryPanel_inner s.reg.list s
  exact .ite (fun _ => h.trans (review_inner _)) fun _ => h

theorem fabricMarkAt_inner (x : Word) (s : State) : Inner s (fabricMarkAt x s) :=
  .ite (fun _ => .rfl s) fun _ => .ite
    (fun _ => (setQueue_inner _ s).trans (retryWaiting_inner _)) fun _ => raiseAlarm_inner _ _ _ s

theorem addStretch_inner (n : Nat) (s : State) : Inner s (addStretch n s) := mapPanels_inner _ s

theorem finishHome_inner (s : State) : Inner s (finishHome s) := by
  unfold finishHome
  split
  · exact .rfl s
  · exact .ite (fun _ => ((setRegRest_inner s { s.reg with home := none }).trans
      (finishLong_inner _ _ _ _)).trans (review_inner _)) fun _ => .rfl s

/-- The roller moves toward its target by at most 20, so it stays between the two (R87). -/
theorem rollerStage_inner (s : State) : Inner s (rollerStage s) := by
  refine ((setReg_inner s { s.reg with position := s.reg.position + rollerMove s } (.inr rfl)
    (.inr fun ht hp => ?_)).trans (addStretch_inner _ _)).trans (finishHome_inner _)
  have hr := limit_range (lo := -20) (hi := 20) (by decide) (s.reg.target - s.reg.position)
  show -600 ≤ s.reg.position + rollerMove s ∧ s.reg.position + rollerMove s ≤ 600
  unfold rollerMove
  unfold limit at hr ⊢
  split <;> try split
  all_goals omega

theorem nipHandover_inner (i : Fin 16) (s : State) : Inner s (nipHandover i s) :=
  SameView.inner { tension := by simp [nipHandover, TensionZone.SameRegulator] }
    (.of (start := by simp [nipHandover]) (clock := by simp [nipHandover])
      (mask := by simp [nipHandover]) (causes := by simp [nipHandover, causeSet]))

theorem arrive_inner (p : Panel) (s : State) : Inner s (arrive p s) := by
  have h : ∀ (c : Prop) [Decidable c] (l : List Half) (f : Panel → Panel),
      Inner s (if c then nipHandover p.profile (setList l (updPanel p.number f s))
        else nameTail p.number s.pos.x (nipHandover p.profile (setList l (updPanel p.number f s)))) := by
    intro c _ l f
    have h := ((updPanel_inner p.number f s).trans (setList_inner l _)).trans
      (nipHandover_inner p.profile _)
    exact .ite (fun _ => h) fun _ => h.trans (nameTail_inner _ _ _)
  exact .ite (fun _ => (h _ _ _).trans (review_inner _)) fun _ => h _ _ _

theorem arrivalTest_inner (s : State) (n : Half) : Inner s (arrivalTest s n) := by
  unfold arrivalTest
  split
  · exact .rfl s
  · split
    · exact .rfl s
    · exact .ite (fun _ => arrive_inner _ s) fun _ => .rfl s

theorem arrivalStage_inner (s : State) : Inner s (arrivalStage s) :=
  Inner.foldl arrivalTest_inner _ s

theorem leavePiece_inner (p : Piece) (full : Bool) (s : State) : Inner s (leavePiece p full s) := by
  have h : Inner s (if p.paired then s
      else writeNotice .pieceSkipped p.xf (if p.skipped then 1 else 0) 0 s) :=
    .ite (fun _ => .rfl s) fun _ => writeNotice_inner _ _ _ _ s
  exact .ite (fun _ => h.trans (endCondition_inner _ _)) fun _ => h

theorem leavePieces_inner (ps : List Piece) (s : State) : Inner s (leavePieces s ps) := by
  induction ps generalizing s with
  | nil => exact setQueue_inner [] s
  | cons p ps ih =>
    exact .ite (fun _ => (leavePiece_inner _ _ s).trans (ih _)) fun _ => setQueue_inner _ s

theorem registrationStep_inner (c : Bool) (s : State) : Inner s (registrationStep c s) := by
  have h : Inner s (if c then rollerStage s else s) :=
    .ite (fun _ => rollerStage_inner s) fun _ => .rfl s
  exact (h.trans (arrivalStage_inner _)).trans (leavePieces_inner _ _)

theorem takePhaseHome_inner (n : Nat) (s : State) : Inner s (takePhaseHome n s) := by
  have h := setTarget_inner 0 (t := 0) false s (by decide)
  exact .ite (fun _ => refuseTicket_inner _ _ _ s) fun _ => .ite
    (fun _ => refuseTicket_inner _ _ _ s) fun _ => .ite
      (fun _ => (h.trans (finishTicket_inner _ _ _ _)).trans (retest_inner _))
      fun _ => ((h.trans (setRegRest_inner _ { (setTarget 0 0 false s).reg with home := some n })).trans
        (raiseCount_inner _)).trans (retest_inner _)

theorem regReset_inner (s : State) : Inner s (regReset s) := by
  unfold regReset
  refine Inner.trans ?_ (endCondition_inner _ _)
  refine Inner.trans ?_ (endCondition_inner _ _)
  refine Inner.trans ?_ (setReg_inner _ _ (.inl (by simp)) (.inl rfl))
  split
  · exact .rfl s
  · exact (setRegRest_inner s { s.reg with home := none }).trans (finishLong_inner _ _ _ _)

/-! ## Position unit -/

/-- A rewrite of the position unit. -/
theorem setPos_inner (s : State) (u : PosUnit) : Inner s { s with pos := u } := SameView.inner {}

theorem setSplices_inner (l : List Splice) (s : State) : Inner s (setSplices l s) := setPos_inner s _

theorem seeSplice_inner (r : Splice) (s : State) : Inner s (seeSplice r s) := by
  have h : Inner s (dropFull s) := by
    unfold dropFull
    split
    · exact .rfl s
    · exact .ite (fun _ => (setSplices_inner _ s).trans (writeNotice_inner _ _ _ _ _)) fun _ => .rfl s
  exact (h.trans (setSplices_inner _ _)).trans (writeNotice_inner _ _ _ _ _)

theorem storeTest_inner (s : State) : Inner s (storeTest s) := by
  have h : ∀ a m u, Inner u (storeCondition a m u) := fun a m u =>
    .ite (fun _ => .ite (fun _ => raiseAlarm_inner _ _ _ u) fun _ => endCondition_inner _ u)
      fun _ => .rfl u
  exact (h _ _ s).trans (h _ _ _)

theorem holdTest_inner (old new : Word) (s : State) (z : Fin 4) : Inner s (holdTest old new s z) :=
  updTension_inner z (f := fun t => { t with
    holdEnd := closeHold new (s.pos.splices.foldl (openHold z old new) t.holdEnd) }) (fun _ => id) s

theorem exitChanged_inner (old : Word) (tests : Bool) (s : State) :
    Inner s (exitChanged old tests s) := by
  have h : Inner s (windowTests (fixSplices s)) :=
    (setSplices_inner _ s).trans (windowTests_inner _)
  refine Inner.trans ?_ (storeTest_inner _)
  exact .ite (fun _ => h.trans (holdTest_inner _ _ _ _)) fun _ => h

theorem setExit_inner (s : State) : Inner s (setExit s) :=
  (setPos_inner s _).trans (exitChanged_inner _ _ _)

theorem enterWarm_inner (cause : LineCause) {s : State} (h : MayEnter .warm s) :
    Inner s (enterWarm cause s) :=
  .ite (fun _ => (enterState_inner cause h).trans (setExit_inner _)) fun _ => enterState_inner cause h

theorem unlessReverse_inner {f : State → State} {s : State} (h : Inner s (f s)) :
    Inner s (unlessReverse f s) := .ite (fun _ => .rfl s) fun _ => h

theorem seeFabricMark_inner (o : Option Stamp) (s : State) : Inner s (seeFabricMark o s) :=
  unlessReverse_inner (((fabricMarkAt_inner _ s).trans (armEvent_inner _ _ _)).trans (retest_inner _))

theorem seePaperMark_inner (o : Option Stamp) (s : State) : Inner s (seePaperMark o s) :=
  unlessReverse_inner (((paperMarkAt_inner _ s).trans (armEvent_inner _ _ _)).trans (retest_inner _))

theorem seeFabricSplice_inner (o : Option Stamp) (s : State) : Inner s (seeFabricSplice o s) :=
  unlessReverse_inner ((seeSplice_inner _ s).trans (armEvent_inner _ _ _))

theorem seePaperSplice_inner (o : Option Stamp) (s : State) : Inner s (seePaperSplice o s) :=
  unlessReverse_inner ((seeSplice_inner _ s).trans (mapPanels_inner _ _))

/-! ## Check unit -/

theorem creditReading_inner (x : Word) (d : Cmyk Half) (s : State) : Inner s (creditReading x d s) := by
  unfold creditReading
  split
  · exact .rfl s
  · exact updPanel_inner _ _ s

theorem takeReading_inner (x : Word) (d : Cmyk Half) (q : Quality) (s : State) :
    Inner s (takeReading x d q s) := by
  have h : Inner s (endCondition .headLost { s with lastReading := s.host.clock }) :=
    (SameView.inner {} : Inner s { s with lastReading := s.host.clock }).trans (endCondition_inner _ _)
  exact .ite (fun _ => h.trans (creditReading_inner _ _ _)) fun _ => h

theorem headTest_inner (s : State) : Inner s (headTest s) := by
  refine .ite (fun _ => ?_) fun _ => .rfl s
  split
  · exact .rfl s
  · exact .ite (fun _ => raiseAlarm_inner _ _ _ s) fun _ => .rfl s

theorem tailFindings_inner (s : State) : Inner s (tailFindings s) :=
  .ite (fun _ => (mapPanels_inner _ s).trans (draw_inner _)) fun _ => .rfl s

/-- A slot's trim written within -100..100 (R30). -/
theorem updSlot_inner_of_range (i : Fin 16) {f : Slot → Slot}
    (h : ∀ c, -100 ≤ c.trim ∧ c.trim ≤ 100 → -100 ≤ (f c).trim ∧ (f c).trim ≤ 100) (s : State) :
    Inner s (updSlot i f s) where
  toPorts := .of
  heaters h := ⟨h.disabled, h.unheated⟩
  range r := by
    refine ⟨fun j => ?_, r.target, r.position, r.zones, r.tension⟩
    by_cases hj : i = j
    · subst hj; rw [slots_updSlot_same]; exact h _ (r.trims i)
    · rw [slots_updSlot_other hj]; exact r.trims j
  speed h := ⟨h.config, h.unstarted, h.stopped, h.limited, h.wrap⟩

theorem setTrim_inner (i : Fin 16) {t : Int} (h : -100 ≤ t ∧ t ≤ 100) (s : State) :
    Inner s (setTrim i t s) :=
  updSlot_inner_of_range i (f := fun c => { c with trim := t }) (fun _ _ => h) s

theorem driftStage_inner (p : Panel) (s : State) : Inner s (driftStage p s) := by
  refine .ite (fun _ => ?_) fun _ => .rfl s
  have ht : -100 ≤ driftedTrim s.lib.slots[p.profile].trim (driftStep (deviations s p))
      ∧ driftedTrim s.lib.slots[p.profile].trim (driftStep (deviations s p)) ≤ 100 :=
    limit_range (by decide) _
  exact (setTrim_inner p.profile ht s).trans
    (.ite (fun _ => writeNotice_inner _ _ _ _ _) fun _ => .rfl _)

theorem markStage_inner (p : Panel) (v : Verdict) (s : State) : Inner s (markStage p v s) :=
  .ite (fun _ => markRequest_inner _ s) fun _ => .rfl s

theorem cutStage_inner (p : Panel) (s : State) : Inner s (cutStage p s) := by
  unfold cutStage
  split
  · exact .rfl s
  · exact .ite (fun _ => cutRequest_inner _ _ s) fun _ => .rfl s

theorem verdictEvent_inner (p : Panel) (s : State) : Inner s (verdictEvent p s) :=
  ((((updPanel_inner p.number (fun q => { q with verdict := some (verdictOf s p) }) s).trans
    (driftStage_inner p _)).trans (markStage_inner p _ _)).trans (cutStage_inner p _)).trans
    (settleCopy_inner p _ _)

theorem verdictOn_inner (s : State) (n : Half) : Inner s (verdictOn s n) := by
  unfold verdictOn
  split
  · exact .rfl s
  · exact verdictEvent_inner _ s

theorem verdicts_inner (s : State) : Inner s (verdicts s) := Inner.foldl verdictOn_inner _ s

theorem takeTrimReset_inner (n : Nat) (s : State) : Inner s (takeTrimReset n s) :=
  .ite (fun _ => refuseTicket_inner _ _ _ s) fun _ =>
    (setTrim_inner _ (by decide) s).trans (finishTicket_inner _ _ _ _)

/-! ## Encoder steps -/

theorem freeTails_inner (s : State) : Inner s (freeTails s) :=
  Inner.foldl (fun s n => freePanel_inner n s) _ s

theorem panelStages_inner (c : Bool) (s : State) : Inner s (panelStages c s) := by
  have h : Inner s (registrationStep c (if c then crossCells s else s)) :=
    Inner.trans (.ite (fun _ => crossCells_inner s) fun _ => .rfl s) (registrationStep_inner c _)
  exact ((((h.trans (mapPanels_inner _ _)).trans (freeTails_inner _)).trans
    (tailFindings_inner _)).trans (headTest_inner _)).trans (verdicts_inner _)

theorem countDrum_inner (s : State) : Inner s (countDrum s) := setPos_inner s _

theorem leaveSplices_inner (s : State) : Inner s (leaveSplices s) := setSplices_inner _ s

theorem drumForward_inner (s : State) : Inner s (drumForward s) := by
  unfold drumForward
  extract_lets held s1 s2 s3 s4
  have h1 : Inner s s1 := countDrum_inner s
  have h2 : Inner s s2 := h1.trans (offerSteps_inner _ _ _ _)
  have h3 : Inner s s3 := (h2.trans (panelStages_inner _ _)).trans (leaveSplices_inner _)
  have h4 : Inner s s4 := h3.trans (Inner.foldl (holdTest_inner _ _) _ _)
  exact (h4.trans (offerSteps_inner _ _ _ _)).trans (retest_inner _)

theorem drumReverse_inner (s : State) : Inner s (drumReverse s) := setPos_inner s _

theorem losePrint_inner (s : State) (p : Panel) : Inner s (losePrint s p) :=
  (raiseAlarm_inner _ _ _ s).trans (faultPrint_inner p _)

theorem losePrints_inner (s : State) : Inner s (losePrints s) := Inner.foldl losePrint_inner _ s

theorem printTests_inner (s : State) : Inner s (printTests s) :=
  .ite (fun _ => printTest_inner s) fun _ => .ite (fun _ => .ite
    (fun _ => ((draw_inner s).trans (losePrints_inner _)).trans (printTest_inner _))
    fun _ => ((draw_inner s).trans (printTest_inner _)).trans (losePrints_inner _))
    fun _ => losePrints_inner s

theorem printForward_inner (s : State) : Inner s (printForward s) := by
  unfold printForward
  refine Inner.trans ?_ (retest_inner _)
  refine Inner.trans ?_ (storeTest_inner _)
  refine Inner.trans ?_ (printTests_inner _)
  refine Inner.trans ?_ (offerSteps_inner _ _ _ _)
  exact setPos_inner s _

theorem printReverse_inner (s : State) : Inner s (printReverse s) :=
  ((setPos_inner s _).trans (storeTest_inner _)).trans (retest_inner _)

theorem exitForward_inner (s : State) : Inner s (exitForward s) :=
  ((setPos_inner s _).trans (exitChanged_inner _ _ _)).trans (retest_inner _)

theorem exitReverse_inner (s : State) : Inner s (exitReverse s) :=
  ((setPos_inner s _).trans (exitChanged_inner _ _ _)).trans (retest_inner _)

theorem fireAhead_inner (c : Fin 12) (s : State) : Inner s (fireAhead c s) :=
  .ite (fun _ => (fireChannel_inner _ c s).trans (updChannel_inner c _ _)) fun _ => .rfl s

theorem endPulse_inner (i : Fin 8) (s : State) : Inner s (endPulse i s) :=
  .ite (fun _ => updLatch_inner i _ s) fun _ => .rfl s

end Sys2Proof.Machine
end

