-- ==== Sys2Proof/Proofs/InnerHeat.lean ====
section
/-! PROOFS. The heat interval, the heater windows and the tension sample are inner: the regulators stay
in range, and a zone without heat has no power. -/

-- One thread for the whole file: each waiting thread reserves its stack.
set_option Elab.async false

namespace Sys2Proof.Machine

/-! ## A drum zone -/

/-- A zone in OFF, CUT or LOST has its heater off and power 0 (R112). -/
def Zone.Safe (z : Zone) : Prop :=
  unheated z.state = true → z.heater = false ∧ z.power = 0 ∧ z.onEnd = none

/-- The regulator of a zone is in range (R100). -/
def Zone.InRange (z : Zone) : Prop :=
  0 ≤ z.integral ∧ z.integral ≤ 1000 ∧ z.power ≤ 1000 ∧ z.settle ≤ 600

theorem HeatersSafe.zone {s : State} (h : HeatersSafe s) (k : Fin 8) : s.heat.zones[k].Safe :=
  h.unheated k

theorem Zone.safe_of_heated {z : Zone} (h : z.state = .heating ∨ z.state = .settled) : z.Safe := by
  intro hu
  rcases h with h | h <;> rw [h] at hu <;> cases hu

theorem Zone.idle_safe (z : Zone) (st : ZoneState) : (z.idle st).Safe := fun _ => ⟨rfl, rfl, rfl⟩

theorem Zone.idle_inRange (z : Zone) (st : ZoneState) : (z.idle st).InRange := by
  simp [Zone.idle, Zone.shutOff, Zone.InRange]

/-- The parts of a zone that steps 4 and 5 leave. -/
theorem Zone.controlled_heater (z : Zone) (kp ki : Nat) (e : Int) :
    (z.controlled kp ki e).heater = z.heater ∧ (z.controlled kp ki e).onEnd = z.onEnd
    ∧ (z.controlled kp ki e).used = z.used := by
  unfold Zone.controlled Zone.settling
  split <;> exact ⟨rfl, rfl, rfl⟩

theorem Zone.controlled_state (z : Zone) (kp ki : Nat) (e : Int) :
    (z.controlled kp ki e).state =
      (if e.natAbs ≤ 30 then (if 600 ≤ z.settle + 1 then .settled else z.state) else .heating) := by
  unfold Zone.controlled Zone.settling
  split <;> rfl

theorem Zone.controlled_settle (z : Zone) (kp ki : Nat) (e : Int) :
    (z.controlled kp ki e).settle = (if e.natAbs ≤ 30 then min 600 (z.settle + 1) else 0) := by
  unfold Zone.controlled Zone.settling
  split <;> rfl

theorem Zone.controlled_integral (z : Zone) (kp ki : Nat) (e : Int) :
    (z.controlled kp ki e).integral = z.nextIntegral ki e := by
  unfold Zone.controlled Zone.settling
  split <;> rfl

theorem Zone.controlled_power (z : Zone) (kp ki : Nat) (e : Int) :
    (z.controlled kp ki e).power = regulatedPower kp ki e (z.nextIntegral ki e) := by
  unfold Zone.controlled Zone.settling
  split <;> rfl

/-- A zone that is regulated stays in HEATING or SETTLED (R108). -/
theorem Zone.controlled_heated {z : Zone} (h : z.state = .heating ∨ z.state = .settled) (kp ki : Nat)
    (e : Int) : (z.controlled kp ki e).state = .heating ∨ (z.controlled kp ki e).state = .settled := by
  rw [controlled_state]
  split
  · split
    · exact .inr rfl
    · exact h
  · exact .inl rfl

theorem Zone.controlled_inRange {z : Zone} (h : z.InRange) (kp ki : Nat) (e : Int) :
    (z.controlled kp ki e).InRange := by
  obtain ⟨h1, h2, -, h4⟩ := h
  unfold Zone.InRange
  rw [controlled_integral, controlled_power, controlled_settle]
  have hi : 0 ≤ z.nextIntegral ki e ∧ z.nextIntegral ki e ≤ 1000 := by
    unfold Zone.nextIntegral
    split
    · exact ⟨h1, h2⟩
    · exact limit_range (by decide) _
  refine ⟨hi.1, hi.2, regulatedPower_le _ _ _ _, ?_⟩
  split <;> omega

theorem Zone.leave_inRange {z : Zone} (h : z.InRange) : z.leave.InRange := by
  unfold Zone.leave
  split <;> first | exact h | simp [Zone.restart, Zone.InRange]

theorem Zone.leave_state (z : Zone) :
    z.leave.state = .heating ∨ z.leave.state = .settled ∨ (z.leave.state = .cut ∧ z.leave = z) := by
  unfold Zone.leave
  split
  · exact .inl rfl
  · exact .inl rfl
  · next h => exact .inl h
  · next h => exact .inr (.inl h)
  · next h => exact .inr (.inr ⟨h, rfl⟩)

theorem Zone.work_inRange {z : Zone} (h : z.InRange) (c t kp ki : Nat) (e : Int) :
    (z.work c t kp ki e).InRange := by
  obtain ⟨h1, h2, h3, h4⟩ := id h
  have hr : z.restart.InRange := by simp [Zone.restart, Zone.InRange]
  unfold Zone.work
  split
  · split
    · exact controlled_inRange hr _ _ _
    · exact ⟨h1, h2, Nat.zero_le _, h4⟩
  all_goals
    split
    · exact idle_inRange _ _
    · exact controlled_inRange h _ _ _

/-- Steps 3 to 5 leave a zone without heat only in CUT, and there with its heater as it was (R106). -/
theorem Zone.work_safe {z : Zone} (hs : z.Safe)
    (h : z.state = .heating ∨ z.state = .settled ∨ z.state = .cut) (c t kp ki : Nat) (e : Int) :
    (z.work c t kp ki e).Safe := by
  unfold Zone.work
  split
  · next hc =>
    split
    · exact safe_of_heated (controlled_heated (.inl rfl) _ _ _)
    · intro _
      obtain ⟨h1, -, h3⟩ := hs (by rw [hc]; rfl)
      exact ⟨h1, rfl, h3⟩
  all_goals
    next hc =>
    split
    · exact idle_safe _ _
    · refine safe_of_heated (controlled_heated ?_ _ _ _)
      rw [hc] at h ⊢
      simp at h ⊢

/-- One zone's step keeps it safe and in range. -/
theorem stepZone_safe {s : State} (k : Fin 8) (h : s.heat.zones[k].Safe) : (stepZone s k).Safe := by
  unfold stepZone
  dsimp only
  split
  · have hl : s.heat.zones[k].leave.Safe := by
      rcases s.heat.zones[k].leave_state with e | e | ⟨-, e⟩
      · exact Zone.safe_of_heated (.inl e)
      · exact Zone.safe_of_heated (.inr e)
      · rw [e]; exact h
    refine Zone.work_safe hl ?_ _ _ _ _ _
    rcases s.heat.zones[k].leave_state with e | e | ⟨e, -⟩
    · exact .inl e
    · exact .inr (.inl e)
    · exact .inr (.inr e)
  · exact Zone.idle_safe s.heat.zones[k] .lost

theorem stepZone_inRange {s : State} (k : Fin 8) (h : s.heat.zones[k].InRange) :
    (stepZone s k).InRange := by
  unfold stepZone
  dsimp only
  split
  · exact Zone.work_inRange (Zone.leave_inRange h) _ _ _ _ _
  · exact Zone.idle_inRange s.heat.zones[k] .lost

/-! ## The heat unit -/

/-- A rewrite of the heat unit that keeps its zones. -/
theorem setHeat_inner (s : State) (u : HeatUnit) (h : u.zones = s.heat.zones := by rfl) :
    Inner s { s with heat := u } := SameView.inner { zones := h }

/-- New zones: OFF with the heat enable off, safe, and in range. -/
theorem setZones_inner (zs : Vector Zone 8) (s : State)
    (h0 : HeatersSafe s → s.line.heat = false → ∀ k : Fin 8, zs[k].state = .off)
    (h1 : HeatersSafe s → ∀ k : Fin 8, zs[k].Safe)
    (h2 : WithinRange s → ∀ k : Fin 8, zs[k].InRange) : Inner s (setZones zs s) where
  toPorts := .of
  heaters h := ⟨h0 h, h1 h⟩
  range r := ⟨r.trims, r.target, r.position, h2 r, r.tension⟩
  speed h := ⟨h.config, h.unstarted, h.stopped, h.limited, h.wrap⟩

theorem raiseZone_inner (was : Vector Zone 8) (s : State) (k : Fin 8) : Inner s (raiseZone was s k) :=
  .ite (fun _ => raiseAlarm_inner _ _ _ s) fun _ => .ite (fun _ => raiseAlarm_inner _ _ _ s)
    fun _ => .rfl s

theorem pairTest_inner (zs : Vector Zone 8) (s : State) : Inner s (pairTest zs s) := by
  unfold pairTest
  split
  · exact raiseAlarm_inner _ _ _ s
  · exact endCondition_inner _ s

theorem endZoneAlarms_inner (zs : Vector Zone 8) (s : State) : Inner s (endZoneAlarms zs s) := by
  have h : Inner s (if zs.all fun z => z.state != .cut then endCondition .zoneOvertemp s else s) :=
    .ite (fun _ => endCondition_inner _ s) fun _ => .rfl s
  exact .ite (fun _ => h.trans (endCondition_inner _ _)) fun _ => h

theorem zoneAlarms_inner (was : Vector Zone 8) (s : State) : Inner s (zoneAlarms was s) :=
  ((Inner.foldl (raiseZone_inner was) drumZones s).trans (pairTest_inner _ _)).trans
    (endZoneAlarms_inner _ _)

theorem judgeZones_inner (was : Vector Zone 8) (s : State) : Inner s (judgeZones was s) :=
  .ite (fun _ => .ite
    (fun _ => ((draw_inner s).trans (zoneAlarms_inner was _)).trans (runRetest_inner _))
    fun _ => ((draw_inner s).trans (runRetest_inner _)).trans (zoneAlarms_inner was _))
    fun _ => zoneAlarms_inner was s

theorem riseAges_inner (s : State) : Inner s (riseAges s) := setHeat_inner s _

theorem heatStep_inner (s : State) : Inner s (heatStep s) := by
  unfold heatStep
  extract_lets s1
  have h1 : Inner s s1 := riseAges_inner s
  refine .ite (fun hh => ?_) fun _ => ?_
  · refine ((h1.trans (setZones_inner _ s1 (fun _ h0 => ?_) (fun h k => ?_) fun r k => ?_)).trans
      (judgeZones_inner _ _)).trans (retest_inner _)
    · rw [h0] at hh; cases hh
    · simpa using stepZone_safe k (h.unheated k)
    · simpa using stepZone_inRange k (r.zones k)
  · refine h1.trans (setZones_inner _ s1 (fun _ _ k => ?_) (fun _ k => ?_) fun _ k => ?_)
    · simp [restZone, Zone.shutOff]
    · simp [restZone, Zone.shutOff, Zone.Safe]
    · simp [restZone, Zone.shutOff, Zone.InRange]

theorem windowStep_inner (s : State) : Inner s (windowStep s) := by
  have hw : ∀ z : Zone, (z.window s.host.clock).state = z.state
      ∧ (z.InRange → (z.window s.host.clock).InRange)
      ∧ (z.Safe → (z.window s.host.clock).Safe) := by
    intro z
    unfold Zone.window
    split
    · next hp =>
      exact ⟨rfl, id, fun h hu => absurd (h hu).2.1 (by omega)⟩
    · next hp => exact ⟨rfl, id, fun h hu => ⟨rfl, by dsimp only; omega, rfl⟩⟩
  refine setZones_inner _ s (fun h h0 k => ?_) (fun h k => ?_) fun r k => ?_
  · simpa [(hw _).1] using h.disabled h0 k
  · simpa using (hw _).2.2 (h.unheated k)
  · simpa using (hw _).2.1 (r.zones k)

theorem heaterEnd_inner (k : Fin 8) (s : State) : Inner s (heaterEnd k s) := by
  refine .ite (fun _ => ?_) fun _ => .rfl s
  have hk : ∀ j : Fin 8, (s.heat.zones.set k { s.heat.zones[k] with heater := false, onEnd := none })[j] =
      if k = j then { s.heat.zones[j] with heater := false, onEnd := none } else s.heat.zones[j] := by
    intro j
    by_cases e : k = j
    · subst e; simp
    · have hv : k.val ≠ j.val := fun e' => e (Fin.ext e')
      simp [e, hv]
  refine setZones_inner _ s (fun h h0 j => ?_) (fun h j => ?_) fun r j => ?_
  · rw [hk]
    split
    · exact h.disabled h0 j
    · exact h.disabled h0 j
  · rw [hk]
    split
    · exact fun hu => ⟨rfl, (h.unheated j hu).2.1, rfl⟩
    · exact h.unheated j
  · rw [hk]
    split
    · exact r.zones j
    · exact r.zones j

theorem convert_inner (raw : Half) (s : State) : Inner s (convert raw s) := by
  have h : ∀ u, Inner u (advancePass u) := fun u =>
    .ite (fun _ => setHeat_inner u _) fun _ => setHeat_inner u _
  unfold convert
  split
  · exact h s
  · exact (setHeat_inner s _).trans (h _)

theorem takeScanList_inner (n : Nat) (s : State) : Inner s (takeScanList n s) := by
  unfold takeScanList
  split
  · exact refuseTicket_inner _ _ _ s
  · exact (setHeat_inner s _).trans (finishTicket_inner _ _ _ _)

theorem takeHeatSetpoint_inner (n : Nat) (s : State) : Inner s (takeHeatSetpoint n s) := by
  unfold takeHeatSetpoint
  split
  · exact refuseTicket_inner _ _ _ s
  · exact (setHeat_inner s _).trans (finishTicket_inner _ _ _ _)

theorem takeHeatTune_inner (n : Nat) (s : State) : Inner s (takeHeatTune n s) :=
  .ite (fun _ => refuseTicket_inner _ _ _ s) fun _ => .ite (fun _ => refuseTicket_inner _ _ _ s)
    fun _ => (setHeat_inner s { s.heat with kp := bodyHalf s n 0x20, ki := bodyHalf s n 0x22 }).trans
      (finishTicket_inner _ _ _ _)

/-! ## The tension sample -/

theorem TensionZone.endAuto_regulator (t : TensionZone) (e : Option AutoEnd) :
    t.SameRegulator (t.endAuto e) := by
  cases e <;> exact ⟨rfl, rfl, rfl, rfl⟩

theorem followCells_inRange {t : TensionZone} (h : t.InRange) : (followCells t).InRange := by
  obtain ⟨h1, h2, h3, h4, h5, h6⟩ := h
  unfold followCells
  split
  · simp [TensionZone.InRange]
  · refine ⟨h1, h2, ?_, ?_, h5, h6⟩ <;> dsimp only <;> split <;> omega

theorem measure_inRange {t : TensionZone} (h : t.InRange) : (measure t).InRange := by
  unfold measure
  split
  · exact h
  · split <;> exact h

theorem regulateZone_inRange {t : TensionZone} (v : Nat) (h : t.InRange) :
    (regulateZone v t).InRange := by
  obtain ⟨h1, h2, h3, h4, h5, h6⟩ := id h
  unfold regulateZone
  split
  · exact h
  · have hl := fun v => limit_range (lo := -200) (hi := 200) (by decide) v
    refine ⟨?_, ?_, ?_, ?_, h5, h6⟩
    · dsimp only; split
      · decide
      · exact (hl _).1
    · dsimp only; split
      · decide
      · exact (hl _).2
    · dsimp only; split
      · exact h3
      · exact (hl _).1
    · dsimp only; split
      · exact h4
      · exact (hl _).2

theorem breakZone_inRange {t : TensionZone} (l : LineState) (h : t.InRange) :
    (breakZone l t).InRange := by
  obtain ⟨h1, h2, h3, h4, h5, h6⟩ := id h
  unfold breakZone
  split
  · exact h
  · split
    · exact ⟨h1, h2, h3, h4, by dsimp only; omega, h6⟩
    · exact ⟨h1, h2, h3, h4, Nat.zero_le _, h6⟩

theorem skewZone_inRange {t : TensionZone} (b : Bool) (n : Nat) (h : t.InRange) :
    (skewZone b n t).InRange := by
  obtain ⟨h1, h2, h3, h4, h5, h6⟩ := id h
  unfold skewZone
  split
  · exact ⟨h1, h2, h3, h4, h5, by dsimp only; omega⟩
  · exact ⟨h1, h2, h3, h4, h5, Nat.zero_le _⟩

theorem TensionZone.setZero_regulator (t : TensionZone) (sd : Side) (v : Int) :
    t.SameRegulator (t.setZero sd v) := by
  cases sd <;> exact ⟨rfl, rfl, rfl, rfl⟩

/-- Stage 7 leaves the regulator of a zone (R147). -/
theorem autoStage_regulator (t : TensionZone) : t.SameRegulator (autoStage t).1 := by
  have hp : ∀ a : AutoZero, t.SameRegulator (pacedSample a t).1 := by
    intro a
    unfold pacedSample
    split
    · split <;> exact ⟨rfl, rfl, rfl, rfl⟩
    · split
      · exact ⟨rfl, rfl, rfl, rfl⟩
      · split
        · exact ⟨rfl, rfl, rfl, rfl⟩
        · exact t.setZero_regulator _ _
  unfold autoStage
  split
  · exact ⟨rfl, rfl, rfl, rfl⟩
  · split
    · exact ⟨rfl, rfl, rfl, rfl⟩
    · exact hp _

theorem sampleZone_inRange {s : State} (z : Fin 4) (raw : RawPair) (h : s.tens.zones[z].InRange) :
    (sampleZone s z raw).zone.InRange := by
  refine TensionZone.SameRegulator.inRange (TensionZone.endAuto_regulator _ _) ?_
  refine (autoStage_regulator _).inRange ?_
  refine skewZone_inRange _ _ (breakZone_inRange _ (regulateZone_inRange _ ?_))
  refine TensionZone.SameRegulator.inRange (a := measure (sampleCells raw s.tens.zones[z]))
    ⟨rfl, rfl, rfl, rfl⟩ (measure_inRange (followCells_inRange ?_))
  exact TensionZone.SameRegulator.inRange (TensionZone.endAuto_regulator _ _) h

theorem reportZone_inner (z : Fin 4) (r : ZoneSample) (s : State) : Inner s (reportZone z r s) := by
  refine Inner.trans ?_ (t := raiseSkew z (raiseBreak z (raiseZoneLost z
    (raiseLostCells z r.lostSides s)))) ?_
  · refine Inner.trans ?_ (.ite (fun _ => raiseAlarm_inner _ _ _ _) fun _ => .rfl _)
    refine Inner.trans ?_ (.ite (fun _ => raiseAlarm_inner _ _ _ _) fun _ => .rfl _)
    refine Inner.trans ?_ (.ite (fun _ => raiseAlarm_inner _ _ _ _) fun _ => .rfl _)
    exact Inner.foldl (fun s sd => raiseAlarm_inner _ _ _ s) _ s
  · unfold reportZone reportAuto
    split
    · exact .rfl _
    · exact endAuto_inner _ _ _ _ _ _ _ _ _

theorem endTensionAlarms_inner (s : State) : Inner s (endTensionAlarms s) := by
  have h : ∀ b a u, Inner u (endWhen b a u) := fun b a u =>
    .ite (fun _ => endCondition_inner a u) fun _ => .rfl u
  exact (((h _ _ s).trans (h _ _ _)).trans (h _ _ _)).trans (h _ _ _)

theorem updateHeld_inner (s : State) : Inner s (updateHeld s) := setTens_inner s _ fun _ => id

theorem setSampled_inner {s : State} {a b c d : TensionZone}
    (ha : s.tens.zones[(0 : Fin 4)].InRange → a.InRange)
    (hb : s.tens.zones[(1 : Fin 4)].InRange → b.InRange)
    (hc : s.tens.zones[(2 : Fin 4)].InRange → c.InRange)
    (hd : s.tens.zones[(3 : Fin 4)].InRange → d.InRange) : Inner s (setSampled a b c d s) :=
  setTens_inner s _ fun z h => by
    fin_cases z
    · exact ha h
    · exact hb h
    · exact hc h
    · exact hd h

theorem tensionStep_inner (a b c d : RawPair) (s : State) : Inner s (tensionStep a b c d s) := by
  unfold tensionStep
  extract_lets s0 ra rb rc rd
  have h0 : Inner s s0 := updateHeld_inner s
  have h1 : Inner s0 (setSampled ra.zone rb.zone rc.zone rd.zone s0) :=
    setSampled_inner (sampleZone_inRange 0 a) (sampleZone_inRange 1 b) (sampleZone_inRange 2 c)
      (sampleZone_inRange 3 d)
  exact (((((((h0.trans h1).trans (reportZone_inner _ _ _)).trans (reportZone_inner _ _ _)).trans
    (reportZone_inner _ _ _)).trans (reportZone_inner _ _ _)).trans (endTensionAlarms_inner _)).trans
    (retest_inner _))

theorem takeTensionTune_inner (n : Nat) (s : State) : Inner s (takeTensionTune n s) := by
  unfold takeTensionTune
  split
  · exact refuseTicket_inner _ _ _ s
  · exact (updTension_inner _ (f := fun t => { t with
      kp := bodyHalf s n 0x22, ki := bodyHalf s n 0x24, rampStep := bodyByte s n 0x26,
      l := { t.l with gain := bodyHalf s n 0x28 }, r := { t.r with gain := bodyHalf s n 0x2A } })
      (fun _ => id) s).trans (finishTicket_inner _ _ _ _)

theorem takeTensionMix_inner (n : Nat) (s : State) : Inner s (takeTensionMix n s) := by
  refine .ite (fun _ => refuseTicket_inner _ _ _ s) fun _ => ?_
  split
  · exact refuseTicket_inner _ _ _ s
  · next m _ =>
    refine .ite (fun _ => refuseTicket_inner _ _ _ s) fun _ => ?_
    refine (updTension_inner _ (f := fun t => { t with
      mix := m, skewCount := if m = .both then t.skewCount else 0 }) (fun t h => ?_) s).trans
      (finishTicket_inner _ _ _ _)
    obtain ⟨h1, h2, h3, h4, h5, h6⟩ := h
    refine ⟨h1, h2, h3, h4, h5, ?_⟩
    dsimp only
    split
    · exact h6
    · exact Nat.zero_le _

theorem takeAutoZero_inner (n : Nat) (s : State) : Inner s (takeAutoZero n s) := by
  unfold takeAutoZero
  extract_lets z
  split
  · exact refuseTicket_inner _ _ _ s
  · exact .ite (fun _ => refuseTicket_inner _ _ _ s) fun _ => .ite
      (fun _ => refuseTicket_inner _ _ _ s) fun _ => .ite (fun _ => refuseTicket_inner _ _ _ s)
      fun _ => (updTension_inner z (f := fun t => { t with auto := some (newAuto s n t) })
        (fun _ => id) s).trans (raiseCount_inner _)

theorem tensReset_inner (s : State) : Inner s (tensReset s) := by
  refine Inner.trans ?_ (endCondition_inner _ _)
  refine Inner.trans ?_ (endCondition_inner _ _)
  refine (abortAutos_inner 6 s).trans (mapTension_inner (fun t _ => ?_) _)
  simp [TensionZone.InRange]

end Sys2Proof.Machine
end

