-- ==== Sys2Proof/Proofs/InnerCommands.lean ====
section
/-! PROOFS. The tickets, keys, ports, resets and the walker's take are inner, and from them what every
command keeps: the laws of heaters, ranges and speed. -/

-- One thread for the whole file: each waiting thread reserves its stack.
set_option Elab.async false

namespace Sys2Proof.Machine

/-! ## Library and orders -/

theorem takeProfileCommit_inner (n : Nat) (s : State) : Inner s (takeProfileCommit n s) := by
  refine .ite (fun _ => refuseTicket_inner _ _ _ s) fun _ => .ite (fun _ => refuseTicket_inner _ _ _ s)
    fun _ => .ite (fun _ => refuseTicket_inner _ _ _ s) fun _ => ?_
  split
  · exact refuseTicket_inner _ _ _ s
  · exact (updSlot_inner_of_range _
      (f := fun c => { c with state := .valid, trim := 0, commits := c.commits + 1 })
      (fun _ _ => by simp) s).trans (finishTicket_inner _ _ _ _)

theorem takeProfileOpen_inner (n : Nat) (s : State) : Inner s (takeProfileOpen n s) :=
  .ite (fun _ => refuseTicket_inner _ _ _ s) fun _ => .ite (fun _ => refuseTicket_inner _ _ _ s)
    fun _ => .ite (fun _ => refuseTicket_inner _ _ _ s) fun _ =>
      .ite (fun _ => refuseTicket_inner _ _ _ s) fun _ =>
        (updSlot_inner _ (f := fun c => { c with state := .edit }) (fun _ => rfl) s).trans
          (finishTicket_inner _ _ _ _)

theorem takeProfileClear_inner (n : Nat) (s : State) : Inner s (takeProfileClear n s) :=
  .ite (fun _ => refuseTicket_inner _ _ _ s) fun _ => .ite (fun _ => refuseTicket_inner _ _ _ s)
    fun _ => .ite (fun _ => refuseTicket_inner _ _ _ s) fun _ =>
      (updSlot_inner_of_range _ (f := fun c => { c with state := .empty, trim := 0 })
        (fun _ _ => by simp) s).trans (finishTicket_inner _ _ _ _)

theorem takeLibraryLock_inner (n : Nat) (s : State) : Inner s (takeLibraryLock n s) :=
  (SameView.inner {} : Inner s { s with lib := { s.lib with lock := true } }).trans
    (finishTicket_inner _ _ _ _)

theorem takeQueuePanels_inner (n : Nat) (s : State) : Inner s (takeQueuePanels n s) := by
  have hl := ticketBase_low n
  unfold takeQueuePanels
  split
  · exact refuseTicket_inner _ _ _ s
  · refine Inner.trans ?_ (raiseCount_inner _)
    refine Inner.trans ?_ (printTest_inner _)
    refine Inner.trans ?_ (putTicket_inner (by omega) _ _)
    exact (setOrd_inner s _).trans (appendEntry_inner _ _)

theorem cancelOrder_inner (o : OpenOrder) (s : State) : Inner s (cancelOrder o s) :=
  ((updOrder_inner _ _ s).trans (dropEntry_inner _ _)).trans (writeCancelled_inner _ _ _)

theorem takeCancelPanels_inner (n : Nat) (s : State) : Inner s (takeCancelPanels n s) := by
  refine .ite (fun _ => refuseTicket_inner _ _ _ s) fun _ => ?_
  split
  · exact refuseTicket_inner _ _ _ s
  · exact (((cancelOrder_inner _ s).trans (finishTicket_inner _ _ _ _)).trans
      (finishIfSettled_inner _ _)).trans (printTest_inner _)

/-! ## Line mode controller -/

theorem lineGo_inner {t : LineState} (cause : LineCause) {s : State} (h : MayEnter t s) :
    Inner s (lineGo t cause s) := by
  refine .ite (fun _ => .rfl s) fun _ => ?_
  cases t
  case cold => exact (enterState_inner cause h).trans (setJog_inner _ _)
  case warm => exact (enterWarm_inner cause h).trans (retest_inner _)
  case run => exact enterState_inner cause h
  case hold => exact enterState_inner cause h
  all_goals exact .rfl s

theorem takeLineCommand_inner (n : Nat) {s : State} (h : Live s) : Inner s (takeLineCommand n s) := by
  unfold takeLineCommand
  split
  · exact refuseTicket_inner _ _ _ s
  · exact .ite (fun _ => refuseTicket_inner _ _ _ s) fun _ => .ite
      (fun _ => refuseTicket_inner _ _ _ s) fun _ =>
      (lineGo_inner _ (.inr (.inr (.inr h)))).trans (finishTicket_inner _ _ _ _)

theorem setAuthority_inner (a : Authority) (d : Word) (s : State) : Inner s (setAuthority a d s) := by
  have h : Inner s (writeNotice .authority (natWord s.line.auth.code) (natWord a.code) d
      { s with line := { s.line with auth := a } }) :=
    (setLine_inner s { s.line with auth := a }).trans (writeNotice_inner _ _ _ _ _)
  exact .ite (fun _ => .rfl s) fun _ => .ite (fun _ => h.trans (setJog_inner _ _)) fun _ => h

theorem takeAuthority_inner (n : Nat) (s : State) : Inner s (takeAuthority n s) := by
  unfold takeAuthority
  split
  · exact refuseTicket_inner _ _ _ s
  · exact (setAuthority_inner _ _ s).trans (finishTicket_inner _ _ _ _)

/-- A new speed class with S_cmd limited to its V_lim at once keeps the speed law (R129). -/
theorem limitSpeed_inner (s : State) (k : Fin 4) (lock : Bool) :
    Inner s (limitSpeed { s with line := { s.line with speedClass := k, classLock := lock } }) := by
  have hd : (limitSpeed { s with line := { s.line with speedClass := k, classLock := lock } }).dose =
      { s.dose with sCmd := min s.dose.sCmd (vMax s * (8 - k.val) / 8) } := by
    have hv : vLim { s with line := { s.line with speedClass := k, classLock := lock } }
        = vMax s * (8 - k.val) / 8 := rfl
    unfold limitSpeed
    rw [hv]
    split
    · next h => rw [Nat.min_eq_right (Nat.le_of_lt h)]; rfl
    · next h => rw [Nat.min_eq_left (Nat.le_of_not_lt h)]
  have hp : Ports s (limitSpeed { s with line := { s.line with speedClass := k, classLock := lock } }) :=
    .of
  refine ⟨hp, fun h => ?_, fun r => ?_, fun h => ⟨fun hs => ?_, fun hs => ?_, fun hs => ?_, ?_, fun hs => ?_⟩⟩
  · exact ⟨by simpa using h.disabled, by simpa using h.unheated⟩
  · exact ⟨by simpa using r.trims, by simpa using r.target, by simpa using r.position,
      by simpa using r.zones, by simpa using r.tension⟩
  · exact hp.bytes.sameConfig.accepted.mpr (h.config (hp.started ▸ hs))
  · rw [hp.off]
    simpa using h.unstarted (hp.started ▸ hs)
  · rw [hd]
    have h0 := h.stopped (by simpa using hs)
    simp [h0]
  · have hv : vLim (limitSpeed { s with line := { s.line with speedClass := k, classLock := lock } })
        = vMax s * (8 - k.val) / 8 := by
      unfold vLim
      rw [hp.bytes.sameConfig.vMax_eq]
      simp
    rw [hd, hv]
    exact Nat.min_le_right _ _
  · rw [hd] at hs
    simpa using h.wrap hs

theorem takeSpeedClass_inner (n : Nat) (s : State) : Inner s (takeSpeedClass n s) :=
  .ite (fun _ => refuseTicket_inner _ _ _ s) fun _ => .ite (fun _ => refuseTicket_inner _ _ _ s)
    fun _ => (limitSpeed_inner s _ _).trans (finishTicket_inner _ _ _ _)

theorem takeFabricLoaded_inner (n : Nat) (s : State) : Inner s (takeFabricLoaded n s) :=
  .ite (fun _ => refuseTicket_inner _ _ _ s) fun _ => .ite (fun _ => refuseTicket_inner _ _ _ s)
    fun _ => (setLine_inner s { s.line with
      fabric := ticketByte s n 0x20, marks := marksOf (ticketByte s n 0x21) }).trans
      (finishTicket_inner _ _ _ _)

theorem clearLatch_inner (set : Byte) (s : State) (a : Alarm) : Inner s (clearLatch set s a) :=
  .ite (fun _ => removeLatch_inner 1 a s) fun _ => .rfl s

theorem leaveHalt_inner (set : Byte) (s : State) : Inner s (leaveHalt set s) :=
  .ite (fun _ => enterState_inner _ (.inl rfl)) fun _ => .rfl s

theorem clearSections_inner (set : Byte) (s : State) : Inner s (clearSections set s) :=
  ((Inner.foldl (clearLatch_inner set) _ s).trans (leaveHalt_inner set _)).trans (retest_inner _)

theorem takeSectionClear_inner (n : Nat) (s : State) : Inner s (takeSectionClear n s) := by
  have hl := ticketBase_low n
  exact .ite (fun _ => refuseTicket_inner _ _ _ s) fun _ =>
    ((clearSections_inner _ s).trans (putTicket_inner (by omega) _ _)).trans (finishTicket_inner _ _ _ _)

/-! ## Ports -/

theorem pendantMessage_inner (s : State) : Inner s (pendantMessage s) := setLine_inner s _

theorem keyTake_inner (s : State) : Inner s (keyTake s) := by
  unfold keyTake
  split
  · exact setAuthority_inner _ _ s
  · exact lightLocked_inner s
  all_goals exact .rfl s

theorem keyGive_inner (s : State) : Inner s (keyGive s) := by
  unfold keyGive
  split
  · exact .rfl s
  · exact .rfl s
  all_goals exact setAuthority_inner _ _ s

theorem keyKeep_inner (s : State) : Inner s (keyKeep s) := by
  unfold keyKeep
  split
  · exact lightLocked_inner s
  · exact lightLocked_inner s
  · exact setAuthority_inner _ _ s
  · exact .rfl s

theorem keyStop_inner (s : State) : Inner s (keyStop s) := by
  unfold keyStop
  split
  · next h => exact enterState_inner _ (.of_moving (by simp [h]) (by simp [h]))
  · exact setJog_inner _ s
  all_goals exact .rfl s

theorem Live.of_keysAnswered {s : State} (h : keysAnswered s = true) : Live s := by
  unfold keysAnswered at h
  rw [Bool.and_eq_true] at h
  exact .inl h.2

theorem keyLine_inner (t : LineState) (s : State) : Inner s (keyLine t s) :=
  .ite (fun h => lineGo_inner _ (.inr (.inr (.inr (.of_keysAnswered h.1))))) fun _ => lightLocked_inner s

theorem keyThread_inner (s : State) : Inner s (keyThread s) := by
  refine .ite (fun h => ?_) fun _ => lightLocked_inner s
  have hl : ∀ t, MayEnter t s := fun t => .inr (.inr (.inr (.of_keysAnswered h)))
  have he := enterState_inner .pendant (hl .thread)
  split
  · exact he
  · exact he
  · exact he
  · exact .ite (fun _ => (enterWarm_inner _ (hl _)).trans (retest_inner _))
      fun _ => enterState_inner _ (hl _)
  all_goals exact lightLocked_inner s

theorem keyJog_inner (j : Jog) (s : State) : Inner s (keyJog j s) :=
  .ite (fun _ => lightLocked_inner s) fun _ => .ite (fun _ => .rfl s) fun _ =>
    .ite (fun _ => lightLocked_inner s) fun _ => .ite (fun _ => lightLocked_inner s)
      fun _ => setJog_inner j s

theorem keyRelease_inner (k : Key) (s : State) : Inner s (keyRelease k s) :=
  .ite (fun _ => setJog_inner _ s) fun _ => .rfl s

theorem expireLamp_inner (s : State) : Inner s (expireLamp s) :=
  .ite (fun _ => setLine_inner s { s.line with lockedAt := none }) fun _ => .rfl s

theorem fallSilent_inner (s : State) : Inner s (fallSilent s) :=
  .ite (fun _ => (setLine_inner s { s.line with pendant := .silent }).trans (setJog_inner _ _))
    fun _ => .rfl s

theorem openChain_inner (s : State) : Inner s (openChain s) :=
  (setLine_inner s { s.line with chainOpen := true }).trans (raiseAlarm_inner _ _ _ _)

theorem closeChain_inner (s : State) : Inner s (closeChain s) :=
  (setLine_inner s { s.line with chainOpen := false }).trans (endCondition_inner _ _)

theorem keepDriveStatus_inner (d : DriveStatus) (s : State) : Inner s (keepDriveStatus d s) := by
  have h := setLine_inner s { s.line with drive := d }
  unfold keepDriveStatus
  split
  · exact h.trans (endCondition_inner _ _)
  · exact h.trans (raiseAlarm_inner _ _ _ _)

theorem linkUp_inner (s : State) : Inner s (linkUp s) :=
  .ite (fun _ => (setLine_inner s { s.line with link := .up }).trans (endCondition_inner _ _))
    fun _ => .rfl s

theorem statusFrame_inner (w : WrapReport) (ph : Word) (d : DriveStatus) (s : State) :
    Inner s (statusFrame w ph d s) := by
  refine Inner.trans ?_ (linkUp_inner _)
  refine Inner.trans ?_ (keepDriveStatus_inner d _)
  exact ((setLine_inner s { s.line with linkWatch := some (s.host.clock + 50) }).trans
    (wrapReport_inner w _)).trans (setRegRest_inner _ { (wrapReport w { s with line := { s.line with
      linkWatch := some (s.host.clock + 50) } }).reg with measured := ph })

theorem loseLink_inner (s : State) : Inner s (loseLink s) :=
  .ite (fun _ => (setLine_inner s { s.line with link := .lost, linkWatch := none }).trans
    (raiseAlarm_inner _ _ _ _)) fun _ => .rfl s

theorem wrapExpiry_inner (s : State) : Inner s (wrapExpiry s) :=
  .ite (fun _ => wrapTimedOut_inner s) fun _ => .rfl s

theorem printAnswer_inner (n : Half) (r : PrintResult) (s : State) : Inner s (printAnswer n r s) := by
  unfold printAnswer
  split
  · exact .rfl s
  · refine .ite (fun _ => ?_) fun _ => .rfl s
    cases r
    · exact updPanel_inner _ _ s
    · exact faultPrint_inner _ s

theorem engineReport_inner (v : EngineState) (s : State) : Inner s (engineReport v s) := by
  refine Inner.trans ?_ (retest_inner _)
  refine Inner.trans ?_ (printTest_inner _)
  have h := setOrd_inner s { s.ord with engine := v }
  cases v
  · exact h.trans (endCondition_inner _ _)
  · exact h

/-! ## Line reset -/

theorem orderReset_inner (s : State) : Inner s (orderReset s) := by
  refine Inner.trans ?_ (endCondition_inner _ _)
  refine Inner.trans ?_ (endCondition_inner _ _)
  refine Inner.trans ?_ (endCondition_inner _ _)
  have hr : ∀ (u : State) (o : OpenOrder), Inner u (resetOrder u o) := fun u o =>
    (writeCancelled_inner _ _ u).trans (finishLong_inner _ _ _ _)
  have he : ∀ u : State, Inner u (emptyOrders u) := fun u =>
    SameView.inner { trims := by simp [emptyOrders] }
  exact (Inner.foldl hr _ s).trans (he _)

theorem blocksReset_inner (s : State) : Inner s (blocksReset s) := by
  refine Inner.trans ?_ (endCondition_inner _ _)
  refine Inner.trans ?_ (endCondition_inner _ _)
  refine Inner.trans ?_ (setCells_inner _ _)
  refine Inner.trans ?_ (setTrig_inner _ _)
  refine Inner.trans ?_ (setSplices_inner _ _)
  exact ((tensReset_inner s).trans (regReset_inner _)).trans (orderReset_inner _)

/-- The line goes to COLD with every drum zone OFF: the heat unit's reset makes safe what the
controller's leaves (R9, R100, R103). -/
theorem heatColdReset_inner (s : State) : Inner s (heatReset (coldReset s)) := by
  have h1 : Inner s (if s.line.state = .cold then s else enterState .cold .reset s) :=
    .ite (fun _ => .rfl s) fun _ => enterState_inner _ (.inl rfl)
  have hc : ∀ u : State, u.line.state = .cold → Ports u (heatReset (setSpeed 0 (setJog .still
      { u with line := { u.line with heat := false, threadHeat := false, lockedAt := none } })))
      ∧ HeatersSafe (heatReset (setSpeed 0 (setJog .still
      { u with line := { u.line with heat := false, threadHeat := false, lockedAt := none } })))
      ∧ (WithinRange u → WithinRange (heatReset (setSpeed 0 (setJog .still
      { u with line := { u.line with heat := false, threadHeat := false, lockedAt := none } }))))
      ∧ (SpeedLaw u → SpeedLaw (heatReset (setSpeed 0 (setJog .still
      { u with line := { u.line with heat := false, threadHeat := false, lockedAt := none } })))) := by
    intro u hu
    have p0 : Ports u { u with line := { u.line with
        heat := false, threadHeat := false, lockedAt := none } } := .of
    generalize hv : ({ u with line := { u.line with
        heat := false, threadHeat := false, lockedAt := none } } : State) = v at p0 ⊢
    have r0 : WithinRange u → WithinRange v := fun h => by
      subst hv
      exact ⟨h.trims, h.target, h.position, h.zones, h.tension⟩
    have s0 : SpeedLaw u → SpeedLaw v := fun h => by
      subst hv
      exact ⟨h.config, h.unstarted, h.stopped, h.limited, h.wrap⟩
    have i1 := setJog_inner .still v
    have i2 : Inner (setJog .still v) (setSpeed 0 (setJog .still v)) :=
      setSpeed_inner (fun _ _ => rfl) fun _ => Nat.zero_le _
    generalize setSpeed 0 (setJog .still v) = w at i2 ⊢
    have i3 : Inner w (setZones (Vector.ofFn (restZone w)) w) := by
      refine setZones_inner _ w (fun _ _ k => ?_) (fun _ k => ?_) fun _ k => ?_
      · simp [restZone, Zone.shutOff]
      · simp [restZone, Zone.shutOff, Zone.Safe]
      · simp [restZone, Zone.shutOff, Zone.InRange]
    have i4 : Inner (setZones (Vector.ofFn (restZone w)) w) (heatReset w) :=
      ((endCondition_inner _ _).trans (endCondition_inner _ _)).trans (endCondition_inner _ _)
    have hz : HeatersSafe (setZones (Vector.ofFn (restZone w)) w) := by
      refine ⟨fun _ k => ?_, fun k _ => ?_⟩ <;> simp [restZone, Zone.shutOff]
    have i := (i1.trans i2).trans (i3.trans i4)
    exact ⟨p0.trans i.toPorts, i4.heaters hz, fun h => i.range (r0 h), fun h => i.speed (s0 h)⟩
  have hs : (if s.line.state = .cold then s else enterState .cold .reset s).line.state = .cold := by
    split
    · assumption
    · exact enterState_state _ _ _
  obtain ⟨p, hh, hr, hv⟩ := hc _ hs
  exact h1.trans ⟨p, fun _ => hh, hr, hv⟩

theorem renewAlarms_inner (s : State) : Inner s (renewAlarms s) := by
  refine Inner.trans (Inner.foldl (fun u a => ?_) _ s) (Inner.foldl (fun u a => ?_) _ _)
  · exact .ite (fun _ => removeLatch_inner 2 a u) fun _ => .rfl u
  · exact .ite (fun _ => ((draw_inner u).trans (draw_inner _)).trans (raiseAlarm_inner _ _ _ _))
      fun _ => .rfl u

theorem lineReset_inner (s : State) : Inner s (lineReset s) :=
  (((blocksReset_inner s).trans (heatColdReset_inner _)).trans (setAuthority_inner _ _ _)).trans
    (renewAlarms_inner _)

/-! ## The walker's take -/

theorem claimTicket_inner (n : Nat) (s : State) : Inner s (claimTicket n s) :=
  (putTicket_inner (ticketBase_low n) [2] s).trans (SameView.inner {})

theorem Live.of_not_off {s : State} (h : s.walker.state ≠ .off) : Live s := .inr h

theorem dispatch_inner (n : Nat) {s : State} (h : s.walker.state ≠ .off) : Inner s (dispatch n s) := by
  unfold dispatch
  split
  · exact finishTicket_inner _ _ _ s
  · exact takeLineCommand_inner n (.of_not_off h)
  · exact takeAuthority_inner n s
  · exact takeSpeedClass_inner n s
  · exact takeSectionClear_inner n s
  · exact takeFabricLoaded_inner n s
  · exact takeProfileCommit_inner n s
  · exact takeProfileOpen_inner n s
  · exact takeProfileClear_inner n s
  · exact takeLibraryLock_inner n s
  · exact takeTriggerSet_inner n s
  · exact takeTriggerGroup_inner n s
  · exact takeTriggerCorrect_inner n s
  · exact takeOutputSet_inner n s
  · exact takeQueuePanels_inner n s
  · exact takeCancelPanels_inner n s
  · exact takePhaseHome_inner n s
  · exact takeHeatSetpoint_inner n s
  · exact takeHeatTune_inner n s
  · exact takeScanList_inner n s
  · exact takeTensionTune_inner n s
  · exact takeTensionMix_inner n s
  · exact takeAutoZero_inner n s
  · exact takeTrimReset_inner n s
  · exact refuseTicket_inner _ _ _ s

theorem afterTake_inner {s : State} (h : s.walker.state ≠ .off) : Inner s (afterTake s) :=
  .ite (fun _ => setWalker_inner _ h (by simp)) fun _ => moveOn_inner h

/-- What is asked of a ticket's answer: it is inner where the walker is not OFF. -/
def InnerAnswer (f : Nat → State → State) : Prop :=
  ∀ n s, s.walker.state ≠ .off → Inner s (f n s)

theorem InnerAnswer.of {f : Nat → State → State} (h : ∀ n s, Inner s (f n s)) : InnerAnswer f :=
  fun n s _ => h n s

theorem running_of_takesNow {s : State} (h : takesNow s = true) : s.walker.state = .running := by
  unfold takesNow at h
  simp only [Bool.and_eq_true, beq_iff_eq] at h
  exact h.1.1

theorem takeLook_inner {f : Nat → State → State} (hf : InnerAnswer f) {s : State}
    (h : s.walker.state ≠ .off) : Inner s (takeLook f s) := by
  have h1 := claimTicket_inner s.walker.look s
  have h2 := h1.trans (hf s.walker.look _ fun e => h (h1.off.mp e))
  exact h2.trans (afterTake_inner fun e => h (h2.off.mp e))

theorem takeOfKind_inner {f : Nat → State → State} (hf : InnerAnswer f) (k : Nat) (s : State) :
    Inner s (takeOfKind k f s) :=
  .ite (fun h => takeLook_inner hf (by simp [running_of_takesNow h.1])) fun _ => .rfl s

theorem takeUnknown_inner (s : State) : Inner s (takeUnknown s) :=
  .ite (fun h => takeLook_inner (.of fun n s => refuseTicket_inner n _ _ s) (by simp [running_of_takesNow h.1]))
    fun _ => .rfl s

theorem examine_inner (s : State) : Inner s (examine s) := by
  refine .ite (fun _ => .rfl s) fun hr => ?_
  have h : s.walker.state ≠ .off := by
    intro e
    exact hr (by simp [e])
  exact .ite (fun _ => setWalker_inner _ h (by simp)) fun _ => .ite (fun _ => stallWalker_inner _ _ h)
    fun _ => takeLook_inner (fun n s => dispatch_inner n) h

theorem lookAgain_inner (s : State) : Inner s (lookAgain s) := by
  refine .ite (fun h => ?_) fun _ => .rfl s
  have ho : s.walker.state ≠ .off := by simp [h]
  split
  · exact moveOn_inner ho
  · exact setWalker_inner _ ho (by simp)

theorem chainLook_inner (s : State) : Inner s (chainLook s) :=
  .ite (fun _ => lookAgain_inner s) fun _ => .rfl s

theorem restartWalker_inner (s : State) : Inner s (restartWalker s) := by
  refine .ite (fun h => ?_) fun _ => .rfl s
  have h1 := setWalker_inner (s := s) { s.walker with stall := .none, state := .running }
    (by simp [h]) (by simp)
  exact .ite (fun _ => h1) fun _ => h1.trans (moveOn_inner (by simp))

end Sys2Proof.Machine
end

