-- ==== Sys2Proof/Proofs/EveryCommand.lean ====
section
/-! PROOFS. What every command keeps: START and the host's writes beside the inner operations, and from
them the laws of heaters, ranges and speed for every step, and the messages of a command. -/

-- One thread for the whole file: each waiting thread reserves its stack.
set_option Elab.async false

namespace Sys2Proof.Machine

/-- What every effect of a command keeps: it sends nothing but PRINT_START, and keeps the three laws. -/
structure Lawful (s t : State) : Prop where
  sent : ∃ l, t.sent = s.sent ++ l ∧ ∀ m ∈ l, m.isPrint = true
  heaters : HeatersSafe s → HeatersSafe t
  range : WithinRange s → WithinRange t
  speed : SpeedLaw s → SpeedLaw t

theorem Inner.lawful {s t : State} (h : Inner s t) : Lawful s t := ⟨h.sent, h.heaters, h.range, h.speed⟩

theorem Lawful.rfl (s : State) : Lawful s s := (Inner.rfl s).lawful

theorem Lawful.trans {s t u : State} (h1 : Lawful s t) (h2 : Lawful t u) : Lawful s u where
  sent := by
    obtain ⟨l, e, hl⟩ := h1.sent
    obtain ⟨m, f, hm⟩ := h2.sent
    refine ⟨l ++ m, by rw [f, e, List.append_assoc], fun x hx => ?_⟩
    rcases List.mem_append.mp hx with hx | hx
    · exact hl x hx
    · exact hm x hx
  heaters h := h2.heaters (h1.heaters h)
  range h := h2.range (h1.range h)
  speed h := h2.speed (h1.speed h)

theorem Lawful.ite {s t u : State} {c : Prop} [Decidable c] (h1 : c → Lawful s t)
    (h2 : ¬ c → Lawful s u) : Lawful s (if c then t else u) := by
  split
  · exact h1 ‹_›
  · exact h2 ‹_›

/-- A change of exchange memory and host registers that keeps START status and, after START, the
configuration. -/
theorem Lawful.of_host {s t : State} (v : SameView s t) (sent : t.sent = s.sent)
    (start : t.host.startStatus = s.host.startStatus) (off : t.walker.state = s.walker.state)
    (h : started s = true → SameConfig s t) : Lawful s t where
  sent := ⟨[], by simp [sent], by simp⟩
  heaters := v.heaters
  range := v.range
  speed hs := by
    by_cases hst : started s = true
    · exact v.speed (h hst) start (by rw [off]) hs
    · have hst' : started t = false := by
        unfold started at hst ⊢
        rw [start]
        simpa using hst
      have hu := hs.unstarted (by simpa using hst)
      refine ⟨fun ht => ?_, fun _ => by rw [v.state, off]; exact hu, fun ht => ?_, ?_, fun ht => ?_⟩
      · rw [hst'] at ht; cases ht
      · rw [v.sCmd]; exact hs.stopped hu.1
      · rw [v.sCmd, hs.stopped hu.1]; exact Nat.zero_le _
      · rw [v.state]; exact hs.wrap (v.wrap ▸ ht)

/-! ## START -/

/-- A START request before START: its answer keeps the laws where it accepts an accepted configuration
alone, and starts the walker only then (R166). -/
theorem lawful_of_answered {s t : State} (v : SameView s t) (sent : t.sent = s.sent)
    (h0 : started s = false) (mem : t.mem = s.mem) (h1 : started t = true → configAccepted s)
    (h2 : started t = false → t.walker.state = s.walker.state) : Lawful s t where
  sent := ⟨[], by simp [sent], by simp⟩
  heaters := v.heaters
  range := v.range
  speed hs := by
    have hc : SameConfig s t := (show LogAndTicketsOnly s t from .of_mem mem).sameConfig
    refine ⟨fun ht => hc.accepted.mpr (h1 ht), fun ht => ?_, fun ht => ?_, ?_, fun ht => ?_⟩
    · rw [v.state, h2 ht]; exact hs.unstarted h0
    · rw [v.sCmd]; exact hs.stopped (v.state ▸ ht)
    · rw [v.sCmd, hc.vLim_eq v.cls]; exact hs.limited
    · rw [v.state]; exact hs.wrap (v.wrap ▸ ht)

theorem startPart_lawful (s : State) : Lawful s (startPart s) := by
  refine .ite (fun _ => .rfl s) fun h0 => ?_
  have h0' : started s = false := by simpa using h0
  split
  · refine lawful_of_answered {} (by simp) h0' (by simp) (fun h => ?_) (by simp)
    cases h
  · next h => exact lawful_of_answered {} (by simp) h0' (by simp) (fun _ => h) fun ht => by cases ht

/-! ## Host writes -/

/-- A served write keeps the configuration once it is locked: its words are guarded (R165, R177). -/
theorem storeWord_sameConfig {a : Nat} (h4 : a % 4 = 0) (data : Word) (enables : BitVec 4) {s : State}
    (hg : guarded s a = false) (hst : started s = true) :
    SameConfig s (storeWord a data enables s) := by
  have ha : ∀ x, 0x10 ≤ x → x < 0x28 → ¬ (a ≤ x ∧ x < a + 4) := by
    intro x h1 h2 ⟨h3, h5⟩
    unfold guarded at hg
    rw [if_pos (by omega)] at hg
    unfold anchorGuarded at hg
    by_cases hr : 0x010 ≤ a ∧ a < 0x02C
    · rw [if_pos hr, hst] at hg; cases hg
    · omega
  have hk : ∀ (l : List Nat) (u : State), (∀ k ∈ l, k < 4) →
      BytesKept (fun x => a ≤ x ∧ x < a + 4) u (l.foldl (storeLane a data enables) u) := by
    intro l
    induction l with
    | nil => intro u _; exact .rfl _ u
    | cons k l ih =>
      intro u hl
      have hk4 := hl k List.mem_cons_self
      refine BytesKept.trans (t := storeLane a data enables u k) ?_
        (ih _ fun j hj => hl j (List.mem_cons_of_mem k hj))
      unfold storeLane
      split
      · exact BytesKept.putBytes _ _ u fun x h1 h2 => by simp at h2; omega
      · exact .rfl _ u
  have hb : ∀ x, 0x10 ≤ x → x < 0x28 →
      Memory.get (storeWord a data enables s).mem x = Memory.get s.mem x := fun x h1 h2 =>
    hk [0, 1, 2, 3] s (by simp) x (ha x h1 h2)
  refine ⟨fun x h1 h2 => ?_, ?_, ?_, ?_⟩
  · unfold cfgHalf Memory.half
    rw [hb x (by omega) (by omega), hb (x + 1) (by omega) (by omega)]
  · unfold ticketLimit cfgByte; rw [hb _ (by omega) (by omega)]
  · unfold lookCode cfgByte; rw [hb _ (by omega) (by omega)]
  · unfold lThread Memory.word Memory.half
    rw [hb _ (by omega) (by omega), hb _ (by omega) (by omega), hb _ (by omega) (by omega),
      hb _ (by omega) (by omega)]

theorem memoryWrite_lawful {a : Nat} (h4 : a % 4 = 0) (data : Word) (enables : BitVec 4) (s : State) :
    Lawful s (memoryWrite a data enables s) := by
  refine .ite (fun _ => ?_) fun hg => ?_
  · have hm : LogAndTicketsOnly s (dropWrite a s) := .of_mem (by simp)
    exact .of_host {} (by simp) (by unfold dropWrite; split <;> simp) (by simp) fun _ => hm.sameConfig
  · exact .of_host {} (by simp) (by simp) (by simp) fun hst =>
      storeWord_sameConfig h4 data enables (by simpa using hg) hst

theorem controlWrite_lawful (data : Word) (s : State) : Lawful s (controlWrite data s) := by
  have h1 : Lawful s (if data.getLsbD 0 then startPart s else s) :=
    .ite (fun _ => startPart_lawful s) fun _ => .rfl s
  have h2 := h1.trans (.ite (c := data.getLsbD 1 = true) (fun _ => (lineReset_inner _).lawful)
    fun _ => .rfl _)
  exact h2.trans (.ite (fun _ => (restartWalker_inner _).lawful) fun _ => .rfl _)

/-- The host's attention registers are none of the laws' business. -/
theorem setHost_lawful (s : State) (u : HostUnit) (h : u.startStatus = s.host.startStatus := by rfl) :
    Lawful s { s with host := u } :=
  .of_host {} (by simp) h (by simp) fun _ => LogAndTicketsOnly.sameConfig (.of_mem (by simp))

theorem registerWrite_lawful (a : Nat) (data : Word) (enables : BitVec 4) (s : State) :
    Lawful s (registerWrite a data enables s) :=
  .ite (fun _ => (lookAgain_inner s).lawful) fun _ => .ite (fun _ => .rfl s) fun _ =>
    .ite (fun _ => controlWrite_lawful data s) fun _ => .ite (fun _ => setHost_lawful s _)
      fun _ => setHost_lawful s _

theorem hostWrite_lawful (offset data : Word) (enables : BitVec 4) (s : State) :
    Lawful s (hostWrite offset data enables s) :=
  .ite (fun _ => memoryWrite_lawful (by omega) data enables s) fun _ =>
    .ite (fun _ => registerWrite_lawful _ data enables s) fun _ => .rfl s

/-- Bytes written above the configuration. -/
theorem putBytes_lawful {a : Nat} (ha : 0x28 ≤ a) (l : List Byte) (s : State) :
    Lawful s (putBytes a l s) := by
  refine .of_host {} (by simp) (by simp) (by simp) fun _ => ?_
  have hb : ∀ x, x < 0x28 → Memory.get (putBytes a l s).mem x = Memory.get s.mem x :=
    fun x hx => Memory.get_putAll_out _ _ _ (.inl (by omega))
  refine ⟨fun x _ h2 => ?_, ?_, ?_, ?_⟩
  · unfold cfgHalf Memory.half; rw [hb x (by omega), hb (x + 1) (by omega)]
  · unfold ticketLimit cfgByte; rw [hb _ (by omega)]
  · unfold lookCode cfgByte; rw [hb _ (by omega)]
  · unfold lThread Memory.word Memory.half
    rw [hb _ (by omega), hb _ (by omega), hb _ (by omega), hb _ (by omega)]

theorem pictureStep_lawful (s : State) : Lawful s (pictureStep s) :=
  (putBytes_lawful (by omega) _ s).trans
    (.ite (fun _ => (raiseCause_inner .notice _).lawful) fun _ => .rfl _)

/-! ## Power-on reset -/

/-- Between two power-on states only the chain input, the free-value counter and the queue differ. -/
theorem powerUp_laws (s : State) :
    HeatersSafe (powerUp s) ∧ WithinRange (powerUp s) ∧ SpeedLaw (powerUp s) := by
  have hz : ∀ k : Fin 8, (powerUp s).heat.zones[k] = Zone.reset := fun k => by
    simp [powerUp, State.reset, HeatUnit.reset]
  have ht : ∀ z : Fin 4, (powerUp s).tens.zones[z] = TensionZone.reset := fun z => by
    simp [powerUp, State.reset, TensionUnit.reset]
  have hl : ∀ i : Fin 16, (powerUp s).lib.slots[i] = ⟨.empty, 0, 0, 0⟩ := fun i => by
    simp [powerUp, State.reset, Library.reset]
  refine ⟨⟨fun _ k => by rw [hz]; rfl, fun k _ => by rw [hz]; exact ⟨rfl, rfl, rfl⟩⟩,
    ⟨fun i => by rw [hl]; decide, ⟨show (-600 : Int) ≤ 0 by decide, show (0 : Int) ≤ 600 by decide⟩,
      ⟨show (-600 : Int) ≤ 0 by decide, show (0 : Int) ≤ 600 by decide⟩, fun k => by rw [hz]; decide,
      fun z => by rw [ht]; decide⟩, ?_⟩
  refine ⟨fun h => ?_, fun _ => ⟨.inl rfl, rfl⟩, fun _ => rfl, Nat.zero_le _, fun h => ?_⟩
  · cases h
  · exact absurd h (by simp [powerUp, State.reset, DoseUnit.reset])

theorem powerOn_laws (s : State) :
    HeatersSafe (powerOn s) ∧ WithinRange (powerOn s) ∧ SpeedLaw (powerOn s) := by
  obtain ⟨h1, h2, h3⟩ := powerUp_laws s
  have hi : Inner (powerUp s) (powerOn s) := .ite (fun _ => raiseAlarm_inner _ _ _ _) fun _ => .rfl _
  exact ⟨hi.heaters h1, hi.range h2, hi.speed h3⟩

/-! ## Every command -/

/-- How a command but power-on reset is answered: its effect, which is lawful, and then the messages of
its changes, with a frame forced at COMMAND_FRAME and at a STATUS_FRAME with the wrap CLOSED, and LAMPS
at a message of a pendant that was SILENT (log 11). -/
structure Answered (c : Instr) (s : State) (frame lamps : Bool) (u : State) : Prop where
  next : exec c s = .next (announce frame lamps s u)
  lawful : Lawful (clearSent s) u
  frame : frame = true → c = .commandFrame ∨ ∃ w p d, c = .statusFrame w p d ∧ s.dose.wrap = .closed
  lamps : lamps = true → s.line.pendant = .silent ∧ isPendantMessage c

theorem Answered.plain {c : Instr} {s : State} (f : State → State) (he : exec c s = answer f s)
    (h : ∀ u, Lawful u (f u)) : ∃ a b u, Answered c s a b u :=
  ⟨false, false, _, he, h _, by simp, by simp⟩

theorem Answered.inner {c : Instr} {s : State} (f : State → State) (he : exec c s = answer f s)
    (h : ∀ u, Inner u (f u)) : ∃ a b u, Answered c s a b u := Answered.plain f he fun u => (h u).lawful

theorem Answered.ticket {c : Instr} {s : State} {k : Nat} {f : Nat → State → State}
    (he : exec c s = answer (takeOfKind k f) s) (h : ∀ n u, Inner u (f n u)) :
    ∃ a b u, Answered c s a b u := Answered.inner _ he (takeOfKind_inner (.of h) k)

theorem Answered.pendant {c : Instr} {s : State} (f : State → State)
    (he : exec c s = answerPendant f s) (hc : isPendantMessage c) (h : ∀ u, Inner u (f u)) :
    ∃ a b u, Answered c s a b u :=
  ⟨false, s.line.pendant == .silent, _, he, ((pendantMessage_inner _).trans (h _)).lawful, by simp,
    fun hl => ⟨by simpa using hl, hc⟩⟩

theorem exec_answered {c : Instr} (hc : c ≠ .powerOnReset) (s : State) :
    ∃ a b u, Answered c s a b u := by
  cases c
  case powerOnReset => exact absurd rfl hc
  case start => exact Answered.plain _ rfl startPart_lawful
  case resetLine => exact Answered.inner _ rfl lineReset_inner
  case walkerRestart => exact Answered.inner _ rfl restartWalker_inner
  case nudge => exact Answered.inner _ rfl lookAgain_inner
  case attnClear => exact Answered.plain _ rfl fun u => setHost_lawful u _
  case attnMaskWrite => exact Answered.plain _ rfl fun u => setHost_lawful u _
  case registerWriteIgnored => exact Answered.plain _ rfl .rfl
  case hostWrite o d e => exact Answered.plain _ rfl (hostWrite_lawful o d e)
  case walkerExamine => exact Answered.inner _ rfl examine_inner
  case nop => exact Answered.ticket rfl fun n u => finishTicket_inner n _ _ u
  case badKind => exact Answered.inner _ rfl takeUnknown_inner
  case lineCommand => exact Answered.inner _ rfl (takeOfKind_inner (fun n _ h => takeLineCommand_inner n (.inr h)) _)
  case authority => exact Answered.ticket rfl takeAuthority_inner
  case speedClass => exact Answered.ticket rfl takeSpeedClass_inner
  case sectionClear => exact Answered.ticket rfl takeSectionClear_inner
  case fabricLoaded => exact Answered.ticket rfl takeFabricLoaded_inner
  case profileCommit => exact Answered.ticket rfl takeProfileCommit_inner
  case profileOpen => exact Answered.ticket rfl takeProfileOpen_inner
  case profileClear => exact Answered.ticket rfl takeProfileClear_inner
  case libraryLock => exact Answered.ticket rfl takeLibraryLock_inner
  case triggerSet => exact Answered.ticket rfl takeTriggerSet_inner
  case triggerGroup => exact Answered.ticket rfl takeTriggerGroup_inner
  case triggerCorrect => exact Answered.ticket rfl takeTriggerCorrect_inner
  case outputSet => exact Answered.ticket rfl takeOutputSet_inner
  case queuePanels => exact Answered.ticket rfl takeQueuePanels_inner
  case cancelPanels => exact Answered.ticket rfl takeCancelPanels_inner
  case phaseHome => exact Answered.ticket rfl takePhaseHome_inner
  case heatSetpoint => exact Answered.ticket rfl takeHeatSetpoint_inner
  case heatTune => exact Answered.ticket rfl takeHeatTune_inner
  case scanList => exact Answered.ticket rfl takeScanList_inner
  case tensionTune => exact Answered.ticket rfl takeTensionTune_inner
  case tensionMix => exact Answered.ticket rfl takeTensionMix_inner
  case autoZero => exact Answered.ticket rfl takeAutoZero_inner
  case trimReset => exact Answered.ticket rfl takeTrimReset_inner
  case keyTake => exact Answered.pendant _ rfl (by simp [isPendantMessage]) keyTake_inner
  case keyGive => exact Answered.pendant _ rfl (by simp [isPendantMessage]) keyGive_inner
  case keyKeep => exact Answered.pendant _ rfl (by simp [isPendantMessage]) keyKeep_inner
  case keyStop => exact Answered.pendant _ rfl (by simp [isPendantMessage]) keyStop_inner
  case keyRun => exact Answered.pendant _ rfl (by simp [isPendantMessage]) (keyLine_inner _)
  case keyHold => exact Answered.pendant _ rfl (by simp [isPendantMessage]) (keyLine_inner _)
  case keyWarm => exact Answered.pendant _ rfl (by simp [isPendantMessage]) (keyLine_inner _)
  case keyCold => exact Answered.pendant _ rfl (by simp [isPendantMessage]) (keyLine_inner _)
  case keyThread => exact Answered.pendant _ rfl (by simp [isPendantMessage]) keyThread_inner
  case keyJogFwd => exact Answered.pendant _ rfl (by simp [isPendantMessage]) (keyJog_inner _)
  case keyJogRev => exact Answered.pendant _ rfl (by simp [isPendantMessage]) (keyJog_inner _)
  case keyUp k => exact Answered.pendant _ rfl (by simp [isPendantMessage]) (keyRelease_inner k)
  case alive => exact Answered.pendant _ rfl (by simp [isPendantMessage]) .rfl
  case lockedLampExpiry => exact Answered.inner _ rfl expireLamp_inner
  case pendantSilent => exact Answered.inner _ rfl fallSilent_inner
  case estopOpen => exact Answered.inner _ rfl openChain_inner
  case estopClose => exact Answered.inner _ rfl closeChain_inner
  case statusFrame w p d =>
    refine ⟨closesAgain s (statusFrame w p d (clearSent s)), false, _, rfl,
      (statusFrame_inner w p d _).lawful, fun h => .inr ⟨w, p, d, rfl, ?_⟩, by simp⟩
    unfold closesAgain at h
    simp only [Bool.and_eq_true, beq_iff_eq] at h
    exact h.1
  case driveLinkWatchExpiry => exact Answered.inner _ rfl loseLink_inner
  case commandFrame => exact ⟨true, false, _, rfl, .rfl _, fun _ => .inl rfl, by simp⟩
  case printDone n r => exact Answered.inner _ rfl (printAnswer_inner n r)
  case engineState v => exact Answered.inner _ rfl (engineReport_inner v)
  case reading x d q => exact Answered.inner _ rfl (takeReading_inner x d q)
  case fabricMark o => exact Answered.inner _ rfl (seeFabricMark_inner o)
  case paperMark o => exact Answered.inner _ rfl (seePaperMark_inner o)
  case fabricSplice o => exact Answered.inner _ rfl (seeFabricSplice_inner o)
  case paperSplice o => exact Answered.inner _ rfl (seePaperSplice_inner o)
  case drumStep d =>
    cases d
    · exact Answered.inner _ rfl drumForward_inner
    · exact Answered.inner _ rfl drumReverse_inner
  case printStep d =>
    cases d
    · exact Answered.inner _ rfl printForward_inner
    · exact Answered.inner _ rfl printReverse_inner
  case storeExitStep d =>
    cases d
    · exact Answered.inner _ rfl exitForward_inner
    · exact Answered.inner _ rfl exitReverse_inner
  case triggerFire c => exact Answered.inner _ rfl (fireAhead_inner c)
  case latchPulseEnd i => exact Answered.inner _ rfl (endPulse_inner i)
  case wrapTimeout => exact Answered.inner _ rfl wrapExpiry_inner
  case doseInterval => exact Answered.inner _ rfl doseInterval_inner
  case heatInterval => exact Answered.inner _ rfl heatStep_inner
  case heaterWindow => exact Answered.inner _ rfl windowStep_inner
  case heaterOnEnd k => exact Answered.inner _ rfl (heaterEnd_inner k)
  case scannerConversion r => exact Answered.inner _ rfl (convert_inner r)
  case tensionSample a b c d => exact Answered.inner _ rfl (tensionStep_inner a b c d)
  case chainLook => exact Answered.inner _ rfl chainLook_inner
  case pictureInterval => exact Answered.plain _ rfl pictureStep_lawful
  case lineClock => exact Answered.plain _ rfl fun u => setHost_lawful u _

/-! ## The laws at a step -/

/-- The messages are none of the laws' business. -/
theorem laws_of_sent {s t : State} (l : List Message) (h : t = { s with sent := l }) :
    (HeatersSafe s ↔ HeatersSafe t) ∧ (WithinRange s ↔ WithinRange t) ∧ (SpeedLaw s ↔ SpeedLaw t) := by
  subst h
  exact ⟨⟨fun h => ⟨h.disabled, h.unheated⟩, fun h => ⟨h.disabled, h.unheated⟩⟩,
    ⟨fun r => ⟨r.trims, r.target, r.position, r.zones, r.tension⟩,
      fun r => ⟨r.trims, r.target, r.position, r.zones, r.tension⟩⟩,
    ⟨fun h => ⟨h.config, h.unstarted, h.stopped, h.limited, h.wrap⟩,
      fun h => ⟨h.config, h.unstarted, h.stopped, h.limited, h.wrap⟩⟩⟩

theorem exec_keeps_laws {c : Instr} {s t : State} (he : exec c s = .next t) :
    (HeatersSafe s → HeatersSafe t) ∧ (WithinRange s → WithinRange t) ∧ (SpeedLaw s → SpeedLaw t) := by
  by_cases hc : c = .powerOnReset
  · subst hc
    obtain ⟨l, e⟩ := announce_only_sent false false (powerUp s) (powerOn s)
    obtain ⟨h1, h2, h3⟩ := laws_of_sent _ e
    obtain ⟨p1, p2, p3⟩ := powerOn_laws s
    have ht : announce false false (powerUp s) (powerOn s) = t := by injection he
    subst ht
    exact ⟨fun _ => h1.mp p1, fun _ => h2.mp p2, fun _ => h3.mp p3⟩
  · obtain ⟨a, b, u, ha⟩ := exec_answered hc s
    have ht : announce a b s u = t := by
      have := ha.next
      rw [he] at this
      injection this with h
      exact h.symm
    obtain ⟨l, e⟩ := announce_only_sent a b s u
    rw [ht] at e
    obtain ⟨h1, h2, h3⟩ := laws_of_sent _ e
    obtain ⟨c1, c2, c3⟩ := laws_of_sent (s := s) (t := clearSent s) [] rfl
    exact ⟨fun h => h1.mp (ha.lawful.heaters (c1.mp h)), fun h => h2.mp (ha.lawful.range (c2.mp h)),
      fun h => h3.mp (ha.lawful.speed (c3.mp h))⟩

theorem step_keeps_laws {s t : State} (h : step s = .next t) :
    (HeatersSafe s → HeatersSafe t) ∧ (WithinRange s → WithinRange t) ∧ (SpeedLaw s → SpeedLaw t) := by
  unfold step at h
  split at h
  · injection h with h
    subst h
    exact ⟨id, id, id⟩
  · next c rest _ =>
    obtain ⟨h1, h2, h3⟩ := exec_keeps_laws h
    exact ⟨fun hs => h1 ⟨hs.disabled, hs.unheated⟩,
      fun r => h2 ⟨r.trims, r.target, r.position, r.zones, r.tension⟩,
      fun hs => h3 ⟨hs.config, hs.unstarted, hs.stopped, hs.limited, hs.wrap⟩⟩

/-! ## The messages of a command -/

/-- The frame and the lamps show parts that no message writes. -/
theorem announce_views (a b : Bool) (s u : State) :
    frameOf (announce a b s u) = frameOf u ∧ lampSet (announce a b s u) = lampSet u := by
  obtain ⟨l, e⟩ := announce_only_sent a b s u
  rw [e]
  exact ⟨rfl, rfl⟩

/-- The messages of a command: those of its effect, then a frame and LAMPS where they are due. -/
theorem announce_sent (a b : Bool) (s u : State) :
    (announce a b s u).sent = u.sent
      ++ (if a = true ∨ frameOf u ≠ frameOf s then [.frame (frameOf u)] else [])
      ++ (if b = true ∨ lampSet u ≠ lampSet s then [.lamps (lampSet u)] else []) := by
  have hl : ∀ v : State, (sendLamps b s v).sent = v.sent
      ++ (if b = true ∨ lampSet v ≠ lampSet s then [.lamps (lampSet v)] else []) := by
    intro v
    unfold sendLamps
    by_cases h : b = true ∨ lampSet v ≠ lampSet s <;> simp [h, send]
  have hf : (sendFrame a s u).sent = u.sent
      ++ (if a = true ∨ frameOf u ≠ frameOf s then [.frame (frameOf u)] else []) := by
    unfold sendFrame
    by_cases h : a = true ∨ frameOf u ≠ frameOf s <;> simp [h, send]
  have hv : lampSet (sendFrame a s u) = lampSet u := by
    unfold sendFrame
    split <;> rfl
  rw [announce, hl, hv, hf]

end Sys2Proof.Machine

namespace Sys2Proof.Proofs

open Sys2Proof.Machine

/-- Settles O10: every command's effect is lawful, and the messages that follow it touch no zone. -/
theorem stepKeepsHeatersAndRanges : Obligations.StepKeepsHeatersAndRanges :=
  ⟨fun _ _ hs h => (step_keeps_laws h).1 hs, fun _ _ hs h => (step_keeps_laws h).2.1 hs⟩

/-- Settles O11: every change of line state and every command that sets a speed keeps the speed law. -/
theorem stepKeepsSpeedLaw : Obligations.StepKeepsSpeedLaw :=
  fun _ _ hs h => (step_keeps_laws h).2.2 hs

/-- Settles O3: effects send PRINT_START alone, and frames and LAMPS come from the announcement. -/
theorem messagesFollowChanges : Obligations.MessagesFollowChanges := by
  intro c s t he hc
  obtain ⟨a, b, u, ha⟩ := exec_answered hc s
  have ht : t = announce a b s u := by
    have := ha.next
    rw [he] at this
    injection this
  subst ht
  obtain ⟨vf, vl⟩ := announce_views a b s u
  obtain ⟨l, hl, hp⟩ := ha.lawful.sent
  rw [clearSent_sent, List.nil_append] at hl
  have frame_mem : ∀ f, Message.frame f ∈ (announce a b s u).sent ↔
      f = frameOf u ∧ (a = true ∨ frameOf u ≠ frameOf s) := by
    intro f
    have hn : Message.frame f ∉ u.sent := fun h => by cases hp _ (hl ▸ h)
    rw [announce_sent]
    by_cases h1 : a = true ∨ frameOf u ≠ frameOf s <;>
      by_cases h2 : b = true ∨ lampSet u ≠ lampSet s <;> simp [h1, h2, hn]
  have lamps_mem : ∀ x, Message.lamps x ∈ (announce a b s u).sent ↔
      x = lampSet u ∧ (b = true ∨ lampSet u ≠ lampSet s) := by
    intro x
    have hn : Message.lamps x ∉ u.sent := fun h => by cases hp _ (hl ▸ h)
    rw [announce_sent]
    by_cases h1 : a = true ∨ frameOf u ≠ frameOf s <;>
      by_cases h2 : b = true ∨ lampSet u ≠ lampSet s <;> simp [h1, h2, hn]
  rw [vf, vl]
  refine ⟨fun h => (frame_mem _).mpr ⟨rfl, .inr h⟩, fun h => (lamps_mem _).mpr ⟨rfl, .inr h⟩,
    fun f h => ((frame_mem f).mp h).1, fun x h => ((lamps_mem x).mp h).1, ?_, ?_⟩
  · rintro ⟨f, hf⟩
    rcases ((frame_mem f).mp hf).2 with h | h
    · exact .inr (ha.frame h)
    · exact .inl h
  · rintro ⟨x, hx⟩
    rcases ((lamps_mem x).mp hx).2 with h | h
    · exact .inr (ha.lamps h)
    · exact .inl h

end Sys2Proof.Proofs
end

