-- ==== Sys2Proof/Proofs/ResetState.lean ====
section
/-! PROOFS. The power-on state, and the laws it starts with. -/

-- One thread for the whole file: each waiting thread reserves its stack.
set_option Elab.async false

namespace Sys2Proof.Machine

/-! ## The power-on state -/

theorem reset_slot (i : Fin 16) : State.reset.lib.slots[i] = ⟨.empty, 0, 0, 0⟩ := by
  simp [State.reset, Library.reset]

theorem reset_zone (k : Fin 8) : State.reset.heat.zones[k] = Zone.reset := by
  simp [State.reset, HeatUnit.reset]

theorem reset_tension (z : Fin 4) : State.reset.tens.zones[z] = TensionZone.reset := by
  simp [State.reset, TensionUnit.reset]

theorem reset_alarm (a : Alarm) : alarmRec State.reset a = ⟨false, false⟩ := by
  simp [alarmRec, State.reset, LineUnit.reset]

theorem reset_laws : HeatersSafe State.reset ∧ WithinRange State.reset ∧ SpeedLaw State.reset :=
  powerUp_laws State.reset

theorem reset_withinCapacity : WithinCapacity State.reset := by
  refine ⟨?_, ?_, ?_, ?_, ?_, ?_, ?_, ?_, ?_⟩
  all_goals decide

theorem reset_ticketLaw : TicketLaw State.reset := by
  refine ⟨fun h => ?_, fun _ => ⟨rfl, rfl⟩, fun h => ?_, fun h => ?_, fun h => ?_, fun h => ?_⟩
  · cases h
  · cases h
  · cases h
  · rcases h with h | ⟨h, _⟩ | ⟨h, _⟩ <;> cases h
  · cases h.1

theorem reset_chainLaw : ChainLaw State.reset where
  slots _ he := nomatch he
  once := .nil
  unstarted _ := rfl
  fresh _ _ he := nomatch he

theorem reset_retireLaw : RetireLaw State.reset := fun _ he => nomatch he

theorem reset_copyLaw : CopyLaw State.reset where
  orders _ ho := nomatch ho
  entries _ he := nomatch he
  panels _ hp := nomatch hp

theorem reset_autoZeroLaw : AutoZeroLaw State.reset := fun z h => by
  rw [reset_tension] at h
  cases h

theorem reset_inUseExact : InUseExact State.reset := fun i => by
  rw [reset_slot]
  exact ⟨rfl, fun h => absurd h (Nat.lt_irrefl 0)⟩

theorem reset_numbersUnique : NumbersUnique State.reset where
  room := Nat.zero_le _
  counter := by decide
  live _ hp := nomatch hp
  unique := .nil

end Sys2Proof.Machine

namespace Sys2Proof.Proofs

open Sys2Proof.Machine

/-- Settles O5, from the values the power-on state is defined with. -/
theorem resetState : Obligations.ResetState := by
  obtain ⟨heaters, range, speed⟩ := reset_laws
  refine ⟨⟨rfl, rfl, rfl, rfl, rfl, rfl, rfl, rfl, reset_alarm, reset_slot, rfl, rfl, rfl, rfl, by decide, rfl,
    rfl, rfl, fun k => by rw [reset_zone]; rfl, rfl, rfl, rfl, rfl, rfl, rfl, fun a => rfl⟩, rfl,
    reset_withinCapacity, heaters, range, speed, reset_ticketLaw, reset_chainLaw, reset_retireLaw,
    reset_copyLaw, reset_autoZeroLaw, reset_inUseExact, reset_numbersUnique⟩

end Sys2Proof.Proofs
end

