-- ==== Sys2Proof/Proofs/Reports.lean ====
section
/-! PROOFS. What the operations inside the part report: how many notices they write, that a notice once
written stays, and what stays of the ticket area. `Reported` counts the notices between two states;
`MayStall` is for the finishes of long tickets, which write one where a FULL walker stalls. -/

-- One thread for the whole file: each waiting thread reserves its stack.
set_option Elab.async false

namespace Sys2Proof.Machine

/-! ## Frames -/

/-- The sixteen parts, to check a frame one by one. -/
theorem ChangesOnly.of_all {ps : List Part} {s t : State}
    (h : ∀ p ∈ [Part.mem, .line, .lib, .pos, .trig, .ord, .reg, .heat, .dose, .tens, .check, .walker,
      .host, .sent, .drawn, .queue], p ∈ ps ∨ samePart p s t) : ChangesOnly ps s t := by
  intro p hp
  refine (h p ?_).resolve_left hp
  cases p <;> simp

theorem ChangesOnly.rfl (ps : List Part) (s : State) : ChangesOnly ps s s := .of_all (by simp [samePart])

theorem ChangesOnly.trans {ps : List Part} {s t u : State} (h1 : ChangesOnly ps s t)
    (h2 : ChangesOnly ps t u) : ChangesOnly ps s u := by
  intro p hp
  have e1 := h1 p hp
  have e2 := h2 p hp
  cases p <;> exact Eq.trans e2 e1

theorem ChangesOnly.mono {ps qs : List Part} {s t : State} (h : ChangesOnly ps s t)
    (hq : ∀ p ∈ ps, p ∈ qs) : ChangesOnly qs s t := fun p hp => h p fun hps => hp (hq p hps)

/-- A frame from the state without its messages. -/
theorem ChangesOnly.of_clearSent {ps : List Part} {s t : State} (hs : Part.sent ∈ ps)
    (h : ChangesOnly ps (clearSent s) t) : ChangesOnly ps s t := by
  intro p hp
  have hq : p ≠ .sent := fun e => hp (e ▸ hs)
  have := h p hp
  cases p
  case sent => exact absurd (Eq.refl _) hq
  all_goals exact this

/-! ## Notices written -/

/-- The 32 bytes of the log entry with a count. -/
def entryBytes (w : Word) (a : Nat) : Prop :=
  0x1000 + 32 * (w.toNat % 256) ≤ a ∧ a < 0x1000 + 32 * (w.toNat % 256) + 32

theorem nextNoticeBytes_iff (s : State) (a : Nat) :
    nextNoticeBytes s a ↔ entryBytes s.host.written a := Iff.rfl

/-- Between two states k notices were written, and the ticket area: the other bytes, the other host
registers, the expected sequence and the from ticket are as before, and no cause is cleared. -/
structure Reported (k : Nat) (s t : State) : Prop where
  written : t.host.written = s.host.written + BitVec.ofNat 32 k
  host : HostKept s t
  bytes : BytesKept (fun a => ticketBytes a
    ∨ ∃ j, j < k ∧ entryBytes (s.host.written + BitVec.ofNat 32 j) a) s t
  wf : Memory.wf s.mem = true → Memory.wf t.mem = true
  causes : ∀ c, causeSet s c = true → causeSet t c = true
  expected : t.walker.expected = s.walker.expected
  fromTicket : t.walker.fromTicket = s.walker.fromTicket

theorem HostKept.trans {s t u : State} (h1 : HostKept s t) (h2 : HostKept t u) : HostKept s u := by
  unfold HostKept at *
  rw [h1] at h2
  exact h2

theorem HostKept.clock {s t : State} (h : HostKept s t) : t.host.clock = s.host.clock := by
  rw [h]

theorem Reported.of_same {s t : State} (mem : t.mem = s.mem := by simp) (host : t.host = s.host := by simp)
    (expected : t.walker.expected = s.walker.expected := by simp)
    (fromTicket : t.walker.fromTicket = s.walker.fromTicket := by simp) : Reported 0 s t where
  written := by simp [host]
  host := by unfold HostKept; rw [host]
  bytes := .of_mem mem
  wf h := mem ▸ h
  causes c h := by unfold causeSet; rw [host]; exact h
  expected := expected
  fromTicket := fromTicket

theorem Reported.rfl (s : State) : Reported 0 s s := .of_same (Eq.refl _) (Eq.refl _) (Eq.refl _) (Eq.refl _)

theorem Reported.trans {j k : Nat} {s t u : State} (h1 : Reported j s t) (h2 : Reported k t u) :
    Reported (j + k) s u where
  written := by
    rw [h2.written, h1.written, BitVec.add_assoc, BitVec.ofNat_add]
  host := h1.host.trans h2.host
  bytes := by
    refine (h1.bytes.mono fun a ha => ?_).trans (h2.bytes.mono fun a ha => ?_)
    · rcases ha with ha | ⟨i, hi, ha⟩
      · exact .inl ha
      · exact .inr ⟨i, by omega, ha⟩
    · rcases ha with ha | ⟨i, hi, ha⟩
      · exact .inl ha
      · refine .inr ⟨j + i, by omega, ?_⟩
        rwa [h1.written, BitVec.add_assoc, ← BitVec.ofNat_add] at ha
  wf h := h2.wf (h1.wf h)
  causes c h := h2.causes c (h1.causes c h)
  expected := h2.expected.trans h1.expected
  fromTicket := h2.fromTicket.trans h1.fromTicket

/-- A silent step before. -/
theorem Reported.after {k : Nat} {s t u : State} (h1 : Reported 0 s t) (h2 : Reported k t u) :
    Reported k s u := by
  have := h1.trans h2
  rwa [Nat.zero_add] at this

/-- A silent step after: the notice count stays. -/
theorem Reported.quiet {k : Nat} {s t u : State} (h1 : Reported k s t) (h2 : Reported 0 t u) :
    Reported k s u := h1.trans h2

theorem Reported.logAndTickets {k : Nat} {s t : State} (h : Reported k s t) : LogAndTicketsOnly s t :=
  h.bytes.mono fun a ha => by
    rcases ha with ha | ⟨j, _, h1, h2⟩
    · exact .inr ha
    · have := Nat.mod_lt (s.host.written + BitVec.ofNat 32 j).toNat (show 0 < 256 by decide)
      exact .inl ⟨by omega, by omega⟩

/-- Where no notice is written, the ticket area alone is. -/
theorem Reported.tickets {s t : State} (h : Reported 0 s t) : BytesKept ticketBytes s t :=
  h.bytes.mono fun a ha => by
    rcases ha with ha | ⟨j, hj, _⟩
    · exact ha
    · omega

/-- Notices 1 to 255 places apart lie in different log entries. -/
theorem entryBytes_disjoint {w : Word} {j a : Nat} (h1 : 1 ≤ j) (h2 : j < 256)
    (ha : entryBytes w a) : ¬ entryBytes (w + BitVec.ofNat 32 j) a := by
  unfold entryBytes at *
  have : (w + BitVec.ofNat 32 j).toNat % 256 = (w.toNat + j) % 256 := by
    rw [BitVec.toNat_add, BitVec.toNat_ofNat]
    omega
  omega

/-- A region kept keeps the fields that lie in it. -/
theorem BytesKept.half_eq {r : Nat → Prop} {s t : State} (h : BytesKept r s t) {a : Nat}
    (h0 : ¬ r a) (h1 : ¬ r (a + 1)) : Memory.half t.mem a = Memory.half s.mem a := by
  rw [Memory.half, Memory.half, h a h0, h (a + 1) h1]

theorem BytesKept.word_eq {r : Nat → Prop} {s t : State} (h : BytesKept r s t) {a : Nat}
    (hr : ∀ i, i < 4 → ¬ r (a + i)) : Memory.word t.mem a = Memory.word s.mem a := by
  have h0 : Memory.half t.mem a = Memory.half s.mem a := h.half_eq (hr 0 (by omega)) (hr 1 (by omega))
  rw [Memory.word, Memory.word, h0, h.half_eq (hr 2 (by omega)) (hr 3 (by omega))]

/-- A notice stays shown where its log entry is not written. -/
theorem NoticeShown.of_bytes {k : NoticeKind} {st : LineState} {d1 d2 d3 : Word} {r : Nat → Prop}
    {s t u : State} (h : NoticeShown k st d1 d2 d3 s t) (hb : BytesKept r t u)
    (hout : ∀ a, noticeAt s ≤ a → a < noticeAt s + 32 → ¬ r a)
    (hc : ∀ c, causeSet t c = true → causeSet u c = true) : NoticeShown k st d1 d2 d3 s u := by
  have word : ∀ i, i + 4 ≤ 32 → Memory.word u.mem (noticeAt s + i) = Memory.word t.mem (noticeAt s + i) :=
    fun i hi => hb.word_eq fun n hn => hout _ (by omega) (by omega)
  obtain ⟨e0, e1, e2, e3, e4, e5, e6, e7, e8⟩ := h
  refine ⟨(word 0 (by omega)).trans e0, ?_, ?_, (word 8 (by omega)).trans e3, (word 12 (by omega)).trans e4,
    (word 16 (by omega)).trans e5, (word 20 (by omega)).trans e6, (word 24 (by omega)).trans e7, hc _ e8⟩
  · rw [hb.half_eq (hout _ (by omega) (by omega)) (hout _ (by omega) (by omega))]
    exact e1
  · rw [hb _ (hout _ (by omega) (by omega))]
    exact e2

/-- A notice stays shown while fewer than 256 more are written. -/
theorem NoticeShown.later {k : NoticeKind} {st : LineState} {d1 d2 d3 : Word} {m j : Nat}
    {s t u : State} (h : NoticeShown k st d1 d2 d3 s t)
    (hw : t.host.written = s.host.written + BitVec.ofNat 32 m) (hm : 1 ≤ m) (hj : m + j ≤ 256)
    (hr : Reported j t u) : NoticeShown k st d1 d2 d3 s u := by
  have hn := noticeAt_in_log s
  refine h.of_bytes hr.bytes (fun a h1 h2 => ?_) hr.causes
  rintro (ha | ⟨i, hi, ha⟩)
  · unfold ticketBytes at ha
    omega
  · rw [hw, BitVec.add_assoc, ← BitVec.ofNat_add] at ha
    exact entryBytes_disjoint (w := s.host.written) (by omega) (by omega) ⟨h1, h2⟩ ha

/-- A notice stays shown while none is written. -/
theorem NoticeShown.quiet {k : NoticeKind} {st : LineState} {d1 d2 d3 : Word} {s t u : State}
    (h : NoticeShown k st d1 d2 d3 s t) (hr : Reported 0 t u) : NoticeShown k st d1 d2 d3 s u := by
  have hn := noticeAt_in_log s
  refine h.of_bytes hr.tickets (fun a h1 h2 ha => ?_) hr.causes
  unfold ticketBytes at ha
  omega

/-! ## The operations -/

theorem causeSet_of_or {s t : State} {v : BitVec 6} (h : t.host.causes = s.host.causes ||| v) :
    ∀ c, causeSet s c = true → causeSet t c = true := by
  intro c hc
  unfold causeSet at *
  rw [h, BitVec.getLsbD_or, hc, Bool.true_or]

theorem raiseCause_reported (c : Cause) (s : State) : Reported 0 s (raiseCause c s) where
  written := by simp
  host := Eq.refl _
  bytes := .of_mem (by simp)
  wf := by simp
  causes := causeSet_of_or (Eq.refl _)
  expected := by simp
  fromTicket := by simp

theorem putTicket_reported {a : Nat} (h : 0x5000 ≤ a) (bs : List Byte) (s : State) :
    Reported 0 s (putBytes a bs s) where
  written := by simp
  host := Eq.refl _
  bytes x hx := putAll_tickets h bs s.mem fun ht => hx (.inl ht)
  wf := Memory.putAll_wf (a := a) (bs := bs)
  causes _ := id
  expected := by simp
  fromTicket := by simp

theorem writeNotice_reported (k : NoticeKind) (d1 d2 d3 : Word) (s : State) :
    Reported 1 s (writeNotice k d1 d2 d3 s) where
  written := Eq.refl _
  host := Eq.refl _
  bytes := (writeNotice_bytes k d1 d2 d3 s).mono fun a ha => .inr ⟨0, by omega, by
    simpa [entryBytes, nextNoticeBytes, noticeAt] using ha⟩
  wf h := writeNotice_wf h k d1 d2 d3
  causes := causeSet_of_or (Eq.refl _)
  expected := by simp
  fromTicket := by simp

theorem retire_reported (s : State) : Reported 0 s (retire s) :=
  .of_same (expected := Eq.refl _) (fromTicket := Eq.refl _)

theorem writeFinish_reported (n : Nat) (code : ResultCode) (d : Word) (s : State) :
    Reported 0 s (writeFinish n code d s) := by
  have hn := ticketBase_low n
  exact ((putTicket_reported (by omega) _ _).quiet (putTicket_reported (by omega) _ _)).quiet
    (putTicket_reported hn _ _)

theorem reportFinish_reported (n : Nat) (code : ResultCode) (d : Word) (s : State) :
    Reported 0 s (reportFinish n code d s) :=
  (writeFinish_reported n code d s).quiet (raiseCause_reported _ _)

theorem finishTicket_reported (n : Nat) (code : ResultCode) (d : Word) (s : State) :
    Reported 0 s (finishTicket n code d s) :=
  (reportFinish_reported n code d s).quiet (retire_reported _)

theorem stallWalker_reported (code : StallCode) (off : Word) (s : State) :
    Reported 1 s (stallWalker code off s) := by
  refine Reported.after (t := raiseCause .chain
    { s with walker := { s.walker with state := .stalled, stall := code } }) ?_ (writeNotice_reported _ _ _ _ _)
  exact Reported.after (.of_same) (raiseCause_reported _ _)

/-! ## Moving on -/

/-- Moving on writes a notice exactly where it stalls (R171, R174). -/
theorem moveOn_reported (s : State) :
    (Reported 0 s (moveOn s) ∧ ((moveOn s).walker.state = .stalled → s.walker.state = .stalled))
    ∨ (Reported 1 s (moveOn s) ∧ (moveOn s).walker.state = .stalled) := by
  cases hf : s.walker.fromTicket with
  | none =>
    have he : moveOn s = s := by unfold moveOn; rw [hf]
    rw [he]
    exact .inl ⟨.rfl s, id⟩
  | some f =>
    rcases moveOn_cases hf with ⟨_, he⟩ | ⟨_, he⟩ | ⟨_, _, _, he⟩ | ⟨_, _, _, he⟩ <;> rw [he]
    · exact .inl ⟨.of_same, fun h => by cases h⟩
    · exact .inr ⟨stallWalker_reported _ _ s, Eq.refl _⟩
    · exact .inr ⟨stallWalker_reported _ _ s, Eq.refl _⟩
    · refine .inl ⟨((Reported.of_same (t := markFollowed f s)).quiet (retire_reported _)).quiet
        (.of_same (t := runWalker (linkOf s f) (retire (markFollowed f s)))), fun h => by cases h⟩

/-- What the finish of long tickets reports: nothing, and a walker that was not FULL keeps its state; or
the one notice of a FULL walker that stalls. -/
def MayStall (s t : State) : Prop :=
  (Reported 0 s t ∧ (s.walker.state ≠ .full → t.walker.state = s.walker.state))
  ∨ (Reported 1 s t ∧ s.walker.state = .full ∧ t.walker.state = .stalled)

theorem MayStall.of_quiet {s t : State} (h : Reported 0 s t) (hs : t.walker.state = s.walker.state) :
    MayStall s t := .inl ⟨h, fun _ => hs⟩

theorem MayStall.rfl (s : State) : MayStall s s := .of_quiet (.rfl s) (Eq.refl _)

theorem MayStall.trans {s t u : State} (h1 : MayStall s t) (h2 : MayStall t u) : MayStall s u := by
  rcases h1 with ⟨r1, k1⟩ | ⟨r1, f1, k1⟩
  · rcases h2 with ⟨r2, k2⟩ | ⟨r2, f2, k2⟩
    · exact .inl ⟨r1.quiet r2, fun h => by rw [k2 (by rwa [k1 h]), k1 h]⟩
    · refine .inr ⟨r1.after r2, ?_, k2⟩
      by_contra hc
      exact hc (by rw [← k1 hc, f2])
  · rcases h2 with ⟨r2, k2⟩ | ⟨r2, f2, k2⟩
    · exact .inr ⟨r1.quiet r2, f1, by rw [k2 (by rw [k1]; decide), k1]⟩
    · rw [k1] at f2; cases f2

/-- However the walker stands, at most one notice. -/
theorem MayStall.reported {s t : State} (h : MayStall s t) : ∃ k, k ≤ 1 ∧ Reported k s t := by
  rcases h with ⟨r, _⟩ | ⟨r, _⟩
  · exact ⟨0, by omega, r⟩
  · exact ⟨1, by omega, r⟩

/-- With the walker not FULL, none, and its state stays. -/
theorem MayStall.quiet {s t : State} (h : MayStall s t) (hs : s.walker.state ≠ .full) :
    Reported 0 s t ∧ t.walker.state = s.walker.state := by
  rcases h with ⟨r, k⟩ | ⟨_, f, _⟩
  · exact ⟨r, k hs⟩
  · exact absurd f hs

theorem finishLong_mayStall (n : Nat) (code : ResultCode) (d : Word) (s : State) :
    MayStall s (finishLong n code d s) := by
  have h0 : Reported 0 s (lowerCount (reportFinish n code d s)) :=
    (reportFinish_reported n code d s).quiet .of_same
  rcases finishLong_cases n code d s with ⟨hs, he⟩ | ⟨hs, he⟩ <;> rw [he]
  · exact .inl ⟨h0.quiet (retire_reported _), fun _ => Eq.refl _⟩
  · rcases moveOn_reported (lowerCount (reportFinish n code d s)) with ⟨h1, _⟩ | ⟨h1, h2⟩
    · exact .inl ⟨(h0.quiet h1).quiet (retire_reported _), fun h => absurd hs h⟩
    · exact .inr ⟨(h0.after h1).quiet (retire_reported _), hs, h2⟩

theorem MayStall.foldl {α : Type} {f : State → α → State} (h : ∀ s a, MayStall s (f s a)) (l : List α)
    (s : State) : MayStall s (l.foldl f s) := by
  induction l generalizing s with
  | nil => exact .rfl s
  | cons a l ih => exact (h s a).trans (ih (f s a))

theorem abortAutos_mayStall (r : Nat) (s : State) : MayStall s (abortAutos r s) := by
  refine MayStall.foldl (fun u z => ?_) _ s
  unfold abortAuto
  split
  · exact .rfl u
  · next a _ =>
    unfold endAuto
    have hp := putTicket_reported (a := ticketBase a.ticket + 0x80)
      (by have := ticketBase_low a.ticket; omega) (autoResult a.savedL a.savedR r 0)
      (updTension z (fun t => { t with
        l := { t.l with zero := a.savedL }, r := { t.r with zero := a.savedR }, auto := none }) u)
    refine MayStall.trans (.of_quiet (Reported.after (.of_same) hp) (by simp))
      (finishLong_mayStall _ _ _ _)

end Sys2Proof.Machine
end

