-- ==== Sys2Proof/Proofs/Takes.lean ====
section
/-! PROOFS. The take of a ticket: the state its owner answers in, what the answer leaves in the ticket and
at the walker, and how the obligations' `Refused` and `Accepted` follow. -/

-- One thread for the whole file: each waiting thread reserves its stack.
set_option Elab.async false

namespace Sys2Proof.Machine

/-! ## The claimed ticket -/

/-- The state in which the owner of the look slot's ticket answers: the take recorded (R170, step 1). -/
def claimed (s : State) : State := claimTicket (look s) (clearSent s)

@[simp] theorem claimed_keeps (s : State) :
    (claimed s).line = s.line ∧ (claimed s).lib = s.lib ∧ (claimed s).pos = s.pos
    ∧ (claimed s).trig = s.trig ∧ (claimed s).ord = s.ord ∧ (claimed s).reg = s.reg
    ∧ (claimed s).heat = s.heat ∧ (claimed s).dose = s.dose ∧ (claimed s).tens = s.tens
    ∧ (claimed s).lastReading = s.lastReading ∧ (claimed s).host = s.host
    ∧ (claimed s).drawn = s.drawn ∧ (claimed s).pending = s.pending ∧ (claimed s).sent = [] := by
  simp [claimed]

@[simp] theorem claimed_walker (s : State) :
    (claimed s).walker = { s.walker with
      chain := s.walker.chain ++ [{ slot := look s, followed := false }],
      expected := s.walker.expected + 1, fromTicket := some (look s) } := rfl

theorem claimed_bytes (s : State) : BytesKept (fun a => a = ticketBase (look s)) s (claimed s) := by
  intro a ha
  refine Memory.get_putAll_out _ _ _ ?_
  simp only [List.length_cons, List.length_nil]
  omega

theorem claimed_wf {s : State} (h : Memory.wf s.mem = true) : Memory.wf (claimed s).mem = true :=
  Memory.putAll_wf h _ _

@[simp] theorem claimed_ticketByte (s : State) {k : Nat} (h : 1 ≤ k) :
    ticketByte (claimed s) (look s) k = ticketByte s (look s) k := (claimTicket_body _ k _ h).1

@[simp] theorem claimed_ticketHalf (s : State) {k : Nat} (h : 1 ≤ k) :
    ticketHalf (claimed s) (look s) k = ticketHalf s (look s) k := (claimTicket_body _ k _ h).2.1

@[simp] theorem claimed_ticketWord (s : State) {k : Nat} (h : 1 ≤ k) :
    ticketWord (claimed s) (look s) k = ticketWord s (look s) k := (claimTicket_body _ k _ h).2.2

@[simp] theorem claimed_bodyByte (s : State) {k : Nat} (h : 1 ≤ k) :
    bodyByte (claimed s) (look s) k = bodyByte s (look s) k := by
  unfold bodyByte; rw [claimed_ticketByte s h]

@[simp] theorem claimed_bodyHalf (s : State) {k : Nat} (h : 1 ≤ k) :
    bodyHalf (claimed s) (look s) k = bodyHalf s (look s) k := by
  unfold bodyHalf; rw [claimed_ticketHalf s h]

theorem claimed_logAndTickets (s : State) : LogAndTicketsOnly s (claimed s) :=
  .putTicket (ticketBase_low _) _ _

/-- A walker that takes a ticket is RUNNING. -/
theorem TakesKind.running {s : State} {kind : Nat} (h : TakesKind s kind) : s.walker.state = .running := by
  obtain ⟨ht, _⟩ := h
  unfold takesNow at ht
  simp only [Bool.and_eq_true, beq_iff_eq] at ht
  exact ht.1.1

theorem TakesKind.not_stalled {s : State} {kind : Nat} (h : TakesKind s kind) {w : State}
    (hw : w.walker.state = (claimed s).walker.state) : w.walker.state ≠ .stalled := by
  rw [hw, claimed_walker]
  simp [h.running]

theorem TakesKind.wf {s : State} {kind : Nat} (h : TakesKind s kind) : Memory.wf s.mem = true := by
  obtain ⟨_, _, _, _, wf⟩ := h
  exact wf

/-! ## Moving on, as the statements say it -/

/-- A notice of the first state would be dated and placed as one of the second. -/
structure Alike (s v : State) : Prop where
  state : v.line.state = s.line.state := by simp
  x : v.pos.x = s.pos.x := by simp
  clock : v.host.clock = s.host.clock := by simp
  written : v.host.written = s.host.written := by simp

theorem Alike.noticeAt_eq {s v : State} (h : Alike s v) : noticeAt v = noticeAt s := by
  unfold noticeAt
  rw [h.written]

theorem NoticeShown.alike {k : NoticeKind} {st : LineState} {d1 d2 d3 : Word} {s v t : State}
    (h : Alike s v) (hn : NoticeShown k st d1 d2 d3 v t) : NoticeShown k st d1 d2 d3 s t := by
  unfold NoticeShown at *
  rwa [h.noticeAt_eq, h.written, h.x, h.clock] at hn

theorem StalledWith.alike {code : StallCode} {f : Nat} {off : Word} {s v t : State} (h : Alike s v)
    (hs : StalledWith code f off v t) : StalledWith code f off s t := by
  obtain ⟨h1, h2, h3, h4, h5⟩ := hs
  exact ⟨h1, h2, h3, h.state ▸ h4.alike h, h.written ▸ h5⟩

theorem retireChain_mem (s : State) (l : List ChainEntry) (n : Nat) (q : Half) :
    ∀ e ∈ (retireChain s l n q).1, e ∈ l := by
  induction l generalizing n q with
  | nil => intro e he; exact he
  | cons c l ih =>
    intro e he
    unfold retireChain at he
    split at he
    · exact List.mem_cons_of_mem c (ih _ _ e he)
    · exact he

/-- The slot that a moving walker follows stays outside the chain it leaves. -/
theorem inChain_followed {v : State} {n f : Nat} (h : inChain v n = false) :
    inChain (runWalker n (retire (markFollowed f v))) n = false := by
  unfold inChain at *
  rw [List.any_eq_false] at *
  intro e he
  have he' := retireChain_mem _ _ _ _ e he
  simp only [markFollowed, List.mem_map] at he'
  obtain ⟨c, hc, rfl⟩ := he'
  have := h c hc
  split <;> exact this

/-- Moving on, by the open chain that the walker reads (R171). -/
theorem moveOn_movedOnFrom {s v : State} {f : Nat} (hf : v.walker.fromTicket = some f)
    (hl : linkOf v f = linkOf s f) (ha : Alike s v) (wf : Memory.wf v.mem = true) :
    MovedOnFrom (inChain v (linkOf v f)) f s (moveOn v) := by
  have hd : v.walker.fromTicket.getD 0 = f := by rw [hf]; rfl
  unfold MovedOnFrom
  rw [← hl]
  rcases moveOn_cases hf with ⟨h1, he⟩ | ⟨h1, he⟩ | ⟨h0, h1, h2, he⟩ | ⟨h0, h1, h2, he⟩ <;> rw [he]
  · rw [if_pos h1]
    exact ⟨rfl, rfl, rfl, ha.written⟩
  · rw [if_neg (by omega), if_pos h1]
    exact (stallWalker_stands wf hd _ _).alike ha
  · rw [if_neg (by omega), if_neg (by omega), if_pos h2]
    exact (stallWalker_stands wf hd _ _).alike ha
  · rw [if_neg (by omega), if_neg (by omega), if_neg (by rw [h2]; decide)]
    exact ⟨rfl, rfl, ha.written⟩

/-- Moving on, by the open chain that the walker leaves (R171). -/
theorem moveOn_movedOn {s v : State} {f : Nat} (hf : v.walker.fromTicket = some f)
    (hl : linkOf v f = linkOf s f) (ha : Alike s v) (wf : Memory.wf v.mem = true) :
    MovedOn f s (moveOn v) := by
  have h := moveOn_movedOnFrom hf hl ha wf
  rw [hl] at h
  unfold MovedOn
  unfold MovedOnFrom at h ⊢
  by_cases h0 : linkOf s f = 0
  · rwa [if_pos h0] at h ⊢
  rw [if_neg h0] at h ⊢
  by_cases h1 : 256 < linkOf s f
  · rwa [if_pos h1] at h ⊢
  rw [if_neg h1] at h ⊢
  have hc : inChain (moveOn v) (linkOf s f) = inChain v (linkOf s f) := by
    rw [← hl] at h0 h1 ⊢
    rcases moveOn_cases hf with ⟨h2, _⟩ | ⟨h2, _⟩ | ⟨_, _, _, he⟩ | ⟨_, _, h2, he⟩
    · exact absurd h2 h0
    · exact absurd h2 h1
    · rw [he]; rfl
    · rw [he, h2]; exact inChain_followed h2
  rwa [hc]

theorem moveOn_bytes (v : State) : BytesKept (nextNoticeBytes v) v (moveOn v) := by
  cases hf : v.walker.fromTicket with
  | none =>
    have he : moveOn v = v := by unfold moveOn; rw [hf]
    rw [he]
    exact .rfl _ v
  | some f =>
    have hstall : ∀ code off, BytesKept (nextNoticeBytes v) v (stallWalker code off v) := fun code off =>
      writeNotice_bytes _ _ _ _ (raiseCause .chain
        { v with walker := { v.walker with state := .stalled, stall := code } })
    rcases moveOn_cases hf with ⟨_, he⟩ | ⟨_, he⟩ | ⟨_, _, _, he⟩ | ⟨_, _, _, he⟩ <;> rw [he]
    · exact .of_mem (by simp)
    · exact hstall _ _
    · exact hstall _ _
    · exact .of_mem (by simp)

@[simp] theorem moveOn_outstanding (v : State) :
    (moveOn v).walker.outstanding = v.walker.outstanding := by
  cases hf : v.walker.fromTicket with
  | none => unfold moveOn; rw [hf]
  | some f =>
    rcases moveOn_cases hf with ⟨_, he⟩ | ⟨_, he⟩ | ⟨_, _, _, he⟩ | ⟨_, _, _, he⟩ <;> rw [he] <;> rfl

/-! ## The end of a take -/

theorem afterTake_cases (v : State) :
    (v.walker.outstanding = ticketLimit v
      ∧ afterTake v = { v with walker := { v.walker with state := .full } })
    ∨ (v.walker.outstanding ≠ ticketLimit v ∧ afterTake v = moveOn v) := by
  unfold afterTake
  split
  · exact .inl ⟨‹_›, rfl⟩
  · exact .inr ⟨‹_›, rfl⟩

theorem afterTake_bytes (v : State) : BytesKept (nextNoticeBytes v) v (afterTake v) := by
  rcases afterTake_cases v with ⟨_, he⟩ | ⟨_, he⟩ <;> rw [he]
  · exact .of_mem rfl
  · exact moveOn_bytes v

@[simp] theorem afterTake_outstanding (v : State) :
    (afterTake v).walker.outstanding = v.walker.outstanding := by
  rcases afterTake_cases v with ⟨_, he⟩ | ⟨_, he⟩ <;> rw [he]
  exact moveOn_outstanding v

/-- The end of a take writes a notice exactly where the walker stalls. -/
theorem afterTake_reported {v : State} (h : v.walker.state ≠ .stalled) :
    (Reported 0 v (afterTake v) ∧ (afterTake v).walker.state ≠ .stalled)
    ∨ (Reported 1 v (afterTake v) ∧ (afterTake v).walker.state = .stalled) := by
  rcases afterTake_cases v with ⟨_, he⟩ | ⟨_, he⟩ <;> rw [he]
  · exact .inl ⟨.of_same, fun hs => by cases hs⟩
  · rcases moveOn_reported v with ⟨h1, h2⟩ | h1
    · exact .inl ⟨h1, fun hs => h (h2 hs)⟩
    · exact .inr h1

theorem afterTake_wentOn {s v : State} (hf : v.walker.fromTicket = some (look s))
    (hl : linkOf v (look s) = linkOf s (look s)) (hlim : ticketLimit v = ticketLimit s) (ha : Alike s v)
    (wf : Memory.wf v.mem = true) : WalkerWentOn s (afterTake v) := by
  unfold WalkerWentOn
  rw [afterTake_outstanding]
  rcases afterTake_cases v with ⟨h, he⟩ | ⟨h, he⟩ <;> rw [he]
  · rw [if_pos (h.trans hlim)]
    exact ⟨rfl, ha.written⟩
  · rw [if_neg (fun e => h (e.trans hlim.symm))]
    exact moveOn_movedOn hf hl ha wf

/-- The state after a take in which the owner has left `v`: the walker gone on, the messages sent. -/
def takeEnd (s v : State) : State := announce false false s (afterTake v)

@[simp] theorem takeEnd_keeps (s v : State) :
    (takeEnd s v).line = v.line ∧ (takeEnd s v).lib = v.lib ∧ (takeEnd s v).pos = v.pos
    ∧ (takeEnd s v).trig = v.trig ∧ (takeEnd s v).ord = v.ord ∧ (takeEnd s v).reg = v.reg
    ∧ (takeEnd s v).heat = v.heat ∧ (takeEnd s v).dose = v.dose ∧ (takeEnd s v).tens = v.tens
    ∧ (takeEnd s v).lastReading = v.lastReading ∧ (takeEnd s v).drawn = v.drawn
    ∧ (takeEnd s v).pending = v.pending := by
  simp [takeEnd]

@[simp] theorem takeEnd_mem (s v : State) : (takeEnd s v).mem = (afterTake v).mem := by simp [takeEnd]
@[simp] theorem takeEnd_host (s v : State) : (takeEnd s v).host = (afterTake v).host := by simp [takeEnd]
@[simp] theorem takeEnd_walker (s v : State) : (takeEnd s v).walker = (afterTake v).walker := by
  simp [takeEnd]

/-- A command that moves no carried value and no lamp sends nothing of its own. -/
theorem announce_sent_same {s v : State} (frame : frameOf v = frameOf s) (lamps : lampSet v = lampSet s) :
    (announce false false s v).sent = v.sent := by
  rw [announce_quiet frame lamps]

theorem frameOf_congr {s v : State} (line : v.line = s.line := by simp) (pos : v.pos = s.pos := by simp)
    (reg : v.reg = s.reg := by simp) (dose : v.dose = s.dose := by simp)
    (tens : v.tens = s.tens := by simp) : frameOf v = frameOf s := by
  unfold frameOf printSpeed storeLevel
  rw [line, pos, reg, dose, tens]

theorem lampSet_congr {s v : State} (line : v.line = s.line := by simp) : lampSet v = lampSet s := by
  unfold lampSet
  rw [line]

theorem takeEnd_sent {s v : State} (frame : frameOf v = frameOf s := by exact frameOf_congr)
    (lamps : lampSet v = lampSet s := by exact lampSet_congr) : (takeEnd s v).sent = v.sent := by
  unfold takeEnd
  rw [announce_sent_same ((frameOf_congr).trans frame) ((lampSet_congr).trans lamps)]
  simp

/-- What a take of a kind answers, once its conditions hold. -/
theorem exec_take {c : Instr} {kind : Nat} {f : Nat → State → State} {s : State}
    (he : exec c s = answer (takeOfKind kind f) s) (hk : TakesKind s kind) :
    exec c s = .next (takeEnd s (f (look s) (claimed s))) := by
  obtain ⟨ht, hkind, _⟩ := hk
  rw [he, answer]
  rcases takeOfKind_cases kind f (clearSent s) with ⟨_, _, e⟩ | ⟨hn, _⟩
  · rw [e]; rfl
  · exact absurd ⟨ht, hkind⟩ hn

/-! ## What a finished ticket shows -/

theorem TicketShows.later {n : Nat} {code : ResultCode} {d : Word} {r : Nat → Prop} {s t u : State}
    (h : TicketShows n code d s t) (hb : BytesKept r t u)
    (hr : ∀ a, r a → a < ticketBase n ∨ ticketBase n + 0x18 ≤ a)
    (hc : causeSet t .ticket = true → causeSet u .ticket = true) : TicketShows n code d s u := by
  have hout : ∀ i, i < 0x18 → ¬ r (ticketBase n + i) := fun i hi ha => by
    have := hr _ ha
    omega
  have word : ∀ i, i + 4 ≤ 0x18 → ticketWord u n i = ticketWord t n i := fun i hi =>
    hb.word_eq fun j hj => by rw [Nat.add_assoc]; exact hout (i + j) (by omega)
  obtain ⟨e1, e2, e3, e4, e5, e6⟩ := h
  refine ⟨?_, ?_, ?_, ?_, ?_, hc e6⟩
  · rw [handOf, ticketByte, hb _ (hout 0 (by omega))]; exact e1
  · rw [ticketHalf, hb.half_eq (hout 8 (by omega)) (hout 9 (by omega))]; exact e2
  · rw [word _ (by omega)]; exact e3
  · rw [word _ (by omega)]; exact e4
  · rw [word _ (by omega)]; exact e5

theorem TicketShows.stamped {n : Nat} {code : ResultCode} {d : Word} {s v t : State}
    (h : TicketShows n code d v t) (x : v.pos.x = s.pos.x) (clock : v.host.clock = s.host.clock) :
    TicketShows n code d s t := by
  unfold TicketShows at *
  rwa [x, clock] at h

/-- The next notice of a state lies below the ticket area. -/
theorem nextNoticeBytes_low {s : State} {a : Nat} (h : nextNoticeBytes s a) : a < 0x3000 := by
  have := noticeAt_in_log s
  unfold nextNoticeBytes at h
  omega

/-- What the take of a ticket that finishes at once leaves, whatever else its owner has done. -/
structure TakenWith (code : ResultCode) (d : Word) (s t : State) : Prop where
  shows : TicketShows (look s) code d s t
  recorded : TakeRecorded s t
  host : HostKept s t
  bytes : LogAndTicketsOnly s t

/-- The owner has reported something and finishes the ticket. -/
theorem takeEnd_takenWith {s w : State} {kind k : Nat} (hk : TakesKind s kind)
    (h : Reported k (claimed s) w) (x : w.pos.x = s.pos.x) (code : ResultCode) (d : Word)
    (hs : w.walker.state ≠ .stalled) :
    TakenWith code d s (takeEnd s (finishTicket (look s) code d w)) := by
  obtain ⟨_, _, h1, h2, wf⟩ := hk
  have hw := h.quiet (finishTicket_reported (look s) code d w)
  have hall : ∃ j, Reported j (claimed s) (afterTake (finishTicket (look s) code d w)) := by
    rcases afterTake_reported (v := finishTicket (look s) code d w) hs with ⟨h3, _⟩ | ⟨h3, _⟩
    · exact ⟨_, hw.trans h3⟩
    · exact ⟨_, hw.trans h3⟩
  obtain ⟨j, hj⟩ := hall
  have hc : ∀ c, causeSet (finishTicket (look s) code d w) c = true →
      causeSet (afterTake (finishTicket (look s) code d w)) c = true := by
    rcases afterTake_reported (v := finishTicket (look s) code d w) hs with ⟨h3, _⟩ | ⟨h3, _⟩
    · exact h3.causes
    · exact h3.causes
  have host : HostKept s w := by have := h.host; unfold HostKept at this ⊢; rw [this]; simp
  refine ⟨?_, ?_, ?_, ?_⟩
  · have hsh := (finishTicket_shows (h.wf (claimed_wf wf)) h1 h2 code d).stamped x host.clock
    have hl := hsh.later (afterTake_bytes _) (fun a ha => .inl (by
      have := nextNoticeBytes_low ha
      have := ticketBase_low (look s)
      omega)) (hc _)
    unfold TicketShows handOf ticketByte ticketHalf ticketWord causeSet at hl ⊢
    simpa using hl
  · unfold TakeRecorded
    rw [takeEnd_walker, hj.expected, hj.fromTicket]
    exact ⟨rfl, rfl⟩
  · have := hj.host
    unfold HostKept at this ⊢
    rw [takeEnd_host, this]
    simp
  · refine BytesKept.trans (claimed_logAndTickets s) fun a ha => ?_
    rw [takeEnd_mem]
    exact hj.logAndTickets a ha

/-- A region that an owner may write beside the finish: the ticket's body and result area. -/
def InBody (n : Nat) (r : Nat → Prop) : Prop := ∀ a, r a → ticketBase n + 0x18 ≤ a ∧ a < ticketBase n + 0x100

/-- An immediate ticket whose owner has written in its body at most: taken and finished, the walker gone
on, and no other byte written. -/
theorem takeEnd_finished {s w : State} {kind : Nat} {r : Nat → Prop} (hk : TakesKind s kind)
    (hr : InBody (look s) r) (bytes : BytesKept r (claimed s) w) (hrep : Reported 0 (claimed s) w)
    (walker : w.walker = (claimed s).walker) (ha : Alike s w) (code : ResultCode) (d : Word) :
    (takeEnd s (finishTicket (look s) code d w)).walker.outstanding = s.walker.outstanding
    ∧ WalkerWentOn s (takeEnd s (finishTicket (look s) code d w))
    ∧ BytesKept (fun a => finishBytes (look s) a ∨ nextNoticeBytes s a ∨ r a) s
        (takeEnd s (finishTicket (look s) code d w)) := by
  obtain ⟨htk, hkind, h1, h2, wf0⟩ := hk
  have hbase := ticketBase_range h1 h2
  have hva : Alike s (finishTicket (look s) code d w) := by
    refine ⟨by simpa using ha.state, by simpa using ha.x, ?_, ?_⟩ <;> rw [finishTicket_host]
    · exact ha.clock
    · exact ha.written
  have hvb : BytesKept (fun a => finishBytes (look s) a ∨ r a) (claimed s)
      (finishTicket (look s) code d w) :=
    (bytes.mono fun a ha => .inr ha).trans ((finishTicket_bytes _ _ _ _).mono fun a ha => .inl ha)
  have hvr := hrep.quiet (finishTicket_reported (look s) code d w)
  have hlink : linkOf (finishTicket (look s) code d w) (look s) = linkOf s (look s) := by
    have hout : ∀ i, 4 ≤ i → i < 8 → ¬ (finishBytes (look s) (ticketBase (look s) + i)
        ∨ r (ticketBase (look s) + i)) := by
      rintro i h4 h8 (h | h)
      · unfold finishBytes at h; omega
      · have := hr _ h; omega
    unfold linkOf
    rw [ticketHalf, hvb.half_eq (hout 4 (by omega) (by omega)) (hout 5 (by omega) (by omega))]
    exact congrArg BitVec.toNat (claimed_ticketHalf s (by omega))
  have hlim : ticketLimit (finishTicket (look s) code d w) = ticketLimit s :=
    (hvr.logAndTickets.cfgByte_eq (by decide)).trans ((claimed_logAndTickets s).cfgByte_eq (by decide))
  have hfrom : (finishTicket (look s) code d w).walker.fromTicket = some (look s) := by
    rw [hvr.fromTicket]; rfl
  refine ⟨?_, ?_, fun a hn => ?_⟩
  · rw [takeEnd_walker, afterTake_outstanding]
    obtain ⟨c, slot, seq, e⟩ := finishTicket_walker (look s) code d w
    rw [e, walker]
    rfl
  · have h := afterTake_wentOn hfrom hlink hlim hva (hvr.wf (claimed_wf wf0))
    unfold WalkerWentOn MovedOn MovedOnFrom StalledWith NoticeShown inChain causeSet at h ⊢
    rw [takeEnd_walker, takeEnd_host, takeEnd_mem]
    exact h
  · have hf : ¬ finishBytes (look s) a := fun h => hn (.inl h)
    rw [takeEnd_mem, afterTake_bytes _ a (fun h => hn (.inr (.inl (by
        unfold nextNoticeBytes at h ⊢; rwa [hva.noticeAt_eq] at h)))),
      hvb a (fun h => h.elim hf fun h => hn (.inr (.inr h)))]
    exact claimed_bytes s a fun h => hf (.inl h)

/-- The body of a finished ticket is as its owner left it. -/
theorem takeEnd_body (s w : State) (code : ResultCode) (d : Word)
    {i : Nat} (hi : 0x18 ≤ i) :
    ticketByte (takeEnd s (finishTicket (look s) code d w)) (look s) i = ticketByte w (look s) i := by
  have hlow := ticketBase_low (look s)
  unfold ticketByte
  rw [takeEnd_mem, afterTake_bytes _ _ fun h => ?_, finishTicket_bytes _ _ _ _ _ fun h => ?_]
  · unfold finishBytes at h; omega
  · have := nextNoticeBytes_low h; omega

/-- A notice of the owner's stays shown. -/
theorem takeEnd_notice {s w : State} {k : NoticeKind} {st : LineState} {d1 d2 d3 : Word} {m : Nat}
    (h : NoticeShown k st d1 d2 d3 s w) (hw : w.host.written = s.host.written + BitVec.ofNat 32 m)
    (hm : 1 ≤ m) (hm' : m < 256) (hs : w.walker.state ≠ .stalled) (code : ResultCode) (d : Word) :
    NoticeShown k st d1 d2 d3 s (takeEnd s (finishTicket (look s) code d w)) := by
  have hf := finishTicket_reported (look s) code d w
  have hl : ∃ j, j ≤ 1 ∧ Reported j w (afterTake (finishTicket (look s) code d w)) := by
    rcases afterTake_reported (v := finishTicket (look s) code d w) hs with ⟨h3, _⟩ | ⟨h3, _⟩
    · exact ⟨0, by omega, hf.after h3⟩
    · exact ⟨1, by omega, hf.after h3⟩
  obtain ⟨j, hj, hr⟩ := hl
  have := h.later hw hm (by omega) hr
  unfold NoticeShown causeSet at this ⊢
  rwa [takeEnd_mem, takeEnd_host]

/-! ## Refused and accepted tickets -/

theorem takeEnd_takenAndFinished {s w : State} {kind : Nat} (hk : TakesKind s kind)
    (mem : w.mem = (claimed s).mem) (walker : w.walker = (claimed s).walker) (host : w.host = s.host)
    (x : w.pos.x = s.pos.x) (state : w.line.state = s.line.state) (code : ResultCode) (d : Word) :
    TakenAndFinished code d s (takeEnd s (finishTicket (look s) code d w)) := by
  have hrep : Reported 0 (claimed s) w := .of_same mem (by simpa using host) (by rw [walker]) (by rw [walker])
  have hrun : w.walker.state ≠ .stalled := by
    rw [walker, claimed_walker]
    simp [hk.running]
  obtain ⟨h1, h2, h3, _⟩ := takeEnd_takenWith hk hrep x code d hrun
  obtain ⟨h5, h6, h7⟩ := takeEnd_finished (r := fun _ => False) hk (fun _ h => h.elim) (.of_mem mem) hrep
    walker ⟨state, x, by rw [host], by rw [host]⟩ code d
  exact ⟨h1, h2, h3, h5, h6, h7.mono fun a ha => by simpa using ha⟩

/-- A frame of the owner's answer is one of the whole command. -/
theorem takeEnd_changesOnly {ps : List Part} {s w : State} (hps : ∀ p ∈ ticketParts, p ∈ ps)
    (h : ChangesOnly ps s w) (code : ResultCode) (d : Word) :
    ChangesOnly ps s (takeEnd s (finishTicket (look s) code d w)) := by
  intro p hp
  have hw := h p hp
  have hm : ∀ q ∈ ticketParts, p ≠ q := fun q hq e => hp (e ▸ hps q hq)
  cases p
  case mem => exact absurd rfl (hm .mem (by decide))
  case walker => exact absurd rfl (hm .walker (by decide))
  case host => exact absurd rfl (hm .host (by decide))
  case sent => exact absurd rfl (hm .sent (by decide))
  all_goals simpa [samePart] using hw

theorem refused_of {c : Instr} {kind : Nat} {f : Nat → State → State} {s : State} {code : ResultCode}
    {d : Word} (he : exec c s = answer (takeOfKind kind f) s) (hk : TakesKind s kind)
    (hf : f (look s) (claimed s) = refuseTicket (look s) code d (claimed s)) : Refused code d c s := by
  refine ⟨takeEnd s (finishTicket (look s) code d (claimed s)), ?_, ?_, ?_, ?_⟩
  · rw [exec_take he hk, hf, refuseTicket]
  · exact takeEnd_takenAndFinished hk rfl rfl (by simp) (by simp) (by simp) code d
  · exact takeEnd_changesOnly (fun _ => id) (.of_all (by simp [samePart, ticketParts])) code d
  · rw [takeEnd_sent]; simp

theorem accepted_of {c : Instr} {kind : Nat} {f : Nat → State → State} {s w : State} {code : ResultCode}
    {d : Word} {owner : List Part} {effect : State → Prop}
    (he : exec c s = answer (takeOfKind kind f) s) (hk : TakesKind s kind)
    (hf : f (look s) (claimed s) = finishTicket (look s) code d w)
    (effects : effect (takeEnd s (finishTicket (look s) code d w)))
    (frame : ChangesOnly (owner ++ ticketParts) s w)
    (mem : w.mem = (claimed s).mem := by simp) (walker : w.walker = (claimed s).walker := by simp)
    (host : w.host = s.host := by simp) (x : w.pos.x = s.pos.x := by simp)
    (state : w.line.state = s.line.state := by simp) : Accepted code d owner c s effect :=
  ⟨_, by rw [exec_take he hk, hf], effects,
    takeEnd_takenAndFinished hk mem walker host x state code d,
    takeEnd_changesOnly (fun _ h => List.mem_append_right _ h) frame code d⟩

end Sys2Proof.Machine
end

