-- ==== Sys2Proof/Proofs/AuthorityClassAndFabric.lean ====
section
/-! PROOFS. The end of a jog, a change of authority, and the tickets AUTHORITY, SPEED_CLASS and
FABRIC_LOADED (R11 to R14). -/

-- One thread for the whole file: each waiting thread reserves its stack.
set_option Elab.async false

namespace Sys2Proof.Machine

/-! ## The end of a jog (R16, R129) -/

/-- S_cmd after the end of a jog (R129). -/
def speedAtJogEnd (s : State) : Nat :=
  if s.line.state = .thread ∧ s.line.jog ≠ .still then 0 else s.dose.sCmd

/-- The end of a jog writes the jog state and S_cmd alone: it aborts no auto-zero. -/
theorem setJog_still (s : State) : setJog .still s = { s with
    line := { s.line with jog := .still }, dose := { s.dose with sCmd := speedAtJogEnd s } } := by
  unfold setJog speedAtJogEnd
  by_cases hj : s.line.jog = .still
  · rw [if_pos hj, if_neg (by simp [hj])]
    conv_lhs => rw [show s = { s with line := { s.line with jog := s.line.jog } } from rfl]
    rw [hj]
  · unfold jogSpeed
    by_cases ht : s.line.state = .thread
    · simp [hj, ht, setSpeed]
    · simp [hj, ht]

theorem setJog_still_reported (s : State) : Reported 0 s (setJog .still s) := by
  rw [setJog_still]
  exact .of_same rfl rfl rfl rfl

/-! ## A change of authority (R13) -/

/-- The jog state after a change of authority: a change from LOCAL to REMOTE ends the jog (R13). -/
def jogAtAuthority (new : Authority) (s : State) : Jog :=
  if isLocal s = true ∧ new = .remote then .still else s.line.jog

theorem setAuthority_same {new : Authority} {s : State} (h : new = s.line.auth) (source : Word) :
    setAuthority new source s = s := if_pos h.symm

/-- What a change of authority leaves (R13). -/
structure AuthorityChanged (new : Authority) (source : Word) (s t : State) : Prop where
  line : t.line = { s.line with auth := new, jog := jogAtAuthority new s }
  dose : t.dose = { s.dose with
    sCmd := if isLocal s = true ∧ new = .remote then speedAtJogEnd s else s.dose.sCmd }
  notice : Memory.wf s.mem = true →
    NoticeShown .authority s.line.state (natWord s.line.auth.code) (natWord new.code) source s t
  reported : Reported 1 s t
  bytes : BytesKept (nextNoticeBytes s) s t
  walker : t.walker = s.walker
  sent : t.sent = s.sent
  frame : ChangesOnly [.mem, .line, .dose, .host] s t

theorem setAuthority_changed {new : Authority} {s : State} (h : new ≠ s.line.auth) (source : Word) :
    AuthorityChanged new source s (setAuthority new source s) := by
  have hr : Reported 1 s (writeNotice .authority (natWord s.line.auth.code) (natWord new.code) source
      { s with line := { s.line with auth := new } }) :=
    Reported.after (t := { s with line := { s.line with auth := new } }) (.of_same rfl rfl rfl rfl)
      (writeNotice_reported _ _ _ _ _)
  have hb := writeNotice_bytes .authority (natWord s.line.auth.code) (natWord new.code) source
    { s with line := { s.line with auth := new } }
  have hsh := fun wf => writeNotice_shown (s := { s with line := { s.line with auth := new } }) wf .authority
    (natWord s.line.auth.code) (natWord new.code) source
  unfold setAuthority
  rw [if_neg fun e => h e.symm]
  by_cases hj : isLocal s = true ∧ new = .remote
  · simp only [if_pos hj]
    refine ⟨?_, ?_, fun wf => (hsh wf).later (m := 1) rfl (by omega) (by omega) (setJog_still_reported _),
      hr.quiet (setJog_still_reported _), ?_, ?_, ?_, ?_⟩ <;> rw [setJog_still]
    · simp [jogAtAuthority, hj]
    · simp [speedAtJogEnd, hj]
    · exact hb
    · simp
    · simp
    · exact .of_all (by simp [samePart])
  · simp only [if_neg hj]
    refine ⟨?_, ?_, hsh, hr, hb, ?_, ?_, ?_⟩
    · simp [jogAtAuthority, hj]
    · simp [hj]
    · simp
    · simp
    · exact .of_all (by simp [samePart])

/-! ## AUTHORITY (R14) -/

/-- The outcomes of an accepted AUTHORITY operation (R14). -/
theorem authorityAfter_accepted {a new : Authority} {op : Nat}
    (h : (a, op, new) ∈ [ (Authority.remote, 1, Authority.remoteLockout),
      (.remoteLockout, 1, .remoteLockout), (.remote, 2, .remote), (.remoteLockout, 2, .remote),
      (.remote, 3, .remote), (.remoteLockout, 3, .remoteLockout), (.localPendant, 3, .remote) ]) :
    authorityAfter op a = .ok new ∧ ((a = .localPendant ∨ a = .localHeld) ∧ new = .remote ↔ a = .localPendant) := by
  simp only [List.mem_cons, Prod.mk.injEq, List.not_mem_nil, or_false] at h
  rcases h with ⟨rfl, rfl, rfl⟩ | ⟨rfl, rfl, rfl⟩ | ⟨rfl, rfl, rfl⟩ | ⟨rfl, rfl, rfl⟩ | ⟨rfl, rfl, rfl⟩ |
    ⟨rfl, rfl, rfl⟩ | ⟨rfl, rfl, rfl⟩ <;> exact ⟨rfl, by decide⟩

/-- The refusals of an AUTHORITY operation (R14). -/
theorem authorityAfter_badField {op : Nat} (a : Authority) (h : op ∉ [1, 2, 3]) :
    authorityAfter op a = .error .badField := by
  simp only [List.mem_cons, List.not_mem_nil, or_false, not_or] at h
  obtain ⟨h1, h2, h3⟩ := h
  unfold authorityAfter
  split <;> first | rfl | contradiction

theorem authorityAfter_refused {op : Nat} {a : Authority} (h : op ∈ [1, 2, 3])
    (ha : a = .localHeld ∨ (a = .localPendant ∧ op ≠ 3)) : authorityAfter op a = .error .authority := by
  simp only [List.mem_cons, List.not_mem_nil, or_false] at h
  rcases ha with rfl | ⟨rfl, hop⟩
  · rcases h with rfl | rfl | rfl <;> rfl
  · rcases h with rfl | rfl | rfl
    · rfl
    · rfl
    · exact absurd rfl hop

theorem isLocal_iff (s : State) :
    isLocal s = true ↔ s.line.auth = .localPendant ∨ s.line.auth = .localHeld := by
  unfold isLocal
  simp

/-! ## SPEED_CLASS (R11) -/

/-- The class and its lock set (R11). -/
def withClass (k : Fin 4) (lock : Bool) (s : State) : State :=
  { s with line := { s.line with speedClass := k, classLock := lock } }

/-- The limit on S_cmd is a minimum (R129). -/
theorem limitSpeed_eq (s : State) :
    limitSpeed s = { s with dose := { s.dose with sCmd := min s.dose.sCmd (vLim s) } } := by
  unfold limitSpeed setSpeed
  split
  · rw [Nat.min_eq_right (by omega)]
  · rw [Nat.min_eq_left (by omega)]

end Sys2Proof.Machine

namespace Sys2Proof.Proofs

open Sys2Proof.Machine

/-- A refused AUTHORITY operation. -/
theorem authority_refused {s : State} {code : ResultCode} (hk : TakesKind s 0x11)
    (h : authorityAfter (bodyByte s (look s) 0x20) s.line.auth = .error code) :
    Refused code 0 .authority s := by
  refine refused_of rfl hk ?_
  simp [takeAuthority, h]

/-- An accepted AUTHORITY operation, which changes the authority or leaves it (R14). -/
theorem authority_accepted {s : State} {new : Authority} (hk : TakesKind s 0x11)
    (h : (s.line.auth, bodyByte s (look s) 0x20, new) ∈
      [ (Authority.remote, 1, Authority.remoteLockout), (.remoteLockout, 1, .remoteLockout),
        (.remote, 2, .remote), (.remoteLockout, 2, .remote), (.remote, 3, .remote),
        (.remoteLockout, 3, .remoteLockout), (.localPendant, 3, .remote) ]) :
    (new = s.line.auth → Accepted .ok (natWord new.code) [] .authority s fun t => t.sent = [])
    ∧ (new ≠ s.line.auth → ∃ t, exec .authority s = .next t
      ∧ t.line = { s.line with
          auth := new, jog := if s.line.auth = .localPendant then .still else s.line.jog }
      ∧ t.dose = { s.dose with sCmd :=
          if s.line.auth = .localPendant ∧ s.line.state = .thread ∧ s.line.jog ≠ .still then 0
          else s.dose.sCmd }
      ∧ NoticeShown .authority s.line.state (natWord s.line.auth.code) (natWord new.code) 2 s t
      ∧ TicketShows (look s) .ok (natWord new.code) s t ∧ TakeRecorded s t ∧ HostKept s t
      ∧ t.walker.outstanding = s.walker.outstanding
      ∧ ChangesOnly (.line :: .dose :: ticketParts) s t ∧ LogAndTicketsOnly s t) := by
  obtain ⟨hafter, hlocal⟩ := authorityAfter_accepted h
  have hf : takeAuthority (look s) (claimed s)
      = finishTicket (look s) .ok (natWord new.code) (setAuthority new 2 (claimed s)) := by
    simp [takeAuthority, hafter]
  have hremote : (isLocal (claimed s) = true ∧ new = .remote) ↔ s.line.auth = .localPendant := by
    rw [isLocal_iff, (claimed_keeps s).1]
    exact hlocal
  refine ⟨fun hn => ?_, fun hn => ?_⟩
  · rw [setAuthority_same (by simpa using hn)] at hf
    exact accepted_of rfl hk hf (by rw [takeEnd_sent]; simp) (.of_all (by simp [samePart, ticketParts]))
  · have ch := setAuthority_changed (s := claimed s) (new := new) (by simpa using hn) 2
    have wf := hk.wf
    have hs := hk.not_stalled (congrArg Walker.state ch.walker)
    obtain ⟨h1, h2, h3, h4⟩ := takeEnd_takenWith hk ch.reported (by simp) .ok (natWord new.code) hs
    refine ⟨_, by rw [exec_take rfl hk, hf], ?_, ?_, ?_, h1, h2, h3, ?_, ?_, h4⟩
    · rw [(takeEnd_keeps _ _).1, (finishTicket_keeps _ _ _ _).1, ch.line, jogAtAuthority]
      simp [hremote]
    · rw [(takeEnd_keeps _ _).2.2.2.2.2.2.2.1, (finishTicket_keeps _ _ _ _).2.2.2.2.2.2.2.1, ch.dose]
      simp only [hremote, speedAtJogEnd, claimed_keeps]
      by_cases hp : s.line.auth = .localPendant <;> simp [hp]
    · refine takeEnd_notice (m := 1) ?_ ?_ (by omega) (by omega) hs _ _
      · have := (ch.notice (claimed_wf wf)).alike (s := s) {}
        simpa using this
      · rw [ch.reported.written]; simp
    · rw [takeEnd_walker, afterTake_outstanding]
      obtain ⟨c, slot, seq, e⟩ := finishTicket_walker (look s) .ok (natWord new.code)
        (setAuthority new 2 (claimed s))
      rw [e, ch.walker, claimed_walker]
    · refine takeEnd_changesOnly (by decide) ?_ _ _
      intro p hp
      have := ch.frame p
      revert this hp
      cases p <;> simp [samePart, ticketParts]

/-- SPEED_CLASS: the refusals, and the class with its lock and the limit on S_cmd (R11, R129). -/
theorem speedClass_cases {s : State} (hk : TakesKind s 0x12) :
    (s.line.classLock = true → Refused .locked 0 .speedClass s)
    ∧ (s.line.classLock = false → 3 < bodyByte s (look s) 0x20 → Refused .badField 0 .speedClass s)
    ∧ (∀ k : Fin 4, s.line.classLock = false → bodyByte s (look s) 0x20 = k.val →
      Accepted .ok (natWord k.val) [.line, .dose] .speedClass s fun t =>
        t.line = { s.line with
          speedClass := k, classLock := decide (bodyByte s (look s) 0x21 = 1) }
        ∧ vLim t = vMax s * (8 - k.val) / 8
        ∧ t.dose = { s.dose with sCmd := min s.dose.sCmd (vMax s * (8 - k.val) / 8) }) := by
  refine ⟨fun hl => refused_of rfl hk ?_, fun hl hb => refused_of rfl hk ?_, fun k hl hb => ?_⟩
  · simp [takeSpeedClass, hl]
  · simp [takeSpeedClass, hl, hb]
  · have hf : takeSpeedClass (look s) (claimed s) = finishTicket (look s) .ok (natWord k.val)
        (limitSpeed (withClass k (decide (bodyByte s (look s) 0x21 = 1)) (claimed s))) := by
      have hn : ¬ 3 < k.val := by omega
      have hk4 : Fin.ofNat 4 k.val = k := by simp
      simp only [takeSpeedClass, withClass, claimed_keeps, hl, claimed_bodyByte s (show 1 ≤ 0x20 by decide),
        claimed_bodyByte s (show 1 ≤ 0x21 by decide), hb, hn, hk4, if_false, Bool.false_eq_true]
      rfl
    have hcfg : ∀ w : State, Reported 0 (claimed s) w → vMax w = vMax s := fun w hw =>
      (hw.logAndTickets.sameConfig.vMax_eq).trans (claimed_logAndTickets s).sameConfig.vMax_eq
    have hend : ∀ (w : State) (code : ResultCode) (d : Word), Reported 0 (claimed s) w →
        w.pos.x = s.pos.x → w.walker.state = (claimed s).walker.state →
        vMax (takeEnd s (finishTicket (look s) code d w)) = vMax s := fun w code d hr hx hw =>
      (LogAndTicketsOnly.sameConfig
        (takeEnd_takenWith hk hr hx code d (hk.not_stalled hw)).bytes).vMax_eq
    have hclaim : vLim (withClass k (decide (bodyByte s (look s) 0x21 = 1)) (claimed s))
        = vMax s * (8 - k.val) / 8 := by
      rw [vLim, hcfg _ (.of_same (t := withClass k _ (claimed s)) rfl rfl rfl rfl)]; rfl
    rw [limitSpeed_eq, hclaim] at hf
    refine accepted_of rfl hk hf ⟨?_, ?_, ?_⟩ ?_ rfl rfl rfl rfl rfl
    · simp [withClass]
    · rw [vLim, hend]
      · simp [withClass]
      · exact .of_same rfl rfl rfl rfl
      · rfl
      · rfl
    · simp [withClass]
    · exact .of_all (by simp [samePart, ticketParts, withClass])

/-- Settles O36. -/
theorem authorityClassAndFabric : Obligations.AuthorityClassAndFabric := by
  refine ⟨fun s hk => ⟨fun h => authority_refused hk (authorityAfter_badField _ h), fun h =>
    ⟨fun ha => authority_refused hk (authorityAfter_refused h ha), fun new hn => authority_accepted hk hn⟩⟩,
    fun s hk => speedClass_cases hk, fun s hk => ⟨fun h => refused_of rfl hk ?_, fun h => ⟨fun hs =>
    refused_of rfl hk ?_, fun hs => ?_⟩⟩⟩
  · simp [takeFabricLoaded, h]
  · rcases hs with hs | hs | hs <;> simp [takeFabricLoaded, h, hs, fabricAllowed]
  · refine accepted_of (w := { claimed s with line := { s.line with
      fabric := ticketByte s (look s) 0x20, marks := marksOf (ticketByte s (look s) 0x21) } }) rfl hk ?_ ⟨?_, ?_, ?_, ?_⟩ ?_
    · rcases hs with hs | hs | hs | hs <;> simp [takeFabricLoaded, h, hs, fabricAllowed]
    · refine Eq.trans (takeEnd_sent ?_ ?_) ?_ <;> rfl
    · simp
    · intro hb
      have : ticketByte s (look s) 0x21 = 0 := BitVec.eq_of_toNat_eq hb
      simp [this, marksOf]
    · intro hb
      have : ticketByte s (look s) 0x21 = 1 := BitVec.eq_of_toNat_eq hb
      simp [this, marksOf]
    · exact .of_all (by simp [samePart, ticketParts])

end Sys2Proof.Proofs
end

