-- ==== Sys2Proof/Proofs/Entries.lean ====
section
/-! PROOFS. A change of line state as `Entered` says it: the controller's fields, the notice, and the
answers of the heat, dose, order and tension units (R2). -/

-- One thread for the whole file: each waiting thread reserves its stack.
set_option Elab.async false

namespace Sys2Proof.Machine

/-! ## What an entry reports -/

/-- An entry writes its notice, and after it nothing but where an aborted auto-zero lets a FULL walker
stall. -/
structure EntryReports (new : LineState) (cause : LineCause) (s u t : State) : Prop where
  first : Reported 1 s u
  notice : Memory.wf s.mem = true →
    NoticeShown .lineState new (natWord s.line.state.code) (natWord new.code) cause.word s u
  walker : u.walker = s.walker
  rest : MayStall u t
  halt : new = .halt → causeSet t .halt = true

theorem haltCause_reported (new : LineState) (s : State) : Reported 0 s (haltCause new s) := by
  unfold haltCause
  split
  · exact raiseCause_reported _ s
  · exact .rfl s

theorem tensionAnswer_mayStall (new : LineState) (s : State) : MayStall s (tensionAnswer new s) := by
  unfold tensionAnswer
  refine MayStall.trans ?_ (abortAutos_mayStall 4 _)
  split <;> exact .of_quiet (.of_same) (by simp)

/-- The entry from the heat unit's answer on. -/
theorem afterHaltCause_mayStall (new old : LineState) (had : Bool) (s : State) : MayStall s
    (printTest (tensionAnswer new (storeAnswer new (speedAnswer new (wrapAnswer old new
      (heatAnswer had s)))))) := by
  have h1 : MayStall s (storeAnswer new (speedAnswer new (wrapAnswer old new (heatAnswer had s)))) :=
    .of_quiet (.of_same) (by simp)
  have h2 : ∀ v : State, MayStall v (printTest v) := fun v => .of_quiet (.of_same) (by simp)
  exact (h1.trans (tensionAnswer_mayStall new _)).trans (h2 _)

/-- Bit 4, HALT, is set after an or with it. -/
theorem or_halt_bit (s : State) : causeSet (haltCause .halt s) .halt = true := by
  show (s.host.causes ||| 16#6).getLsbD 4 = true
  simp only [BitVec.getLsbD_or, Bool.or_eq_true]
  exact .inr (by decide)

theorem enterState_reports (new : LineState) (cause : LineCause) (s : State) :
    ∃ u, EntryReports new cause s u (enterState new cause s) := by
  have h1 : MayStall (writeNotice .lineState (natWord s.line.state.code) (natWord new.code) cause.word
      (setLineState new s)) (haltCause new (writeNotice .lineState (natWord s.line.state.code)
      (natWord new.code) cause.word (setLineState new s))) :=
    .of_quiet (haltCause_reported new _) (by simp)
  have h2 := afterHaltCause_mayStall new s.line.state s.line.heat (haltCause new
    (writeNotice .lineState (natWord s.line.state.code) (natWord new.code) cause.word
      (setLineState new s)))
  refine ⟨writeNotice .lineState (natWord s.line.state.code) (natWord new.code) cause.word
    (setLineState new s), ?_, ?_, by simp, h1.trans h2, fun hn => ?_⟩
  · exact Reported.after (t := setLineState new s) (.of_same) (writeNotice_reported _ _ _ _ _)
  · intro wf
    exact writeNotice_shown (s := setLineState new s) wf .lineState _ _ _
  · obtain ⟨_, _, hr⟩ := h2.reported
    refine hr.causes _ ?_
    rw [hn]
    exact or_halt_bit _

/-- However the walker stands, an entry's notice is the first of at most two. -/
theorem enterState_reported (new : LineState) (cause : LineCause) (s : State) :
    ∃ k, 1 ≤ k ∧ k ≤ 2 ∧ Reported k s (enterState new cause s) := by
  obtain ⟨u, h⟩ := enterState_reports new cause s
  obtain ⟨k, hk, hr⟩ := h.rest.reported
  exact ⟨1 + k, by omega, by omega, h.first.trans hr⟩

/-- With the walker not FULL the notice is the only one. -/
theorem enterState_quiet (new : LineState) (cause : LineCause) {s : State} (h : s.walker.state ≠ .full) :
    Reported 1 s (enterState new cause s)
    ∧ (enterState new cause s).walker.state = s.walker.state := by
  obtain ⟨u, hu⟩ := enterState_reports new cause s
  obtain ⟨hr, hw⟩ := hu.rest.quiet (by rw [hu.walker]; exact h)
  exact ⟨hu.first.quiet hr, by rw [hw, hu.walker]⟩

theorem enterState_notice (new : LineState) (cause : LineCause) {s : State} (wf : Memory.wf s.mem = true) :
    NoticeShown .lineState new (natWord s.line.state.code) (natWord new.code) cause.word s
      (enterState new cause s) := by
  obtain ⟨u, h⟩ := enterState_reports new cause s
  obtain ⟨k, hk, hr⟩ := h.rest.reported
  exact (h.notice wf).later h.first.written (by omega) (by omega) hr

/-! ## The records that the moving wrap interrupts (R121) -/

theorem inWrap_iff (s : State) (p : Panel) : inWrap s p = true ↔ NamedInWrap s p := by
  unfold inWrap NamedInWrap
  simp

theorem markInterrupted_panels (s : State) : (markInterrupted s).ord.panels =
    s.ord.panels.map fun p => if inWrap s p then { p with interrupted := true } else p := rfl

theorem InterruptedByWrap.of_appended {s t : State} {l : List Panel} (wrap : t.dose.wrap = s.dose.wrap)
    (panels : t.ord.panels = s.ord.panels ++ l) : InterruptedByWrap s t := by
  refine ⟨fun h => absurd wrap h, fun k p hp => ⟨fun h => absurd wrap h, fun _ => ?_⟩⟩
  rw [panels, List.getElem?_append_left (List.getElem?_eq_some_iff.mp hp).1, hp]

theorem InterruptedByWrap.congr {s u t : State} (h : InterruptedByWrap s u)
    (wrap : t.dose.wrap = u.dose.wrap := by simp) (panels : t.ord.panels = u.ord.panels := by simp) :
    InterruptedByWrap s t := by
  unfold InterruptedByWrap at *
  rwa [wrap, panels]

theorem InterruptedByWrap.source {s v t : State} (h : InterruptedByWrap v t)
    (dose : v.dose = s.dose := by simp) (panels : v.ord.panels = s.ord.panels := by simp) :
    InterruptedByWrap s t := by
  unfold InterruptedByWrap NamedInWrap at *
  rwa [dose, panels] at h

theorem moveWrap_interrupted {w : WrapState} {s : State} (h : w ≠ s.dose.wrap) (c : WrapCommand) :
    InterruptedByWrap s (moveWrap w c s) := by
  have hw : (moveWrap w c s).dose.wrap = w := by rw [moveWrap_dose]
  have hp : (moveWrap w c s).ord.panels =
    s.ord.panels.map fun p => if inWrap s p then { p with interrupted := true } else p := rfl
  refine ⟨fun _ => by rw [hp]; simp, fun k p hk => ⟨fun _ hn => ?_, fun hn => ?_⟩⟩
  · rw [hp, List.getElem?_map, hk, Option.map_some, if_pos ((inWrap_iff s p).mpr hn)]
  · have hn' : ¬ NamedInWrap s p := hn.resolve_left (hw ▸ h)
    rw [hp, List.getElem?_map, hk, Option.map_some, if_neg (fun e => hn' ((inWrap_iff s p).mp e))]

/-- The wrap's answer moves the felt or does nothing (R118). -/
theorem wrapAnswer_cases (old new : LineState) (s : State) :
    wrapAnswer old new s = s
    ∨ ∃ w c, w ≠ s.dose.wrap ∧ w ≠ .closed ∧ wrapAnswer old new s = moveWrap w c s := by
  unfold wrapAnswer
  split
  · split
    · next h => exact .inr ⟨.closing, .close, by rcases h with h | h <;> simp [h], by decide, rfl⟩
    · exact .inl rfl
  · split
    · split
      · next h => exact .inr ⟨.opening, .opened, by rcases h with h | h <;> simp [h], by decide, rfl⟩
      · exact .inl rfl
    · exact .inl rfl

theorem startPrintOf_panels (e : Entry) (rest : List Entry) (o : OpenOrder) (s : State) :
    ∃ l, (startPrintOf e rest o s).ord.panels = s.ord.panels ++ l := by
  refine ⟨[newPanel (numberTaken s) o e s.pos.s], ?_⟩
  unfold startPrintOf createPanel useSlot releaseSlot
  extract_lets n s1 s2 s3 s4
  split <;> rfl

/-- A print start adds one record at the end of the table, and the wrap must be CLOSED for it (R63). -/
theorem printTest_panels (s : State) : ∃ l, (printTest s).ord.panels = s.ord.panels ++ l
    ∧ (l ≠ [] → s.dose.wrap = .closed) := by
  rcases printTest_cases s with ⟨hr, he⟩ | ⟨_, he⟩ <;> rw [he]
  · have hw : s.dose.wrap = .closed := by
      unfold printReady at hr
      simp only [Bool.and_eq_true, beq_iff_eq] at hr
      exact hr.1.1.1.1.2
    unfold startPrint
    split
    · exact ⟨[], by simp, by simp⟩
    · split
      · exact ⟨[], by simp, by simp⟩
      · obtain ⟨l, hl⟩ := startPrintOf_panels ‹_› ‹_› ‹_› s
        exact ⟨l, hl, fun _ => hw⟩
  · exact ⟨[], by simp, by simp⟩

/-! ## The whole entry -/

/-- The entry once the wrap has answered it. -/
def entryWrap (new : LineState) (cause : LineCause) (s : State) : State :=
  wrapAnswer s.line.state new (entryHead new cause s)

theorem enterState_interrupted (new : LineState) (cause : LineCause) (s : State) :
    InterruptedByWrap s (enterState new cause s) := by
  have hdose : (enterState new cause s).dose.wrap = (entryWrap new cause s).dose.wrap := by
    rw [enterState_eq]
    simp [entryWrap]
  have hhead : (entryHead new cause s).ord = s.ord := by simp [entryHead]
  obtain ⟨l, hl, hclosed⟩ := printTest_panels (tensionAnswer new (storeAnswer new (speedAnswer new
    (entryWrap new cause s))))
  have hpanels : (enterState new cause s).ord.panels = (entryWrap new cause s).ord.panels ++ l := by
    refine Eq.trans hl ?_
    simp
  have hl' : l ≠ [] → (entryWrap new cause s).dose.wrap = .closed := fun h => by
    have := hclosed h
    simpa using this
  refine InterruptedByWrap.source (v := entryHead new cause s) ?_ (by simp) (by rw [hhead])
  rcases wrapAnswer_cases s.line.state new (entryHead new cause s) with he | ⟨w, c, hw, hc, he⟩
  · rw [entryWrap, he] at hpanels hdose
    exact .of_appended hdose hpanels
  · have hnil : l = [] := by
      by_contra hn
      have := hl' hn
      rw [entryWrap, he, moveWrap_dose] at this
      exact hc this
    rw [hnil, List.append_nil, entryWrap, he] at hpanels
    rw [entryWrap, he] at hdose
    exact (moveWrap_interrupted hw c).congr hdose hpanels

/-- The break count of a zone ended (R141). -/
def TensionZone.breakEnded (t : TensionZone) : TensionZone := { t with breakCount := 0 }

/-- A zone's targets on entry to COLD (R137). -/
def TensionZone.coldTargeted (t : TensionZone) : TensionZone :=
  { t with target := 0, working := 0, rampDone := true }

/-- A tension zone as an entry leaves it before the auto-zeros are aborted (R137, R141). -/
def TensionZone.entered (new : LineState) (t : TensionZone) : TensionZone :=
  match new with
  | .cold => t.coldTargeted.breakEnded
  | .thread | .warm | .halt => t.breakEnded
  | .ready | .run | .hold => t

theorem tensionAnswer_zone (new : LineState) (s : State) (z : Fin 4) :
    (tensionAnswer new s).tens.zones[z] = (s.tens.zones[z].entered new).aborted := by
  cases new <;> rw [tensionAnswer.eq_def, abortAutos_zone] <;>
    simp [endBreak, coldTargets, mapTension, TensionZone.entered, TensionZone.breakEnded,
      TensionZone.coldTargeted]

theorem enterState_tension (new : LineState) (cause : LineCause) (s : State) (z : Fin 4) :
    (enterState new cause s).tens.zones[z] = (s.tens.zones[z].entered new).aborted := by
  have e : (enterState new cause s).tens = (tensionAnswer new (storeAnswer new (speedAnswer new
      (entryWrap new cause s)))).tens := by
    rw [enterState_eq]
    simp [entryTail, entryWrap]
  rw [e, tensionAnswer_zone]
  simp [entryWrap, entryHead]

/-- An entry is what the statements say of one (R2). -/
theorem enterState_entered (new : LineState) (cause : LineCause) {s : State}
    (wf : Memory.wf s.mem = true) : Entered new cause s (enterState new cause s) where
  state := enterState_state new cause s
  heat := by rw [enterState_line_heat]; cases new <;> rfl
  flag := by rw [enterState_line_eq]
  kept := by rw [enterState_line_eq]
  latches := latched_enterState new cause s
  zones h1 h2 k := by
    rw [enterState_line_heat] at h2
    rw [enterState_heat, if_pos ⟨h1, h2⟩]
    simp [Zone.shutOff]
  zonesKept h := by
    rw [enterState_heat, if_neg]
    rw [enterState_line_heat] at h
    rintro ⟨h1, h2⟩
    rcases h with h | h
    · rw [h1] at h; cases h
    · rw [h2] at h; cases h
  wrap := enterState_wrap new cause s
  interrupted := enterState_interrupted new cause s
  autos z := by
    rw [enterState_tension]
    have he : ∀ t : TensionZone, (t.entered new).auto = t.auto ∧ (t.entered new).l = t.l
        ∧ (t.entered new).r = t.r := fun t => by cases new <;> exact ⟨rfl, rfl, rfl⟩
    obtain ⟨e1, e2, e3⟩ := he s.tens.zones[z]
    refine ⟨TensionZone.aborted_auto _, fun h => ?_, fun a h => ?_⟩
    · rw [TensionZone.aborted_of_none (e1.trans h), e2, e3]
      exact ⟨rfl, rfl⟩
    · exact TensionZone.aborted_zero (e1.trans h)
  speed := enterState_speed new cause s
  notice := enterState_notice new cause wf
  cause h := by
    obtain ⟨u, hu⟩ := enterState_reports new cause s
    exact hu.halt h

/-- An entry touches the parts of `lineParts` alone. -/
theorem enterState_changesOnly (new : LineState) (cause : LineCause) (s : State) :
    ChangesOnly lineParts s (enterState new cause s) := .of_all (by simp [samePart, lineParts])


/-- What an entry leaves is still so after steps that keep what the statements say of it: fewer than 200
notices, and of the controller's fields the jog state alone. -/
theorem enterState_entered_later {new : LineState} {cause : LineCause} {s v t : State} {j : Nat}
    (wf : Memory.wf s.mem = true) (hr : Reported j (enterState new cause v) t) (hj : j < 200)
    (kept : t.line = { (enterState new cause v).line with jog := t.line.jog })
    (heat : t.heat = (enterState new cause v).heat := by simp)
    (wrap : t.dose.wrap = (enterState new cause v).dose.wrap := by simp)
    (speed : t.dose.sCmd = (enterState new cause v).dose.sCmd := by simp)
    (panels : t.ord.panels = (enterState new cause v).ord.panels := by simp)
    (tens : t.tens.zones = (enterState new cause v).tens.zones := by simp)
    (vline : v.line = s.line := by simp) (vdose : v.dose = s.dose := by simp)
    (vord : v.ord = s.ord := by simp) (vheat : v.heat = s.heat := by simp)
    (vtens : v.tens = s.tens := by simp) (vpos : v.pos = s.pos := by simp)
    (vhost : v.host = s.host := by simp)
    (vwf : Memory.wf s.mem = true → Memory.wf v.mem = true := by exact id) :
    Entered new cause s t := by
  obtain ⟨k, hk1, hk2, hk⟩ := enterState_reported new cause v
  have h := enterState_entered new cause (vwf wf)
  have hsource : Entered new cause s (enterState new cause v) := by
    obtain ⟨h1, h2, h3, h4, h5, h6, h7, h8, h9, h10, h11, h12, h13⟩ := h
    refine ⟨h1, ?_, ?_, ?_, fun a => ?_, ?_, ?_, ?_, h9.source vdose (by rw [vord]), ?_, ?_, ?_, h13⟩
    · rw [h2, vline]
    · rw [h3, vline]
    · rw [h4, vline]
    · exact (h5 a).trans (latched_congr (by rw [vline]) a)
    · rwa [vline] at h6
    · rwa [vline, vheat] at h7
    · rw [h8, vdose, vline]
    · rwa [vtens] at h10
    · rw [h11, vdose]
    · have ha : Alike s v := ⟨by rw [vline], by rw [vpos], by rw [vhost], by rw [vhost]⟩
      have := h12.alike ha
      rwa [vline] at this
  obtain ⟨h1, h2, h3, h4, h5, h6, h7, h8, h9, h10, h11, h12, h13⟩ := hsource
  have estate : t.line.state = (enterState new cause v).line.state := by rw [kept]
  have eheat : t.line.heat = (enterState new cause v).line.heat := by rw [kept]
  have eflag : t.line.threadHeat = (enterState new cause v).line.threadHeat := by rw [kept]
  have ealarms : t.line.alarms = (enterState new cause v).line.alarms := by rw [kept]
  refine ⟨estate.trans h1, eheat.trans h2, eflag.trans h3, ?_, fun a => ?_, ?_, ?_, wrap.trans h8,
    h9.congr wrap panels, ?_, speed.trans h11, ?_, fun hn => hr.causes _ (h13 hn)⟩
  · rw [estate, eheat, eflag, ealarms, kept, h4]
  · rw [latched_congr ealarms, h5]
  · rwa [← eheat, ← heat] at h6
  · rwa [← eheat, ← heat] at h7
  · rwa [← tens] at h10
  · refine h12.later (m := k) ?_ hk1 (by omega) hr
    rw [hk.written, vhost]

/-- A finish and the end of the take write one notice at most. -/
theorem takeEnd_reported {w : State} (s : State) (hs : w.walker.state ≠ .stalled) (n : Nat)
    (code : ResultCode) (d : Word) : ∃ j, j ≤ 1 ∧ Reported j w (takeEnd s (finishTicket n code d w)) := by
  have hf := finishTicket_reported n code d w
  generalize hv : finishTicket n code d w = v at hf
  have hs : v.walker.state ≠ .stalled := by rw [← hv]; exact hs
  have h0 : Reported 0 (afterTake v) (takeEnd s v) := .of_same
  rcases afterTake_reported hs with ⟨h, _⟩ | ⟨h, _⟩
  · exact ⟨0, by omega, hf.after (h.quiet h0)⟩
  · exact ⟨1, by omega, hf.after (h.quiet h0)⟩

end Sys2Proof.Machine
end

