-- ==== Sys2Proof/Proofs/LineCommand.lean ====
section
/-! PROOFS. The table of line targets and LINE_COMMAND (R10). -/

-- One thread for the whole file: each waiting thread reserves its stack.
set_option Elab.async false

namespace Sys2Proof.Machine

/-! ## The table of targets (R10) -/

/-- The line states and conditions in which the table refuses a target. -/
def TargetRefused (s : State) (target : LineState) : Prop :=
  s.line.state = .halt
  ∨ (target = .warm ∧ (s.line.state = .thread ∨ s.line.state = .run))
  ∨ (target = .run ∧ (s.line.state = .cold ∨ s.line.state = .thread ∨ s.line.state = .warm))
  ∨ (target = .run ∧ s.line.state = .ready ∧ s.reg.home.isSome = true)
  ∨ (target = .run ∧ s.line.state = .hold
    ∧ (s.reg.home.isSome = true ∨ holdCauseLatched s = true ∨ runHeatTest s = false))
  ∨ (target = .hold ∧ s.line.state ≠ .run ∧ s.line.state ≠ .hold)

theorem lineAccepts_refused {s : State} {target : LineState} (h : TargetRefused s target) :
    lineAccepts s target = false := by
  unfold TargetRefused at h
  unfold lineAccepts
  rcases h with h | ⟨rfl, h | h⟩ | ⟨rfl, h | h | h⟩ | ⟨rfl, h, hh⟩ | ⟨rfl, h, hh⟩ | ⟨rfl, h1, h2⟩
  · cases target <;> simp [h]
  · simp [h]
  · simp [h]
  · simp [h]
  · simp [h]
  · simp [h]
  · simp [h, Option.isNone_eq_false_iff.mpr hh]
  · rcases hh with hh | hh | hh
    · simp [h, Option.isNone_eq_false_iff.mpr hh]
    · simp [h, hh]
    · simp [h, hh]
  · cases hs : s.line.state
    case run => exact absurd hs h1
    case hold => exact absurd hs h2
    all_goals rfl

/-- The targets of LINE_COMMAND and of the line keys that change nothing (R10). -/
theorem lineAccepts_stays {s : State} {target : LineState} (ht : target ∈ [LineState.cold, .warm, .run, .hold])
    (h : target = s.line.state ∨ (target = .warm ∧ s.line.state = .ready)) :
    lineAccepts s target = true ∧ lineStays s target = true := by
  simp only [List.mem_cons, List.not_mem_nil, or_false] at ht
  unfold lineAccepts lineStays
  rcases h with h | ⟨rfl, h⟩
  · rcases ht with rfl | rfl | rfl | rfl <;> simp [← h]
  · simp [h]

/-- The targets that the line enters from its present state (R10); WARM apart. -/
def TargetEntered (s : State) (target : LineState) : Prop :=
  (target = .cold ∧ s.line.state ≠ .cold ∧ s.line.state ≠ .halt)
  ∨ (target = .run ∧ s.line.state = .ready ∧ s.reg.home = none)
  ∨ (target = .run ∧ s.line.state = .hold ∧ holdCauseLatched s = false
    ∧ runHeatTest s = true ∧ s.reg.home = none)
  ∨ (target = .hold ∧ s.line.state = .run)

/-- The jog state alone rewritten. -/
def withJog (j : Jog) (s : State) : State := { s with line := { s.line with jog := j } }

@[simp] theorem withJog_line (j : Jog) (s : State) : (withJog j s).line = { s.line with jog := j } := rfl

@[simp] theorem withJog_keeps (j : Jog) (s : State) :
    (withJog j s).mem = s.mem ∧ (withJog j s).lib = s.lib ∧ (withJog j s).pos = s.pos
    ∧ (withJog j s).trig = s.trig ∧ (withJog j s).ord = s.ord ∧ (withJog j s).reg = s.reg
    ∧ (withJog j s).heat = s.heat ∧ (withJog j s).dose = s.dose ∧ (withJog j s).tens = s.tens
    ∧ (withJog j s).lastReading = s.lastReading ∧ (withJog j s).walker = s.walker
    ∧ (withJog j s).host = s.host ∧ (withJog j s).sent = s.sent ∧ (withJog j s).drawn = s.drawn
    ∧ (withJog j s).pending = s.pending :=
  ⟨rfl, rfl, rfl, rfl, rfl, rfl, rfl, rfl, rfl, rfl, rfl, rfl, rfl, rfl, rfl⟩

theorem withJog_reported (j : Jog) (s : State) : Reported 0 s (withJog j s) := .of_same

theorem withJog_self {j : Jog} {s : State} (h : s.line.jog = j) : withJog j s = s := by
  subst h
  rfl

/-- Outside THREAD the end of a jog has no speed to take away (R129). -/
theorem setJog_still_of_not_thread {s : State} (h : s.line.state ≠ .thread) :
    setJog .still s = withJog .still s := by
  rw [setJog_still, speedAtJogEnd, if_neg fun e => h e.1]
  rfl

/-- The jog state after an accepted target: COLD ends it (R10, R16). -/
def jogAtTarget (target : LineState) (s : State) : Jog := if target = .cold then .still else s.line.jog

/-- An accepted target carried out: the entry, and with COLD the end of a jog (R10, R16). -/
theorem lineGo_entered {s : State} {target : LineState} (h : TargetEntered s target) (cause : LineCause) :
    lineAccepts s target = true
    ∧ lineGo target cause s = withJog (jogAtTarget target s) (enterState target cause s) := by
  unfold TargetEntered at h
  unfold lineAccepts lineGo lineStays jogAtTarget
  rcases h with ⟨rfl, h1, h2⟩ | ⟨rfl, h, hh⟩ | ⟨rfl, h, h1, h2, h3⟩ | ⟨rfl, h⟩
  · have hj := setJog_still_of_not_thread (s := enterState .cold cause s) (by simp)
    cases hs : s.line.state <;> simp_all
  · rw [withJog_self] <;> simp [h, hh, jogOf]
  · rw [withJog_self] <;> simp [h, h1, h2, h3, jogOf]
  · rw [withJog_self] <;> simp [h, jogOf]

/-- The line enters a target and the jog state is set: as the statements say it. -/
theorem withJog_entered {new : LineState} {cause : LineCause} {s v t : State} {j : Nat} {jog : Jog}
    (wf : Memory.wf s.mem = true) (hr : Reported j (withJog jog (enterState new cause v)) t) (hj : j < 200)
    (line : t.line = (withJog jog (enterState new cause v)).line := by simp)
    (heat : t.heat = (enterState new cause v).heat := by simp)
    (dose : t.dose = (enterState new cause v).dose := by simp)
    (ord : t.ord = (enterState new cause v).ord := by simp)
    (tens : t.tens = (enterState new cause v).tens := by simp)
    (vline : v.line = s.line := by simp) (vdose : v.dose = s.dose := by simp)
    (vord : v.ord = s.ord := by simp) (vheat : v.heat = s.heat := by simp)
    (vtens : v.tens = s.tens := by simp) (vpos : v.pos = s.pos := by simp)
    (vhost : v.host = s.host := by simp)
    (vwf : Memory.wf s.mem = true → Memory.wf v.mem = true := by exact id) :
    Entered new cause s t :=
  enterState_entered_later wf
    ((withJog_reported jog _).after hr) hj
    (by rw [line, withJog_line]) heat (by rw [dose]) (by rw [dose]) (by rw [ord]) (by rw [tens]) vline vdose vord vheat
    vtens vpos vhost vwf

end Sys2Proof.Machine

namespace Sys2Proof.Proofs

open Sys2Proof.Machine

/-- Only the targets of R10 have a code. -/
theorem targetOf_some {b : Nat} {target : LineState} (h : targetOf b = some target) :
    target ∈ [LineState.cold, .warm, .run, .hold] := by
  unfold targetOf at h
  split at h <;> cases h <;> simp

theorem targetOf_none {b : Nat} (h : b ∉ [0, 2, 4, 5]) : targetOf b = none := by
  unfold targetOf
  split <;> simp_all

theorem isLocal_claimed (s : State) : isLocal (claimed s) = isLocal s := rfl

theorem isLocal_remote {s : State} (h : s.line.auth = .remote ∨ s.line.auth = .remoteLockout) :
    isLocal s = false := by
  unfold isLocal
  rcases h with h | h <;> simp [h]

/-- LINE_COMMAND with a target under REMOTE, by the table (R10). -/
theorem takeLineCommand_remote {s : State} {target : LineState}
    (ht : targetOf (bodyByte s (look s) 0x20) = some target)
    (ha : s.line.auth = .remote ∨ s.line.auth = .remoteLockout) :
    takeLineCommand (look s) (claimed s) =
      if lineAccepts (claimed s) target = true then finishTicket (look s) .ok
        (stateWord (lineGo target .command (claimed s))) (lineGo target .command (claimed s))
      else refuseTicket (look s) .state 0 (claimed s) := by
  have hl := (isLocal_claimed s).trans (isLocal_remote ha)
  by_cases hacc : lineAccepts (claimed s) target = true <;> simp [takeLineCommand, ht, hl, hacc]

theorem lineCommand_entered {s : State} {target : LineState} (hk : TakesKind s 0x10)
    (ht : targetOf (bodyByte s (look s) 0x20) = some target)
    (ha : s.line.auth = .remote ∨ s.line.auth = .remoteLockout) (h : TargetEntered s target) :
    ∃ t, exec .lineCommand s = .next t ∧ Entered target .command s t
      ∧ t.line.jog = (if target = .cold then .still else s.line.jog)
      ∧ TicketShows (look s) .ok (natWord target.code) s t ∧ TakeRecorded s t
      ∧ ChangesOnly lineParts s t ∧ LogAndTicketsOnly s t := by
  obtain ⟨hacc, hgo⟩ := lineGo_entered (show TargetEntered (claimed s) target from h) .command
  have hf := takeLineCommand_remote ht ha
  have hword : stateWord (lineGo target .command (claimed s)) = natWord target.code := by
    rw [hgo]
    exact congrArg (fun st => natWord (LineState.code st)) (enterState_state target .command (claimed s))
  rw [if_pos hacc, hword, hgo] at hf
  have hfull : (claimed s).walker.state ≠ .full := by simp [hk.running]
  obtain ⟨h1, h2⟩ := enterState_quiet target .command hfull
  have hjog := withJog_reported (jogAtTarget target (claimed s)) (enterState target .command (claimed s))
  have hrun := hk.not_stalled
    (w := withJog (jogAtTarget target (claimed s)) (enterState target .command (claimed s))) (by simpa using h2)
  obtain ⟨j, hj, hend⟩ := takeEnd_reported s hrun (look s) .ok (natWord target.code)
  obtain ⟨t1, t2, _, t4⟩ := takeEnd_takenWith hk (h1.quiet hjog) (by simp) .ok
    (natWord target.code) hrun
  refine ⟨_, by rw [exec_take rfl hk, hf], ?_, ?_, t1, t2, ?_, t4⟩
  · exact withJog_entered hk.wf hend (by omega) 
      (vwf := claimed_wf)
  · simp [jogAtTarget]
  · refine takeEnd_changesOnly (by decide) ?_ _ _
    exact .of_all (by simp [samePart, lineParts])

/-- Settles O34. -/
theorem lineCommand : Obligations.LineCommand := by
  intro s hk
  refine ⟨fun h => refused_of rfl hk ?_, fun target ht => ⟨fun ha => refused_of rfl hk ?_, fun ha =>
    ⟨fun h => refused_of rfl hk ?_, fun h => ?_, fun h => lineCommand_entered hk ht ha h⟩⟩⟩
  · simp [takeLineCommand, targetOf_none h]
  · simp [takeLineCommand, ht, (isLocal_claimed s).trans ((isLocal_iff s).mpr ha)]
  · rw [takeLineCommand_remote ht ha, if_neg]
    rw [lineAccepts_refused (show TargetRefused (claimed s) target from h)]
    exact Bool.false_ne_true
  · obtain ⟨hacc, hst⟩ := lineAccepts_stays (s := claimed s) (targetOf_some ht) h
    have hgo : lineGo target .command (claimed s) = claimed s := if_pos hst
    refine accepted_of (w := claimed s) rfl hk ?_ (by rw [takeEnd_sent]; simp)
      (.of_all (by simp [samePart, ticketParts]))
    rw [takeLineCommand_remote ht ha, if_pos hacc, hgo]
    rfl

end Sys2Proof.Proofs
end

