-- ==== Sys2Proof/Proofs/PendantStop.lean ====
section
/-! PROOFS. The pendant's messages: the authority keys, STOP and ALIVE (R13, R17, R18). -/

-- One thread for the whole file: each waiting thread reserves its stack.
set_option Elab.async false

namespace Sys2Proof.Machine

/-! ## A message of the pendant -/

/-- The state in which a pendant message has its effect: the pendant PRESENT, no message sent yet. -/
def heard (s : State) : State := pendantMessage (clearSent s)

@[simp] theorem heard_line (s : State) : (heard s).line = (pendantMessage s).line := rfl

@[simp] theorem heard_keeps (s : State) :
    (heard s).mem = s.mem ∧ (heard s).lib = s.lib ∧ (heard s).pos = s.pos
    ∧ (heard s).trig = s.trig ∧ (heard s).ord = s.ord ∧ (heard s).reg = s.reg
    ∧ (heard s).heat = s.heat ∧ (heard s).dose = s.dose ∧ (heard s).tens = s.tens
    ∧ (heard s).lastReading = s.lastReading ∧ (heard s).walker = s.walker
    ∧ (heard s).host = s.host ∧ (heard s).sent = [] ∧ (heard s).drawn = s.drawn
    ∧ (heard s).pending = s.pending :=
  ⟨rfl, rfl, rfl, rfl, rfl, rfl, rfl, rfl, rfl, rfl, rfl, rfl, rfl, rfl, rfl⟩

@[simp] theorem pendantMessage_line_keeps (s : State) :
    (pendantMessage s).line.state = s.line.state ∧ (pendantMessage s).line.heat = s.line.heat
    ∧ (pendantMessage s).line.threadHeat = s.line.threadHeat ∧ (pendantMessage s).line.jog = s.line.jog
    ∧ (pendantMessage s).line.auth = s.line.auth ∧ (pendantMessage s).line.lockedAt = s.line.lockedAt
    ∧ (pendantMessage s).line.alarms = s.line.alarms :=
  ⟨rfl, rfl, rfl, rfl, rfl, rfl, rfl⟩

/-- The state after a pendant message whose effect has left `v`. -/
def keyEnd (s v : State) : State := announce false (s.line.pendant == .silent) s v

@[simp] theorem keyEnd_keeps (s v : State) :
    (keyEnd s v).mem = v.mem ∧ (keyEnd s v).line = v.line ∧ (keyEnd s v).lib = v.lib
    ∧ (keyEnd s v).pos = v.pos ∧ (keyEnd s v).trig = v.trig ∧ (keyEnd s v).ord = v.ord
    ∧ (keyEnd s v).reg = v.reg ∧ (keyEnd s v).heat = v.heat ∧ (keyEnd s v).dose = v.dose
    ∧ (keyEnd s v).tens = v.tens ∧ (keyEnd s v).lastReading = v.lastReading
    ∧ (keyEnd s v).walker = v.walker ∧ (keyEnd s v).host = v.host ∧ (keyEnd s v).drawn = v.drawn
    ∧ (keyEnd s v).pending = v.pending := by
  simp [keyEnd]

theorem keyEnd_reported (s v : State) : Reported 0 v (keyEnd s v) := .of_same

theorem heard_reported (s : State) : Reported 0 s (heard s) := .of_same

/-- A message from a SILENT pendant is answered with LAMPS (R18). -/
theorem keyEnd_lamps {s : State} (h : s.line.pendant = .silent) (v : State) :
    Message.lamps (lampSet (keyEnd s v)) ∈ (keyEnd s v).sent := by
  unfold keyEnd
  rw [(announce_views _ _ _ _).2, announce_sent]
  simp [h]

theorem exec_key {c : Instr} {f : State → State} {s : State} (he : exec c s = answerPendant f s) :
    exec c s = .next (keyEnd s (f (heard s))) := he

/-! ## The authority keys (R13) -/

/-- The rows of R13's table: key, authority before, whether it is refused, and authority after. -/
def authorityKeys (auth : Authority) : List (Instr × Authority × Bool × Authority) :=
  [ (Instr.keyTake, Authority.remote, false, Authority.localPendant),
    (.keyTake, .remoteLockout, true, .remoteLockout),
    (.keyTake, .localPendant, false, .localPendant), (.keyTake, .localHeld, false, .localHeld),
    (.keyGive, .remote, false, .remote), (.keyGive, .remoteLockout, false, .remoteLockout),
    (.keyGive, .localPendant, false, .remote), (.keyGive, .localHeld, false, .remote),
    (.keyKeep, .remote, true, .remote), (.keyKeep, .remoteLockout, true, .remoteLockout),
    (.keyKeep, .localPendant, false, .localHeld), (.keyKeep, .localHeld, false, .localHeld),
    (.alive, auth, false, auth) ]

/-- Every key of the table is refused with the LOCKED lamp, or sets the authority after it; a key to
REMOTE that changes it is GIVE, and ends the jog. -/
theorem authorityKey_answer {s : State} {c : Instr} {locked : Bool} {new : Authority}
    (h : (c, s.line.auth, locked, new) ∈ authorityKeys s.line.auth) :
    ∃ f, exec c s = answerPendant f s
      ∧ f (heard s) = (if locked = true then lightLocked (heard s) else setAuthority new 1 (heard s))
      ∧ (locked = true → new = s.line.auth)
      ∧ (new ≠ s.line.auth → ((isLocal (heard s) = true ∧ new = .remote) ↔ c = .keyGive)) := by
  have hauth : (heard s).line.auth = s.line.auth := rfl
  have hloc : isLocal (heard s) = isLocal s := rfl
  simp only [authorityKeys, List.mem_cons, Prod.mk.injEq, List.not_mem_nil, or_false] at h
  rcases h with ⟨rfl, ha, rfl, rfl⟩ | ⟨rfl, ha, rfl, rfl⟩ | ⟨rfl, ha, rfl, rfl⟩ | ⟨rfl, ha, rfl, rfl⟩ |
    ⟨rfl, ha, rfl, rfl⟩ | ⟨rfl, ha, rfl, rfl⟩ | ⟨rfl, ha, rfl, rfl⟩ | ⟨rfl, ha, rfl, rfl⟩ |
    ⟨rfl, ha, rfl, rfl⟩ | ⟨rfl, ha, rfl, rfl⟩ | ⟨rfl, ha, rfl, rfl⟩ | ⟨rfl, ha, rfl, rfl⟩ | ⟨rfl, _, rfl, rfl⟩
  case inr.inr.inr.inr.inr.inr.inr.inr.inr.inr.inr.inr =>
    exact ⟨_, rfl, by rw [if_neg Bool.false_ne_true, setAuthority_same hauth.symm]; rfl, by simp, by simp⟩
  all_goals
    refine ⟨_, rfl, ?_, ?_, ?_⟩ <;>
      simp [keyTake, keyGive, keyKeep, setAuthority, isLocal, ha]

end Sys2Proof.Machine

namespace Sys2Proof.Proofs

open Sys2Proof.Machine

theorem authorityKey {s : State} (wf : Memory.wf s.mem = true) {c : Instr} {locked : Bool}
    {new : Authority} (h : (c, s.line.auth, locked, new) ∈ authorityKeys s.line.auth) :
    ∃ t, exec c s = .next t
      ∧ t.line = { (pendantMessage s).line with
          auth := new,
          lockedAt := if locked = true then some s.host.clock else s.line.lockedAt,
          jog := if c = .keyGive ∧ new ≠ s.line.auth then .still else s.line.jog }
      ∧ t.dose = { s.dose with sCmd :=
          if c = .keyGive ∧ new ≠ s.line.auth ∧ s.line.state = .thread ∧ s.line.jog ≠ .still
          then 0 else s.dose.sCmd }
      ∧ (new = s.line.auth → t.mem = s.mem ∧ t.host = s.host)
      ∧ (new ≠ s.line.auth →
        NoticeShown .authority s.line.state (natWord s.line.auth.code) (natWord new.code) 1 s t
        ∧ t.host.written = s.host.written + 1 ∧ HostKept s t
        ∧ BytesKept (nextNoticeBytes s) s t)
      ∧ (s.line.pendant = .silent → Message.lamps (lampSet t) ∈ t.sent)
      ∧ ChangesOnly [.mem, .line, .dose, .host, .sent] s t := by
  obtain ⟨f, he, hf, hlocked, hgive⟩ := authorityKey_answer h
  refine ⟨_, exec_key he, ?_⟩
  rw [hf]
  by_cases hn : new = s.line.auth
  · subst hn
    cases locked
    · rw [if_neg Bool.false_ne_true, setAuthority_same (show s.line.auth = (heard s).line.auth from rfl)]
      refine ⟨by simp; rfl, by simp, by simp, by simp, fun hp => keyEnd_lamps hp _, ?_⟩
      exact .of_all (by simp [samePart])
    · rw [if_pos rfl]
      refine ⟨by simp [lightLocked], by simp, by simp, by simp, fun hp => keyEnd_lamps hp _, ?_⟩
      exact .of_all (by simp [samePart])
  · have hl : locked = false := by
      cases locked
      · rfl
      · exact absurd (hlocked rfl) hn
    rw [hl, if_neg Bool.false_ne_true]
    have ch := setAuthority_changed (s := heard s) (new := new) hn 1
    have hr : Reported 1 s (keyEnd s (setAuthority new 1 (heard s))) :=
      ((heard_reported s).after ch.reported).quiet (keyEnd_reported s _)
    refine ⟨?_, ?_, fun e => absurd e hn, fun _ => ⟨?_, hr.written, hr.host, ?_⟩,
      fun hp => keyEnd_lamps hp _, ?_⟩
    · rw [(keyEnd_keeps _ _).2.1, ch.line, jogAtAuthority]
      simp [hgive hn, hn]
    · rw [(keyEnd_keeps _ _).2.2.2.2.2.2.2.2.1, ch.dose]
      simp only [hgive hn, speedAtJogEnd, heard_line, pendantMessage_line_keeps, heard_keeps]
      by_cases hc : c = .keyGive <;> simp [hc, hn]
    · have := ((ch.notice wf).later (m := 1) (j := 0) ch.reported.written (by omega) (by omega)
        (keyEnd_reported s _)).alike (s := s) {}
      simpa using this
    · intro a ha
      rw [(keyEnd_keeps _ _).1]
      exact ch.bytes a ha
    · have : ChangesOnly [.mem, .line, .dose, .host, .sent] (clearSent s)
          (keyEnd s (setAuthority new 1 (heard s))) := by
        intro p hp
        have := ch.frame p
        revert this hp
        cases p <;> simp [samePart]
      exact this.of_clearSent (by decide)

/-- Settles O39. -/
theorem pendantAuthorityAndStop : Obligations.PendantAuthorityAndStop := by
  intro s wf
  refine ⟨fun c locked new h => authorityKey wf h, fun hs => ?_, fun hs => ?_⟩
  · have hf : keyStop (heard s) = enterState .hold .stopKey (heard s) := by simp [keyStop, hs]
    refine ⟨_, exec_key rfl, ?_⟩
    rw [hf]
    obtain ⟨k, _, _, hk⟩ := enterState_reported .hold .stopKey (heard s)
    refine ⟨?_, by simp [jogOf], ?_, ?_⟩
    · exact enterState_entered_later (v := heard s) wf (keyEnd_reported s _) (by omega)
        (by rw [(keyEnd_keeps _ _).2.1])
    · exact .of_all (by simp [samePart, lineParts])
    · exact (hk.quiet (keyEnd_reported s _)).logAndTickets
  · refine ⟨_, exec_key rfl, ?_⟩
    by_cases ht : s.line.state = .thread
    · have hf : keyStop (heard s) = setJog .still (heard s) := by simp [keyStop, ht]
      rw [hf, setJog_still]
      refine ⟨by simp [ht], ?_, fun hp => keyEnd_lamps hp _, .of_all (by simp [samePart])⟩
      simp [speedAtJogEnd]
    · have hf : keyStop (heard s) = heard s := by
        cases h : s.line.state <;> simp_all [keyStop]
      rw [hf]
      refine ⟨by simp [ht]; rfl, by simp [ht], fun hp => keyEnd_lamps hp _, .of_all (by simp [samePart])⟩

end Sys2Proof.Proofs
end

