-- ==== Sys2Proof/Proofs/Alarms.lean ====
section
/-! PROOFS. The alarm records through an entry, and the raise of an alarm (R5 to R7). -/

-- One thread for the whole file: each waiting thread reserves its stack.
set_option Elab.async false

namespace Sys2Proof.Machine

/-! ## Conditions ended -/

/-- Between two states the conditions of some alarms have ended, and no alarm record has changed else. -/
def EndsOnly (l : List Alarm) (s t : State) : Prop :=
  ∀ b, alarmRec t b = { alarmRec s b with active := (alarmRec s b).active && !l.contains b }

theorem EndsOnly.of_same {s t : State} (h : t.line.alarms = s.line.alarms) : EndsOnly [] s t := by
  intro b
  simp [alarmRec, h]

theorem EndsOnly.trans {l m : List Alarm} {s t u : State} (h1 : EndsOnly l s t) (h2 : EndsOnly m t u) :
    EndsOnly (l ++ m) s u := by
  intro b
  rw [h2 b, h1 b]
  simp [Bool.and_assoc]

theorem EndsOnly.congr {l m : List Alarm} {s t : State} (h : EndsOnly l s t) (hm : ∀ b, b ∈ l ↔ b ∈ m) :
    EndsOnly m s t := by
  intro b
  have hb : l.contains b = m.contains b := by
    rw [Bool.eq_iff_iff, List.contains_iff_mem, List.contains_iff_mem, hm]
  rw [h b, hb]

theorem endCondition_endsOnly (a : Alarm) (s : State) : EndsOnly [a] s (endCondition a s) := by
  intro b
  unfold endCondition
  by_cases h : a = b
  · subst h
    simp
  · rw [alarmRec_setAlarm_other h]
    simp [Ne.symm h]

/-- An alarm whose condition does not end keeps its record. -/
theorem EndsOnly.keeps {l : List Alarm} {s t : State} (h : EndsOnly l s t) {a : Alarm} (ha : a ∉ l) :
    alarmRec t a = alarmRec s a := by
  rw [h a]
  simp [ha]

theorem EndsOnly.latched {l : List Alarm} {s t : State} (h : EndsOnly l s t) (a : Alarm) :
    latched t a = latched s a := by
  unfold Machine.latched
  rw [h a]

theorem EndsOnly.conditionActive {l : List Alarm} {s t : State} (h : EndsOnly l s t) (a : Alarm) :
    conditionActive t a = (conditionActive s a && !l.contains a) := by
  unfold Machine.conditionActive
  rw [h a]

/-- The conditions that an entry ends: the heat unit's when the heat enable goes off, the order unit's and
the tension unit's by the state entered (R72, R103, R141). -/
def entryEnds (new : LineState) (had : Bool) : List Alarm :=
  (if had && !heatOf new had then [.zoneOvertemp, .zoneSensorLost, .zonePairLost] else [])
  ++ (match new with
    | .cold | .thread | .halt => [.storeLow, .storeEmpty]
    | .warm | .ready | .run | .hold => [])
  ++ (match new with
    | .cold | .thread | .warm | .halt => [.webBreak]
    | .ready | .run | .hold => [])

theorem heatAnswer_endsOnly (had : Bool) (s : State) : EndsOnly
    (if had && !s.line.heat then [.zoneOvertemp, .zoneSensorLost, .zonePairLost] else []) s
    (heatAnswer had s) := by
  unfold heatAnswer
  split
  · unfold heatOff
    exact (((EndsOnly.of_same (by simp)).trans (endCondition_endsOnly _ _)).trans
      (endCondition_endsOnly _ _)).trans (endCondition_endsOnly _ _)
  · exact .of_same rfl

theorem storeAnswer_endsOnly (new : LineState) (s : State) : EndsOnly
    (match new with
    | .cold | .thread | .halt => [.storeLow, .storeEmpty]
    | .warm | .ready | .run | .hold => []) s (storeAnswer new s) := by
  have h := (endCondition_endsOnly .storeLow s).trans (endCondition_endsOnly .storeEmpty _)
  cases new
  case cold | thread | halt => exact h
  all_goals exact .of_same rfl

theorem tensionAnswer_endsOnly (new : LineState) (s : State) : EndsOnly
    (match new with
    | .cold | .thread | .warm | .halt => [.webBreak]
    | .ready | .run | .hold => []) s (tensionAnswer new s) := by
  have ha : ∀ u : State, EndsOnly [] u (abortAutos 4 u) := fun u => .of_same (by simp)
  have hb : ∀ u : State, EndsOnly [.webBreak] u (endBreak u) := fun u =>
    (EndsOnly.of_same (t := mapTension (fun t => { t with breakCount := 0 }) u) (by simp)).trans
      (endCondition_endsOnly _ _)
  have hc : EndsOnly [] s (coldTargets s) := .of_same (by simp)
  cases new
  case cold => exact (hc.trans (hb _)).trans (ha _)
  case thread | warm | halt => exact (hb s).trans (ha _)
  all_goals exact ha _

theorem enterState_endsOnly (new : LineState) (cause : LineCause) (s : State) :
    EndsOnly (entryEnds new s.line.heat) s (enterState new cause s) := by
  have h1 : EndsOnly [] s (haltCause new (writeNotice .lineState (natWord s.line.state.code)
      (natWord new.code) cause.word (setLineState new s))) := .of_same (by simp)
  have h2 := heatAnswer_endsOnly s.line.heat (haltCause new (writeNotice .lineState
    (natWord s.line.state.code) (natWord new.code) cause.word (setLineState new s)))
  have h3 : ∀ u : State, EndsOnly [] u (speedAnswer new (wrapAnswer s.line.state new u)) :=
    fun u => .of_same (by simp)
  have h4 : ∀ u : State, EndsOnly [] u (printTest u) := fun u => .of_same (by simp)
  have h := ((((h1.trans h2).trans (h3 _)).trans (storeAnswer_endsOnly new _)).trans
    (tensionAnswer_endsOnly new _)).trans (h4 _)
  refine EndsOnly.congr h fun b => ?_
  simp [entryEnds]

/-! ## Entries that start no print -/

theorem printTest_quiet {s : State} (h : s.line.state ≠ .run) : printTest s = s := by
  unfold printTest printReady
  simp [h]

theorem moveWrap_ord (w : WrapState) (c : WrapCommand) (s : State) : (moveWrap w c s).ord =
    { s.ord with panels := (moveWrap w c s).ord.panels } := rfl

theorem wrapAnswer_ord (old new : LineState) (s : State) : (wrapAnswer old new s).ord =
    { s.ord with panels := (wrapAnswer old new s).ord.panels } := by
  rcases wrapAnswer_cases old new s with he | ⟨w, c, _, _, he⟩ <;> rw [he]
  exact moveWrap_ord w c s

/-- An entry to any state but RUN changes nothing of the order unit but the marks of its records. -/
theorem enterState_ord {new : LineState} (h : new ≠ .run) (cause : LineCause) (s : State) :
    (enterState new cause s).ord = { s.ord with panels := (enterState new cause s).ord.panels }
    ∧ (enterState new cause s).ord.panels.length = s.ord.panels.length := by
  have hst : (tensionAnswer new (storeAnswer new (speedAnswer new (entryWrap new cause s)))).line.state
      = new := by
    rw [(tensionAnswer_line _ _).1, (storeAnswer_line _ _).1]
    simp [entryWrap, entryHead, heatAnswer_line_keeps]
  have he : (enterState new cause s).ord = (entryWrap new cause s).ord := by
    rw [enterState_eq, entryTail, printTest_quiet (by rw [← entryWrap, hst]; exact h)]
    simp [entryWrap]
  have hhead : (entryHead new cause s).ord = s.ord := by simp [entryHead]
  rw [he]
  refine ⟨?_, ?_⟩
  · rw [entryWrap, wrapAnswer_ord, hhead]
  · rw [entryWrap]
    rcases wrapAnswer_cases s.line.state new (entryHead new cause s) with he | ⟨w, c, _, _, he⟩ <;> rw [he]
    · rw [hhead]
    · rw [show (moveWrap w c (entryHead new cause s)).ord.panels.length
        = (entryHead new cause s).ord.panels.length by simp [moveWrap, markInterrupted, mapPanels], hhead]

/-- An entry either leaves the wrap's state and watch or moves the felt with a fresh watch (R118, R119). -/
theorem enterState_watch (new : LineState) (cause : LineCause) (s : State) :
    ((enterState new cause s).dose.wrap = s.dose.wrap ∧ (enterState new cause s).dose.watch = s.dose.watch)
    ∨ ((enterState new cause s).dose.wrap ≠ s.dose.wrap
      ∧ (enterState new cause s).dose.watch = some (s.host.clock + 5000)) := by
  have hw : ∀ u : State, (speedAnswer new u).dose.watch = u.dose.watch := fun u => by cases new <;> rfl
  have hd : (entryHead new cause s).dose = s.dose := by simp
  have hc : (entryHead new cause s).host.clock = s.host.clock := (entryHead_ports new cause s).clock
  rw [enterState_eq]
  simp only [entryTail_keeps, speedAnswer_wrap, hw]
  rcases wrapAnswer_cases s.line.state new (entryHead new cause s) with he | ⟨w, c, h1, _, he⟩ <;> rw [he]
  · exact .inl ⟨by rw [hd], by rw [hd]⟩
  · rw [moveWrap_dose]
    exact .inr ⟨by rw [← hd]; exact h1, by rw [hc]⟩

/-! ## The raise of an alarm (R5) -/

/-- The alarm latched and active, and its notice written, before its line request acts. -/
def raised (a : Alarm) (d1 d2 : Word) (s : State) : State :=
  writeNotice .alarmRaised (natWord a.number) d1 d2 (setAlarm a ⟨true, true⟩ s)

theorem raiseAlarm_again {a : Alarm} {s : State} (h : alarmRec s a = ⟨true, true⟩) (d1 d2 : Word) :
    raiseAlarm a d1 d2 s = s := by
  unfold raiseAlarm
  simp [h]

theorem raiseAlarm_new {a : Alarm} {s : State} (h : alarmRec s a ≠ ⟨true, true⟩) (d1 d2 : Word) :
    raiseAlarm a d1 d2 s = applyRequest a (raised a d1 d2 s) := by
  rcases raiseAlarm_cases a d1 d2 s with ⟨h1, h2, _⟩ | ⟨_, he⟩
  · refine absurd ?_ h
    cases hr : alarmRec s a
    rw [hr] at h1 h2
    exact AlarmRec.mk.injEq .. ▸ ⟨h1, h2⟩
  · exact he

@[simp] theorem raised_keeps (a : Alarm) (d1 d2 : Word) (s : State) :
    (raised a d1 d2 s).lib = s.lib ∧ (raised a d1 d2 s).pos = s.pos ∧ (raised a d1 d2 s).trig = s.trig
    ∧ (raised a d1 d2 s).ord = s.ord ∧ (raised a d1 d2 s).reg = s.reg ∧ (raised a d1 d2 s).heat = s.heat
    ∧ (raised a d1 d2 s).dose = s.dose ∧ (raised a d1 d2 s).tens = s.tens
    ∧ (raised a d1 d2 s).lastReading = s.lastReading ∧ (raised a d1 d2 s).walker = s.walker
    ∧ (raised a d1 d2 s).sent = s.sent ∧ (raised a d1 d2 s).drawn = s.drawn
    ∧ (raised a d1 d2 s).pending = s.pending := by
  simp [raised]

theorem raised_line (a : Alarm) (d1 d2 : Word) (s : State) :
    (raised a d1 d2 s).line = { s.line with alarms := (raised a d1 d2 s).line.alarms } := rfl

@[simp] theorem raised_line_keeps (a : Alarm) (d1 d2 : Word) (s : State) :
    (raised a d1 d2 s).line.state = s.line.state ∧ (raised a d1 d2 s).line.heat = s.line.heat
    ∧ (raised a d1 d2 s).line.threadHeat = s.line.threadHeat
    ∧ (raised a d1 d2 s).line.jog = s.line.jog ∧ (raised a d1 d2 s).line.auth = s.line.auth
    ∧ (raised a d1 d2 s).line.speedClass = s.line.speedClass
    ∧ (raised a d1 d2 s).line.classLock = s.line.classLock
    ∧ (raised a d1 d2 s).line.fabric = s.line.fabric ∧ (raised a d1 d2 s).line.marks = s.line.marks
    ∧ (raised a d1 d2 s).line.lockedAt = s.line.lockedAt
    ∧ (raised a d1 d2 s).line.pendant = s.line.pendant
    ∧ (raised a d1 d2 s).line.pendantAt = s.line.pendantAt ∧ (raised a d1 d2 s).line.link = s.line.link
    ∧ (raised a d1 d2 s).line.linkWatch = s.line.linkWatch
    ∧ (raised a d1 d2 s).line.drive = s.line.drive
    ∧ (raised a d1 d2 s).line.chainOpen = s.line.chainOpen :=
  ⟨rfl, rfl, rfl, rfl, rfl, rfl, rfl, rfl, rfl, rfl, rfl, rfl, rfl, rfl, rfl, rfl⟩

@[simp] theorem raised_same (a : Alarm) (d1 d2 : Word) (s : State) :
    alarmRec (raised a d1 d2 s) a = ⟨true, true⟩ := alarmRec_setAlarm_same a _ s

theorem raised_other {a b : Alarm} (h : a ≠ b) (d1 d2 : Word) (s : State) :
    alarmRec (raised a d1 d2 s) b = alarmRec s b := alarmRec_setAlarm_other h _ s

theorem raised_reported (a : Alarm) (d1 d2 : Word) (s : State) : Reported 1 s (raised a d1 d2 s) :=
  Reported.after (t := setAlarm a ⟨true, true⟩ s) (.of_same) (writeNotice_reported _ _ _ _ _)

theorem raised_notice {s : State} (wf : Memory.wf s.mem = true) (a : Alarm) (d1 d2 : Word) :
    NoticeShown .alarmRaised s.line.state (natWord a.number) d1 d2 s (raised a d1 d2 s) :=
  writeNotice_shown (s := setAlarm a ⟨true, true⟩ s) wf _ _ _ _

theorem raised_bytes (a : Alarm) (d1 d2 : Word) (s : State) :
    BytesKept (nextNoticeBytes s) s (raised a d1 d2 s) :=
  writeNotice_bytes _ _ _ _ (setAlarm a ⟨true, true⟩ s)

/-- An alarm with a HALT request takes the line to HALT from every other state (R7). -/
theorem applyRequest_halt {a : Alarm} (h : a.request = .halt) (s : State) : applyRequest a s =
    if s.line.state = .halt then s else enterState .halt (.request a) s := by
  unfold applyRequest
  rw [h]

/-- The conditions that an entry may end. -/
theorem mem_entryEnds {new : LineState} {had : Bool} {a : Alarm} (h : a ∈ entryEnds new had) :
    a ∈ [Alarm.zoneOvertemp, .zoneSensorLost, .zonePairLost, .storeLow, .storeEmpty, .webBreak] := by
  revert h
  cases new <;> cases had <;> simp [entryEnds, heatOf] <;> grind

/-- What a raise of an alarm with a HALT request leaves in the alarm records and the line state. -/
theorem raiseAlarm_halt {a : Alarm} (h : a.request = .halt) (ha : a ∉ [Alarm.zoneOvertemp, .zoneSensorLost,
      .zonePairLost, .storeLow, .storeEmpty, .webBreak]) (d1 d2 : Word) (s : State) :
    alarmRec (raiseAlarm a d1 d2 s) a = ⟨true, true⟩
    ∧ (∀ b, b ≠ a → latched (raiseAlarm a d1 d2 s) b = latched s b)
    ∧ (alarmRec s a ≠ ⟨true, true⟩ → (raiseAlarm a d1 d2 s).line.state = .halt) := by
  by_cases hr : alarmRec s a = ⟨true, true⟩
  · rw [raiseAlarm_again hr]
    exact ⟨hr, fun _ _ => rfl, fun hn => absurd hr hn⟩
  · have hl : ∀ b, b ≠ a → latched (raised a d1 d2 s) b = latched s b := fun b hb => by
      unfold latched
      rw [raised_other hb.symm]
    rw [raiseAlarm_new hr, applyRequest_halt h]
    split
    · next hs => exact ⟨raised_same a d1 d2 s, hl, fun _ => hs⟩
    · have he := enterState_endsOnly .halt (.request a) (raised a d1 d2 s)
      refine ⟨?_, fun b hb => (he.latched b).trans (hl b hb), fun _ => enterState_state _ _ _⟩
      rw [he.keeps fun hm => ha (mem_entryEnds hm), raised_same]

@[simp] theorem raiseAlarm_line_keeps (a : Alarm) (d1 d2 : Word) (s : State) :
    (raiseAlarm a d1 d2 s).line.auth = s.line.auth
    ∧ (raiseAlarm a d1 d2 s).line.speedClass = s.line.speedClass
    ∧ (raiseAlarm a d1 d2 s).line.classLock = s.line.classLock
    ∧ (raiseAlarm a d1 d2 s).line.fabric = s.line.fabric
    ∧ (raiseAlarm a d1 d2 s).line.marks = s.line.marks
    ∧ (raiseAlarm a d1 d2 s).line.lockedAt = s.line.lockedAt
    ∧ (raiseAlarm a d1 d2 s).line.pendant = s.line.pendant
    ∧ (raiseAlarm a d1 d2 s).line.pendantAt = s.line.pendantAt
    ∧ (raiseAlarm a d1 d2 s).line.link = s.line.link
    ∧ (raiseAlarm a d1 d2 s).line.linkWatch = s.line.linkWatch
    ∧ (raiseAlarm a d1 d2 s).line.drive = s.line.drive
    ∧ (raiseAlarm a d1 d2 s).line.chainOpen = s.line.chainOpen := by
  by_cases hr : alarmRec s a = ⟨true, true⟩
  · rw [raiseAlarm_again hr]
    simp
  · rw [raiseAlarm_new hr]
    rcases applyRequest_cases a (raised a d1 d2 s) with he | ⟨_, _, he⟩ | ⟨_, _, he⟩ | ⟨_, _, he⟩ <;>
      rw [he] <;> simp

/-- A raise leaves the wrap's state and watch, or moves the felt with a fresh watch (R118). -/
theorem raiseAlarm_watch (a : Alarm) (d1 d2 : Word) (s : State) :
    ((raiseAlarm a d1 d2 s).dose.wrap = s.dose.wrap ∧ (raiseAlarm a d1 d2 s).dose.watch = s.dose.watch)
    ∨ ((raiseAlarm a d1 d2 s).dose.wrap ≠ s.dose.wrap
      ∧ (raiseAlarm a d1 d2 s).dose.watch = some (s.host.clock + 5000)) := by
  by_cases hr : alarmRec s a = ⟨true, true⟩
  · rw [raiseAlarm_again hr]
    exact .inl ⟨rfl, rfl⟩
  · rw [raiseAlarm_new hr]
    have h : ∀ new cause, _ := fun new cause => enterState_watch new cause (raised a d1 d2 s)
    have hc : (raised a d1 d2 s).host.clock = s.host.clock := (raised_reported a d1 d2 s).host.clock
    simp only [raised_keeps, hc] at h
    rcases applyRequest_cases a (raised a d1 d2 s) with he | ⟨_, _, he⟩ | ⟨_, _, he⟩ | ⟨_, _, he⟩ <;>
      rw [he]
    · simp
    all_goals exact h _ _

/-- A line request writes two notices at most, the first of an entry. -/
theorem applyRequest_reported (a : Alarm) (s : State) :
    ∃ k, k ≤ 2 ∧ Reported k s (applyRequest a s) := by
  have h : ∀ new cause, ∃ k, k ≤ 2 ∧ Reported k s (enterState new cause s) := fun new cause => by
    obtain ⟨k, _, h2, hk⟩ := enterState_reported new cause s
    exact ⟨k, h2, hk⟩
  rcases applyRequest_cases a s with he | ⟨_, _, he⟩ | ⟨_, _, he⟩ | ⟨_, _, he⟩ <;> rw [he]
  · exact ⟨0, by omega, .rfl s⟩
  all_goals exact h _ _

theorem raiseAlarm_reported (a : Alarm) (d1 d2 : Word) (s : State) :
    ∃ k, k ≤ 3 ∧ Reported k s (raiseAlarm a d1 d2 s) := by
  by_cases hr : alarmRec s a = ⟨true, true⟩
  · rw [raiseAlarm_again hr]
    exact ⟨0, by omega, .rfl s⟩
  · rw [raiseAlarm_new hr]
    obtain ⟨k, hk, h⟩ := applyRequest_reported a (raised a d1 d2 s)
    exact ⟨1 + k, by omega, (raised_reported a d1 d2 s).trans h⟩

/-- A raise with an effect shows its notice (R5). -/
theorem raiseAlarm_notice {a : Alarm} {s : State} (h : alarmRec s a ≠ ⟨true, true⟩)
    (wf : Memory.wf s.mem = true) (d1 d2 : Word) : NoticeShown .alarmRaised s.line.state
      (natWord a.number) d1 d2 s (raiseAlarm a d1 d2 s) := by
  rw [raiseAlarm_new h]
  obtain ⟨k, hk, hr⟩ := applyRequest_reported a (raised a d1 d2 s)
  exact (raised_notice wf a d1 d2).later (raised_reported a d1 d2 s).written (by omega) (by omega) hr

/-- A raise touches the parts of an entry alone. -/
theorem raiseAlarm_changesOnly (a : Alarm) (d1 d2 : Word) (s : State) :
    ChangesOnly lineParts s (raiseAlarm a d1 d2 s) := .of_all (by simp [samePart, lineParts])

end Sys2Proof.Machine
end

