-- ==== Sys2Proof/Proofs/EstopAndDeadlines.lean ====
section
/-! PROOFS. The E-stop chain (R17) and the deadlines of the line clock (R18, R20, R54, R111, R120). -/

-- One thread for the whole file: each waiting thread reserves its stack.
set_option Elab.async false

namespace Sys2Proof.Machine

/-! ## How a plain command is answered -/

/-- The state after a plain command whose effect has left `v`. -/
def ended (s v : State) : State := announce false false s v

@[simp] theorem ended_keeps (s v : State) :
    (ended s v).mem = v.mem ∧ (ended s v).line = v.line ∧ (ended s v).lib = v.lib
    ∧ (ended s v).pos = v.pos ∧ (ended s v).trig = v.trig ∧ (ended s v).ord = v.ord
    ∧ (ended s v).reg = v.reg ∧ (ended s v).heat = v.heat ∧ (ended s v).dose = v.dose
    ∧ (ended s v).tens = v.tens ∧ (ended s v).lastReading = v.lastReading
    ∧ (ended s v).walker = v.walker ∧ (ended s v).host = v.host ∧ (ended s v).drawn = v.drawn
    ∧ (ended s v).pending = v.pending := by
  simp [ended]

theorem ended_reported (s v : State) : Reported 0 v (ended s v) := .of_same

theorem exec_ended {c : Instr} {f : State → State} {s : State} (he : exec c s = answer f s) :
    exec c s = .next (ended s (f (clearSent s))) := he

/-- A command that moves no carried value and no lamp leaves just its effect. -/
theorem exec_quiet {c : Instr} {f : State → State} {s : State} (he : exec c s = answer f s)
    (frame : frameOf (f (clearSent s)) = frameOf s) (lamps : lampSet (f (clearSent s)) = lampSet s) :
    exec c s = .next (f (clearSent s)) := by
  rw [he, answer, announce_quiet frame lamps]

theorem clearSent_reported (s : State) : Reported 0 s (clearSent s) := .of_same

theorem alarmRec_congr {s t : State} (h : t.line.alarms = s.line.alarms) (a : Alarm) :
    alarmRec t a = alarmRec s a := by
  unfold alarmRec
  rw [h]

/-! ## A HALT request -/

/-- What a raise of an alarm with a HALT request leaves where it takes the line to HALT (R7). -/
structure TakenToHalt (s t : State) : Prop where
  heat : t.line.heat = false
  jog : t.line.jog = .still
  speed : t.dose.sCmd = 0
  cause : causeSet t .halt = true
  zones : s.line.heat = true → ∀ k : Fin 8,
    t.heat.zones[k].state = .off ∧ t.heat.zones[k].heater = false
  wrap : t.dose.wrap = (if s.line.state = .run
    ∧ (s.dose.wrap = .closing ∨ s.dose.wrap = .closed) then .opening else s.dose.wrap)
  kept : t.line.auth = s.line.auth ∧ t.line.fabric = s.line.fabric ∧ t.line.speedClass = s.line.speedClass
  orders : t.ord.orders = s.ord.orders ∧ t.ord.entries = s.ord.entries
    ∧ t.ord.panels.length = s.ord.panels.length

theorem enterState_takenToHalt (cause : LineCause) (s : State) :
    TakenToHalt s (enterState .halt cause s) := by
  obtain ⟨ho, hl⟩ := enterState_ord (new := .halt) (by decide) cause s
  obtain ⟨u, hu⟩ := enterState_reports .halt cause s
  refine ⟨by simp [heatOf], by simp [jogOf], by simp [enterState_speed], hu.halt rfl, fun h k => ?_, ?_,
    by simp, by rw [ho], by rw [ho], hl⟩
  · rw [enterState_heat, if_pos ⟨h, rfl⟩]
    simp [Zone.shutOff]
  · rw [enterState_wrap]
    simp

end Sys2Proof.Machine

namespace Sys2Proof.Proofs

open Sys2Proof.Machine

/-- The chain opened. -/
def chainOpened (s : State) : State :=
  { clearSent s with line := { s.line with chainOpen := true } }

@[simp] theorem chainOpened_keeps (s : State) :
    (chainOpened s).line = { s.line with chainOpen := true } ∧ (chainOpened s).mem = s.mem
    ∧ (chainOpened s).lib = s.lib ∧ (chainOpened s).pos = s.pos ∧ (chainOpened s).trig = s.trig
    ∧ (chainOpened s).ord = s.ord ∧ (chainOpened s).reg = s.reg ∧ (chainOpened s).heat = s.heat
    ∧ (chainOpened s).dose = s.dose ∧ (chainOpened s).tens = s.tens
    ∧ (chainOpened s).lastReading = s.lastReading ∧ (chainOpened s).walker = s.walker
    ∧ (chainOpened s).host = s.host ∧ (chainOpened s).drawn = s.drawn
    ∧ (chainOpened s).pending = s.pending ∧ (chainOpened s).sent = [] :=
  ⟨rfl, rfl, rfl, rfl, rfl, rfl, rfl, rfl, rfl, rfl, rfl, rfl, rfl, rfl, rfl, rfl⟩

theorem openChain_eq (s : State) : openChain (clearSent s) = raiseAlarm .estop 0 0 (chainOpened s) := rfl

theorem estopOpen_raises {s : State} (h : alarmRec s .estop ≠ ⟨true, true⟩) (wf : Memory.wf s.mem = true) :
    ∃ t, exec .estopOpen s = .next t ∧ t.line.chainOpen = true
      ∧ alarmRec t .estop = ⟨true, true⟩ ∧ t.line.state = .halt
      ∧ (∀ a, a ≠ .estop → latched t a = latched s a)
      ∧ NoticeShown .alarmRaised s.line.state 1 0 0 s t
      ∧ (s.line.state = .halt → ChangesOnly [.mem, .line, .host, .sent] s t
        ∧ t.host.written = s.host.written + 1
        ∧ t.line = { s.line with chainOpen := true, alarms := t.line.alarms })
      ∧ (s.line.state ≠ .halt → t.line.heat = false ∧ t.line.jog = .still ∧ t.dose.sCmd = 0
        ∧ causeSet t .halt = true
        ∧ (s.line.heat = true → ∀ k : Fin 8,
          t.heat.zones[k].state = .off ∧ t.heat.zones[k].heater = false)
        ∧ t.dose.wrap = (if s.line.state = .run
            ∧ (s.dose.wrap = .closing ∨ s.dose.wrap = .closed) then .opening else s.dose.wrap)
        ∧ t.line.auth = s.line.auth ∧ t.line.fabric = s.line.fabric
        ∧ t.line.speedClass = s.line.speedClass ∧ t.ord.orders = s.ord.orders
        ∧ t.ord.entries = s.ord.entries ∧ t.ord.panels.length = s.ord.panels.length
        ∧ ChangesOnly lineParts s t)
      ∧ LogAndTicketsOnly s t := by
  have hc : alarmRec (chainOpened s) .estop ≠ ⟨true, true⟩ := h
  obtain ⟨h1, h2, h3⟩ := raiseAlarm_halt (a := .estop) rfl (by decide) 0 0 (chainOpened s)
  have hnew := raiseAlarm_new hc 0 0
  rw [applyRequest_halt rfl] at hnew
  have hr : Reported 1 s (raised .estop 0 0 (chainOpened s)) :=
    Reported.after (t := chainOpened s) (.of_same) (raised_reported .estop 0 0 _)
  have hnotice := (raised_notice (s := chainOpened s) wf .estop 0 0).alike (s := s) ⟨rfl, rfl, rfl, rfl⟩
  refine ⟨_, exec_ended rfl, ?_⟩
  rw [openChain_eq]
  have hline : (ended s (raiseAlarm .estop 0 0 (chainOpened s))).line
      = (raiseAlarm .estop 0 0 (chainOpened s)).line := by simp
  obtain ⟨k, hk, hrep⟩ := raiseAlarm_reported .estop 0 0 (chainOpened s)
  have hfrom : Reported k s (ended s (raiseAlarm .estop 0 0 (chainOpened s))) :=
    (Reported.after (t := chainOpened s) (.of_same) hrep).quiet (ended_reported s _)
  refine ⟨?_, (alarmRec_congr (by rw [hline]) _).trans h1, by rw [hline]; exact h3 hc,
    fun a ha => (latched_congr (by rw [hline]) a).trans (h2 a ha), ?_, fun hs => ?_, fun hs => ?_,
    hfrom.logAndTickets⟩
  · rw [hline, hnew]
    split <;> simp
  · exact ((raiseAlarm_notice hc wf 0 0).quiet (ended_reported s _)).alike ⟨rfl, rfl, rfl, rfl⟩
  · rw [hnew, if_pos (by simpa using hs)]
    refine ⟨.of_all (by simp [samePart]), ?_, ?_⟩
    · simpa using hr.written
    · rw [(ended_keeps _ _).2.1, raised_line, (chainOpened_keeps s).1]
  · rw [hnew, if_neg (by simpa using hs)]
    obtain ⟨g1, g2, g3, g4, g5, g6, ⟨g7, g8, g9⟩, g10, g11, g12⟩ :=
      enterState_takenToHalt (.request .estop) (raised .estop 0 0 (chainOpened s))
    refine ⟨?_, ?_, ?_, ?_, ?_, ?_, ?_, ?_, ?_, ?_, ?_, ?_, .of_all (by simp [samePart, lineParts])⟩
    · simpa using g1
    · simpa using g2
    · simpa using g3
    · exact (ended_reported s _).causes _ g4
    · simpa using g5
    · simpa using g6
    · simp
    · simp
    · simp
    · simpa using g10
    · simpa using g11
    · simpa using g12

/-- Settles O41. -/
theorem estopChain : Obligations.EstopChain := by
  intro s
  refine ⟨fun h => ?_, fun h wf => estopOpen_raises h wf, ?_⟩
  · have he : openChain (clearSent s) = chainOpened s := by
      rw [openChain_eq]
      exact raiseAlarm_again (s := chainOpened s) h 0 0
    rw [exec_quiet (f := openChain) rfl (by rw [he]; rfl) (by rw [he]; rfl), he]
    rfl
  · have he := endCondition_endsOnly .estop
      { clearSent s with line := { s.line with chainOpen := false } }
    refine ⟨closeChain (clearSent s), exec_quiet rfl rfl rfl, rfl, ?_, fun a ha => ?_,
      .of_all (by simp [samePart]), rfl⟩
    · refine Eq.trans (he .estop) ?_
      simp [alarmRec, latched]
    · exact he.keeps (by simpa using ha)

/-! ## The deadlines -/

/-- The state without its messages, as the statements write it. -/
theorem clearSent_eq (s : State) : clearSent s = { s with sent := [] } := rfl

theorem lampDue_iff (s : State) :
    lampDue s = true ↔ ∃ t0, s.line.lockedAt = some t0 ∧ 2000 ≤ (s.host.clock - t0).toNat := by
  unfold lampDue
  cases s.line.lockedAt <;> simp

theorem silenceDue_iff (s : State) : silenceDue s = true ↔
    s.line.pendant = .present ∧ 500 ≤ (s.host.clock - s.line.pendantAt).toNat := by
  unfold silenceDue
  rw [Bool.and_eq_true, beq_iff_eq, decide_eq_true_eq]

theorem linkDue_iff (s : State) :
    linkDue s = true ↔ ∃ w, s.line.linkWatch = some w ∧ 0 ≤ sdiff s.host.clock w := by
  unfold linkDue reached
  cases s.line.linkWatch <;> simp

theorem watchDue_iff (s : State) : watchDue s = true ↔ (s.dose.wrap = .closing ∨ s.dose.wrap = .opening)
    ∧ ∃ d, s.dose.watch = some d ∧ 0 ≤ sdiff s.host.clock d := by
  unfold watchDue reached
  cases s.dose.watch <;> simp

theorem pulseDue_iff (clock : Word) (l : Latch) :
    pulseDue clock l = true ↔ ∃ e, l.pulseEnd = some e ∧ 0 ≤ sdiff clock e := by
  unfold pulseDue reached
  cases l.pulseEnd <;> simp

theorem onEndDue_iff (clock : Word) (z : Zone) :
    onEndDue clock z = true ↔ z.heater = true ∧ ∃ e, z.onEnd = some e ∧ 0 ≤ sdiff clock e := by
  unfold onEndDue reached
  cases z.onEnd <;> simp

/-- A deadline that is not due does nothing. -/
theorem exec_not_due {c : Instr} {f : State → State} {s : State} (he : exec c s = answer f s)
    (h : f (clearSent s) = clearSent s) : exec c s = .next { s with sent := [] } := by
  rw [he]
  exact answer_unchanged h

/-- The watch of the drive link runs out (R20). -/
theorem linkWatch_expires {s : State} (h : linkDue s = true) :
    ∃ t, exec .driveLinkWatchExpiry s = .next t ∧ t.line.link = .lost ∧ t.line.linkWatch = none
      ∧ alarmRec t .driveLinkLost = ⟨true, true⟩ ∧ t.line.drive = s.line.drive
      ∧ (alarmRec s .driveLinkLost ≠ ⟨true, true⟩ → t.line.state = .halt)
      ∧ t.reg = s.reg ∧ ChangesOnly lineParts s t := by
  have hf : loseLink (clearSent s) = raiseAlarm .driveLinkLost 0 0
      { clearSent s with line := { s.line with link := .lost, linkWatch := none } } := if_pos h
  obtain ⟨h1, _, h3⟩ := raiseAlarm_halt (a := .driveLinkLost) rfl (by decide) 0 0
    { clearSent s with line := { s.line with link := .lost, linkWatch := none } }
  refine ⟨_, exec_ended rfl, ?_⟩
  rw [hf]
  refine ⟨by simp, by simp, (alarmRec_congr (by simp) _).trans h1, by simp, fun hn => ?_, by simp,
    .of_all (by simp [samePart, lineParts])⟩
  rw [(ended_keeps _ _).2.1]
  exact h3 hn

/-- The watch of the wrap runs out (R120). -/
theorem wrapWatch_expires {s : State} (h : watchDue s = true) :
    ∃ t, exec .wrapTimeout s = .next t ∧ t.dose.watch.isSome = (decide (t.dose.wrap ≠ s.dose.wrap))
      ∧ alarmRec t .wrapTimeout = ⟨true, true⟩
      ∧ (alarmRec s .wrapTimeout ≠ ⟨true, true⟩ → t.line.state = .halt)
      ∧ ChangesOnly lineParts s t := by
  have hf : wrapExpiry (clearSent s) = raiseAlarm .wrapTimeout (natWord s.dose.wrap.code) 0
      { clearSent s with dose := { s.dose with watch := none } } := if_pos h
  obtain ⟨h1, _, h3⟩ := raiseAlarm_halt (a := .wrapTimeout) rfl (by decide) (natWord s.dose.wrap.code) 0
    { clearSent s with dose := { s.dose with watch := none } }
  refine ⟨_, exec_ended rfl, ?_⟩
  rw [hf]
  refine ⟨?_, (alarmRec_congr (by simp) _).trans h1, fun hn => ?_, .of_all (by simp [samePart, lineParts])⟩
  · rw [(ended_keeps _ _).2.2.2.2.2.2.2.2.1]
    rcases raiseAlarm_watch .wrapTimeout (natWord s.dose.wrap.code) 0
      { clearSent s with dose := { s.dose with watch := none } } with ⟨hw, hd⟩ | ⟨hw, hd⟩
    · rw [hd, decide_eq_false (fun hne => hne hw)]
      rfl
    · rw [hd, decide_eq_true hw]
      rfl
  · rw [(ended_keeps _ _).2.1]
    exact h3 hn

/-- Settles O42: each due-test is its deadline. -/
theorem deadlines : Obligations.Deadlines := by
  intro s
  refine ⟨fun h => ?_, fun t0 h1 h2 => ?_, fun h1 h2 => ?_, fun h => ?_, fun w h1 h2 => ?_, fun h => ?_,
    fun d h1 h2 h3 => ?_, fun h => ?_, fun l e h1 h2 => ?_, fun l h => ?_, fun k e h1 h2 h3 => ?_,
    fun k h => ?_⟩
  · refine exec_not_due (f := expireLamp) rfl (if_neg fun hd => ?_)
    obtain ⟨t0, h1, h2⟩ := (lampDue_iff s).mp hd
    exact absurd (h t0 h1) (by omega)
  · refine ⟨_, exec_ended rfl, ?_⟩
    rw [expireLamp, if_pos (show lampDue (clearSent s) = true from (lampDue_iff s).mpr ⟨t0, h1, h2⟩)]
    exact ⟨by simp, .of_all (by simp [samePart])⟩
  · refine ⟨_, exec_ended rfl, ?_⟩
    rw [fallSilent, if_pos (show silenceDue (clearSent s) = true from (silenceDue_iff s).mpr ⟨h1, h2⟩),
      setJog_still]
    exact ⟨by simp, by simp [speedAtJogEnd], .of_all (by simp [samePart])⟩
  · refine exec_not_due (f := fallSilent) rfl (if_neg fun hd => ?_)
    obtain ⟨h1, h2⟩ := (silenceDue_iff s).mp hd
    rcases h with h | h
    · rw [h] at h1; cases h1
    · omega
  · exact linkWatch_expires ((linkDue_iff s).mpr ⟨w, h1, h2⟩)
  · refine exec_not_due (f := loseLink) rfl (if_neg fun hd => ?_)
    obtain ⟨w, h1, h2⟩ := (linkDue_iff s).mp hd
    exact absurd (h w h1) (by omega)
  · exact wrapWatch_expires ((watchDue_iff s).mpr ⟨h1, d, h2, h3⟩)
  · refine exec_not_due (f := wrapExpiry) rfl (if_neg fun hd => ?_)
    obtain ⟨h1, d, h2, h3⟩ := (watchDue_iff s).mp hd
    rcases h with h | h | h | ⟨d', h, h4⟩
    · rw [h] at h1; simp at h1
    · rw [h] at h1; simp at h1
    · rw [h] at h2; cases h2
    · rw [h] at h2; cases h2; omega
  · have hf : endPulse l (clearSent s) = { s with
        sent := [],
        trig := s.trig.withLatch l { s.trig.latches[l] with level := false, pulseEnd := none } } :=
      if_pos ((pulseDue_iff _ _).mpr ⟨e, h1, h2⟩)
    rw [exec_quiet (f := endPulse l) rfl (by rw [hf]; rfl) (by rw [hf]; rfl), hf]
  · refine exec_not_due (f := endPulse l) rfl (if_neg fun hd => ?_)
    obtain ⟨e, h1, h2⟩ := (pulseDue_iff _ _).mp hd
    exact absurd (h e h1) (by simpa using h2)
  · have hf : heaterEnd k (clearSent s) = { s with
        sent := [],
        heat := { s.heat with
          zones := s.heat.zones.set k { s.heat.zones[k] with heater := false, onEnd := none } } } :=
      if_pos ((onEndDue_iff _ _).mpr ⟨h1, e, h2, h3⟩)
    rw [exec_quiet (f := heaterEnd k) rfl (by rw [hf]; rfl) (by rw [hf]; rfl), hf]
  · refine exec_not_due (f := heaterEnd k) rfl (if_neg fun hd => ?_)
    obtain ⟨h1, e, h2, h3⟩ := (onEndDue_iff _ _).mp hd
    rcases h with h | h
    · rw [show s.heat.zones[k].heater = true from h1] at h; cases h
    · exact absurd (h e h2) (by simpa using h3)

end Sys2Proof.Proofs
end

