-- ==== Sys2Proof/Proofs/Readiness.lean ====
section
/-! PROOFS. The readiness test (R3): entries between line states other than RUN, what the test reads, and
the HALT cause, which an entry to HALT alone sets. -/

-- One thread for the whole file: each waiting thread reserves its stack.
set_option Elab.async false

namespace Sys2Proof.Machine

/-! ## The HALT cause -/

/-- The HALT attention cause is as it was. -/
def HaltKept (s t : State) : Prop := causeSet t .halt = causeSet s .halt

theorem HaltKept.trans {s t u : State} (h1 : HaltKept s t) (h2 : HaltKept t u) : HaltKept s u :=
  Eq.trans h2 h1

theorem HaltKept.of_host {s t : State} (h : t.host.causes = s.host.causes) : HaltKept s t := by
  unfold HaltKept causeSet
  rw [h]

theorem HaltKept.of_or {s t : State} {v : BitVec 6} (h : t.host.causes = s.host.causes ||| v)
    (hv : v.getLsbD 4 = false) : HaltKept s t := by
  unfold HaltKept causeSet
  rw [h, BitVec.getLsbD_or, show Cause.halt.bit = 4 from rfl, hv, Bool.or_false]

theorem writeNotice_haltKept (k : NoticeKind) (d1 d2 d3 : Word) (s : State) :
    HaltKept s (writeNotice k d1 d2 d3 s) := .of_or (v := 2#6) rfl rfl

theorem finishTicket_haltKept (n : Nat) (code : ResultCode) (d : Word) (s : State) :
    HaltKept s (finishTicket n code d s) := .of_or (v := 1#6) rfl rfl

theorem stallWalker_haltKept (code : StallCode) (off : Word) (s : State) :
    HaltKept s (stallWalker code off s) := by
  refine HaltKept.trans (t := raiseCause .chain
    { s with walker := { s.walker with state := .stalled, stall := code } }) ?_
    (writeNotice_haltKept _ _ _ _ _)
  exact .of_or (v := 4#6) rfl rfl

theorem moveOn_haltKept (s : State) : HaltKept s (moveOn s) := by
  cases hf : s.walker.fromTicket with
  | none =>
    have he : moveOn s = s := by unfold moveOn; rw [hf]
    rw [he]
    exact .of_host rfl
  | some f =>
    rcases moveOn_cases hf with ⟨_, he⟩ | ⟨_, he⟩ | ⟨_, _, _, he⟩ | ⟨_, _, _, he⟩ <;> rw [he]
    · exact .of_host rfl
    · exact stallWalker_haltKept _ _ s
    · exact stallWalker_haltKept _ _ s
    · exact .of_host rfl

theorem finishLong_haltKept (n : Nat) (code : ResultCode) (d : Word) (s : State) :
    HaltKept s (finishLong n code d s) := by
  have h0 : HaltKept s (lowerCount (reportFinish n code d s)) := .of_or (v := 1#6) rfl rfl
  rcases finishLong_cases n code d s with ⟨_, he⟩ | ⟨_, he⟩ <;> rw [he]
  · exact h0.trans (.of_host rfl)
  · exact (h0.trans (moveOn_haltKept _)).trans (.of_host rfl)

theorem abortAutos_haltKept (r : Nat) (s : State) : HaltKept s (abortAutos r s) := by
  have h : ∀ (l : List (Fin 4)) (u : State), HaltKept u (l.foldl (abortAuto r) u) := by
    intro l
    induction l with
    | nil => exact fun u => .of_host rfl
    | cons z l ih =>
      intro u
      refine HaltKept.trans ?_ (ih _)
      unfold abortAuto
      split
      · exact .of_host rfl
      · unfold endAuto
        refine HaltKept.trans (.of_host ?_) (finishLong_haltKept _ _ _ _)
        simp
  exact h _ s

theorem afterTake_haltKept (v : State) : HaltKept v (afterTake v) := by
  rcases afterTake_cases v with ⟨_, he⟩ | ⟨_, he⟩ <;> rw [he]
  · exact .of_host rfl
  · exact moveOn_haltKept v

theorem takeEnd_haltKept (s w : State) (n : Nat) (code : ResultCode) (d : Word) :
    HaltKept w (takeEnd s (finishTicket n code d w)) :=
  ((finishTicket_haltKept n code d w).trans (afterTake_haltKept _)).trans
    (.of_host (by rw [takeEnd_host]))

theorem enterState_haltKept {new : LineState} (h : new ≠ .halt) (cause : LineCause) (s : State) :
    HaltKept s (enterState new cause s) := by
  have h1 : HaltKept s (writeNotice .lineState (natWord s.line.state.code) (natWord new.code) cause.word
      (setLineState new s)) := HaltKept.trans (t := setLineState new s) (.of_host rfl)
    (writeNotice_haltKept _ _ _ _ _)
  have h2 : ∀ u : State, HaltKept u (haltCause new u) := fun u => by
    rw [haltCause, if_neg h]
    exact .of_host rfl
  have h3 : ∀ (u : State) had old, HaltKept u (storeAnswer new (speedAnswer new (wrapAnswer old new
      (heatAnswer had u)))) := fun u had old => .of_host (by simp)
  have h4 : ∀ u : State, HaltKept u (tensionAnswer new u) := fun u => by
    unfold tensionAnswer
    refine HaltKept.trans (.of_host ?_) (abortAutos_haltKept 4 _)
    cases new <;> simp
  have h5 : ∀ u : State, HaltKept u (printTest u) := fun u => .of_host (by simp)
  exact (((h1.trans (h2 _)).trans (h3 _ _ _)).trans (h4 _)).trans (h5 _)

/-! ## Entries between states other than RUN -/

/-- An entry away from RUN moves neither the felt nor the table of records. -/
theorem enterState_calm {new : LineState} {s : State} (h : new ≠ .run) (hs : s.line.state ≠ .run)
    (cause : LineCause) :
    (enterState new cause s).ord = s.ord ∧ (enterState new cause s).lib = s.lib
    ∧ (enterState new cause s).sent = s.sent
    ∧ (enterState new cause s).dose = { s.dose with sCmd := (enterState new cause s).dose.sCmd } := by
  have hw : entryWrap new cause s = entryHead new cause s := by
    unfold entryWrap wrapAnswer
    rw [if_neg h, if_neg hs]
  have hp : (tensionAnswer new (storeAnswer new (speedAnswer new (entryHead new cause s)))).line.state
      ≠ .run := by
    rw [(tensionAnswer_line _ _).1, (storeAnswer_line _ _).1]
    simpa [entryHead, heatAnswer_line_keeps] using h
  have he : enterState new cause s
      = tensionAnswer new (storeAnswer new (speedAnswer new (entryHead new cause s))) := by
    rw [enterState_eq, ← entryWrap, hw, entryTail, printTest_quiet hp]
  have hd : ∀ u : State, (speedAnswer new u).dose = { u.dose with sCmd := (speedAnswer new u).dose.sCmd } :=
    fun u => by cases new <;> rfl
  rw [he]
  refine ⟨by simp [entryHead], by simp [entryHead], by simp [entryHead], ?_⟩
  simp only [tensionAnswer_keeps, storeAnswer_keeps]
  rw [hd, entryHead_dose]

theorem enterState_heat_on {new : LineState} {s : State} (h : heatOf new s.line.heat = true)
    (cause : LineCause) : (enterState new cause s).heat = s.heat := by
  rw [enterState_heat, if_neg]
  rw [h]
  simp

/-! ## The readiness test -/

theorem readyTest_congr {s t : State} (zones : t.heat.zones = s.heat.zones)
    (ramps : ∀ z : Fin 4, t.tens.zones[z].rampDone = s.tens.zones[z].rampDone)
    (latches : ∀ a, latched t a = latched s a) (engine : t.ord.engine = s.ord.engine)
    (reg : t.reg = s.reg) : readyTest t = readyTest s := by
  have hr : t.tens.zones.all (fun z => z.rampDone) = s.tens.zones.all (fun z => z.rampDone) := by
    rw [Bool.eq_iff_iff, Vector.all_eq_true, Vector.all_eq_true]
    exact ⟨fun h i hi => (ramps ⟨i, hi⟩).symm.trans (h i hi), fun h i hi => (ramps ⟨i, hi⟩).trans (h i hi)⟩
  unfold readyTest holdCauseLatched haltCauseLatched
  simp only [zones, hr, latches, engine, reg]

/-- The readiness test gives the same answer in the WARM and the READY that its two answers lead to. -/
theorem readyTest_enterState {new : LineState} {s : State} (h : new = .warm ∨ new = .ready)
    (hs : s.line.state ≠ .run) (cause : LineCause) :
    readyTest (enterState new cause s) = readyTest s := by
  have hrun : new ≠ .run := by rcases h with rfl | rfl <;> decide
  obtain ⟨ho, _, _, _⟩ := enterState_calm hrun hs cause
  refine readyTest_congr ?_ (fun z => ?_) (latched_enterState new cause s) (by rw [ho]) (by simp)
  · rw [enterState_heat_on (by rcases h with rfl | rfl <;> rfl)]
  · rw [enterState_tension, TensionZone.aborted_keeps]
    rcases h with rfl | rfl <;> rfl

/-- Outside WARM and READY the test does nothing. -/
theorem retest_elsewhere {s : State} (h1 : s.line.state ≠ .warm) (h2 : s.line.state ≠ .ready) :
    retest s = s := by
  unfold retest
  cases hs : s.line.state <;> first | rfl | contradiction

/-- In WARM and READY the test is an entry to the other of the two, or nothing. -/
theorem retest_moves {s : State} (h : s.line.state = .warm ∨ s.line.state = .ready) :
    (retest s = s ∧ s.line.state = (if readyTest s = true then .ready else .warm))
    ∨ ∃ new, (new = .warm ∨ new = .ready) ∧ new = (if readyTest s = true then .ready else .warm)
      ∧ s.line.state ≠ new ∧ retest s = enterState new .readiness s := by
  unfold retest
  rcases h with h | h <;> rw [h] <;> by_cases hr : readyTest s = true <;> simp [hr]

/-- What the readiness test leaves in WARM and READY (R3). -/
structure Retested (s t : State) : Prop where
  state : t.line.state = (if readyTest t = true then .ready else .warm)
  latches : ∀ a, latched t a = latched s a
  active : ∀ a, conditionActive t a = true → conditionActive s a = true
  kept : t.ord = s.ord ∧ t.lib = s.lib ∧ t.sent = s.sent ∧ t.heat = s.heat ∧ t.pos = s.pos
    ∧ t.trig = s.trig ∧ t.reg = s.reg ∧ t.lastReading = s.lastReading ∧ t.drawn = s.drawn
    ∧ t.pending = s.pending
  dose : t.dose = { s.dose with sCmd := t.dose.sCmd }
  speed : t.dose.sCmd = s.dose.sCmd ∨ t.dose.sCmd = 20
  heat : s.line.heat = true → t.line.heat = true
  halt : HaltKept s t
  reported : ∃ k, k ≤ 2 ∧ Reported k s t

theorem retest_retested {s : State} (h : s.line.state = .warm ∨ s.line.state = .ready) :
    Retested s (retest s) := by
  rcases retest_moves h with ⟨he, hs⟩ | ⟨new, hn, hnew, _, he⟩
  · rw [he]
    exact ⟨hs, fun _ => rfl, fun _ => id, ⟨rfl, rfl, rfl, rfl, rfl, rfl, rfl, rfl, rfl, rfl⟩, rfl, .inl rfl,
      id, .of_host rfl, ⟨0, by omega, .rfl s⟩⟩
  · have hrun : s.line.state ≠ .run := by rcases h with h | h <;> simp [h]
    have hheat : ∀ had, heatOf new had = true := fun had => by rcases hn with rfl | rfl <;> rfl
    have hnew_run : new ≠ .run := by rcases hn with rfl | rfl <;> decide
    have hnew_halt : new ≠ .halt := by rcases hn with rfl | rfl <;> decide
    obtain ⟨e1, e2, e3, e4⟩ := enterState_calm hnew_run hrun .readiness
    obtain ⟨k, _, hk, hr⟩ := enterState_reported new .readiness s
    rw [he]
    refine ⟨?_, latched_enterState _ _ _, fun a ha => ?_, ⟨e1, e2, e3, enterState_heat_on (hheat _) _, by simp,
      by simp, by simp, by simp, by simp, by simp⟩, e4, .inr ?_, fun _ => ?_,
      enterState_haltKept hnew_halt _ _, ⟨k, hk, hr⟩⟩
    · rw [readyTest_enterState hn hrun, enterState_state, hnew]
    · rw [(enterState_endsOnly new .readiness s).conditionActive a, Bool.and_eq_true] at ha
      exact ha.1
    · rw [enterState_speed]
      rcases hn with rfl | rfl <;> rfl
    · rw [enterState_line_heat, hheat]

end Sys2Proof.Machine
end

