-- ==== Sys2Proof/Proofs/Windows.lean ====
section
/-! PROOFS. What the registration unit's tests leave of the line: of the alarms PHASE_LIMIT alone, and no
cause but NOTICE (R80 to R86). -/

-- One thread for the whole file: each waiting thread reserves its stack.
set_option Elab.async false

namespace Sys2Proof.Machine

/-- Between two states the registration unit has worked: of the controller's fields the record of
PHASE_LIMIT alone has changed, and that alarm is not unlatched. -/
structure PhaseOnly (s t : State) : Prop where
  line : t.line = { s.line with alarms := t.line.alarms }
  others : ∀ a, a ≠ .phaseLimit → alarmRec t a = alarmRec s a
  latch : latched s .phaseLimit = true → latched t .phaseLimit = true
  engine : t.ord.engine = s.ord.engine
  frame : ChangesOnly [.mem, .line, .ord, .reg, .host] s t
  halt : HaltKept s t
  reported : ∃ k, Reported k s t

theorem PhaseOnly.of_same {s t : State} (line : t.line = s.line := by simp)
    (mem : t.mem = s.mem := by simp) (host : t.host = s.host := by simp)
    (engine : t.ord.engine = s.ord.engine := by simp)
    (frame : ChangesOnly [.mem, .line, .ord, .reg, .host] s t := by
      exact ChangesOnly.of_all (by simp [samePart])) :
    PhaseOnly s t where
  line := by rw [line]
  others a _ := alarmRec_congr (by rw [line]) a
  latch h := (latched_congr (by rw [line]) _).trans h
  engine := engine
  frame := frame
  halt := .of_host (by rw [host])
  reported := by
    have hw : t.walker = s.walker := frame .walker (by decide)
    exact ⟨0, .of_same mem host (by rw [hw]) (by rw [hw])⟩

/-- The walker, the roller's other readers and the rest of the part are as they were. -/
theorem PhaseOnly.kept {s t : State} (h : PhaseOnly s t) : t.lib = s.lib ∧ t.pos = s.pos ∧ t.trig = s.trig
    ∧ t.heat = s.heat ∧ t.dose = s.dose ∧ t.tens = s.tens ∧ t.lastReading = s.lastReading
    ∧ t.walker = s.walker ∧ t.sent = s.sent ∧ t.drawn = s.drawn ∧ t.pending = s.pending :=
  ⟨h.frame .lib (by decide), h.frame .pos (by decide), h.frame .trig (by decide),
    h.frame .heat (by decide), h.frame .dose (by decide), h.frame .tens (by decide),
    h.frame .check (by decide), h.frame .walker (by decide), h.frame .sent (by decide),
    h.frame .drawn (by decide), h.frame .queue (by decide)⟩

theorem PhaseOnly.rfl (s : State) : PhaseOnly s s :=
  .of_same (Eq.refl _) (Eq.refl _) (Eq.refl _) (Eq.refl _) (.rfl _ s)

theorem PhaseOnly.trans {s t u : State} (h1 : PhaseOnly s t) (h2 : PhaseOnly t u) : PhaseOnly s u where
  line := by
    have e := h2.line
    rw [h1.line] at e
    exact e
  others a ha := (h2.others a ha).trans (h1.others a ha)
  latch h := h2.latch (h1.latch h)
  engine := h2.engine.trans h1.engine
  frame := h1.frame.trans h2.frame
  halt := h1.halt.trans h2.halt
  reported := by
    obtain ⟨j, hj⟩ := h1.reported
    obtain ⟨k, hk⟩ := h2.reported
    exact ⟨j + k, hj.trans hk⟩

theorem PhaseOnly.foldl {α : Type} {f : State → α → State} (h : ∀ s a, PhaseOnly s (f s a)) (l : List α)
    (s : State) : PhaseOnly s (l.foldl f s) := by
  induction l generalizing s with
  | nil => exact .rfl s
  | cons a l ih => exact (h s a).trans (ih (f s a))

theorem writeNotice_phaseOnly (k : NoticeKind) (d1 d2 d3 : Word) (s : State) :
    PhaseOnly s (writeNotice k d1 d2 d3 s) where
  line := by simp
  others a _ := alarmRec_congr (by simp) a
  latch h := (latched_congr (by simp) _).trans h
  engine := by simp
  frame := .of_all (by simp [samePart])
  halt := writeNotice_haltKept k d1 d2 d3 s
  reported := ⟨1, writeNotice_reported k d1 d2 d3 s⟩

theorem setAlarm_phaseOnly {r : AlarmRec} {s : State} (h : latched s .phaseLimit = true → r.latched = true) :
    PhaseOnly s (setAlarm .phaseLimit r s) where
  line := rfl
  others a ha := alarmRec_setAlarm_other ha.symm r s
  latch hl := by unfold latched; rw [alarmRec_setAlarm_same]; exact h hl
  engine := rfl
  frame := .of_all (by simp [samePart])
  halt := .of_host rfl
  reported := ⟨0, .of_same⟩

/-- PHASE_LIMIT has no line request (R4). -/
theorem raiseAlarm_phaseLimit (d1 d2 : Word) (s : State) :
    raiseAlarm .phaseLimit d1 d2 s = s ∨ raiseAlarm .phaseLimit d1 d2 s = raised .phaseLimit d1 d2 s := by
  by_cases h : alarmRec s .phaseLimit = ⟨true, true⟩
  · exact .inl (raiseAlarm_again h d1 d2)
  · exact .inr (raiseAlarm_new h d1 d2)

theorem raisePhaseLimit_phaseOnly (d1 d2 : Word) (s : State) :
    PhaseOnly s (raiseAlarm .phaseLimit d1 d2 s) := by
  rcases raiseAlarm_phaseLimit d1 d2 s with he | he <;> rw [he]
  · exact .rfl s
  · exact (setAlarm_phaseOnly fun _ => rfl).trans (writeNotice_phaseOnly _ _ _ _ _)

theorem setTarget_phaseOnly (n : Half) (target : Int) (limited : Bool) (s : State) :
    PhaseOnly s (setTarget n target limited s) := by
  have h0 : PhaseOnly s { s with reg := { s.reg with target := target, limited := limited } } :=
    .of_same rfl rfl rfl rfl
  unfold setTarget
  split
  · exact h0.trans (raisePhaseLimit_phaseOnly _ _ _)
  · exact h0.trans (setAlarm_phaseOnly id)

theorem review_phaseOnly (s : State) : PhaseOnly s (review s) := by
  unfold review
  split
  · exact .rfl s
  · split
    · exact .rfl s
    · split
      · exact .rfl s
      · split
        · exact setTarget_phaseOnly _ _ _ s
        · exact .rfl s

theorem updPanel_phaseOnly (n : Half) (f : Panel → Panel) (s : State) : PhaseOnly s (updPanel n f s) :=
  .of_same rfl rfl rfl rfl

theorem pairPanel_phaseOnly (n : Half) (xp : Word) (s : State) : PhaseOnly s (pairPanel n xp s) := by
  unfold pairPanel
  split
  · exact .rfl s
  · next xf q _ =>
    refine PhaseOnly.trans (t := updPanel n (fun p => { p with
      piece := some xf, offset := targetOffset xf xp }) (setQueue q s)) (.of_same rfl rfl rfl rfl) ?_
    unfold limitPairing
    split
    · exact (updPanel_phaseOnly _ _ _).trans (writeNotice_phaseOnly _ _ _ _ _)
    · exact .rfl _

theorem stagePanel_phaseOnly (n : Half) (s : State) : PhaseOnly s (stagePanel n s) := by
  unfold stagePanel
  extract_lets s1 s2 s3
  have h2 : PhaseOnly s s2 :=
    .of_same rfl rfl rfl rfl (.of_all (by simp [samePart, s2, s1]))
  have h3 : PhaseOnly s2 s3 := by
    show PhaseOnly s2 (match findPanel n s2 with
      | none => s2
      | some p => if p.matched then pairPanel n (p.xp.getD 0) s2 else s2)
    split
    · exact .rfl s2
    · split
      · exact pairPanel_phaseOnly _ _ _
      · exact .rfl s2
  split
  · exact (h2.trans h3).trans (review_phaseOnly _)
  · exact h2.trans h3

theorem passWindow_phaseOnly (s : State) (n : Half) : PhaseOnly s (passWindow s n) := by
  unfold passWindow
  split
  · exact .rfl s
  · split
    · exact (updPanel_phaseOnly _ _ _).trans (stagePanel_phaseOnly _ _)
    · exact .rfl s

theorem windowTests_phaseOnly (s : State) : PhaseOnly s (windowTests s) :=
  PhaseOnly.trans (t := mapPanels (standIn s) s) (.of_same rfl rfl rfl rfl)
    (PhaseOnly.foldl passWindow_phaseOnly _ _)

/-- With no record there is nothing to test. -/
theorem windowTests_empty {s : State} (h : s.ord.panels = []) : windowTests s = s := by
  unfold windowTests mapPanels
  rw [h]
  conv_rhs => rw [← show ({ s with ord := { s.ord with panels := s.ord.panels } } : State) = s from rfl, h]
  rfl

end Sys2Proof.Machine
end

