-- ==== Sys2Proof/Proofs/LineToWarm.lean ====
section
/-! PROOFS. The entry to WARM: from HOLD, and from COLD and THREAD with U set, the store tested, and the
readiness test after them (R3, R10, R15, R16, R41, R72). -/

-- One thread for the whole file: each waiting thread reserves its stack.
set_option Elab.async false

namespace Sys2Proof.Machine

/-! ## Reports and the walker together -/

/-- Some notices were written, and a walker that is not FULL keeps its state. -/
def Steady (s t : State) : Prop :=
  (∃ k, Reported k s t) ∧ (s.walker.state ≠ .full → t.walker.state = s.walker.state)

theorem Steady.trans {s t u : State} (h1 : Steady s t) (h2 : Steady t u) : Steady s u := by
  obtain ⟨⟨j, hj⟩, w1⟩ := h1
  obtain ⟨⟨k, hk⟩, w2⟩ := h2
  exact ⟨⟨j + k, hj.trans hk⟩, fun h => by rw [w2 (by rwa [w1 h]), w1 h]⟩

theorem Steady.of_reported {s t : State} {k : Nat} (h : Reported k s t)
    (hw : t.walker.state = s.walker.state := by simp) : Steady s t := ⟨⟨k, h⟩, fun _ => hw⟩

theorem Steady.rfl (s : State) : Steady s s := .of_reported (.rfl s) (Eq.refl _)

theorem PhaseOnly.steady {s t : State} (h : PhaseOnly s t) : Steady s t :=
  ⟨h.reported, fun _ => by rw [h.frame .walker (by decide)]⟩

theorem enterState_steady (new : LineState) (cause : LineCause) (s : State) :
    Steady s (enterState new cause s) := by
  obtain ⟨k, _, _, hk⟩ := enterState_reported new cause s
  exact ⟨⟨k, hk⟩, fun h => (enterState_quiet new cause h).2⟩

theorem retest_steady (s : State) : Steady s (retest s) := by
  rcases retest_cases s with he | ⟨_, _, he⟩ | ⟨_, _, he⟩ <;> rw [he]
  · exact .rfl s
  · exact enterState_steady _ _ s
  · exact enterState_steady _ _ s

theorem applyRequest_steady (a : Alarm) (s : State) : Steady s (applyRequest a s) := by
  rcases applyRequest_cases a s with he | ⟨_, _, he⟩ | ⟨_, _, he⟩ | ⟨_, _, he⟩ <;> rw [he]
  · exact .rfl s
  all_goals exact enterState_steady _ _ s

theorem raiseAlarm_steady (a : Alarm) (d1 d2 : Word) (s : State) : Steady s (raiseAlarm a d1 d2 s) := by
  by_cases hr : alarmRec s a = ⟨true, true⟩
  · rw [raiseAlarm_again hr]
    exact .rfl s
  · rw [raiseAlarm_new hr]
    exact (Steady.of_reported (raised_reported a d1 d2 s)).trans (applyRequest_steady a _)

theorem endCondition_steady (a : Alarm) (s : State) : Steady s (endCondition a s) :=
  .of_reported (.of_same)

/-! ## The entry before the store is tested -/

/-- U set, and the splices due at it fixed (R41, R44). -/
def exitSet (u : Word) (s : State) : State := fixSplices { s with pos := { s.pos with u := u } }

@[simp] theorem exitSet_keeps (u : Word) (s : State) :
    (exitSet u s).mem = s.mem ∧ (exitSet u s).line = s.line ∧ (exitSet u s).lib = s.lib
    ∧ (exitSet u s).trig = s.trig ∧ (exitSet u s).ord = s.ord ∧ (exitSet u s).reg = s.reg
    ∧ (exitSet u s).heat = s.heat ∧ (exitSet u s).dose = s.dose ∧ (exitSet u s).tens = s.tens
    ∧ (exitSet u s).lastReading = s.lastReading ∧ (exitSet u s).walker = s.walker
    ∧ (exitSet u s).host = s.host ∧ (exitSet u s).sent = s.sent ∧ (exitSet u s).drawn = s.drawn
    ∧ (exitSet u s).pending = s.pending := by
  simp [exitSet]

theorem exitSet_pos (u : Word) (s : State) : (exitSet u s).pos.u = u ∧ (exitSet u s).pos.x = s.pos.x
    ∧ (exitSet u s).pos.s = s.pos.s ∧ (exitSet u s).pos.phase = s.pos.phase := ⟨rfl, rfl, rfl, rfl⟩

/-- U set on entry to WARM, and the registration unit's tests of it, before the store test (R41). -/
def warmed (cause : LineCause) (s : State) : State :=
  holdTest (enterState .warm cause s).pos.u
    (windowTests (exitSet ((enterState .warm cause s).pos.s - 60000 - lThread (enterState .warm cause s))
      (enterState .warm cause s))).pos.u
    (windowTests (exitSet ((enterState .warm cause s).pos.s - 60000 - lThread (enterState .warm cause s))
      (enterState .warm cause s))) 2

theorem setExit_eq (s : State) : setExit s = storeTest (holdTest s.pos.u
    (windowTests (exitSet (s.pos.s - 60000 - lThread s) s)).pos.u
    (windowTests (exitSet (s.pos.s - 60000 - lThread s) s)) 2) := rfl

theorem enterWarm_eq {cause : LineCause} {s : State} (h : s.line.state = .cold ∨ s.line.state = .thread) :
    enterWarm cause s = storeTest (warmed cause s) := by
  rw [enterWarm, if_pos h, setExit_eq, warmed]

/-- What stands when the store is tested on entry to WARM from COLD or THREAD. -/
structure Warmed (s t : State) : Prop where
  state : t.line.state = .warm
  heat : t.line.heat = true
  speed : t.dose.sCmd = 20
  alarms : ∀ a, a ≠ .phaseLimit →
    alarmRec t a = { alarmRec s a with active := (alarmRec s a).active && !decide (a = .webBreak) }
  phaseLatch : latched s .phaseLimit = true → latched t .phaseLimit = true
  phaseAlone : s.ord.panels = [] → latched t .phaseLimit = latched s .phaseLimit
  halt : HaltKept s t
  u : t.pos.u = s.pos.s - 60000 - lThread s
  pos : t.pos.x = s.pos.x ∧ t.pos.s = s.pos.s ∧ t.pos.phase = s.pos.phase
  level : storeLevel t = (lThread s).toInt
  frame : ChangesOnly [.mem, .line, .pos, .ord, .reg, .dose, .tens, .walker, .host] s t
  steady : Steady s t

/-- The store level that U gives on entry to WARM is L_thread (R41, R70). -/
theorem storeLevel_thread (s l : Word) : sdiff (s - (s - 60000 - l)) 60000 = l.toInt := by
  have h : s - (s - 60000 - l) - 60000 = l := by ring
  unfold sdiff
  rw [h]

theorem warmed_warmed {s : State} (h : s.line.state = .cold ∨ s.line.state = .thread)
    (cause : LineCause) : Warmed s (warmed cause s) := by
  have hrun : s.line.state ≠ .run := by rcases h with h | h <;> simp [h]
  obtain ⟨eord, elib, esent, edose⟩ := enterState_calm (new := .warm) (by decide) hrun cause
  have eheat := enterState_heat_on (new := .warm) (s := s) rfl cause
  have esteady := enterState_steady .warm cause s
  have ehalt := enterState_haltKept (new := .warm) (by decide) cause s
  have eends := enterState_endsOnly .warm cause s
  have espeed : (enterState .warm cause s).dose.sCmd = 20 := by simp [enterState_speed]
  have eline := enterState_line_heat .warm cause s
  have ethread : lThread (enterState .warm cause s) = lThread s := by
    obtain ⟨k, hk⟩ := esteady.1
    obtain ⟨_, _, _, hw⟩ := hk.logAndTickets.sameConfig
    exact hw
  have epos : (enterState .warm cause s).pos = s.pos := by simp
  have ereg : (enterState .warm cause s).reg = s.reg := by simp
  have etrig : (enterState .warm cause s).trig = s.trig := by simp
  have erest : (enterState .warm cause s).lastReading = s.lastReading
      ∧ (enterState .warm cause s).drawn = s.drawn ∧ (enterState .warm cause s).pending = s.pending := by simp
  have estate := enterState_state .warm cause s
  unfold warmed
  rw [ethread, epos]
  have hlevel := storeLevel_thread s.pos.s (lThread s)
  generalize enterState .warm cause s = e at *
  generalize hu : s.pos.s - 60000 - lThread s = u at *
  have hp := windowTests_phaseOnly (exitSet u e)
  have hempty := windowTests_empty (s := exitSet u e)
  obtain ⟨klib, kpos, ktrig, kheat, kdose, ktens, kcheck, kwalker, ksent, kdrawn, kpending⟩ := hp.kept
  obtain ⟨xu, xx, xs, xphase⟩ := exitSet_pos u e
  generalize hpe : windowTests (exitSet u e) = p at *
  have hst : p.line.state = e.line.state ∧ p.line.heat = e.line.heat := by
    rw [hp.line]
    simp
  have hrec : ∀ a, a ≠ .phaseLimit → alarmRec p a = alarmRec e a := fun a ha =>
    (hp.others a ha).trans (alarmRec_congr (by simp) a)
  have hsteady : Steady s p :=
    (esteady.trans (.of_reported (t := exitSet u e) (.of_same))).trans hp.steady
  refine ⟨?_, ?_, ?_, fun a ha => ?_, fun hl => ?_, fun hn => ?_, ?_, ?_, ?_, ?_, ?_, ?_⟩
  · simpa [hst] using estate
  · simpa [hst, heatOf] using eline
  · simpa [kdose] using espeed
  · rw [alarmRec_congr (s := p) (by simp), hrec a ha, eends a]
    cases a <;> simp [entryEnds, heatOf]
  · have : latched e .phaseLimit = true := (eends.latched _).trans hl
    exact hp.latch ((latched_congr (by simp) _).trans this)
  · rw [latched_congr (s := p) (by simp), hempty (by simp [eord, hn])]
    exact (latched_congr (by simp) _).trans (eends.latched _)
  · exact (ehalt.trans (.of_host (by simp))).trans (hp.halt.trans (.of_host (by simp)))
  · rw [hu, ← xu, ← kpos]
    simp
  · simp [kpos, xx, xs, xphase, epos]
  · have hs : p.pos.s = s.pos.s := by rw [kpos, xs, epos]
    have hpu : p.pos.u = u := by rw [kpos, xu]
    simp only [storeLevel, holdTest_keeps, hpu, hs]
    exact hlevel
  · exact .of_all (by simp [samePart, klib, ktrig, kheat, kcheck, ksent, kdrawn, kpending, elib, etrig,
      eheat, esent, erest])
  · exact hsteady.trans (.of_reported (.of_same))

/-! ## The whole entry -/

/-- What an entry to WARM leaves where the store holds enough: the readiness test has followed. -/
structure WarmEntered (s t : State) : Prop where
  heat : t.line.heat = true
  state : t.line.state = (if readyTest t = true then .ready else .warm)
  speed : t.dose.sCmd = 20
  halt : HaltKept s t
  steady : Steady s t

/-- WARM from HOLD: an entry and the readiness test. -/
theorem warmFromHold {s : State} (h : s.line.state = .hold) (cause : LineCause) :
    WarmEntered s (retest (enterWarm cause s))
    ∧ (∀ a, latched (retest (enterWarm cause s)) a = latched s a)
    ∧ (∀ a, conditionActive (retest (enterWarm cause s)) a = true → conditionActive s a = true)
    ∧ ChangesOnly [.mem, .line, .dose, .tens, .walker, .host, .sent] s (retest (enterWarm cause s)) := by
  have he : enterWarm cause s = enterState .warm cause s := by
    unfold enterWarm
    rw [if_neg (by rw [h]; decide)]
  obtain ⟨eord, elib, esent, _⟩ := enterState_calm (new := .warm) (by decide)
    (show s.line.state ≠ .run by rw [h]; decide) cause
  have hr := retest_retested (s := enterState .warm cause s) (.inl (enterState_state _ _ _))
  obtain ⟨r1, r2, _, r4, r5, r6, r7, r8, r9, r10⟩ := hr.kept
  have hs : (enterState .warm cause s).dose.sCmd = 20 := by simp [enterState_speed]
  rw [he]
  refine ⟨⟨hr.heat (by simp [heatOf]), hr.state, ?_, (enterState_haltKept (by decide) cause s).trans hr.halt,
    (enterState_steady _ _ s).trans (retest_steady _)⟩, fun a => ?_, fun a ha => ?_, ?_⟩
  · rcases hr.speed with hv | hv
    · rw [hv, hs]
    · exact hv
  · rw [hr.latches, latched_enterState]
  · have := hr.active a ha
    rw [(enterState_endsOnly .warm cause s).conditionActive, Bool.and_eq_true] at this
    exact this.1
  · have eheat := enterState_heat_on (new := .warm) (s := s) rfl cause
    exact .of_all (by simp [samePart, r1, r2, r4, eord, elib, eheat])

/-- The end of a condition leaves the line state and the heat enable. -/
@[simp] theorem endCondition_line_keeps (a : Alarm) (s : State) :
    (endCondition a s).line.state = s.line.state ∧ (endCondition a s).line.heat = s.line.heat := ⟨rfl, rfl⟩

/-- A store test above its mark ends the condition (R72). -/
theorem storeCondition_above {s : State} {mark : Int} (h : s.line.state = .warm) (hl : mark < storeLevel s)
    (a : Alarm) : storeCondition a mark s = endCondition a s := by
  unfold storeCondition
  rw [if_pos (by rw [h]; rfl), if_neg (by omega)]

/-- A store test at its mark or below raises the alarm (R72). -/
theorem storeCondition_below {s : State} {mark : Int} (h : s.line.state = .warm) (hl : storeLevel s ≤ mark)
    (a : Alarm) : storeCondition a mark s = raiseAlarm a (intWord (storeLevel s)) 0 s := by
  unfold storeCondition
  rw [if_pos (by rw [h]; rfl), if_pos hl]

/-- The store test in WARM with more than 1000.0 mm: both conditions end (R72). -/
theorem storeTest_far {s : State} (h : s.line.state = .warm) (hl : 10000 < storeLevel s) :
    storeTest s = endCondition .storeEmpty (endCondition .storeLow s) := by
  have hlevel : storeLevel (endCondition .storeLow s) = storeLevel s := by simp [storeLevel]
  rw [storeTest, storeCondition_above h hl,
    storeCondition_above (by rw [(endCondition_line_keeps _ _).1, h]) (by rw [hlevel]; omega)]

/-- WARM from COLD and THREAD with more than 1000.0 mm in the store (R41, R72). -/
structure WarmFar (s t : State) : Prop extends WarmEntered s t where
  u : t.pos.u = s.pos.s - 60000 - lThread s
  pos : t.pos.x = s.pos.x ∧ t.pos.s = s.pos.s ∧ t.pos.phase = s.pos.phase
  level : storeLevel t = (lThread s).toInt
  alarms : ∀ a, a ≠ .phaseLimit →
    latched t a = latched s a ∧ (conditionActive t a = true → conditionActive s a = true)
  phaseLatch : latched s .phaseLimit = true → latched t .phaseLimit = true
  phaseAlone : s.ord.panels = [] → latched t .phaseLimit = latched s .phaseLimit
  store : conditionActive t .storeLow = false ∧ conditionActive t .storeEmpty = false
  frame : ChangesOnly [.mem, .line, .pos, .ord, .reg, .dose, .tens, .walker, .host, .sent] s t

theorem warmFromStore {s : State} (h : s.line.state = .cold ∨ s.line.state = .thread)
    (hl : 10000 < (lThread s).toInt) (cause : LineCause) : WarmFar s (retest (enterWarm cause s)) := by
  have hw := warmed_warmed h cause
  rw [enterWarm_eq h, storeTest_far hw.state (by rw [hw.level]; exact hl)]
  generalize warmed cause s = b at *
  have hends : EndsOnly [.storeLow, .storeEmpty] b (endCondition .storeEmpty (endCondition .storeLow b)) :=
    (endCondition_endsOnly _ _).trans (endCondition_endsOnly _ _)
  have hr := retest_retested (s := endCondition .storeEmpty (endCondition .storeLow b))
    (.inl (by simpa using hw.state))
  obtain ⟨r1, r2, r3, r4, r5, r6, r7, r8, r9, r10⟩ := hr.kept
  have hlatch : ∀ a, latched (retest (endCondition .storeEmpty (endCondition .storeLow b))) a
      = latched b a := fun a => (hr.latches a).trans (hends.latched a)
  have hactive : ∀ a, conditionActive (retest (endCondition .storeEmpty (endCondition .storeLow b))) a = true →
      conditionActive b a = true ∧ a ≠ .storeLow ∧ a ≠ .storeEmpty := fun a ha => by
    have := hr.active a ha
    rw [hends.conditionActive] at this
    simpa using this
  refine ⟨⟨?_, hr.state, ?_, ?_, ?_⟩, ?_, ?_, ?_, fun a ha => ⟨?_, fun hc => ?_⟩, fun hp => ?_,
    fun hn => ?_, ⟨?_, ?_⟩, ?_⟩
  · exact hr.heat (by simpa using hw.heat)
  · rcases hr.speed with hv | hv
    · rw [hv]; simpa using hw.speed
    · exact hv
  · exact (hw.halt.trans (.of_host (by simp))).trans hr.halt
  · exact (hw.steady.trans ((endCondition_steady _ _).trans (endCondition_steady _ _))).trans
      (retest_steady _)
  · rw [r5]; simpa using hw.u
  · rw [r5]; simpa using hw.pos
  · rw [storeLevel, r5]; simpa [storeLevel] using hw.level
  · rw [hlatch]
    unfold latched
    rw [hw.alarms a ha]
  · obtain ⟨h1, _⟩ := hactive a hc
    unfold conditionActive at h1 ⊢
    rw [hw.alarms a ha, Bool.and_eq_true] at h1
    exact h1.1
  · rw [hlatch]; exact hw.phaseLatch hp
  · rw [hlatch]; exact hw.phaseAlone hn
  · exact Bool.eq_false_iff.mpr fun hc => absurd rfl (hactive _ hc).2.1
  · exact Bool.eq_false_iff.mpr fun hc => absurd rfl (hactive _ hc).2.2
  · refine (hw.frame.mono (by decide)).trans (.of_all ?_)
    simp [samePart, r2, r4]

/-- WARM from COLD and THREAD with 1000.0 mm or less in the store (R72). -/
structure WarmNear (s t : State) : Prop where
  u : t.pos.u = s.pos.s - 60000 - lThread s
  level : storeLevel t = (lThread s).toInt
  low : latched t .storeLow = true
  stays : 3000 < (lThread s).toInt ∨ alarmRec s .storeEmpty = ⟨true, true⟩ →
    t.line.state = .warm ∧ t.line.heat = true ∧ t.dose.sCmd = 20 ∧ conditionActive t .storeLow = true
    ∧ (3000 < (lThread s).toInt → conditionActive t .storeEmpty = false)
  halts : (lThread s).toInt ≤ 3000 → alarmRec s .storeEmpty ≠ ⟨true, true⟩ →
    t.line.state = .halt ∧ t.line.heat = false ∧ t.dose.sCmd = 0 ∧ latched t .storeEmpty = true
    ∧ causeSet t .halt = true ∧ conditionActive t .storeLow = false
    ∧ conditionActive t .storeEmpty = false
  steady : Steady s t

/-- In WARM a raise of STORE_LOW, which asks for HOLD, moves no line state (R7). -/
theorem raiseAlarm_storeLow {s : State} (h : s.line.state = .warm) (d1 d2 : Word) :
    raiseAlarm .storeLow d1 d2 s = s ∧ alarmRec s .storeLow = ⟨true, true⟩
    ∨ raiseAlarm .storeLow d1 d2 s = raised .storeLow d1 d2 s := by
  by_cases hr : alarmRec s .storeLow = ⟨true, true⟩
  · exact .inl ⟨raiseAlarm_again hr d1 d2, hr⟩
  · refine .inr ?_
    rw [raiseAlarm_new hr]
    rcases applyRequest_cases .storeLow (raised .storeLow d1 d2 s) with he | ⟨h1, _⟩ | ⟨_, h1, _⟩ | ⟨_, h1, _⟩
    · exact he
    · cases h1
    · simp [h] at h1
    · simp [h] at h1

/-- STORE_LOW raised in WARM: latched and active, and the rest as it was. -/
structure LowRaised (s t : State) : Prop where
  state : t.line.state = .warm
  heat : t.line.heat = s.line.heat
  speed : t.dose.sCmd = s.dose.sCmd
  pos : t.pos = s.pos
  low : alarmRec t .storeLow = ⟨true, true⟩
  empty : alarmRec t .storeEmpty = alarmRec s .storeEmpty
  steady : Steady s t

theorem storeLow_raised {s : State} (h : s.line.state = .warm) (hl : storeLevel s ≤ 10000) :
    LowRaised s (storeCondition .storeLow 10000 s) := by
  rw [storeCondition_below h hl]
  have hst := raiseAlarm_steady .storeLow (intWord (storeLevel s)) 0 s
  rcases raiseAlarm_storeLow h (intWord (storeLevel s)) 0 with ⟨he, hr⟩ | he <;> rw [he] at hst ⊢
  · exact ⟨h, rfl, rfl, rfl, hr, rfl, hst⟩
  · exact ⟨by simpa using h, by simp, by simp, by simp, raised_same .., raised_other (by decide) .., hst⟩

/-- A latched STORE_LOW keeps the line from READY (R3). -/
theorem retest_storeLow {s : State} (h : s.line.state = .warm) (hl : latched s .storeLow = true) :
    retest s = s := by
  have hr : readyTest s = false := by
    have : holdCauseLatched s = true := by
      unfold holdCauseLatched
      rw [List.any_eq_true]
      exact ⟨.storeLow, by simp [Alarm.all], by simp [hl, Alarm.request]⟩
    unfold readyTest
    simp [this]
  unfold retest
  rw [h]
  simp [hr]

/-- The readiness test with STORE_LOW latched leaves WARM, and so it does HALT. -/
theorem warmNearStore {s : State} (h : s.line.state = .cold ∨ s.line.state = .thread)
    (hl : (lThread s).toInt ≤ 10000) (cause : LineCause) : WarmNear s (retest (enterWarm cause s)) := by
  have hw := warmed_warmed h cause
  have hempty : alarmRec (warmed cause s) .storeEmpty = alarmRec s .storeEmpty := by
    rw [hw.alarms .storeEmpty (by decide)]
    simp
  have hraised := storeLow_raised hw.state (by rw [hw.level]; exact hl)
  have hsteady := hw.steady.trans hraised.steady
  have hu : (storeCondition .storeLow 10000 (warmed cause s)).pos.u = s.pos.s - 60000 - lThread s := by
    rw [hraised.pos, hw.u]
  have hlevel : storeLevel (storeCondition .storeLow 10000 (warmed cause s)) = (lThread s).toInt := by
    rw [storeLevel, hraised.pos, ← hw.level, storeLevel]
  rw [enterWarm_eq h, storeTest]
  have hheat := hraised.heat.trans hw.heat
  have hspeed := hraised.speed.trans hw.speed
  have hrec := hraised.empty.trans hempty
  have hlow : latched (storeCondition .storeLow 10000 (warmed cause s)) .storeLow = true
      ∧ conditionActive (storeCondition .storeLow 10000 (warmed cause s)) .storeLow = true := by
    simp [latched, conditionActive, hraised.low]
  have hstate := hraised.state
  clear hraised
  generalize storeCondition .storeLow 10000 (warmed cause s) = y at *
  by_cases h3 : 3000 < (lThread s).toInt
  · have hends := endCondition_endsOnly .storeEmpty y
    have hlatch : latched (endCondition .storeEmpty y) .storeLow = true := by rw [hends.latched, hlow.1]
    rw [storeCondition_above hstate (by rw [hlevel]; exact h3),
      retest_storeLow (by rw [(endCondition_line_keeps _ _).1, hstate]) hlatch]
    refine ⟨by simpa using hu, ?_, hlatch, fun _ => ⟨by simpa using hstate, by simpa using hheat,
      by simpa using hspeed, ?_, fun _ => ?_⟩, fun hn => absurd hn (by omega),
      hsteady.trans (endCondition_steady _ _)⟩
    · rw [← hlevel]
      simp [storeLevel]
    · simp [hends.conditionActive, hlow.2]
    · simp [hends.conditionActive]
  · rw [storeCondition_below hstate (by rw [hlevel]; omega)]
    by_cases hr : alarmRec s .storeEmpty = ⟨true, true⟩
    · rw [raiseAlarm_again (hrec.trans hr), retest_storeLow hstate hlow.1]
      exact ⟨hu, hlevel, hlow.1, fun _ => ⟨hstate, hheat, hspeed, hlow.2, fun hn => absurd hn h3⟩,
        fun _ hn => absurd hr hn, hsteady⟩
    · have hst := raiseAlarm_steady .storeEmpty (intWord (storeLevel y)) 0 y
      have hrequest : applyRequest .storeEmpty (raised .storeEmpty (intWord (storeLevel y)) 0 y)
          = enterState .halt (.request .storeEmpty) (raised .storeEmpty (intWord (storeLevel y)) 0 y) := by
        rw [applyRequest_halt rfl, if_neg (by simp [hstate])]
      rw [raiseAlarm_new (by rw [hrec]; exact hr), hrequest] at hst ⊢
      have hhalt := enterState_takenToHalt (.request .storeEmpty)
        (raised .storeEmpty (intWord (storeLevel y)) 0 y)
      have hends := enterState_endsOnly .halt (.request .storeEmpty)
        (raised .storeEmpty (intWord (storeLevel y)) 0 y)
      have hpos : (enterState .halt (.request .storeEmpty)
          (raised .storeEmpty (intWord (storeLevel y)) 0 y)).pos = y.pos := by simp
      have hin := enterState_state .halt (.request .storeEmpty)
        (raised .storeEmpty (intWord (storeLevel y)) 0 y)
      have hlatched : ∀ a, latched (raised .storeEmpty (intWord (storeLevel y)) 0 y) a
          = (latched y a || decide (a = .storeEmpty)) := fun a => by
        by_cases ha : Alarm.storeEmpty = a
        · subst ha
          simp [latched]
        · simp [latched, raised_other ha, Ne.symm ha]
      rw [retest_elsewhere (by rw [hin]; decide) (by rw [hin]; decide)]
      refine ⟨by rw [hpos, hu], by rw [storeLevel, hpos, ← hlevel, storeLevel], ?_, fun hn => ?_,
        fun _ _ => ⟨hin, hhalt.heat, hhalt.speed, ?_, hhalt.cause, ?_, ?_⟩, hsteady.trans hst⟩
      · rw [hends.latched, hlatched, hlow.1, Bool.true_or]
      · exact (hn.elim h3 hr).elim
      · rw [hends.latched, hlatched, decide_eq_true rfl, Bool.or_true]
      · rw [hends.conditionActive]
        simp [entryEnds]
      · rw [hends.conditionActive]
        simp [entryEnds]

end Sys2Proof.Machine

namespace Sys2Proof.Proofs

open Sys2Proof.Machine

/-- What follows the owner's answer leaves every part that a reader of the line's state reads. -/
structure Carried (w t : State) : Prop where
  line : t.line = w.line := by simp
  lib : t.lib = w.lib := by simp
  pos : t.pos = w.pos := by simp
  trig : t.trig = w.trig := by simp
  ord : t.ord = w.ord := by simp
  reg : t.reg = w.reg := by simp
  heat : t.heat = w.heat := by simp
  dose : t.dose = w.dose := by simp
  tens : t.tens = w.tens := by simp
  halt : HaltKept w t

theorem Carried.latched {w t : State} (h : Carried w t) (a : Alarm) :
    latched t a = latched w a := latched_congr (by rw [h.line]) a

theorem Carried.conditionActive {w t : State} (h : Carried w t) (a : Alarm) :
    conditionActive t a = conditionActive w a := by
  unfold Machine.conditionActive
  rw [alarmRec_congr (s := w) (by rw [h.line])]

theorem Carried.readyTest {w t : State} (h : Carried w t) : readyTest t = readyTest w :=
  readyTest_congr (by rw [h.heat]) (by rw [h.tens]; simp) h.latched (by rw [h.ord]) h.reg

theorem Carried.storeLevel {w t : State} (h : Carried w t) : storeLevel t = storeLevel w := by
  unfold Machine.storeLevel
  rw [h.pos]

theorem takeEnd_carried (s w : State) (n : Nat) (code : ResultCode) (d : Word) :
    Carried w (takeEnd s (finishTicket n code d w)) :=
  { halt := takeEnd_haltKept s w n code d }

theorem keyEnd_carried (s w : State) : Carried w (keyEnd s w) := { halt := .of_host (by simp) }

/-- The conditions under which a command of `LineToWarm` is taken or answered. -/
def WarmAsked (s : State) (c : Instr) : Prop :=
  (c = .lineCommand ∧ TakesKind s 0x10 ∧ bodyByte s (look s) 0x20 = 2
      ∧ (s.line.auth = .remote ∨ s.line.auth = .remoteLockout))
  ∨ (c = .keyWarm ∧ started s = true ∧ (s.line.auth = .localPendant ∨ s.line.auth = .localHeld))
  ∨ (c = .keyThread ∧ s.line.state = .thread ∧ s.line.threadHeat = true ∧ started s = true
      ∧ (s.line.auth = .localPendant ∨ s.line.auth = .localHeld))

/-- A command that takes the line to WARM: it enters from `v`, a state alike to `s`, and `t` is left. -/
structure WarmIssued (c : Instr) (s v w t : State) : Prop where
  entered : ∃ cause, w = retest (enterWarm cause v)
  carried : Carried w t
  state : v.line.state = s.line.state
  alarms : v.line.alarms = s.line.alarms
  pos : v.pos = s.pos
  ord : v.ord = s.ord
  thread : lThread v = lThread s
  halt : HaltKept s v
  bytes : Steady v w → LogAndTicketsOnly s t
  ticket : Steady v w → c = .lineCommand →
    TakeRecorded s t ∧ TicketShows (look s) .ok (natWord t.line.state.code) s t
  frame : ∀ ps, (∀ p ∈ [Part.mem, .line, .walker, .host, .sent], p ∈ ps) → ChangesOnly ps v w →
    ChangesOnly ps s t

/-- A target WARM that the table accepts is entered (R10). -/
theorem lineGo_warm {s : State} (h : s.line.state = .cold ∨ s.line.state = .hold) (cause : LineCause) :
    lineAccepts s .warm = true ∧ lineGo .warm cause s = retest (enterWarm cause s) := by
  unfold lineAccepts lineGo lineStays
  rcases h with h | h <;> simp [h]

/-- The entry to WARM leaves X. -/
theorem retest_enterWarm_x (cause : LineCause) (s : State) :
    (retest (enterWarm cause s)).pos.x = s.pos.x := by
  have hx : (enterWarm cause s).pos.x = s.pos.x := by
    unfold enterWarm
    split
    · rw [setExit_eq]
      simp [exitSet_pos]
    · simp
  rw [← hx]
  simp

theorem lineCommand_warmIssued {s : State} (hk : TakesKind s 0x10) (hb : bodyByte s (look s) 0x20 = 2)
    (ha : s.line.auth = .remote ∨ s.line.auth = .remoteLockout)
    (h : s.line.state = .cold ∨ s.line.state = .hold) :
    ∃ v w t, exec .lineCommand s = .next t ∧ WarmIssued .lineCommand s v w t := by
  have ht : targetOf (bodyByte s (look s) 0x20) = some .warm := by rw [hb]; rfl
  obtain ⟨hacc, hgo⟩ := lineGo_warm (s := claimed s) (by simpa using h) .command
  have hx := retest_enterWarm_x .command (claimed s)
  have hf := takeLineCommand_remote ht ha
  rw [if_pos hacc, hgo] at hf
  generalize hw : retest (enterWarm .command (claimed s)) = w at *
  have hwith : Steady (claimed s) w →
      TakenWith .ok (stateWord w) s (takeEnd s (finishTicket (look s) .ok (stateWord w) w)) := fun hst => by
    obtain ⟨⟨k, hr⟩, hwalk⟩ := hst
    exact takeEnd_takenWith hk hr (by rw [hx]; simp) .ok _ (hk.not_stalled (hwalk (by simp [hk.running])))
  have hcarried := takeEnd_carried s w (look s) .ok (stateWord w)
  have hex : exec .lineCommand s = .next (takeEnd s (finishTicket (look s) .ok (stateWord w) w)) := by
    rw [exec_take rfl hk, hf]
  have hframe : ∀ ps, (∀ p ∈ ticketParts, p ∈ ps) → ChangesOnly ps s w →
      ChangesOnly ps s (takeEnd s (finishTicket (look s) .ok (stateWord w) w)) := fun ps h1 h2 =>
    takeEnd_changesOnly h1 h2 _ _
  generalize takeEnd s (finishTicket (look s) .ok (stateWord w) w) = t at *
  refine ⟨claimed s, w, t, hex, ⟨.command, hw.symm⟩, hcarried, by simp, by simp, by simp, by simp, ?_,
    .of_host (by simp), fun hst => (hwith hst).bytes, fun hst _ => ⟨(hwith hst).recorded, ?_⟩, ?_⟩
  · obtain ⟨_, _, _, hl⟩ := (claimed_logAndTickets s).sameConfig
    exact hl
  · rw [hcarried.line]
    exact (hwith hst).shows
  · intro ps hps hvw
    have hticket : ∀ p ∈ ticketParts, p ∈ ps := fun p hp => hps p (by revert hp; cases p <;> simp [ticketParts])
    have hclaimed : ChangesOnly ticketParts s (claimed s) := .of_all (by simp [samePart, ticketParts])
    exact hframe ps hticket ((hclaimed.mono hticket).trans hvw)

theorem key_warmIssued {c : Instr} {f : State → State} {s : State} (hc : c ≠ .lineCommand)
    (he : exec c s = answerPendant f s) (hf : f (heard s) = retest (enterWarm .pendant (heard s))) :
    ∃ v w t, exec c s = .next t ∧ WarmIssued c s v w t := by
  refine ⟨heard s, _, _, by rw [exec_key he, hf], ⟨.pendant, rfl⟩, keyEnd_carried _ _, by simp, by simp,
    by simp, by simp, rfl, .of_host (by simp), fun hst => ?_, fun _ hl => absurd hl hc, fun ps hps hw => ?_⟩
  · obtain ⟨⟨k, hr⟩, _⟩ := hst
    exact (((heard_reported s).after hr).quiet (keyEnd_reported s _)).logAndTickets
  · have h1 : ChangesOnly ps s (heard s) := ChangesOnly.mono (ps := [.line, .sent])
      (.of_all (by simp [samePart])) fun p hp => hps p (by revert hp; cases p <;> simp)
    have h2 : ∀ w, ChangesOnly ps w (keyEnd s w) := fun w => ChangesOnly.mono (ps := [.sent])
      (.of_all (by simp [samePart])) fun p hp => hps p (by revert hp; cases p <;> simp)
    exact (h1.trans hw).trans (h2 _)

theorem keysAnswered_heard {s : State} (hs : started s = true)
    (ha : s.line.auth = .localPendant ∨ s.line.auth = .localHeld) : keysAnswered (heard s) = true := by
  have h1 : isLocal (heard s) = true := (isLocal_iff (heard s)).mpr ha
  have h2 : started (heard s) = true := hs
  unfold keysAnswered
  rw [h1, h2]
  rfl

/-- Each command of `LineToWarm` takes the line to WARM where the statement has it enter (R10, R15, R16). -/
theorem warmIssued {s : State} {c : Instr} (h : WarmAsked s c)
    (hs : s.line.state = .cold ∨ s.line.state = .hold ∨ c = .keyThread) :
    ∃ v w t, exec c s = .next t ∧ WarmIssued c s v w t := by
  rcases h with ⟨rfl, hk, hb, ha⟩ | ⟨rfl, h1, ha⟩ | ⟨rfl, hst, hth, h1, ha⟩
  · exact lineCommand_warmIssued hk hb ha (by simpa using hs)
  · obtain ⟨hacc, hgo⟩ := lineGo_warm (s := heard s) (by simpa using hs) .pendant
    refine key_warmIssued (by decide) (f := keyLine .warm) rfl ?_
    rw [keyLine, if_pos ⟨keysAnswered_heard h1 ha, hacc⟩, hgo]
  · refine key_warmIssued (by decide) (f := keyThread) rfl ?_
    rw [keyThread, if_pos (keysAnswered_heard h1 ha)]
    simp [hst, endThread, hth]

/-- Settles O35. -/
theorem lineToWarm : Obligations.LineToWarm := by
  intro s c h
  have hthread : c = .keyThread → s.line.state = .thread := fun hc => by
    rcases h with ⟨rfl, _⟩ | ⟨rfl, _⟩ | ⟨_, ht, _⟩
    · cases hc
    · cases hc
    · exact ht
  refine ⟨fun hold => ?_, fun hs hl => ?_, fun hs hl => ?_⟩
  · obtain ⟨v, w, t, hex, hi⟩ := warmIssued h (.inr (.inl hold))
    obtain ⟨cause, he⟩ := hi.entered
    obtain ⟨hw, hlatch, hactive, hframe⟩ := warmFromHold (hi.state.trans hold) cause
    rw [← he] at hw hlatch hactive hframe
    refine ⟨t, hex, by rw [hi.carried.line, hw.heat], by rw [hi.carried.readyTest, hi.carried.line, hw.state],
      by rw [hi.carried.dose, hw.speed], fun a => ?_, (hi.halt.trans hw.halt).trans hi.carried.halt,
      fun a ha => ?_, hi.ticket hw.steady, hi.frame _ (by decide) hframe, hi.bytes hw.steady⟩
    · rw [hi.carried.latched, hlatch, latched_congr hi.alarms]
    · have := hactive a (by rwa [hi.carried.conditionActive] at ha)
      rwa [conditionActive, alarmRec_congr hi.alarms] at this
  all_goals
    have hcold : s.line.state = .cold ∨ s.line.state = .thread := hs.imp id hthread
    obtain ⟨v, w, t, hex, hi⟩ := warmIssued h (hs.imp id .inr)
    obtain ⟨cause, he⟩ := hi.entered
    have hv : v.line.state = .cold ∨ v.line.state = .thread := by rwa [hi.state]
  · have hw := warmFromStore hv (by rwa [hi.thread]) cause
    rw [← he] at hw
    refine ⟨t, hex, by rw [hi.carried.pos, hw.u, hi.pos, hi.thread], by rw [hi.carried.pos, hw.pos.1, hi.pos],
      by rw [hi.carried.pos, hw.pos.2.1, hi.pos], by rw [hi.carried.pos, hw.pos.2.2, hi.pos],
      by rw [hi.carried.storeLevel, hw.level, hi.thread], by rw [hi.carried.line, hw.heat],
      by rw [hi.carried.readyTest, hi.carried.line, hw.state], by rw [hi.carried.dose, hw.speed],
      fun a ha => ⟨?_, fun hc => ?_⟩, fun hp => ?_, fun hn => ?_,
      by rw [hi.carried.conditionActive, hw.store.1], by rw [hi.carried.conditionActive, hw.store.2],
      (hi.halt.trans hw.halt).trans hi.carried.halt, hi.ticket hw.steady,
      hi.frame _ (by decide) hw.frame, hi.bytes hw.steady⟩
    · rw [hi.carried.latched, (hw.alarms a ha).1, latched_congr hi.alarms]
    · have := (hw.alarms a ha).2 (by rwa [hi.carried.conditionActive] at hc)
      rwa [conditionActive, alarmRec_congr hi.alarms] at this
    · rw [hi.carried.latched]
      exact hw.phaseLatch (by rwa [latched_congr hi.alarms])
    · rw [hi.carried.latched, hw.phaseAlone (by rw [hi.ord, hn]), latched_congr hi.alarms]
  · have hw := warmNearStore hv (by rwa [hi.thread]) cause
    rw [← he] at hw
    refine ⟨t, hex, by rw [hi.carried.pos, hw.u, hi.pos, hi.thread],
      by rw [hi.carried.storeLevel, hw.level, hi.thread], by rw [hi.carried.latched, hw.low],
      fun hn => ?_, fun h3 hn => ?_, hi.ticket hw.steady, hi.bytes hw.steady⟩
    · rw [← hi.thread, ← alarmRec_congr hi.alarms] at hn
      rw [hi.carried.line, hi.carried.dose, hi.carried.conditionActive, hi.carried.conditionActive, ← hi.thread]
      exact hw.stays hn
    · rw [← alarmRec_congr hi.alarms] at hn
      rw [hi.carried.line, hi.carried.dose, hi.carried.conditionActive, hi.carried.conditionActive,
        hi.carried.latched, hi.carried.halt]
      exact hw.halts (by rwa [hi.thread]) hn

end Sys2Proof.Proofs
end

