-- ==== Sys2Proof/Proofs/SectionClear.lean ====
section
/-! PROOFS. SECTION_CLEAR: the latches it clears, one notice each, and the line and the result area after
it (R3, R8). -/

-- One thread for the whole file: each waiting thread reserves its stack.
set_option Elab.async false

namespace Sys2Proof.Machine

/-! ## The latches cleared (R8) -/

/-- Whether a SECTION_CLEAR of a set removes an alarm's latch. -/
def clearable (set : Byte) (s : State) (a : Alarm) : Bool :=
  namesSection set a.section_ && latched s a && !conditionActive s a

theorem clearLatch_eq (set : Byte) (s : State) (a : Alarm) :
    clearLatch set s a = if clearable set s a = true then removeLatch 1 a s else s := by
  simp [clearLatch, clearable, Bool.and_assoc]

theorem removeLatch_reported (how : Word) (a : Alarm) (s : State) : Reported 1 s (removeLatch how a s) :=
  Reported.after (t := setAlarm a { alarmRec s a with latched := false } s) (.of_same)
    (writeNotice_reported _ _ _ _ _)

theorem removeLatch_same (how : Word) (a : Alarm) (s : State) :
    alarmRec (removeLatch how a s) a = { alarmRec s a with latched := false } := alarmRec_setAlarm_same a _ s

theorem removeLatch_other {a b : Alarm} (h : a ≠ b) (how : Word) (s : State) :
    alarmRec (removeLatch how a s) b = alarmRec s b := alarmRec_setAlarm_other h _ s

/-- The clears of some alarms: exactly the clearable latches have gone, each with a notice. -/
structure Cleared (set : Byte) (l : List Alarm) (s t : State) : Prop where
  latches : ∀ a, latched t a = (latched s a && !(l.contains a && clearable set s a))
  active : ∀ a, conditionActive t a = conditionActive s a
  line : t.line = { s.line with alarms := t.line.alarms }
  frame : ChangesOnly [.mem, .line, .host] s t
  reported : Reported (l.countP (clearable set s)) s t

theorem clearLatch_cleared (set : Byte) (s : State) (a : Alarm) : Cleared set [a] s (clearLatch set s a) := by
  rw [clearLatch_eq]
  by_cases h : clearable set s a = true
  · rw [if_pos h]
    refine ⟨fun b => ?_, fun b => ?_, rfl, .of_all (by simp [samePart]), ?_⟩
    · by_cases hb : a = b
      · subst hb
        simp [latched, removeLatch_same, h]
      · simp [latched, removeLatch_other hb, Ne.symm hb]
    · by_cases hb : a = b
      · subst hb
        simp [conditionActive, removeLatch_same]
      · simp [conditionActive, removeLatch_other hb]
    · simpa [h] using removeLatch_reported 1 a s
  · rw [if_neg h]
    refine ⟨fun b => ?_, fun _ => rfl, rfl, .rfl _ _, by simpa [h] using Reported.rfl s⟩
    by_cases hb : b = a
    · subst hb
      simp [h]
    · simp [hb]

theorem clearLatches_cleared (set : Byte) (l : List Alarm) (hl : l.Nodup) (s : State) :
    Cleared set l s (l.foldl (clearLatch set) s) := by
  induction l generalizing s with
  | nil => exact ⟨by simp, fun _ => rfl, rfl, .rfl _ _, .rfl s⟩
  | cons a l ih =>
    obtain ⟨ha, hl⟩ := List.nodup_cons.mp hl
    have h1 := clearLatch_cleared set s a
    have h2 := ih hl (clearLatch set s a)
    rw [List.foldl_cons]
    generalize clearLatch set s a = u at *
    have hc : ∀ b ∈ l, clearable set u b = clearable set s b := fun b hb => by
      have hab : b ≠ a := fun e => ha (e ▸ hb)
      simp [clearable, h1.latches b, h1.active b, hab]
    have hlatch : ∀ b, (l.contains b && clearable set u b) = (l.contains b && clearable set s b) := fun b => by
      by_cases hb : b ∈ l
      · rw [hc b hb]
      · simp [hb]
    refine ⟨fun b => ?_, fun b => (h2.active b).trans (h1.active b), ?_, h1.frame.trans h2.frame, ?_⟩
    · rw [h2.latches, h1.latches, hlatch]
      by_cases hb : b = a
      · subst hb
        simp [ha]
      · simp [hb]
    · rw [h2.line, h1.line]
    · have hcount : l.countP (clearable set u) = l.countP (clearable set s) :=
        List.countP_congr fun b hb => by rw [hc b hb]
      have := h1.reported.trans h2.reported
      rwa [hcount, ← List.countP_append] at this

/-! ## The line after the clears -/

/-- The line state after a SECTION_CLEAR, given what it leaves latched and what the readiness test says. -/
def clearedState (set : Byte) (old : LineState) (halted ready : Bool) : LineState :=
  if old = .halt then (if namesSection set 0 = true ∧ halted = false then .cold else .halt)
  else if old = .warm ∨ old = .ready then (if ready = true then .ready else .warm)
  else old

/-- The clearing's end: HALT left for COLD, or the readiness test, or nothing. -/
structure LineCleared (set : Byte) (s t : State) : Prop where
  latches : ∀ a, latched t a = latched s a
  state : t.line.state = clearedState set s.line.state (haltCauseLatched s) (readyTest t)
  reported : Reported (if t.line.state ≠ s.line.state then 1 else 0) s t
  walker : t.walker.state = s.walker.state
  x : t.pos.x = s.pos.x
  still : s.line.state ≠ .halt → s.line.state ≠ .warm → s.line.state ≠ .ready → t = s

theorem enterState_lineCleared {set : Byte} {s : State} {new : LineState} {cause : LineCause}
    (hw : s.walker.state ≠ .full) (hn : s.line.state ≠ new)
    (hs : s.line.state = .halt ∨ s.line.state = .warm ∨ s.line.state = .ready)
    (state : new = clearedState set s.line.state (haltCauseLatched s) (readyTest (enterState new cause s))) :
    LineCleared set s (enterState new cause s) := by
  obtain ⟨h1, h2⟩ := enterState_quiet new cause hw
  have h3 := enterState_state new cause s
  have h4 := latched_enterState new cause s
  have h5 : (enterState new cause s).pos.x = s.pos.x := by simp
  generalize enterState new cause s = e at *
  refine ⟨h4, h3.trans state, ?_, h2, h5, fun h6 h7 h8 => ?_⟩
  · rw [if_pos (by rw [h3]; exact hn.symm)]
    exact h1
  · rcases hs with h | h | h <;> contradiction

theorem LineCleared.same {set : Byte} {s : State}
    (state : s.line.state = clearedState set s.line.state (haltCauseLatched s) (readyTest s)) :
    LineCleared set s s :=
  ⟨fun _ => rfl, state, by simpa using Reported.rfl s, rfl, rfl, fun _ _ _ => rfl⟩

theorem retest_leaveHalt (set : Byte) {s : State} (hw : s.walker.state ≠ .full) :
    LineCleared set s (retest (leaveHalt set s)) := by
  unfold leaveHalt
  by_cases hh : s.line.state = .halt
  · by_cases hc : namesSection set 0 = true ∧ haltCauseLatched s = false
    · rw [if_pos ⟨hh, hc.1, by simp [hc.2]⟩, retest_elsewhere (by simp) (by simp)]
      exact enterState_lineCleared hw (by simp [hh]) (.inl hh) (by rw [clearedState, if_pos hh, if_pos hc])
    · rw [if_neg (fun h => hc ⟨h.2.1, by simpa using h.2.2⟩),
        retest_elsewhere (by simp [hh]) (by simp [hh])]
      exact .same (by rw [clearedState, if_pos hh, if_neg hc, hh])
  · rw [if_neg fun h => hh h.1]
    by_cases hr : s.line.state = .warm ∨ s.line.state = .ready
    · have hrun : s.line.state ≠ .run := by rcases hr with h | h <;> simp [h]
      rcases retest_moves hr with ⟨he, hs⟩ | ⟨new, hn, hnew, hne, he⟩ <;> rw [he]
      · exact .same (by rw [clearedState, if_neg hh, if_pos hr]; exact hs)
      · refine enterState_lineCleared hw hne (.inr hr) ?_
        rw [clearedState, if_neg hh, if_pos hr, readyTest_enterState hn hrun]
        exact hnew
    · rw [retest_elsewhere (fun h => hr (.inl h)) fun h => hr (.inr h)]
      exact .same (by rw [clearedState, if_neg hh, if_neg hr])

end Sys2Proof.Machine

namespace Sys2Proof.Proofs

open Sys2Proof.Machine

/-! ## The result area -/

/-- A run written into the result area of a ticket reads back after the take. -/
theorem takeEnd_result {s w : State} (h1 : 1 ≤ look s) (h2 : look s ≤ 256) (wf : Memory.wf w.mem = true)
    {bs : List Byte} (hb : bs.length ≤ 0x80) (code : ResultCode) (d : Word) {i : Nat} (hi : i < bs.length) :
    ticketByte (takeEnd s (finishTicket (look s) code d (putBytes (ticketBase (look s) + 0x80) bs w)))
      (look s) (0x80 + i) = bs[i] := by
  obtain ⟨_, hend⟩ := ticketBase_range h1 h2
  rw [takeEnd_body _ _ _ _ (by omega), ticketByte, putBytes_mem, ← Nat.add_assoc]
  exact Memory.get_putAll_in wf _ bs (by omega) i hi

theorem stillLatched_length (set : Byte) (s : State) : (stillLatched set s).length ≤ 18 := by
  unfold stillLatched
  rw [List.length_map]
  exact List.length_filter_le _ _

theorem takeSectionClear_accepted {s : State} {n : Nat} (h : ticketByte s n 0x20 ≠ 0) :
    takeSectionClear n s = finishTicket n .ok (stateWord (clearSections (ticketByte s n 0x20) s))
      (putBytes (ticketBase n + 0x80) (clearResult (ticketByte s n 0x20) (clearSections (ticketByte s n 0x20) s))
        (clearSections (ticketByte s n 0x20) s)) := if_neg h

/-- A take writes a notice of its own exactly where the walker stalls. -/
theorem takeEnd_written {s w : State} (h : w.walker.state ≠ .stalled) (n : Nat) (code : ResultCode) (d : Word) :
    (takeEnd s (finishTicket n code d w)).host.written = w.host.written
      + natWord (if (takeEnd s (finishTicket n code d w)).walker.state = .stalled then 1 else 0) := by
  have hf := (finishTicket_reported n code d w).written
  rw [takeEnd_host, takeEnd_walker]
  rcases afterTake_reported (v := finishTicket n code d w) h with ⟨hr, hs⟩ | ⟨hr, hs⟩
  · rw [if_neg hs, hr.written, hf, BitVec.add_assoc]
    rfl
  · rw [if_pos hs, hr.written, hf, BitVec.add_assoc]
    rfl

/-- The whole clearing, of the latches and of the line (R3, R8). -/
structure SectionsCleared (set : Byte) (s w : State) : Prop where
  latches : ∀ a, latched w a = (latched s a && (!namesSection set a.section_ || conditionActive s a))
  state : w.line.state = clearedState set s.line.state (haltCauseLatched w) (readyTest w)
  reported : Reported (Alarm.all.countP (clearable set s) + if w.line.state ≠ s.line.state then 1 else 0) s w
  walker : w.walker.state = s.walker.state
  x : w.pos.x = s.pos.x
  frame : s.line.state ≠ .halt → s.line.state ≠ .warm → s.line.state ≠ .ready →
    ChangesOnly [.mem, .line, .host] s w

theorem clearSections_cleared (set : Byte) {s : State} (hw : s.walker.state ≠ .full) :
    SectionsCleared set s (clearSections set s) := by
  have h1 := clearLatches_cleared set Alarm.all (by decide) s
  unfold clearSections
  generalize Alarm.all.foldl (clearLatch set) s = u at *
  have hwalker : u.walker = s.walker := h1.frame .walker (by decide)
  have hpos : u.pos = s.pos := h1.frame .pos (by decide)
  have hstate : u.line.state = s.line.state := by rw [h1.line]
  have h2 := retest_leaveHalt set (s := u) (by rwa [hwalker])
  have hhalt : haltCauseLatched (retest (leaveHalt set u)) = haltCauseLatched u := by
    unfold haltCauseLatched
    simp only [h2.latches]
  have hall : ∀ a : Alarm, Alarm.all.contains a = true := fun a => by cases a <;> rfl
  have hstill := h2.still
  rw [hstate] at hstill
  refine ⟨fun a => ?_, ?_, ?_, h2.walker.trans (by rw [hwalker]), h2.x.trans (by rw [hpos]), fun h3 h4 h5 => ?_⟩
  · rw [h2.latches, h1.latches, hall, clearable]
    cases namesSection set a.section_ <;> cases latched s a <;> cases conditionActive s a <;> rfl
  · rw [h2.state, hstate, hhalt]
  · have := h1.reported.trans h2.reported
    rwa [hstate] at this
  · rw [hstill h3 h4 h5]
    exact h1.frame

theorem sectionClear_accepted {s : State} (hk : TakesKind s 0x13) (h0 : bodyByte s (look s) 0x20 ≠ 0)
    {named : Alarm → Bool}
    (hn : ∀ a, named a = namesSection (ticketByte s (look s) 0x20) a.section_) :
    ∃ t, exec .sectionClear s = .next t
      ∧ (∀ a, latched t a = (latched s a && (!named a || conditionActive s a)))
      ∧ t.line.state =
        (if s.line.state = .halt then
          (if named .estop = true ∧ haltCauseLatched t = false then .cold else .halt)
        else if s.line.state = .warm ∨ s.line.state = .ready then
          (if readyTest t = true then .ready else .warm)
        else s.line.state)
      ∧ TicketShows (look s) .ok (natWord t.line.state.code) s t ∧ TakeRecorded s t
      ∧ ticketByte t (look s) 0x80 =
        natByte (Alarm.all.filter fun a => named a && latched t a).length
      ∧ (∀ k a, (Alarm.all.filter fun a => named a && latched t a)[k]? = some a →
        ticketByte t (look s) (0x81 + k) = natByte a.number)
      ∧ t.host.written = s.host.written + natWord
        ((Alarm.all.filter fun a => latched s a && !latched t a).length
        + (if t.line.state ≠ s.line.state then 1 else 0)
        + (if t.walker.state = .stalled then 1 else 0))
      ∧ (s.line.state ≠ .halt → s.line.state ≠ .warm → s.line.state ≠ .ready →
        ChangesOnly (.line :: ticketParts) s t)
      ∧ LogAndTicketsOnly s t := by
  obtain rfl : named = fun a => namesSection (ticketByte s (look s) 0x20) a.section_ := funext hn
  have hset : ticketByte (claimed s) (look s) 0x20 = ticketByte s (look s) 0x20 :=
    claimed_ticketByte s (by decide)
  have hne : ticketByte s (look s) 0x20 ≠ 0 := fun h => h0 (by rw [bodyByte, h]; rfl)
  have hf := takeSectionClear_accepted (s := claimed s) (n := look s) (by rwa [hset])
  rw [hset] at hf
  have hc := clearSections_cleared (ticketByte s (look s) 0x20) (s := claimed s) (by simp [hk.running])
  have hlatch : ∀ a, latched (claimed s) a = latched s a := fun a => latched_congr (by simp) a
  have hactive : ∀ a, conditionActive (claimed s) a = conditionActive s a := fun a => by
    rw [conditionActive, alarmRec_congr (s := s) (by simp), conditionActive]
  refine ⟨_, by rw [exec_take rfl hk, hf], ?_⟩
  generalize clearSections (ticketByte s (look s) 0x20) (claimed s) = w at *
  generalize ticketByte s (look s) 0x20 = set at *
  obtain ⟨_, _, hlow, hhigh, _⟩ := id hk
  have hbase := ticketBase_range hlow hhigh
  have hput := putTicket_reported (a := ticketBase (look s) + 0x80) (by omega) (clearResult set w) w
  have hcar := takeEnd_carried s (putBytes (ticketBase (look s) + 0x80) (clearResult set w) w) (look s) .ok
    (stateWord w)
  have hlen := stillLatched_length set w
  have hres := fun i hi => takeEnd_result (s := s) hlow hhigh (hc.reported.wf (claimed_wf hk.wf))
    (bs := clearResult set w) (by simp only [clearResult, List.length_cons, List.length_map]; omega) .ok
    (stateWord w) (i := i) hi
  have hrun := hk.not_stalled (w := putBytes (ticketBase (look s) + 0x80) (clearResult set w) w)
    (by simpa using hc.walker)
  have hwith := takeEnd_takenWith hk (hc.reported.quiet hput) (by simpa using hc.x) .ok (stateWord w) hrun
  have hwritten := takeEnd_written (s := s) hrun (look s) .ok (stateWord w)
  have hframe := fun ps (h : ∀ p ∈ ticketParts, p ∈ ps) hp => takeEnd_changesOnly (s := s)
    (w := putBytes (ticketBase (look s) + 0x80) (clearResult set w) w) h hp .ok (stateWord w)
  generalize takeEnd s (finishTicket (look s) .ok (stateWord w)
    (putBytes (ticketBase (look s) + 0x80) (clearResult set w) w)) = t at *
  have hline : t.line = w.line := by rw [hcar.line, (putBytes_keeps _ _ _).1]
  have hlt : ∀ a, latched t a = latched w a := fun a => latched_congr (by rw [hline]) a
  have hready : readyTest t = readyTest w := hcar.readyTest.trans
    (readyTest_congr (by simp) (by simp) (fun a => latched_congr (by simp) a) (by simp) (by simp))
  have hhalt : haltCauseLatched t = haltCauseLatched w := by
    unfold haltCauseLatched
    simp only [hlt]
  have hlist : (Alarm.all.filter fun a => namesSection set a.section_ && latched t a).map Alarm.number
      = stillLatched set w := by
    unfold stillLatched
    simp only [hlt]
  have hcount : (Alarm.all.filter fun a => latched s a && !latched t a).length
      = Alarm.all.countP (clearable set (claimed s)) := by
    rw [← List.countP_eq_length_filter]
    refine List.countP_congr fun a _ => ?_
    rw [hlt, hc.latches, clearable, hlatch, hactive]
    cases namesSection set a.section_ <;> cases latched s a <;> cases conditionActive s a <;> decide
  refine ⟨fun a => ?_, ?_, ?_, hwith.recorded, ?_, fun k a ha => ?_, ?_, fun h1 h2 h3 => ?_, hwith.bytes⟩
  · rw [hlt, hc.latches, hlatch, hactive]
  · rw [hline, hc.state, hready, hhalt, (claimed_keeps s).1]
    rfl
  · rw [hline]
    exact hwith.shows
  · have := hres 0 (by simp [clearResult])
    rw [this]
    simp only [clearResult, List.getElem_cons_zero, ← hlist, List.length_map]
  · obtain ⟨hk1, hk2⟩ := List.getElem?_eq_some_iff.mp ha
    have hk3 : k < (stillLatched set w).length := by rwa [← hlist, List.length_map]
    have := hres (k + 1) (by simpa [clearResult] using hk3)
    rw [show 0x81 + k = 0x80 + (k + 1) by omega, this]
    simp only [clearResult, List.getElem_cons_succ, List.getElem_map, ← hlist, hk2]
  · rw [hwritten, (hc.reported.quiet hput).written, hcount, hline]
    simp only [claimed_keeps, natWord, BitVec.ofNat_add, BitVec.add_assoc]
  · refine hframe _ (by decide) ?_
    have h4 : ChangesOnly (.line :: ticketParts) s (claimed s) := .of_all (by simp [samePart, ticketParts])
    have h5 := (hc.frame (by simpa using h1) (by simpa using h2) (by simpa using h3)).mono
      (qs := .line :: ticketParts) (by decide)
    exact (h4.trans h5).trans (.of_all (by simp [samePart, ticketParts]))

/-- Settles O37. -/
theorem sectionClear : Obligations.SectionClear := by
  intro s hk
  refine ⟨fun h => refused_of rfl hk ?_, fun named h0 hn => sectionClear_accepted hk h0 hn⟩
  have h0 : ticketByte (claimed s) (look s) 0x20 = 0 := by
    rw [claimed_ticketByte s (by decide)]
    exact BitVec.eq_of_toNat_eq h
  exact if_pos h0

end Sys2Proof.Proofs
end

