-- ==== Sys2Proof/Proofs/LogOnly.lean ====
section
/-! PROOFS. Operations that write notices alone: no ticket byte is touched and the walker stands as it
did. A change of line state is one where no auto-zero runs (R141, R148). -/

-- One thread for the whole file: each waiting thread reserves its stack.
set_option Elab.async false

namespace Sys2Proof.Machine

/-- Between two states nothing was written but notices, and the walker is as it was. -/
structure LogOnly (s t : State) : Prop where
  walker : t.walker = s.walker
  bytes : BytesKept logBytes s t
  reported : ∃ k, Reported k s t

theorem LogOnly.of_reported {s t : State} {k : Nat} (h : Reported k s t) (mem : t.mem = s.mem := by simp)
    (walker : t.walker = s.walker := by simp) : LogOnly s t := ⟨walker, .of_mem mem, k, h⟩

theorem LogOnly.of_same {s t : State} (mem : t.mem = s.mem := by simp) (host : t.host = s.host := by simp)
    (walker : t.walker = s.walker := by simp) : LogOnly s t :=
  .of_reported (.of_same mem host (by rw [walker]) (by rw [walker])) mem walker

theorem LogOnly.rfl (s : State) : LogOnly s s := .of_same (Eq.refl _) (Eq.refl _) (Eq.refl _)

theorem LogOnly.trans {s t u : State} (h1 : LogOnly s t) (h2 : LogOnly t u) : LogOnly s u := by
  obtain ⟨j, hj⟩ := h1.reported
  obtain ⟨k, hk⟩ := h2.reported
  exact ⟨h2.walker.trans h1.walker, h1.bytes.trans h2.bytes, j + k, hj.trans hk⟩

theorem LogOnly.foldl {α : Type} {f : State → α → State} (h : ∀ s a, LogOnly s (f s a)) (l : List α)
    (s : State) : LogOnly s (l.foldl f s) := by
  induction l generalizing s with
  | nil => exact .rfl s
  | cons a l ih => exact (h s a).trans (ih (f s a))

/-- A finished ticket stays shown. -/
theorem LogOnly.shows {n : Nat} {code : ResultCode} {d : Word} {s t u : State} (h : LogOnly t u)
    (hs : TicketShows n code d s t) : TicketShows n code d s u := by
  obtain ⟨k, hk⟩ := h.reported
  refine hs.later h.bytes (fun a ha => .inl ?_) (hk.causes _)
  have := ticketBase_low n
  unfold logBytes at ha
  omega

/-- The ticket area is as it was. -/
theorem LogOnly.ticketByte {s t : State} (h : LogOnly s t) (n i : Nat) :
    ticketByte t n i = ticketByte s n i := by
  refine h.bytes _ fun ha => ?_
  have := ticketBase_low n
  unfold logBytes at ha
  omega

theorem LogOnly.handOf {s t : State} (h : LogOnly s t) (n : Nat) : handOf t n = handOf s n := by
  unfold Machine.handOf
  rw [h.ticketByte]

theorem writeNotice_logOnly (k : NoticeKind) (d1 d2 d3 : Word) (s : State) :
    LogOnly s (writeNotice k d1 d2 d3 s) :=
  ⟨by simp, (writeNotice_bytes k d1 d2 d3 s).mono fun _ h => by
    have := noticeAt_in_log s
    unfold nextNoticeBytes at h
    unfold logBytes
    omega, 1, writeNotice_reported k d1 d2 d3 s⟩

theorem raised_logOnly (a : Alarm) (d1 d2 : Word) (s : State) : LogOnly s (raised a d1 d2 s) :=
  LogOnly.trans (t := setAlarm a ⟨true, true⟩ s) (.of_same) (writeNotice_logOnly _ _ _ _ _)

theorem endCondition_logOnly (a : Alarm) (s : State) : LogOnly s (endCondition a s) := .of_same

theorem setTarget_logOnly (n : Half) (target : Int) (limited : Bool) (s : State) :
    LogOnly s (setTarget n target limited s) := by
  have h0 : LogOnly s { s with reg := { s.reg with target := target, limited := limited } } :=
    .of_same rfl rfl rfl
  unfold setTarget
  split
  · refine h0.trans ?_
    rcases raiseAlarm_phaseLimit (n.setWidth 32) 0
      { s with reg := { s.reg with target := target, limited := limited } } with he | he <;> rw [he]
    · exact .rfl _
    · exact raised_logOnly _ _ _ _
  · exact h0.trans (endCondition_logOnly _ _)

theorem review_logOnly (s : State) : LogOnly s (review s) := by
  unfold review
  split
  · exact .rfl s
  · split
    · exact .rfl s
    · split
      · exact .rfl s
      · split
        · exact setTarget_logOnly _ _ _ s
        · exact .rfl s

/-! ## Entries while no auto-zero runs -/

/-- No auto-zero runs. -/
def NoAutos (s : State) : Prop := ∀ z : Fin 4, s.tens.zones[z].auto = none

/-- Outside COLD and THREAD no auto-zero runs (R146, R148). -/
theorem AutoZeroLaw.noAutos {s : State} (h : AutoZeroLaw s) (h1 : s.line.state ≠ .cold)
    (h2 : s.line.state ≠ .thread) : NoAutos s := by
  intro z
  by_contra hn
  rcases h z (Option.isSome_iff_ne_none.mpr hn) with h | ⟨h, _⟩
  · exact h1 h
  · exact h2 h

theorem abortAutos_none {s : State} (h : NoAutos s) (r : Nat) : abortAutos r s = s := by
  have hz : ∀ z, abortAuto r s z = s := fun z => by
    unfold abortAuto
    rw [h z]
  simp [abortAutos, tensionZones, hz]

theorem tensionAnswer_logOnly {s : State} (h : NoAutos s) (new : LineState) :
    LogOnly s (tensionAnswer new s) := by
  unfold tensionAnswer
  rw [abortAutos_none]
  · split <;> exact .of_same
  · intro z
    cases new <;> simpa [endBreak, coldTargets, mapTension] using h z

theorem enterState_logOnly {s : State} (h : NoAutos s) (new : LineState) (cause : LineCause) :
    LogOnly s (enterState new cause s) := by
  have h1 : LogOnly s (writeNotice .lineState (natWord s.line.state.code) (natWord new.code) cause.word
      (setLineState new s)) :=
    LogOnly.trans (t := setLineState new s) (.of_same) (writeNotice_logOnly _ _ _ _ _)
  have h2 : ∀ u : State, LogOnly u (haltCause new u) := fun u => by
    refine .of_reported (haltCause_reported new u) ?_ ?_ <;> simp
  have h3 : ∀ (u : State) had old, LogOnly u (storeAnswer new (speedAnswer new (wrapAnswer old new
      (heatAnswer had u)))) := fun u had old => .of_same
  have h4 := (h1.trans (h2 _)).trans (h3 _ s.line.heat s.line.state)
  have h5 := h4.trans (tensionAnswer_logOnly (new := new) (fun z => by simpa using h z))
  have h6 : ∀ u : State, LogOnly u (printTest u) := fun u => .of_same
  exact h5.trans (h6 _)

theorem retest_logOnly {s : State} (h : NoAutos s) : LogOnly s (retest s) := by
  rcases retest_cases s with he | ⟨_, _, he⟩ | ⟨_, _, he⟩ <;> rw [he]
  · exact .rfl s
  · exact enterState_logOnly h _ _
  · exact enterState_logOnly h _ _

/-- The readiness test under the law of the auto-zeros (R148). -/
theorem retest_lawful {s : State} (h : s.line.state = .warm ∨ s.line.state = .ready → NoAutos s) :
    LogOnly s (retest s) := by
  by_cases hs : s.line.state = .warm ∨ s.line.state = .ready
  · exact retest_logOnly (h hs)
  · rw [retest_elsewhere (fun e => hs (.inl e)) fun e => hs (.inr e)]
    exact .rfl s

end Sys2Proof.Machine
end

