-- ==== Sys2Proof/Proofs/PhaseHomeTake.lean ====
section
/-! PROOFS. PHASE_HOME at its take (R92). -/

-- One thread for the whole file: each waiting thread reserves its stack.
set_option Elab.async false

namespace Sys2Proof.Machine

/-- What the walker does after a take, from the state that the owner has left (R170, R171, R173). -/
theorem takeEnd_wentOn {s v : State} (wf : Memory.wf s.mem = true)
    (bytes : BytesKept (finishBytes (look s)) (claimed s) v) (hrep : Reported 0 (claimed s) v)
    (ha : Alike s v) : WalkerWentOn s (takeEnd s v) := by
  have hlink : linkOf v (look s) = linkOf s (look s) := by
    have hout : ∀ i, 4 ≤ i → i < 8 → ¬ finishBytes (look s) (ticketBase (look s) + i) := fun i h4 h8 h => by
      unfold finishBytes at h
      omega
    unfold linkOf
    rw [ticketHalf, bytes.half_eq (hout 4 (by omega) (by omega)) (hout 5 (by omega) (by omega))]
    exact congrArg BitVec.toNat (claimed_ticketHalf s (by omega))
  have hlim : ticketLimit v = ticketLimit s :=
    (hrep.logAndTickets.cfgByte_eq (by decide)).trans ((claimed_logAndTickets s).cfgByte_eq (by decide))
  have hfrom : v.walker.fromTicket = some (look s) := by
    rw [hrep.fromTicket]
    rfl
  have h := afterTake_wentOn hfrom hlink hlim ha (hrep.wf (claimed_wf wf))
  unfold WalkerWentOn MovedOn MovedOnFrom StalledWith NoticeShown inChain causeSet at h ⊢
  rw [takeEnd_walker, takeEnd_host, takeEnd_mem]
  exact h

/-- The claim leaves the ticket TAKEN. -/
theorem claimed_hand {s : State} (wf : Memory.wf s.mem = true) (h1 : 1 ≤ look s) (h2 : look s ≤ 256) :
    handOf (claimed s) (look s) = 2 := by
  obtain ⟨_, hend⟩ := ticketBase_range h1 h2
  exact Memory.get_putAll_in wf (ticketBase (look s)) [2] (by simp; omega) 0 (by simp)

/-- The roller target 0 and the end of PHASE_LIMIT (R92). -/
def homeward (s : State) : State := setTarget 0 0 false s

theorem homeward_reg (s : State) :
    (homeward s).reg = { s.reg with target := 0, limited := false } := rfl

@[simp] theorem homeward_keeps (s : State) :
    (homeward s).mem = s.mem ∧ (homeward s).lib = s.lib ∧ (homeward s).pos = s.pos
    ∧ (homeward s).trig = s.trig ∧ (homeward s).ord = s.ord ∧ (homeward s).heat = s.heat
    ∧ (homeward s).dose = s.dose ∧ (homeward s).tens = s.tens
    ∧ (homeward s).lastReading = s.lastReading ∧ (homeward s).walker = s.walker
    ∧ (homeward s).host = s.host ∧ (homeward s).sent = s.sent ∧ (homeward s).drawn = s.drawn
    ∧ (homeward s).pending = s.pending ∧ (homeward s).line.state = s.line.state :=
  ⟨rfl, rfl, rfl, rfl, rfl, rfl, rfl, rfl, rfl, rfl, rfl, rfl, rfl, rfl, rfl⟩

theorem homeward_endsOnly (s : State) : EndsOnly [.phaseLimit] s (homeward s) :=
  EndsOnly.trans (t := { s with reg := { s.reg with target := 0, limited := false } }) (.of_same rfl)
    (endCondition_endsOnly _ _)

/-- The state in which the readiness test finds the line after a PHASE_HOME: finished, or TAKEN. -/
structure HomeTaken (s v : State) : Prop where
  reported : Reported 0 (claimed s) v
  bytes : BytesKept (finishBytes (look s)) (claimed s) v
  walker : v.walker.state = s.walker.state
  line : v.line = (homeward (claimed s)).line
  tens : v.tens = s.tens
  frame : ChangesOnly (.line :: .reg :: ticketParts) s v

theorem HomeTaken.state {s v : State} (h : HomeTaken s v) : v.line.state = s.line.state := by
  rw [h.line]
  simp

/-- The end of such a take, whatever the readiness test has done. -/
structure HomeShown (s v t : State) : Prop where
  reg : t.reg = v.reg
  active : conditionActive t .phaseLimit = false
  latches : ∀ a, latched t a = latched s a
  recorded : TakeRecorded s t
  outstanding : t.walker.outstanding = v.walker.outstanding
  hand : handOf t (look s) = handOf v (look s)
  shows : ∀ code d, TicketShows (look s) code d s v → TicketShows (look s) code d s t
  state : t.line.state = (if s.line.state = .warm ∨ s.line.state = .ready then
    (if readyTest t = true then .ready else .warm) else s.line.state)
  elsewhere : s.line.state ≠ .warm → s.line.state ≠ .ready →
    ChangesOnly (.line :: .reg :: ticketParts) s t ∧ WalkerWentOn s t
  bytes : LogAndTicketsOnly s t

theorem HomeTaken.shown {s v : State} {kind : Nat} (hk : TakesKind s kind) (hz : AutoZeroLaw s)
    (h : HomeTaken s v) : HomeShown s v (takeEnd s (retest v)) := by
  have hlog : LogOnly v (retest v) := retest_lawful fun hs z => by
    rw [h.tens]
    refine hz.noAutos ?_ ?_ z <;> rw [← h.state] <;> rcases hs with hs | hs <;> simp [hs]
  have hends : EndsOnly [.phaseLimit] (claimed s) v := fun a => by
    rw [alarmRec_congr (s := homeward (claimed s)) (by rw [h.line])]
    exact homeward_endsOnly (claimed s) a
  have hretest : (∀ a, latched (retest v) a = latched v a)
      ∧ (conditionActive (retest v) .phaseLimit = true → conditionActive v .phaseLimit = true)
      ∧ (retest v).line.state = (if s.line.state = .warm ∨ s.line.state = .ready then
        (if readyTest (retest v) = true then .ready else .warm) else s.line.state) := by
    rw [← h.state]
    by_cases hs : v.line.state = .warm ∨ v.line.state = .ready
    · have hr := retest_retested hs
      exact ⟨hr.latches, hr.active _, by rw [if_pos hs]; exact hr.state⟩
    · rw [retest_elsewhere (fun e => hs (.inl e)) fun e => hs (.inr e), if_neg hs]
      exact ⟨fun _ => rfl, id, rfl⟩
  obtain ⟨r1, r2, r3⟩ := hretest
  obtain ⟨k, hk2⟩ := hlog.reported
  have hrep := h.reported.after hk2
  have hrun : (retest v).walker.state ≠ .stalled := by
    rw [hlog.walker, h.walker, hk.running]
    decide
  have hmore : ∃ j, Reported j (retest v) (afterTake (retest v)) := by
    rcases afterTake_reported hrun with ⟨h1, _⟩ | ⟨h1, _⟩
    · exact ⟨_, h1⟩
    · exact ⟨_, h1⟩
  obtain ⟨j, hj⟩ := hmore
  have hall := hrep.trans hj
  have hlow : ∀ a, nextNoticeBytes (retest v) a → a < ticketBase (look s) := fun a ha => by
    have := nextNoticeBytes_low ha
    have := ticketBase_low (look s)
    omega
  refine ⟨by simp, ?_, fun a => ?_, ?_, ?_, ?_, fun code d hs => ?_, ?_, fun h1 h2 => ?_, ?_⟩
  · rw [conditionActive, alarmRec_congr (s := retest v) (by simp), ← conditionActive]
    refine Bool.eq_false_iff.mpr fun hc => ?_
    have := r2 hc
    rw [hends.conditionActive] at this
    simp at this
  · rw [latched_congr (s := retest v) (by simp), r1, hends.latched]
    exact latched_congr (by simp) a
  · unfold TakeRecorded
    rw [takeEnd_walker, hall.expected, hall.fromTicket]
    exact ⟨rfl, rfl⟩
  · rw [takeEnd_walker, afterTake_outstanding, hlog.walker]
  · rw [← hlog.handOf]
    unfold handOf ticketByte
    rw [takeEnd_mem, afterTake_bytes]
    intro ha
    have := hlow _ ha
    omega
  · have := (hlog.shows hs).later (afterTake_bytes _) (fun a ha => .inl (hlow a ha)) (hj.causes _)
    unfold TicketShows handOf ticketByte ticketHalf ticketWord causeSet at this ⊢
    simpa using this
  · have hready : readyTest (takeEnd s (retest v)) = readyTest (retest v) :=
      readyTest_congr (by simp) (by simp) (fun a => latched_congr (by simp) a) (by simp) (by simp)
    rw [hready, (takeEnd_keeps _ _).1, r3]
  · rw [retest_elsewhere (by rw [h.state]; exact h1) (by rw [h.state]; exact h2)]
    refine ⟨?_, takeEnd_wentOn hk.wf h.bytes h.reported ⟨h.state, ?_, h.reported.host.clock, ?_⟩⟩
    · refine h.frame.trans (.of_all ?_)
      simp [samePart, ticketParts]
    · rw [show v.pos = s.pos from h.frame .pos (by decide)]
    · rw [h.reported.written]
      simp
  · refine BytesKept.trans (claimed_logAndTickets s) fun a ha => ?_
    rw [takeEnd_mem]
    exact hall.logAndTickets a ha

theorem homeTaken_of {s v : State}
    (reported : Reported 0 (homeward (claimed s)) v)
    (bytes : BytesKept (finishBytes (look s)) (homeward (claimed s)) v)
    (walker : v.walker.state = s.walker.state) (line : v.line = (homeward (claimed s)).line)
    (frame : ChangesOnly (.reg :: ticketParts) (homeward (claimed s)) v) : HomeTaken s v := by
  refine ⟨Reported.after (t := homeward (claimed s)) (.of_same) reported, ?_, walker, line, ?_, ?_⟩
  · exact BytesKept.trans (t := homeward (claimed s)) (.of_mem (by simp)) bytes
  · rw [show v.tens = _ from frame .tens (by decide)]
    simp
  · refine ChangesOnly.trans (t := homeward (claimed s)) (.of_all ?_) (frame.mono (by decide))
    simp [samePart, ticketParts]

end Sys2Proof.Machine

namespace Sys2Proof.Proofs

open Sys2Proof.Machine

/-- PHASE_HOME taken, with the roller home or on its way (R92). -/
theorem phaseHome_taken {s : State} (hk : TakesKind s 0x50) (hrun : s.line.state ≠ .run)
    (hhome : s.reg.home = none) (hz : AutoZeroLaw s) : ∃ v t, exec .phaseHome s = .next t ∧ HomeShown s v t
      ∧ v.reg = { s.reg with
          target := 0, limited := false, home := if s.reg.position = 0 then none else some (look s) }
      ∧ (s.reg.position = 0 → TicketShows (look s) .ok s.reg.measured s v
        ∧ v.walker.outstanding = s.walker.outstanding)
      ∧ (s.reg.position ≠ 0 → handOf v (look s) = 2
        ∧ v.walker.outstanding = s.walker.outstanding + 1) := by
  obtain ⟨_, _, hlow, hhigh, wf⟩ := id hk
  have hreg : (claimed s).reg = s.reg := by simp
  by_cases hp : s.reg.position = 0
  · have hf : takePhaseHome (look s) (claimed s)
        = retest (finishTicket (look s) .ok s.reg.measured (homeward (claimed s))) := by
      simp [takePhaseHome, hrun, hhome, hp, homeward]
    obtain ⟨c, slot, seq, e⟩ := finishTicket_walker (look s) .ok s.reg.measured (homeward (claimed s))
    have hv : HomeTaken s (finishTicket (look s) .ok s.reg.measured (homeward (claimed s))) :=
      homeTaken_of (finishTicket_reported _ _ _ _) (finishTicket_bytes _ _ _ _) (by rw [e]; simp) (by simp)
        (.of_all (by simp [samePart, ticketParts]))
    refine ⟨_, _, by rw [exec_take rfl hk, hf], hv.shown hk hz, ?_, fun _ => ⟨?_, ?_⟩, fun hn => absurd hp hn⟩
    · simp only [finishTicket_keeps, homeward_reg, hreg, hp, if_pos, hhome]
    · exact (finishTicket_shows (claimed_wf wf) hlow hhigh _ _).stamped (by simp) (by simp)
    · rw [e]
      simp
  · have hf : takePhaseHome (look s) (claimed s) = retest (raiseCount { homeward (claimed s) with
        reg := { (homeward (claimed s)).reg with home := some (look s) } }) := by
      simp [takePhaseHome, hrun, hhome, hp, homeward]
    have hv : HomeTaken s (raiseCount { homeward (claimed s) with
        reg := { (homeward (claimed s)).reg with home := some (look s) } }) :=
      homeTaken_of (.of_same rfl rfl rfl rfl) (.of_mem rfl) (by simp [raiseCount]) (by simp [raiseCount])
        (.of_all (by simp [samePart, ticketParts, raiseCount]))
    refine ⟨_, _, by rw [exec_take rfl hk, hf], hv.shown hk hz, ?_, fun h => absurd h hp, fun _ => ⟨?_, ?_⟩⟩
    · simp only [homeward_reg, hreg, if_neg hp, raiseCount]
    · exact claimed_hand wf hlow hhigh
    · simp [raiseCount]

end Sys2Proof.Proofs
end

