-- ==== Sys2Proof/Proofs/LongFinish.lean ====
section
/-! PROOFS. The finish of one long ticket, as the statements say it (R173, R175; log 15). -/

-- One thread for the whole file: each waiting thread reserves its stack.
set_option Elab.async false

namespace Sys2Proof.Machine

/-- A ticket reads on by memory and causes alone. -/
theorem TicketShows.congr {n : Nat} {code : ResultCode} {d : Word} {s t u : State}
    (h : TicketShows n code d s t) (mem : u.mem = t.mem) (host : u.host = t.host) :
    TicketShows n code d s u := by
  unfold TicketShows handOf ticketByte ticketHalf ticketWord causeSet at *
  rwa [mem, host]

theorem MovedOnFrom.congr {b : Bool} {f : Nat} {s t u : State} (h : MovedOnFrom b f s t)
    (mem : u.mem = t.mem) (host : u.host = t.host) (state : u.walker.state = t.walker.state)
    (wait : u.walker.wait = t.walker.wait) (stall : u.walker.stall = t.walker.stall)
    (look : u.walker.look = t.walker.look) : MovedOnFrom b f s u := by
  unfold MovedOnFrom StalledWith NoticeShown causeSet at *
  rwa [mem, host, state, wait, stall, look]

theorem retire_walker_keeps (s : State) : (retire s).walker.state = s.walker.state
    ∧ (retire s).walker.wait = s.walker.wait ∧ (retire s).walker.stall = s.walker.stall
    ∧ (retire s).walker.look = s.walker.look ∧ (retire s).walker.outstanding = s.walker.outstanding := by
  unfold retire
  exact ⟨rfl, rfl, rfl, rfl, rfl⟩

theorem reportFinish_shows {s : State} (wf : Memory.wf s.mem = true) {n : Nat} (h1 : 1 ≤ n) (h2 : n ≤ 256)
    (code : ResultCode) (d : Word) : TicketShows n code d s (lowerCount (reportFinish n code d s)) :=
  (finishTicket_shows wf h1 h2 code d).congr (by simp [finishTicket, lowerCount])
    (by simp [finishTicket, lowerCount])

theorem finishLong_shows {s : State} (wf : Memory.wf s.mem = true) {n : Nat} (h1 : 1 ≤ n) (h2 : n ≤ 256)
    (code : ResultCode) (d : Word) : TicketShows n code d s (finishLong n code d s) := by
  have h := reportFinish_shows wf h1 h2 code d
  rcases finishLong_cases n code d s with ⟨_, he⟩ | ⟨_, he⟩ <;> rw [he]
  · exact h.congr (by simp) (by simp)
  · have hc : ∀ u : State, ∀ c, causeSet u c = true → causeSet (moveOn u) c = true := fun u => by
      rcases moveOn_reported u with ⟨hr, _⟩ | ⟨hr, _⟩
      · exact hr.causes
      · exact hr.causes
    refine (h.later (moveOn_bytes _) (fun a ha => .inl ?_) (hc _ _)).congr (by simp) (by simp)
    have := nextNoticeBytes_low ha
    have := ticketBase_low n
    omega

theorem finishLong_outstanding (n : Nat) (code : ResultCode) (d : Word) (s : State) :
    (finishLong n code d s).walker.outstanding = s.walker.outstanding - 1 := by
  obtain ⟨_, _, _, _, h1⟩ := retire_walker_keeps (lowerCount (reportFinish n code d s))
  obtain ⟨_, _, _, _, h2⟩ := retire_walker_keeps (moveOn (lowerCount (reportFinish n code d s)))
  rcases finishLong_cases n code d s with ⟨_, he⟩ | ⟨_, he⟩ <;> rw [he]
  · rw [h1]
    rfl
  · rw [h2, moveOn_outstanding]
    rfl

theorem finishLong_idle {s : State} (h : s.walker.state ≠ .full) (n : Nat) (code : ResultCode) (d : Word) :
    (finishLong n code d s).walker.state = s.walker.state
    ∧ (finishLong n code d s).walker.look = s.walker.look := by
  obtain ⟨h1, _, _, h4, _⟩ := retire_walker_keeps (lowerCount (reportFinish n code d s))
  rcases finishLong_cases n code d s with ⟨_, he⟩ | ⟨hs, _⟩
  · rw [he, h1, h4]
    exact ⟨rfl, rfl⟩
  · exact absurd hs h

/-- The finish of one ticket leaves the link of every ticket. -/
theorem reportFinish_link (n f : Nat) (code : ResultCode) (d : Word) (s : State) :
    linkOf (lowerCount (reportFinish n code d s)) f = linkOf s f := by
  have hb : BytesKept (finishBytes n) s (lowerCount (reportFinish n code d s)) :=
    BytesKept.trans (t := finishTicket n code d s) (finishTicket_bytes n code d s)
      (.of_mem (by simp [finishTicket, lowerCount]))
  have hout : ∀ i, 4 ≤ i → i < 8 → ¬ finishBytes n (ticketBase f + i) := fun i h4 h8 h => by
    unfold finishBytes ticketBase at h
    omega
  unfold linkOf
  rw [ticketHalf, hb.half_eq (hout 4 (by omega) (by omega)) (hout 5 (by omega) (by omega))]
  rfl

/-- A FULL walker moves on at the finish of a long ticket (R173, log 15). -/
theorem finishLong_resumes {s u : State} {f : Nat} (hs : s.walker.state = .full)
    (hf : s.walker.fromTicket = some f) (wf : Memory.wf s.mem = true) (hu : Alike u s)
    (mem : u.mem = s.mem) (walker : u.walker = s.walker) (n : Nat) (code : ResultCode) (d : Word) :
    FullResumed f u (finishLong n code d s) := by
  have hlink : linkOf (lowerCount (reportFinish n code d s)) f = linkOf u f := by
    rw [reportFinish_link]
    unfold linkOf ticketHalf
    rw [mem]
  have hchain : inChain u (linkOf u f)
      = inChain (lowerCount (reportFinish n code d s)) (linkOf (lowerCount (reportFinish n code d s)) f) := by
    rw [hlink]
    unfold inChain
    rw [walker]
    rfl
  have hr : Reported 0 s (lowerCount (reportFinish n code d s)) :=
    (reportFinish_reported n code d s).quiet (.of_same rfl rfl rfl rfl)
  have ha : Alike u (lowerCount (reportFinish n code d s)) :=
    ⟨hu.state, hu.x, hr.host.clock.trans hu.clock, by rw [hr.written, hu.written]; simp⟩
  have hfrom := hr.fromTicket.trans hf
  rcases finishLong_cases n code d s with ⟨hn, _⟩ | ⟨_, he⟩
  · exact absurd hs hn
  · rw [he, FullResumed, hchain]
    have hwf := hr.wf wf
    generalize lowerCount (reportFinish n code d s) = v at *
    obtain ⟨r1, r2, r3, r4, _⟩ := retire_walker_keeps (moveOn v)
    exact (moveOn_movedOnFrom hfrom hlink ha hwf).congr (by simp) (by simp) r1 r2 r3 r4

end Sys2Proof.Machine
end

