-- ==== Sys2Proof/Proofs/RollerHome.lean ====
section
/-! PROOFS. The drum step that moves a homing roller: the roller stage, and the rest of a step at which
no record stands at or past the nip (R87, R92, R94). -/

-- One thread for the whole file: each waiting thread reserves its stack.
set_option Elab.async false

namespace Sys2Proof.Machine

/-! ## The records through the stages -/

/-- The fields of a record by which the registration unit pairs it and lets it arrive. -/
structure Panel.SameRoute (p q : Panel) : Prop where
  number : p.number = q.number
  fLead : p.fLead = q.fLead
  xp : p.xp = q.xp
  piece : p.piece = q.piece
  offset : p.offset = q.offset

theorem Panel.SameRoute.rfl (p : Panel) : p.SameRoute p := ⟨Eq.refl _, Eq.refl _, Eq.refl _, Eq.refl _, Eq.refl _⟩

/-- The table of records was rewritten record by record, and none has moved on its way. -/
def Rewritten (s t : State) : Prop :=
  ∃ f : Panel → Panel, (∀ p, (f p).SameRoute p) ∧ t.ord.panels = s.ord.panels.map f

theorem Rewritten.of_ord {s t : State} (h : t.ord.panels = s.ord.panels) : Rewritten s t :=
  ⟨id, Panel.SameRoute.rfl, by rw [h, List.map_id]⟩

theorem Rewritten.trans {s t u : State} (h1 : Rewritten s t) (h2 : Rewritten t u) : Rewritten s u := by
  obtain ⟨f, hf, e1⟩ := h1
  obtain ⟨g, hg, e2⟩ := h2
  refine ⟨g ∘ f, fun p => ?_, by rw [e2, e1, List.map_map]⟩
  obtain ⟨a1, a2, a3, a4, a5⟩ := hf p
  obtain ⟨b1, b2, b3, b4, b5⟩ := hg (f p)
  exact ⟨b1.trans a1, b2.trans a2, b3.trans a3, b4.trans a4, b5.trans a5⟩

theorem Rewritten.mapPanels {f : Panel → Panel} (h : ∀ p, (f p).SameRoute p) (s : State) :
    Rewritten s (mapPanels f s) := ⟨f, h, Eq.refl _⟩

theorem Rewritten.mem {s t : State} (h : Rewritten s t) {q : Panel} (hq : q ∈ t.ord.panels) :
    ∃ p ∈ s.ord.panels, q.SameRoute p := by
  obtain ⟨f, hf, e⟩ := h
  rw [e, List.mem_map] at hq
  obtain ⟨p, hp, rfl⟩ := hq
  exact ⟨p, hp, hf p⟩

theorem Rewritten.find {s t : State} (h : Rewritten s t) {m : Half} {p : Panel}
    (hp : findPanel m s = some p) : ∃ q, findPanel m t = some q ∧ q.SameRoute p := by
  obtain ⟨f, hf, e⟩ := h
  refine ⟨f p, ?_, hf p⟩
  unfold findPanel at hp ⊢
  have hn : (fun q : Panel => q.number == m) ∘ f = fun q => q.number == m := funext fun q => by
    simp [(hf q).number]
  rw [e, List.find?_map, hn, hp]
  rfl

theorem foldCell_rewritten (c : WrapCell) (s : State) : Rewritten s (foldCell c s) := by
  unfold foldCell
  split
  · exact .of_ord rfl
  · refine .mapPanels (fun p => ?_) s
    split
    · exact ⟨rfl, rfl, rfl, rfl, rfl⟩
    · exact .rfl p

theorem crossCells_rewritten (s : State) : Rewritten s (crossCells s) := by
  unfold crossCells
  split
  · exact .of_ord rfl
  · split
    · unfold shiftCells
      extract_lets s1
      have h1 : Rewritten s s1 := by
        show Rewritten s (match s.dose.cells.getLast? with
          | none => s
          | some c => foldCell c s)
        split
        · exact .of_ord rfl
        · exact foldCell_rewritten _ s
      exact h1.trans (.of_ord rfl)
    · exact .of_ord rfl

theorem addStretch_rewritten (size : Nat) (s : State) : Rewritten s (addStretch size s) :=
  .mapPanels (fun p => by split <;> exact ⟨rfl, rfl, rfl, rfl, rfl⟩) s

theorem completeDose_rewritten (s : State) : Rewritten s (completeDose s) :=
  .mapPanels (fun p => by split <;> exact ⟨rfl, rfl, rfl, rfl, rfl⟩) s

/-! ## Records short of the nip -/

/-- No record has arrived at the nip. -/
def NoneArrived (s : State) : Prop := ∀ p ∈ s.ord.panels, p.fLead = none

/-- No record arrives at the nip at this X and roller position. -/
def NoneArriving (s : State) : Prop := ∀ p ∈ s.ord.panels, ∀ xp, p.xp = some xp →
  reached s.pos.x (xp + 12000 + intWord s.reg.position) = false

theorem NoneArrived.rewritten {s t : State} (h : NoneArrived s) (hr : Rewritten s t) : NoneArrived t := by
  intro q hq
  obtain ⟨p, hp, hs⟩ := hr.mem hq
  rw [hs.fLead, h p hp]

theorem arrivalStage_still {s : State} (h : NoneArriving s) : arrivalStage s = s := by
  have ht : ∀ n, arrivalTest s n = s := fun n => by
    unfold arrivalTest
    split
    · rfl
    · next p hp =>
      have hm : p ∈ s.ord.panels := List.mem_of_find?_eq_some hp
      split
      · rfl
      · next xp hx => rw [h p hm xp hx, if_neg Bool.false_ne_true]
  unfold arrivalStage
  induction s.reg.list with
  | nil => rfl
  | cons n l ih => rw [List.foldl_cons, ht n, ih]

/-- With no record past the nip the order and check units do nothing at a drum step. -/
theorem tests_still {s : State} (h : NoneArrived s) :
    verdicts (headTest (tailFindings (freeTails s))) = s := by
  have hlead : ∀ p ∈ s.ord.panels, ∀ k, leadReached s p k = false := fun p hp k => by
    unfold leadReached
    rw [h p hp]
  have h1 : freeTails s = s := by
    have : s.ord.panels.filter (tailPassed s) = [] := List.filter_eq_nil_iff.mpr fun p hp => by
      simp [tailPassed, hlead p hp]
    unfold freeTails
    rw [this]
    rfl
  have h2 : tailFindings s = s := by
    unfold tailFindings
    refine if_neg fun ht => ?_
    obtain ⟨p, hp, hp2⟩ := List.any_eq_true.mp ht
    simp [tailAt, h p hp] at hp2
  have h3 : headTest s = s := by
    have : stripRecord s (s.pos.x - 45000) = none := by
      unfold stripRecord
      rw [List.filter_eq_nil_iff.mpr fun p hp => by simp [searched, h p hp]]
      rfl
    unfold headTest
    rw [this]
    simp
  have h4 : verdicts s = s := by
    have : s.ord.panels.filter (verdictDue s) = [] := List.filter_eq_nil_iff.mpr fun p hp => by
      simp [verdictDue, hlead p hp]
    unfold verdicts
    rw [this]
    rfl
  rw [h1, h2, h3, h4]

/-! ## The rest of the step -/

/-- A stage after the roller's: notices alone are written, and of the registration unit the queue alone
has changed. -/
structure AfterRoller (s t : State) : Prop where
  log : LogOnly s t
  reg : t.reg = { s.reg with queue := t.reg.queue }
  state : t.line.state = s.line.state
  autos : ∀ z : Fin 4, t.tens.zones[z].auto = s.tens.zones[z].auto

theorem AfterRoller.trans {s t u : State} (h1 : AfterRoller s t) (h2 : AfterRoller t u) : AfterRoller s u := by
  refine ⟨h1.log.trans h2.log, ?_, h2.state.trans h1.state, fun z => (h2.autos z).trans (h1.autos z)⟩
  have e := h2.reg
  rw [h1.reg] at e
  exact e

theorem leavePiece_line (p : Piece) (full : Bool) (s : State) :
    (leavePiece p full s).line.state = s.line.state ∧ (leavePiece p full s).reg = s.reg := by
  unfold leavePiece
  cases p.paired <;> cases full <;> simp

theorem leavePiece_logOnly (p : Piece) (full : Bool) (s : State) : LogOnly s (leavePiece p full s) := by
  unfold leavePiece
  extract_lets s1
  have h1 : LogOnly s s1 := by
    show LogOnly s (if p.paired = true then s
      else writeNotice .pieceSkipped p.xf (if p.skipped = true then 1 else 0) 0 s)
    split
    · exact .rfl s
    · exact writeNotice_logOnly _ _ _ _ s
  split
  · exact h1.trans (endCondition_logOnly _ _)
  · exact h1

theorem leavePieces_afterRoller (ps : List Piece) (s : State) : AfterRoller s (leavePieces s ps) := by
  have hset : ∀ (u : State) q, AfterRoller u (setQueue q u) := fun u q =>
    ⟨.of_same rfl rfl rfl, rfl, rfl, fun _ => rfl⟩
  induction ps generalizing s with
  | nil => exact hset s []
  | cons p ps ih =>
    unfold leavePieces
    split
    · obtain ⟨h1, h2⟩ := leavePiece_line p (decide (8 ≤ (p :: ps).length)) s
      have hp : AfterRoller s (leavePiece p (decide (8 ≤ (p :: ps).length)) s) :=
        ⟨leavePiece_logOnly _ _ s, by rw [h2], h1, fun z => by simp⟩
      exact hp.trans (ih _)
    · exact hset s _

theorem holdTest_autos (old new : Word) (s : State) (z k : Fin 4) :
    (holdTest old new s z).tens.zones[k].auto = s.tens.zones[k].auto := by
  unfold holdTest updTension
  simp only [Fin.getElem_fin, Vector.getElem_set]
  split
  · next h => simp [Fin.ext h]
  · rfl

theorem holdTests_autos (old new : Word) (l : List (Fin 4)) (s : State) (k : Fin 4) :
    (l.foldl (holdTest old new) s).tens.zones[k].auto = s.tens.zones[k].auto := by
  induction l generalizing s with
  | nil => rfl
  | cons z l ih => rw [List.foldl_cons, ih, holdTest_autos]

/-- What follows the roller stage at a forward drum step (R94, R40). -/
def drumRest (old new : Word) (held : List (Fin 12)) (s : State) : State :=
  retest (offerSteps .drum new held (drumHoldZones.foldl (holdTest old new) (leaveSplices
    (verdicts (headTest (tailFindings (freeTails (completeDose (pieceStage (arrivalStage s))))))))))

/-- The state in which the roller stage of a crossing step works (R87, R114). -/
def atCrossing (s : State) : State :=
  crossCells (offerSteps .drum (s.pos.x + 1)
    (allChannels.filter fun c => !(heldChannels s).contains c) (countDrum s))

theorem drumForward_crossing {s : State} (h : s.pos.phase = 999) :
    drumForward s = drumRest s.pos.x (s.pos.x + 1) (heldChannels s) (rollerStage (atCrossing s)) := by
  unfold drumForward panelStages registrationStep
  rw [h]
  rfl

/-- The rest of a step before its readiness test, with no record at or past the nip. -/
theorem drumRest_still {s : State} (h1 : NoneArriving s) (h2 : NoneArrived s) (old new : Word)
    (held : List (Fin 12)) : drumRest old new held s = retest (offerSteps .drum new held
      (drumHoldZones.foldl (holdTest old new) (leaveSplices (completeDose (pieceStage s))))) := by
  have hp : NoneArrived (completeDose (pieceStage s)) :=
    h2.rewritten (Rewritten.trans (t := pieceStage s) (.of_ord (by simp)) (completeDose_rewritten _))
  rw [drumRest, arrivalStage_still h1, tests_still hp]

/-- What such a rest leaves: notices alone are written, and with no piece in the queue and no readiness test
none (R79, R94). -/
theorem drumRest_done {s : State} (h1 : NoneArriving s) (h2 : NoneArrived s) (h3 : s.line.state ≠ .cold →
    s.line.state ≠ .thread → NoAutos s) (old new : Word) (held : List (Fin 12)) :
    LogOnly s (drumRest old new held s)
    ∧ (drumRest old new held s).reg = { s.reg with queue := (drumRest old new held s).reg.queue }
    ∧ (s.reg.queue = [] → s.line.state ≠ .warm → s.line.state ≠ .ready →
      (drumRest old new held s).mem = s.mem ∧ (drumRest old new held s).host = s.host) := by
  have hp := leavePieces_afterRoller s.reg.queue s
  have hrest : ∀ u : State, AfterRoller u (offerSteps .drum new held
      (drumHoldZones.foldl (holdTest old new) (leaveSplices (completeDose u)))) := fun u => by
    refine ⟨.of_same ?_ ?_ ?_, ?_, ?_, fun z => ?_⟩
    case refine_6 =>
      rw [show (offerSteps .drum new held (drumHoldZones.foldl (holdTest old new)
        (leaveSplices (completeDose u)))).tens = _ from (offerSteps_keeps ..).2.2.2.2.2.2.2.2.1, holdTests_autos]
      simp
    all_goals simp [drumHoldZones]
  have hall : AfterRoller s (offerSteps .drum new held
      (drumHoldZones.foldl (holdTest old new) (leaveSplices (completeDose (pieceStage s))))) :=
    hp.trans (hrest _)
  rw [drumRest_still h1 h2]
  have hquiet : s.reg.queue = [] → (offerSteps .drum new held
      (drumHoldZones.foldl (holdTest old new) (leaveSplices (completeDose (pieceStage s))))).mem = s.mem
      ∧ (offerSteps .drum new held (drumHoldZones.foldl (holdTest old new)
        (leaveSplices (completeDose (pieceStage s))))).host = s.host := fun hq => by
    have hps : pieceStage s = setQueue [] s := by
      unfold pieceStage
      rw [hq]
      rfl
    rw [hps]
    simp [drumHoldZones]
  generalize offerSteps .drum new held
    (drumHoldZones.foldl (holdTest old new) (leaveSplices (completeDose (pieceStage s)))) = u at *
  have hlog : LogOnly u (retest u) := retest_lawful fun hs z => by
    rw [hall.autos]
    rw [hall.state] at hs
    refine h3 ?_ ?_ z <;> rcases hs with hs | hs <;> simp [hs]
  refine ⟨hall.log.trans hlog, ?_, fun hq hw hr => ?_⟩
  · simpa using hall.reg
  · rw [retest_elsewhere (by rw [hall.state]; exact hw) (by rw [hall.state]; exact hr)]
    exact hquiet hq

end Sys2Proof.Machine
end

