-- ==== Sys2Proof/Proofs/PhaseHome.lean ====
section
/-! PROOFS. PHASE_HOME whole: its take, and the drum steps that move the roller home (R86, R92, R173). -/

-- One thread for the whole file: each waiting thread reserves its stack.
set_option Elab.async false

namespace Sys2Proof.Machine

/-! ## The review of the roller target (R86) -/

theorem setTarget_reg (n : Half) (target : Int) (limited : Bool) (s : State) :
    (setTarget n target limited s).reg = { s.reg with target := target, limited := limited } := by
  unfold setTarget
  split
  · simp
  · rfl

theorem review_reg (s : State) : (review s).reg =
    { s.reg with target := (review s).reg.target, limited := (review s).reg.limited } := by
  unfold review
  split
  · rfl
  · split
    · rfl
    · split
      · rfl
      · split
        · rw [setTarget_reg]
        · rfl

theorem setTarget_ord (n : Half) (target : Int) (limited : Bool) (s : State) :
    (setTarget n target limited s).ord = s.ord := by
  unfold setTarget
  split
  · rcases raiseAlarm_phaseLimit (n.setWidth 32) 0
      { s with reg := { s.reg with target := target, limited := limited } } with he | he <;> rw [he]
    exact (raised_keeps _ _ _ _).2.2.2.1
  · rfl

theorem review_ord (s : State) : (review s).ord = s.ord := by
  unfold review
  split
  · rfl
  · split
    · rfl
    · split
      · rfl
      · split
        · exact setTarget_ord _ _ _ s
        · rfl

theorem review_empty {s : State} (h : s.reg.list = []) : review s = s := by
  unfold review
  rw [h]
  split <;> rfl

/-- The target that the list's head record gives (R86). -/
theorem review_target {s : State} {m : Half} {p : Panel} (hh : s.reg.home = none)
    (hm : s.reg.list.head? = some m) (hp : findPanel m s = some p) : (review s).reg.target =
      if p.piece.isSome = true then limit (-600) 600 p.offset else s.reg.target := by
  obtain ⟨l, hl⟩ : ∃ l, s.reg.list = m :: l := by
    cases h : s.reg.list with
    | nil => simp [h] at hm
    | cons k l =>
      rw [h, List.head?_cons, Option.some.injEq] at hm
      exact ⟨l, by rw [hm]⟩
  unfold review
  simp only [hh, hl, hp]
  by_cases hpiece : p.piece.isSome = true
  · simp [hpiece, setTarget_reg]
  · simp [hpiece]

theorem review_line (s : State) : (review s).line.state = s.line.state := by
  rw [(review_phaseOnly s).line]

/-! ## The roller's move -/

/-- The roller moved at a crossing, before a homing roller is found at 0 (R87, R88). -/
def rolled (s : State) : State :=
  addStretch (rollerMove s).natAbs { s with reg := { s.reg with position := s.reg.position + rollerMove s } }

theorem rollerStage_eq (s : State) : rollerStage s = finishHome (rolled s) := rfl

@[simp] theorem rolled_keeps (s : State) :
    (rolled s).mem = s.mem ∧ (rolled s).line = s.line ∧ (rolled s).pos = s.pos ∧ (rolled s).tens = s.tens
    ∧ (rolled s).walker = s.walker ∧ (rolled s).host = s.host :=
  ⟨rfl, rfl, rfl, rfl, rfl, rfl⟩

theorem rolled_reg (s : State) : (rolled s).reg =
    { s.reg with position := s.reg.position + rollerMove s } := rfl

theorem rolled_rewritten (s : State) : Rewritten s (rolled s) :=
  Rewritten.trans (t := { s with reg := { s.reg with position := s.reg.position + rollerMove s } })
    (.of_ord rfl) (addStretch_rewritten _ _)

/-- A roller on its way to 0 moves by at most 20 toward it (R87). -/
theorem rollerMove_home {s : State} (h : s.reg.target = 0) :
    rollerMove s = max (-20) (min 20 (-s.reg.position)) := by
  unfold rollerMove limit
  rw [h]
  split
  · omega
  · split <;> omega

/-- The state that the roller stage of a crossing step finds, as far as the roller reads it. -/
structure Crossing (s a : State) : Prop where
  mem : a.mem = s.mem
  line : a.line = s.line
  pos : a.pos.x = s.pos.x + 1
  reg : a.reg = s.reg
  tens : a.tens = s.tens
  walker : a.walker = s.walker
  host : a.host = s.host
  panels : Rewritten s a

theorem atCrossing_crossing (s : State) : Crossing s (atCrossing s) := by
  refine ⟨by simp [atCrossing], by simp [atCrossing], ?_, by simp [atCrossing], by simp [atCrossing],
    by simp [atCrossing], by simp [atCrossing], ?_⟩
  · simp [atCrossing, countDrum]
  · exact Rewritten.trans (t := offerSteps .drum (s.pos.x + 1)
      (allChannels.filter fun c => !(heldChannels s).contains c) (countDrum s)) (.of_ord (by simp))
      (crossCells_rewritten _)

/-- What the roller stage leaves of the state that the rest of the step finds. -/
structure RolledHome (s b : State) : Prop where
  state : b.line.state = s.line.state
  x : b.pos.x = s.pos.x + 1
  tens : b.tens = s.tens
  position : b.reg.position = s.reg.position + max (-20) (min 20 (-s.reg.position))
  queue : b.reg.queue = s.reg.queue
  panels : Rewritten s b

/-- A homing roller short of 0 stays TAKEN (R92). -/
theorem rollerStage_short {s a : State} {n : Nat} (ha : Crossing s a) (hh : s.reg.home = some n)
    (ht : s.reg.target = 0) (hp : 20 < s.reg.position.natAbs) :
    RolledHome s (rollerStage a) ∧ (rollerStage a).reg.home = some n ∧ (rollerStage a).reg.target = 0
    ∧ (rollerStage a).mem = s.mem ∧ (rollerStage a).walker = s.walker := by
  have hm := rollerMove_home (s := a) (by rw [ha.reg, ht])
  rw [ha.reg] at hm
  have hreg := rolled_reg a
  rw [hm, ha.reg] at hreg
  have he : rollerStage a = rolled a := by
    rw [rollerStage_eq, finishHome, hreg]
    simp only [hh]
    rw [if_neg (by omega)]
  rw [he]
  refine ⟨⟨by simp [ha.line], by simp [ha.pos], by simp [ha.tens], by rw [hreg], by rw [hreg],
    ha.panels.trans (rolled_rewritten a)⟩, by rw [hreg, hh], by rw [hreg, ht], by simp [ha.mem],
    by simp [ha.walker]⟩

/-- The homing roller at 0, its request gone, before the ticket finishes (R92). -/
def homed (a : State) : State := { rolled a with reg := { (rolled a).reg with home := none } }

/-- A homing roller that comes to 0 finishes the ticket, and the target is reviewed (R86, R92). -/
theorem rollerStage_home {s a : State} {n : Nat} (ha : Crossing s a) (hh : s.reg.home = some n)
    (ht : s.reg.target = 0) (hp : s.reg.position.natAbs ≤ 20) :
    rollerStage a = review (finishLong n .ok s.reg.measured (homed a))
    ∧ RolledHome s (rollerStage a) ∧ (rollerStage a).reg.position = 0 ∧ (rollerStage a).reg.home = none
    ∧ (∀ m p, s.reg.list.head? = some m → findPanel m s = some p → (rollerStage a).reg.target =
      if p.piece.isSome = true then limit (-600) 600 p.offset else 0)
    ∧ (s.reg.list = [] → rollerStage a = finishLong n .ok s.reg.measured (homed a)
      ∧ (rollerStage a).reg.target = 0) := by
  have hm := rollerMove_home (s := a) (by rw [ha.reg, ht])
  rw [ha.reg] at hm
  have hreg := rolled_reg a
  rw [hm, ha.reg] at hreg
  have h0 : s.reg.position + max (-20) (min 20 (-s.reg.position)) = 0 := by omega
  have he : rollerStage a = review (finishLong n .ok s.reg.measured (homed a)) := by
    rw [rollerStage_eq, finishHome, hreg]
    simp only [hh]
    rw [if_pos h0, homed, hreg]
  have hfin : (finishLong n .ok s.reg.measured (homed a)).reg = { s.reg with position := 0, home := none } := by
    simp only [finishLong_keeps, homed, hreg, h0]
  have hpanels : Rewritten s (finishLong n .ok s.reg.measured (homed a)) :=
    (ha.panels.trans (rolled_rewritten a)).trans (.of_ord (by simp [homed]))
  have hreview := review_reg (finishLong n .ok s.reg.measured (homed a))
  rw [hfin] at hreview
  refine ⟨he, ?_, ?_, ?_, fun m p hm hp => ?_, fun hl => ?_⟩
  · rw [he]
    refine ⟨?_, ?_, ?_, by rw [hreview, h0], by rw [hreview], hpanels.trans (.of_ord (by rw [review_ord]))⟩
    · rw [review_line]
      simp [homed, ha.line]
    · simp [homed, ha.pos]
    · obtain ⟨_, _, _, _, _, htens, _⟩ := (review_phaseOnly (finishLong n .ok s.reg.measured (homed a))).kept
      rw [htens]
      simp [homed, ha.tens]
  · rw [he, hreview]
  · rw [he, hreview]
  · obtain ⟨q, hq, hs⟩ := hpanels.find hp
    rw [he, review_target (by rw [hfin]) (by rw [hfin, hm]) hq, hs.piece, hs.offset, hfin, ht]
  · have hr := review_empty (s := finishLong n .ok s.reg.measured (homed a)) (by rw [hfin, hl])
    rw [he, hr, hfin]
    exact ⟨rfl, ht⟩

end Sys2Proof.Machine

namespace Sys2Proof.Proofs

open Sys2Proof.Machine

theorem exec_drumForward {s : State} (h : s.pos.phase = 999) : exec (.drumStep .forward) s = .next
    (announce false false s (drumRest s.pos.x (s.pos.x + 1) (heldChannels (clearSent s))
      (rollerStage (atCrossing (clearSent s))))) := by
  show answer drumForward s = _
  rw [answer, drumForward_crossing (s := clearSent s) h]
  rfl

theorem atCrossing_clearSent (s : State) : Crossing s (atCrossing (clearSent s)) := by
  obtain ⟨h1, h2, h3, h4, h5, h6, h7, h8⟩ := atCrossing_crossing (clearSent s)
  exact ⟨h1, h2, h3, h4, h5, h6, h7, h8⟩

/-- With no record near the nip the rest of the step finds none arriving and none arrived. -/
theorem rolledHome_still {s b : State} (h : RolledHome s b)
    (hp : ∀ p ∈ s.ord.panels, p.fLead = none ∧ ∀ xp, p.xp = some xp → sdiff (s.pos.x + 1)
      (xp + 12000 + intWord (s.reg.position + max (-20) (min 20 (-s.reg.position)))) < 0) :
    NoneArriving b ∧ NoneArrived b := by
  refine ⟨fun q hq xp hx => ?_, fun q hq => ?_⟩
  · obtain ⟨p, hm, hs⟩ := h.panels.mem hq
    have := (hp p hm).2 xp (hs.xp.symm.trans hx)
    rw [h.x, h.position, reached]
    exact decide_eq_false (by omega)
  · obtain ⟨p, hm, hs⟩ := h.panels.mem hq
    rw [hs.fLead, (hp p hm).1]

/-- The end of a step that moves a homing roller short of 0, or home. -/
theorem drumStep_homing {s : State} {n : Nat} (hh : s.reg.home = some n) (ht : s.reg.target = 0)
    (hphase : s.pos.phase = 999)
    (hp : ∀ p ∈ s.ord.panels, p.fLead = none ∧ ∀ xp, p.xp = some xp → sdiff (s.pos.x + 1)
      (xp + 12000 + intWord (s.reg.position + max (-20) (min 20 (-s.reg.position)))) < 0)
    (hz : AutoZeroLaw s) : ∃ t b, exec (.drumStep .forward) s = .next t
      ∧ b = rollerStage (atCrossing (clearSent s)) ∧ RolledHome s b
      ∧ LogOnly b t ∧ t.reg = { b.reg with queue := t.reg.queue }
      ∧ (s.reg.queue = [] → s.line.state ≠ .warm → s.line.state ≠ .ready →
        t.mem = b.mem ∧ t.host = b.host) := by
  have hb : RolledHome s (rollerStage (atCrossing (clearSent s))) := by
    by_cases hn : s.reg.position.natAbs ≤ 20
    · exact (rollerStage_home (atCrossing_clearSent s) hh ht hn).2.1
    · exact (rollerStage_short (atCrossing_clearSent s) hh ht (by omega)).1
  refine ⟨_, _, exec_drumForward hphase, rfl, hb, ?_⟩
  obtain ⟨h1, h2⟩ := rolledHome_still hb hp
  have hautos : (rollerStage (atCrossing (clearSent s))).line.state ≠ .cold →
      (rollerStage (atCrossing (clearSent s))).line.state ≠ .thread →
      NoAutos (rollerStage (atCrossing (clearSent s))) := fun hc hth z => by
    rw [hb.tens]
    rw [hb.state] at hc hth
    exact hz.noAutos hc hth z
  obtain ⟨r1, r2, r3⟩ := drumRest_done h1 h2 hautos s.pos.x (s.pos.x + 1) (heldChannels (clearSent s))
  rw [hb.queue, hb.state] at r3
  exact ⟨r1.trans (.of_same), by simpa using r2, fun hq hw hr => by simpa using r3 hq hw hr⟩

theorem phaseHome_step {s u : State} {n : Nat} (hh : s.reg.home = some n) (ht : s.reg.target = 0)
    (hphase : s.pos.phase = 999) (hu : u = { s with pos := { s.pos with x := s.pos.x + 1 } })
    (hp : ∀ p ∈ s.ord.panels, p.fLead = none ∧ ∀ xp, p.xp = some xp → sdiff u.pos.x
      (xp + 12000 + intWord (s.reg.position + max (-20) (min 20 (-s.reg.position)))) < 0)
    (hz : AutoZeroLaw s) (h1 : 1 ≤ n) (h2 : n ≤ 256) (wf : Memory.wf s.mem = true) :
    ∃ t, exec (.drumStep .forward) s = .next t
      ∧ (20 < s.reg.position.natAbs → t.reg.home = some n ∧ t.reg.target = 0 ∧ handOf t n = handOf s n
        ∧ t.walker = s.walker)
      ∧ (s.reg.position.natAbs ≤ 20 → t.reg.position = 0 ∧ t.reg.home = none
        ∧ TicketShows n .ok s.reg.measured u t
        ∧ t.walker.outstanding = s.walker.outstanding - 1
        ∧ (∀ m p, s.reg.list.head? = some m → findPanel m s = some p →
          t.reg.target = (if p.piece.isSome = true then max (-600) (min 600 p.offset) else 0))
        ∧ (s.reg.list = [] → t.reg.target = 0)
        ∧ (s.walker.state ≠ .full → t.walker.state = s.walker.state ∧ t.walker.look = s.walker.look)
        ∧ (∀ f, s.walker.state = .full → s.walker.fromTicket = some f → s.reg.list = [] →
          s.reg.queue = [] → s.line.state ≠ .warm → s.line.state ≠ .ready → FullResumed f u t)) := by
  subst hu
  obtain ⟨t, b, hex, hb, hrolled, hlog, hreg, hquiet⟩ := drumStep_homing hh ht hphase hp hz
  have ha := atCrossing_clearSent s
  generalize atCrossing (clearSent s) = a at *
  refine ⟨t, hex, fun hn => ?_, fun hn => ?_⟩
  · obtain ⟨_, r1, r2, r3, r4⟩ := rollerStage_short ha hh ht hn
    rw [← hb] at r1 r2 r3 r4
    refine ⟨by rw [hreg, r1], by rw [hreg, r2], ?_, hlog.walker.trans r4⟩
    rw [hlog.handOf]
    unfold handOf ticketByte
    rw [r3]
  · obtain ⟨he, _, r1, r2, r3, r4⟩ := rollerStage_home ha hh ht hn
    rw [← hb] at he r1 r2 r3 r4
    have hmem : (homed a).mem = s.mem := by simp [homed, ha.mem]
    have hhost : (homed a).host = s.host := by simp [homed, ha.host]
    have hwalker : (homed a).walker = s.walker := by simp [homed, ha.walker]
    have hx : (homed a).pos.x = s.pos.x + 1 := by simp [homed, ha.pos]
    have hstate : (homed a).line.state = s.line.state := by simp [homed, ha.line]
    have hfin : LogOnly (finishLong n .ok s.reg.measured (homed a)) b := by
      rw [he]
      exact review_logOnly _
    have hall := hfin.trans hlog
    refine ⟨by rw [hreg, r1], by rw [hreg, r2], ?_, ?_, fun m p hm hpm => ?_, fun hl => ?_, fun hf => ?_,
      fun f hf hfrom hl hq hw hr => ?_⟩
    · exact (hall.shows (finishLong_shows (by rwa [hmem]) h1 h2 _ _)).stamped hx (by rw [hhost])
    · rw [hall.walker, finishLong_outstanding, hwalker]
    · rw [hreg, r3 m p hm hpm]
      unfold limit
      split
      · split <;> [omega; split <;> omega]
      · rfl
    · rw [hreg, (r4 hl).2]
    · obtain ⟨f1, f2⟩ := finishLong_idle (s := homed a) (by rwa [hwalker]) n .ok s.reg.measured
      rw [hall.walker, f1, f2, hwalker]
      exact ⟨rfl, rfl⟩
    · obtain ⟨q1, q2⟩ := hquiet hq hw hr
      obtain ⟨q3, _⟩ := r4 hl
      have hresumes := finishLong_resumes (s := homed a)
        (u := { s with pos := { s.pos with x := s.pos.x + 1 } }) (f := f) (by rwa [hwalker])
        (by rw [hwalker, hfrom]) (by rwa [hmem]) ⟨hstate, hx, by rw [hhost], by rw [hhost]⟩ hmem.symm
        hwalker.symm n .ok s.reg.measured
      rw [← q3] at hresumes
      exact hresumes.congr q1 q2 (by rw [hlog.walker]) (by rw [hlog.walker]) (by rw [hlog.walker])
        (by rw [hlog.walker])

/-- Settles O38. -/
theorem phaseHome : Obligations.PhaseHome := by
  refine ⟨fun s hk => ⟨fun hr => refused_of rfl hk ?_, fun hr hh => refused_of rfl hk ?_,
    fun hr hh hz => ?_⟩, fun s u n hh ht _ hphase hu hp hz h1 h2 wf =>
    phaseHome_step hh ht hphase hu hp hz h1 h2 wf⟩
  · simp [takePhaseHome, hr]
  · simp [takePhaseHome, hr, hh]
  · obtain ⟨v, t, hex, hs, hreg, h0, h1⟩ := phaseHome_taken hk hr hh hz
    refine ⟨t, hex, hs.reg.trans hreg, hs.active, hs.latches, hs.recorded, fun hp => ?_, fun hp => ?_,
      hs.state, hs.elsewhere, hs.bytes⟩
    · exact ⟨hs.shows _ _ (h0 hp).1, hs.outstanding.trans (h0 hp).2⟩
    · exact ⟨hs.hand.trans (h1 hp).1, hs.outstanding.trans (h1 hp).2⟩

end Sys2Proof.Proofs
end

