-- ==== Sys2Proof/Proofs/PendantKeys.lean ====
section
/-! PROOFS. The line keys and the jog keys (R15, R16, R18, R129, R148). -/

-- One thread for the whole file: each waiting thread reserves its stack.
set_option Elab.async false

namespace Sys2Proof.Machine

/-! ## The answers that every key may give -/

/-- A refused key lights the LOCKED lamp (R18). -/
theorem key_locked {c : Instr} {f : State → State} {s : State} (he : exec c s = answerPendant f s)
    (hf : f (heard s) = lightLocked (heard s)) : ∃ t, exec c s = .next t
      ∧ t.line = { (pendantMessage s).line with lockedAt := some s.host.clock }
      ∧ ChangesOnly [.line, .sent] s t := by
  refine ⟨_, exec_key he, ?_⟩
  rw [hf]
  exact ⟨by simp [lightLocked], .of_all (by simp [samePart])⟩

/-- A key without effect is a message of the pendant (R18). -/
theorem key_idle {c : Instr} {f : State → State} {s : State} (he : exec c s = answerPendant f s)
    (hf : f (heard s) = heard s) : ∃ t, exec c s = .next t
      ∧ t.line = (pendantMessage s).line ∧ ChangesOnly [.line, .sent] s t := by
  refine ⟨_, exec_key he, ?_⟩
  rw [hf]
  exact ⟨by simp, .of_all (by simp [samePart])⟩

/-- A key by which the line enters a state (R15, R16). -/
theorem key_entered {c : Instr} {f : State → State} {s : State} {target : LineState} {j : Jog}
    (wf : Memory.wf s.mem = true) (he : exec c s = answerPendant f s)
    (hf : f (heard s) = withJog j (enterState target .pendant (heard s))) : ∃ t, exec c s = .next t
      ∧ Entered target .pendant (pendantMessage s) t ∧ t.line.jog = j
      ∧ ChangesOnly lineParts s t ∧ LogAndTicketsOnly s t := by
  refine ⟨_, exec_key he, ?_⟩
  rw [hf]
  obtain ⟨k, _, _, hk⟩ := enterState_reports target .pendant (heard s)
  have hw := withJog_reported j (enterState target .pendant (heard s))
  have hend := hw.quiet (keyEnd_reported s (withJog j (enterState target .pendant (heard s))))
  refine ⟨withJog_entered (s := pendantMessage s) (v := heard s) wf (keyEnd_reported s _) (by omega), by simp, ?_, ?_⟩
  · exact .of_all (by simp [samePart, lineParts])
  · obtain ⟨m, _, _, hm⟩ := enterState_reported target .pendant (heard s)
    exact (((heard_reported s).after hm).quiet hend).logAndTickets

/-! ## The line keys (R15) -/

/-- The line keys that carry a target of R10's table. -/
def lineKeys : List (Instr × LineState) :=
  [(.keyRun, .run), (.keyHold, .hold), (.keyCold, .cold), (.keyWarm, .warm)]

theorem exec_lineKey {c : Instr} {target : LineState} (h : (c, target) ∈ lineKeys) (s : State) :
    exec c s = answerPendant (keyLine target) s := by
  simp only [lineKeys, List.mem_cons, Prod.mk.injEq, List.not_mem_nil, or_false] at h
  rcases h with ⟨rfl, rfl⟩ | ⟨rfl, rfl⟩ | ⟨rfl, rfl⟩ | ⟨rfl, rfl⟩ <;> rfl

/-- The keys are dead under REMOTE and REMOTE_LOCKOUT and before START (R15). -/
theorem keysAnswered_dead {s : State}
    (h : s.line.auth = .remote ∨ s.line.auth = .remoteLockout ∨ started s = false) :
    keysAnswered (heard s) = false := by
  have hloc : isLocal (heard s) = isLocal s := rfl
  have hst : started (heard s) = started s := rfl
  unfold keysAnswered
  rw [hloc, hst]
  rcases h with h | h | h
  · rw [Proofs.isLocal_remote (.inl h), Bool.false_and]
  · rw [Proofs.isLocal_remote (.inr h), Bool.false_and]
  · rw [h, Bool.and_false]

theorem keyLine_refused {s : State} {target : LineState}
    (h : keysAnswered s = false ∨ lineAccepts s target = false) : keyLine target s = lightLocked s := by
  unfold keyLine
  rw [if_neg]
  rintro ⟨h1, h2⟩
  rcases h with h | h
  · rw [h] at h1
    exact Bool.false_ne_true h1
  · rw [h] at h2
    exact Bool.false_ne_true h2

theorem keyLine_accepted {s : State} {target : LineState} (h1 : keysAnswered s = true)
    (h2 : lineAccepts s target = true) : keyLine target s = lineGo target .pendant s := if_pos ⟨h1, h2⟩

theorem keyThread_refused {s : State}
    (h : keysAnswered s = false ∨ s.line.state = .run ∨ s.line.state = .hold ∨ s.line.state = .halt) :
    keyThread s = lightLocked s := by
  unfold keyThread
  split
  · next hk =>
    rcases h with h | h | h | h
    · rw [h] at hk
      cases hk
    all_goals rw [h]
  · rfl

theorem keyThread_enters {s : State} (hk : keysAnswered s = true)
    (h : s.line.state = .cold ∨ s.line.state = .warm ∨ s.line.state = .ready) :
    keyThread s = enterState .thread .pendant s := by
  unfold keyThread
  rw [if_pos hk]
  rcases h with h | h | h <;> rw [h]

theorem keyThread_leaves {s : State} (hk : keysAnswered s = true) (h : s.line.state = .thread)
    (hh : s.line.threadHeat = false) : keyThread s = enterState .cold .pendant s := by
  unfold keyThread
  rw [if_pos hk, h]
  simp [endThread, hh]

/-! ## The jog keys (R16) -/

theorem reverseBlocked_iff (s : State) : reverseBlocked s = true ↔ s.ord.panels ≠ [] ∨ s.reg.queue ≠ []
    ∨ s.pos.splices ≠ [] ∨ ∃ k : Fin 12, s.trig.channels[k].state = .counting := by
  have hc : (s.trig.channels.any fun ch => ch.state == .counting) = true
      ↔ ∃ k : Fin 12, s.trig.channels[k].state = .counting := by
    rw [Vector.any_eq_true]
    constructor
    · rintro ⟨i, hi, h⟩
      exact ⟨⟨i, hi⟩, by simpa using h⟩
    · rintro ⟨k, h⟩
      exact ⟨k.val, k.isLt, by simpa using h⟩
  simp only [reverseBlocked, Bool.or_eq_true, hc, Bool.not_eq_true', List.isEmpty_eq_false_iff, ne_eq, or_assoc]

/-- A jog from NONE in THREAD: S_cmd 20, and every auto-zero ends (R129, R148). -/
theorem setJog_starts {s : State} {j : Jog} (h : s.line.state = .thread) (hs : s.line.jog = .still)
    (hj : j ≠ .still) : setJog j s = abortAutos 5 (setSpeed 20 (withJog j s)) := by
  have h1 : ¬ s.line.jog = j := fun e => hj (e.symm.trans hs)
  have hspeed : jogSpeed j (withJog j s) = setSpeed 20 (withJog j s) := by
    unfold jogSpeed
    rw [if_pos (by simpa using h), if_neg hj]
  unfold setJog
  rw [if_neg h1]
  exact (if_pos hs).trans (congrArg (abortAutos 5) hspeed)

theorem keyJog_refused {s : State} {j : Jog} (h : s.line.state ≠ .thread ∨ isLocal s = false
      ∨ (s.line.jog ≠ .still ∧ s.line.jog ≠ j)
      ∨ (s.line.jog = .still ∧ j = .rev ∧ reverseBlocked s = true)) : keyJog j s = lightLocked s := by
  unfold keyJog
  by_cases h1 : s.line.state ≠ .thread ∨ (!isLocal s) = true
  · rw [if_pos h1]
  · rw [if_neg h1]
    rcases h with h | h | ⟨h2, h3⟩ | ⟨h2, h3, h4⟩
    · exact absurd (.inl h) h1
    · exact absurd (.inr (by simp [h])) h1
    · rw [if_neg h3, if_pos h2]
    · rw [if_neg (by rw [h2, h3]; decide), if_neg (by simp [h2]), if_pos ⟨h3, h4⟩]

theorem keyJog_answered {s : State} {j : Jog} (h : s.line.state = .thread) (hl : isLocal s = true) :
    keyJog j s = if s.line.jog = j then s else if s.line.jog ≠ .still then lightLocked s
      else if j = .rev ∧ reverseBlocked s = true then lightLocked s else setJog j s := by
  unfold keyJog
  rw [if_neg (by simp [h, hl])]

/-- Whether a key holds a jog state. -/
theorem keyJogState_iff (k : Key) (s : State) : keyJogState k = some s.line.jog ↔
    (k = .jogFwd ∧ s.line.jog = .fwd) ∨ (k = .jogRev ∧ s.line.jog = .rev) := by
  cases k <;> simp [keyJogState, eq_comm]

end Sys2Proof.Machine

namespace Sys2Proof.Proofs

open Sys2Proof.Machine

/-- The conditions under which a line key is refused with the LOCKED lamp (R15, R16). -/
def LineKeyRefused (s : State) (target : LineState) : Prop :=
  s.line.auth = .remote ∨ s.line.auth = .remoteLockout ∨ started s = false ∨ s.line.state = .halt
  ∨ (target = .warm ∧ (s.line.state = .thread ∨ s.line.state = .run))
  ∨ (target = .run ∧ (s.line.state = .cold ∨ s.line.state = .thread ∨ s.line.state = .warm))
  ∨ (target = .run ∧ s.line.state = .ready ∧ s.reg.home.isSome = true)
  ∨ (target = .run ∧ s.line.state = .hold
    ∧ (s.reg.home.isSome = true ∨ holdCauseLatched s = true ∨ runHeatTest s = false))
  ∨ (target = .hold ∧ s.line.state ≠ .run ∧ s.line.state ≠ .hold)
  ∨ (target = .thread ∧ (s.line.state = .run ∨ s.line.state = .hold))

theorem lineKey_refused {s : State} {c : Instr} {target : LineState}
    (hc : (c, target) ∈ lineKeys ∨ (c = .keyThread ∧ target = .thread)) (h : LineKeyRefused s target) :
    ∃ t, exec c s = .next t
      ∧ t.line = { (pendantMessage s).line with lockedAt := some s.host.clock }
      ∧ ChangesOnly [.line, .sent] s t := by
  rcases hc with hc | ⟨rfl, rfl⟩
  · refine key_locked (exec_lineKey hc s) (keyLine_refused ?_)
    have hne : target ≠ .thread := fun e => by subst e; simp [lineKeys] at hc
    rcases h with h | h | h | h
    · exact .inl (keysAnswered_dead (.inl h))
    · exact .inl (keysAnswered_dead (.inr (.inl h)))
    · exact .inl (keysAnswered_dead (.inr (.inr h)))
    · refine .inr (lineAccepts_refused (show TargetRefused (heard s) target from ?_))
      rcases h with h | h | h | h | h | h | ⟨h, _⟩
      · exact .inl h
      · exact .inr (.inl h)
      · exact .inr (.inr (.inl h))
      · exact .inr (.inr (.inr (.inl h)))
      · exact .inr (.inr (.inr (.inr (.inl h))))
      · exact .inr (.inr (.inr (.inr (.inr h))))
      · exact absurd h hne
  · refine key_locked (f := keyThread) rfl (keyThread_refused ?_)
    rcases h with h | h | h | h | ⟨h, _⟩ | ⟨h, _⟩ | ⟨h, _⟩ | ⟨h, _⟩ | ⟨h, _⟩ | ⟨_, h | h⟩
    · exact .inl (keysAnswered_dead (.inl h))
    · exact .inl (keysAnswered_dead (.inr (.inl h)))
    · exact .inl (keysAnswered_dead (.inr (.inr h)))
    · exact .inr (.inr (.inr h))
    any_goals cases h
    · exact .inr (.inl h)
    · exact .inr (.inr (.inl h))

theorem lineKey_stays {s : State} {c : Instr} {target : LineState} (hs : started s = true)
    (ha : s.line.auth = .localPendant ∨ s.line.auth = .localHeld) (hc : (c, target) ∈ lineKeys)
    (h : target = s.line.state ∨ (target = .warm ∧ s.line.state = .ready)) :
    ∃ t, exec c s = .next t ∧ t.line = (pendantMessage s).line ∧ ChangesOnly [.line, .sent] s t := by
  refine key_idle (exec_lineKey hc s) ?_
  have ht : target ∈ [LineState.cold, .warm, .run, .hold] := by
    simp only [lineKeys, List.mem_cons, Prod.mk.injEq, List.not_mem_nil, or_false] at hc
    rcases hc with ⟨_, rfl⟩ | ⟨_, rfl⟩ | ⟨_, rfl⟩ | ⟨_, rfl⟩ <;> simp
  obtain ⟨hacc, hst⟩ := lineAccepts_stays (s := heard s) ht h
  rw [keyLine_accepted (keysAnswered_heard hs ha) hacc]
  exact if_pos hst

theorem lineKey_entered {s : State} {c : Instr} {target : LineState} (wf : Memory.wf s.mem = true)
    (hs : started s = true) (ha : s.line.auth = .localPendant ∨ s.line.auth = .localHeld)
    (hc : (c, target) ∈ lineKeys) (h : TargetEntered s target) :
    ∃ t, exec c s = .next t ∧ Entered target .pendant (pendantMessage s) t
      ∧ t.line.jog = jogAtTarget target s
      ∧ ChangesOnly lineParts s t ∧ LogAndTicketsOnly s t := by
  obtain ⟨hacc, hgo⟩ := lineGo_entered (show TargetEntered (heard s) target from h) .pendant
  refine key_entered wf (exec_lineKey hc s) ?_
  rw [keyLine_accepted (keysAnswered_heard hs ha) hacc, hgo]
  rfl

/-- The keys that make the line enter a state, with the jog state after them (R10, R15, R16). -/
theorem key_enters {s : State} {c : Instr} {target : LineState} (wf : Memory.wf s.mem = true)
    (hs : started s = true) (ha : s.line.auth = .localPendant ∨ s.line.auth = .localHeld)
    (h : (c = .keyCold ∧ target = .cold ∧ s.line.state ≠ .cold ∧ s.line.state ≠ .halt)
      ∨ (c = .keyRun ∧ target = .run ∧ s.line.state = .ready ∧ s.reg.home = none)
      ∨ (c = .keyRun ∧ target = .run ∧ s.line.state = .hold ∧ holdCauseLatched s = false
        ∧ runHeatTest s = true ∧ s.reg.home = none)
      ∨ (c = .keyHold ∧ target = .hold ∧ s.line.state = .run)
      ∨ (c = .keyThread ∧ target = .thread ∧ (s.line.state = .cold ∨ s.line.state = .warm
        ∨ s.line.state = .ready))
      ∨ (c = .keyThread ∧ target = .cold ∧ s.line.state = .thread
        ∧ s.line.threadHeat = false)) :
    ∃ t, exec c s = .next t ∧ Entered target .pendant (pendantMessage s) t
      ∧ t.line.jog = (if target = .thread ∨ c = .keyCold then .still else s.line.jog)
      ∧ ChangesOnly lineParts s t ∧ LogAndTicketsOnly s t := by
  have hk := keysAnswered_heard hs ha
  rcases h with ⟨rfl, rfl, h1, h2⟩ | ⟨rfl, rfl, h1, h2⟩ | ⟨rfl, rfl, h1, h2, h3, h4⟩ | ⟨rfl, rfl, h1⟩ |
    ⟨rfl, rfl, h1⟩ | ⟨rfl, rfl, h1, h2⟩
  · exact lineKey_entered wf hs ha (by simp [lineKeys]) (.inl ⟨rfl, h1, h2⟩)
  · exact lineKey_entered wf hs ha (by simp [lineKeys]) (.inr (.inl ⟨rfl, h1, h2⟩))
  · exact lineKey_entered wf hs ha (by simp [lineKeys]) (.inr (.inr (.inl ⟨rfl, h1, h2, h3, h4⟩)))
  · exact lineKey_entered wf hs ha (by simp [lineKeys]) (.inr (.inr (.inr ⟨rfl, h1⟩)))
  · refine key_entered wf (f := keyThread) rfl ?_
    rw [keyThread_enters hk h1, withJog_self]
    simp [jogOf]
  · refine key_entered wf (f := keyThread) rfl ?_
    rw [keyThread_leaves hk h1 h2, withJog_self]
    simp [jogOf]

/-- The jog keys and the jog states they hold. -/
def jogKeys : List (Instr × Jog) := [(.keyJogFwd, .fwd), (.keyJogRev, .rev)]

theorem exec_jogKey {c : Instr} {j : Jog} (h : (c, j) ∈ jogKeys) (s : State) :
    exec c s = answerPendant (keyJog j) s ∧ j ≠ .still := by
  simp only [jogKeys, List.mem_cons, Prod.mk.injEq, List.not_mem_nil, or_false] at h
  rcases h with ⟨rfl, rfl⟩ | ⟨rfl, rfl⟩ <;> exact ⟨rfl, by decide⟩

/-- A jog key that starts a jog (R16, R129, R148). -/
theorem jogKey_starts {s : State} {c : Instr} {j : Jog} (hc : (c, j) ∈ jogKeys)
    (h : s.line.state = .thread) (ha : s.line.auth = .localPendant ∨ s.line.auth = .localHeld)
    (hs : s.line.jog = .still) (hr : j = .fwd ∨ reverseBlocked s = false) :
    ∃ t, exec c s = .next t ∧ t.line = { (pendantMessage s).line with jog := j }
      ∧ t.dose = { s.dose with sCmd := 20 } ∧ (∀ z : Fin 4, t.tens.zones[z].auto = none)
      ∧ ChangesOnly [.mem, .line, .dose, .tens, .walker, .host, .sent] s t
      ∧ LogAndTicketsOnly s t := by
  obtain ⟨he, hj⟩ := exec_jogKey hc s
  have hb : reverseBlocked (heard s) = reverseBlocked s := rfl
  have hf : keyJog j (heard s) = abortAutos 5 (setSpeed 20 (withJog j (heard s))) := by
    rw [keyJog_answered (by simpa using h) ((isLocal_iff (heard s)).mpr ha),
      if_neg (by simp [hs, Ne.symm hj]), if_neg (by simp [hs]), if_neg, setJog_starts (by simpa using h)
      (by simpa using hs) hj]
    rintro ⟨h1, h2⟩
    rcases hr with hr | hr
    · rw [h1] at hr
      cases hr
    · rw [hb, hr] at h2
      cases h2
  refine ⟨_, exec_key he, ?_⟩
  rw [hf]
  refine ⟨by simp, by simp [setSpeed], fun z => ?_, ?_, ?_⟩
  · rw [(keyEnd_keeps _ _).2.2.2.2.2.2.2.2.2.1, abortAutos_zone, TensionZone.aborted_auto]
  · exact .of_all (by simp [samePart])
  · obtain ⟨k, _, hk⟩ := (abortAutos_mayStall 5 (setSpeed 20 (withJog j (heard s)))).reported
    have h0 : Reported 0 s (setSpeed 20 (withJog j (heard s))) := .of_same rfl rfl rfl rfl
    exact ((h0.after hk).quiet (keyEnd_reported s _)).logAndTickets

theorem keyUp_ends {s : State} {k : Key} (h : s.line.state = .thread)
    (ha : s.line.auth = .localPendant ∨ s.line.auth = .localHeld)
    (hk : (k = .jogFwd ∧ s.line.jog = .fwd) ∨ (k = .jogRev ∧ s.line.jog = .rev)) :
    ∃ t, exec (.keyUp k) s = .next t ∧ t.line = { (pendantMessage s).line with jog := .still }
      ∧ t.dose = { s.dose with sCmd := 0 } ∧ ChangesOnly [.line, .dose, .sent] s t := by
  have hf : keyRelease k (heard s) = setJog .still (heard s) :=
    if_pos ⟨h, (isLocal_iff (heard s)).mpr ha, (keyJogState_iff k s).mpr hk⟩
  have hj : s.line.jog ≠ .still := by rcases hk with ⟨_, h⟩ | ⟨_, h⟩ <;> simp [h]
  refine ⟨_, exec_key rfl, ?_⟩
  rw [hf, setJog_still]
  exact ⟨by simp, by simp [speedAtJogEnd, h, hj], .of_all (by simp [samePart])⟩

/-- Settles O40. -/
theorem pendantLineAndJogKeys : Obligations.PendantLineAndJogKeys := by
  refine ⟨fun s wf => ⟨fun c target hc h => lineKey_refused ?_ h, fun hs ha => ⟨fun c target hc => ?_,
    fun c target h => key_enters wf hs ha h, fun h hh hl => ?_⟩⟩, fun s c j hc => ?_⟩
  · simp only [lineKeys, List.mem_cons, Prod.mk.injEq, List.not_mem_nil, or_false] at hc ⊢
    tauto
  · simp only [List.mem_cons, Prod.mk.injEq, List.not_mem_nil, or_false] at hc
    refine lineKey_stays (target := target) hs ha ?_ ?_
    · simp only [lineKeys, List.mem_cons, Prod.mk.injEq, List.not_mem_nil, or_false]
      tauto
    · rcases hc with ⟨_, rfl, h⟩ | ⟨_, rfl, h⟩ | ⟨_, rfl, h⟩ | ⟨_, rfl, h⟩ | ⟨_, rfl, h⟩
      case inr.inr.inr.inr => exact .inr ⟨rfl, h⟩
      all_goals exact .inl h.symm
  · obtain ⟨_, hfar, _⟩ := lineToWarm s .keyThread (.inr (.inr ⟨rfl, h, hh, hs, ha⟩))
    obtain ⟨t, hex, hu, _, _, _, hlevel, hheat, hstate, hspeed, _, _, _, _, _, _, _, hframe, hbytes⟩ :=
      hfar (.inr rfl) hl
    exact ⟨t, hex, hu, hlevel, hheat, hspeed, hstate, hframe, hbytes⟩
  · have hkey : (c, j) ∈ jogKeys := by
      simp only [jogKeys, List.mem_cons, Prod.mk.injEq, List.not_mem_nil, or_false]
      exact hc
    obtain ⟨he, _⟩ := exec_jogKey hkey s
    refine ⟨fun h => key_locked he (keyJog_refused ?_), fun h ha => ⟨fun hj => key_idle he ?_,
      fun hj hr => jogKey_starts hkey h ha hj (hr.imp_right fun hr => ?_), fun k hk => keyUp_ends h ha hk⟩,
      fun k h => key_idle (f := keyRelease k) rfl (if_neg ?_)⟩
    · rcases h with h | h | h | h | ⟨h1, h2, h3⟩
      · exact .inl h
      · exact .inr (.inl (isLocal_remote (s := heard s) (.inl h)))
      · exact .inr (.inl (isLocal_remote (s := heard s) (.inr h)))
      · exact .inr (.inr (.inl h))
      · exact .inr (.inr (.inr ⟨h1, h2, (reverseBlocked_iff (heard s)).mpr h3⟩))
    · rw [keyJog_answered (by simpa using h) ((isLocal_iff (heard s)).mpr ha)]
      exact if_pos hj
    · obtain ⟨h1, h2, h3, h4⟩ := hr
      rw [Bool.eq_false_iff, Ne, reverseBlocked_iff]
      rintro (h | h | h | ⟨k, h⟩)
      · exact h h1
      · exact h h2
      · exact h h3
      · exact h4 k h
    · rintro ⟨h1, h2, h3⟩
      have hl := (isLocal_iff (heard s)).mp h2
      have hk := (keyJogState_iff k (heard s)).mp h3
      rcases h with h | h | h | h
      · exact h h1
      · rcases hl with hl | hl <;> exact absurd (h.symm.trans hl) (by decide)
      · rcases hl with hl | hl <;> exact absurd (h.symm.trans hl) (by decide)
      · exact h hk

end Sys2Proof.Proofs
end

