-- ==== Sys2Proof/Proofs/ArmEvents.lean ====
section
/-! PROOFS. Arm events: the channels they start, and the reverse jog that a channel's start ends (R16,
R46, R48). -/

-- One thread for the whole file: each waiting thread reserves its stack.
set_option Elab.async false

namespace Sys2Proof.Machine

/-- Whether an arm event starts or reloads a channel (R48). -/
def armHit (src : ArmSource) (s : State) (c : Fin 12) : Bool :=
  s.trig.channels[c].arm == src && s.trig.channels[c].takesArm

/-- Whether an arm event brings a channel to COUNTING that was not there: it was ARMED (R46). -/
def armWakes (src : ArmSource) (s : State) (c : Fin 12) : Prop :=
  armHit src s c = true ∧ s.trig.channels[c].state = .armed

/-- The line's record after a reverse jog was ended by a channel (R16, R46). -/
def jogEndedLine (s : State) : LineUnit :=
  { s.line with jog := .still, lockedAt := some s.host.clock }

theorem endReverseJog_eq (s : State) : endReverseJog s = if s.line.jog = .rev then
    { s with line := jogEndedLine s, dose := { s.dose with sCmd := speedAtJogEnd s } } else s := by
  unfold endReverseJog
  split
  · rw [setJog_still]
    rfl
  · rfl

/-- The channels of a set were started with their reload values, and a reverse jog was ended if one of them
was ARMED; nothing else has changed. -/
structure Started (hit : Fin 12 → Bool) (s t : State) : Prop where
  channels : ∀ c : Fin 12, t.trig.channels[c] =
    if hit c = true then s.trig.channels[c].start s.trig.channels[c].reload else s.trig.channels[c]
  latches : t.trig.latches = s.trig.latches
  cuts : t.trig.cuts = s.trig.cuts
  ended : s.line.jog = .rev → (∃ c : Fin 12, hit c = true ∧ s.trig.channels[c].state = .armed) →
    t.line = jogEndedLine s
  kept : s.line.jog ≠ .rev ∨ (∀ c : Fin 12, hit c = true → s.trig.channels[c].state ≠ .armed) →
    t.line = s.line ∧ t.dose = s.dose
  frame : ChangesOnly [.trig, .line, .dose] s t

theorem Started.none {hit : Fin 12 → Bool} {s : State} (h : ∀ c, hit c = false) : Started hit s s :=
  ⟨fun c => by simp [h], rfl, rfl, fun _ ⟨c, hc, _⟩ => by simp [h] at hc, fun _ => ⟨rfl, rfl⟩, .rfl _ s⟩

/-- One channel started; an ARMED one ends a reverse jog (R46, R48). -/
theorem startCounting_started {s : State} {c : Fin 12}
    (h : s.trig.channels[c].state = .armed ∨ s.trig.channels[c].state = .counting) :
    Started (fun k => k == c) s (startCounting c s.trig.channels[c].reload s) := by
  have hch : ∀ k : Fin 12, (startCounting c s.trig.channels[c].reload s).trig.channels[k] =
      if (k == c) = true then s.trig.channels[k].start s.trig.channels[k].reload
      else s.trig.channels[k] := fun k => by
    have htrig : (startCounting c s.trig.channels[c].reload s).trig
        = (updChannel c (fun ch => ch.start s.trig.channels[c].reload) s).trig := by
      unfold startCounting
      split
      · rfl
      · simp
    rw [htrig]
    by_cases hk : c = k
    · subst hk
      rw [channels_updChannel_same, beq_self_eq_true, if_pos rfl]
    · rw [channels_updChannel_other hk, if_neg (by simpa using Ne.symm hk)]
  have hrest : (startCounting c s.trig.channels[c].reload s).trig.latches = s.trig.latches
      ∧ (startCounting c s.trig.channels[c].reload s).trig.cuts = s.trig.cuts
      ∧ ChangesOnly [.trig, .line, .dose] s (startCounting c s.trig.channels[c].reload s) := by
    unfold startCounting
    split
    · exact ⟨rfl, rfl, .of_all (by simp [samePart])⟩
    · rw [endReverseJog_eq]
      split <;> exact ⟨rfl, rfl, .of_all (by simp [samePart])⟩
  refine ⟨hch, hrest.1, hrest.2.1, fun hj ⟨k, hk, hs⟩ => ?_, fun hk => ?_, hrest.2.2⟩
  · obtain rfl : k = c := by simpa using hk
    unfold startCounting
    rw [if_neg (by rw [hs]; decide), endReverseJog_eq, if_pos (by simpa using hj)]
    simp [jogEndedLine]
  · unfold startCounting
    by_cases hc : s.trig.channels[c].state = .counting
    · rw [if_pos hc]
      simp
    · have hj : s.line.jog ≠ .rev := hk.resolve_right fun hn => hn c (by simp) (h.resolve_right hc)
      rw [if_neg hc, endReverseJog_eq, if_neg (by simpa using hj)]
      simp

theorem armChannel_started (src : ArmSource) (s : State) (c : Fin 12) :
    Started (fun k => k == c && armHit src s k) s (armChannel src s c) := by
  unfold armChannel
  by_cases h : s.trig.channels[c].arm = src ∧ s.trig.channels[c].takesArm = true
  · have hit : armHit src s c = true := by simpa [armHit] using h
    have hfun : (fun k => k == c && armHit src s k) = fun k => k == c := funext fun k => by
      by_cases hk : k = c
      · rw [hk, hit, Bool.and_true]
      · simp [hk]
    rw [if_pos h, hfun]
    refine startCounting_started ?_
    have := h.2
    simp only [Channel.takesArm, Bool.or_eq_true, beq_iff_eq, Bool.and_eq_true] at this
    exact this.imp_right And.left
  · rw [if_neg h]
    refine .none fun k => ?_
    by_cases hk : k = c
    · subst hk
      simpa [armHit] using h
    · simp [hk]

/-- An arm event starts exactly the channels that it moves (R48). -/
theorem armEvent_started (src : ArmSource) (cs : List (Fin 12)) (hcs : cs.Nodup) (s : State) :
    Started (fun k => cs.contains k && armHit src s k) s (armEvent src cs s) := by
  induction cs generalizing s with
  | nil => exact .none fun k => by simp
  | cons c cs ih =>
    obtain ⟨hc, hcs⟩ := List.nodup_cons.mp hcs
    have h1 := armChannel_started src s c
    have h2 := ih hcs (armChannel src s c)
    show Started _ s (armEvent src cs (armChannel src s c))
    generalize armChannel src s c = u at *
    generalize armEvent src cs u = t at *
    have hsame : ∀ k ∈ cs, u.trig.channels[k] = s.trig.channels[k] := fun k hk => by
      have hne : k ≠ c := fun e => hc (e ▸ hk)
      rw [h1.channels, if_neg (by simp [hne])]
    have hhit : ∀ k ∈ cs, armHit src u k = armHit src s k := fun k hk => by
      unfold armHit
      rw [hsame k hk]
    have hclock : u.host = s.host := h1.frame .host (by decide)
    refine ⟨fun k => ?_, h2.latches.trans h1.latches, h2.cuts.trans h1.cuts, fun hj ⟨k, hk, hs⟩ => ?_,
      fun hk => ?_, h1.frame.trans h2.frame⟩
    · rw [h2.channels]
      by_cases hm : k ∈ cs
      · rw [hhit k hm, hsame k hm]
        simp [hm]
      · have hne : cs.contains k = false := by simpa using hm
        rw [hne, Bool.false_and, if_neg Bool.false_ne_true, h1.channels, List.contains_cons, hne, Bool.or_false]
    · simp only [List.contains_cons, Bool.and_eq_true, Bool.or_eq_true, beq_iff_eq, List.contains_iff_mem] at hk
      by_cases hw : armHit src s c = true ∧ s.trig.channels[c].state = .armed
      · have hu := h1.ended hj ⟨c, by simp [hw.1], hw.2⟩
        have hl := (h2.kept (.inl (by rw [hu]; exact Jog.noConfusion))).1
        rw [hl, hu]
      · have hu := h1.kept (.inr fun m hm hs => hw (by
          simp only [Bool.and_eq_true, beq_iff_eq] at hm
          obtain ⟨rfl, hm⟩ := hm
          exact ⟨hm, hs⟩))
        have hm : k ∈ cs := hk.1.resolve_left fun e => hw (by subst e; exact ⟨hk.2, hs⟩)
        have hl := h2.ended (by rw [hu.1]; exact hj) ⟨k, by simp [hm, hhit k hm, hk.2], by rw [hsame k hm]; exact hs⟩
        rw [hl, jogEndedLine, hu.1, hclock, jogEndedLine]
    · have h3 := h1.kept (hk.imp_right fun hn m hm => hn m (by
        simp only [Bool.and_eq_true, beq_iff_eq] at hm
        simp [hm.1, ← hm.1 ▸ hm.2]))
      have h4 := h2.kept (by
        rw [h3.1]
        refine hk.imp_right fun hn m hm => ?_
        simp only [Bool.and_eq_true, List.contains_iff_mem] at hm
        rw [hsame m hm.1]
        exact hn m (by simp [hm.1, ← hhit m hm.1, hm.2]))
      exact ⟨h4.1.trans h3.1, h4.2.trans h3.2⟩

end Sys2Proof.Machine
end

