-- ==== Sys2Proof/Proofs/TriggerTickets.lean ====
section
/-! PROOFS. TRIGGER_GROUP and TRIGGER_CORRECT (R50, R51). -/

-- One thread for the whole file: each waiting thread reserves its stack.
set_option Elab.async false

namespace Sys2Proof.Machine

/-! ## The set of a TRIGGER_GROUP (R50) -/

/-- The low bits of a set are 0 exactly where it names none of the first channels. -/
theorem extract_zero_iff (set : Half) (n : Nat) :
    set.extractLsb' 0 n = 0 ↔ ∀ i, i < n → set.getLsbD i = false := by
  constructor
  · intro h i hi
    have := congrArg (fun v => BitVec.getLsbD v i) h
    simpa [BitVec.getLsbD_extractLsb', hi] using this
  · intro h
    refine BitVec.eq_of_getLsbD_eq fun i hi => ?_
    simp [hi, h i hi]

theorem mem_allChannels (c : Fin 12) : c ∈ allChannels := by
  revert c
  decide

theorem groupOf_mem (set : Half) (c : Fin 12) : c ∈ groupOf set ↔ set.getLsbD c.val = true := by
  simp [groupOf, mem_allChannels]

theorem groupOf_nodup (set : Half) : (groupOf set).Nodup := (show allChannels.Nodup by decide).filter _

theorem groupOf_empty_iff (set : Half) : groupOf set = [] ↔ set.extractLsb' 0 12 = 0 := by
  rw [List.eq_nil_iff_forall_not_mem, extract_zero_iff]
  constructor
  · intro h i hi
    simpa [groupOf_mem] using h ⟨i, hi⟩
  · intro h c
    simpa [groupOf_mem] using h c.val c.isLt

theorem groupOf_marker_iff (set : Half) : ((groupOf set).contains 0 || (groupOf set).contains 1) = true
    ↔ set.extractLsb' 0 2 ≠ 0 := by
  rw [Ne, extract_zero_iff]
  simp only [Bool.or_eq_true, List.contains_iff_mem, groupOf_mem]
  constructor
  · rintro (h | h) hn
    · exact Bool.false_ne_true ((hn 0 (by decide)).symm.trans h)
    · exact Bool.false_ne_true ((hn 1 (by decide)).symm.trans h)
  · intro hn
    by_contra hc
    push Not at hc
    refine hn fun i hi => ?_
    have h2 : i = 0 ∨ i = 1 := by omega
    rcases h2 with rfl | rfl
    · exact Bool.eq_false_iff.mpr hc.1
    · exact Bool.eq_false_iff.mpr hc.2

/-- The channels that a group fire moves (R48, R50). -/
def groupHit (set : Half) (s : State) (c : Fin 12) : Bool := set.getLsbD c.val && armHit .groupFire s c

theorem groupHit_eq (set : Half) (s : State) :
    (fun k => (groupOf set).contains k && armHit .groupFire s k) = groupHit set s := by
  funext k
  have : (groupOf set).contains k = set.getLsbD k.val := by
    rw [Bool.eq_iff_iff, List.contains_iff_mem, groupOf_mem]
  rw [this, groupHit]

theorem armCount_group (set : Half) (s : State) :
    armCount .groupFire (groupOf set) s = (allChannels.filter (groupHit set s)).length := by
  unfold armCount groupOf
  rw [List.filter_filter]
  congr 2
  funext k
  exact Bool.and_comm _ _

theorem armEvent_group (set : Half) (s : State) :
    Started (groupHit set s) s (armEvent .groupFire (groupOf set) s) := by
  rw [← groupHit_eq]
  exact armEvent_started _ _ (groupOf_nodup set) s

/-! ## A corrected channel (R51) -/

theorem updChannel_withChannel (c : Fin 12) (f : Channel → Channel) (s : State) :
    (updChannel c f s).trig = s.trig.withChannel c (f s.trig.channels[c]) := rfl

theorem limitNat_counts {i : Int} {r : Nat} (h : (r : Int) = max 0 (min 65535 i)) : limitNat 0 65535 i = r := by
  unfold limitNat limit
  split
  · omega
  · split <;> omega

end Sys2Proof.Machine

namespace Sys2Proof.Proofs

open Sys2Proof.Machine

/-! ## TRIGGER_GROUP -/

theorem takeTriggerGroup_eq (n : Nat) (s : State) : takeTriggerGroup n s =
    if (ticketHalf s n 0x20).extractLsb' 0 12 = 0 then refuseTicket n .badField 0 s
    else if (ticketHalf s n 0x20).extractLsb' 0 2 ≠ 0 then refuseTicket n .locked 0 s
    else finishTicket n .ok (natWord (allChannels.filter (groupHit (ticketHalf s n 0x20) s)).length)
      (armEvent .groupFire (groupOf (ticketHalf s n 0x20)) s) := by
  refine if_congr ?_ rfl (if_congr (groupOf_marker_iff _) rfl ?_)
  · rw [List.isEmpty_iff, groupOf_empty_iff]
  · rw [armCount_group]

theorem triggerGroup {s : State} (hk : TakesKind s 0x31) :
    ((ticketHalf s (look s) 0x20).extractLsb' 0 12 = 0 → Refused .badField 0 .triggerGroup s)
    ∧ ((ticketHalf s (look s) 0x20).extractLsb' 0 2 ≠ 0 → Refused .locked 0 .triggerGroup s)
    ∧ ((ticketHalf s (look s) 0x20).extractLsb' 0 12 ≠ 0 →
      (ticketHalf s (look s) 0x20).extractLsb' 0 2 = 0 →
      Accepted .ok (natWord (allChannels.filter (groupHit (ticketHalf s (look s) 0x20) s)).length)
        [.trig, .line, .dose] .triggerGroup s fun t =>
          t.trig.latches = s.trig.latches ∧ t.trig.cuts = s.trig.cuts
          ∧ (∀ c : Fin 12, t.trig.channels[c] = if groupHit (ticketHalf s (look s) 0x20) s c = true then
              { s.trig.channels[c] with
                state := .counting, remaining := s.trig.channels[c].reload, ahead := false }
            else s.trig.channels[c])
          ∧ (s.line.jog = .rev ∧ (∃ c, groupHit (ticketHalf s (look s) 0x20) s c = true
              ∧ s.trig.channels[c].state = .armed) →
            t.line = { s.line with jog := .still, lockedAt := some s.host.clock })
          ∧ (s.line.jog ≠ .rev ∨ (∀ c, groupHit (ticketHalf s (look s) 0x20) s c = true →
              s.trig.channels[c].state ≠ .armed) →
            t.line = s.line ∧ t.dose = s.dose ∧ t.sent = [])) := by
  have hset : ticketHalf (claimed s) (look s) 0x20 = ticketHalf s (look s) 0x20 :=
    claimed_ticketHalf s (by decide)
  refine ⟨fun h => refused_of rfl hk ?_, fun h => refused_of rfl hk ?_, fun h1 h2 => ?_⟩
  · rw [takeTriggerGroup_eq, hset, if_pos h]
  · have h1 : (ticketHalf s (look s) 0x20).extractLsb' 0 12 ≠ 0 := fun h1 =>
      h ((extract_zero_iff _ _).mpr fun i hi => (extract_zero_iff _ _).mp h1 i (by omega))
    rw [takeTriggerGroup_eq, hset, if_neg h1, if_pos h]
  · have hf := takeTriggerGroup_eq (look s) (claimed s)
    rw [hset, if_neg h1, if_neg (not_not_intro h2)] at hf
    have hit : groupHit (ticketHalf s (look s) 0x20) (claimed s) = groupHit (ticketHalf s (look s) 0x20) s := by
      funext c
      simp [groupHit, armHit]
    have hst := armEvent_group (ticketHalf s (look s) 0x20) (claimed s)
    rw [hit] at hst
    rw [hit] at hf
    have hframe : ChangesOnly ([.trig, .line, .dose] ++ ticketParts) s
        (armEvent .groupFire (groupOf (ticketHalf s (look s) 0x20)) (claimed s)) :=
      (ChangesOnly.of_all (by simp [samePart, ticketParts])).trans (hst.frame.mono (by decide))
    have hstate : (armEvent .groupFire (groupOf (ticketHalf s (look s) 0x20)) (claimed s)).line.state
        = s.line.state := by
      by_cases hd : (claimed s).line.jog = .rev ∧ ∃ c : Fin 12, groupHit (ticketHalf s (look s) 0x20) s c = true
          ∧ (claimed s).trig.channels[c].state = .armed
      · rw [hst.ended hd.1 hd.2]
        simp [jogEndedLine]
      · have : (claimed s).line.jog ≠ .rev ∨ ∀ c : Fin 12, groupHit (ticketHalf s (look s) 0x20) s c = true →
            (claimed s).trig.channels[c].state ≠ .armed := by
          by_contra hc
          push Not at hc
          exact hd ⟨hc.1, hc.2⟩
        rw [(hst.kept this).1]
        simp
    generalize armEvent .groupFire (groupOf (ticketHalf s (look s) 0x20)) (claimed s) = w at *
    refine accepted_of (w := w) rfl hk hf ⟨?_, ?_, fun c => ?_, fun h => ?_, fun h => ?_⟩ hframe
      (hst.frame .mem (by decide)) (hst.frame .walker (by decide))
      ((hst.frame .host (by decide)).trans (by simp)) (by rw [show w.pos = _ from hst.frame .pos (by decide)]; simp)
      hstate
    · simpa using hst.latches
    · simpa using hst.cuts
    · have := hst.channels c
      simpa [Channel.start] using this
    · have := hst.ended (by simpa using h.1) (by simpa using h.2)
      simpa [jogEndedLine] using this
    · have h3 := hst.kept (by simpa using h)
      have hpos : w.pos = s.pos := (hst.frame .pos (by decide)).trans (by simp)
      have hreg : w.reg = s.reg := (hst.frame .reg (by decide)).trans (by simp)
      have htens : w.tens = s.tens := (hst.frame .tens (by decide)).trans (by simp)
      rw [takeEnd_sent (frameOf_congr (by simpa using h3.1) (by simpa using hpos) (by simpa using hreg)
        (by simpa using h3.2) (by simpa using htens)) (lampSet_congr (by simpa using h3.1))]
      refine ⟨by simpa using h3.1, by simpa using h3.2, ?_⟩
      have : w.sent = _ := hst.frame .sent (by decide)
      simp [this]

/-! ## TRIGGER_CORRECT -/

theorem takeTriggerCorrect_at {s : State} {n : Nat} {c : Fin 12} (hc : bodyByte s n 0x20 = c.val)
    (h2 : 2 ≤ c.val) : takeTriggerCorrect n s =
      if correctionOf s n < -65535 ∨ 65535 < correctionOf s n then refuseTicket n .badField 2 s
      else if s.trig.channels[c].state ≠ .counting then
        refuseTicket n .state (natWord s.trig.channels[c].state.code) s
      else finishTicket n .ok
        (natWord (limitNat 0 65535 (s.trig.channels[c].remaining + correctionOf s n)))
        (updChannel c
          (fun ch => ch.correct (limitNat 0 65535 (s.trig.channels[c].remaining + correctionOf s n))) s) := by
  have hcc : Fin.ofNat 12 (bodyByte s n 0x20) = c := by
    rw [hc]
    exact Fin.ofNat_val_eq_self c
  unfold takeTriggerCorrect
  simp only [hcc]
  rw [if_neg (by omega), if_neg (by omega)]

theorem triggerCorrect {s : State} (hk : TakesKind s 0x32) :
    (11 < bodyByte s (look s) 0x20 → Refused .badField 1 .triggerCorrect s)
    ∧ (bodyByte s (look s) 0x20 ≤ 1 → Refused .locked 0 .triggerCorrect s)
    ∧ (∀ c : Fin 12, bodyByte s (look s) 0x20 = c.val → 2 ≤ c.val →
      ((correctionOf s (look s) < -65535 ∨ 65535 < correctionOf s (look s)) →
        Refused .badField 2 .triggerCorrect s)
      ∧ (-65535 ≤ correctionOf s (look s) → correctionOf s (look s) ≤ 65535 →
        (s.trig.channels[c].state ≠ .counting →
          Refused .state (natWord s.trig.channels[c].state.code) .triggerCorrect s)
        ∧ (∀ r : Nat, s.trig.channels[c].state = .counting →
          (r : Int) = max 0 (min 65535 (s.trig.channels[c].remaining + correctionOf s (look s))) →
          Accepted .ok (natWord r) [.trig] .triggerCorrect s fun t => t.sent = [] ∧
            t.trig = s.trig.withChannel c
              { s.trig.channels[c] with
                remaining := r, ahead := s.trig.channels[c].ahead && decide (r ≠ 0) }))) := by
  have hb : bodyByte (claimed s) (look s) 0x20 = bodyByte s (look s) 0x20 := claimed_bodyByte s (by decide)
  have hcor : correctionOf (claimed s) (look s) = correctionOf s (look s) := by
    unfold correctionOf
    rw [claimed_ticketWord s (by decide)]
  have htrig : (claimed s).trig = s.trig := by simp
  refine ⟨fun h => refused_of rfl hk ?_, fun h => refused_of rfl hk ?_, fun c hc h2 =>
    ⟨fun h => refused_of rfl hk ?_, fun h3 h4 => ⟨fun h => refused_of rfl hk ?_, fun r h hr => ?_⟩⟩⟩
  · exact if_pos (by rwa [hb])
  · exact (if_neg (by omega)).trans (if_pos (by omega))
  all_goals have hat := takeTriggerCorrect_at (hb.trans hc) h2
  all_goals rw [hcor, htrig] at hat
  · rw [hat, if_pos h]
  · rw [hat, if_neg (by omega), if_pos h]
  · rw [if_neg (by omega), if_neg (not_not_intro h), limitNat_counts hr] at hat
    refine accepted_of rfl hk hat ⟨by rw [takeEnd_sent]; simp, ?_⟩ (.of_all (by simp [samePart, ticketParts]))
    have hch : s.trig.channels[c].correct r = { s.trig.channels[c] with
        remaining := r, ahead := s.trig.channels[c].ahead && decide (r ≠ 0) } := by
      have hr0 : (r != 0) = decide (r ≠ 0) := by by_cases h0 : r = 0 <;> simp [h0]
      rw [Channel.correct, hr0]
    rw [← hch, (takeEnd_keeps _ _).2.2.2.1, (finishTicket_keeps _ _ _ _).2.2.2.1, updChannel_withChannel, htrig]

end Sys2Proof.Proofs
end

