-- ==== Sys2Proof/Proofs/OutputSet.lean ====
section
/-! PROOFS. OUTPUT_SET (R55), and with it the statement of the three trigger tickets (R50, R51, R55). -/

-- One thread for the whole file: each waiting thread reserves its stack.
set_option Elab.async false

namespace Sys2Proof.Proofs

open Sys2Proof.Machine

/-- What an accepted or ignored OUTPUT_SET leaves, with the trigger unit that it leaves. -/
structure OutputDone (d : Word) (u : TrigUnit) (s t : State) : Prop where
  trig : t.trig = u
  shows : TicketShows (look s) .ok d s t
  recorded : TakeRecorded s t
  host : HostKept s t
  outstanding : t.walker.outstanding = s.walker.outstanding
  wentOn : WalkerWentOn s t
  levels : ∀ j : Fin 8, ticketByte t (look s) (0x80 + j.val) = boolByte t.trig.latches[j].level
  bytes : BytesKept (fun a => finishBytes (look s) a ∨ nextNoticeBytes s a
    ∨ (ticketBase (look s) + 0x80 ≤ a ∧ a < ticketBase (look s) + 0x88)) s t
  frame : ChangesOnly [.mem, .walker, .host, .sent, .trig] s t
  sent : t.sent = []

theorem latchLevels_length (s : State) : (latchLevels s).length = 8 := by simp [latchLevels]

theorem finishOutput_done {s w : State} {kind : Nat} (hk : TakesKind s kind) (d : Word)
    (h : ChangesOnly [.trig] (claimed s) w) : OutputDone d w.trig s (takeEnd s (finishOutput (look s) d w)) := by
  obtain ⟨_, _, hlow, hhigh, wf⟩ := id hk
  have hbase := ticketBase_range hlow hhigh
  have hmem : w.mem = (claimed s).mem := h .mem (by decide)
  have hwalker : w.walker = (claimed s).walker := h .walker (by decide)
  have hhost : w.host = s.host := (h .host (by decide)).trans (by simp)
  have hpos : w.pos = s.pos := (h .pos (by decide)).trans (by simp)
  have hline : w.line = s.line := (h .line (by decide)).trans (by simp)
  have hreg : w.reg = s.reg := (h .reg (by decide)).trans (by simp)
  have hdose : w.dose = s.dose := (h .dose (by decide)).trans (by simp)
  have htens : w.tens = s.tens := (h .tens (by decide)).trans (by simp)
  have hsent : w.sent = [] := (h .sent (by decide)).trans (by simp)
  have hput := putTicket_reported (a := ticketBase (look s) + 0x80) (by omega) (latchLevels w) w
  have hrep : Reported 0 (claimed s) (putBytes (ticketBase (look s) + 0x80) (latchLevels w) w) :=
    Reported.after (t := w) (.of_same hmem (by rw [hhost]; simp) (by rw [hwalker]) (by rw [hwalker])) hput
  have hbytes : BytesKept (fun a => ticketBase (look s) + 0x80 ≤ a ∧ a < ticketBase (look s) + 0x88)
      (claimed s) (putBytes (ticketBase (look s) + 0x80) (latchLevels w) w) :=
    BytesKept.trans (t := w) (.of_mem hmem) fun a ha =>
      Memory.get_putAll_out _ _ _ (by rw [latchLevels_length]; omega)
  have hin : InBody (look s) fun a => ticketBase (look s) + 0x80 ≤ a ∧ a < ticketBase (look s) + 0x88 :=
    fun a ha => by omega
  have halike : Alike s (putBytes (ticketBase (look s) + 0x80) (latchLevels w) w) :=
    ⟨by simp [hline], by simp [hpos], by simp [hhost], by simp [hhost]⟩
  obtain ⟨f1, f2, f3⟩ := takeEnd_finished hk hin hbytes hrep (by simp [hwalker]) halike .ok d
  obtain ⟨g1, g2, g3, _⟩ := takeEnd_takenWith hk hrep (by simp [hpos]) .ok d
    (hk.not_stalled (by simp [hwalker]))
  have hlevels : ∀ j : Fin 8, (latchLevels w)[j.val]'(by rw [latchLevels_length]; exact j.isLt)
      = boolByte w.trig.latches[j].level := fun j => by simp [latchLevels]
  have hframe : ChangesOnly [.mem, .walker, .host, .sent, .trig] s
      (putBytes (ticketBase (look s) + 0x80) (latchLevels w) w) := by
    refine ChangesOnly.trans (t := claimed s) (.of_all (by simp [samePart])) ((h.mono (by decide)).trans ?_)
    exact .of_all (by simp [samePart])
  unfold finishOutput
  refine ⟨by simp, g1, g2, g3, f1, f2, fun j => ?_, f3, takeEnd_changesOnly (by decide) hframe _ _, ?_⟩
  · have hj := takeEnd_result (s := s) (bs := latchLevels w) hlow hhigh (by rw [hmem]; exact claimed_wf wf)
      (by rw [latchLevels_length]; decide) .ok d (i := j.val) (by rw [latchLevels_length]; exact j.isLt)
    rw [hj, hlevels]
    simp
  · rw [takeEnd_sent (frameOf_congr (by simp [hline]) (by simp [hpos]) (by simp [hreg]) (by simp [hdose])
      (by simp [htens])) (lampSet_congr (by simp [hline]))]
    simp [hsent]

/-! ## The fields of the body (R55) -/

/-- The fields of a CONFIGURE in their ranges. -/
def ConfigureInRange (s : State) (n : Nat) : Prop :=
  (bodyByte s n 0x23 < 12 ∨ bodyByte s n 0x23 = 255) ∧ 1 ≤ bodyHalf s n 0x26 ∧ bodyHalf s n 0x26 ≤ 1000
  ∧ bodyByte s n 0x24 ≤ 1

theorem latchSourceOf_none (b : Nat) : (latchSourceOf b).isNone = true ↔ ¬ (b < 12 ∨ b = 255) := by
  unfold latchSourceOf
  by_cases h1 : b < 12
  · simp [h1]
  · by_cases h2 : b = 255 <;> simp [h1, h2]

theorem outputFieldBad_level {s : State} {n : Nat} (h : bodyByte s n 0x21 = 0) :
    outputFieldBad s n = true ↔ 1 < bodyByte s n 0x22 := by
  rw [outputFieldBad, if_pos h, decide_eq_true_eq]

theorem outputFieldBad_configure {s : State} {n : Nat} (h : bodyByte s n 0x21 = 1) :
    outputFieldBad s n = true ↔ ¬ ConfigureInRange s n := by
  unfold outputFieldBad ConfigureInRange
  rw [if_neg (by omega)]
  simp only [Bool.or_eq_true, decide_eq_true_eq, latchSourceOf_none]
  omega

/-- The latch that an accepted CONFIGURE writes (R55). -/
def configured (s : State) (n : Nat) : Latch :=
  { source := (latchSourceOf (bodyByte s n 0x23)).getD none, width := bodyHalf s n 0x26,
    protect := decide (bodyByte s n 0x24 = 1), level := false, pulseEnd := none }

/-- OUTPUT_SET of a latch 0..7, by its operation (R55). -/
theorem takeOutputSet_at {s : State} {n : Nat} {i : Fin 8} (hi : bodyByte s n 0x20 = i.val)
    (h1 : bodyByte s n 0x21 ≤ 1) : takeOutputSet n s =
      if outputFieldBad s n = true then refuseTicket n .badField 2 s
      else if s.trig.latches[i].protect = true then finishOutput n 1 s
      else if bodyByte s n 0x21 = 0 then
        (if s.trig.latches[i].source = none then
          finishOutput n 0 (updLatch i (fun l => { l with level := decide (bodyByte s n 0x22 = 1) }) s)
        else refuseTicket n .state 0 s)
      else finishOutput n 0 (updLatch i (fun _ => configured s n) s) := by
  have hii : Fin.ofNat 8 (bodyByte s n 0x20) = i := by
    rw [hi]
    exact Fin.ofNat_val_eq_self i
  have hb : ∀ b : Nat, (b == 1) = decide (b = 1) := fun b => by by_cases h : b = 1 <;> simp [h]
  unfold takeOutputSet configured
  simp only [hii, hb]
  rw [if_neg (by omega)]

theorem updLatch_trig (i : Fin 8) (f : Latch → Latch) (s : State) :
    (updLatch i f s).trig = s.trig.withLatch i (f s.trig.latches[i]) := rfl

theorem withLatch_self (u : TrigUnit) (i : Fin 8) : u.withLatch i u.latches[i] = u := by
  unfold TrigUnit.withLatch
  simp

/-! ## The whole ticket -/

/-- What an OUTPUT_SET that is accepted or ignored makes of the latch and of the detail (R55). -/
def OutputOf (s : State) (i : Fin 8) (l : Latch) (d : Word) : Prop :=
  (s.trig.latches[i].protect = true ∧ d = 1 ∧ l = s.trig.latches[i]
    ∧ ((bodyByte s (look s) 0x21 = 0 ∧ bodyByte s (look s) 0x22 ≤ 1)
      ∨ (bodyByte s (look s) 0x21 = 1 ∧ ConfigureInRange s (look s))))
  ∨ (s.trig.latches[i].protect = false ∧ d = 0 ∧ bodyByte s (look s) 0x21 = 0
    ∧ bodyByte s (look s) 0x22 ≤ 1 ∧ s.trig.latches[i].source = none
    ∧ l = { s.trig.latches[i] with level := decide (bodyByte s (look s) 0x22 = 1) })
  ∨ (s.trig.latches[i].protect = false ∧ d = 0 ∧ bodyByte s (look s) 0x21 = 1
    ∧ ConfigureInRange s (look s) ∧ l = configured s (look s))

/-- The body of a claimed OUTPUT_SET is that of the ticket. -/
theorem claimed_output (s : State) (k : Nat) (h : 1 ≤ k) :
    bodyByte (claimed s) (look s) k = bodyByte s (look s) k
    ∧ bodyHalf (claimed s) (look s) k = bodyHalf s (look s) k :=
  ⟨claimed_bodyByte s h, claimed_bodyHalf s h⟩

theorem claimed_configured (s : State) : configured (claimed s) (look s) = configured s (look s)
    ∧ (ConfigureInRange (claimed s) (look s) ↔ ConfigureInRange s (look s)) := by
  obtain ⟨h1, _⟩ := claimed_output s 0x23 (by decide)
  obtain ⟨_, h2⟩ := claimed_output s 0x26 (by decide)
  obtain ⟨h3, _⟩ := claimed_output s 0x24 (by decide)
  unfold configured ConfigureInRange
  rw [h1, h2, h3]
  exact ⟨rfl, Iff.rfl⟩

theorem outputSet_done {s : State} {i : Fin 8} {l : Latch} {d : Word} (hk : TakesKind s 0x33)
    (hi : bodyByte s (look s) 0x20 = i.val) (h : OutputOf s i l d) :
    ∃ t, exec .outputSet s = .next t ∧ OutputDone d (s.trig.withLatch i l) s t := by
  obtain ⟨h20, _⟩ := claimed_output s 0x20 (by decide)
  obtain ⟨h21, _⟩ := claimed_output s 0x21 (by decide)
  obtain ⟨h22, _⟩ := claimed_output s 0x22 (by decide)
  obtain ⟨hconf, hrange⟩ := claimed_configured s
  have htrig : (claimed s).trig = s.trig := by simp
  have hat := fun h1 => takeOutputSet_at (s := claimed s) (n := look s) (h20.trans hi) h1
  rw [h21, h22, htrig, hconf] at hat
  have hsame : ChangesOnly [.trig] (claimed s) (claimed s) := .rfl _ _
  have hupd : ∀ f, ChangesOnly [.trig] (claimed s) (updLatch i f (claimed s)) := fun f =>
    .of_all (by simp [samePart, updLatch, setLatches])
  rcases h with ⟨hp, rfl, rfl, hf⟩ | ⟨hp, rfl, h1, h2, h3, rfl⟩ | ⟨hp, rfl, h1, h2, rfl⟩
  · have hbad : ¬ outputFieldBad (claimed s) (look s) = true := by
      rcases hf with ⟨h1, h2⟩ | ⟨h1, h2⟩
      · rw [outputFieldBad_level (h21.trans h1), h22]
        omega
      · rw [outputFieldBad_configure (h21.trans h1), hrange]
        exact not_not_intro h2
    have hd := finishOutput_done hk 1 hsame
    rw [htrig] at hd
    refine ⟨_, by rw [exec_take rfl hk, hat (by omega), if_neg hbad, if_pos hp], ?_⟩
    rwa [withLatch_self]
  · have hbad : ¬ outputFieldBad (claimed s) (look s) = true := by
      rw [outputFieldBad_level (h21.trans h1), h22]
      omega
    have hd := finishOutput_done hk 0 (hupd fun l => { l with level := decide (bodyByte s (look s) 0x22 = 1) })
    rw [updLatch_trig, htrig] at hd
    exact ⟨_, by rw [exec_take rfl hk, hat (by omega), if_neg hbad, if_neg (by rw [hp]; exact Bool.false_ne_true), if_pos h1, if_pos h3],
      hd⟩
  · have hbad : ¬ outputFieldBad (claimed s) (look s) = true := by
      rw [outputFieldBad_configure (h21.trans h1), hrange]
      exact not_not_intro h2
    have hd := finishOutput_done hk 0 (hupd fun _ => configured s (look s))
    rw [updLatch_trig, htrig] at hd
    exact ⟨_, by rw [exec_take rfl hk, hat (by omega), if_neg hbad, if_neg (by rw [hp]; exact Bool.false_ne_true), if_neg (by omega)],
      hd⟩

/-- Settles O28. -/
theorem triggerGroupCorrectAndOutputs : Obligations.TriggerGroupCorrectAndOutputs := by
  refine ⟨⟨fun s hk => ?_, fun s hk => triggerCorrect hk⟩, fun s hk => ?_⟩
  · obtain ⟨h1, h2, h3⟩ := triggerGroup hk
    refine ⟨h1, h2, fun h4 h5 => ⟨groupHit (ticketHalf s (look s) 0x20) s, fun c => ?_, h3 h4 h5⟩⟩
    simp [groupHit, armHit, Channel.takesArm, Bool.and_assoc]
  · obtain ⟨h20, _⟩ := claimed_output s 0x20 (by decide)
    obtain ⟨h21, _⟩ := claimed_output s 0x21 (by decide)
    obtain ⟨h22, _⟩ := claimed_output s 0x22 (by decide)
    obtain ⟨_, hrange⟩ := claimed_configured s
    have htrig : (claimed s).trig = s.trig := by simp
    refine ⟨fun h => refused_of rfl hk (if_pos (by rwa [h20, h21])), fun i hi => ⟨fun h1 h2 => refused_of rfl hk ?_,
      fun h1 h2 => refused_of rfl hk ?_, fun h1 h2 h3 h4 => refused_of rfl hk ?_, fun l d inRange hin h => ?_⟩⟩
    · rw [takeOutputSet_at (h20.trans hi) (by omega), if_pos ((outputFieldBad_level (h21.trans h1)).mpr (by rwa [h22]))]
    · rw [takeOutputSet_at (h20.trans hi) (by omega), if_pos ((outputFieldBad_configure (h21.trans h1)).mpr ?_)]
      rw [hrange, ConfigureInRange]
      omega
    · have hbad : ¬ outputFieldBad (claimed s) (look s) = true := by
        rw [outputFieldBad_level (h21.trans h1), h22]
        omega
      rw [takeOutputSet_at (h20.trans hi) (by omega), if_neg hbad, htrig, if_neg (by rw [h3]; exact Bool.false_ne_true), h21, if_pos h1,
        if_neg h4]
    · obtain rfl : inRange = ConfigureInRange s (look s) := propext hin
      obtain ⟨t, hex, hd⟩ := outputSet_done hk hi h
      exact ⟨t, hex, hd.trig, hd.shows, hd.recorded, hd.host, hd.outstanding, hd.wentOn, hd.levels, hd.bytes,
        hd.frame, hd.sent⟩

end Sys2Proof.Proofs
end

