-- ==== Sys2Proof/Proofs/DriveLink.lean ====
section
/-! PROOFS. The drive link: the command frame, and the status frame with the wrap it moves (R19, R20, R71,
R91, R119, R121). -/

-- One thread for the whole file: each waiting thread reserves its stack.
set_option Elab.async false

namespace Sys2Proof.Machine

/-! ## The wrap's report (R119) -/

/-- A report that brings a moving wrap to the state it was sent to. -/
def ReportEnds (old : WrapState) (r : WrapReport) : Prop :=
  (old = .closing ∧ r = .closed) ∨ (old = .opening ∧ r = .opened)

/-- A report that takes a CLOSED wrap out of its state. -/
def ReportOpens (old : WrapState) (r : WrapReport) : Prop := old = .closed ∧ r ≠ .closed

/-- Off CLOSED no print starts (R63). -/
theorem printTest_open {s : State} (h : s.dose.wrap ≠ .closed) : printTest s = s := by
  unfold printTest printReady
  simp [h]

/-- A report ends the move, or closes the wrap again, or does nothing. -/
theorem wrapReport_cases (r : WrapReport) (s : State) :
    (ReportEnds s.dose.wrap r ∧ ∃ w, w = (if r = .closed then .closed else .opened)
      ∧ wrapReport r s = printTest (wrapReached w s))
    ∨ (ReportOpens s.dose.wrap r ∧ wrapReport r s = setSpeed 20 (moveWrap .closing .close s))
    ∨ (¬ ReportEnds s.dose.wrap r ∧ ¬ ReportOpens s.dose.wrap r ∧ wrapReport r s = s) := by
  have hclose : printTest (setSpeed 20 (moveWrap .closing .close s))
      = setSpeed 20 (moveWrap .closing .close s) :=
    printTest_open (by simp [setSpeed, moveWrap_dose])
  unfold wrapReport ReportEnds ReportOpens
  cases s.dose.wrap <;> cases r <;> simp [hclose]

/-- The wrap's state after a report. -/
def wrapAfter (old : WrapState) (r : WrapReport) : WrapState :=
  if old = .closing ∧ r = .closed then .closed
  else if old = .opening ∧ r = .opened then .opened
  else if old = .closed ∧ r ≠ .closed then .closing
  else old

/-- What a wrap report leaves (R119 to R121, R129). -/
structure WrapReported (r : WrapReport) (s t : State) : Prop where
  line : t.line = { s.line with alarms := t.line.alarms }
  latches : ∀ a, latched t a = latched s a
  others : ∀ a, a ≠ .wrapTimeout → alarmRec t a = alarmRec s a
  wrap : t.dose.wrap = wrapAfter s.dose.wrap r
  frame : ChangesOnly [.line, .dose, .ord, .lib, .sent] s t
  ended : ReportEnds s.dose.wrap r → conditionActive t .wrapTimeout = false ∧ t.dose.watch = none
    ∧ t.dose.sCmd = s.dose.sCmd
  opens : ReportOpens s.dose.wrap r → InterruptedByWrap s t ∧ t.dose.command = .close
    ∧ t.dose.watch = some (s.host.clock + 5000) ∧ t.dose.sCmd = 20
  still : ¬ ReportEnds s.dose.wrap r → ¬ ReportOpens s.dose.wrap r → t = s

theorem wrapReport_reported (r : WrapReport) (s : State) : WrapReported r s (wrapReport r s) := by
  have hne : ReportEnds s.dose.wrap r → ¬ ReportOpens s.dose.wrap r := fun h ho => by
    rcases h with ⟨h, _⟩ | ⟨h, _⟩ <;> rw [ho.1] at h <;> cases h
  rcases wrapReport_cases r s with ⟨h, w, hw, he⟩ | ⟨h, he⟩ | ⟨h1, h2, he⟩ <;> rw [he]
  · have hends : EndsOnly [.wrapTimeout] s (wrapReached w s) :=
      EndsOnly.trans (t := { s with dose := { s.dose with wrap := w, watch := none } }) (.of_same rfl)
        (endCondition_endsOnly _ _)
    have hline : (printTest (wrapReached w s)).line = (wrapReached w s).line := by simp
    have hdose : (printTest (wrapReached w s)).dose = { s.dose with wrap := w, watch := none } := by
      simp [wrapReached]
    refine ⟨by rw [hline]; rfl, fun a => ?_, fun a ha => ?_, ?_, ?_, fun _ => ⟨?_, ?_, ?_⟩,
      fun ho => absurd ho (hne h), fun hn => absurd h hn⟩
    · rw [latched_congr (s := wrapReached w s) (by rw [hline]), hends.latched]
    · rw [alarmRec_congr (s := wrapReached w s) (by rw [hline]), hends.keeps (by simpa using ha)]
    · rw [hdose, hw, wrapAfter]
      rcases h with ⟨h1, h2⟩ | ⟨h1, h2⟩ <;> simp [h1, h2]
    · exact .of_all (by simp [samePart, wrapReached])
    · rw [conditionActive, alarmRec_congr (s := wrapReached w s) (by rw [hline]), ← conditionActive,
        hends.conditionActive]
      simp
    · rw [hdose]
    · rw [hdose]
  · have hmoved := moveWrap_interrupted (w := .closing) (s := s) (by rw [h.1]; decide) .close
    refine ⟨by simp, fun a => latched_congr (by simp) a, fun a _ => alarmRec_congr (by simp) a, ?_,
      .of_all (by simp [samePart]), fun ho => absurd h (hne ho),
      fun _ => ⟨hmoved.congr rfl rfl, ?_, ?_, rfl⟩, fun _ hn => absurd h hn⟩
    · have h3 : r ≠ .closed := h.2
      simp [setSpeed, moveWrap_dose, wrapAfter, h.1, h3]
    · simp [setSpeed, moveWrap_dose]
    · simp [setSpeed, moveWrap_dose]
  · refine ⟨rfl, fun _ => rfl, fun _ _ => rfl, ?_, .rfl _ s, fun h => absurd h h1, fun h => absurd h h2,
      fun _ _ => rfl⟩
    have h3 : ¬ (s.dose.wrap = .closing ∧ r = .closed) := fun e => h1 (.inl e)
    have h4 : ¬ (s.dose.wrap = .opening ∧ r = .opened) := fun e => h1 (.inr e)
    have h5 : ¬ (s.dose.wrap = .closed ∧ r ≠ .closed) := h2
    rw [wrapAfter, if_neg h3, if_neg h4, if_neg h5]

/-! ## The link and the drive status (R20) -/

/-- The link UP, and its loss ended. -/
structure LinkBack (s t : State) : Prop where
  line : t.line = { s.line with link := .up, alarms := t.line.alarms }
  latches : ∀ a, latched t a = latched s a
  others : ∀ a, a ≠ .driveLinkLost → alarmRec t a = alarmRec s a
  ended : s.line.link = .lost → conditionActive t .driveLinkLost = false
  frame : ChangesOnly [.line] s t

theorem linkUp_back (s : State) : LinkBack s (linkUp s) := by
  unfold linkUp
  by_cases h : s.line.link = .lost
  · rw [if_pos h]
    have hends : EndsOnly [.driveLinkLost] s
        (endCondition .driveLinkLost { s with line := { s.line with link := .up } }) :=
      EndsOnly.trans (t := { s with line := { s.line with link := .up } }) (.of_same rfl)
        (endCondition_endsOnly _ _)
    refine ⟨rfl, hends.latched, fun a ha => hends.keeps (by simpa using ha), fun _ => ?_,
      .of_all (by simp [samePart])⟩
    rw [hends.conditionActive]
    simp
  · have hup : s.line.link = .up := by
      cases hl : s.line.link with
      | up => rfl
      | lost => exact absurd hl h
    rw [if_neg h]
    exact ⟨by rw [← hup], fun _ => rfl, fun _ _ => rfl, fun hl => absurd hl h, .rfl _ s⟩

/-- The link watch anew (R20). -/
def watched (s : State) : State := { s with line := { s.line with linkWatch := some (s.host.clock + 50) } }

/-- The measured phase kept (R91). -/
def keepPhase (phase : Word) (s : State) : State := { s with reg := { s.reg with measured := phase } }

/-- The state in which a status frame's DRIVE_STATUS is kept: the watch anew, the wrap reported, the
phase kept. -/
def phaseKept (w : WrapReport) (phase : Word) (s : State) : State := keepPhase phase (wrapReport w (watched s))

theorem statusFrame_eq (w : WrapReport) (phase : Word) (d : DriveStatus) (s : State) :
    statusFrame w phase d s = linkUp (keepDriveStatus d (phaseKept w phase s)) := rfl

/-- What stands before DRIVE_STATUS is kept. -/
structure PhaseKept (w : WrapReport) (phase : Word) (s t : State) : Prop where
  line : t.line = { s.line with linkWatch := some (s.host.clock + 50), alarms := t.line.alarms }
  latches : ∀ a, latched t a = latched s a
  others : ∀ a, a ≠ .wrapTimeout → alarmRec t a = alarmRec s a
  reg : t.reg = { s.reg with measured := phase }
  frame : ChangesOnly [.line, .reg, .dose, .ord, .lib, .sent] s t
  wrap : t.dose.wrap = wrapAfter s.dose.wrap w
  ended : ReportEnds s.dose.wrap w → conditionActive t .wrapTimeout = false ∧ t.dose.watch = none
    ∧ t.dose.sCmd = s.dose.sCmd
  opens : ReportOpens s.dose.wrap w → InterruptedByWrap s t ∧ t.dose.command = .close
    ∧ t.dose.watch = some (s.host.clock + 5000) ∧ t.dose.sCmd = 20
  still : ¬ ReportEnds s.dose.wrap w → ¬ ReportOpens s.dose.wrap w → t.dose = s.dose

theorem phaseKept_kept (w : WrapReport) (phase : Word) (s : State) : PhaseKept w phase s (phaseKept w phase s) := by
  have h := wrapReport_reported w (watched s)
  unfold phaseKept
  generalize wrapReport w (watched s) = u at *
  have hreg : u.reg = s.reg := h.frame .reg (by decide)
  refine ⟨h.line, h.latches, h.others, by rw [keepPhase, hreg], ?_, h.wrap, h.ended, fun ho => ?_,
    fun h1 h2 => ?_⟩
  · refine ChangesOnly.trans (t := watched s) (.of_all (by simp [samePart, watched]))
      ((h.frame.mono (by decide)).trans (.of_all (by simp [samePart, keepPhase])))
  · obtain ⟨h1, h2⟩ := h.opens ho
    exact ⟨(h1.source rfl rfl).congr rfl rfl, h2⟩
  · rw [h.still h1 h2]
    rfl

end Sys2Proof.Machine

namespace Sys2Proof.Proofs

open Sys2Proof.Machine

/-- A command frame, and nothing else (R19). -/
theorem commandFrame_sent (s : State) :
    exec .commandFrame s = .next { s with sent := [.frame (frameOf s)] } := by
  have he : exec .commandFrame s = .next (announce true false s (clearSent s)) := rfl
  obtain ⟨l, hl⟩ := announce_only_sent true false s (clearSent s)
  have hs : (announce true false s (clearSent s)).sent = [.frame (frameOf s)] := by
    rw [announce_sent, show frameOf (clearSent s) = frameOf s from rfl,
      show lampSet (clearSent s) = lampSet s from rfl]
    simp
  rw [hl] at hs
  rw [he, hl, show l = [.frame (frameOf s)] from hs]
  rfl

/-- The end of a status frame (R19, R119). -/
def statusEnd (s w : State) : State := announce (closesAgain s w) false s w

theorem exec_statusFrame (w : WrapReport) (phase : Word) (d : DriveStatus) (s : State) :
    exec (.statusFrame w phase d) s = .next (statusEnd s (statusFrame w phase d (clearSent s))) := rfl

@[simp] theorem statusEnd_keeps (s w : State) :
    (statusEnd s w).mem = w.mem ∧ (statusEnd s w).line = w.line ∧ (statusEnd s w).lib = w.lib
    ∧ (statusEnd s w).pos = w.pos ∧ (statusEnd s w).trig = w.trig ∧ (statusEnd s w).ord = w.ord
    ∧ (statusEnd s w).reg = w.reg ∧ (statusEnd s w).heat = w.heat ∧ (statusEnd s w).dose = w.dose
    ∧ (statusEnd s w).tens = w.tens ∧ (statusEnd s w).lastReading = w.lastReading
    ∧ (statusEnd s w).walker = w.walker ∧ (statusEnd s w).host = w.host
    ∧ (statusEnd s w).drawn = w.drawn ∧ (statusEnd s w).pending = w.pending := by
  simp [statusEnd]

/-- A wrap that has left CLOSED sends CLOSE again (R119). -/
theorem statusEnd_frame {s w : State} (h1 : s.dose.wrap = .closed) (h2 : w.dose.wrap = .closing) :
    Message.frame (frameOf (statusEnd s w)) ∈ (statusEnd s w).sent := by
  unfold statusEnd
  rw [(announce_views _ _ _ _).1, announce_sent]
  simp [closesAgain, h1, h2]

/-- What every status frame leaves (R20, R91). -/
theorem statusFrame_link (w : WrapReport) (phase : Word) (d : DriveStatus) (s : State) :
    (statusFrame w phase d s).line.linkWatch = some (s.host.clock + 50)
    ∧ (statusFrame w phase d s).line.drive = d ∧ (statusFrame w phase d s).line.link = .up
    ∧ (statusFrame w phase d s).reg = { s.reg with measured := phase }
    ∧ (s.line.link = .lost → conditionActive (statusFrame w phase d s) .driveLinkLost = false) := by
  have hk := phaseKept_kept w phase s
  have hu := linkUp_back (keepDriveStatus d (phaseKept w phase s))
  have hline := hk.line
  have hreg := hk.reg
  rw [statusFrame_eq]
  generalize phaseKept w phase s = u at *
  have hd : (keepDriveStatus d u).line.linkWatch = u.line.linkWatch ∧ (keepDriveStatus d u).line.drive = d
      ∧ (keepDriveStatus d u).line.link = u.line.link ∧ (keepDriveStatus d u).reg = u.reg := by
    unfold keepDriveStatus
    cases d
    · exact ⟨rfl, rfl, rfl, rfl⟩
    · simp
  obtain ⟨d1, d2, d3, d4⟩ := hd
  refine ⟨?_, ?_, ?_, ?_, fun hl => hu.ended ?_⟩
  · rw [hu.line, d1, hline]
  · rw [hu.line, d2]
  · rw [hu.line]
  · rw [show (linkUp (keepDriveStatus d u)).reg = _ from hu.frame .reg (by decide), d4, hreg]
  · rw [d3, hline]
    exact hl

/-- A status frame with DRIVE_STATUS OK (R20, R119). -/
structure StatusOk (w : WrapReport) (s t : State) : Prop where
  fault : conditionActive t .driveFault = false
  latches : ∀ a, latched t a = latched s a
  state : t.line.state = s.line.state
  mem : t.mem = s.mem
  host : t.host = s.host
  wrap : t.dose.wrap = wrapAfter s.dose.wrap w
  ended : ReportEnds s.dose.wrap w → conditionActive t .wrapTimeout = false ∧ t.dose.watch = none
    ∧ t.dose.sCmd = s.dose.sCmd
  opens : ReportOpens s.dose.wrap w → InterruptedByWrap s t ∧ t.dose.command = .close
    ∧ t.dose.watch = some (s.host.clock + 5000) ∧ t.dose.sCmd = 20
  still : ¬ ReportEnds s.dose.wrap w → ¬ ReportOpens s.dose.wrap w → t.dose = s.dose
  frame : ChangesOnly [.line, .reg, .dose, .ord, .lib, .sent] s t

theorem statusFrame_ok (w : WrapReport) (phase : Word) (s : State) :
    StatusOk w s (statusFrame w phase .ok s) := by
  have hk := phaseKept_kept w phase s
  have hu := linkUp_back (keepDriveStatus .ok (phaseKept w phase s))
  rw [statusFrame_eq]
  generalize phaseKept w phase s = u at *
  have hends : EndsOnly [.driveFault] u (keepDriveStatus .ok u) :=
    EndsOnly.trans (t := { u with line := { u.line with drive := .ok } }) (.of_same rfl)
      (endCondition_endsOnly _ _)
  have hframe : ChangesOnly [.line] u (keepDriveStatus .ok u) :=
    .of_all (by simp [samePart, keepDriveStatus])
  have hstate : (keepDriveStatus .ok u).line.state = u.line.state := rfl
  generalize keepDriveStatus .ok u = v at *
  have huv := hframe.trans hu.frame
  have hdose : (linkUp v).dose = u.dose := huv .dose (by decide)
  have hord : (linkUp v).ord = u.ord := huv .ord (by decide)
  have hactive : ∀ a, a ≠ .driveLinkLost → conditionActive (linkUp v) a = conditionActive v a := fun a ha => by
    unfold conditionActive
    rw [hu.others a ha]
  refine ⟨?_, fun a => ?_, ?_, ?_, ?_, by rw [hdose, hk.wrap], fun h => ?_, fun h => ?_, fun h1 h2 => ?_,
    hk.frame.trans (huv.mono (by decide))⟩
  · rw [hactive _ (by decide), hends.conditionActive]
    simp
  · rw [hu.latches, hends.latched, hk.latches]
  · rw [hu.line, hstate, hk.line]
  · exact (huv .mem (by decide)).trans (hk.frame .mem (by decide))
  · exact (huv .host (by decide)).trans (hk.frame .host (by decide))
  · obtain ⟨h1, h2⟩ := hk.ended h
    refine ⟨?_, by rw [hdose]; exact h2⟩
    rw [hactive _ (by decide), hends.conditionActive, h1]
    rfl
  · obtain ⟨h1, h2⟩ := hk.opens h
    exact ⟨h1.congr (by rw [hdose]) (by rw [hord]), by rw [hdose]; exact h2⟩
  · rw [hdose, hk.still h1 h2]

/-- A status frame with a fault code raises DRIVE_FAULT (R5, R20). -/
theorem statusFrame_fault (w : WrapReport) (phase code : Word) (s : State) :
    alarmRec (statusFrame w phase (.fault code) s) .driveFault = ⟨true, true⟩
    ∧ (alarmRec s .driveFault ≠ ⟨true, true⟩ → (statusFrame w phase (.fault code) s).line.state = .halt)
    ∧ ChangesOnly (.reg :: lineParts) s (statusFrame w phase (.fault code) s) := by
  have hk := phaseKept_kept w phase s
  have hu := linkUp_back (keepDriveStatus (.fault code) (phaseKept w phase s))
  rw [statusFrame_eq]
  generalize phaseKept w phase s = u at *
  have hraise := raiseAlarm_halt (a := .driveFault) rfl (by decide) code 0
    { u with line := { u.line with drive := .fault code } }
  have hframe : ChangesOnly lineParts u (keepDriveStatus (.fault code) u) :=
    ChangesOnly.trans (t := { u with line := { u.line with drive := .fault code } })
      (.of_all (by simp [samePart, lineParts])) (raiseAlarm_changesOnly _ _ _ _)
  obtain ⟨h1, _, h3⟩ := hraise
  change alarmRec (keepDriveStatus (.fault code) u) .driveFault = _ at h1
  change alarmRec u .driveFault ≠ _ → (keepDriveStatus (.fault code) u).line.state = _ at h3
  generalize keepDriveStatus (.fault code) u = v at *
  refine ⟨by rw [hu.others _ (by decide), h1], fun hn => ?_, ?_⟩
  · rw [hu.line]
    exact h3 (by rwa [hk.others _ (by decide)])
  · exact (hk.frame.mono (by decide)).trans ((hframe.mono (by decide)).trans (hu.frame.mono (by decide)))

/-- A frame from the state without its messages, for the whole status frame. -/
theorem statusEnd_changesOnly {ps : List Part} {s w : State} (hs : Part.sent ∈ ps)
    (h : ChangesOnly ps (clearSent s) w) : ChangesOnly ps s (statusEnd s w) :=
  (h.of_clearSent hs).trans (ChangesOnly.mono (ps := [.sent]) (.of_all (by simp [samePart])) (by simpa using hs))

/-- Settles O43. -/
theorem driveLink : Obligations.DriveLink := by
  intro s
  refine ⟨⟨frameOf s, commandFrame_sent s, rfl, rfl, rfl, by simp [frameOf], fun z => by simp [frameOf], rfl⟩,
    fun w ph d => ⟨_, exec_statusFrame w ph d s, ?_⟩⟩
  obtain ⟨h1, h2, h3, h4, h5⟩ := statusFrame_link w ph d (clearSent s)
  have hactive : ∀ v a, conditionActive (statusEnd s v) a = conditionActive v a := fun v a => by
    rw [conditionActive, alarmRec_congr (s := v) (by simp), conditionActive]
  have hlatched : ∀ v a, latched (statusEnd s v) a = latched v a := fun v a => latched_congr (by simp) a
  have hrec : ∀ v a, alarmRec (statusEnd s v) a = alarmRec v a := fun v a => alarmRec_congr (by simp) a
  refine ⟨by simpa using h1, by simpa using h2, by simpa using h3, by simpa using h4,
    fun hl => (hactive _ _).trans (h5 hl), fun hd => ?_, fun code hd => ?_⟩
  · subst hd
    have hok := statusFrame_ok w ph (clearSent s)
    generalize statusFrame w ph .ok (clearSent s) = v at *
    have hdose : (statusEnd s v).dose = v.dose := by simp
    refine ⟨(hactive _ _).trans hok.fault, fun a => (hlatched v a).trans (hok.latches a), by simpa using hok.state,
      by simpa using hok.mem, by simpa using hok.host, by rw [hdose]; exact hok.wrap, ?_, ?_, fun ho hw => ?_,
      fun he => (hactive _ _).trans (hok.ended he).1, statusEnd_changesOnly (by decide) hok.frame⟩
    · rw [hdose]
      by_cases he : ReportEnds s.dose.wrap w
      · exact (hok.ended he).2.1.trans (if_pos he).symm
      · by_cases ho : ReportOpens s.dose.wrap w
        · exact (hok.opens ho).2.2.1.trans ((if_neg he).trans (if_pos ho)).symm
        · rw [hok.still he ho]
          exact ((if_neg he).trans (if_neg ho)).symm
    · rw [hdose]
      by_cases ho : ReportOpens s.dose.wrap w
      · exact (hok.opens ho).2.2.2.trans (if_pos ho).symm
      · refine Eq.trans ?_ (if_neg ho).symm
        by_cases he : ReportEnds s.dose.wrap w
        · exact (hok.ended he).2.2
        · rw [hok.still he ho]
          rfl
    · obtain ⟨hi, hc, _, _⟩ := hok.opens ⟨ho, hw⟩
      refine ⟨(hi.source rfl rfl).congr, by rw [hdose, hc], statusEnd_frame ho ?_⟩
      rw [hok.wrap]
      simp [wrapAfter, ho, hw]
  · subst hd
    obtain ⟨f1, f2, f3⟩ := statusFrame_fault w ph code (clearSent s)
    exact ⟨(hrec _ _).trans f1, fun hn => by simpa using f2 hn, statusEnd_changesOnly (by decide) f3⟩

end Sys2Proof.Proofs
end

