-- ==== Sys2Proof/Proofs/PrintFaults.lean ====
section
/-! PROOFS. The print start test where no print can start, and the answer of an order to a fault of one of
its copies (R63, R67, R75). -/

-- One thread for the whole file: each waiting thread reserves its stack.
set_option Elab.async false

namespace Sys2Proof.Machine

/-! ## The print start test (R63) -/

/-- Where the conditions of `Startable` fail, the test does nothing. -/
theorem printTest_unstartable {s : State} (h : s.ord.entries = [] ∨ ¬ Startable s) : printTest s = s := by
  refine if_neg fun hr => ?_
  unfold printReady at hr
  simp only [Bool.and_eq_true, beq_iff_eq, decide_eq_true_eq, Bool.not_eq_true', List.isEmpty_eq_false_iff] at hr
  obtain ⟨⟨⟨⟨⟨h1, h2⟩, h3⟩, h4⟩, h5⟩, h6⟩ := hr
  rcases h with h | h
  · exact h3 h
  · refine h ⟨h1, h2, h4, h5, fun m hm => ?_⟩
    rw [hm] at h6
    exact of_decide_eq_true h6

theorem Startable.congr {s t : State} (h : ¬ Startable s) (line : t.line = s.line) (dose : t.dose = s.dose)
    (pos : t.pos = s.pos) (panels : t.ord.panels.length = s.ord.panels.length)
    (engine : t.ord.engine = s.ord.engine) (endMark : t.ord.endMark = s.ord.endMark) : ¬ Startable t := by
  unfold Startable at *
  rwa [line, dose, pos, panels, engine, endMark]

/-! ## The finish of one long ticket: bytes and cause -/

theorem reportFinish_cause (n : Nat) (code : ResultCode) (d : Word) (s : State) :
    causeSet (lowerCount (reportFinish n code d s)) .ticket = true := by
  show (s.host.causes ||| 1#6).getLsbD 0 = true
  simp only [BitVec.getLsbD_or, Bool.or_eq_true]
  exact .inr (by decide)

theorem finishLong_cause (n : Nat) (code : ResultCode) (d : Word) (s : State) :
    causeSet (finishLong n code d s) .ticket = true := by
  have h := reportFinish_cause n code d s
  rcases finishLong_cases n code d s with ⟨_, he⟩ | ⟨_, he⟩ <;> rw [he]
  · exact h
  · rcases moveOn_reported (lowerCount (reportFinish n code d s)) with ⟨hr, _⟩ | ⟨hr, _⟩
    · exact hr.causes _ h
    · exact hr.causes _ h

theorem finishLong_bytes (n : Nat) (code : ResultCode) (d : Word) (s : State) :
    BytesKept (fun a => finishBytes n a ∨ logBytes a) s (finishLong n code d s) := by
  have h0 : BytesKept (fun a => finishBytes n a ∨ logBytes a) s (lowerCount (reportFinish n code d s)) :=
    (BytesKept.trans (t := finishTicket n code d s) (finishTicket_bytes n code d s)
      (.of_mem (by simp [finishTicket, lowerCount]))).mono fun _ h => .inl h
  rcases finishLong_cases n code d s with ⟨_, he⟩ | ⟨_, he⟩ <;> rw [he]
  · exact h0.trans (.of_mem (by simp))
  · refine (h0.trans ((moveOn_bytes _).mono fun a ha => .inr ?_)).trans (.of_mem (by simp))
    have := noticeAt_in_log (lowerCount (reportFinish n code d s))
    unfold nextNoticeBytes at ha
    unfold logBytes
    omega

/-! ## Copies and orders -/

theorem findOrder_ticket {t : Nat} {s : State} {o : OpenOrder} (h : findOrder t s = some o) : o.ticket = t := by
  have := List.find?_some h
  simpa using this

theorem findPanel_number {n : Half} {s : State} {p : Panel} (h : findPanel n s = some p) : p.number = n := by
  have := List.find?_some h
  simpa using this

/-- An order is found rewritten. -/
theorem findOrder_updOrder {t : Nat} {s : State} {o : OpenOrder} {f : OpenOrder → OpenOrder}
    (hf : ∀ q, (f q).ticket = q.ticket) (h : findOrder t s = some o) :
    findOrder t (updOrder t f s) = some (f o) := by
  have hcomp : (fun q : OpenOrder => q.ticket == t) ∘ (fun q => if q.ticket = t then f q else q)
      = fun q => q.ticket == t := funext fun q => by
    by_cases hq : q.ticket = t <;> simp [hq, hf]
  unfold findOrder updOrder at *
  rw [List.find?_map, hcomp, h, Option.map_some, if_pos (findOrder_ticket h)]

theorem finishIfSettled_found {t : Nat} {s : State} {o : OpenOrder} (h : findOrder t s = some o) :
    finishIfSettled t s = if o.unsettled = true then s
      else finishLong t o.code (natWord o.rejects) (removeOrder t s) := by
  unfold finishIfSettled
  rw [h]

/-- Copy k apart, whether an order with copy k cancelled has a copy left to print or to settle (R74). -/
theorem cancelled_unsettled (o : OpenOrder) (k : Nat) :
    (o.setCopy k fun c => { c with place := .cancelled }).unsettled = true ↔
      ∃ j c, o.copies[j]? = some c ∧ j ≠ k - 1 ∧ (c.place = .waiting ∨ c.place = .printed) := by
  unfold OpenOrder.unsettled OpenOrder.setCopy
  simp only [List.any_eq_true, List.mem_iff_getElem?, List.getElem?_modify, Copy.unsettled, Bool.or_eq_true,
    beq_iff_eq]
  constructor
  · rintro ⟨c, ⟨j, hj⟩, hc⟩
    by_cases hk : k - 1 = j
    · simp only [if_pos hk] at hj
      obtain ⟨q, _, rfl⟩ := Option.map_eq_some_iff.mp hj
      rcases hc with hc | hc <;> cases hc
    · simp only [if_neg hk, Option.map_eq_map, Option.map_id'] at hj
      exact ⟨j, c, hj, Ne.symm hk, hc⟩
  · rintro ⟨j, c, hj, hk, hc⟩
    refine ⟨c, ⟨j, ?_⟩, hc⟩
    simp only [if_neg (Ne.symm hk), Option.map_eq_map, Option.map_id']
    exact hj

/-! ## The faulted copy (R67) -/

/-- A record gone to VOID in the paper (R67). -/
def Panel.voided (p : Panel) : Panel := { p with state := .void, travel := some .paper }

/-- The record of a faulted print gone to VOID, and its order's copy rewritten. -/
def voidedWith (p : Panel) (o : OpenOrder) (f : Copy → Copy) (s : State) : State :=
  updOrder o.ticket (fun o => o.setCopy p.copy f) (updPanel p.number Panel.voided s)

theorem voidedWith_ord (p : Panel) (o : OpenOrder) (f : Copy → Copy) (s : State) :
    (voidedWith p o f s).ord = { s.ord with
      panels := s.ord.panels.map fun q =>
        if q.number = p.number then { q with state := .void, travel := some .paper } else q,
      orders := s.ord.orders.map fun q => if q.ticket = o.ticket then
        { q with copies := q.copies.modify (p.copy - 1) f } else q } := rfl

@[simp] theorem voidedWith_keeps (p : Panel) (o : OpenOrder) (f : Copy → Copy) (s : State) :
    (voidedWith p o f s).mem = s.mem ∧ (voidedWith p o f s).line = s.line ∧ (voidedWith p o f s).lib = s.lib
    ∧ (voidedWith p o f s).pos = s.pos ∧ (voidedWith p o f s).trig = s.trig
    ∧ (voidedWith p o f s).reg = s.reg ∧ (voidedWith p o f s).heat = s.heat
    ∧ (voidedWith p o f s).dose = s.dose ∧ (voidedWith p o f s).tens = s.tens
    ∧ (voidedWith p o f s).lastReading = s.lastReading ∧ (voidedWith p o f s).walker = s.walker
    ∧ (voidedWith p o f s).host = s.host ∧ (voidedWith p o f s).sent = s.sent
    ∧ (voidedWith p o f s).drawn = s.drawn ∧ (voidedWith p o f s).pending = s.pending :=
  ⟨rfl, rfl, rfl, rfl, rfl, rfl, rfl, rfl, rfl, rfl, rfl, rfl, rfl, rfl, rfl⟩

/-- The three answers to a fault: the copy cancelled, put back, or lost for good (R67). -/
theorem faultPrint_found {p : Panel} {s : State} {o : OpenOrder} (h : findOrder p.ticket s = some o) :
    faultPrint p s = if o.cancel = true then
        finishIfSettled o.ticket (writeCancelled o.ticket [p.copy]
          (voidedWith p o (fun c => { c with place := .cancelled }) s))
      else if (o.copies[p.copy - 1]?.map (·.faults)).getD 0 < 2 then
        printTest (requeueCopy o p
          (voidedWith p o (fun c => { c with place := .waiting, faults := c.faults + 1 }) s))
      else updPanel p.number (fun q => { q with finalVoid := true })
        (voidedWith p o (fun c => { c with faults := 3 }) s) := by
  unfold faultPrint
  rw [h]
  rfl

/-- A copy put back to be printed: its entry stands at the list's front (R67). -/
structure Requeued (p : Panel) (o : OpenOrder) (s t : State) : Prop where
  entry : ∃ e, t.ord = { s.ord with entries := e :: s.ord.entries.eraseP fun q => q.ticket == o.ticket }
    ∧ e.ticket = o.ticket
    ∧ (∀ e0, findEntry o.ticket s = some e0 → e = { e0 with retry := e0.retry ++ [p.copy] } ∧ t.lib = s.lib)
    ∧ (findEntry o.ticket s = none → e.retry = [p.copy] ∧ e.next = o.copies.length + 1
      ∧ e.profile = p.profile ∧ t.lib = s.lib.withSlot p.profile
        { s.lib.slots[p.profile] with inUse := s.lib.slots[p.profile].inUse + 1 })
  frame : ChangesOnly [.ord, .lib] s t

theorem requeueCopy_requeued (p : Panel) (o : OpenOrder) (s : State) : Requeued p o s (requeueCopy o p s) := by
  unfold requeueCopy
  cases he : findEntry o.ticket s with
  | some e =>
    have ht : e.ticket = o.ticket := by
      have := List.find?_some he
      simpa using this
    refine ⟨⟨{ e with retry := e.retry ++ [p.copy] }, rfl, ht, fun e0 h0 => ?_, fun hn => absurd hn (by simp [he])⟩,
      .of_all (by simp [samePart])⟩
    rw [he, Option.some.injEq] at h0
    subst h0
    exact ⟨rfl, rfl⟩
  | none =>
    have herase : s.ord.entries.eraseP (fun q => q.ticket == o.ticket) = s.ord.entries := by
      refine List.eraseP_of_forall_not fun q hq => ?_
      have := List.find?_eq_none.mp he q hq
      exact this
    refine ⟨⟨{ ticket := o.ticket, profile := p.profile, next := o.copies.length + 1, retry := [p.copy] }, ?_,
      rfl, fun e0 h0 => absurd h0 (by simp [he]), fun _ => ⟨rfl, rfl, rfl, rfl⟩⟩,
      .of_all (by simp [samePart])⟩
    rw [herase]
    rfl

end Sys2Proof.Machine
end

