-- ==== Sys2Proof/Proofs/PrintLink.lean ====
section
/-! PROOFS. The print link: PRINT_DONE and ENGINE_STATE (R66 to R69). -/

-- One thread for the whole file: each waiting thread reserves its stack.
set_option Elab.async false

namespace Sys2Proof.Proofs

open Sys2Proof.Machine

/-! ## PRINT_DONE (R66, R67) -/

theorem printAnswer_ignored {n : Half} {s : State}
    (h : findPanel n s = none ∨ ∃ p, findPanel n s = some p ∧ p.state ≠ .printing) (r : PrintResult) :
    printAnswer n r (clearSent s) = clearSent s := by
  have he : findPanel n (clearSent s) = findPanel n s := rfl
  unfold printAnswer
  rw [he]
  rcases h with h | ⟨p, h, hp⟩
  · rw [h]
  · rw [h]
    exact if_neg hp

theorem printAnswer_fault {n : Half} {s : State} {p : Panel} (h : findPanel n s = some p)
    (hp : p.state = .printing) : printAnswer n .fault (clearSent s) = faultPrint p (clearSent s) := by
  have he : findPanel n (clearSent s) = findPanel n s := rfl
  unfold printAnswer
  rw [he, h]
  exact if_pos hp

theorem printDone_ok {n : Half} {s : State} {p : Panel} (h : findPanel n s = some p)
    (hp : p.state = .printing) : exec (.printDone n .ok) s = .next { s with
      sent := [],
      ord := { s.ord with panels := s.ord.panels.map fun q =>
        if q.number = n then { q with state := .onPaper } else q } } := by
  have he : findPanel n (clearSent s) = findPanel n s := rfl
  have hf : printAnswer n .ok (clearSent s) = updPanel n (fun q => { q with state := .onPaper }) (clearSent s) := by
    unfold printAnswer
    rw [he, h]
    exact if_pos hp
  rw [exec_quiet (f := printAnswer n .ok) rfl (by rw [hf]; rfl) (by rw [hf]; rfl), hf]
  rfl

/-- The copy of a faulted print goes back to be printed (R67). -/
theorem printDone_requeues {n : Half} {s : State} {p : Panel} {o : OpenOrder} (h : findPanel n s = some p)
    (hp : p.state = .printing) (ho : findOrder p.ticket s = some o) (hs : ¬ Startable s)
    (hc : o.cancel = false) (hf : (o.copies[p.copy - 1]?.map (·.faults)).getD 0 < 2) :
    ∃ t e, exec (.printDone n .fault) s = .next t
      ∧ t.ord = { s.ord with
          panels := s.ord.panels.map fun q =>
            if q.number = n then { q with state := .void, travel := some .paper } else q,
          orders := s.ord.orders.map fun q => if q.ticket = o.ticket then
            { q with copies := q.copies.modify (p.copy - 1) fun c =>
                { c with place := .waiting, faults := c.faults + 1 } } else q,
          entries := e :: s.ord.entries.eraseP (fun q => q.ticket == o.ticket) }
      ∧ e.ticket = o.ticket
      ∧ (∀ e0, findEntry o.ticket s = some e0 → e = { e0 with retry := e0.retry ++ [p.copy] }
        ∧ t.lib = s.lib)
      ∧ (findEntry o.ticket s = none → e.retry = [p.copy] ∧ e.next = o.copies.length + 1
        ∧ e.profile = p.profile ∧ t.lib = s.lib.withSlot p.profile
          { s.lib.slots[p.profile] with inUse := s.lib.slots[p.profile].inUse + 1 })
      ∧ t.sent = [] ∧ ChangesOnly [.ord, .lib, .sent] s t := by
  obtain rfl := findPanel_number h
  have hr := requeueCopy_requeued p o (voidedWith p o
    (fun c => { c with place := .waiting, faults := c.faults + 1 }) (clearSent s))
  have heff : printAnswer p.number .fault (clearSent s) = printTest (requeueCopy o p (voidedWith p o
      (fun c => { c with place := .waiting, faults := c.faults + 1 }) (clearSent s))) := by
    rw [printAnswer_fault h hp, faultPrint_found (s := clearSent s) ho, if_neg (by rw [hc]; exact Bool.false_ne_true),
      if_pos hf]
  have hvoid : ChangesOnly [.ord, .sent] s (voidedWith p o
      (fun c => { c with place := .waiting, faults := c.faults + 1 }) (clearSent s)) :=
    .of_all (by simp [samePart])
  have hord := voidedWith_ord p o (fun c => { c with place := .waiting, faults := c.faults + 1 }) (clearSent s)
  have hlib : (voidedWith p o (fun c => { c with place := .waiting, faults := c.faults + 1 })
      (clearSent s)).lib = s.lib := rfl
  have hsent : (voidedWith p o (fun c => { c with place := .waiting, faults := c.faults + 1 })
      (clearSent s)).sent = [] := rfl
  generalize voidedWith p o (fun c => { c with place := .waiting, faults := c.faults + 1 }) (clearSent s) = u at *
  obtain ⟨⟨e, e1, e2, e3, e4⟩, hframe⟩ := hr
  generalize requeueCopy o p u = v at *
  have hall : ChangesOnly [.ord, .lib, .sent] s v := (hvoid.mono (by decide)).trans (hframe.mono (by decide))
  have hentries : ∀ q, findEntry q u = findEntry q s := fun q => by
    unfold findEntry
    rw [hord]
    rfl
  have hstill : printTest v = v := by
    refine printTest_unstartable (.inr (Startable.congr hs (hall .line (by decide)) (hall .dose (by decide))
      (hall .pos (by decide)) ?_ ?_ ?_)) <;> rw [e1, hord]
    · exact List.length_map ..
    · rfl
    · rfl
  rw [hstill] at heff
  have hframeOf : frameOf v = frameOf s := frameOf_congr (hall .line (by decide)) (hall .pos (by decide))
    (hall .reg (by decide)) (hall .dose (by decide)) (hall .tens (by decide))
  have hlamps : lampSet v = lampSet s := lampSet_congr (hall .line (by decide))
  refine ⟨v, e, ?_, ?_, e2, fun e0 h0 => ?_, fun hn => ?_, ?_, hall⟩
  · rw [exec_quiet (f := printAnswer p.number .fault) rfl (by rw [heff, hframeOf]) (by rw [heff, hlamps]), heff]
  · rw [e1, hord]
    rfl
  · obtain ⟨h1, h2⟩ := e3 e0 (by rw [hentries, h0])
    exact ⟨h1, h2.trans hlib⟩
  · obtain ⟨h1, h2, h3, h4⟩ := e4 (by rw [hentries, hn])
    exact ⟨h1, h2, h3, by rw [h4, hlib]⟩
  · rw [show v.sent = u.sent from hframe .sent (by decide), hsent]

/-- At its third fault a record keeps its copy and gets the final void flag (R67). -/
theorem printDone_finalVoid {n : Half} {s : State} {p : Panel} {o : OpenOrder} (h : findPanel n s = some p)
    (hp : p.state = .printing) (ho : findOrder p.ticket s = some o) (hc : o.cancel = false)
    (hf : 2 ≤ (o.copies[p.copy - 1]?.map (·.faults)).getD 0) :
    exec (.printDone n .fault) s = .next { s with
      sent := [],
      ord := { s.ord with
        panels := s.ord.panels.map fun q => if q.number = n then
          { q with state := .void, travel := some .paper, finalVoid := true } else q,
        orders := s.ord.orders.map fun q => if q.ticket = o.ticket then
          { q with copies := q.copies.modify (p.copy - 1) fun c => { c with faults := 3 } }
          else q } } := by
  obtain rfl := findPanel_number h
  have heff : printAnswer p.number .fault (clearSent s) = updPanel p.number (fun q => { q with finalVoid := true })
      (voidedWith p o (fun c => { c with faults := 3 }) (clearSent s)) := by
    rw [printAnswer_fault h hp, faultPrint_found (s := clearSent s) ho, if_neg (by rw [hc]; exact Bool.false_ne_true),
      if_neg (by omega)]
  have hpanels : (s.ord.panels.map fun q => if q.number = p.number then q.voided else q).map
      (fun q => if q.number = p.number then { q with finalVoid := true } else q)
      = s.ord.panels.map fun q => if q.number = p.number then
        { q with state := .void, travel := some .paper, finalVoid := true } else q := by
    rw [List.map_map]
    refine List.map_congr_left fun q _ => ?_
    by_cases hq : q.number = p.number <;> simp [hq, Panel.voided]
  rw [exec_quiet (f := printAnswer p.number .fault) rfl (by rw [heff]; rfl) (by rw [heff]; rfl), heff, ← hpanels]
  rfl

/-- A fault after a cancel: the copy is CANCELLED, and the order finishes if it was the last (R67, R75). -/
theorem printDone_cancelled {n : Half} {s : State} {p : Panel} {o : OpenOrder} (h : findPanel n s = some p)
    (hp : p.state = .printing) (ho : findOrder p.ticket s = some o) (hc : o.cancel = true) :
    ∃ t, exec (.printDone n .fault) s = .next t
      ∧ t.ord.panels = s.ord.panels.map (fun q =>
        if q.number = n then { q with state := .void, travel := some .paper } else q)
      ∧ t.ord.entries = s.ord.entries
      ∧ ((∃ k c, o.copies[k]? = some c ∧ k ≠ p.copy - 1
          ∧ (c.place = .waiting ∨ c.place = .printed)) →
        t.ord.orders = s.ord.orders.map (fun q => if q.ticket = o.ticket then
          { q with copies := q.copies.modify (p.copy - 1) fun c =>
              { c with place := .cancelled } } else q))
      ∧ ((∀ k c, o.copies[k]? = some c → k ≠ p.copy - 1 →
          c.place ≠ .waiting ∧ c.place ≠ .printed) →
        (∀ q ∈ t.ord.orders, q.ticket ≠ o.ticket) ∧ causeSet t .ticket = true)
      ∧ (Memory.wf s.mem = true → 1 ≤ o.ticket → o.ticket ≤ 256 → 1 ≤ p.copy → p.copy ≤ 8 →
        ticketByte t o.ticket (0x80 + 16 * (p.copy - 1) + 2) = 3)
      ∧ ChangesOnly [.mem, .ord, .walker, .host, .sent] s t ∧ LogAndTicketsOnly s t := by
  obtain rfl := findPanel_number h
  have hlow := ticketBase_low o.ticket
  have htick := findOrder_ticket ho
  have heff : printAnswer p.number .fault (clearSent s) = finishIfSettled o.ticket
      (writeCancelled o.ticket [p.copy] (voidedWith p o (fun c => { c with place := .cancelled }) (clearSent s))) := by
    rw [printAnswer_fault h hp, faultPrint_found (s := clearSent s) ho, if_pos hc]
  have hvoid : ChangesOnly [.ord, .sent] s (voidedWith p o (fun c => { c with place := .cancelled }) (clearSent s)) :=
    .of_all (by simp [samePart])
  have hord := voidedWith_ord p o (fun c => { c with place := .cancelled }) (clearSent s)
  have hfound : findOrder o.ticket (voidedWith p o (fun c => { c with place := .cancelled }) (clearSent s))
      = some (o.setCopy p.copy fun c => { c with place := .cancelled }) :=
    findOrder_updOrder (s := updPanel p.number Panel.voided (clearSent s)) (fun q => rfl) (by
      rw [htick]
      exact ho)
  have hmem : (voidedWith p o (fun c => { c with place := .cancelled }) (clearSent s)).mem = s.mem := rfl
  have hrep : Reported 0 s (voidedWith p o (fun c => { c with place := .cancelled }) (clearSent s)) := .of_same
  generalize voidedWith p o (fun c => { c with place := .cancelled }) (clearSent s) = u at *
  have hput : writeCancelled o.ticket [p.copy] u = putBytes (summaryAt o.ticket p.copy) cancelledSummary u := rfl
  have hw := putTicket_reported (a := summaryAt o.ticket p.copy) (by unfold summaryAt; omega) cancelledSummary u
  have hwo : (putBytes (summaryAt o.ticket p.copy) cancelledSummary u).ord = u.ord := by simp
  have hbyte : Memory.wf s.mem = true → 1 ≤ o.ticket → o.ticket ≤ 256 → 1 ≤ p.copy → p.copy ≤ 8 →
      ticketByte (putBytes (summaryAt o.ticket p.copy) cancelledSummary u) o.ticket
        (0x80 + 16 * (p.copy - 1) + 2) = 3 := fun wf h1 h2 h3 h4 => by
    obtain ⟨_, hend⟩ := ticketBase_range h1 h2
    have hlen : cancelledSummary.length = 16 := rfl
    have hat : ticketBase o.ticket + (0x80 + 16 * (p.copy - 1) + 2) = summaryAt o.ticket p.copy + 2 := by
      unfold summaryAt
      omega
    have hfit : summaryAt o.ticket p.copy + 16 ≤ memEnd := by
      unfold summaryAt
      omega
    rw [ticketByte, hat, putBytes_mem, hmem]
    exact Memory.get_putAll_in wf _ cancelledSummary (by omega) 2 (by omega)
  have hfo : findOrder o.ticket (putBytes (summaryAt o.ticket p.copy) cancelledSummary u)
      = some (o.setCopy p.copy fun c => { c with place := .cancelled }) := by
    rw [← hfound]
    unfold findOrder
    rw [hwo]
  have hframe : ChangesOnly [.mem, .ord, .walker, .host, .sent] s
      (putBytes (summaryAt o.ticket p.copy) cancelledSummary u) :=
    (hvoid.mono (by decide)).trans (.of_all (by simp [samePart]))
  rw [hput, finishIfSettled_found hfo] at heff
  generalize putBytes (summaryAt o.ticket p.copy) cancelledSummary u = w at *
  refine ⟨_, exec_ended (f := printAnswer p.number .fault) rfl, ?_⟩
  rw [heff]
  have hends : ∀ v : State, ChangesOnly [.mem, .ord, .walker, .host, .sent] v (ended s v) := fun v =>
    .of_all (by simp [samePart])
  by_cases hun : (o.setCopy p.copy fun c => { c with place := .cancelled }).unsettled = true
  · rw [if_pos hun]
    refine ⟨by simp [hwo, hord], by simp [hwo, hord], fun _ => by simp [hwo, hord], fun hn => ?_,
      fun wf h1 h2 h3 h4 => ?_, hframe.trans (hends w), ?_⟩
    · obtain ⟨k, c, hk, hne, hcc⟩ := (cancelled_unsettled o p.copy).mp hun
      obtain ⟨n1, n2⟩ := hn k c hk hne
      exact (hcc.elim n1 n2).elim
    · unfold ticketByte
      rw [(ended_keeps s w).1]
      exact hbyte wf h1 h2 h3 h4
    · exact ((hrep.quiet hw).quiet (ended_reported s w)).logAndTickets
  · rw [if_neg hun]
    generalize (o.setCopy p.copy fun c => { c with place := .cancelled }).code = code at *
    generalize natWord (o.setCopy p.copy fun c => { c with place := .cancelled }).rejects = d at *
    have hgone : (removeOrder o.ticket w).ord = { u.ord with orders := u.ord.orders.filter fun q =>
        q.ticket != o.ticket } := by
      rw [removeOrder, hwo]
    have hfin : (finishLong o.ticket code d (removeOrder o.ticket w)).ord = (removeOrder o.ticket w).ord := by simp
    obtain ⟨k, _, hk⟩ := (finishLong_mayStall o.ticket code d (removeOrder o.ticket w)).reported
    have hcause := finishLong_cause o.ticket code d (removeOrder o.ticket w)
    have hbytes := finishLong_bytes o.ticket code d (removeOrder o.ticket w)
    have hfr : ChangesOnly [.mem, .ord, .walker, .host, .sent] w
        (finishLong o.ticket code d (removeOrder o.ticket w)) := .of_all (by simp [samePart])
    have hrem : Reported 0 w (removeOrder o.ticket w) := .of_same
    have hrmem : (removeOrder o.ticket w).mem = w.mem := by simp
    generalize finishLong o.ticket code d (removeOrder o.ticket w) = x at *
    rw [hgone] at hfin
    refine ⟨by simp [hfin, hord], by simp [hfin, hord], fun hex => absurd ((cancelled_unsettled o p.copy).mpr hex) hun,
      fun _ => ⟨fun q hq => ?_, ?_⟩, fun wf h1 h2 h3 h4 => ?_, (hframe.trans hfr).trans (hends x), ?_⟩
    · rw [(ended_keeps s x).2.2.2.2.2.1, hfin] at hq
      simpa using (List.mem_filter.mp hq).2
    · unfold causeSet at hcause ⊢
      rw [(ended_keeps s x).2.2.2.2.2.2.2.2.2.2.2.2.1]
      exact hcause
    · rw [← hbyte wf h1 h2 h3 h4]
      unfold ticketByte
      rw [(ended_keeps s x).1, hbytes, hrmem]
      unfold finishBytes logBytes
      omega
    · exact (((((hrep.quiet hw).quiet hrem).after hk)).quiet (ended_reported s x)).logAndTickets

/-! ## ENGINE_STATE (R68, R69) -/

/-- The engine's state kept, and with READY its loss ended. -/
def engineKept (v : EngineState) (s : State) : State :=
  engineBack v { s with ord := { s.ord with engine := v } }

theorem engineReport_eq (v : EngineState) (s : State) : engineReport v s = retest (printTest (engineKept v s)) := rfl

/-- The conditions that an ENGINE_STATE ends. -/
def engineEnds (v : EngineState) : List Alarm := if v = .ready then [.printEngineLost] else []

theorem engineKept_kept (v : EngineState) (s : State) :
    (engineKept v s).ord = { s.ord with engine := v } ∧ EndsOnly (engineEnds v) s (engineKept v s)
    ∧ (engineKept v s).line = { s.line with alarms := (engineKept v s).line.alarms }
    ∧ (v = .busy → (engineKept v s).line = s.line) ∧ ChangesOnly [.ord, .line] s (engineKept v s) := by
  have hr : ChangesOnly [.ord, .line] s (engineKept v s) := by
    cases v <;> exact .of_all (by simp [samePart, engineKept, engineBack])
  cases v with
  | busy => exact ⟨rfl, .of_same rfl, rfl, fun _ => rfl, hr⟩
  | ready =>
    exact ⟨rfl, EndsOnly.trans (t := { s with ord := { s.ord with engine := .ready } }) (.of_same rfl)
      (endCondition_endsOnly _ _), rfl, fun h => EngineState.noConfusion h, hr⟩

theorem engineKept_unstartable {v : EngineState} {s : State} (h : s.line.state ≠ .run ∨ v = .busy
      ∨ s.ord.entries = [] ∨ ¬ Startable { s with ord := { s.ord with engine := .ready } }) :
    printTest (engineKept v s) = engineKept v s := by
  obtain ⟨hord, _, hline, _, hframe⟩ := engineKept_kept v s
  have hdose : (engineKept v s).dose = s.dose := hframe .dose (by decide)
  have hpos : (engineKept v s).pos = s.pos := hframe .pos (by decide)
  have hstate : (engineKept v s).line.state = s.line.state := by rw [hline]
  rcases h with h | h | h | h
  · exact printTest_quiet (by rwa [hstate])
  · refine printTest_unstartable (.inr fun hs => ?_)
    obtain ⟨_, _, _, he, _⟩ := hs
    rw [hord, h] at he
    cases he
  · exact printTest_unstartable (.inl (by rw [hord, h]))
  · refine printTest_unstartable (.inr fun hs => h ?_)
    unfold Startable at hs ⊢
    rw [hstate, hdose, hpos, hord] at hs
    obtain ⟨h1, h2, h3, _, h5⟩ := hs
    exact ⟨h1, h2, h3, rfl, h5⟩

theorem engineState_elsewhere {s : State} {v : EngineState} (h1 : s.line.state ≠ .warm)
    (h2 : s.line.state ≠ .ready)
    (h : v = .busy ∨ s.ord.entries = [] ∨ ¬ Startable { s with ord := { s.ord with engine := .ready } }) :
    ∃ t, exec (.engineState v) s = .next t ∧ t.ord = { s.ord with engine := v }
      ∧ (v = .busy → t.line = s.line)
      ∧ (v = .ready → conditionActive t .printEngineLost = false
        ∧ t.line = { s.line with alarms := t.line.alarms } ∧ ∀ a, latched t a = latched s a)
      ∧ t.sent = [] ∧ ChangesOnly [.ord, .line, .sent] s t := by
  obtain ⟨hord, hends, hline, hbusy, hframe⟩ := engineKept_kept v (clearSent s)
  have heff : engineReport v (clearSent s) = engineKept v (clearSent s) := by
    rw [engineReport_eq, engineKept_unstartable (s := clearSent s) (.inr h),
      retest_elsewhere (by rw [hline]; exact h1) (by rw [hline]; exact h2)]
  generalize engineKept v (clearSent s) = u at *
  have hpos : u.pos = s.pos := hframe .pos (by decide)
  have hreg : u.reg = s.reg := hframe .reg (by decide)
  have hdose : u.dose = s.dose := hframe .dose (by decide)
  have htens : u.tens = s.tens := hframe .tens (by decide)
  have hfo : frameOf u = frameOf s := by
    unfold frameOf printSpeed storeLevel
    rw [hline, hpos, hreg, hdose, htens]
    rfl
  have hla : lampSet u = lampSet s := by
    unfold lampSet
    rw [hline]
    rfl
  refine ⟨u, ?_, hord, hbusy, fun hv => ⟨?_, hline, hends.latched⟩, hframe .sent (by decide), ?_⟩
  · rw [exec_quiet (f := engineReport v) rfl (by rw [heff, hfo]) (by rw [heff, hla]), heff]
  · rw [hends.conditionActive, engineEnds, if_pos hv]
    simp
  · exact ChangesOnly.of_clearSent (by decide) (hframe.mono (by decide))

theorem engineState_retested {s : State} {v : EngineState} (h : s.line.state = .warm ∨ s.line.state = .ready) :
    ∃ t, exec (.engineState v) s = .next t ∧ t.ord.engine = v
      ∧ t.line.state = (if readyTest t = true then .ready else .warm)
      ∧ (∀ a, latched t a = latched s a) ∧ t.ord.panels = s.ord.panels
      ∧ t.ord.entries = s.ord.entries
      ∧ ChangesOnly [.mem, .line, .ord, .dose, .tens, .walker, .host, .sent] s t := by
  obtain ⟨hord, hends, hline, _, hframe⟩ := engineKept_kept v (clearSent s)
  have hrun : s.line.state ≠ .run := by rcases h with h | h <;> simp [h]
  refine ⟨_, exec_ended (f := engineReport v) rfl, ?_⟩
  rw [engineReport_eq, engineKept_unstartable (s := clearSent s) (.inl hrun)]
  generalize engineKept v (clearSent s) = u at *
  have hr := retest_retested (s := u) (by rw [hline]; exact h)
  obtain ⟨r1, r2, r3, r4, r5, r6, r7, r8, r9, r10⟩ := hr.kept
  have hlatched : ∀ a, latched (ended s (retest u)) a = latched (retest u) a := fun a =>
    latched_congr (by simp) a
  have hready : readyTest (ended s (retest u)) = readyTest (retest u) :=
    readyTest_congr (by simp) (by simp) hlatched (by simp) (by simp)
  refine ⟨?_, ?_, fun a => ?_, ?_, ?_, ?_⟩
  · simp [r1, hord]
  · rw [hready, (ended_keeps _ _).2.1, hr.state]
  · rw [hlatched, hr.latches, hends.latched]
    rfl
  · simp [r1, hord]
  · simp [r1, hord]
  · refine ChangesOnly.of_clearSent (by decide) ((hframe.mono (by decide)).trans (.of_all ?_))
    simp [samePart, r2, r4]

/-- Settles O44. -/
theorem printLink : Obligations.PrintLink := fun _ n =>
  ⟨fun r h => exec_not_due (f := printAnswer n r) rfl (printAnswer_ignored h r), fun _ h hp => printDone_ok h hp,
    fun _ _ h hp ho hs => ⟨fun hc hf => printDone_requeues h hp ho hs hc hf,
      fun hc hf => printDone_finalVoid h hp ho hc hf, fun hc => printDone_cancelled h hp ho hc⟩,
    fun _ h1 h2 h => engineState_elsewhere h1 h2 h, fun _ h => engineState_retested h⟩

end Sys2Proof.Proofs
end

