-- ==== Sys2Proof/Proofs/SpliceSightings.lean ====
section
/-! PROOFS. What a sighting starts (R48), and the splice list at a sighting (R43, R45). -/

-- One thread for the whole file: each waiting thread reserves its stack.
set_option Elab.async false

namespace Sys2Proof.Machine

/-! ## The channels that wait for a sighting (R48) -/

theorem armAll_channels (src : ArmSource) (s : State) (k : Fin 12) :
    (armEvent src allChannels s).trig.channels[k] =
      if s.trig.channels[k].arm = src ∧ (s.trig.channels[k].state = .armed
        ∨ (s.trig.channels[k].state = .counting ∧ s.trig.channels[k].mode = .repeating)) then
        { s.trig.channels[k] with
          state := .counting, remaining := s.trig.channels[k].reload, ahead := false }
      else s.trig.channels[k] := by
  rw [(armEvent_started src allChannels (by decide) s).channels]
  exact if_congr (by simp [mem_allChannels, armHit, Channel.takesArm]) rfl rfl

/-- Outside a reverse jog an arm event of all channels changes the trigger unit alone (R16). -/
theorem armAll_frame (src : ArmSource) {s : State} (hj : s.line.jog ≠ .rev) :
    ChangesOnly [.trig] s (armEvent src allChannels s) := by
  have h := armEvent_started src allChannels (by decide) s
  obtain ⟨hline, hdose⟩ := h.kept (.inl hj)
  intro p hp
  cases p
  case line => exact hline
  case dose => exact hdose
  case trig => simp at hp
  all_goals exact h.frame _ (by decide)

theorem ChangesOnly.reported {ps : List Part} {s t : State} (h : ChangesOnly ps s t)
    (hm : Part.mem ∉ ps := by decide) (hh : Part.host ∉ ps := by decide)
    (hw : Part.walker ∉ ps := by decide) : Reported 0 s t := by
  have walker : t.walker = s.walker := h .walker hw
  exact .of_same (h .mem hm) (h .host hh) (by rw [walker]) (by rw [walker])

theorem unlessReverse_rev {f : State → State} {s : State} (h : s.line.jog = .rev) : unlessReverse f s = s :=
  if_pos h

theorem seeFabricSplice_eq {s : State} (h : s.line.jog ≠ .rev) (o : Option Stamp) :
    seeFabricSplice o s = armEvent .fabricSplice allChannels (seeSplice
      { web := .fabric, seen := (stampOf o s).x, arrival := some ((stampOf o s).x + 30000) } s) := if_neg h

theorem seePaperSplice_eq {s : State} (h : s.line.jog ≠ .rev) (o : Option Stamp) :
    seePaperSplice o s = flagPrinted (stampOf o s).s
      (seeSplice { web := .paper, seen := (stampOf o s).s, arrival := none } s) := if_neg h

theorem seeFabricMark_eq {s : State} (h : s.line.jog ≠ .rev) (o : Option Stamp) : seeFabricMark o s =
    retest (armEvent .fabricMark allChannels (fabricMarkAt (stampOf o s).x s)) := if_neg h

theorem seePaperMark_eq {s : State} (h : s.line.jog ≠ .rev) (o : Option Stamp) : seePaperMark o s =
    retest (armEvent .paperMark allChannels (paperMarkAt (stampOf o s) s)) := if_neg h

/-! ## One notice -/

/-- A notice written into a state that has the memory, the host registers, the line state and the drum
count of `s`. -/
theorem written_shown {s v t : State} {k : NoticeKind} {d1 d2 d3 : Word} (wf : Memory.wf s.mem = true)
    (hm : v.mem = s.mem) (hh : v.host = s.host) (hl : v.line.state = s.line.state) (hx : v.pos.x = s.pos.x)
    (ht : Reported 0 (writeNotice k d1 d2 d3 v) t) (htm : t.mem = (writeNotice k d1 d2 d3 v).mem) :
    NoticeShown k s.line.state d1 d2 d3 s t ∧ t.host.written = s.host.written + 1 ∧ HostKept s t
    ∧ BytesKept (nextNoticeBytes s) s t := by
  have hn := (writeNotice_shown (s := v) (by rwa [hm]) k d1 d2 d3).quiet ht
  have hr := (writeNotice_reported k d1 d2 d3 v).quiet ht
  have hb := (writeNotice_bytes k d1 d2 d3 v).trans (.of_mem htm)
  have hw := hr.written
  have hk := hr.host
  unfold NoticeShown noticeAt at *
  unfold nextNoticeBytes noticeAt BytesKept at *
  unfold HostKept at *
  rw [hl, hh, hx] at hn
  rw [hh] at hw hk hb
  rw [hm] at hb
  exact ⟨hn, hw, hk, hb⟩

/-! ## The splice list (R43, R45) -/

/-- A fixed record stands after the records it has not passed and before the first it has (R43). -/
theorem insertFixed_split (a : Word) (r : Splice) (l : List Splice) : ∃ pre post, l = pre ++ post
    ∧ insertFixed a r l = pre ++ r :: post
    ∧ (∀ q ∈ pre, ∃ b, q.arrival = some b ∧ 0 ≤ sdiff a b)
    ∧ (∀ q b, post.head? = some q → q.arrival = some b → sdiff a b < 0) := by
  induction l with
  | nil => exact ⟨[], [], rfl, rfl, by simp, by simp⟩
  | cons q qs ih =>
    unfold insertFixed
    cases hq : q.arrival with
    | none =>
      refine ⟨[], q :: qs, rfl, rfl, by simp, fun q' b h hb => ?_⟩
      obtain rfl : q = q' := by simpa using h
      rw [hq] at hb
      cases hb
    | some b =>
      by_cases h : reached a b = true
      · obtain ⟨pre, post, h1, h2, h3, h4⟩ := ih
        refine ⟨q :: pre, post, by rw [h1]; rfl, ?_, fun q' hq' => ?_, h4⟩
        · simp only [if_pos h, h2, List.cons_append]
        · rcases List.mem_cons.mp hq' with rfl | hq'
          · exact ⟨b, hq, by simpa [reached] using h⟩
          · exact h3 q' hq'
      · refine ⟨[], q :: qs, rfl, if_neg h, by simp, fun q' b' h' hb => ?_⟩
        obtain rfl : q = q' := by simpa using h'
        rw [hq] at hb
        obtain rfl : b = b' := by simpa using hb
        simpa [reached] using h

/-- A record joins the list at one place. -/
theorem insertSplice_split (r : Splice) (l : List Splice) :
    ∃ pre post, l = pre ++ post ∧ insertSplice r l = pre ++ r :: post := by
  unfold insertSplice
  split
  · exact ⟨l, [], by simp, rfl⟩
  · next a _ =>
    obtain ⟨pre, post, h1, h2, _⟩ := insertFixed_split a r l
    exact ⟨pre, post, h1, h2⟩

theorem dropFull_room {s : State} (h : s.pos.splices.length < 8) : dropFull s = s := by
  unfold dropFull
  split
  · rfl
  · next r rs hs => exact if_neg (by rw [← hs]; omega)

theorem dropFull_full {s : State} {r : Splice} {rest : List Splice} (h : s.pos.splices = r :: rest)
    (hl : rest.length = 7) : dropFull s =
      writeNotice .spliceDropped (natWord r.web.code) r.seen r.arrivalWord (setSplices rest s) := by
  unfold dropFull
  rw [h]
  exact if_pos (by simp [hl])

theorem seeSplice_eq (r : Splice) (s : State) : seeSplice r s =
    writeNotice .spliceSeen (natWord r.web.code) r.seen r.arrivalWord
      (setSplices (insertSplice r (dropFull s).pos.splices) (dropFull s)) := rfl

/-- The list and the notice of a sighting that finds room. -/
theorem seeSplice_room {s : State} (h : s.pos.splices.length < 8) (r : Splice) : seeSplice r s =
    writeNotice .spliceSeen (natWord r.web.code) r.seen r.arrivalWord
      (setSplices (insertSplice r s.pos.splices) s) := by
  rw [seeSplice_eq, dropFull_room h]

@[simp] theorem dropFull_counts (s : State) : (dropFull s).pos.x = s.pos.x ∧ (dropFull s).pos.s = s.pos.s
    ∧ (dropFull s).pos.u = s.pos.u := by
  unfold dropFull
  split
  · exact ⟨rfl, rfl, rfl⟩
  · split <;> simp [setSplices]

@[simp] theorem seeSplice_counts (r : Splice) (s : State) : (seeSplice r s).pos.x = s.pos.x
    ∧ (seeSplice r s).pos.s = s.pos.s ∧ (seeSplice r s).pos.u = s.pos.u := by
  simp [seeSplice, setSplices]

/-- A sighting that finds the list full drops its head, with a notice before its own (R45). -/
theorem seeSplice_full {s : State} {r : Splice} {rest : List Splice} (h : s.pos.splices = r :: rest)
    (hl : rest.length = 7) (wf : Memory.wf s.mem = true) (q : Splice) :
    (seeSplice q s).pos.splices.length = 8 ∧ (∀ p ∈ rest, p ∈ (seeSplice q s).pos.splices)
    ∧ NoticeShown .spliceDropped s.line.state (natWord r.web.code) r.seen (r.arrival.getD (r.seen + 40000)) s
      (seeSplice q s)
    ∧ Reported 2 s (seeSplice q s) := by
  have hd := dropFull_full h hl
  obtain ⟨hn, -, -, -⟩ := written_shown (s := s) (v := setSplices rest s) (k := .spliceDropped)
    (d1 := natWord r.web.code) (d2 := r.seen) (d3 := r.arrivalWord) wf rfl rfl rfl rfl (.rfl _) rfl
  have hr : Reported 1 s (dropFull s) := by
    rw [hd]
    exact Reported.after (t := setSplices rest s) (.of_same rfl rfl rfl rfl) (writeNotice_reported _ _ _ _ _)
  rw [← hd] at hn
  have hsplices : (dropFull s).pos.splices = rest := by
    rw [hd]
    simp [setSplices]
  have hw : ∀ u : State, Reported 1 u (writeNotice .spliceSeen (natWord q.web.code) q.seen q.arrivalWord
      (setSplices (insertSplice q rest) u)) := fun u =>
    Reported.after (t := setSplices (insertSplice q rest) u) (.of_same rfl rfl rfl rfl)
      (writeNotice_reported _ _ _ _ _)
  rw [seeSplice_eq, hsplices]
  obtain ⟨pre, post, h1, h2⟩ := insertSplice_split q rest
  refine ⟨?_, fun p hp => ?_, hn.later hr.written (by omega) (by omega) (hw _), hr.trans (hw _)⟩
  · have hlen : pre.length + post.length = 7 := by rw [← hl, h1, List.length_append]
    simp [setSplices, h2]
    omega
  · simp only [writeNotice_keeps, setSplices, h2]
    rw [h1] at hp
    grind

end Sys2Proof.Machine

namespace Sys2Proof.Proofs

open Sys2Proof.Machine

/-! ## The splice sightings -/

/-- The carried values hold of the position unit the counts of the paper alone (R19). -/
theorem frameOf_of_counts {s v : State} (line : v.line = s.line) (hs : v.pos.s = s.pos.s)
    (hu : v.pos.u = s.pos.u) (reg : v.reg.position = s.reg.position) (dose : v.dose = s.dose)
    (tens : v.tens = s.tens) : frameOf v = frameOf s := by
  unfold frameOf printSpeed storeLevel
  rw [line, hs, hu, reg, dose, tens]

/-- The record of a fabric splice (R43). -/
def fabricSeen (st : Stamp) : Splice := { web := .fabric, seen := st.x, arrival := some (st.x + 30000) }

theorem seeFabricSplice_room {s : State} {stamp : Option Stamp} {st : Stamp}
    (hst : st = stamp.getD ⟨s.pos.x, s.pos.s, s.pos.u⟩) (hj : s.line.jog ≠ .rev)
    (h : s.pos.splices.length < 8) : seeFabricSplice stamp (clearSent s) = armEvent .fabricSplice allChannels
      (writeNotice .spliceSeen 1 st.x (st.x + 30000)
        (setSplices (insertFixed (st.x + 30000) (fabricSeen st) s.pos.splices) (clearSent s))) := by
  rw [hst, seeFabricSplice_eq (s := clearSent s) hj, seeSplice_room (s := clearSent s) h]
  rfl

theorem fabricSplice_room {s : State} {stamp : Option Stamp} {st : Stamp} (wf : Memory.wf s.mem = true)
    (hst : st = stamp.getD ⟨s.pos.x, s.pos.s, s.pos.u⟩) (hj : s.line.jog ≠ .rev)
    (h : s.pos.splices.length < 8) :
    ∃ t pre post, exec (.fabricSplice stamp) s = .next t ∧ s.pos.splices = pre ++ post
      ∧ t.pos = { s.pos with splices := pre ++
          { web := .fabric, seen := st.x, arrival := some (st.x + 30000) } :: post }
      ∧ (∀ r ∈ pre, ∃ a, r.arrival = some a ∧ 0 ≤ sdiff (st.x + 30000) a)
      ∧ (∀ r a, post.head? = some r → r.arrival = some a → sdiff (st.x + 30000) a < 0)
      ∧ NoticeShown .spliceSeen s.line.state 1 st.x (st.x + 30000) s t
      ∧ t.host.written = s.host.written + 1 ∧ HostKept s t ∧ BytesKept (nextNoticeBytes s) s t
      ∧ t.sent = [] ∧ ChangesOnly [.mem, .pos, .trig, .host, .sent] s t := by
  obtain ⟨pre, post, h1, h2, h3, h4⟩ := insertFixed_split (st.x + 30000) (fabricSeen st) s.pos.splices
  have heff := seeFabricSplice_room hst hj h
  rw [h2] at heff
  generalize hv : setSplices (pre ++ fabricSeen st :: post) (clearSent s) = v at heff
  have hvpos : v.pos = { s.pos with splices := pre ++ fabricSeen st :: post } := by rw [← hv]; rfl
  have hvframe : ChangesOnly [.mem, .pos, .trig, .host, .sent] s v := by
    rw [← hv]
    exact .of_all (by simp [samePart, setSplices])
  have hvsent : v.sent = [] := by rw [← hv]; rfl
  have hvmem : v.mem = s.mem := by rw [← hv]; rfl
  have hvhost : v.host = s.host := by rw [← hv]; rfl
  have hvline : v.line = s.line := hvframe .line (by decide)
  have harm := armAll_frame .fabricSplice (s := writeNotice .spliceSeen 1 st.x (st.x + 30000) v)
    (by simpa [hvline] using hj)
  generalize armEvent .fabricSplice allChannels (writeNotice .spliceSeen 1 st.x (st.x + 30000) v) = t at *
  obtain ⟨n1, n2, n3, n4⟩ := written_shown wf hvmem hvhost (by rw [hvline]) (by rw [hvpos]) harm.reported
    (harm .mem (by decide))
  have hall : ChangesOnly [.mem, .pos, .trig, .host, .sent] s t :=
    (hvframe.trans (.of_all (by simp [samePart]))).trans (harm.mono (by decide))
  have hpos : t.pos = v.pos := by
    rw [show t.pos = _ from harm .pos (by decide)]
    simp
  have hsent : t.sent = v.sent := by
    rw [show t.sent = _ from harm .sent (by decide)]
    simp
  rw [hvpos] at hpos
  rw [hvsent] at hsent
  refine ⟨t, pre, post, ?_, h1, hpos, h3, h4, n1, n2, n3, n4, hsent, hall⟩
  rw [exec_quiet (f := seeFabricSplice stamp) rfl, heff] <;> rw [heff]
  · exact frameOf_of_counts (hall .line (by decide)) (by rw [hpos]) (by rw [hpos]) (by rw [hall .reg (by decide)])
      (hall .dose (by decide)) (hall .tens (by decide))
  · exact lampSet_congr (hall .line (by decide))

theorem paperSplice_room {s : State} {stamp : Option Stamp} {st : Stamp} (wf : Memory.wf s.mem = true)
    (hst : st = stamp.getD ⟨s.pos.x, s.pos.s, s.pos.u⟩) (hj : s.line.jog ≠ .rev)
    (h : s.pos.splices.length < 8) :
    ∃ t, exec (.paperSplice stamp) s = .next t
      ∧ t.pos = { s.pos with splices := s.pos.splices ++
          [{ web := .paper, seen := st.s, arrival := none }] }
      ∧ t.ord = { s.ord with panels := s.ord.panels.map (fun p =>
          if 0 ≤ sdiff st.s p.sLead ∧ sdiff st.s (p.sLead + BitVec.ofNat 32 p.length) < 0 then
            { p with paperSplice := true } else p) }
      ∧ NoticeShown .spliceSeen s.line.state 0 st.s (st.s + 40000) s t
      ∧ t.host.written = s.host.written + 1 ∧ HostKept s t ∧ BytesKept (nextNoticeBytes s) s t
      ∧ t.sent = [] ∧ ChangesOnly [.mem, .pos, .ord, .host, .sent] s t := by
  have heff : seePaperSplice stamp (clearSent s) = flagPrinted st.s
      (writeNotice .spliceSeen 0 st.s (st.s + 40000) (setSplices (s.pos.splices ++
        [{ web := .paper, seen := st.s, arrival := none }]) (clearSent s))) := by
    rw [hst, seePaperSplice_eq (s := clearSent s) hj, seeSplice_room (s := clearSent s) h]
    rfl
  obtain ⟨n1, n2, n3, n4⟩ := written_shown (s := s) (t := seePaperSplice stamp (clearSent s)) (v := setSplices
      (s.pos.splices ++ [{ web := .paper, seen := st.s, arrival := none }]) (clearSent s))
    (k := .spliceSeen) (d1 := 0) (d2 := st.s) (d3 := st.s + 40000) wf rfl rfl rfl rfl
    (by rw [heff]; exact .of_same) (by rw [heff]; simp)
  refine ⟨_, exec_quiet (f := seePaperSplice stamp) rfl ?_ ?_, ?_, ?_, n1, n2, n3, n4, ?_, ?_⟩ <;> rw [heff]
  · exact frameOf_of_counts (by simp [setSplices]) (by simp [setSplices]) (by simp [setSplices])
      (by simp [setSplices]) (by simp [setSplices]) (by simp [setSplices])
  · exact lampSet_congr (by simp [setSplices])
  · simp [setSplices]
  · simp only [flagPrinted, mapPanels, writeNotice_keeps, setSplices, inSpan, reached, Bool.and_eq_true,
      Bool.not_eq_true', decide_eq_true_eq, decide_eq_false_iff_not, Int.not_le]
    rfl
  · simp [setSplices]
  · exact .of_all (by simp [samePart, setSplices])

/-- A splice sighting that finds the list full (R45). -/
theorem splice_full {s : State} {stamp : Option Stamp} (wf : Memory.wf s.mem = true) (hj : s.line.jog ≠ .rev)
    {r : Splice} {rest : List Splice} (h : s.pos.splices = r :: rest) (hl : rest.length = 7) {c : Instr}
    (hc : c = .fabricSplice stamp ∨ c = .paperSplice stamp) :
    ∃ t, exec c s = .next t ∧ t.pos.splices.length = 8 ∧ (∀ q ∈ rest, q ∈ t.pos.splices)
      ∧ NoticeShown .spliceDropped s.line.state (natWord r.web.code) r.seen
          (r.arrival.getD (r.seen + 40000)) s t
      ∧ t.host.written = s.host.written + 2 ∧ HostKept s t := by
  obtain ⟨f, q, he, hp, hr⟩ : ∃ f q, exec c s = answer f s
      ∧ (f (clearSent s)).pos = (seeSplice q (clearSent s)).pos
      ∧ Reported 0 (seeSplice q (clearSent s)) (f (clearSent s)) := by
    rcases hc with rfl | rfl
    · have harm := armAll_frame .fabricSplice
        (s := seeSplice (fabricSeen (stampOf stamp (clearSent s))) (clearSent s)) (by simpa using hj)
      refine ⟨seeFabricSplice stamp, fabricSeen (stampOf stamp (clearSent s)), rfl, ?_⟩
      rw [seeFabricSplice_eq (s := clearSent s) hj]
      exact ⟨harm .pos (by decide), harm.reported⟩
    · refine ⟨seePaperSplice stamp, ⟨.paper, (stampOf stamp (clearSent s)).s, none⟩, rfl, ?_⟩
      rw [seePaperSplice_eq (s := clearSent s) hj]
      exact ⟨by simp, .of_same⟩
  obtain ⟨h1, h2, h3, h4⟩ := seeSplice_full (s := clearSent s) h hl wf q
  have hend := hr.quiet (ended_reported s (f (clearSent s)))
  have hall := h4.quiet hend
  rw [← hp, ← (ended_keeps s (f (clearSent s))).2.2.2.1] at h1 h2
  exact ⟨_, exec_ended he, h1, h2, h3.quiet hend, hall.written, hall.host⟩

end Sys2Proof.Proofs
end

