-- ==== Sys2Proof/Proofs/Sightings.lean ====
section
/-! PROOFS. The mark sightings and the four sightings together (R42, R48, R78, R81). -/

-- One thread for the whole file: each waiting thread reserves its stack.
set_option Elab.async false

namespace Sys2Proof.Machine

/-! ## A fabric mark at the registration unit (R78, R84) -/

theorem fabricMarkAt_unmarked {s : State} (h : s.line.marks = false) (x : Word) : fabricMarkAt x s = s := by
  simp [fabricMarkAt, h]

/-- With no record waiting a piece just joins the queue. -/
theorem fabricMarkAt_queued {s : State} (h : s.line.marks = true) (hq : s.reg.queue.length < 8)
    (hl : s.reg.list = []) (x : Word) :
    fabricMarkAt x s = { s with reg := { s.reg with queue := s.reg.queue ++ [⟨x, false, false⟩] } } := by
  have hr : ∀ u : State, u.reg.list = [] → retryWaiting u = u := fun u hu => by
    unfold retryWaiting
    simp [hu]
  unfold fabricMarkAt
  rw [if_neg (by simp [h]), if_pos hq, hr _ (by simpa [setQueue] using hl)]
  rfl

theorem fabricMarkAt_full {s : State} (h : s.line.marks = true) (hq : 8 ≤ s.reg.queue.length) (x : Word) :
    fabricMarkAt x s = raiseAlarm .pieceOverflow x 0 s := by
  unfold fabricMarkAt
  rw [if_neg (by simp [h]), if_neg (by omega)]

/-- PIECE_OVERFLOW takes RUN to HOLD, and no other state away but READY (R7, R78). -/
theorem raisePieceOverflow {s : State} (hr : s.line.state ≠ .ready) (d1 d2 : Word) :
    alarmRec (raiseAlarm .pieceOverflow d1 d2 s) .pieceOverflow = ⟨true, true⟩
    ∧ (raiseAlarm .pieceOverflow d1 d2 s).line.jog = s.line.jog
    ∧ ((raiseAlarm .pieceOverflow d1 d2 s).line.state = s.line.state
      ∨ (raiseAlarm .pieceOverflow d1 d2 s).line.state = .hold)
    ∧ (alarmRec s .pieceOverflow ≠ ⟨true, true⟩ → (raiseAlarm .pieceOverflow d1 d2 s).line.state =
      if s.line.state = .run then .hold else s.line.state) := by
  by_cases ha : alarmRec s .pieceOverflow = ⟨true, true⟩
  · rw [raiseAlarm_again ha]
    exact ⟨ha, rfl, .inl rfl, fun hn => absurd ha hn⟩
  rw [raiseAlarm_new ha]
  have hs := raised_same .pieceOverflow d1 d2 s
  obtain ⟨hstate, _, _, hjog, _⟩ := raised_line_keeps .pieceOverflow d1 d2 s
  have happ : applyRequest .pieceOverflow (raised .pieceOverflow d1 d2 s) =
      if s.line.state = .run then enterState .hold (.request .pieceOverflow) (raised .pieceOverflow d1 d2 s)
      else raised .pieceOverflow d1 d2 s := by
    unfold applyRequest
    simp only [Alarm.request, hstate, if_neg hr]
  rw [happ]
  split
  · refine ⟨?_, by simp [jogOf], .inr (enterState_state ..), fun _ => enterState_state ..⟩
    rw [(enterState_endsOnly .hold _ _).keeps fun hm => absurd (mem_entryEnds hm) (by decide), hs]
  · exact ⟨hs, hjog, .inl hstate, fun _ => hstate⟩

/-! ## A paper mark at the registration unit (R81, R82) -/

theorem paperMarkAt_stray {s : State} {st : Stamp} (h : ∀ p ∈ s.ord.panels,
    (p.state = .onPaper ∨ (p.state = .void ∧ p.travel = some .paper)) →
      sdiff st.u (p.sLead + 27500) < 0 ∨ 0 < sdiff st.u (p.sLead + 28500)) :
    paperMarkAt st s = writeNotice .markStray st.x st.s st.u s := by
  have hn : (s.ord.panels.find? fun p => p.waitingPaper && inWindow p st.u) = none := by
    refine List.find?_eq_none.mpr fun p hp hw => ?_
    simp only [Panel.waitingPaper, inWindow, reached, Bool.and_eq_true, Bool.or_eq_true, beq_iff_eq,
      decide_eq_true_eq] at hw
    obtain ⟨hw, h1, h2⟩ := hw
    rcases h p hp hw with h3 | h3 <;> omega
  unfold paperMarkAt
  rw [hn]

/-- A head record without a piece leaves the roller's target (R86). -/
theorem review_unpaired {s : State} {n : Half} {l : List Half} {p : Panel} (h : s.reg.list = n :: l)
    (hf : findPanel n s = some p) (hp : p.piece = none) : review s = s := by
  unfold review
  split
  · rfl
  · rw [h]
    simp [hf, hp]

/-- The only record, unmatched, is staged at the head of an empty registration list (R82). -/
theorem stagePanel_only {s : State} {p : Panel} (h : s.ord.panels = [p]) (hs : p.state ≠ .void)
    (hm : p.matched = false) (hp : p.piece = none) (hl : s.reg.list = []) :
    stagePanel p.number s = { s with
      ord := { s.ord with panels := [{ p with state := .staged }] },
      reg := { s.reg with list := [p.number] } } := by
  have h1 : updPanel p.number Panel.toStaged s =
      { s with ord := { s.ord with panels := [{ p with state := .staged }] } } := by
    simp [updPanel, mapPanels, h, Panel.toStaged, hs]
  have hfound : findPanel p.number { s with
      ord := { s.ord with panels := [{ p with state := .staged }] },
      reg := { s.reg with list := [p.number] } } = some { p with state := .staged } := by
    simp [findPanel]
  unfold stagePanel
  extract_lets s1 s2 s3
  have e2 : s2 = { s with
      ord := { s.ord with panels := [{ p with state := .staged }] },
      reg := { s.reg with list := [p.number] } } := by
    show setList (insertByXp (xpOf s1) p.number s1.reg.list) s1 = _
    rw [show s1 = _ from h1, show ({ s with ord := { s.ord with panels := [{ p with state := .staged }] } } :
      State).reg.list = [] from hl]
    rfl
  have e3 : s3 = s2 := by
    show (match findPanel p.number s2 with
      | none => s2
      | some q => if q.matched then pairPanel p.number (q.xp.getD 0) s2 else s2) = s2
    rw [e2, hfound]
    exact if_neg (show ¬ p.matched = true by rw [hm]; exact Bool.false_ne_true)
  have hr : review s3 = s3 := by
    rw [e3, e2]
    exact review_unpaired (p := { p with state := .staged }) (l := []) rfl hfound hp
  split
  · exact hr.trans (e3.trans e2)
  · exact e3.trans e2

theorem paperMarkAt_staged {s : State} {st : Stamp} {p : Panel} (h : s.ord.panels = [p])
    (hs : p.state = .onPaper) (hm : p.matched = false) (hp : p.piece = none) (hl : s.reg.list = [])
    (h1 : 0 ≤ sdiff st.u (p.sLead + 27500)) (h2 : sdiff st.u (p.sLead + 28500) ≤ 0) :
    paperMarkAt st s = { s with
      ord := { s.ord with panels := [{ p with xp := some st.x, state := .staged }] },
      reg := { s.reg with list := [p.number] } } := by
  have hf : (s.ord.panels.find? fun p => p.waitingPaper && inWindow p st.u) = some p := by
    have hw : (p.waitingPaper && inWindow p st.u) = true := by
      unfold Panel.waitingPaper inWindow reached
      rw [hs, decide_eq_true h1, decide_eq_true h2]
      rfl
    simp only [h, List.find?_cons, hw]
  unfold paperMarkAt
  rw [hf]
  exact stagePanel_only (s := updPanel p.number (fun p => { p with xp := some st.x }) s)
    (p := { p with xp := some st.x }) (by simp [updPanel, mapPanels, h]) (by simp [hs]) hm hp hl

end Sys2Proof.Machine

namespace Sys2Proof.Proofs

open Sys2Proof.Machine

/-! ## The mark sightings outside WARM and READY -/

/-- Outside WARM and READY a fabric mark leaves the registration unit's work and the channels it starts. -/
theorem seeFabricMark_elsewhere {s v : State} {stamp : Option Stamp} {st : Stamp}
    (hst : st = stamp.getD ⟨s.pos.x, s.pos.s, s.pos.u⟩) (hj : s.line.jog ≠ .rev)
    (hv : fabricMarkAt st.x (clearSent s) = v) (hvj : v.line.jog = s.line.jog)
    (h1 : v.line.state ≠ .warm) (h2 : v.line.state ≠ .ready) :
    ∃ t, seeFabricMark stamp (clearSent s) = t ∧ ChangesOnly [.trig] v t := by
  have harm := armAll_frame .fabricMark (s := v) (by rwa [hvj])
  have hline := harm .line (by decide)
  refine ⟨_, ?_, harm⟩
  rw [seeFabricMark_eq (s := clearSent s) hj, show (stampOf stamp (clearSent s)) = st from hst.symm, hv]
  exact retest_elsewhere (by rwa [hline]) (by rwa [hline])

theorem seePaperMark_elsewhere {s v : State} {stamp : Option Stamp} {st : Stamp}
    (hst : st = stamp.getD ⟨s.pos.x, s.pos.s, s.pos.u⟩) (hj : s.line.jog ≠ .rev)
    (hv : paperMarkAt st (clearSent s) = v) (hvl : v.line = s.line)
    (h1 : s.line.state ≠ .warm) (h2 : s.line.state ≠ .ready) :
    ∃ t, seePaperMark stamp (clearSent s) = t ∧ ChangesOnly [.trig] v t := by
  have harm := armAll_frame .paperMark (s := v) (by rwa [hvl])
  have hline := harm .line (by decide)
  refine ⟨_, ?_, harm⟩
  rw [seePaperMark_eq (s := clearSent s) hj, show (stampOf stamp (clearSent s)) = st from hst.symm, hv]
  exact retest_elsewhere (by rwa [hline, hvl]) (by rwa [hline, hvl])

/-- A sighting that moves nothing a frame carries and no lamp is answered with its effect. -/
theorem exec_sighting {c : Instr} {f : State → State} {s t : State} (he : exec c s = answer f s)
    (hf : f (clearSent s) = t) (hline : t.line = s.line) (hpos : t.pos = s.pos)
    (hreg : t.reg.position = s.reg.position) (hdose : t.dose = s.dose) (htens : t.tens = s.tens) :
    exec c s = .next t := by
  rw [exec_quiet he, hf] <;> rw [hf]
  · exact frameOf_of_counts hline (by rw [hpos]) (by rw [hpos]) hreg hdose htens
  · exact lampSet_congr hline

theorem fabricMark_unmarked {s : State} {stamp : Option Stamp} (hj : s.line.jog ≠ .rev)
    (h1 : s.line.state ≠ .warm) (h2 : s.line.state ≠ .ready) (h : s.line.marks = false) :
    ∃ t, exec (.fabricMark stamp) s = .next t ∧ t.sent = [] ∧ ChangesOnly [.trig, .sent] s t := by
  obtain ⟨t, hf, ht⟩ := seeFabricMark_elsewhere (stamp := stamp) rfl hj
    (fabricMarkAt_unmarked (s := clearSent s) h _) rfl h1 h2
  have hall : ChangesOnly [.trig, .sent] s t := .of_clearSent (by decide) (ht.mono (by decide))
  exact ⟨t, exec_sighting rfl hf (hall .line (by decide)) (hall .pos (by decide))
    (by rw [hall .reg (by decide)]) (hall .dose (by decide)) (hall .tens (by decide)),
    ht .sent (by decide), hall⟩

theorem fabricMark_queued {s : State} {stamp : Option Stamp} {st : Stamp}
    (hst : st = stamp.getD ⟨s.pos.x, s.pos.s, s.pos.u⟩) (hj : s.line.jog ≠ .rev)
    (h1 : s.line.state ≠ .warm) (h2 : s.line.state ≠ .ready) (h : s.line.marks = true)
    (hq : s.reg.queue.length < 8) (hl : s.reg.list = []) :
    ∃ t, exec (.fabricMark stamp) s = .next t
      ∧ t.reg = { s.reg with queue := s.reg.queue ++ [⟨st.x, false, false⟩] }
      ∧ t.sent = [] ∧ ChangesOnly [.trig, .reg, .sent] s t := by
  obtain ⟨t, hf, ht⟩ := seeFabricMark_elsewhere hst hj
    (fabricMarkAt_queued (s := clearSent s) h hq hl _) rfl h1 h2
  have hall : ChangesOnly [.trig, .reg, .sent] s t :=
    .trans (.of_all (by simp [samePart])) (ht.mono (by decide))
  have hreg : t.reg = { s.reg with queue := s.reg.queue ++ [⟨st.x, false, false⟩] } := ht .reg (by decide)
  exact ⟨t, exec_sighting rfl hf (hall .line (by decide)) (hall .pos (by decide)) (by rw [hreg])
    (hall .dose (by decide)) (hall .tens (by decide)), hreg, ht .sent (by decide), hall⟩

theorem fabricMark_overflow {s : State} {stamp : Option Stamp} {st : Stamp} (wf : Memory.wf s.mem = true)
    (hst : st = stamp.getD ⟨s.pos.x, s.pos.s, s.pos.u⟩) (hj : s.line.jog ≠ .rev)
    (h1 : s.line.state ≠ .warm) (h2 : s.line.state ≠ .ready) (h : s.line.marks = true)
    (hq : 8 ≤ s.reg.queue.length) :
    ∃ t, exec (.fabricMark stamp) s = .next t ∧ t.reg = s.reg
      ∧ alarmRec t .pieceOverflow = ⟨true, true⟩
      ∧ (alarmRec s .pieceOverflow ≠ ⟨true, true⟩ →
        NoticeShown .alarmRaised s.line.state 11 st.x 0 s t
        ∧ t.line.state = (if s.line.state = .run then .hold else s.line.state))
      ∧ ChangesOnly (.trig :: lineParts) s t := by
  obtain ⟨a1, a2, a3, a4⟩ := raisePieceOverflow (s := clearSent s) h2 st.x 0
  have hraise := raiseAlarm_changesOnly .pieceOverflow st.x 0 (clearSent s)
  have hnot := fun hn => raiseAlarm_notice (a := .pieceOverflow) (s := clearSent s) hn wf st.x 0
  have hv := fabricMarkAt_full (s := clearSent s) h hq st.x
  generalize raiseAlarm .pieceOverflow st.x 0 (clearSent s) = v at *
  obtain ⟨t, hf, ht⟩ := seeFabricMark_elsewhere hst hj hv a2
    (by rcases a3 with a3 | a3 <;> rw [a3]; exacts [h1, by decide])
    (by rcases a3 with a3 | a3 <;> rw [a3]; exacts [h2, by decide])
  have hline : t.line = v.line := ht .line (by decide)
  have hall : ChangesOnly (.trig :: lineParts) s t :=
    (ChangesOnly.of_clearSent (by decide) (hraise.mono (by decide))).trans (ht.mono (by decide))
  refine ⟨_, exec_ended (f := seeFabricMark stamp) rfl, ?_⟩
  rw [hf]
  refine ⟨?_, ?_, fun hn => ⟨?_, ?_⟩, hall.trans (.of_all (by simp [samePart, lineParts]))⟩
  · rw [(ended_keeps s t).2.2.2.2.2.2.1]
    exact hall .reg (by decide)
  · rw [← a1]
    exact alarmRec_congr (by simp [hline]) _
  · exact ((hnot hn).quiet ht.reported).quiet (ended_reported s t)
  · rw [(ended_keeps s t).2.1, hline]
    exact a4 hn

theorem paperMark_stray {s : State} {stamp : Option Stamp} {st : Stamp} (wf : Memory.wf s.mem = true)
    (hst : st = stamp.getD ⟨s.pos.x, s.pos.s, s.pos.u⟩) (hj : s.line.jog ≠ .rev)
    (h1 : s.line.state ≠ .warm) (h2 : s.line.state ≠ .ready)
    (h : ∀ p ∈ s.ord.panels, (p.state = .onPaper ∨ (p.state = .void ∧ p.travel = some .paper)) →
      sdiff st.u (p.sLead + 27500) < 0 ∨ 0 < sdiff st.u (p.sLead + 28500)) :
    ∃ t, exec (.paperMark stamp) s = .next t
      ∧ NoticeShown .markStray s.line.state st.x st.s st.u s t
      ∧ t.host.written = s.host.written + 1 ∧ HostKept s t ∧ t.sent = []
      ∧ BytesKept (nextNoticeBytes s) s t ∧ ChangesOnly [.mem, .trig, .host, .sent] s t := by
  obtain ⟨t, hf, ht⟩ := seePaperMark_elsewhere hst hj (paperMarkAt_stray (s := clearSent s) h) (by simp) h1 h2
  have hall : ChangesOnly [.mem, .trig, .host, .sent] s t :=
    .trans (.of_all (by simp [samePart])) (ht.mono (by decide))
  obtain ⟨n1, n2, n3, n4⟩ := written_shown (s := s) (v := clearSent s) wf rfl rfl rfl rfl ht.reported
    (ht .mem (by decide))
  refine ⟨t, exec_sighting rfl hf (hall .line (by decide)) (hall .pos (by decide)) (by rw [hall .reg (by decide)])
    (hall .dose (by decide)) (hall .tens (by decide)), n1, n2, n3, ?_, n4, hall⟩
  rw [show t.sent = _ from ht .sent (by decide)]
  simp

theorem paperMark_staged {s : State} {stamp : Option Stamp} {st : Stamp} {p : Panel}
    (hst : st = stamp.getD ⟨s.pos.x, s.pos.s, s.pos.u⟩) (hj : s.line.jog ≠ .rev)
    (h1 : s.line.state ≠ .warm) (h2 : s.line.state ≠ .ready) (h : s.ord.panels = [p])
    (hs : p.state = .onPaper) (hm : p.matched = false) (hp : p.piece = none) (hl : s.reg.list = [])
    (h3 : 0 ≤ sdiff st.u (p.sLead + 27500)) (h4 : sdiff st.u (p.sLead + 28500) ≤ 0) :
    ∃ t, exec (.paperMark stamp) s = .next t
      ∧ t.ord = { s.ord with panels := [{ p with xp := some st.x, state := .staged }] }
      ∧ t.reg.list = [p.number] ∧ t.reg.queue = s.reg.queue ∧ t.reg.position = s.reg.position
      ∧ t.sent = [] ∧ t.mem = s.mem := by
  obtain ⟨t, hf, ht⟩ := seePaperMark_elsewhere hst hj
    (paperMarkAt_staged (s := clearSent s) h hs hm hp hl h3 h4) rfl h1 h2
  have hreg : t.reg = { s.reg with list := [p.number] } := ht .reg (by decide)
  exact ⟨t, exec_sighting rfl hf (ht .line (by decide)) (ht .pos (by decide)) (by rw [hreg])
    (ht .dose (by decide)) (ht .tens (by decide)), ht .ord (by decide), by rw [hreg], by rw [hreg], by rw [hreg],
    ht .sent (by decide), ht .mem (by decide)⟩

/-! ## The channels -/

/-- The readiness test leaves the counters. -/
theorem retest_counts (s : State) : (retest s).trig = s.trig ∧ (retest s).pos = s.pos := by
  rcases retest_cases s with he | ⟨_, _, he⟩ | ⟨_, _, he⟩ <;> rw [he] <;> simp

/-- Each channel that waits for a sighting starts, in every line state (R48). -/
theorem sighting_channels {s : State} {stamp : Option Stamp} (hj : s.line.jog ≠ .rev) {c : Instr}
    {src : ArmSource} (h : (c = .fabricMark stamp ∧ src = .fabricMark) ∨ (c = .paperMark stamp ∧ src = .paperMark)
      ∨ (c = .fabricSplice stamp ∧ src = .fabricSplice)) :
    ∃ t, exec c s = .next t ∧ t.trig.latches = s.trig.latches ∧ t.trig.cuts = s.trig.cuts
      ∧ t.pos.x = s.pos.x ∧ t.pos.s = s.pos.s ∧ t.pos.u = s.pos.u
      ∧ ∀ k : Fin 12, t.trig.channels[k] =
        if s.trig.channels[k].arm = src ∧ (s.trig.channels[k].state = .armed
          ∨ (s.trig.channels[k].state = .counting ∧ s.trig.channels[k].mode = .repeating)) then
          { s.trig.channels[k] with
            state := .counting, remaining := s.trig.channels[k].reload, ahead := false }
        else s.trig.channels[k] := by
  obtain ⟨f, u, he, htrig, hx, hs, hu, ht, hp⟩ : ∃ f u, exec c s = answer f s ∧ u.trig = s.trig
      ∧ u.pos.x = s.pos.x ∧ u.pos.s = s.pos.s ∧ u.pos.u = s.pos.u
      ∧ (f (clearSent s)).trig = (armEvent src allChannels u).trig
      ∧ (f (clearSent s)).pos = (armEvent src allChannels u).pos := by
    rcases h with ⟨rfl, rfl⟩ | ⟨rfl, rfl⟩ | ⟨rfl, rfl⟩
    · refine ⟨seeFabricMark stamp, fabricMarkAt (stampOf stamp (clearSent s)).x (clearSent s), rfl,
        by simp, by simp, by simp, by simp, ?_⟩
      rw [seeFabricMark_eq (s := clearSent s) hj stamp]
      exact retest_counts _
    · refine ⟨seePaperMark stamp, paperMarkAt (stampOf stamp (clearSent s)) (clearSent s), rfl,
        by simp, by simp, by simp, by simp, ?_⟩
      rw [seePaperMark_eq (s := clearSent s) hj stamp]
      exact retest_counts _
    · refine ⟨seeFabricSplice stamp, seeSplice (fabricSeen (stampOf stamp (clearSent s))) (clearSent s), rfl,
        ?_, ?_, ?_, ?_, ?_⟩
      case refine_5 => rw [seeFabricSplice_eq (s := clearSent s) hj stamp]; exact ⟨rfl, rfl⟩
      all_goals simp
  have hst := armEvent_started src allChannels (by decide) u
  have hpos : (f (clearSent s)).pos = u.pos := hp.trans (hst.frame .pos (by decide))
  refine ⟨_, exec_ended he, ?_⟩
  simp only [ended_keeps, ht, hpos]
  refine ⟨by rw [hst.latches, htrig], by rw [hst.cuts, htrig], hx, hs, hu, fun k => ?_⟩
  rw [armAll_channels, htrig]

/-- A sighting in a reverse jog is not handed on (R42). -/
theorem sighting_reversed {s : State} {stamp : Option Stamp} (h : s.line.jog = .rev) {c : Instr}
    (hc : c = .fabricMark stamp ∨ c = .paperMark stamp ∨ c = .fabricSplice stamp ∨ c = .paperSplice stamp) :
    exec c s = .next { s with sent := [] } := by
  rcases hc with rfl | rfl | rfl | rfl
  · exact exec_not_due (f := seeFabricMark stamp) rfl (if_pos h)
  · exact exec_not_due (f := seePaperMark stamp) rfl (if_pos h)
  · exact exec_not_due (f := seeFabricSplice stamp) rfl (if_pos h)
  · exact exec_not_due (f := seePaperSplice stamp) rfl (if_pos h)

/-- Settles O47. -/
theorem sightings : Obligations.Sightings := by
  intro s stamp st wf hst
  refine ⟨fun h c hc => sighting_reversed h hc, fun hj => ⟨fun c src h => sighting_channels hj h,
    fun h => ⟨fabricSplice_room wf hst hj h, paperSplice_room wf hst hj h⟩,
    fun r rest h hl c hc => splice_full wf hj h hl hc, fun h1 h2 => ⟨?_, ?_, ?_, ?_, ?_⟩⟩⟩
  · exact fabricMark_unmarked hj h1 h2
  · exact fabricMark_queued hst hj h1 h2
  · exact fabricMark_overflow wf hst hj h1 h2
  · exact paperMark_stray wf hst hj h1 h2
  · exact fun p => paperMark_staged hst hj h1 h2

end Sys2Proof.Proofs
end

