-- ==== Sys2Proof/Proofs/ZoneAlarms.lean ====
section
/-! PROOFS. The alarms and the run heat test at the end of a heat interval (R3, R6, R109, R110). -/

-- One thread for the whole file: each waiting thread reserves its stack.
set_option Elab.async false

namespace Sys2Proof.Machine

/-- The alarms of the drum zones (R109). -/
def zoneConditions : List Alarm := [.zoneOvertemp, .zoneSensorLost, .zonePairLost]

/-- How the line may move at a heat interval: RUN to HOLD, and between WARM and READY (R3, R6). -/
def Eased (a b : LineState) : Prop :=
  b = a ∨ (a = .run ∧ b = .hold) ∨ ((a = .warm ∨ a = .ready) ∧ (b = .warm ∨ b = .ready))

theorem Eased.trans {a b c : LineState} (h1 : Eased a b) (h2 : Eased b c) : Eased a c := by
  unfold Eased at *
  grind

theorem Eased.of_run {b : LineState} (h : Eased .run b) : b = .run ∨ b = .hold := by
  simpa [Eased] using h

theorem Eased.of_hold {b : LineState} (h : Eased .hold b) : b = .hold := by
  simpa [Eased] using h

theorem Eased.of_warm_ready {a b : LineState} (h : Eased a b) (ha : a = .warm ∨ a = .ready) :
    b = .warm ∨ b = .ready := by
  rcases h with rfl | ⟨rfl, _⟩ | ⟨_, h⟩
  · exact ha
  · simp at ha
  · exact h

/-- Between two states the heat unit is as it was, no latch was cleared, and of the zones' conditions only
those of `ups` may have begun and those of `downs` ended. -/
structure HeatMoves (ups downs : List Alarm) (s t : State) : Prop where
  heat : t.heat = s.heat
  line : Eased s.line.state t.line.state
  latches : ∀ a, latched s a = true → latched t a = true
  begun : ∀ a ∈ zoneConditions, conditionActive t a = true → conditionActive s a = true ∨ a ∈ ups
  gone : ∀ a ∈ zoneConditions, conditionActive s a = true → conditionActive t a = true ∨ a ∈ downs
  frame : ChangesOnly (.drawn :: lineParts) s t

theorem HeatMoves.rfl (ups downs : List Alarm) (s : State) : HeatMoves ups downs s s :=
  ⟨Eq.refl _, .inl (Eq.refl _), fun _ => id, fun _ _ => .inl, fun _ _ => .inl, .rfl _ s⟩

theorem HeatMoves.trans {ups downs : List Alarm} {s t u : State} (h1 : HeatMoves ups downs s t)
    (h2 : HeatMoves ups downs t u) : HeatMoves ups downs s u where
  heat := h2.heat.trans h1.heat
  line := h1.line.trans h2.line
  latches a h := h2.latches a (h1.latches a h)
  begun a ha h := (h2.begun a ha h).elim (h1.begun a ha) .inr
  gone a ha h := (h1.gone a ha h).elim (h2.gone a ha) .inr
  frame := h1.frame.trans h2.frame

theorem HeatMoves.mono {ups downs ups' downs' : List Alarm} {s t : State} (h : HeatMoves ups downs s t)
    (hu : ups ⊆ ups' := by simp) (hd : downs ⊆ downs' := by simp) : HeatMoves ups' downs' s t :=
  ⟨h.heat, h.line, h.latches, fun a ha hc => (h.begun a ha hc).imp_right fun m => hu m,
    fun a ha hc => (h.gone a ha hc).imp_right fun m => hd m, h.frame⟩

theorem HeatMoves.foldl {ups downs : List Alarm} {α : Type} {f : State → α → State}
    (h : ∀ s a, HeatMoves ups downs s (f s a)) (l : List α) (s : State) : HeatMoves ups downs s (l.foldl f s) := by
  induction l generalizing s with
  | nil => exact .rfl _ _ s
  | cons a l ih => exact (h s a).trans (ih (f s a))

theorem alarmRec_standing {s : State} {a : Alarm} :
    alarmRec s a = ⟨true, true⟩ ↔ latched s a = true ∧ conditionActive s a = true := by
  unfold latched conditionActive
  cases alarmRec s a
  simp

/-- A standing alarm stands on while its condition may not end. -/
theorem HeatMoves.standing {ups downs : List Alarm} {s t : State} (h : HeatMoves ups downs s t) {a : Alarm}
    (ha : a ∈ zoneConditions) (hd : a ∉ downs) (hs : alarmRec s a = ⟨true, true⟩) :
    alarmRec t a = ⟨true, true⟩ := by
  obtain ⟨h1, h2⟩ := alarmRec_standing.mp hs
  exact alarmRec_standing.mpr ⟨h.latches a h1, (h.gone a ha h2).resolve_right hd⟩

/-- A condition that is over stays so while it may not begin. -/
theorem HeatMoves.inactive {ups downs : List Alarm} {s t : State} (h : HeatMoves ups downs s t) {a : Alarm}
    (ha : a ∈ zoneConditions) (hu : a ∉ ups) (hs : conditionActive s a = false) :
    conditionActive t a = false := by
  by_contra hc
  rw [Bool.not_eq_false] at hc
  rw [(h.begun a ha hc).resolve_right hu] at hs
  cases hs

/-! ## The operations -/

theorem draw_heatMoves (s : State) : HeatMoves [] [] s (draw s) :=
  ⟨rfl, .inl rfl, fun _ => id, fun _ _ => .inl, fun _ _ => .inl, .of_all (by simp [samePart])⟩

/-- An entry that leaves the heat enable set ends no condition of a zone (R103). -/
theorem enterState_heatMoves {new : LineState} {s : State} (hn : new = .hold ∨ new = .warm ∨ new = .ready)
    (h : Eased s.line.state new) (cause : LineCause) : HeatMoves [] [] s (enterState new cause s) := by
  have hon : ∀ had, heatOf new had = true := fun had => by rcases hn with rfl | rfl | rfl <;> rfl
  have he := enterState_endsOnly new cause s
  have hends : ∀ a ∈ zoneConditions, a ∉ entryEnds new s.line.heat := fun a ha => by
    rcases hn with rfl | rfl | rfl <;> revert ha <;> cases a <;> simp [zoneConditions, entryEnds, heatOf]
  refine ⟨enterState_heat_on (hon _) cause, ?_, fun a ha => ?_, fun a _ hc => .inl ?_, fun a ha hc => .inl ?_,
    .of_all (by simp [samePart, lineParts])⟩
  · rw [enterState_state]
    exact h
  · rw [latched_enterState]
    exact ha
  · rw [he.conditionActive, Bool.and_eq_true] at hc
    exact hc.1
  · rw [he.conditionActive, hc]
    simp [hends a ha]

theorem applyRequest_heatMoves {a : Alarm} (h : a.request ≠ .halt) (s : State) :
    HeatMoves [] [] s (applyRequest a s) := by
  rcases applyRequest_cases a s with he | ⟨hr, _, he⟩ | ⟨_, hs, he⟩ | ⟨_, hs, he⟩ <;> rw [he]
  · exact .rfl _ _ s
  · exact absurd hr h
  · exact enterState_heatMoves (.inl rfl) (.inr (.inl ⟨hs, rfl⟩)) _
  · exact enterState_heatMoves (.inr (.inl rfl)) (.inr (.inr ⟨.inr hs, .inl rfl⟩)) _

theorem raised_heatMoves (a : Alarm) (d1 d2 : Word) (s : State) : HeatMoves [a] [] s (raised a d1 d2 s) := by
  have hrec : ∀ b, b ≠ a → alarmRec (raised a d1 d2 s) b = alarmRec s b := fun b hb =>
    raised_other hb.symm d1 d2 s
  refine ⟨by simp, by simp [Eased], fun b hb => ?_, fun b _ hc => ?_, fun b _ hc => .inl ?_,
    .of_all (by simp [samePart, lineParts])⟩ <;> by_cases hba : b = a
  · unfold latched
    rw [hba, raised_same]
  · unfold latched
    rw [hrec b hba]
    exact hb
  · exact .inr (by simp [hba])
  · unfold conditionActive at hc
    rw [hrec b hba] at hc
    exact .inl hc
  · unfold conditionActive
    rw [hba, raised_same]
  · unfold conditionActive
    rw [hrec b hba]
    exact hc

/-- A raise of an alarm without a HALT request: the alarm stands after it (R5, R6). -/
theorem raiseAlarm_heatMoves {a : Alarm} (h : a.request ≠ .halt) (d1 d2 : Word) (s : State) :
    HeatMoves [a] [] s (raiseAlarm a d1 d2 s) := by
  by_cases hr : alarmRec s a = ⟨true, true⟩
  · rw [raiseAlarm_again hr]
    exact .rfl _ _ s
  · rw [raiseAlarm_new hr]
    exact (raised_heatMoves a d1 d2 s).trans ((applyRequest_heatMoves h _).mono)

theorem raiseAlarm_stands {a : Alarm} (h : a.request ≠ .halt) (ha : a ∈ zoneConditions) (d1 d2 : Word) (s : State) :
    alarmRec (raiseAlarm a d1 d2 s) a = ⟨true, true⟩ := by
  by_cases hr : alarmRec s a = ⟨true, true⟩
  · rw [raiseAlarm_again hr, hr]
  · rw [raiseAlarm_new hr]
    exact (applyRequest_heatMoves h _).standing ha (by simp) (raised_same a d1 d2 s)

theorem endCondition_heatMoves (a : Alarm) (s : State) : HeatMoves [] [a] s (endCondition a s) := by
  have he := endCondition_endsOnly a s
  refine ⟨rfl, .inl rfl, fun b hb => (he.latched b).trans hb, fun b _ hc => .inl ?_, fun b _ hc => ?_,
    .of_all (by simp [samePart, lineParts])⟩
  · rw [he.conditionActive, Bool.and_eq_true] at hc
    exact hc.1
  · rw [he.conditionActive, hc]
    by_cases hb : b = a
    · exact .inr (by simp [hb])
    · exact .inl (by simp [hb])

theorem endCondition_inactive (a : Alarm) (s : State) : conditionActive (endCondition a s) a = false := by
  rw [(endCondition_endsOnly a s).conditionActive]
  simp

theorem runRetest_heatMoves (s : State) : HeatMoves [] [] s (runRetest s) := by
  unfold runRetest
  split
  · next h => exact enterState_heatMoves (.inl rfl) (.inr (.inl ⟨h.1, rfl⟩)) _
  · exact .rfl _ _ s

theorem retest_heatMoves (s : State) : HeatMoves [] [] s (retest s) := by
  rcases retest_cases s with he | ⟨hs, _, he⟩ | ⟨hs, _, he⟩ <;> rw [he]
  · exact .rfl _ _ s
  · exact enterState_heatMoves (.inr (.inr rfl)) (.inr (.inr ⟨.inl hs, .inr rfl⟩)) _
  · exact enterState_heatMoves (.inr (.inl rfl)) (.inr (.inr ⟨.inr hs, .inl rfl⟩)) _

/-! ## The raises of the zones (R104, R106, R109) -/

theorem raiseZone_heatMoves (was : Vector Zone 8) (s : State) (k : Fin 8) :
    HeatMoves [.zoneOvertemp, .zoneSensorLost] [] s (raiseZone was s k) := by
  unfold raiseZone
  split
  · exact (raiseAlarm_heatMoves (by decide) _ _ s).mono
  · split
    · exact (raiseAlarm_heatMoves (by decide) _ _ s).mono
    · exact .rfl _ _ s

/-- The raise of a zone that has entered CUT. -/
theorem raiseZone_cut {was : Vector Zone 8} {s : State} {k : Fin 8} (h1 : was[k].state ≠ .cut)
    (h2 : s.heat.zones[k].state = .cut) : alarmRec (raiseZone was s k) .zoneOvertemp = ⟨true, true⟩ := by
  unfold raiseZone
  rw [if_pos ⟨h1, h2⟩]
  exact raiseAlarm_stands (by decide) (by decide) _ _ s

/-- The raise of a zone that has entered LOST. -/
theorem raiseZone_lost {was : Vector Zone 8} {s : State} {k : Fin 8} (h1 : was[k].state ≠ .lost)
    (h2 : s.heat.zones[k].state = .lost) : alarmRec (raiseZone was s k) .zoneSensorLost = ⟨true, true⟩ := by
  unfold raiseZone
  rw [if_neg (by rw [h2]; simp), if_pos ⟨h1, h2⟩]
  exact raiseAlarm_stands (by decide) (by decide) _ _ s

/-- An alarm that the raise of one zone leaves standing stands after the raises of all. -/
theorem raiseZones_standing {was : Vector Zone 8} {a : Alarm} {k : Fin 8} (ha : a ∈ zoneConditions) {s : State}
    (h : ∀ u : State, u.heat = s.heat → alarmRec (raiseZone was u k) a = ⟨true, true⟩) (l : List (Fin 8))
    (hk : k ∈ l) : alarmRec (l.foldl (raiseZone was) s) a = ⟨true, true⟩ := by
  induction l generalizing s with
  | nil => simp at hk
  | cons j l ih =>
    have hj := raiseZone_heatMoves was s j
    rcases List.mem_cons.mp hk with rfl | hk
    · exact (HeatMoves.foldl (raiseZone_heatMoves was) l _).standing ha (by simp) (h s rfl)
    · exact ih (fun u hu => h u (hu.trans hj.heat)) hk

theorem mem_drumZones (k : Fin 8) : k ∈ drumZones := by
  revert k
  decide

theorem zoneLost_iff (zs : Vector Zone 8) (k : Fin 8) : zoneLost zs k.val = true ↔ zs[k].state = .lost := by
  simp [zoneLost]

/-- Two adjacent zones are LOST (R109). -/
theorem lostPair_isSome_iff (zs : Vector Zone 8) : (lostPair zs).isSome = true ↔
    ∃ j k : Fin 8, k.val = j.val + 1 ∧ zs[j].state = .lost ∧ zs[k].state = .lost := by
  unfold lostPair
  rw [List.find?_isSome]
  constructor
  · rintro ⟨n, hn, h⟩
    rw [List.mem_range] at hn
    rw [Bool.and_eq_true] at h
    exact ⟨⟨n, by omega⟩, ⟨n + 1, by omega⟩, rfl, (zoneLost_iff zs ⟨n, by omega⟩).mp h.1,
      (zoneLost_iff zs ⟨n + 1, by omega⟩).mp h.2⟩
  · rintro ⟨j, k, hk, h1, h2⟩
    refine ⟨j.val, List.mem_range.mpr (by omega), ?_⟩
    rw [Bool.and_eq_true, ← hk]
    exact ⟨(zoneLost_iff zs j).mpr h1, (zoneLost_iff zs k).mpr h2⟩

theorem pairTest_heatMoves (zs : Vector Zone 8) (s : State) :
    HeatMoves [.zonePairLost] [.zonePairLost] s (pairTest zs s) := by
  unfold pairTest
  split
  · exact (raiseAlarm_heatMoves (by decide) _ _ s).mono
  · exact (endCondition_heatMoves _ s).mono

theorem pairTest_lost {zs : Vector Zone 8} (h : (lostPair zs).isSome = true) (s : State) :
    alarmRec (pairTest zs s) .zonePairLost = ⟨true, true⟩ := by
  unfold pairTest
  split
  · exact raiseAlarm_stands (by decide) (by decide) _ _ s
  · next hn =>
    rw [hn] at h
    cases h

theorem pairTest_kept {zs : Vector Zone 8} (h : ¬ (lostPair zs).isSome = true) (s : State) :
    conditionActive (pairTest zs s) .zonePairLost = false := by
  unfold pairTest
  split
  · next hn =>
    rw [hn] at h
    exact absurd rfl h
  · exact endCondition_inactive _ s

/-- No zone is in a state. -/
def NoZone (st : ZoneState) (zs : Vector Zone 8) : Prop := ∀ k : Fin 8, zs[k].state ≠ st

theorem noZone_iff (st : ZoneState) (zs : Vector Zone 8) :
    (zs.all fun z => z.state != st) = true ↔ NoZone st zs := by
  rw [Vector.all_eq_true]
  constructor
  · exact fun h k => by simpa using h k.val k.isLt
  · exact fun h i hi => by simpa using h ⟨i, hi⟩

/-- The conditions that end with their last zone (R109). -/
theorem endZoneAlarms_heatMoves (zs : Vector Zone 8) (s : State) : HeatMoves []
    ((if (zs.all fun z => z.state != .cut) = true then [.zoneOvertemp] else [])
      ++ (if (zs.all fun z => z.state != .lost) = true then [.zoneSensorLost] else [])) s (endZoneAlarms zs s) := by
  unfold endZoneAlarms
  split <;> split
  · exact ((endCondition_heatMoves .zoneOvertemp s).mono).trans ((endCondition_heatMoves .zoneSensorLost _).mono)
  · exact (endCondition_heatMoves .zoneOvertemp s).mono
  · exact (endCondition_heatMoves .zoneSensorLost s).mono
  · exact .rfl _ _ s

theorem endZoneAlarms_cut {zs : Vector Zone 8} (h : NoZone .cut zs) (s : State) :
    conditionActive (endZoneAlarms zs s) .zoneOvertemp = false := by
  unfold endZoneAlarms
  rw [if_pos ((noZone_iff .cut zs).mpr h)]
  split
  · exact (endCondition_heatMoves .zoneSensorLost _).inactive (by decide) (by simp) (endCondition_inactive _ s)
  · exact endCondition_inactive _ s

theorem endZoneAlarms_lost {zs : Vector Zone 8} (h : NoZone .lost zs) (s : State) :
    conditionActive (endZoneAlarms zs s) .zoneSensorLost = false := by
  unfold endZoneAlarms
  rw [if_pos ((noZone_iff .lost zs).mpr h)]
  exact endCondition_inactive _ _

/-! ## The judgement of the zones -/

/-- The alarms of the zones `zs`, whose states were those of `was` before their steps, were raised and ended
(R109), and nothing but alarms and the line's answer to them has changed. -/
structure ZonesJudged (was : Vector Zone 8) (s t : State) : Prop where
  overtempOver : NoZone .cut s.heat.zones → conditionActive t .zoneOvertemp = false
  overtempLatched : ∀ k : Fin 8, was[k].state ≠ .cut → s.heat.zones[k].state = .cut →
    latched t .zoneOvertemp = true
  sensorOver : NoZone .lost s.heat.zones → conditionActive t .zoneSensorLost = false
  sensorStands : ∀ k : Fin 8, was[k].state ≠ .lost → s.heat.zones[k].state = .lost →
    alarmRec t .zoneSensorLost = ⟨true, true⟩
  pairOver : ¬ (lostPair s.heat.zones).isSome = true → conditionActive t .zonePairLost = false
  pairStands : (lostPair s.heat.zones).isSome = true → alarmRec t .zonePairLost = ⟨true, true⟩
  moves : HeatMoves zoneConditions zoneConditions s t

/-- Nothing but entries after the judgement. -/
theorem ZonesJudged.after {was : Vector Zone 8} {s t u : State} (h : ZonesJudged was s t)
    (hm : HeatMoves [] [] t u) : ZonesJudged was s u where
  overtempOver hz := hm.inactive (by decide) (by simp) (h.overtempOver hz)
  overtempLatched k h1 h2 := hm.latches _ (h.overtempLatched k h1 h2)
  sensorOver hz := hm.inactive (by decide) (by simp) (h.sensorOver hz)
  sensorStands k h1 h2 := hm.standing (by decide) (by simp) (h.sensorStands k h1 h2)
  pairOver hz := hm.inactive (by decide) (by simp) (h.pairOver hz)
  pairStands hz := hm.standing (by decide) (by simp) (h.pairStands hz)
  moves := h.moves.trans hm.mono

/-- Nothing but entries before the judgement. -/
theorem ZonesJudged.before {was : Vector Zone 8} {s t u : State} (hm : HeatMoves [] [] s t)
    (h : ZonesJudged was t u) : ZonesJudged was s u where
  overtempOver := hm.heat ▸ h.overtempOver
  overtempLatched := hm.heat ▸ h.overtempLatched
  sensorOver := hm.heat ▸ h.sensorOver
  sensorStands := hm.heat ▸ h.sensorStands
  pairOver := hm.heat ▸ h.pairOver
  pairStands := hm.heat ▸ h.pairStands
  moves := hm.mono.trans h.moves

theorem zoneAlarms_judged (was : Vector Zone 8) (s : State) : ZonesJudged was s (zoneAlarms was s) := by
  have hz := HeatMoves.foldl (raiseZone_heatMoves was) drumZones s
  have hcut : ∀ k : Fin 8, was[k].state ≠ .cut → s.heat.zones[k].state = .cut →
      alarmRec (drumZones.foldl (raiseZone was) s) .zoneOvertemp = ⟨true, true⟩ := fun k h1 h2 =>
    raiseZones_standing (by decide) (fun u hu => raiseZone_cut h1 (by rw [hu]; exact h2)) _ (mem_drumZones k)
  have hlost : ∀ k : Fin 8, was[k].state ≠ .lost → s.heat.zones[k].state = .lost →
      alarmRec (drumZones.foldl (raiseZone was) s) .zoneSensorLost = ⟨true, true⟩ := fun k h1 h2 =>
    raiseZones_standing (by decide) (fun u hu => raiseZone_lost h1 (by rw [hu]; exact h2)) _ (mem_drumZones k)
  unfold zoneAlarms
  generalize drumZones.foldl (raiseZone was) s = u at *
  have hp := pairTest_heatMoves s.heat.zones u
  have hps := fun h => pairTest_lost (zs := s.heat.zones) h u
  have hpo := fun h => pairTest_kept (zs := s.heat.zones) h u
  generalize pairTest s.heat.zones u = v at *
  have he := endZoneAlarms_heatMoves s.heat.zones v
  refine ⟨fun h => endZoneAlarms_cut h v, fun k h1 h2 => ?_, fun h => endZoneAlarms_lost h v, fun k h1 h2 => ?_,
    fun h => he.inactive (by decide) (by simp) (hpo h), fun h => he.standing (by decide) ?_ (hps h), ?_⟩
  · exact he.latches _ (hp.latches _ (alarmRec_standing.mp (hcut k h1 h2)).1)
  · refine he.standing (by decide) ?_ (hp.standing (by decide) (by simp) (hlost k h1 h2))
    rw [if_neg fun ha => (noZone_iff .lost _).mp ha k h2]
    split <;> simp
  · split <;> split <;> simp
  · refine ((hz.mono ?_ ?_).trans (hp.mono ?_ ?_)).trans (he.mono ?_ ?_)
    all_goals (try split) <;> (try split) <;> simp [zoneConditions]

theorem judgeZones_judged (was : Vector Zone 8) (s : State) : ZonesJudged was s (judgeZones was s) := by
  unfold judgeZones
  split
  · split
    · exact (ZonesJudged.before (draw_heatMoves s) (zoneAlarms_judged was _)).after (runRetest_heatMoves _)
    · exact .before ((draw_heatMoves s).trans (runRetest_heatMoves _)) (zoneAlarms_judged was _)
  · exact zoneAlarms_judged was s

theorem runHeatTest_congr {s t : State} (h : t.heat = s.heat) : runHeatTest t = runHeatTest s := by
  unfold runHeatTest
  rw [h]

theorem runHeatTest_fails {s : State} {k : Fin 8}
    (h : s.heat.zones[k].state = .heating ∨ s.heat.zones[k].state = .off) : runHeatTest s = false := by
  unfold runHeatTest
  rw [Vector.all_eq_false]
  exact ⟨k.val, k.isLt, by rcases h with h | h <;> simp at h <;> simp [h]⟩

/-- In RUN a zone in HEATING or OFF takes the line to HOLD, in either order (R6; log 17). -/
theorem judgeZones_hold {was : Vector Zone 8} {s : State} (hs : s.line.state = .run)
    (h : runHeatTest s = false) : (judgeZones was s).line.state = .hold := by
  unfold judgeZones
  rw [if_pos ⟨hs, by simp [h]⟩]
  split
  · have hm := (ZonesJudged.before (draw_heatMoves s) (zoneAlarms_judged was _)).moves
    generalize zoneAlarms was (draw s) = u at *
    have hl := hm.line
    rw [hs] at hl
    have hr : runHeatTest u = false := (runHeatTest_congr hm.heat).trans h
    rcases hl.of_run with hu | hu
    · unfold runRetest
      rw [if_pos ⟨hu, by simp [hr]⟩, enterState_state]
    · unfold runRetest
      rw [if_neg (by simp [hu]), hu]
  · have hl := (zoneAlarms_judged was (runRetest (draw s))).moves.line
    have hd : (runRetest (draw s)).line.state = .hold := by
      unfold runRetest
      rw [if_pos ⟨by simpa using hs, by rw [runHeatTest_congr (draw_heatMoves s).heat, h]; rfl⟩, enterState_state]
    rw [hd] at hl
    exact hl.of_hold

end Sys2Proof.Machine
end

