-- ==== Sys2Proof/Proofs/HeatInterval.lean ====
section
/-! PROOFS. HEAT_INTERVAL: one zone's step by its cases, and the whole interval (R98, R103 to R110). -/

-- One thread for the whole file: each waiting thread reserves its stack.
set_option Elab.async false

namespace Sys2Proof.Machine

/-! ## The stand-in temperature (R105) -/

theorem limit_eq {lo hi v : Int} (h : lo ≤ hi) : limit lo hi v = max lo (min hi v) := by
  unfold limit
  split
  · omega
  · split <;> omega

theorem foldl_min_le (l : List Nat) (t : Nat) : l.foldl min t ≤ t ∧ ∀ x ∈ l, l.foldl min t ≤ x := by
  induction l generalizing t with
  | nil => simp
  | cons a l ih =>
    obtain ⟨h1, h2⟩ := ih (min t a)
    refine ⟨by simp only [List.foldl_cons]; omega, fun x hx => ?_⟩
    rcases List.mem_cons.mp hx with rfl | hx
    · simp only [List.foldl_cons]; omega
    · exact h2 x hx

theorem foldl_min_mem (l : List Nat) (t : Nat) : l.foldl min t ∈ t :: l := by
  induction l generalizing t with
  | nil => simp
  | cons a l ih =>
    have h := ih (min t a)
    simp only [List.foldl_cons, List.mem_cons] at h ⊢
    grind

/-- The lowest of a list is its element that none undercuts. -/
theorem lowest_eq {l : List Nat} {v : Nat} (hv : v ∈ l) (h : ∀ x ∈ l, v ≤ x) : lowest l = v := by
  cases l with
  | nil => simp at hv
  | cons t l =>
    obtain ⟨h1, h2⟩ := foldl_min_le l t
    have hle : v ≤ l.foldl min t := h _ (foldl_min_mem l t)
    have hge : l.foldl min t ≤ v := by
      rcases List.mem_cons.mp hv with rfl | hv
      exacts [h1, h2 v hv]
    exact Nat.le_antisymm hge hle

theorem mem_neighbours (j k : Fin 8) : j ∈ neighbours k ↔ j.val + 1 = k.val ∨ j.val = k.val + 1 := by
  simp [neighbours, mem_drumZones]

theorem standInT_none {s : State} {k : Fin 8}
    (h : ∀ j : Fin 8, (j.val + 1 = k.val ∨ j.val = k.val + 1) → freshReading s j = false) : standInT s k = 0 := by
  have he : (neighbours k).filter (freshReading s) = [] := by
    rw [List.filter_eq_nil_iff]
    intro j hj
    rw [h j ((mem_neighbours j k).mp hj)]
    exact Bool.false_ne_true
  unfold standInT
  rw [he]
  rfl

theorem standInT_eq {s : State} {k j : Fin 8} (hj : j.val + 1 = k.val ∨ j.val = k.val + 1)
    (hf : freshReading s j = true) (h : ∀ i : Fin 8, (i.val + 1 = k.val ∨ i.val = k.val + 1) →
      freshReading s i = true → measuredT s j ≤ measuredT s i) :
    standInT s k = min 2500 (measuredT s j - 50) := by
  have hm : measuredT s j ∈ ((neighbours k).filter (freshReading s)).map (measuredT s) :=
    List.mem_map_of_mem (List.mem_filter.mpr ⟨(mem_neighbours j k).mpr hj, hf⟩)
  have hlow : lowest (((neighbours k).filter (freshReading s)).map (measuredT s)) = measuredT s j := by
    refine lowest_eq hm fun x hx => ?_
    obtain ⟨i, hi, rfl⟩ := List.mem_map.mp hx
    obtain ⟨hi1, hi2⟩ := List.mem_filter.mp hi
    exact h i ((mem_neighbours i k).mp hi1) hi2
  unfold standInT
  split
  · next hn =>
    rw [hn] at hm
    simp at hm
  · rw [hlow, limitNat, limit_eq (by decide)]
    omega

/-! ## One zone's step (R104 to R108) -/

/-- What step 2 or the end of CUT leaves of a zone (R104, R106). -/
def Zone.begun (z : Zone) (t cutT : Nat) : Zone :=
  if z.state = .lost ∨ z.state = .off ∨ (z.state = .cut ∧ t + 50 < cutT) then z.restart else z

theorem Zone.begun_heater (z : Zone) (t cutT : Nat) : (z.begun t cutT).heater = z.heater := by
  unfold Zone.begun
  split <;> rfl

theorem Zone.leave_eq {z : Zone} (h : z.state ≠ .cut) (t cutT : Nat) : z.leave = z.begun t cutT := by
  unfold Zone.leave Zone.begun
  cases hs : z.state <;> simp_all

theorem Zone.work_hot {z : Zone} (h : z.state ≠ .cut) {cutT t : Nat} (ht : cutT ≤ t) (kp ki : Nat) (e : Int) :
    z.leave.work cutT t kp ki e = z.leave.idle .cut := by
  have hl : z.leave.state ≠ .cut := fun hc => by
    rcases z.leave_state with h' | h' | ⟨_, h'⟩
    · rw [h'] at hc; cases hc
    · rw [h'] at hc; cases hc
    · rw [h'] at hc; exact h hc
  unfold Zone.work
  split
  · next hc => exact absurd hc hl
  all_goals exact if_pos ht

/-- A zone that stays in CUT (R106). -/
theorem Zone.work_cut {z : Zone} (h : z.state = .cut) {cutT t : Nat} (ht : cutT ≤ t + 50) (kp ki : Nat) (e : Int) :
    z.leave.work cutT t kp ki e = { z with power := 0 } := by
  have hl : z.leave = z := by unfold Zone.leave; rw [h]
  rw [hl]
  unfold Zone.work
  rw [h]
  exact if_neg (by omega)

/-- A zone that is regulated (R107, R108). -/
theorem Zone.work_controlled {z : Zone} {cutT t : Nat} (h : (z.begun t cutT).state ≠ .cut)
    (ht : z.state = .cut ∨ t < cutT) (kp ki : Nat) (e : Int) :
    z.leave.work cutT t kp ki e = (z.begun t cutT).controlled kp ki e := by
  by_cases hc : z.state = .cut
  · have hlow : t + 50 < cutT := by
      by_contra hn
      refine h ?_
      unfold Zone.begun
      rw [if_neg (by rw [hc]; simpa using hn), hc]
    have hl : z.leave = z := by unfold Zone.leave; rw [hc]
    have hb : z.begun t cutT = z.restart := if_pos (.inr (.inr ⟨hc, hlow⟩))
    rw [hl, hb]
    unfold Zone.work
    rw [hc]
    exact if_pos hlow
  · rw [z.leave_eq hc t cutT]
    have hlow := ht.resolve_left hc
    unfold Zone.work
    split
    · next hb => exact absurd hb h
    all_goals exact if_neg (by omega)

/-- A zone's step from a fresh reading. -/
theorem stepZone_fresh {s : State} {k : Fin 8} (h : freshReading s k = true) : stepZone s k =
    { s.heat.zones[k].leave.work (tCut s) (measuredT s k) s.heat.kp s.heat.ki
        (zoneSetpoint s k - (measuredT s k : Int)) with used := measuredT s k } := if_pos h

theorem stepZone_stale {s : State} {k : Fin 8} (h : ¬ freshReading s k = true) : stepZone s k =
    { s.heat.zones[k].idle .lost with used := standInT s k } := if_neg h

/-- What steps 4 and 5 leave of a zone (R102, R107, R108). -/
theorem Zone.controlled_eqs (z : Zone) (kp ki : Nat) (e : Int) :
    (z.controlled kp ki e).integral = (if (z.power = 1000 ∧ 0 < e) ∨ (z.power = 0 ∧ e < 0) then z.integral
      else max 0 (min 1000 (z.integral + ((ki : Int) * e).tdiv 256)))
    ∧ ((z.controlled kp ki e).power : Int) = (if kp = 0 ∧ ki = 0 then 0
      else max 0 (min 1000 (((kp : Int) * e).tdiv 16 + (z.controlled kp ki e).integral))) := by
  have hi : z.nextIntegral ki e = (if (z.power = 1000 ∧ 0 < e) ∨ (z.power = 0 ∧ e < 0) then z.integral
      else max 0 (min 1000 (z.integral + ((ki : Int) * e).tdiv 256))) := by
    unfold Zone.nextIntegral
    rw [limit_eq (by decide)]
    exact if_congr (by simp [Zone.frozen]) rfl rfl
  rw [controlled_power, controlled_integral]
  refine ⟨hi, ?_⟩
  unfold regulatedPower
  split
  · rfl
  · rw [limitNat, limit_eq (by decide)]
    omega

/-! ## The interval -/

/-- The state at which the zones of an interval are stepped: every reading is one older (R98). -/
theorem riseAges_reading (s : State) (k : Fin 8) :
    zoneReading (riseAges s) k = { zoneReading s k with age := min 255 ((zoneReading s k).age + 1) } := by
  simp [zoneReading, riseAges]

/-- The zones stepped, before they are judged. -/
def heatStepped (s : State) : State := setZones (Vector.ofFn fun k => stepZone (riseAges s) k) (riseAges s)

theorem heatStepped_zone (s : State) (k : Fin 8) :
    (heatStepped s).heat.zones[k] = stepZone (riseAges s) k := by
  simp [heatStepped, setZones]

theorem heatStep_on {s : State} (h : s.line.heat = true) :
    heatStep s = retest (judgeZones s.heat.zones (heatStepped s)) := if_pos h

theorem heatStep_off {s : State} (h : s.line.heat = false) : heatStep s =
    setZones (Vector.ofFn fun k => restZone (riseAges s) k) (riseAges s) :=
  if_neg (show ¬ s.line.heat = true by rw [h]; exact Bool.false_ne_true)

end Sys2Proof.Machine

namespace Sys2Proof.Proofs

open Sys2Proof.Machine

/-- One zone after an interval with the heat enable on, as the statement asks of the zone `z` that was `y`. -/
theorem stepZone_shows {s : State} {k : Fin 8} {age T : Fin 8 → Nat} {e : Int} {y z z0 : Zone} {kp ki : Nat}
    (hfresh : ∀ j, freshReading s j = decide (age j ≤ 20)) (hT : ∀ j, measuredT s j = T j)
    (he : e = zoneSetpoint s k - (T k : Int)) (hz : z = stepZone s k) (hy : y = s.heat.zones[k])
    (hkp : kp = s.heat.kp) (hki : ki = s.heat.ki)
    (h0 : z0 = (if y.state = .lost ∨ y.state = .off ∨ (y.state = .cut ∧ T k + 50 < tCut s) then
      { y with state := .heating, integral := 0, power := 0, settle := 0 } else y)) :
    (20 < age k → z.state = .lost ∧ z.power = 0 ∧ z.integral = 0 ∧ z.settle = 0 ∧ z.heater = false
      ∧ ((∀ j : Fin 8, (j.val + 1 = k.val ∨ j.val = k.val + 1) → 20 < age j) → z.used = 0)
      ∧ (∀ j : Fin 8, (j.val + 1 = k.val ∨ j.val = k.val + 1) → age j ≤ 20 →
        (∀ i : Fin 8, (i.val + 1 = k.val ∨ i.val = k.val + 1) → age i ≤ 20 → T j ≤ T i) →
        z.used = min 2500 (T j - 50)))
    ∧ (age k ≤ 20 → z.used = T k
      ∧ (y.state = .cut → tCut s ≤ T k + 50 → z.state = .cut ∧ z.power = 0)
      ∧ (y.state ≠ .cut → tCut s ≤ T k →
        z = { state := .cut, integral := 0, power := 0, settle := 0, used := T k, heater := false, onEnd := none })
      ∧ (z0.state ≠ .cut → (y.state = .cut ∨ T k < tCut s) →
        z.integral = (if (z0.power = 1000 ∧ 0 < e) ∨ (z0.power = 0 ∧ e < 0) then z0.integral
          else max 0 (min 1000 (z0.integral + ((ki : Int) * e).tdiv 256)))
        ∧ (z.power : Int) = (if kp = 0 ∧ ki = 0 then 0
          else max 0 (min 1000 (((kp : Int) * e).tdiv 16 + z.integral)))
        ∧ z.settle = (if e.natAbs ≤ 30 then min 600 (z0.settle + 1) else 0)
        ∧ z.state = (if e.natAbs ≤ 30 then (if 600 ≤ z0.settle + 1 then .settled else z0.state) else .heating)
        ∧ z.heater = y.heater)) := by
  have hb : z0 = y.begun (T k) (tCut s) := h0
  refine ⟨fun ha => ?_, fun ha => ?_⟩
  · have hstale : ¬ freshReading s k = true := by
      rw [hfresh, decide_eq_true_eq]
      omega
    rw [hz, stepZone_stale hstale]
    refine ⟨rfl, rfl, rfl, rfl, rfl, fun hn => standInT_none fun j hj => ?_, fun j hj hage hlow => ?_⟩
    · rw [hfresh, decide_eq_false_iff_not]
      have := hn j hj
      omega
    · rw [← hT j]
      refine standInT_eq hj (by rw [hfresh]; exact decide_eq_true hage) fun i hi hf => ?_
      rw [hT, hT]
      exact hlow i hi (by rw [hfresh] at hf; exact of_decide_eq_true hf)
  · have hf : freshReading s k = true := by rw [hfresh]; exact decide_eq_true ha
    have hstep := stepZone_fresh hf
    rw [← hz, hT, ← he, ← hy, ← hkp, ← hki] at hstep
    refine ⟨by rw [hstep], fun hc ht => ?_, fun hc ht => ?_, fun hc ht => ?_⟩
    · rw [hstep, Zone.work_cut hc ht]
      exact ⟨hc, rfl⟩
    · rw [hstep, Zone.work_hot hc ht]
      rfl
    · rw [hb] at hc ⊢
      rw [Zone.work_controlled hc ht] at hstep
      obtain ⟨h1, h2⟩ := (y.begun (T k) (tCut s)).controlled_eqs kp ki e
      rw [hstep]
      exact ⟨h1, h2, Zone.controlled_settle _ _ _ _, Zone.controlled_state _ _ _ _,
        (Zone.controlled_heater _ _ _ _).1.trans (Zone.begun_heater _ _ _)⟩

/-- What the whole interval leaves with the heat enable on. -/
theorem heatStep_judged {s : State} (h : s.line.heat = true) :
    ZonesJudged s.heat.zones (heatStepped s) (heatStep s)
    ∧ (s.line.state = .run → (∃ k : Fin 8, (heatStep s).heat.zones[k].state = .heating
      ∨ (heatStep s).heat.zones[k].state = .off) → (heatStep s).line.state = .hold)
    ∧ (s.line.state = .warm ∨ s.line.state = .ready →
      (heatStep s).line.state = (if readyTest (heatStep s) = true then .ready else .warm)) := by
  have hj := judgeZones_judged s.heat.zones (heatStepped s)
  have hhold := judgeZones_hold (was := s.heat.zones) (s := heatStepped s)
  rw [heatStep_on h]
  generalize judgeZones s.heat.zones (heatStepped s) = v at *
  have hall := hj.after (retest_heatMoves v)
  refine ⟨hall, fun hs ⟨k, hk⟩ => ?_, fun hs => ?_⟩
  · rw [hall.moves.heat] at hk
    have hv := hhold hs (runHeatTest_fails hk)
    rw [retest_elsewhere (by rw [hv]; decide) (by rw [hv]; decide), hv]
  · exact (retest_retested (hj.moves.line.of_warm_ready hs)).state

theorem heatStepped_frame (s : State) : ChangesOnly [.heat] s (heatStepped s) :=
  .of_all (by simp [samePart, heatStepped, setZones, riseAges])

theorem ended_conditionActive (s v : State) (a : Alarm) : conditionActive (ended s v) a = conditionActive v a := by
  unfold conditionActive
  rw [alarmRec_congr (s := v) (t := ended s v) (by simp)]

theorem ended_heatMoves (s v : State) : HeatMoves [] [] v (ended s v) where
  heat := by simp
  line := .inl (by simp)
  latches a h := (latched_congr (by simp) a).trans h
  begun a _ h := .inl ((ended_conditionActive s v a).symm.trans h)
  gone a _ h := .inl ((ended_conditionActive s v a).trans h)
  frame := .of_all (by simp [samePart, lineParts])

/-- The command's answer with the heat enable on. -/
theorem exec_heatInterval_on {s : State} (h : s.line.heat = true) :
    ∃ t, exec .heatInterval s = .next t ∧ ZonesJudged s.heat.zones (heatStepped (clearSent s)) t
      ∧ (s.line.state = .run → (∃ k : Fin 8, t.heat.zones[k].state = .heating
        ∨ t.heat.zones[k].state = .off) → t.line.state = .hold)
      ∧ (s.line.state = .warm ∨ s.line.state = .ready →
        t.line.state = (if readyTest t = true then .ready else .warm)) := by
  obtain ⟨hj, hhold, hready⟩ := heatStep_judged (s := clearSent s) h
  refine ⟨_, exec_ended (f := heatStep) rfl, hj.after (ended_heatMoves s _), ?_, ?_⟩
  · rw [(ended_keeps s _).2.1, (ended_keeps s _).2.2.2.2.2.2.2.1]
    exact hhold
  · rw [(ended_keeps s _).2.1, readyTest_congr (t := ended s (heatStep (clearSent s))) (s := heatStep (clearSent s))
      (by simp) (by simp) (fun a => latched_congr (by simp) a) (by simp) (by simp)]
    exact hready

/-- Settles O57. -/
theorem heatInterval : Obligations.HeatInterval := by
  intro s age T e hage hT he
  have hreads : ∀ k, zoneReading (riseAges (clearSent s)) k = { zoneReading s k with age := age k } := fun k => by
    rw [riseAges_reading, hage]
    rfl
  have hfresh : ∀ k, freshReading (riseAges (clearSent s)) k = decide (age k ≤ 20) := fun k => by
    unfold freshReading
    rw [hreads]
  have hm : ∀ k, measuredT (riseAges (clearSent s)) k = T k := fun k => by
    unfold measuredT
    rw [hreads, hT]
  have hno : ∀ {P : Prop}, false = true → P := fun h => absurd h Bool.false_ne_true
  cases hh : s.line.heat with
  | false =>
    refine ⟨_, exec_ended (f := heatStep) rfl, ?_⟩
    rw [heatStep_off (s := clearSent s) hh]
    refine ⟨by simp [setZones, riseAges], by simp [setZones, riseAges], by simp [setZones, riseAges],
      by simp [setZones, riseAges], fun _ => ⟨.of_all (by simp [samePart, setZones, riseAges]), fun k => ?_⟩,
      hno, hno, hno, hno, hno, hno, fun _ _ => hno, hno,
      .of_all (by simp [samePart, setZones, riseAges, lineParts])⟩
    simp [setZones, restZone, Zone.shutOff, hm]
  | true =>
    obtain ⟨t, hexec, hj, hhold, hready⟩ := exec_heatInterval_on hh
    have hz := heatStepped_zone (clearSent s)
    have hunit : (heatStepped (clearSent s)).heat =
        { (riseAges s).heat with zones := (heatStepped (clearSent s)).heat.zones } := rfl
    have hframe := (ChangesOnly.of_clearSent (by decide)
      ((heatStepped_frame (clearSent s)).mono (by decide))).trans hj.moves.frame
    have hheat := hj.moves.heat
    generalize heatStepped (clearSent s) = u at *
    have hshows := fun (k : Fin 8) (z0 : Zone) => stepZone_shows (k := k) (z0 := z0) hfresh hm (he k) (hz k)
      (y := s.heat.zones[k]) (kp := s.heat.kp) (ki := s.heat.ki) rfl rfl rfl
    have hlost : ∀ k, 20 < age k → u.heat.zones[k].state = .lost := fun k hk =>
      ((hshows k _ rfl).1 hk).1
    refine ⟨t, hexec, by rw [hheat, hunit]; rfl, by rw [hheat, hunit]; rfl, by rw [hheat, hunit]; rfl,
      by rw [hheat, hunit]; rfl, fun h => absurd h.symm Bool.false_ne_true,
      fun _ k z0 h0 => ?_, fun _ => hhold, fun _ h => ?_, fun _ h => ?_,
      fun _ ⟨k, hk, hs⟩ => ?_, fun _ h => ?_, fun j k _ hjk h1 h2 => ?_, fun _ => hready, hframe⟩
    · obtain ⟨h1, h2⟩ := hshows k z0 h0
      rw [hheat]
      refine ⟨h1, fun ha => ?_⟩
      obtain ⟨g1, g2, g3, g4⟩ := h2 ha
      exact ⟨g1, g2, fun hc ht => ⟨g3 hc ht, hj.overtempLatched k hc (by rw [g3 hc ht])⟩, g4⟩
    · exact hj.overtempOver (hheat ▸ h)
    · exact hj.sensorOver (hheat ▸ h)
    · exact hj.sensorStands k hs (hlost k hk)
    · refine hj.pairOver fun hp => ?_
      obtain ⟨j, k, hjk, h1, h2⟩ := (lostPair_isSome_iff _).mp hp
      rw [hheat] at h
      exact (h j k hjk).elim (fun hn => hn h1) fun hn => hn h2
    · rw [hheat] at h1 h2
      exact hj.pairStands ((lostPair_isSome_iff _).mpr ⟨j, k, hjk, h1, h2⟩)

end Sys2Proof.Proofs
end

