-- ==== Sys2Proof/Proofs/SlotsKept.lean ====
section
/-! PROOFS. How the profile slots stand to the entries and records that name them, through every
operation: the in-use counts stay exact, no slot changes its state, and no slot comes into use that is
not in use already (R31, R32). -/

-- One thread for the whole file: each waiting thread reserves its stack.
set_option Elab.async false

namespace Sys2Proof.Machine

/-! ## The relation -/

/-- In-use counts are exact, and every slot that an entry or a record names lies in `V`. -/
def NamedWithin (V : Fin 16 → Prop) (s : State) : Prop :=
  ∀ i : Fin 16, s.lib.slots[i].inUse = slotUses s i ∧ (0 < slotUses s i → V i)

/-- Where the counts are exact and no slot outside `V` is named, that stays so and no slot changes its
state. -/
def SlotsKept (V : Fin 16 → Prop) (s t : State) : Prop :=
  NamedWithin V s → NamedWithin V t ∧ ∀ i : Fin 16, t.lib.slots[i].state = s.lib.slots[i].state

section Relation

variable {V : Fin 16 → Prop}

theorem SlotsKept.rfl (s : State) : SlotsKept V s s := fun h => ⟨h, fun _ => Eq.refl _⟩

theorem SlotsKept.trans {s t u : State} (h1 : SlotsKept V s t) (h2 : SlotsKept V t u) :
    SlotsKept V s u := fun h =>
  have ⟨n1, e1⟩ := h1 h
  have ⟨n2, e2⟩ := h2 n1
  ⟨n2, fun i => (e2 i).trans (e1 i)⟩

/-- The relation may be shown under its own premise. -/
theorem SlotsKept.of_named {s t : State} (h : NamedWithin V s → SlotsKept V s t) : SlotsKept V s t :=
  fun hs => h hs hs

theorem SlotsKept.of_eq {s t : State} (h : t = s) : SlotsKept V s t := by
  subst h
  exact .rfl t

theorem SlotsKept.ite {s t u : State} {c : Prop} [Decidable c] (h1 : c → SlotsKept V s t)
    (h2 : ¬ c → SlotsKept V s u) : SlotsKept V s (if c then t else u) := by
  split
  · exact h1 ‹_›
  · exact h2 ‹_›

theorem SlotsKept.foldl {α : Type} {f : State → α → State} {l : List α}
    (h : ∀ s, ∀ a ∈ l, SlotsKept V s (f s a)) (s : State) : SlotsKept V s (l.foldl f s) := by
  induction l generalizing s with
  | nil => exact .rfl s
  | cons a l ih =>
    exact (h s a List.mem_cons_self).trans (ih (fun u b hb => h u b (List.mem_cons_of_mem a hb)) _)

/-- The uses of a slot, from the profiles that entries and records name. -/
theorem slotUses_eq (s : State) (i : Fin 16) :
    slotUses s i = (s.ord.entries.map (·.profile)).count i + (s.ord.panels.map (·.profile)).count i := by
  simp only [slotUses, List.count_eq_countP, List.countP_map, ← List.countP_eq_length_filter]
  rfl

/-- A change that names the same slots and keeps the counts and the states. -/
theorem SlotsKept.of_same {s t : State}
    (lib : ∀ i : Fin 16, t.lib.slots[i].state = s.lib.slots[i].state
      ∧ t.lib.slots[i].inUse = s.lib.slots[i].inUse := by simp)
    (entries : t.ord.entries.map (·.profile) = s.ord.entries.map (·.profile) := by simp)
    (panels : t.ord.panels.map (·.profile) = s.ord.panels.map (·.profile) := by simp) :
    SlotsKept V s t := by
  have hu : ∀ i, slotUses t i = slotUses s i := fun i => by
    rw [slotUses_eq, slotUses_eq, entries, panels]
  refine fun h => ⟨fun i => ?_, fun i => (lib i).1⟩
  rw [(lib i).2, hu]
  exact h i

theorem NamedWithin.panel {s : State} (h : NamedWithin V s) {p : Panel} (hp : p ∈ s.ord.panels) :
    V p.profile := by
  refine (h p.profile).2 ?_
  have : 0 < (s.ord.panels.map (·.profile)).count p.profile :=
    List.count_pos_iff.mpr (List.mem_map_of_mem hp)
  rw [slotUses_eq]
  omega

theorem NamedWithin.entry {s : State} (h : NamedWithin V s) {e : Entry} (he : e ∈ s.ord.entries) :
    V e.profile := by
  refine (h e.profile).2 ?_
  have : 0 < (s.ord.entries.map (·.profile)).count e.profile :=
    List.count_pos_iff.mpr (List.mem_map_of_mem he)
  rw [slotUses_eq]
  omega

/-! ## A name comes or goes -/

theorem updSlot_state {i : Fin 16} {f : Slot → Slot} (hf : ∀ c, (f c).state = c.state) {s t : State}
    (hl : t.lib = s.lib) (j : Fin 16) :
    (updSlot i f t).lib.slots[j].state = s.lib.slots[j].state := by
  by_cases hj : i = j
  · subst hj; rw [slots_updSlot_same, hf, hl]
  · rw [slots_updSlot_other hj, hl]

/-- One more entry or record names slot `i`, and its count rises. -/
theorem useSlot_slots {s t : State} {i : Fin 16} (hV : V i) (hl : t.lib = s.lib)
    (hu : ∀ j, slotUses t j = slotUses s j + if i = j then 1 else 0) : SlotsKept V s (useSlot i t) := by
  refine fun h => ⟨fun j => ?_, updSlot_state (by intro; rfl) hl⟩
  have e : slotUses (useSlot i t) j = slotUses t j := Eq.refl _
  rw [e, hu]
  by_cases hj : i = j
  · subst hj
    rw [useSlot, slots_updSlot_same, hl]
    exact ⟨by simpa using (h i).1, fun _ => hV⟩
  · rw [useSlot, slots_updSlot_other hj, hl, if_neg hj]
    exact h j

/-- One entry or record less names slot `i`, and its count falls. -/
theorem releaseSlot_slots {s t : State} {i : Fin 16} (hl : t.lib = s.lib)
    (hu : ∀ j, slotUses s j = slotUses t j + if i = j then 1 else 0) :
    SlotsKept V s (releaseSlot i t) := by
  refine fun h => ⟨fun j => ?_, updSlot_state (by intro; rfl) hl⟩
  have e : slotUses (releaseSlot i t) j = slotUses t j := Eq.refl _
  obtain ⟨h1, h2⟩ := h j
  rw [hu] at h1 h2
  rw [e]
  by_cases hj : i = j
  · subst hj
    rw [releaseSlot, slots_updSlot_same, hl]
    rw [if_pos (Eq.refl _)] at h1 h2
    exact ⟨by dsimp only; omega, fun _ => h2 (by omega)⟩
  · rw [releaseSlot, slots_updSlot_other hj, hl]
    rw [if_neg hj, Nat.add_zero] at h1 h2
    exact ⟨h1, h2⟩

/-- A slot's trim changes. -/
theorem setTrim_slots (i : Fin 16) (v : Int) (s : State) : SlotsKept V s (setTrim i v s) := by
  refine .of_same (fun j => ?_)
  by_cases hj : i = j
  · subst hj; rw [setTrim, slots_updSlot_same]; exact ⟨Eq.refl _, Eq.refl _⟩
  · rw [setTrim, slots_updSlot_other hj]; exact ⟨Eq.refl _, Eq.refl _⟩

end Relation

/-! ## Orders, entries and records -/

section Orders

variable {V : Fin 16 → Prop}

theorem mapPanels_slots {f : Panel → Panel} (s : State)
    (h : ∀ p, (f p).profile = p.profile := by intro; rfl) :
    SlotsKept V s (mapPanels f s) := .of_same (panels := by simp [h])

theorem updPanel_slots (n : Half) {f : Panel → Panel} (s : State)
    (h : ∀ p, (f p).profile = p.profile := by intro; rfl) :
    SlotsKept V s (updPanel n f s) :=
  mapPanels_slots s fun p => by split <;> simp [h]

theorem updOrder_slots (t : Nat) (f : OpenOrder → OpenOrder) (s : State) :
    SlotsKept V s (updOrder t f s) := .of_same

theorem finishTicket_slots (n : Nat) (code : ResultCode) (d : Word) (s : State) :
    SlotsKept V s (finishTicket n code d s) := .of_same

theorem finishLong_slots (n : Nat) (code : ResultCode) (d : Word) (s : State) :
    SlotsKept V s (finishLong n code d s) := .of_same

theorem finishIfSettled_slots (t : Nat) (s : State) : SlotsKept V s (finishIfSettled t s) := by
  unfold finishIfSettled
  split
  · exact .rfl s
  · exact .ite (fun _ => .rfl s) fun _ => .of_same

theorem writeCancelled_slots (t : Nat) (ks : List Nat) (s : State) :
    SlotsKept V s (writeCancelled t ks s) := .of_same

theorem appendEntry_slots {e : Entry} (hV : V e.profile) (s : State) :
    SlotsKept V s (appendEntry e s) := by
  refine useSlot_slots hV (Eq.refl _) fun j => ?_
  simp only [slotUses_eq, setEntries_ord_entries, setEntries_ord_keeps, List.map_append,
    List.count_append, List.map_cons, List.map_nil, List.count_singleton, beq_iff_eq]
  omega

theorem insertFront_slots {e : Entry} (hV : V e.profile) (s : State) :
    SlotsKept V s (insertFront e s) := by
  refine useSlot_slots hV (Eq.refl _) fun j => ?_
  simp only [slotUses_eq, setEntries_ord_entries, setEntries_ord_keeps, List.map_cons,
    List.count_cons, beq_iff_eq]
  omega

/-- Taking out the first element that a search finds takes one name away. -/
theorem count_map_eraseP {α : Type} (f : α → Fin 16) {p : α → Bool} {l : List α} {a : α}
    (h : l.find? p = some a) (j : Fin 16) :
    (l.map f).count j = ((l.eraseP p).map f).count j + if f a = j then 1 else 0 := by
  induction l with
  | nil => cases h
  | cons b l ih =>
    by_cases hb : p b = true
    · rw [List.find?_cons_of_pos hb] at h
      cases h
      rw [List.eraseP_cons_of_pos hb, List.map_cons, List.count_cons]
      simp
    · rw [List.find?_cons_of_neg hb] at h
      rw [List.eraseP_cons_of_neg hb, List.map_cons, List.map_cons, List.count_cons, List.count_cons,
        ih h]
      omega

theorem dropEntry_slots (t : Nat) (s : State) : SlotsKept V s (dropEntry t s) := by
  unfold dropEntry
  split
  · exact .rfl s
  · next e he =>
    refine releaseSlot_slots (Eq.refl _) fun j => ?_
    have := count_map_eraseP (·.profile) he j
    simp only [slotUses_eq, setEntries_ord_entries, setEntries_ord_keeps, entriesWithout]
    omega

theorem removePanel_slots (n : Half) (s : State) : SlotsKept V s (removePanel n s) := by
  unfold removePanel
  split
  · exact .rfl s
  · next p hp =>
    refine releaseSlot_slots (Eq.refl _) fun j => ?_
    have := count_map_eraseP (·.profile) hp j
    simp only [slotUses_eq]
    omega

theorem createPanel_entries (p : Panel) (s : State) :
    (createPanel p s).ord.entries = s.ord.entries := rfl

theorem createPanel_slots {p : Panel} (hV : V p.profile) (s : State) :
    SlotsKept V s (createPanel p s) := by
  refine useSlot_slots hV (Eq.refl _) fun j => ?_
  simp only [slotUses_eq, List.map_append, List.count_append, List.map_cons, List.map_nil,
    List.count_singleton, beq_iff_eq]
  omega

theorem setEndMark_slots (m : Option Word) (s : State) : SlotsKept V s (setEndMark m s) := .of_same

theorem send_slots (m : Message) (s : State) : SlotsKept V s (send m s) := .of_same

/-- A print start takes a copy from the front entry, whose slot is in use: the record names it as well,
and an entry with nothing left gives its name up (R64). -/
theorem startPrintOf_slots {e : Entry} {rest : List Entry} (o : OpenOrder) {s : State}
    (he : s.ord.entries = e :: rest) : SlotsKept V s (startPrintOf e rest o s) := by
  have hp : (Entry.taken e).profile = e.profile := by unfold Entry.taken; split <;> rfl
  refine .of_named fun h => ?_
  have h1 : SlotsKept V s (setEntries (e.taken :: rest) s) := .of_same (entries := by simp [he, hp])
  have h4 := ((h1.trans (createPanel_slots (p := newPanel (numberTaken s) o e s.pos.s)
    (h.entry (e := e) (by simp [he])) _)).trans (updOrder_slots o.ticket (fun o => o.setCopy e.copy fun c =>
    { c with place := .printed }) _)).trans ((setEndMark_slots (some (s.pos.s + BitVec.ofNat 32 o.length))
    _).trans (send_slots (.printStart (numberTaken s) o.length o.laneStart o.laneEnd o.tag) _))
  refine .ite (fun _ => h4.trans (releaseSlot_slots (Eq.refl _) fun j => ?_)) fun _ => h4
  simp [slotUses_eq, createPanel_entries, List.count_cons, hp]
  omega

theorem printTest_slots (s : State) : SlotsKept V s (printTest s) := by
  refine .ite (fun _ => ?_) fun _ => .rfl s
  unfold startPrint
  split
  · exact .rfl s
  · next e rest he =>
    split
    · exact .rfl s
    · exact startPrintOf_slots _ he

theorem freePanel_slots (n : Half) (s : State) : SlotsKept V s (freePanel n s) :=
  (removePanel_slots n s).trans (printTest_slots _)

theorem writeVerdictSummary_slots (p : Panel) (v : Verdict) (s : State) :
    SlotsKept V s (writeVerdictSummary p v s) := .of_same

theorem settleCopy_slots (p : Panel) (v : Verdict) (s : State) : SlotsKept V s (settleCopy p v s) :=
  (((updOrder_slots p.ticket _ s).trans (writeVerdictSummary_slots p v _)).trans
    (freePanel_slots p.number _)).trans (finishIfSettled_slots _ _)

theorem requeueCopy_slots (o : OpenOrder) {p : Panel} (hV : V p.profile) (s : State) :
    SlotsKept V s (requeueCopy o p s) := by
  unfold requeueCopy
  split
  · next e he =>
    intro h
    refine ⟨fun i => ?_, fun _ => Eq.refl _⟩
    have := count_map_eraseP (·.profile) he i
    have hu : slotUses (setEntries ({ e with retry := e.retry ++ [p.copy] } :: entriesWithout o.ticket s)
        s) i = slotUses s i := by
      simp only [slotUses_eq, setEntries_ord_entries, setEntries_ord_keeps, List.map_cons,
        List.count_cons, beq_iff_eq, entriesWithout]
      omega
    rw [hu]
    exact h i
  · exact insertFront_slots hV s

theorem faultCopy_slots {p : Panel} (hV : V p.profile) (o : OpenOrder) (s : State) :
    SlotsKept V s (faultCopy p o s) :=
  .ite (fun _ => ((updOrder_slots _ _ s).trans (writeCancelled_slots _ _ _)).trans
      (finishIfSettled_slots _ _)) fun _ =>
    .ite (fun _ => ((updOrder_slots _ _ s).trans (requeueCopy_slots o hV _)).trans (printTest_slots _))
      fun _ => (updOrder_slots _ _ s).trans (updPanel_slots p.number _)

theorem faultPrint_slots {p : Panel} (hV : V p.profile) (s : State) : SlotsKept V s (faultPrint p s) := by
  have h := updPanel_slots (V := V) p.number (f := fun p => { p with state := .void, travel := some .paper }) s
  unfold faultPrint
  split
  · exact h
  · exact h.trans (faultCopy_slots hV _ _)

end Orders

end Sys2Proof.Machine
end

