-- ==== Sys2Proof/Proofs/SlotsOps.lean ====
section
/-! PROOFS. The slots and what names them through the operations of the line mode controller and of the
dose, registration, position, check, heat and tension units. -/

-- One thread for the whole file: each waiting thread reserves its stack.
set_option Elab.async false

namespace Sys2Proof.Machine

section Blocks

variable {V : Fin 16 → Prop}

/-! ## The change of line state, alarms and re-tests -/

theorem endCondition_slots (a : Alarm) (s : State) : SlotsKept V s (endCondition a s) := .of_same

theorem markInterrupted_slots (s : State) : SlotsKept V s (markInterrupted s) :=
  mapPanels_slots s fun p => by split <;> rfl

theorem moveWrap_slots (w : WrapState) (c : WrapCommand) (s : State) : SlotsKept V s (moveWrap w c s) :=
  markInterrupted_slots { s with dose := { s.dose with
    wrap := w, command := c, watch := some (s.host.clock + 5000) } }

theorem wrapAnswer_slots (old new : LineState) (s : State) : SlotsKept V s (wrapAnswer old new s) := by
  have move : ∀ (c : Prop) [Decidable c] (w : WrapState) (k : WrapCommand),
      SlotsKept V s (if c then moveWrap w k s else s) := fun _ _ w k =>
    .ite (fun _ => moveWrap_slots w k s) fun _ => .rfl s
  exact .ite (fun _ => move _ _ _) fun _ => .ite (fun _ => move _ _ _) fun _ => .rfl s

theorem entryHead_slots (new : LineState) (cause : LineCause) (s : State) :
    SlotsKept V s (entryHead new cause s) := .of_same (by simp [entryHead]) (by simp [entryHead])
      (by simp [entryHead])

theorem entryAnswers_slots (new : LineState) (s : State) :
    SlotsKept V s (tensionAnswer new (storeAnswer new s)) := .of_same

theorem entryTail_slots (new : LineState) (s : State) : SlotsKept V s (entryTail new s) :=
  (entryAnswers_slots new s).trans (printTest_slots _)

theorem speedAnswer_slots (new : LineState) (s : State) : SlotsKept V s (speedAnswer new s) := .of_same

theorem enterState_slots (new : LineState) (cause : LineCause) (s : State) :
    SlotsKept V s (enterState new cause s) :=
  (((entryHead_slots new cause s).trans (wrapAnswer_slots _ _ _)).trans
    (speedAnswer_slots new _)).trans (entryTail_slots new _)

theorem retest_slots (s : State) : SlotsKept V s (retest s) := by
  rcases retest_cases s with e | ⟨-, -, e⟩ | ⟨-, -, e⟩
  · exact .of_eq e
  · rw [e]; exact enterState_slots _ _ s
  · rw [e]; exact enterState_slots _ _ s

theorem runRetest_slots (s : State) : SlotsKept V s (runRetest s) := by
  rcases runRetest_cases s with e | ⟨-, -, e⟩
  · exact .of_eq e
  · rw [e]; exact enterState_slots _ _ s

theorem applyRequest_slots (a : Alarm) (s : State) : SlotsKept V s (applyRequest a s) := by
  rcases applyRequest_cases a s with e | ⟨-, -, e⟩ | ⟨-, -, e⟩ | ⟨-, -, e⟩
  · exact .of_eq e
  all_goals rw [e]; exact enterState_slots _ _ s

theorem latchAlarm_slots (a : Alarm) (r : AlarmRec) (k : NoticeKind) (d1 d2 d3 : Word) (s : State) :
    SlotsKept V s (writeNotice k d1 d2 d3 (setAlarm a r s)) := .of_same

theorem raiseAlarm_slots (a : Alarm) (d1 d2 : Word) (s : State) :
    SlotsKept V s (raiseAlarm a d1 d2 s) := by
  rcases raiseAlarm_cases a d1 d2 s with ⟨-, -, e⟩ | ⟨-, e⟩
  · exact .of_eq e
  · rw [e]; exact (latchAlarm_slots _ _ _ _ _ _ s).trans (applyRequest_slots a _)

/-! ## Dose unit -/

theorem foldCell_slots (c : WrapCell) (s : State) : SlotsKept V s (foldCell c s) := by
  unfold foldCell
  split
  · exact .rfl s
  · exact updPanel_slots _ s

theorem setCells_slots (cs : List WrapCell) (s : State) : SlotsKept V s (setCells cs s) := .of_same

theorem shiftCells_slots (m : Word) (s : State) : SlotsKept V s (shiftCells m s) := by
  refine SlotsKept.trans ?_ (setCells_slots _ _)
  split
  · exact .rfl s
  · exact foldCell_slots _ s

theorem crossCells_slots (s : State) : SlotsKept V s (crossCells s) := by
  unfold crossCells
  split
  · exact .rfl s
  · exact .ite (fun _ => shiftCells_slots _ s) fun _ => .rfl s

theorem wrapReached_slots (w : WrapState) (s : State) : SlotsKept V s (wrapReached w s) := .of_same

theorem setSpeed_slots (v : Nat) (s : State) : SlotsKept V s (setSpeed v s) := .of_same

theorem wrapReport_slots (r : WrapReport) (s : State) : SlotsKept V s (wrapReport r s) := by
  unfold wrapReport
  split
  case h_1 => exact (wrapReached_slots _ s).trans (printTest_slots _)
  case h_2 => exact (wrapReached_slots _ s).trans (printTest_slots _)
  case h_3 => exact ((moveWrap_slots _ _ s).trans (setSpeed_slots _ _)).trans (printTest_slots _)
  case h_4 => exact ((moveWrap_slots _ _ s).trans (setSpeed_slots _ _)).trans (printTest_slots _)
  all_goals exact .rfl s

/-- A rewrite of the dose unit. -/
theorem setDose_slots (s : State) (u : DoseUnit) : SlotsKept V s { s with dose := u } := .of_same

theorem wrapExpiry_slots (s : State) : SlotsKept V s (wrapExpiry s) :=
  .ite (fun _ => (setDose_slots s { s.dose with watch := none }).trans (raiseAlarm_slots _ _ _ _))
    fun _ => .rfl s

theorem accumulate_slots (s : State) : SlotsKept V s (accumulate s) :=
  .ite (fun _ => (mapPanels_slots s fun p => by split <;> rfl).trans (setCells_slots _ _))
    fun _ => .rfl s

theorem governSpeed_slots (s : State) : SlotsKept V s (stepSpeed (govern s)) := .of_same

theorem starveTest_slots (s : State) : SlotsKept V s (starveTest s) :=
  .ite (fun _ => endCondition_slots _ s) fun _ => .ite (fun _ => raiseAlarm_slots _ _ _ s)
    fun _ => .rfl s

theorem doseInterval_slots (s : State) : SlotsKept V s (doseInterval s) :=
  .ite (fun _ => ((accumulate_slots s).trans (governSpeed_slots _)).trans (starveTest_slots _))
    fun _ => .rfl s

/-! ## Registration unit -/

/-- A rewrite of the registration unit. -/
theorem setReg_slots (s : State) (u : RegUnit) : SlotsKept V s { s with reg := u } := .of_same

theorem notice_slots (k : NoticeKind) (d1 d2 d3 : Word) (s : State) :
    SlotsKept V s (writeNotice k d1 d2 d3 s) := .of_same

theorem limitPairing_slots (n : Half) (o : Int) (x : Word) (s : State) :
    SlotsKept V s (limitPairing n o x s) :=
  .ite (fun _ => (updPanel_slots n s).trans (notice_slots _ _ _ _ _)) fun _ => .rfl s

theorem pairPanel_slots (n : Half) (xp : Word) (s : State) : SlotsKept V s (pairPanel n xp s) := by
  unfold pairPanel
  split
  · exact .rfl s
  · next xf q _ =>
    exact ((setReg_slots s { s.reg with queue := q }).trans (updPanel_slots n _)).trans
      (limitPairing_slots _ _ _ _)

theorem setTarget_slots (n : Half) (t : Int) (limited : Bool) (s : State) :
    SlotsKept V s (setTarget n t limited s) := by
  have hr : SlotsKept V s { s with reg := { s.reg with target := t, limited := limited } } :=
    setReg_slots s _
  exact .ite (fun _ => hr.trans (raiseAlarm_slots _ _ _ _)) fun _ => hr.trans (endCondition_slots _ _)

theorem review_slots (s : State) : SlotsKept V s (review s) := by
  refine .ite (fun _ => .rfl s) fun _ => ?_
  split
  · exact .rfl s
  · split
    · exact .rfl s
    · exact .ite (fun _ => setTarget_slots _ _ _ s) fun _ => .rfl s

theorem Panel.toStaged_profile (p : Panel) : p.toStaged.profile = p.profile := by
  unfold Panel.toStaged
  split <;> rfl

theorem setList_slots (l : List Half) (s : State) : SlotsKept V s (setList l s) := .of_same

theorem stagePanel_slots (n : Half) (s : State) : SlotsKept V s (stagePanel n s) := by
  have h := (updPanel_slots (V := V) n s Panel.toStaged_profile).trans
    (setList_slots (insertByXp (xpOf (updPanel n Panel.toStaged s)) n
      (updPanel n Panel.toStaged s).reg.list) _)
  unfold stagePanel
  dsimp only
  refine .ite (fun _ => SlotsKept.trans ?_ (review_slots _)) fun _ => ?_
  all_goals
    split
    · exact h
    · exact .ite (fun _ => h.trans (pairPanel_slots _ _ _)) fun _ => h

theorem passWindow_slots (s : State) (n : Half) : SlotsKept V s (passWindow s n) := by
  unfold passWindow
  split
  · exact .rfl s
  · exact .ite (fun _ => (updPanel_slots n s).trans (stagePanel_slots n _)) fun _ => .rfl s

theorem standIn_profile (s : State) (p : Panel) : (standIn s p).profile = p.profile := by
  unfold standIn
  split <;> rfl

theorem windowTests_slots (s : State) : SlotsKept V s (windowTests s) :=
  (mapPanels_slots s (standIn_profile s)).trans (.foldl (fun u n _ => passWindow_slots u n) _)

theorem paperMarkAt_slots (st : Stamp) (s : State) : SlotsKept V s (paperMarkAt st s) := by
  unfold paperMarkAt
  split
  · exact notice_slots _ _ _ _ s
  · exact (updPanel_slots _ s).trans (stagePanel_slots _ _)

theorem retryPanel_slots (s : State) (n : Half) : SlotsKept V s (retryPanel s n) := by
  unfold retryPanel
  split
  · exact .rfl s
  · exact .ite (fun _ => pairPanel_slots _ _ s) fun _ => .rfl s

theorem retryWaiting_slots (s : State) : SlotsKept V s (retryWaiting s) := by
  have h : SlotsKept V s (s.reg.list.foldl retryPanel s) := .foldl (fun u n _ => retryPanel_slots u n) s
  exact .ite (fun _ => h.trans (review_slots _)) fun _ => h

theorem fabricMarkAt_slots (x : Word) (s : State) : SlotsKept V s (fabricMarkAt x s) :=
  .ite (fun _ => .rfl s) fun _ => .ite
    (fun _ => (setReg_slots s { s.reg with queue := _ }).trans (retryWaiting_slots _))
    fun _ => raiseAlarm_slots _ _ _ s

theorem addStretch_slots (n : Nat) (s : State) : SlotsKept V s (addStretch n s) :=
  mapPanels_slots s fun p => by split <;> rfl

theorem finishHome_slots (s : State) : SlotsKept V s (finishHome s) := by
  unfold finishHome
  split
  · exact .rfl s
  · exact .ite (fun _ => ((setReg_slots s { s.reg with home := none }).trans
      (finishLong_slots _ _ _ _)).trans (review_slots _)) fun _ => .rfl s

theorem rollerStage_slots (s : State) : SlotsKept V s (rollerStage s) :=
  ((setReg_slots s { s.reg with position := s.reg.position + rollerMove s }).trans
    (addStretch_slots _ _)).trans (finishHome_slots _)

theorem Panel.toFabric_profile (p : Panel) : p.toFabric.profile = p.profile := by
  unfold Panel.toFabric
  split <;> rfl

theorem nipHandover_slots (i : Fin 16) (s : State) : SlotsKept V s (nipHandover i s) := .of_same

theorem nameTail_slots (n : Half) (f : Word) (s : State) : SlotsKept V s (nameTail n f s) := .of_same

theorem arrive_slots (p : Panel) (s : State) : SlotsKept V s (arrive p s) := by
  unfold arrive
  extract_lets s1 s2 s3 s4
  have h1 : SlotsKept V s s1 := updPanel_slots p.number s fun q => q.toFabric_profile
  have h3 : SlotsKept V s s3 := (h1.trans (setList_slots _ _)).trans (nipHandover_slots _ _)
  have h4 : SlotsKept V s s4 := .ite (fun _ => h3) fun _ => h3.trans (nameTail_slots _ _ _)
  exact .ite (fun _ => h4.trans (review_slots _)) fun _ => h4

theorem arrivalTest_slots (s : State) (n : Half) : SlotsKept V s (arrivalTest s n) := by
  unfold arrivalTest
  split
  · exact .rfl s
  · split
    · exact .rfl s
    · exact .ite (fun _ => arrive_slots _ s) fun _ => .rfl s

theorem pieceStage_slots (s : State) : SlotsKept V s (pieceStage s) := .of_same

theorem registrationStep_slots (c : Bool) (s : State) : SlotsKept V s (registrationStep c s) := by
  have h : SlotsKept V s (if c then rollerStage s else s) :=
    .ite (fun _ => rollerStage_slots s) fun _ => .rfl s
  exact (h.trans (.foldl (fun u n _ => arrivalTest_slots u n) _)).trans (pieceStage_slots _)

theorem takePhaseHome_slots (n : Nat) (s : State) : SlotsKept V s (takePhaseHome n s) := by
  have h := setTarget_slots (V := V) 0 0 false s
  exact .ite (fun _ => finishTicket_slots _ _ _ s) fun _ => .ite
    (fun _ => finishTicket_slots _ _ _ s) fun _ => .ite
      (fun _ => (h.trans (finishTicket_slots _ _ _ _)).trans (retest_slots _))
      fun _ => (h.trans (.of_same : SlotsKept V _ (raiseCount { setTarget 0 0 false s with
        reg := { (setTarget 0 0 false s).reg with home := some n } }))).trans (retest_slots _)

/-! ## Position unit -/

theorem storeCondition_slots (a : Alarm) (m : Int) (s : State) :
    SlotsKept V s (storeCondition a m s) :=
  .ite (fun _ => .ite (fun _ => raiseAlarm_slots _ _ _ s) fun _ => endCondition_slots _ s)
    fun _ => .rfl s

theorem storeTest_slots (s : State) : SlotsKept V s (storeTest s) :=
  (storeCondition_slots _ _ s).trans (storeCondition_slots _ _ _)

theorem fixSplices_slots (s : State) : SlotsKept V s (fixSplices s) := .of_same

theorem holdTest_slots (old new : Word) (s : State) (z : Fin 4) :
    SlotsKept V s (holdTest old new s z) := .of_same

theorem exitChanged_slots (old : Word) (tests : Bool) (s : State) :
    SlotsKept V s (exitChanged old tests s) := by
  have h := (fixSplices_slots (V := V) s).trans (windowTests_slots _)
  exact SlotsKept.trans (.ite (fun _ => h.trans (holdTest_slots _ _ _ _)) fun _ => h) (storeTest_slots _)

/-- A rewrite of the position unit. -/
theorem setPos_slots (s : State) (u : PosUnit) : SlotsKept V s { s with pos := u } := .of_same

theorem enterWarm_slots (cause : LineCause) (s : State) : SlotsKept V s (enterWarm cause s) := by
  have h := enterState_slots (V := V) .warm cause s
  exact .ite (fun _ => (h.trans (setPos_slots _ _)).trans (exitChanged_slots _ _ _)) fun _ => h

theorem unlessReverse_slots {f : State → State} {s : State} (h : SlotsKept V s (f s)) :
    SlotsKept V s (unlessReverse f s) := .ite (fun _ => .rfl s) fun _ => h

theorem armEvent_slots (src : ArmSource) (cs : List (Fin 12)) (s : State) :
    SlotsKept V s (armEvent src cs s) := .of_same

theorem seeSplice_slots (r : Splice) (s : State) : SlotsKept V s (seeSplice r s) := .of_same

theorem seeFabricMark_slots (o : Option Stamp) (s : State) : SlotsKept V s (seeFabricMark o s) :=
  unlessReverse_slots (((fabricMarkAt_slots _ s).trans (armEvent_slots _ _ _)).trans (retest_slots _))

theorem seePaperMark_slots (o : Option Stamp) (s : State) : SlotsKept V s (seePaperMark o s) :=
  unlessReverse_slots (((paperMarkAt_slots _ s).trans (armEvent_slots _ _ _)).trans (retest_slots _))

theorem seePaperSplice_slots (o : Option Stamp) (s : State) : SlotsKept V s (seePaperSplice o s) :=
  unlessReverse_slots ((seeSplice_slots _ s).trans (mapPanels_slots _ fun p => by split <;> rfl))

/-! ## Check unit -/

theorem Panel.addReading_profile (p : Panel) (d : Cmyk Half) : (p.addReading d).profile = p.profile := by
  unfold Panel.addReading
  split <;> rfl

theorem takeReading_slots (x : Word) (d : Cmyk Half) (q : Quality) (s : State) :
    SlotsKept V s (takeReading x d q s) := by
  have h : SlotsKept V s (endCondition .headLost { s with lastReading := s.host.clock }) := .of_same
  refine .ite (fun _ => h.trans ?_) fun _ => h
  unfold creditReading
  split
  · exact .rfl _
  · exact updPanel_slots _ _ fun p => p.addReading_profile d

theorem headTest_slots (s : State) : SlotsKept V s (headTest s) := by
  refine .ite (fun _ => ?_) fun _ => .rfl s
  split
  · exact .rfl s
  · exact .ite (fun _ => raiseAlarm_slots _ _ _ s) fun _ => .rfl s

theorem draw_slots (s : State) : SlotsKept V s (draw s) := .of_same

theorem tailFindings_slots (s : State) : SlotsKept V s (tailFindings s) :=
  .ite (fun _ => (mapPanels_slots s fun p => by split <;> rfl).trans (draw_slots _)) fun _ => .rfl s

theorem noteTrimLimit_slots (p : Panel) (a b : Int) (s : State) :
    SlotsKept V s (noteTrimLimit p a b s) := .of_same

theorem driftStage_slots (p : Panel) (s : State) : SlotsKept V s (driftStage p s) :=
  .ite (fun _ => (setTrim_slots _ _ s).trans (noteTrimLimit_slots _ _ _ _)) fun _ => .rfl s

theorem markCut_slots (p : Panel) (v : Verdict) (s : State) :
    SlotsKept V s (cutStage p (markStage p v s)) := .of_same

theorem verdictEvent_slots (p : Panel) (s : State) : SlotsKept V s (verdictEvent p s) :=
  (((updPanel_slots p.number s).trans (driftStage_slots p _)).trans (markCut_slots p _ _)).trans
    (settleCopy_slots p _ _)

theorem verdictOn_slots (s : State) (n : Half) : SlotsKept V s (verdictOn s n) := by
  unfold verdictOn
  split
  · exact .rfl s
  · exact verdictEvent_slots _ s

theorem verdicts_slots (s : State) : SlotsKept V s (verdicts s) :=
  .foldl (fun u n _ => verdictOn_slots u n) s

theorem takeTrimReset_slots (n : Nat) (s : State) : SlotsKept V s (takeTrimReset n s) :=
  .ite (fun _ => finishTicket_slots _ _ _ s) fun _ =>
    (setTrim_slots _ _ s).trans (finishTicket_slots _ _ _ _)

/-! ## Encoder steps -/

theorem freeTails_slots (s : State) : SlotsKept V s (freeTails s) :=
  .foldl (fun u n _ => freePanel_slots n u) s

theorem completeDose_slots (s : State) : SlotsKept V s (completeDose s) :=
  mapPanels_slots s fun p => by split <;> rfl

theorem panelStages_slots (c : Bool) (s : State) : SlotsKept V s (panelStages c s) := by
  have h : SlotsKept V s (registrationStep c (if c then crossCells s else s)) :=
    SlotsKept.trans (.ite (fun _ => crossCells_slots s) fun _ => .rfl s) (registrationStep_slots c _)
  exact ((((h.trans (completeDose_slots _)).trans (freeTails_slots _)).trans
    (tailFindings_slots _)).trans (headTest_slots _)).trans (verdicts_slots _)

theorem countDrum_slots (s : State) : SlotsKept V s (countDrum s) := .of_same

theorem leaveSplices_slots (s : State) : SlotsKept V s (leaveSplices s) := .of_same

theorem offerSteps_slots (src : ChanSource) (x : Word) (cs : List (Fin 12)) (s : State) :
    SlotsKept V s (offerSteps src x cs s) := .of_same

theorem drumForward_slots (s : State) : SlotsKept V s (drumForward s) := by
  unfold drumForward
  extract_lets held s1 s2 s3 s4
  have h1 : SlotsKept V s s1 := countDrum_slots s
  have h2 : SlotsKept V s s2 := h1.trans (offerSteps_slots _ _ _ _)
  have h3 : SlotsKept V s s3 := (h2.trans (panelStages_slots _ _)).trans (leaveSplices_slots _)
  have h4 : SlotsKept V s s4 := h3.trans (.foldl (fun u z _ => holdTest_slots _ _ u z) _)
  exact (h4.trans (offerSteps_slots _ _ _ _)).trans (retest_slots _)

theorem mem_insertByStart {p q : Panel} {l : List Panel} (h : q ∈ insertByStart p l) :
    q = p ∨ q ∈ l := by
  induction l with
  | nil => simpa [insertByStart] using h
  | cons r l ih =>
    unfold insertByStart at h
    split at h
    · rcases List.mem_cons.mp h with h | h
      · exact .inr (h ▸ List.mem_cons_self)
      · exact (ih h).imp_right (List.mem_cons_of_mem r)
    · exact List.mem_cons.mp h

/-- The prints lost at a step are of live records. -/
theorem lostPrints_mem {s : State} {p : Panel} (h : p ∈ lostPrints s) : p ∈ s.ord.panels := by
  have hf : ∀ (l acc : List Panel), p ∈ l.foldl (fun l p => insertByStart p l) acc →
      p ∈ l ∨ p ∈ acc := by
    intro l
    induction l with
    | nil => exact fun _ h => .inr h
    | cons q l ih =>
      intro acc h
      rcases ih _ h with h | h
      · exact .inl (List.mem_cons_of_mem q h)
      · exact (mem_insertByStart h).imp_left fun e : p = q => by simp [e]
  rcases hf _ _ h with h | h
  · exact (List.mem_filter.mp h).1
  · cases h

theorem losePrint_slots {p : Panel} (hV : V p.profile) (s : State) : SlotsKept V s (losePrint s p) :=
  (raiseAlarm_slots _ _ _ s).trans (faultPrint_slots hV _)

/-- The lost prints are those of live records, whose slots are in use. -/
theorem losePrints_slots (s : State) : SlotsKept V s (losePrints s) :=
  .of_named fun h => .foldl (fun u _ hp =>
    losePrint_slots (h.panel (lostPrints_mem hp)) u) s

theorem printTests_slots (s : State) : SlotsKept V s (printTests s) :=
  .ite (fun _ => printTest_slots s) fun _ => .ite (fun _ => .ite
    (fun _ => ((draw_slots s).trans (losePrints_slots _)).trans (printTest_slots _))
    fun _ => ((draw_slots s).trans (printTest_slots _)).trans (losePrints_slots _))
    fun _ => losePrints_slots s

theorem printForward_slots (s : State) : SlotsKept V s (printForward s) := by
  unfold printForward
  refine SlotsKept.trans ?_ (retest_slots _)
  refine SlotsKept.trans ?_ (storeTest_slots _)
  refine SlotsKept.trans ?_ (printTests_slots _)
  exact (setPos_slots s _).trans (offerSteps_slots _ _ _ _)

theorem printReverse_slots (s : State) : SlotsKept V s (printReverse s) :=
  ((setPos_slots s _).trans (storeTest_slots _)).trans (retest_slots _)

theorem exitForward_slots (s : State) : SlotsKept V s (exitForward s) :=
  ((setPos_slots s _).trans (exitChanged_slots _ _ _)).trans (retest_slots _)

theorem exitReverse_slots (s : State) : SlotsKept V s (exitReverse s) :=
  ((setPos_slots s _).trans (exitChanged_slots _ _ _)).trans (retest_slots _)

/-! ## Heat and tension units -/

theorem raiseZone_slots (was : Vector Zone 8) (s : State) (k : Fin 8) :
    SlotsKept V s (raiseZone was s k) :=
  .ite (fun _ => raiseAlarm_slots _ _ _ s) fun _ => .ite (fun _ => raiseAlarm_slots _ _ _ s)
    fun _ => .rfl s

theorem pairTest_slots (zs : Vector Zone 8) (s : State) : SlotsKept V s (pairTest zs s) := by
  unfold pairTest
  split
  · exact raiseAlarm_slots _ _ _ s
  · exact endCondition_slots _ s

theorem endZoneAlarms_slots (zs : Vector Zone 8) (s : State) : SlotsKept V s (endZoneAlarms zs s) :=
  .of_same

theorem zoneAlarms_slots (was : Vector Zone 8) (s : State) : SlotsKept V s (zoneAlarms was s) :=
  (SlotsKept.trans (.foldl (fun u k _ => raiseZone_slots was u k) s) (pairTest_slots _ _)).trans
    (endZoneAlarms_slots _ _)

theorem judgeZones_slots (was : Vector Zone 8) (s : State) : SlotsKept V s (judgeZones was s) :=
  .ite (fun _ => .ite
    (fun _ => ((draw_slots s).trans (zoneAlarms_slots was _)).trans (runRetest_slots _))
    fun _ => ((draw_slots s).trans (runRetest_slots _)).trans (zoneAlarms_slots was _))
    fun _ => zoneAlarms_slots was s

theorem riseZones_slots (zs : Vector Zone 8) (s : State) : SlotsKept V s (setZones zs (riseAges s)) :=
  .of_same

theorem heatStep_slots (s : State) : SlotsKept V s (heatStep s) := by
  unfold heatStep
  dsimp only
  refine .ite (fun _ => ?_) fun _ => riseZones_slots _ s
  exact ((riseZones_slots _ s).trans (judgeZones_slots _ _)).trans (retest_slots _)

theorem raiseWhen_slots {c : Prop} [Decidable c] (a : Alarm) (d1 d2 : Word) (s : State) :
    SlotsKept V s (if c then raiseAlarm a d1 d2 s else s) :=
  .ite (fun _ => raiseAlarm_slots _ _ _ s) fun _ => .rfl s

theorem reportAuto_slots (z : Fin 4) (e : Option AutoEnd) (s : State) :
    SlotsKept V s (reportAuto z e s) := .of_same

theorem reportZone_slots (z : Fin 4) (r : ZoneSample) (s : State) :
    SlotsKept V s (reportZone z r s) := by
  refine SlotsKept.trans ?_ (reportAuto_slots _ _ _)
  refine SlotsKept.trans ?_ (raiseWhen_slots _ _ _ _)
  refine SlotsKept.trans ?_ (raiseWhen_slots _ _ _ _)
  refine SlotsKept.trans ?_ (raiseWhen_slots _ _ _ _)
  exact .foldl (fun u sd _ => raiseAlarm_slots _ _ _ u) s

theorem endTensionAlarms_slots (s : State) : SlotsKept V s (endTensionAlarms s) := .of_same

theorem sampled_slots (a b c d : TensionZone) (s : State) :
    SlotsKept V s (setSampled a b c d (updateHeld s)) := .of_same

theorem tensionStep_slots (a b c d : RawPair) (s : State) : SlotsKept V s (tensionStep a b c d s) := by
  unfold tensionStep
  dsimp only
  refine SlotsKept.trans ?_ (retest_slots _)
  refine SlotsKept.trans ?_ (endTensionAlarms_slots _)
  refine SlotsKept.trans ?_ (reportZone_slots _ _ _)
  refine SlotsKept.trans ?_ (reportZone_slots _ _ _)
  refine SlotsKept.trans ?_ (reportZone_slots _ _ _)
  exact (sampled_slots _ _ _ _ s).trans (reportZone_slots _ _ _)

end Blocks

end Sys2Proof.Machine
end

