-- ==== Sys2Proof/Proofs/SlotsInUse.lean ====
section
/-! PROOFS. What every command writes of exchange memory, and the slots in use through every command:
the ticket rows, the keys, the ports, line reset, the walker's take and the host's writes (R22, R32). -/

-- One thread for the whole file: each waiting thread reserves its stack.
set_option Elab.async false

namespace Sys2Proof.Machine

section Commands

variable {V : Fin 16 → Prop}

/-! ## Tickets and keys -/

theorem cancelOrder_slots (o : OpenOrder) (s : State) : SlotsKept V s (cancelOrder o s) :=
  ((updOrder_slots _ _ s).trans (dropEntry_slots _ _)).trans (writeCancelled_slots _ _ _)

theorem takeCancelPanels_slots (n : Nat) (s : State) : SlotsKept V s (takeCancelPanels n s) := by
  refine .ite (fun _ => finishTicket_slots _ _ _ s) fun _ => ?_
  split
  · exact finishTicket_slots _ _ _ s
  · exact (((cancelOrder_slots _ s).trans (finishTicket_slots _ _ _ _)).trans
      (finishIfSettled_slots _ _)).trans (printTest_slots _)

theorem setJog_slots (j : Jog) (s : State) : SlotsKept V s (setJog j s) := .of_same

theorem lineGo_slots (t : LineState) (cause : LineCause) (s : State) :
    SlotsKept V s (lineGo t cause s) := by
  refine .ite (fun _ => .rfl s) fun _ => ?_
  cases t
  case cold => exact (enterState_slots _ _ s).trans (setJog_slots _ _)
  case warm => exact (enterWarm_slots _ s).trans (retest_slots _)
  case run => exact enterState_slots _ _ s
  case hold => exact enterState_slots _ _ s
  all_goals exact .rfl s

theorem takeLineCommand_slots (n : Nat) (s : State) : SlotsKept V s (takeLineCommand n s) := by
  unfold takeLineCommand
  split
  · exact finishTicket_slots _ _ _ s
  · exact .ite (fun _ => finishTicket_slots _ _ _ s) fun _ => .ite
      (fun _ => finishTicket_slots _ _ _ s) fun _ =>
      (lineGo_slots _ _ s).trans (finishTicket_slots _ _ _ _)

theorem dropLatches_slots (set : Byte) (l : List Alarm) (s : State) :
    SlotsKept V s (l.foldl (clearLatch set) s) := .foldl (fun _ _ _ => .of_same) s

theorem clearSections_slots (set : Byte) (s : State) : SlotsKept V s (clearSections set s) :=
  ((dropLatches_slots set _ s).trans (.ite (fun _ => enterState_slots _ _ _) fun _ => .rfl _)).trans
    (retest_slots _)

theorem putBytes_slots (a : Nat) (l : List Byte) (s : State) : SlotsKept V s (putBytes a l s) := .of_same

theorem takeSectionClear_slots (n : Nat) (s : State) : SlotsKept V s (takeSectionClear n s) :=
  .ite (fun _ => finishTicket_slots _ _ _ s) fun _ =>
    ((clearSections_slots _ s).trans (putBytes_slots _ _ _)).trans (finishTicket_slots _ _ _ _)

theorem lightLocked_slots (s : State) : SlotsKept V s (lightLocked s) := .of_same

theorem keyStop_slots (s : State) : SlotsKept V s (keyStop s) := by
  unfold keyStop
  split
  · exact enterState_slots _ _ s
  · exact setJog_slots _ s
  all_goals exact .rfl s

theorem keyLine_slots (t : LineState) (s : State) : SlotsKept V s (keyLine t s) :=
  .ite (fun _ => lineGo_slots _ _ s) fun _ => lightLocked_slots s

theorem keyThread_slots (s : State) : SlotsKept V s (keyThread s) := by
  refine .ite (fun _ => ?_) fun _ => lightLocked_slots s
  split
  · exact enterState_slots _ _ s
  · exact enterState_slots _ _ s
  · exact enterState_slots _ _ s
  · exact .ite (fun _ => (enterWarm_slots _ s).trans (retest_slots _)) fun _ => enterState_slots _ _ s
  all_goals exact lightLocked_slots s

/-! ## Ports -/

/-- A rewrite of the line mode controller. -/
theorem setLine_slots (s : State) (l : LineUnit) : SlotsKept V s { s with line := l } := .of_same

theorem openChain_slots (s : State) : SlotsKept V s (openChain s) :=
  (setLine_slots s _).trans (raiseAlarm_slots _ _ _ _)

theorem keepDriveStatus_slots (d : DriveStatus) (s : State) : SlotsKept V s (keepDriveStatus d s) := by
  have h := setLine_slots (V := V) s { s.line with drive := d }
  unfold keepDriveStatus
  split
  · exact h.trans (endCondition_slots _ _)
  · exact h.trans (raiseAlarm_slots _ _ _ _)

theorem linkUp_slots (s : State) : SlotsKept V s (linkUp s) := .of_same

theorem statusFrame_slots (w : WrapReport) (ph : Word) (d : DriveStatus) (s : State) :
    SlotsKept V s (statusFrame w ph d s) := by
  refine SlotsKept.trans ?_ (linkUp_slots _)
  refine SlotsKept.trans ?_ (keepDriveStatus_slots d _)
  exact ((setLine_slots s _).trans (wrapReport_slots w _)).trans (setReg_slots _ _)

theorem loseLink_slots (s : State) : SlotsKept V s (loseLink s) :=
  .ite (fun _ => (setLine_slots s _).trans (raiseAlarm_slots _ _ _ _)) fun _ => .rfl s

/-- A print fault is that of a live record, whose slot is in use. -/
theorem printAnswer_slots (n : Half) (r : PrintResult) (s : State) : SlotsKept V s (printAnswer n r s) := by
  unfold printAnswer
  split
  · exact .rfl s
  · next p hp =>
    refine .ite (fun _ => ?_) fun _ => .rfl s
    cases r
    · exact updPanel_slots _ s
    · exact .of_named fun h => faultPrint_slots (h.panel (List.mem_of_find?_eq_some hp)) s

theorem engineReport_slots (v : EngineState) (s : State) : SlotsKept V s (engineReport v s) := by
  refine SlotsKept.trans ?_ (retest_slots _)
  refine SlotsKept.trans ?_ (printTest_slots _)
  cases v <;> exact .of_same

/-! ## Line reset -/

theorem emptyOrders_named (s : State) : NamedWithin V (emptyOrders s) := by
  intro i
  have hu : slotUses (emptyOrders s) i = 0 := rfl
  rw [hu]
  simp [emptyOrders]

theorem emptyOrders_slots (s : State) : SlotsKept V s (emptyOrders s) :=
  fun _ => ⟨emptyOrders_named s, fun i => by simp [emptyOrders]⟩

theorem orderReset_slots (s : State) : SlotsKept V s (orderReset s) := by
  have h : SlotsKept V s (s.ord.orders.foldl resetOrder s) :=
    .foldl (fun u o _ => (writeCancelled_slots _ _ u).trans (finishLong_slots _ _ _ _)) s
  exact (((h.trans (emptyOrders_slots _)).trans (endCondition_slots _ _)).trans
    (endCondition_slots _ _)).trans (endCondition_slots _ _)

theorem regTensReset_slots (s : State) : SlotsKept V s (regReset (tensReset s)) := .of_same

theorem unitsReset_slots (s : State) : SlotsKept V s (checkReset (endCondition .heatStarved (resetCells
    (trigReset (setSplices [] s))))) := .of_same

theorem coldReset_slots (s : State) : SlotsKept V s (coldReset s) := by
  have h : SlotsKept V s (if s.line.state = .cold then s else enterState .cold .reset s) :=
    .ite (fun _ => .rfl s) fun _ => enterState_slots _ _ s
  exact ((h.trans (setLine_slots _ _)).trans (setJog_slots _ _)).trans (setSpeed_slots _ _)

theorem heatAuthority_slots (a : Authority) (d : Word) (s : State) :
    SlotsKept V s (setAuthority a d (heatReset s)) := .of_same

theorem renewAlarms_slots (s : State) : SlotsKept V s (renewAlarms s) := by
  have h : SlotsKept V s (Alarm.all.foldl dropLatch s) := .foldl (fun _ _ _ => .of_same) s
  exact h.trans (.foldl (fun u _ _ => .ite
    (fun _ => ((draw_slots u).trans (draw_slots _)).trans (raiseAlarm_slots _ _ _ _)) fun _ => .rfl u) _)

theorem lineReset_slots (s : State) : SlotsKept V s (lineReset s) :=
  (((((regTensReset_slots s).trans (orderReset_slots _)).trans (unitsReset_slots _)).trans
    (coldReset_slots _)).trans (heatAuthority_slots _ _ _)).trans (renewAlarms_slots _)

/-! ## Host writes and the picture -/

theorem controlWrite_slots (data : Word) (s : State) : SlotsKept V s (controlWrite data s) := by
  have h1 : SlotsKept V s (if data.getLsbD 0 then startPart s else s) :=
    .ite (fun _ => .of_same) fun _ => .rfl s
  have h2 := h1.trans (.ite (c := data.getLsbD 1 = true) (fun _ => lineReset_slots _) fun _ => .rfl _)
  exact h2.trans (.ite (fun _ => .of_same) fun _ => .rfl _)

theorem hostWrite_slots (offset data : Word) (enables : BitVec 4) (s : State) :
    SlotsKept V s (hostWrite offset data enables s) :=
  .ite (fun _ => .of_same) fun _ => .ite (fun _ => .ite (fun _ => .of_same) fun _ =>
    .ite (fun _ => .rfl s) fun _ => .ite (fun _ => controlWrite_slots data s) fun _ =>
      .ite (fun _ => .of_same) fun _ => .of_same) fun _ => .rfl s

end Commands

/-! ## The walker's take -/

/-- A property of the slots and of what names them. -/
def OfSlots (P : State → Prop) : Prop := ∀ s t : State, t.lib = s.lib → t.ord = s.ord → P s → P t

/-- A take keeps such a property where its answer does. -/
theorem OfSlots.takeLook {P : State → Prop} (hP : OfSlots P) {f : Nat → State → State}
    (hf : ∀ n u, P u → P (f n u)) {s : State} (h : P s) : P (takeLook f s) :=
  hP (f s.walker.look (claimTicket s.walker.look s)) _ (by simp [Machine.takeLook])
    (by simp [Machine.takeLook]) (hf _ _ (hP s _ (by simp) (by simp) h))

theorem OfSlots.takeOfKind {P : State → Prop} (hP : OfSlots P) {f : Nat → State → State} (k : Nat)
    (hf : ∀ n u, P u → P (f n u)) {s : State} (h : P s) : P (takeOfKind k f s) := by
  unfold Machine.takeOfKind
  split
  · exact hP.takeLook hf h
  · exact h

theorem namedWithin_ofSlots (V : Fin 16 → Prop) : OfSlots (NamedWithin V) := by
  intro s t hl ho h i
  have hu : slotUses t i = slotUses s i := by rw [slotUses, ho]; rfl
  rw [hl, hu]
  exact h i

theorem inUseExact_ofSlots : OfSlots InUseExact := by
  intro s t hl ho h i
  have hu : slotUses t i = slotUses s i := by rw [slotUses, ho]; rfl
  rw [hl, hu]
  exact h i

theorem takeOfKind_slots {V : Fin 16 → Prop} {f : Nat → State → State} (k : Nat)
    (hf : ∀ n u, SlotsKept V u (f n u)) (s : State) : SlotsKept V s (takeOfKind k f s) := by
  have hP : OfSlots fun u => NamedWithin V u ∧ ∀ i : Fin 16, u.lib.slots[i].state = s.lib.slots[i].state :=
    fun a b hl ho h => ⟨namedWithin_ofSlots V a b hl ho h.1, fun i => by rw [hl]; exact h.2 i⟩
  intro h
  refine hP.takeOfKind k (fun n u hu => ?_) ⟨h, fun _ => rfl⟩
  obtain ⟨h1, h2⟩ := hf n u hu.1
  exact ⟨h1, fun i => (h2 i).trans (hu.2 i)⟩

/-! ## The library tickets and QUEUE_PANELS -/

theorem InUseExact.named {s : State} (h : InUseExact s) :
    NamedWithin (fun i => s.lib.slots[i].state = .valid) s := fun i =>
  ⟨(h i).1, fun hu => (h i).2 (by rw [(h i).1]; exact hu)⟩

/-- Exact counts stay exact through an operation that changes no slot's state. -/
theorem SlotsKept.inUseExact {s t : State}
    (hk : SlotsKept (fun i => s.lib.slots[i].state = .valid) s t) (h : InUseExact s) : InUseExact t := by
  obtain ⟨h1, h2⟩ := hk h.named
  exact fun i => ⟨(h1 i).1, fun hu => (h2 i).trans ((h1 i).2 (by rw [← (h1 i).1]; exact hu))⟩

/-- A rewrite of a slot that keeps its in-use count. -/
theorem updSlot_named {V : Fin 16 → Prop} {i : Fin 16} {f : Slot → Slot}
    (hf : ∀ c, (f c).inUse = c.inUse) {s : State} (h : NamedWithin V s) :
    NamedWithin V (updSlot i f s) := by
  intro j
  by_cases hj : i = j
  · subst hj; rw [slots_updSlot_same, hf]; exact h i
  · rw [slots_updSlot_other hj]; exact h j

/-- A rewrite of a slot that keeps its in-use count, and leaves it VALID where it is in use. -/
theorem updSlot_inUseExact {i : Fin 16} {f : Slot → Slot} (hf : ∀ c, (f c).inUse = c.inUse) {s : State}
    (hv : 0 < s.lib.slots[i].inUse → (f s.lib.slots[i]).state = .valid) (h : InUseExact s) :
    InUseExact (updSlot i f s) := by
  intro j
  by_cases hj : i = j
  · subst hj; rw [slots_updSlot_same, hf]; exact ⟨(h i).1, hv⟩
  · rw [slots_updSlot_other hj]; exact h j

theorem finishTicket_inUseExact {s : State} (n : Nat) (code : ResultCode) (d : Word)
    (h : InUseExact s) : InUseExact (finishTicket n code d s) :=
  (finishTicket_slots n code d s).inUseExact h

/-- What each library ticket does to the slots: nothing, or a rewrite of one slot that keeps its in-use
count and leaves it VALID where it is in use. -/
theorem takeProfileCommit_cases (n : Nat) (s : State) :
    (∃ code d, takeProfileCommit n s = finishTicket n code d s)
    ∨ ∃ d, takeProfileCommit n s = finishTicket n .ok d (commitSlot (slotField s n) s) := by
  unfold takeProfileCommit
  dsimp only
  split
  · exact .inl ⟨_, _, rfl⟩
  · split
    · exact .inl ⟨_, _, rfl⟩
    · split
      · exact .inl ⟨_, _, rfl⟩
      · split
        · exact .inl ⟨_, _, rfl⟩
        · exact .inr ⟨_, rfl⟩

theorem takeProfileOpen_cases (n : Nat) (s : State) :
    (∃ code d, takeProfileOpen n s = finishTicket n code d s)
    ∨ (¬ 0 < s.lib.slots[slotField s n].inUse
      ∧ takeProfileOpen n s = finishTicket n .ok 0 (setSlotState (slotField s n) .edit s)) := by
  unfold takeProfileOpen
  dsimp only
  split
  · exact .inl ⟨_, _, rfl⟩
  · split
    · exact .inl ⟨_, _, rfl⟩
    · split
      · exact .inl ⟨_, _, rfl⟩
      · split
        · exact .inl ⟨_, _, rfl⟩
        · next h => exact .inr ⟨h, rfl⟩

theorem takeProfileClear_cases (n : Nat) (s : State) :
    (∃ code d, takeProfileClear n s = finishTicket n code d s)
    ∨ (¬ 0 < s.lib.slots[slotField s n].inUse
      ∧ takeProfileClear n s = finishTicket n .ok 0
        (updSlot (slotField s n) (fun c => { c with state := .empty, trim := 0 }) s)) := by
  unfold takeProfileClear
  dsimp only
  split
  · exact .inl ⟨_, _, rfl⟩
  · split
    · exact .inl ⟨_, _, rfl⟩
    · split
      · exact .inl ⟨_, _, rfl⟩
      · next h => exact .inr ⟨h, rfl⟩

theorem takeProfileCommit_inUseExact (n : Nat) {s : State} (h : InUseExact s) :
    InUseExact (takeProfileCommit n s) := by
  rcases takeProfileCommit_cases n s with ⟨code, d, e⟩ | ⟨d, e⟩ <;> rw [e]
  · exact finishTicket_inUseExact _ _ _ h
  · exact finishTicket_inUseExact _ _ _ (updSlot_inUseExact (by intro; rfl) (fun _ => rfl) h)

theorem takeProfileOpen_inUseExact (n : Nat) {s : State} (h : InUseExact s) :
    InUseExact (takeProfileOpen n s) := by
  rcases takeProfileOpen_cases n s with ⟨code, d, e⟩ | ⟨h0, e⟩ <;> rw [e]
  · exact finishTicket_inUseExact _ _ _ h
  · exact finishTicket_inUseExact _ _ _ (updSlot_inUseExact (by intro; rfl) (fun hu => absurd hu h0) h)

theorem takeProfileClear_inUseExact (n : Nat) {s : State} (h : InUseExact s) :
    InUseExact (takeProfileClear n s) := by
  rcases takeProfileClear_cases n s with ⟨code, d, e⟩ | ⟨h0, e⟩ <;> rw [e]
  · exact finishTicket_inUseExact _ _ _ h
  · exact finishTicket_inUseExact _ _ _ (updSlot_inUseExact (by intro; rfl) (fun hu => absurd hu h0) h)

theorem finishTicket_named {V : Fin 16 → Prop} {s : State} (n : Nat) (code : ResultCode) (d : Word)
    (h : NamedWithin V s) : NamedWithin V (finishTicket n code d s) :=
  (finishTicket_slots n code d s h).1

theorem takeProfileCommit_named {V : Fin 16 → Prop} (n : Nat) {s : State} (h : NamedWithin V s) :
    NamedWithin V (takeProfileCommit n s) := by
  rcases takeProfileCommit_cases n s with ⟨code, d, e⟩ | ⟨d, e⟩ <;> rw [e]
  · exact finishTicket_named _ _ _ h
  · exact finishTicket_named _ _ _ (updSlot_named (by intro; rfl) h)

theorem takeProfileOpen_named {V : Fin 16 → Prop} (n : Nat) {s : State} (h : NamedWithin V s) :
    NamedWithin V (takeProfileOpen n s) := by
  rcases takeProfileOpen_cases n s with ⟨code, d, e⟩ | ⟨-, e⟩ <;> rw [e]
  · exact finishTicket_named _ _ _ h
  · exact finishTicket_named _ _ _ (updSlot_named (by intro; rfl) h)

theorem takeProfileClear_named {V : Fin 16 → Prop} (n : Nat) {s : State} (h : NamedWithin V s) :
    NamedWithin V (takeProfileClear n s) := by
  rcases takeProfileClear_cases n s with ⟨code, d, e⟩ | ⟨-, e⟩ <;> rw [e]
  · exact finishTicket_named _ _ _ h
  · exact finishTicket_named _ _ _ (updSlot_named (by intro; rfl) h)

/-- An order is taken of a VALID slot alone (R56). -/
theorem slot_valid_of_unrefused {s : State} {n : Nat} (h : orderRefusal s n = none) :
    s.lib.slots[slotField s n].state = .valid := by
  unfold orderRefusal at h
  split at h
  · cases h
  · by_contra hv
    rw [if_pos hv] at h
    cases h

theorem takeQueuePanels_slots {V : Fin 16 → Prop} (n : Nat) {s : State}
    (hV : s.lib.slots[slotField s n].state = .valid → V (slotField s n)) :
    SlotsKept V s (takeQueuePanels n s) := by
  unfold takeQueuePanels
  split
  · exact finishTicket_slots _ _ _ s
  · next h =>
    have h0 : SlotsKept V s { s with ord := { s.ord with orders := s.ord.orders ++ [newOrder s n] } } :=
      .of_same
    have h1 : SlotsKept V s (openOrder n s) :=
      ((h0.trans (appendEntry_slots (hV (slot_valid_of_unrefused h)) _)).trans
        (putBytes_slots _ _ _)).trans (printTest_slots _)
    exact h1.trans .of_same

theorem takeQueuePanels_inUseExact (n : Nat) {s : State} (h : InUseExact s) :
    InUseExact (takeQueuePanels n s) := (takeQueuePanels_slots n id).inUseExact h

/-- Every ticket kind keeps the counts exact. -/
theorem dispatch_inUseExact (n : Nat) {s : State} (h : InUseExact s) : InUseExact (dispatch n s) := by
  unfold dispatch
  split
  case h_7 => exact takeProfileCommit_inUseExact n h
  case h_8 => exact takeProfileOpen_inUseExact n h
  case h_9 => exact takeProfileClear_inUseExact n h
  case h_15 => exact takeQueuePanels_inUseExact n h
  all_goals refine SlotsKept.inUseExact ?_ h
  case h_2 => exact takeLineCommand_slots n s
  case h_5 => exact takeSectionClear_slots n s
  case h_16 => exact takeCancelPanels_slots n s
  case h_17 => exact takePhaseHome_slots n s
  case h_24 => exact takeTrimReset_slots n s
  case h_10 =>
    exact (show SlotsKept _ s { s with lib := { s.lib with lock := true } } from .of_same).trans
      (finishTicket_slots _ _ _ _)
  all_goals exact .of_same

theorem examine_inUseExact {s : State} (h : InUseExact s) : InUseExact (examine s) := by
  unfold examine
  split
  · exact h
  · split
    · exact inUseExact_ofSlots s _ rfl rfl h
    · split
      · exact inUseExact_ofSlots s _ (by simp) (by simp) h
      · exact inUseExact_ofSlots.takeLook (fun n _ => dispatch_inUseExact n) h

end Sys2Proof.Machine
end

