-- ==== Sys2Proof/Proofs/EveryTouch.lean ====
section
/-! PROOFS. Every command: the bytes of exchange memory that it writes and the slots that it leaves in
use (R22, R32, R163, R165, R180). -/

-- One thread for the whole file: each waiting thread reserves its stack.
set_option Elab.async false

namespace Sys2Proof.Machine

/-! ## Every command -/

/-- The commands that change a slot's state or bring a slot into use. -/
def slotCommands : List Instr :=
  [.profileCommit, .profileOpen, .profileClear, .queuePanels, .walkerExamine]

/-- What a command touches: of exchange memory the log and the tickets alone, but for a host write and a
picture; and no slot's state or name, but for `slotCommands`. -/
structure Touched (c : Instr) (s t : State) : Prop where
  bytes : c ≠ .pictureInterval → (∀ o d e, c ≠ .hostWrite o d e) → LogAndTicketsOnly s t
  slots : c ∉ slotCommands → ∀ V, SlotsKept V s t

/-- The messages that follow an effect, and those forgotten before it, touch nothing. -/
theorem Touched.announced {c : Instr} {s u : State} (a b : Bool) (h : Touched c (clearSent s) u) :
    Touched c s (announce a b s u) := by
  obtain ⟨l, e⟩ := announce_only_sent a b s u
  rw [e]
  exact ⟨fun h1 h2 x hx => h.bytes h1 h2 x hx,
    fun h1 V => (SlotsKept.of_same).trans ((h.slots h1 V).trans .of_same)⟩

/-- A command touches no more than its effect does. -/
theorem Touched.of_effect {c : Instr} {s t : State} (f : State → State) (he : exec c s = answer f s)
    (ht : exec c s = .next t) (h : ∀ u, Touched c u (f u)) : Touched c s t := by
  have e := he.symm.trans ht
  injection e with e
  exact e ▸ Touched.announced false false (h _)

/-- A command whose effect is inner and keeps the slots. -/
theorem Touched.inner {c : Instr} {s t : State} (f : State → State) (he : exec c s = answer f s)
    (ht : exec c s = .next t) (h : ∀ u, Inner u (f u)) (hs : ∀ V u, SlotsKept V u (f u)) :
    Touched c s t :=
  .of_effect f he ht fun u => ⟨fun _ _ => (h u).bytes, fun _ V => hs V u⟩

/-- A command that changes neither exchange memory nor the slots nor what names them. -/
theorem Touched.still {c : Instr} {s t : State} (f : State → State) (he : exec c s = answer f s)
    (ht : exec c s = .next t) (hm : ∀ u, (f u).mem = u.mem) (hl : ∀ u, (f u).lib = u.lib)
    (ho : ∀ u, (f u).ord = u.ord) : Touched c s t :=
  .of_effect f he ht fun u => ⟨fun _ _ => .of_mem (hm u), fun _ _ =>
    .of_same (by simp [hl]) (by simp [ho]) (by simp [ho])⟩

theorem Touched.ticket {c : Instr} {s t : State} {k : Nat} {f : Nat → State → State}
    (he : exec c s = answer (takeOfKind k f) s) (ht : exec c s = .next t) (h : ∀ n u, Inner u (f n u))
    (hs : ∀ V n u, SlotsKept V u (f n u)) : Touched c s t :=
  .inner _ he ht (takeOfKind_inner (.of h) k) fun V => takeOfKind_slots k (hs V)

theorem Touched.slotTicket {c : Instr} {s t : State} {k : Nat} {f : Nat → State → State}
    (hc : c ∈ slotCommands) (he : exec c s = answer (takeOfKind k f) s) (ht : exec c s = .next t)
    (h : ∀ n u, Inner u (f n u)) : Touched c s t :=
  .of_effect _ he ht fun u => ⟨fun _ _ => (takeOfKind_inner (.of h) k u).bytes, fun hn => absurd hc hn⟩

theorem Touched.pendant {c : Instr} {s t : State} (f : State → State)
    (he : exec c s = answerPendant f s) (ht : exec c s = .next t) (h : ∀ u, Inner u (f u))
    (hs : ∀ V u, SlotsKept V u (f u)) : Touched c s t := by
  have e := he.symm.trans ht
  injection e with e
  exact e ▸ Touched.announced false _ ⟨fun _ _ => ((pendantMessage_inner _).trans (h _)).bytes,
    fun _ V => (SlotsKept.of_same).trans (hs V _)⟩

theorem exec_touched {c : Instr} (hc : c ≠ .powerOnReset) {s t : State} (ht : exec c s = .next t) :
    Touched c s t := by
  cases c
  case powerOnReset => exact absurd rfl hc
  case start => exact .still _ rfl ht (by simp) (by simp) (by simp)
  case resetLine => exact .inner _ rfl ht lineReset_inner fun _ => lineReset_slots
  case walkerRestart => exact .inner _ rfl ht restartWalker_inner fun _ _ => .of_same
  case nudge => exact .inner _ rfl ht lookAgain_inner fun _ _ => .of_same
  case attnClear => exact .still _ rfl ht (fun _ => rfl) (fun _ => rfl) fun _ => rfl
  case attnMaskWrite => exact .still _ rfl ht (fun _ => rfl) (fun _ => rfl) fun _ => rfl
  case registerWriteIgnored => exact .still _ rfl ht (fun _ => rfl) (fun _ => rfl) fun _ => rfl
  case hostWrite o d e =>
    exact .of_effect _ rfl ht fun u => ⟨fun _ h => absurd rfl (h o d e), fun _ _ => hostWrite_slots o d e u⟩
  case walkerExamine =>
    exact .of_effect _ rfl ht fun u => ⟨fun _ _ => (examine_inner u).bytes, fun h => absurd (by decide) h⟩
  case nop => exact .ticket rfl ht (fun n u => finishTicket_inner n _ _ u) fun _ n u => finishTicket_slots n _ _ u
  case badKind => exact .inner _ rfl ht takeUnknown_inner fun _ _ => .of_same
  case lineCommand =>
    exact .inner _ rfl ht (takeOfKind_inner (fun n _ h => takeLineCommand_inner n (.inr h)) _)
      fun _ => takeOfKind_slots _ takeLineCommand_slots
  case authority => exact .ticket rfl ht takeAuthority_inner fun _ _ _ => .of_same
  case speedClass => exact .ticket rfl ht takeSpeedClass_inner fun _ _ _ => .of_same
  case sectionClear => exact .ticket rfl ht takeSectionClear_inner fun _ => takeSectionClear_slots
  case fabricLoaded => exact .ticket rfl ht takeFabricLoaded_inner fun _ _ _ => .of_same
  case profileCommit => exact .slotTicket (by decide) rfl ht takeProfileCommit_inner
  case profileOpen => exact .slotTicket (by decide) rfl ht takeProfileOpen_inner
  case profileClear => exact .slotTicket (by decide) rfl ht takeProfileClear_inner
  case libraryLock =>
    exact .ticket rfl ht takeLibraryLock_inner fun _ n u => .of_same (by simp [takeLibraryLock])
  case triggerSet => exact .ticket rfl ht takeTriggerSet_inner fun _ _ _ => .of_same
  case triggerGroup => exact .ticket rfl ht takeTriggerGroup_inner fun _ _ _ => .of_same
  case triggerCorrect => exact .ticket rfl ht takeTriggerCorrect_inner fun _ _ _ => .of_same
  case outputSet => exact .ticket rfl ht takeOutputSet_inner fun _ _ _ => .of_same
  case queuePanels => exact .slotTicket (by decide) rfl ht takeQueuePanels_inner
  case cancelPanels => exact .ticket rfl ht takeCancelPanels_inner fun _ => takeCancelPanels_slots
  case phaseHome => exact .ticket rfl ht takePhaseHome_inner fun _ => takePhaseHome_slots
  case heatSetpoint => exact .ticket rfl ht takeHeatSetpoint_inner fun _ _ _ => .of_same
  case heatTune => exact .ticket rfl ht takeHeatTune_inner fun _ _ _ => .of_same
  case scanList => exact .ticket rfl ht takeScanList_inner fun _ _ _ => .of_same
  case tensionTune => exact .ticket rfl ht takeTensionTune_inner fun _ _ _ => .of_same
  case tensionMix => exact .ticket rfl ht takeTensionMix_inner fun _ _ _ => .of_same
  case autoZero => exact .ticket rfl ht takeAutoZero_inner fun _ _ _ => .of_same
  case trimReset => exact .ticket rfl ht takeTrimReset_inner fun _ => takeTrimReset_slots
  case keyTake => exact .pendant _ rfl ht keyTake_inner fun _ _ => .of_same
  case keyGive => exact .pendant _ rfl ht keyGive_inner fun _ _ => .of_same
  case keyKeep => exact .pendant _ rfl ht keyKeep_inner fun _ _ => .of_same
  case keyStop => exact .pendant _ rfl ht keyStop_inner fun _ => keyStop_slots
  case keyRun => exact .pendant _ rfl ht (keyLine_inner _) fun _ => keyLine_slots _
  case keyHold => exact .pendant _ rfl ht (keyLine_inner _) fun _ => keyLine_slots _
  case keyWarm => exact .pendant _ rfl ht (keyLine_inner _) fun _ => keyLine_slots _
  case keyCold => exact .pendant _ rfl ht (keyLine_inner _) fun _ => keyLine_slots _
  case keyThread => exact .pendant _ rfl ht keyThread_inner fun _ => keyThread_slots
  case keyJogFwd => exact .pendant _ rfl ht (keyJog_inner _) fun _ _ => .of_same
  case keyJogRev => exact .pendant _ rfl ht (keyJog_inner _) fun _ _ => .of_same
  case keyUp k => exact .pendant _ rfl ht (keyRelease_inner k) fun _ _ => .of_same
  case alive => exact .pendant _ rfl ht .rfl fun _ => .rfl
  case lockedLampExpiry => exact .inner _ rfl ht expireLamp_inner fun _ _ => .of_same
  case pendantSilent => exact .inner _ rfl ht fallSilent_inner fun _ _ => .of_same
  case estopOpen => exact .inner _ rfl ht openChain_inner fun _ => openChain_slots
  case estopClose => exact .inner _ rfl ht closeChain_inner fun _ _ => .of_same
  case statusFrame w p d =>
    have e : exec (.statusFrame w p d) s = answerStatus (statusFrame w p d) s := rfl
    have e := e.symm.trans ht
    injection e with e
    exact e ▸ Touched.announced _ false ⟨fun _ _ => (statusFrame_inner w p d _).bytes,
      fun _ _ => statusFrame_slots w p d _⟩
  case driveLinkWatchExpiry => exact .inner _ rfl ht loseLink_inner fun _ => loseLink_slots
  case commandFrame =>
    have e : exec .commandFrame s = .next (announce true false s (clearSent s)) := rfl
    have e := e.symm.trans ht
    injection e with e
    exact e ▸ Touched.announced true false ⟨fun _ _ => .rfl _ _, fun _ _ => .rfl _⟩
  case printDone n r => exact .inner _ rfl ht (printAnswer_inner n r) fun _ => printAnswer_slots n r
  case engineState v => exact .inner _ rfl ht (engineReport_inner v) fun _ => engineReport_slots v
  case reading x d q => exact .inner _ rfl ht (takeReading_inner x d q) fun _ => takeReading_slots x d q
  case fabricMark o => exact .inner _ rfl ht (seeFabricMark_inner o) fun _ => seeFabricMark_slots o
  case paperMark o => exact .inner _ rfl ht (seePaperMark_inner o) fun _ => seePaperMark_slots o
  case fabricSplice o => exact .inner _ rfl ht (seeFabricSplice_inner o) fun _ _ => .of_same
  case paperSplice o => exact .inner _ rfl ht (seePaperSplice_inner o) fun _ => seePaperSplice_slots o
  case drumStep d =>
    cases d
    · exact .inner _ rfl ht drumForward_inner fun _ => drumForward_slots
    · exact .inner _ rfl ht drumReverse_inner fun _ _ => .of_same
  case printStep d =>
    cases d
    · exact .inner _ rfl ht printForward_inner fun _ => printForward_slots
    · exact .inner _ rfl ht printReverse_inner fun _ => printReverse_slots
  case storeExitStep d =>
    cases d
    · exact .inner _ rfl ht exitForward_inner fun _ => exitForward_slots
    · exact .inner _ rfl ht exitReverse_inner fun _ => exitReverse_slots
  case triggerFire c => exact .inner _ rfl ht (fireAhead_inner c) fun _ _ => .of_same
  case latchPulseEnd i => exact .inner _ rfl ht (endPulse_inner i) fun _ _ => .of_same
  case wrapTimeout => exact .inner _ rfl ht wrapExpiry_inner fun _ => wrapExpiry_slots
  case doseInterval => exact .inner _ rfl ht doseInterval_inner fun _ => doseInterval_slots
  case heatInterval => exact .inner _ rfl ht heatStep_inner fun _ => heatStep_slots
  case heaterWindow => exact .inner _ rfl ht windowStep_inner fun _ _ => .of_same
  case heaterOnEnd k => exact .inner _ rfl ht (heaterEnd_inner k) fun _ _ => .of_same
  case scannerConversion r => exact .inner _ rfl ht (convert_inner r) fun _ _ => .of_same
  case tensionSample a b c d =>
    exact .inner _ rfl ht (tensionStep_inner a b c d) fun _ => tensionStep_slots a b c d
  case chainLook => exact .inner _ rfl ht chainLook_inner fun _ _ => .of_same
  case pictureInterval =>
    exact .of_effect _ rfl ht fun u => ⟨fun h => absurd rfl h, fun _ _ => .of_same⟩
  case lineClock => exact .still _ rfl ht (fun _ => rfl) (fun _ => rfl) fun _ => rfl

/-! ## Host writes and the picture at a slot -/

/-- A word of a VALID slot is guarded (R22). -/
theorem guarded_of_valid {s : State} {a : Nat} {i : Fin 16} (h1 : 0x3000 ≤ a) (h2 : a < 0x5000)
    (hi : slotAt a = i) (hv : s.lib.slots[i].state = .valid) : guarded s a = true := by
  subst hi
  unfold guarded
  rw [if_neg (by omega), if_neg (by omega), if_pos h2, profileGuarded, hv]
  rfl

theorem storeWord_bytes (a : Nat) (data : Word) (enables : BitVec 4) (s : State) :
    BytesKept (fun x => a ≤ x ∧ x < a + 4) s (storeWord a data enables s) := by
  have h : ∀ (l : List Nat) (u : State), (∀ k ∈ l, k < 4) →
      BytesKept (fun x => a ≤ x ∧ x < a + 4) u (l.foldl (storeLane a data enables) u) := by
    intro l
    induction l with
    | nil => exact fun u _ => .rfl _ u
    | cons k l ih =>
      intro u hl
      have hk := hl k List.mem_cons_self
      refine BytesKept.trans (t := storeLane a data enables u k) ?_
        (ih _ fun j hj => hl j (List.mem_cons_of_mem k hj))
      unfold storeLane
      split
      · exact BytesKept.putBytes _ _ u fun x h1 h2 => by simp at h2; omega
      · exact .rfl _ u
  exact h [0, 1, 2, 3] s (by simp)

/-- The address of a byte of a slot. -/
theorem slotAt_word {i : Fin 16} {k a : Nat} (hk : k < 512) (h4 : a % 4 = 0)
    (h : a ≤ profileBase i + k ∧ profileBase i + k < a + 4) : slotAt a = i := by
  unfold profileBase at h
  apply Fin.ext
  simp only [slotAt, Fin.ofNat]
  omega

/-- A host write changes no byte of a VALID slot, but by a request that touches the log and the tickets
(R22, R164). -/
theorem hostWrite_slotBytes (o d : Word) (e : BitVec 4) (s : State) {i : Fin 16} {k : Nat}
    (hv : s.lib.slots[i].state = .valid) (hk : k < 512) :
    Memory.get (hostWrite o d e s).mem (profileBase i + k) = Memory.get s.mem (profileBase i + k) := by
  have hr : 0x3000 ≤ profileBase i + k ∧ profileBase i + k < 0x5000 := by unfold profileBase; omega
  have low : ∀ t : State, LogAndTicketsOnly s t →
      Memory.get t.mem (profileBase i + k) = Memory.get s.mem (profileBase i + k) := fun t h =>
    h _ (by unfold logBytes ticketBytes; omega)
  unfold hostWrite
  have h4 : (o.toNat - o.toNat % 4) % 4 = 0 := by omega
  generalize o.toNat - o.toNat % 4 = a at h4
  dsimp only
  split
  · unfold memoryWrite
    split
    · simp
    · next hg =>
      refine storeWord_bytes a d e s _ fun hx => hg ?_
      exact guarded_of_valid (by unfold profileBase at hr hx; omega) (by omega) (slotAt_word hk h4 hx) hv
  · split
    · refine low _ ?_
      unfold registerWrite
      split
      · exact (lookAgain_inner s).bytes
      · split
        · exact .rfl _ s
        · split
          · have h1 : LogAndTicketsOnly s (if d.getLsbD 0 then startPart s else s) := by
              split
              · exact .of_mem (by simp)
              · exact .rfl _ s
            have h2 : ∀ u, Inner u (if d.getLsbD 1 then lineReset u else u) := fun u =>
              .ite (fun _ => lineReset_inner u) fun _ => .rfl u
            have h3 : ∀ u, Inner u (if d.getLsbD 2 then restartWalker u else u) := fun u =>
              .ite (fun _ => restartWalker_inner u) fun _ => .rfl u
            exact h1.trans ((h2 _).trans (h3 _)).bytes
          · split <;> exact .rfl _ s
    · rfl

theorem natHalf_length (n : Nat) : (natHalf n).length = 2 := rfl

theorem zonePicture_length (s : State) (k : Fin 8) : (zonePicture s k).length = 8 := rfl

theorem tensionPicture_length (t : TensionZone) : (tensionPicture t).length = 6 := rfl

theorem length_flatMap_const {α : Type} {f : α → List Byte} {n : Nat} (h : ∀ a, (f a).length = n)
    (l : List α) : (l.flatMap f).length = n * l.length := by
  simp [List.length_flatMap, h, Nat.mul_comm]

theorem pictureFields_length (s : State) : (pictureFields s).length = 144 := by
  simp only [pictureFields, List.length_append, length_flatMap_const (zonePicture_length s),
    length_flatMap_const tensionPicture_length, length_flatMap_const (fun st =>
      natHalf_length (panelCount s st))]
  simp [natHalf, intHalf, halfBytes, wordBytes, drumZones]

theorem pictureStep_bytes (s : State) :
    BytesKept (fun a => 0x400 ≤ a ∧ a < 0x600) s (pictureStep s) := by
  have h : BytesKept (fun a => 0x400 ≤ a ∧ a < 0x600) s
      (putBytes 0x400 (wordBytes (pictureCount s + 2) ++ pictureFields s) s) := by
    refine .putBytes _ _ s fun x h1 h2 => ⟨h1, ?_⟩
    rw [List.length_append, pictureFields_length] at h2
    have : (wordBytes (pictureCount s + 2)).length = 4 := rfl
    omega
  refine h.trans ?_
  rw [pictureStep, remind]
  exact .of_mem (by split <;> simp)

/-- The bytes of a slot in use stand through every command but power-on reset (R22, R32). -/
theorem exec_slotBytes {c : Instr} {s t : State} (hc : c ≠ .powerOnReset) (ht : exec c s = .next t)
    {i : Fin 16} {k : Nat} (hv : s.lib.slots[i].state = .valid) (hk : k < 512) :
    Memory.get t.mem (profileBase i + k) = Memory.get s.mem (profileBase i + k) := by
  have hr : 0x3000 ≤ profileBase i + k ∧ profileBase i + k < 0x5000 := by unfold profileBase; omega
  have effect : ∀ f : State → State, exec c s = answer f s →
      t.mem = (f (clearSent s)).mem := fun f he => by
    have e := he.symm.trans ht
    injection e with e
    obtain ⟨l, el⟩ := announce_only_sent false false s (f (clearSent s))
    rw [← e, el]
  by_cases hw : ∃ o d e, c = .hostWrite o d e
  · obtain ⟨o, d, e, rfl⟩ := hw
    rw [effect (hostWrite o d e) rfl]
    exact hostWrite_slotBytes o d e (clearSent s) hv hk
  · by_cases hp : c = .pictureInterval
    · subst hp
      rw [effect pictureStep rfl]
      exact pictureStep_bytes (clearSent s) _ (by omega)
    · exact (exec_touched hc ht).bytes hp (fun o d e h => hw ⟨o, d, e, h⟩) _
        (by unfold logBytes ticketBytes; omega)

/-! ## Power-on reset and the commands that bring a slot into use -/

theorem powerUp_named (V : Fin 16 → Prop) (s : State) : NamedWithin V (powerUp s) := by
  intro i
  have hu : slotUses (powerUp s) i = 0 := rfl
  rw [hu]
  simp [powerUp, State.reset, Library.reset]

theorem powerOn_slots (V : Fin 16 → Prop) (s : State) : SlotsKept V (powerUp s) (powerOn s) :=
  .ite (fun _ => raiseAlarm_slots _ _ _ _) fun _ => .rfl _

theorem powerOn_inUseExact (s : State) : InUseExact (powerOn s) := by
  refine (powerOn_slots _ s).inUseExact fun i => ?_
  have h := (powerUp_named (fun _ => True) s i).1
  have hu : slotUses (powerUp s) i = 0 := rfl
  exact ⟨h, fun h0 => by omega⟩

/-- A command whose effect keeps such a property keeps it, messages and all. -/
theorem OfSlots.answered {P : State → Prop} (hP : OfSlots P) {c : Instr} {s t : State}
    (f : State → State) (he : exec c s = answer f s) (ht : exec c s = .next t)
    (hf : ∀ u, P u → P (f u)) (h : P s) : P t := by
  have e := he.symm.trans ht
  injection e with e
  obtain ⟨l, el⟩ := announce_only_sent false false s (f (clearSent s))
  have hc : P (clearSent s) := hP s _ rfl rfl h
  exact hP _ _ (by rw [← e, el]) (by rw [← e, el]) (hf _ hc)

theorem exec_inUseExact {c : Instr} {s t : State} (ht : exec c s = .next t) (h : InUseExact s) :
    InUseExact t := by
  by_cases hc : c = .powerOnReset
  · subst hc
    obtain ⟨l, e⟩ := announce_only_sent false false (powerUp s) (powerOn s)
    have e' : announce false false (powerUp s) (powerOn s) = t := by injection ht
    exact inUseExact_ofSlots _ _ (by rw [← e', e]) (by rw [← e', e]) (powerOn_inUseExact s)
  · by_cases hs : c ∈ slotCommands
    · have take : ∀ {k f}, exec c s = answer (takeOfKind k f) s →
          (∀ n u, InUseExact u → InUseExact (f n u)) → InUseExact t := fun he hf =>
        inUseExact_ofSlots.answered _ he ht (fun _ => inUseExact_ofSlots.takeOfKind _ hf) h
      simp only [slotCommands, List.mem_cons, List.not_mem_nil, or_false] at hs
      rcases hs with rfl | rfl | rfl | rfl | rfl
      · exact take rfl fun n _ => takeProfileCommit_inUseExact n
      · exact take rfl fun n _ => takeProfileOpen_inUseExact n
      · exact take rfl fun n _ => takeProfileClear_inUseExact n
      · exact take rfl fun n _ => takeQueuePanels_inUseExact n
      · exact inUseExact_ofSlots.answered _ rfl ht (fun _ => examine_inUseExact) h
    · exact ((exec_touched hc ht).slots hs _).inUseExact h

/-- Only QUEUE_PANELS, and an examination that takes one, bring a slot into use. -/
theorem exec_named {c : Instr} {s t : State} (V : Fin 16 → Prop) (ht : exec c s = .next t)
    (hq : c ≠ .queuePanels) (hx : c ≠ .walkerExamine) (h : NamedWithin V s) : NamedWithin V t := by
  by_cases hc : c = .powerOnReset
  · subst hc
    obtain ⟨l, e⟩ := announce_only_sent false false (powerUp s) (powerOn s)
    have e' : announce false false (powerUp s) (powerOn s) = t := by injection ht
    exact namedWithin_ofSlots V _ _ (by rw [← e', e]) (by rw [← e', e])
      (powerOn_slots V s (powerUp_named V s)).1
  · by_cases hs : c ∈ slotCommands
    · have take : ∀ {k f}, exec c s = answer (takeOfKind k f) s →
          (∀ n u, NamedWithin V u → NamedWithin V (f n u)) → NamedWithin V t := fun he hf =>
        (namedWithin_ofSlots V).answered _ he ht (fun _ => (namedWithin_ofSlots V).takeOfKind _ hf) h
      simp only [slotCommands, List.mem_cons, List.not_mem_nil, or_false] at hs
      rcases hs with rfl | rfl | rfl | rfl | rfl
      · exact take rfl fun n _ => takeProfileCommit_named n
      · exact take rfl fun n _ => takeProfileOpen_named n
      · exact take rfl fun n _ => takeProfileClear_named n
      · exact absurd rfl hq
      · exact absurd rfl hx
    · exact ((exec_touched hc ht).slots hs V h).1

theorem step_inUseExact {s t : State} (h : step s = .next t) (hs : InUseExact s) : InUseExact t := by
  unfold step at h
  split at h
  · injection h with h
    exact h ▸ hs
  · exact exec_inUseExact h (inUseExact_ofSlots s _ rfl rfl hs)

/-! ## The tickets read alike once claimed -/

@[simp] theorem claimed_slotField (s : State) : slotField (claimed s) (look s) = slotField s (look s) := by
  unfold slotField
  rw [claimed_bodyByte s (by decide)]

@[simp] theorem claimed_orderChecks (s : State) :
    orderChecks (claimed s) (look s) = orderChecks s (look s) := by
  have h1 : orderLength (claimed s) (look s) = orderLength s (look s) := claimed_bodyHalf s (by decide)
  have h2 : orderLaneStart (claimed s) (look s) = orderLaneStart s (look s) :=
    claimed_bodyHalf s (by decide)
  have h3 : orderLaneEnd (claimed s) (look s) = orderLaneEnd s (look s) :=
    claimed_bodyHalf s (by decide)
  have h4 : orderCopies (claimed s) (look s) = orderCopies s (look s) := claimed_bodyByte s (by decide)
  simp [orderChecks, h1, h2, h3, h4]

end Sys2Proof.Machine

namespace Sys2Proof.Proofs

open Sys2Proof.Machine

/-- Settles O4: every effect reports in the log and in tickets alone. -/
theorem partWritesLogAndTicketsOnly : Obligations.PartWritesLogAndTicketsOnly :=
  fun _ _ _ ht hc hp hw => (exec_touched hc ht).bytes hp hw

/-- Settles O13: a print start, a requeue and a lost print name a slot that a live entry or record names
already, and QUEUE_PANELS a VALID one; the bytes of a VALID slot are guarded. -/
theorem slotsInUse : Obligations.SlotsInUse := by
  refine ⟨fun s t h hs => step_inUseExact hs h, fun s hk hb hl hv hu => refused_of rfl hk ?_,
    fun s hk hb hl hu => refused_of rfl hk ?_, fun s hk hf hv => refused_of rfl hk ?_,
    fun s t c i k h ht hc hu hk => exec_slotBytes hc ht ((h i).2 hu) hk, fun s t c i h ht h0 h1 => ?_⟩
  · have hb' : ¬ 15 < bodyByte s (look s) 0x20 := by omega
    simp [-Fin.getElem_fin, takeProfileOpen, hb', hl, hv, hu]
  · have hb' : ¬ 15 < bodyByte s (look s) 0x20 := by omega
    simp [-Fin.getElem_fin, takeProfileClear, hb', hl, hu]
  · have hr : orderRefusal (claimed s) (look s) = some (.profile, 0) := by
      simp [-Fin.getElem_fin, orderRefusal, hf, hv]
    simp [takeQueuePanels, hr]
  · by_contra hn
    rw [not_or] at hn
    have hs : NamedWithin (fun j => 0 < slotUses s j) s := fun j => ⟨(h j).1, id⟩
    have := (exec_named _ ht hn.1 hn.2 hs i).2 h1
    omega

end Sys2Proof.Proofs
end

