-- ==== Sys2Proof/Proofs/ProfileValidation.lean ====
section
/-! PROOFS. Validation of a profile: the checks as a list of refused fields in index order, and the
first of them (R23, R25); and the effective dose target (R36). -/

-- One thread for the whole file: each waiting thread reserves its stack.
set_option Elab.async false

namespace Sys2Proof.Machine

/-! ## The first failure of a list of checks -/

theorem firstFailure_eq_none {l : List (Nat × Bool)} :
    firstFailure l = none ↔ ∀ f, (f, false) ∉ l := by
  unfold firstFailure
  rw [Option.map_eq_none_iff, List.find?_eq_none]
  constructor
  · intro h f hf
    exact h _ hf rfl
  · rintro h ⟨f, b⟩ hm
    cases b
    · exact absurd hm (h f)
    · simp

/-- In a list of checks in rising index order the first failure is the least failed index. -/
theorem firstFailure_eq_some {l : List (Nat × Bool)} (hl : l.Pairwise fun a b => a.1 < b.1) {f : Nat} :
    firstFailure l = some f ↔ (f, false) ∈ l ∧ ∀ g, g < f → (g, false) ∉ l := by
  induction l with
  | nil => simp [firstFailure]
  | cons c l ih =>
    obtain ⟨n, b⟩ := c
    obtain ⟨hn, hl'⟩ := List.pairwise_cons.mp hl
    cases b with
    | true =>
      have e : firstFailure ((n, true) :: l) = firstFailure l := rfl
      simp [e, ih hl']
    | false =>
      have e : firstFailure ((n, false) :: l) = some n := rfl
      rw [e, Option.some.injEq]
      constructor
      · rintro rfl
        refine ⟨List.mem_cons_self, fun g hg hm => ?_⟩
        rcases List.mem_cons.mp hm with hm | hm
        · injection hm; omega
        · have := hn _ hm
          omega
      · rintro ⟨hm, hf⟩
        rcases List.mem_cons.mp hm with hm | hm
        · injection hm with h; exact h.symm
        · exact absurd List.mem_cons_self (hf n (hn _ hm))

/-! ## The failed checks of a profile -/

theorem within_eq_false {lo hi v : Nat} : within lo hi v = false ↔ ¬ (lo ≤ v ∧ v ≤ hi) := by
  simp [within]

/-- A failed check among the first two fields, the name tag and the fabric class. -/
theorem headChecks_failed (s : State) (i : Fin 16) (f : Nat) :
    (f, false) ∈ [(1, (List.range 16).all fun k => within 32 126 (nameByte s i k).toNat),
      (2, within 1 255 (fabricClass s i))] ↔
    (f = 1 ∧ ∃ k : Fin 16, ¬ (32 ≤ (nameByte s i k).toNat ∧ (nameByte s i k).toNat ≤ 126))
    ∨ (f = 2 ∧ ¬ (1 ≤ prof s i 0x010 ∧ prof s i 0x010 ≤ 255)) := by
  have h1 : (false = (List.range 16).all fun k => within 32 126 (nameByte s i k).toNat) ↔
      ∃ k : Fin 16, ¬ (32 ≤ (nameByte s i k).toNat ∧ (nameByte s i k).toNat ≤ 126) := by
    rw [eq_comm, List.all_eq_false]
    constructor
    · rintro ⟨k, hk, h⟩
      exact ⟨⟨k, List.mem_range.mp hk⟩, within_eq_false.mp (by simpa using h)⟩
    · rintro ⟨k, h⟩
      exact ⟨k, List.mem_range.mpr k.isLt, by simpa using within_eq_false.mpr h⟩
  have h2 : (false = within 1 255 (fabricClass s i)) ↔ ¬ (1 ≤ prof s i 0x010 ∧ prof s i 0x010 ≤ 255) := by
    rw [eq_comm, within_eq_false, fabricClass]
  simp only [List.mem_cons, Prod.mk.injEq, List.not_mem_nil, or_false, h1, h2]

/-- A failed check of a knot row: out of range, or out of order with the knot before. -/
theorem knotChecks_failed (first lo hi : Nat) (strict : Bool) (g : Nat → Nat) (f : Nat) :
    (f, false) ∈ knotChecks first lo hi strict g ↔
    ∃ k : Fin 8, f = first + k.val ∧ (¬ (lo ≤ g k ∧ g k ≤ hi)
      ∨ (0 < k.val ∧ (if strict then g k ≤ g (k.val - 1) else g k < g (k.val - 1)))) := by
  have hb : ∀ k : Nat, (within lo hi (g k) && (k == 0 ||
      (if strict then decide (g (k - 1) < g k) else decide (g (k - 1) ≤ g k)))) = false ↔
      (¬ (lo ≤ g k ∧ g k ≤ hi)
        ∨ (0 < k ∧ (if strict then g k ≤ g (k - 1) else g k < g (k - 1)))) := by
    intro k
    rw [Bool.and_eq_false_iff, within_eq_false, Bool.or_eq_false_iff]
    cases strict <;> simp [Nat.pos_iff_ne_zero]
  unfold knotChecks
  rw [List.mem_map]
  constructor
  · rintro ⟨k, hk, h⟩
    injection h with h1 h2
    exact ⟨⟨k, List.mem_range.mp hk⟩, h1.symm, (hb k).mp h2⟩
  · rintro ⟨k, h1, h2⟩
    exact ⟨k, List.mem_range.mpr k.isLt, by rw [h1, (hb k).mpr h2]⟩

/-- A failed check from the doses to the setpoints. -/
theorem doseChecks_failed (s : State) (i : Fin 16) (f : Nat) :
    (f, false) ∈ [ (19, within 1 60000 (dMin s i)),
       (20, within 1 60000 (dTarget s i) && decide (dMin s i ≤ dTarget s i)),
       (21, within 1 60000 (dMax s i) && decide (dTarget s i ≤ dMax s i)),
       (22, within 1000 2500 (tScorch s i)),
       (23, within 20 400 (maxSpeed s i)),
       (24, within 0 40000 (setpoint s i 0)),
       (25, within 0 40000 (setpoint s i 1)),
       (26, within 0 40000 (setpoint s i 2)),
       (27, within 0 40000 (setpoint s i 3)) ] ↔
    (f = 19 ∧ ¬ (1 ≤ dMin s i ∧ dMin s i ≤ 60000))
    ∨ (f = 20 ∧ ¬ (1 ≤ dTarget s i ∧ dTarget s i ≤ 60000 ∧ dMin s i ≤ dTarget s i))
    ∨ (f = 21 ∧ ¬ (1 ≤ dMax s i ∧ dMax s i ≤ 60000 ∧ dTarget s i ≤ dMax s i))
    ∨ (f = 22 ∧ ¬ (1000 ≤ tScorch s i ∧ tScorch s i ≤ 2500))
    ∨ (f = 23 ∧ ¬ (20 ≤ maxSpeed s i ∧ maxSpeed s i ≤ 400))
    ∨ (∃ z : Fin 4, f = 24 + z.val ∧ 40000 < setpoint s i z) := by
  have hp : ∀ z : Fin 4, (false = within 0 40000 (setpoint s i z)) ↔ 40000 < setpoint s i z := by
    intro z
    rw [eq_comm, within_eq_false]
    omega
  have hd : ∀ lo a b : Nat, (false = (within 1 60000 a && decide (b ≤ a))) ↔
      ¬ (1 ≤ a ∧ a ≤ 60000 ∧ b ≤ a) := by
    intro lo a b
    rw [eq_comm, Bool.and_eq_false_iff, within_eq_false, decide_eq_false_iff_not]
    omega
  have hz : (∃ z : Fin 4, f = 24 + z.val ∧ 40000 < setpoint s i z) ↔
      (f = 24 ∧ 40000 < setpoint s i 0) ∨ (f = 25 ∧ 40000 < setpoint s i 1)
      ∨ (f = 26 ∧ 40000 < setpoint s i 2) ∨ (f = 27 ∧ 40000 < setpoint s i 3) := by
    simp [Fin.exists_fin_succ]
  simp only [List.mem_cons, Prod.mk.injEq, List.not_mem_nil, or_false, hp, hd 1, hz,
    eq_comm (a := false) (b := within _ _ _), within_eq_false]

/-- A failed check of a taper part: its flag, or a field where the flag is 1. -/
theorem taperChecks_failed (s : State) (i : Fin 16) (index at_ f : Nat) :
    (f, false) ∈ taperChecks s i index at_ ↔
    (f = index ∧ 1 < prof s i at_)
    ∨ (prof s i at_ = 1
      ∧ ((f = index + 1 ∧ 500 < prof s i (at_ + 2))
        ∨ (f = index + 2 ∧ ¬ (50 ≤ prof s i (at_ + 4) ∧ prof s i (at_ + 4) ≤ 1500))
        ∨ (f = index + 3 ∧ ¬ (50 ≤ prof s i (at_ + 6) ∧ prof s i (at_ + 6) ≤ 1500
            ∧ prof s i (at_ + 4) < prof s i (at_ + 6))))) := by
  unfold taperChecks
  by_cases h : prof s i at_ = 1 <;> simp [h, eq_comm (a := false), within]

/-- A failed check of the registration tolerance or the check part's flag. -/
theorem flagChecks_failed (s : State) (i : Fin 16) (f : Nat) :
    (f, false) ∈ [(36, within 5 200 (regTolerance s i)), (37, within 0 1 (prof s i 0x056))] ↔
    (f = 36 ∧ ¬ (5 ≤ regTolerance s i ∧ regTolerance s i ≤ 200)) ∨ (f = 37 ∧ 1 < prof s i 0x056) := by
  simp [eq_comm (a := false), within]

/-- A failed check of the check part's colour fields, where its flag is 1. -/
theorem colourChecks_failed (s : State) (i : Fin 16) (f : Nat) :
    (f, false) ∈ (if checkPresent s i then
        (List.range 4).map (fun c => (38 + c, within 0 3000 (expected s i c)))
        ++ (List.range 4).map (fun c => (42 + c, within 1 500 (tolerance s i c)))
        ++ [(46, within 0 1 (prof s i 0x068))]
      else []) ↔
    prof s i 0x056 = 1
    ∧ ((∃ c : Fin 4, f = 38 + c.val ∧ 3000 < expected s i c)
      ∨ (∃ c : Fin 4, f = 42 + c.val ∧ ¬ (1 ≤ tolerance s i c ∧ tolerance s i c ≤ 500))
      ∨ (f = 46 ∧ 1 < prof s i 0x068)) := by
  have hm : ∀ (n : Nat) (g : Nat → Bool) (p : Nat → Prop), (∀ c, g c = false ↔ p c) →
      ((f, false) ∈ (List.range 4).map (fun c => (n + c, g c)) ↔ ∃ c : Fin 4, f = n + c.val ∧ p c) := by
    intro n g p hg
    rw [List.mem_map]
    constructor
    · rintro ⟨c, hc, h⟩
      injection h with h1 h2
      exact ⟨⟨c, List.mem_range.mp hc⟩, h1.symm, (hg c).mp h2⟩
    · rintro ⟨c, h1, h2⟩
      exact ⟨c, List.mem_range.mpr c.isLt, by rw [h1, (hg c).mpr h2]⟩
  by_cases h : prof s i 0x056 = 1
  · rw [if_pos (by simpa [checkPresent] using h), List.mem_append, List.mem_append,
      hm 38 _ (fun c => 3000 < expected s i c) (fun c => by simp [within]),
      hm 42 _ (fun c => ¬ (1 ≤ tolerance s i c ∧ tolerance s i c ≤ 500)) fun c => within_eq_false]
    simp [h, eq_comm (a := false), within, or_assoc]
  · rw [if_neg (by simpa [checkPresent] using h)]
    simp [h]

/-- The checks that fail are the fields that validation does not accept. -/
theorem profileChecks_failed (s : State) (i : Fin 16) (f : Nat) :
    (f, false) ∈ profileChecks s i ↔ FieldRefused s i f := by
  unfold profileChecks FieldRefused
  simp only [List.mem_append, headChecks_failed, knotChecks_failed, doseChecks_failed,
    taperChecks_failed, flagChecks_failed, colourChecks_failed, or_assoc, if_true, if_false,
    Bool.false_eq_true, Nat.zero_le, true_and, Nat.not_le]
  simp only [List.mem_cons, List.not_mem_nil, or_false, exists_eq_or_imp, exists_eq_left, or_assoc]

/-- The indices of the checks: those of the parts that are present. -/
def checkIndices (fabric paper check : Bool) : List Nat :=
  [1, 2, 3, 4, 5, 6, 7, 8, 9, 10, 11, 12, 13, 14, 15, 16, 17, 18, 19, 20, 21, 22, 23, 24, 25, 26, 27]
  ++ (28 :: if fabric then [29, 30, 31] else []) ++ (32 :: if paper then [33, 34, 35] else []) ++ [36, 37]
  ++ (if check then [38, 39, 40, 41, 42, 43, 44, 45, 46] else [])

theorem profileChecks_indices (s : State) (i : Fin 16) :
    (profileChecks s i).map Prod.fst =
      checkIndices (prof s i 0x044 == 1) (prof s i 0x04C == 1) (checkPresent s i) := by
  unfold profileChecks taperChecks checkIndices
  simp only [List.map_append, List.map_cons, apply_ite (List.map Prod.fst)]
  rfl

/-- The checks stand in rising index order. -/
theorem profileChecks_rising (s : State) (i : Fin 16) :
    (profileChecks s i).Pairwise fun a b => a.1 < b.1 := by
  have h : ∀ a b c, (checkIndices a b c).Pairwise (· < ·) := by decide
  have hm := h (prof s i 0x044 == 1) (prof s i 0x04C == 1) (checkPresent s i)
  rw [← profileChecks_indices] at hm
  exact List.pairwise_map.mp hm

/-- A profile whose every field of a present part has an accepted value, with its relations (2.2, R25). -/
structure ProfileAccepted (s : State) (i : Fin 16) : Prop where
  name : ∀ k, k < 16 → 32 ≤ (nameByte s i k).toNat ∧ (nameByte s i k).toNat ≤ 126
  fabric : 1 ≤ fabricClass s i ∧ fabricClass s i ≤ 255
  knots : ∀ k, k < 8 → 1000 ≤ knotT s i k ∧ knotT s i k ≤ 2500 ∧ knotR s i k ≤ 1000
  rising : ∀ k, k < 7 → knotT s i k < knotT s i (k + 1) ∧ knotR s i k ≤ knotR s i (k + 1)
  doses : 1 ≤ dMin s i ∧ dMin s i ≤ dTarget s i ∧ dTarget s i ≤ dMax s i ∧ dMax s i ≤ 60000
  scorch : 1000 ≤ tScorch s i ∧ tScorch s i ≤ 2500
  speed : 20 ≤ maxSpeed s i ∧ maxSpeed s i ≤ 400
  tensions : ∀ z : Fin 4, setpoint s i z ≤ 40000
  tapers : ∀ at_, at_ = 0x044 ∨ at_ = 0x04C → prof s i at_ = 0 ∨ (prof s i at_ = 1
    ∧ prof s i (at_ + 2) ≤ 500 ∧ 50 ≤ prof s i (at_ + 4)
    ∧ prof s i (at_ + 4) < prof s i (at_ + 6) ∧ prof s i (at_ + 6) ≤ 1500)
  registration : 5 ≤ regTolerance s i ∧ regTolerance s i ≤ 200
  check : prof s i 0x056 = 0 ∨ (prof s i 0x056 = 1
    ∧ (∀ c, c < 4 → expected s i c ≤ 3000 ∧ 1 ≤ tolerance s i c ∧ tolerance s i c ≤ 500)
    ∧ prof s i 0x068 ≤ 1)

/-- No field of the two taper parts is refused. -/
theorem taper_accepted {s : State} {i : Fin 16} (h : ∀ f, ¬ FieldRefused s i f) {index at_ : Nat}
    (hp : (index, at_) ∈ [(28, 0x044), (32, 0x04C)]) : prof s i at_ = 0 ∨ (prof s i at_ = 1
      ∧ prof s i (at_ + 2) ≤ 500 ∧ 50 ≤ prof s i (at_ + 4)
      ∧ prof s i (at_ + 4) < prof s i (at_ + 6) ∧ prof s i (at_ + 6) ≤ 1500) := by
  have refused : ∀ f, ¬ ((f = index ∧ 1 < prof s i at_)
      ∨ (prof s i at_ = 1
        ∧ ((f = index + 1 ∧ 500 < prof s i (at_ + 2))
          ∨ (f = index + 2 ∧ ¬ (50 ≤ prof s i (at_ + 4) ∧ prof s i (at_ + 4) ≤ 1500))
          ∨ (f = index + 3 ∧ ¬ (50 ≤ prof s i (at_ + 6) ∧ prof s i (at_ + 6) ≤ 1500
              ∧ prof s i (at_ + 4) < prof s i (at_ + 6)))))) := fun f hf => by
    have := h f
    simp only [FieldRefused, not_or] at this
    obtain ⟨-, -, -, -, -, -, -, -, -, -, hn, -⟩ := this
    exact hn ⟨(index, at_), hp, hf⟩
  have h0 := refused index
  have h1 := refused (index + 1)
  have h2 := refused (index + 2)
  have h3 := refused (index + 3)
  omega

theorem accepted_of_unrefused {s : State} {i : Fin 16} (h : ∀ f, ¬ FieldRefused s i f) :
    ProfileAccepted s i := by
  have tapers := fun index at_ => taper_accepted (index := index) (at_ := at_) h
  simp only [FieldRefused, not_or] at h
  have hT : ∀ k : Fin 8, (1000 ≤ knotT s i k ∧ knotT s i k ≤ 2500)
      ∧ (0 < k.val → knotT s i (k.val - 1) < knotT s i k) := fun k => by
    obtain ⟨-, -, hn, -⟩ := h (3 + k)
    have := not_or.mp fun hr => hn ⟨k, rfl, hr⟩
    exact ⟨not_not.mp this.1, fun h0 => by have := this.2; omega⟩
  have hR : ∀ k : Fin 8, knotR s i k ≤ 1000
      ∧ (0 < k.val → knotR s i (k.val - 1) ≤ knotR s i k) := fun k => by
    obtain ⟨-, -, -, hn, -⟩ := h (11 + k)
    have := not_or.mp fun hr => hn ⟨k, rfl, hr⟩
    exact ⟨by omega, fun h0 => by have := this.2; omega⟩
  have hC : prof s i 0x056 = 1 → (∀ c, c < 4 → expected s i c ≤ 3000 ∧ 1 ≤ tolerance s i c
      ∧ tolerance s i c ≤ 500) ∧ prof s i 0x068 ≤ 1 := fun hp => by
    have hn : ∀ f, ¬ _ := fun f => by
      obtain ⟨-, -, -, -, -, -, -, -, -, -, -, -, -, hn⟩ := h f
      exact fun hr => hn ⟨hp, hr⟩
    refine ⟨fun c hc => ⟨?_, ?_⟩, ?_⟩
    · by_contra hr
      exact hn _ (.inl ⟨⟨c, hc⟩, rfl, by simpa using hr⟩)
    · by_contra hr
      exact hn _ (.inr (.inl ⟨⟨c, hc⟩, rfl, hr⟩))
    · by_contra hr
      exact hn 46 (.inr (.inr ⟨rfl, by omega⟩))
  refine ⟨fun k hk => ?_, ?_, fun k hk => ?_, fun k hk => ?_, ?_, ?_, ?_, fun z => ?_, ?_, ?_, ?_⟩
  · obtain ⟨hn, -⟩ := h 1
    by_contra hr
    exact hn ⟨rfl, ⟨k, hk⟩, hr⟩
  · obtain ⟨-, hn, -⟩ := h 2
    by_contra hr
    exact hn ⟨rfl, hr⟩
  · exact ⟨(hT ⟨k, hk⟩).1.1, (hT ⟨k, hk⟩).1.2, (hR ⟨k, hk⟩).1⟩
  · exact ⟨(hT ⟨k + 1, by omega⟩).2 (by simp), (hR ⟨k + 1, by omega⟩).2 (by simp)⟩
  · obtain ⟨-, -, -, -, h19, -⟩ := h 19
    obtain ⟨-, -, -, -, -, h20, -⟩ := h 20
    obtain ⟨-, -, -, -, -, -, h21, -⟩ := h 21
    omega
  · obtain ⟨-, -, -, -, -, -, -, hn, -⟩ := h 22
    omega
  · obtain ⟨-, -, -, -, -, -, -, -, hn, -⟩ := h 23
    omega
  · obtain ⟨-, -, -, -, -, -, -, -, -, hn, -⟩ := h (24 + z)
    by_contra hr
    exact hn ⟨z, rfl, by omega⟩
  · rintro at_ (rfl | rfl)
    · exact tapers 28 _ (by simp)
    · exact tapers 32 _ (by simp)
  · obtain ⟨-, -, -, -, -, -, -, -, -, -, -, hn, -⟩ := h 36
    omega
  · obtain ⟨-, -, -, -, -, -, -, -, -, -, -, -, hn, -⟩ := h 37
    by_cases hp : prof s i 0x056 = 1
    · exact .inr ⟨hp, hC hp⟩
    · exact .inl (by omega)

theorem ProfileAccepted.unrefused {s : State} {i : Fin 16} (h : ProfileAccepted s i) (f : Nat) :
    ¬ FieldRefused s i f := by
  obtain ⟨name, fabric, knots, rising, doses, scorch, speed, tensions, tapers, registration, check⟩ := h
  have before : ∀ k : Fin 8, 0 < k.val → knotT s i (k.val - 1) < knotT s i k
      ∧ knotR s i (k.val - 1) ≤ knotR s i k := fun k h0 => by
    have := rising (k.val - 1) (by omega)
    rwa [Nat.sub_add_cancel h0] at this
  unfold FieldRefused
  rintro (⟨-, k, hn⟩ | ⟨-, hn⟩ | ⟨k, -, hn⟩ | ⟨k, -, hn⟩ | ⟨-, hn⟩ | ⟨-, hn⟩ | ⟨-, hn⟩ | ⟨-, hn⟩ |
    ⟨-, hn⟩ | ⟨z, -, hn⟩ | ⟨p, hp, hn⟩ | ⟨-, hn⟩ | ⟨-, hn⟩ | ⟨hp, hn⟩)
  · exact hn (name k k.isLt)
  · exact hn fabric
  · have h1 := knots k k.isLt
    have h2 := before k
    omega
  · have h1 := knots k k.isLt
    have h2 := before k
    omega
  · omega
  · omega
  · omega
  · exact hn scorch
  · exact hn speed
  · exact absurd hn (Nat.not_lt.mpr (tensions z))
  · have h1 := tapers p.2 (by
      simp only [List.mem_cons, List.not_mem_nil, or_false] at hp
      rcases hp with rfl | rfl <;> simp)
    omega
  · exact hn registration
  · omega
  · rcases check with h0 | ⟨-, hc, hd⟩
    · omega
    · rcases hn with ⟨c, -, hr⟩ | ⟨c, -, hr⟩ | ⟨-, hr⟩
      · exact absurd hr (Nat.not_lt.mpr (hc c c.isLt).1)
      · exact hr (hc c c.isLt).2
      · omega

/-- A profile passes validation exactly where its every field is accepted. -/
theorem profileChecks_passed (s : State) (i : Fin 16) :
    firstFailure (profileChecks s i) = none ↔ ProfileAccepted s i := by
  rw [firstFailure_eq_none]
  simp only [profileChecks_failed]
  exact ⟨accepted_of_unrefused, ProfileAccepted.unrefused⟩

/-! ## The effective dose target -/

theorem dEff_setTrim (s : State) (i : Fin 16) (v : Int) :
    dEff (setTrim i v s) i = limit (dMin s i) (dMax s i) (dTarget s i * (1000 + v) / 1000) := by
  have e : (setTrim i v s).lib.slots[i].trim = v := by rw [setTrim, slots_updSlot_same]
  unfold dEff
  rw [e]
  rfl

/-- The trimmed target rises with the trim (R36). -/
theorem trimmed_mono (d : Nat) {a b : Int} (h : a ≤ b) :
    (d : Int) * (1000 + a) / 1000 ≤ d * (1000 + b) / 1000 :=
  Int.ediv_le_ediv (by decide) (Int.mul_le_mul_of_nonneg_left (by omega) (Int.natCast_nonneg d))

theorem limit_mono {lo hi v w : Int} (h : lo ≤ hi) (hv : v ≤ w) : limit lo hi v ≤ limit lo hi w := by
  rw [limit_eq h, limit_eq h]
  omega

end Sys2Proof.Machine

namespace Sys2Proof.Proofs

open Sys2Proof.Machine

/-- Settles O25. -/
theorem profileValidation : Obligations.ProfileValidation := by
  refine fun s i => ⟨(profileChecks_passed s i).trans ⟨fun h => ?_, fun h => ?_⟩, fun f => ?_⟩
  · obtain ⟨h1, h2, h3, h4, h5, h6, h7, h8, h9, h10, h11⟩ := h
    exact ⟨h1, h2, h3, h4, h5.1, h5.2.1, h5.2.2.1, h5.2.2.2, h6, h7, h8, h9, h10, h11⟩
  · obtain ⟨h1, h2, h3, h4, h5, h6, h7, h8, h9, h10, h11, h12, h13, h14⟩ := h
    exact ⟨h1, h2, h3, h4, ⟨h5, h6, h7, h8⟩, h9, h10, h11, h12, h13, h14⟩
  · rw [firstFailure_eq_some (profileChecks_rising s i)]
    simp only [profileChecks_failed]

/-- Settles O26: a validated profile has 1 ≤ D_min ≤ D_max, so the limit keeps D_eff positive. -/
theorem effectiveDoseTarget : Obligations.EffectiveDoseTarget := by
  intro s i hp lo hi
  obtain ⟨h1, h2, h3, h4⟩ := ((profileChecks_passed s i).mp hp).doses
  have hm : (dMin s i : Int) ≤ dMax s i := by omega
  obtain ⟨r1, r2⟩ := limit_range hm (dTarget s i * (1000 + s.lib.slots[i].trim) / 1000)
  refine ⟨?_, ?_, r1, r2, (by omega : (1 : Int) ≤ dMin s i).trans r1, ?_, fun v hv hv' => ?_⟩
  · rw [dEff, limit_eq hm, Int.fdiv_eq_ediv_of_nonneg _ (by decide)]
  · calc (dTarget s i : Int) * (1000 + s.lib.slots[i].trim)
        ≤ dTarget s i * 1100 := Int.mul_le_mul_of_nonneg_left (by omega) (Int.natCast_nonneg _)
      _ ≤ 66000000 := by omega
  · rintro p rfl
    rfl
  · have hd : dEff s i ≤ dEff (setTrim i v s) i := by
      rw [dEff_setTrim]
      exact limit_mono hm (trimmed_mono _ hv)
    refine ⟨hd, ?_, fun _ => rfl⟩
    rintro p rfl
    have h0 : 1 ≤ dEff s p.profile := (by omega : (1 : Int) ≤ dMin s p.profile).trans r1
    exact Nat.div_le_div_left (Int.toNat_le_toNat hd) (by omega)

end Sys2Proof.Proofs
end

