-- ==== Sys2Proof/Proofs/HostPort.lean ====
section
/-! PROOFS. The host's side of the memory port: the words that the guard keeps from it (R22, R165, R166,
R177) and what it reads (R31, R163 to R165, R182). -/

-- One thread for the whole file: each waiting thread reserves its stack.
set_option Elab.async false

namespace Sys2Proof.Machine

/-! ## The guard -/

theorem anchorGuarded_iff (s : State) (a : Nat) : anchorGuarded s a = true ↔
    if 0x010 ≤ a ∧ a < 0x02C then started s = true else a ≠ 0x080 := by
  unfold anchorGuarded
  split <;> simp

/-- A word of the profile library is guarded by its slot's state or by its place (R22). -/
theorem profileGuarded_iff {s : State} {a : Nat} (h1 : 0x3000 ≤ a) (h2 : a < 0x5000) :
    profileGuarded s a = true ↔
      ∃ (i : Fin 16) (k : Nat), a = 0x3000 + 512 * i.val + k ∧ k < 512
        ∧ (s.lib.slots[i].state = .valid ∨ 0x1F0 ≤ k) := by
  unfold profileGuarded
  rw [Bool.or_eq_true, beq_iff_eq, decide_eq_true_eq]
  constructor
  · intro h
    refine ⟨slotAt a, (a - 0x3000) % 512, ?_, by omega, h⟩
    simp only [slotAt, Fin.ofNat]
    omega
  · rintro ⟨i, k, ha, hk, h⟩
    have hi : slotAt a = i := Fin.ext (by simp only [slotAt, Fin.ofNat]; omega)
    subst hi
    exact h.imp_right fun hk' => by omega

theorem inChain_iff (s : State) (n : Nat) : inChain s n = true ↔ ∃ e ∈ s.walker.chain, e.slot = n := by
  simp [inChain]

theorem linkOpen_iff (s : State) (n : Nat) : linkOpen s n = true ↔
    s.walker.fromTicket = some n ∧ ((s.walker.state = .waiting ∧ s.walker.wait = .link)
      ∨ (s.walker.state = .stalled ∧ (s.walker.stall = .linkRange ∨ s.walker.stall = .linkTaken))) := by
  simp [linkOpen]

/-- A word of a taken, unretired ticket is guarded, but its next link while the walker waits or stalls on
it (R177). -/
theorem ticketGuarded_iff {s : State} {a : Nat} (h1 : 0x5000 ≤ a) (h2 : a < 0x15000) :
    ticketGuarded s a = true ↔
      ∃ n k, a = 0x5000 + 256 * n + k ∧ k < 256 ∧ n < 256 ∧ (∃ e ∈ s.walker.chain, e.slot = n + 1)
        ∧ ¬ (k = 4 ∧ s.walker.fromTicket = some (n + 1)
          ∧ ((s.walker.state = .waiting ∧ s.walker.wait = .link)
            ∨ (s.walker.state = .stalled
              ∧ (s.walker.stall = .linkRange ∨ s.walker.stall = .linkTaken)))) := by
  unfold ticketGuarded
  rw [Bool.and_eq_true, inChain_iff, Bool.not_eq_true', Bool.and_eq_false_iff, ← Bool.not_eq_true,
    ← Bool.not_eq_true, beq_iff_eq, linkOpen_iff, ← not_and_or]
  constructor
  · rintro ⟨hc, hn⟩
    refine ⟨(a - 0x5000) / 256, a % 256, by omega, by omega, by omega, hc, hn⟩
  · rintro ⟨n, k, ha, hk, -, hc, hn⟩
    have hn1 : ticketAt a = n + 1 := by unfold ticketAt; omega
    have hk1 : a % 256 = k := by omega
    rw [hn1, hk1]
    exact ⟨hc, hn⟩

/-! ## Host reads -/

/-- A word of exchange memory is read at its address. -/
theorem hostRead_word (s : State) {a : Nat} (h : a < 0x15000) (h4 : a % 4 = 0) :
    hostRead s (BitVec.ofNat 32 a) = exchangeWord s a := by
  have e : (BitVec.ofNat 32 a).toNat - (BitVec.ofNat 32 a).toNat % 4 = a := by
    rw [BitVec.toNat_ofNat]
    omega
  unfold hostRead
  rw [e]
  exact if_pos h

/-- An offset above exchange memory that names no register reads 0 (R163). -/
theorem hostRead_unmapped (s : State) {o : Word}
    (h : (0x15000 ≤ o.toNat ∧ o.toNat < 0x18000) ∨ 0x18010 ≤ o.toNat) : hostRead s o = 0 := by
  unfold hostRead memEnd
  dsimp only
  rw [if_neg (by omega), if_neg (by omega), if_neg (by omega)]

/-- The part-owned words of a slot are read from the library (R31). -/
theorem hostRead_slot (s : State) (i : Fin 16) {k : Nat} (h1 : 0x1F0 ≤ k) (h2 : k < 512) (h4 : k % 4 = 0) :
    hostRead s (BitVec.ofNat 32 (0x3000 + 512 * i.val + k)) = slotWord s i k := by
  have hi : slotAt (0x3000 + 512 * i.val + k) = i := Fin.ext (by simp only [slotAt, Fin.ofNat]; omega)
  rw [hostRead_word s (by omega) (by omega), exchangeWord, if_neg (by unfold memEnd; omega),
    if_pos (by omega), hi, show (0x3000 + 512 * i.val + k - 0x3000) % 512 = k by omega]

/-- Any other word is read as it was written. -/
theorem hostRead_memory (s : State) {a : Nat} (h : a < 0x15000) (h4 : a % 4 = 0)
    (ha : a ∉ [0x000, 0x004, 0x040, 0x044, 0x048, 0x04C, 0x050, 0x054, 0x058])
    (hs : ¬ (0x3000 ≤ a ∧ a < 0x5000 ∧ 0x1F0 ≤ a % 512)) :
    hostRead s (BitVec.ofNat 32 a) = Memory.word s.mem a := by
  have hl : (anchorWords s).lookup a = none := by
    rw [List.lookup_eq_none_iff]
    intro p hp
    have : p.1 ∈ (anchorWords s).map Prod.fst := List.mem_map_of_mem hp
    rw [bne_iff_ne]
    rintro rfl
    exact ha this
  rw [hostRead_word s h h4, exchangeWord, if_neg (by unfold memEnd; omega), if_neg (by omega), hl]

/-- The bytes of a word as it is read (10.6: little-endian). -/
theorem word_byte (m : List Host.Cell) (a : Nat) {k : Nat} (hk : k < 4) :
    (Memory.word m a).extractLsb' (8 * k) 8 = Memory.get m (a + k) := by
  unfold Memory.word Memory.half
  match k, hk with
  | 0, _ =>
    rw [BitVec.extractLsb'_append_eq_of_add_le (by decide)]
    exact BitVec.extractLsb'_append_eq_right
  | 1, _ =>
    rw [BitVec.extractLsb'_append_eq_of_add_le (by decide)]
    exact BitVec.extractLsb'_append_eq_left
  | 2, _ =>
    rw [BitVec.extractLsb'_append_eq_of_le (by decide)]
    exact BitVec.extractLsb'_append_eq_right
  | 3, _ =>
    rw [BitVec.extractLsb'_append_eq_of_le (by decide)]
    exact BitVec.extractLsb'_append_eq_left

theorem joinHalves_low (lo hi : Half) : (joinHalves lo hi).extractLsb' 0 16 = lo :=
  BitVec.extractLsb'_append_eq_right

theorem joinHalves_high (lo hi : Half) : (joinHalves lo hi).extractLsb' 16 16 = hi :=
  BitVec.extractLsb'_append_eq_left

/-- The bytes of the walker's state word (R165). -/
theorem joinHalves_bytes (b0 b1 : Byte) (hi : Half) :
    (joinHalves (b1 ++ b0) hi).extractLsb' 0 8 = b0 ∧ (joinHalves (b1 ++ b0) hi).extractLsb' 8 8 = b1 := by
  unfold joinHalves
  constructor <;> rw [BitVec.extractLsb'_append_eq_of_add_le (by decide)]
  · exact BitVec.extractLsb'_append_eq_right
  · exact BitVec.extractLsb'_append_eq_left

end Sys2Proof.Machine

namespace Sys2Proof.Proofs

open Sys2Proof.Machine

/-- Settles O17, by the four regions of exchange memory. -/
theorem guardedWords : Obligations.GuardedWords := by
  intro s a ha h4
  have hp : ¬ (0x3000 ≤ a ∧ a < 0x5000) → ¬ ∃ (i : Fin 16) (k : Nat), a = 0x3000 + 512 * i.val + k
      ∧ k < 512 ∧ (s.lib.slots[i].state = .valid ∨ 0x1F0 ≤ k) := by
    rintro hn ⟨i, k, rfl, hk, -⟩
    omega
  have ht : a < 0x5000 → ¬ ∃ n k, a = 0x5000 + 256 * n + k ∧ k < 256 ∧ n < 256
      ∧ (∃ e ∈ s.walker.chain, e.slot = n + 1)
      ∧ ¬ (k = 4 ∧ s.walker.fromTicket = some (n + 1)
        ∧ ((s.walker.state = .waiting ∧ s.walker.wait = .link)
          ∨ (s.walker.state = .stalled
            ∧ (s.walker.stall = .linkRange ∨ s.walker.stall = .linkTaken)))) := by
    rintro hn ⟨n, k, rfl, -⟩
    omega
  unfold guarded
  by_cases h1 : a < 0x400
  · rw [if_pos h1, anchorGuarded_iff, iff_false_intro (hp (by omega)), iff_false_intro (ht (by omega)),
      or_false, or_false]
    by_cases hr : 0x010 ≤ a ∧ a < 0x02C
    · rw [if_pos hr]
      refine ⟨fun hs => .inr (.inl ⟨hr.1, hr.2, hs⟩), ?_⟩
      rintro (h | ⟨-, -, hs⟩ | h | h)
      · omega
      · exact hs
      · omega
      · omega
    · rw [if_neg hr]
      constructor
      · intro h
        by_cases h0 : a < 0x010
        · exact .inl h0
        · exact .inr (.inr (.inl ⟨by omega, h1, h⟩))
      · rintro (h | ⟨ha1, ha2, -⟩ | h | h) <;> omega
  by_cases h2 : a < 0x3000
  · rw [if_neg h1, if_pos h2]
    exact ⟨fun _ => .inr (.inr (.inr (.inl ⟨by omega, h2⟩))), fun _ => rfl⟩
  have hl : ¬ (a < 0x010) ∧ ¬ (0x010 ≤ a ∧ a < 0x02C ∧ started s = true)
      ∧ ¬ (0x02C ≤ a ∧ a < 0x400 ∧ a ≠ 0x080) ∧ ¬ (0x400 ≤ a ∧ a < 0x3000) := by omega
  obtain ⟨l1, l2, l3, l4⟩ := hl
  rw [if_neg h1, if_neg h2, iff_false_intro l1, iff_false_intro l2, iff_false_intro l3,
    iff_false_intro l4]
  by_cases h3 : a < 0x5000
  · rw [if_pos h3, profileGuarded_iff (by omega) h3, iff_false_intro (ht h3)]
    simp only [false_or, or_false]
  · rw [if_neg h3, ticketGuarded_iff (by omega) ha, iff_false_intro (hp (by omega))]
    simp only [false_or]

/-- Settles O19, region by region of the address map. -/
theorem hostReads : Obligations.HostReads := by
  intro s
  refine ⟨rfl, rfl, rfl, rfl, fun o ho => hostRead_unmapped s ho, rfl, rfl, joinHalves_low _ _,
    joinHalves_high _ _, (joinHalves_bytes _ _ _).1, (joinHalves_bytes _ _ _).2, joinHalves_high _ _,
    joinHalves_low _ _, joinHalves_high _ _, joinHalves_low _ _, joinHalves_high _ _, rfl, rfl, rfl, ?_,
    fun a k ha h4 hn hs hk => by rw [hostRead_memory s ha h4 hn hs, word_byte _ _ hk]⟩
  rintro i _ rfl
  have read := fun k => @hostRead_slot s i k
  rw [read 0x1F0 (by decide) (by decide) (by decide), read 0x1F4 (by decide) (by decide) (by decide),
    read 0x1F8 (by decide) (by decide) (by decide), read 0x1FC (by decide) (by decide) (by decide)]
  exact ⟨joinHalves_low _ _, joinHalves_high _ _, joinHalves_low _ _, joinHalves_high _ _, rfl, rfl⟩

end Sys2Proof.Proofs
end

