-- ==== Sys2Proof/Proofs/LibraryTickets.lean ====
section
/-! PROOFS. The tickets of the profile library: their refusals in order and what an accepted one writes
(R24, R27 to R29). -/

-- One thread for the whole file: each waiting thread reserves its stack.
set_option Elab.async false

namespace Sys2Proof.Machine

/-! ## The host fields of a slot -/

/-- Where only log and tickets are written the library reads as before. -/
theorem LogAndTicketsOnly.slotByte {s t : State} (h : LogAndTicketsOnly s t) (i : Fin 16) {k : Nat}
    (hk : k < 512) : nameByte t i k = nameByte s i k :=
  h _ (by unfold logBytes ticketBytes profileBase; omega)

theorem LogAndTicketsOnly.prof_eq {s t : State} (h : LogAndTicketsOnly s t) (i : Fin 16) {k : Nat}
    (hk : k < 511) : prof t i k = prof s i k := by
  have h0 := h.slotByte i (show k < 512 by omega)
  have h1 := h.slotByte i (show k + 1 < 512 by omega)
  unfold nameByte at h0 h1
  unfold prof Memory.half
  rw [h0, Nat.add_assoc, h1]

/-- The checks of a knot row read its eight knots. -/
theorem knotChecks_congr {first lo hi : Nat} {strict : Bool} {f g : Nat → Nat}
    (h : ∀ k, k < 8 → f k = g k) : knotChecks first lo hi strict f = knotChecks first lo hi strict g := by
  refine List.map_congr_left fun k hk => ?_
  have hk := List.mem_range.mp hk
  rw [h k hk, h (k - 1) (by omega)]

theorem LogAndTicketsOnly.profileChecks_eq {s t : State} (h : LogAndTicketsOnly s t) (i : Fin 16) :
    profileChecks t i = profileChecks s i := by
  have hp : ∀ k, k < 511 → prof t i k = prof s i k := fun k hk => h.prof_eq i hk
  have hn : ((List.range 16).all fun k => within 32 126 (nameByte t i k).toNat) =
      ((List.range 16).all fun k => within 32 126 (nameByte s i k).toNat) := by
    rw [Bool.eq_iff_iff, List.all_eq_true, List.all_eq_true]
    refine forall₂_congr fun k hk => ?_
    rw [h.slotByte i (by have := List.mem_range.mp hk; omega)]
  have ht : ∀ index at_, at_ ≤ 0x04C → taperChecks t i index at_ = taperChecks s i index at_ :=
    fun index at_ ha => by
      unfold taperChecks
      rw [hp at_ (by omega), hp (at_ + 2) (by omega), hp (at_ + 4) (by omega), hp (at_ + 6) (by omega)]
  have hc : ∀ (n lo hi : Nat) (f g : Nat → Nat), (∀ c, c < 4 → f c = g c) →
      ((List.range 4).map fun c => (n + c, within lo hi (f c)))
        = (List.range 4).map fun c => (n + c, within lo hi (g c)) := fun n lo hi f g he =>
    List.map_congr_left fun c hm => by rw [he c (List.mem_range.mp hm)]
  have hz : ∀ z, setpoint t i z = setpoint s i z := fun z => hp _ (by omega)
  have hcp : checkPresent t i = checkPresent s i := by rw [checkPresent, hp _ (by decide), checkPresent]
  unfold profileChecks
  rw [hn, ht 28 _ (by decide), ht 32 _ (by decide), hcp,
    knotChecks_congr (f := knotT t i) (g := knotT s i) (fun k hk => hp _ (by omega)),
    knotChecks_congr (f := knotR t i) (g := knotR s i) (fun k hk => hp _ (by omega)),
    hc 38 0 3000 (expected t i) (expected s i) (fun c h' => hp _ (by omega)),
    hc 42 1 500 (tolerance t i) (tolerance s i) (fun c h' => hp _ (by omega)),
    hz, hz, hz, hz, show fabricClass t i = fabricClass s i from hp _ (by decide),
    show dMin t i = dMin s i from hp _ (by decide), show dTarget t i = dTarget s i from hp _ (by decide),
    show dMax t i = dMax s i from hp _ (by decide), show tScorch t i = tScorch s i from hp _ (by decide),
    show maxSpeed t i = maxSpeed s i from hp _ (by decide),
    show regTolerance t i = regTolerance s i from hp _ (by decide), hp 0x056 (by decide),
    hp 0x068 (by decide)]

@[simp] theorem claimed_profileChecks (s : State) (i : Fin 16) :
    profileChecks (claimed s) i = profileChecks s i := (claimed_logAndTickets s).profileChecks_eq i

/-- The slot a ticket names by its number. -/
theorem slotField_eq {s : State} {i : Fin 16} (h : bodyByte s (look s) 0x20 = i.val) :
    slotField s (look s) = i := by
  simp [slotField, h]

/-- A ticket that rewrites one slot leaves the lock and the other slots. -/
theorem updSlot_lib (i : Fin 16) (f : Slot → Slot) (s : State) :
    (updSlot i f s).lib = s.lib.withSlot i (f s.lib.slots[i]) := rfl

end Sys2Proof.Machine

namespace Sys2Proof.Proofs

open Sys2Proof.Machine

/-- PROFILE_COMMIT: the refusals in order, and the slot VALID with trim 0 and one commit more (R24). -/
theorem profileCommit_cases {s : State} (hk : TakesKind s 0x20) :
    (15 < bodyByte s (look s) 0x20 → Refused .badField 0 .profileCommit s)
    ∧ (∀ i : Fin 16, bodyByte s (look s) 0x20 = i.val →
      (s.lib.lock = true → Refused .locked 0 .profileCommit s)
      ∧ (s.lib.lock = false → s.lib.slots[i].state = .valid → Refused .state 0 .profileCommit s)
      ∧ (∀ f, s.lib.lock = false → s.lib.slots[i].state ≠ .valid →
        firstFailure (profileChecks s i) = some f → Refused .badField (natWord f) .profileCommit s)
      ∧ (s.lib.lock = false → s.lib.slots[i].state ≠ .valid →
        firstFailure (profileChecks s i) = none →
        Accepted .ok ((s.lib.slots[i].commits + 1).setWidth 32) [.lib] .profileCommit s fun t =>
          t.sent = [] ∧ t.lib.lock = s.lib.lock
          ∧ t.lib.slots[i] = { s.lib.slots[i] with
              state := .valid, trim := 0, commits := s.lib.slots[i].commits + 1 }
          ∧ (∀ j : Fin 16, j ≠ i → t.lib.slots[j] = s.lib.slots[j]))) := by
  refine ⟨fun hb => refused_of rfl hk ?_, fun i hi => ?_⟩
  · simp [takeProfileCommit, hb]
  have hs := slotField_eq hi
  have hb : ¬ 15 < bodyByte s (look s) 0x20 := by omega
  refine ⟨fun hl => refused_of rfl hk ?_, fun hl hv => refused_of rfl hk ?_,
    fun f hl hv hf => refused_of rfl hk ?_, fun hl hv hf =>
    accepted_of (w := commitSlot i (claimed s)) rfl hk ?_ ⟨?_, ?_, ?_, fun j hj => ?_⟩ ?_⟩
  · simp [takeProfileCommit, hb, hl]
  · simp [-Fin.getElem_fin, takeProfileCommit, hb, hl, hs, hv]
  · simp [-Fin.getElem_fin, takeProfileCommit, hb, hl, hs, hv, hf]
  · simp [-Fin.getElem_fin, takeProfileCommit, hb, hl, hs, hv, hf]
  · rw [takeEnd_sent]; simp
  · simp [commitSlot, updSlot_lib, Library.withSlot]
  · simp only [takeEnd_keeps, finishTicket_keeps, commitSlot, slots_updSlot_same, claimed_keeps]
  · have hj' : i ≠ j := fun h => hj h.symm
    simp only [takeEnd_keeps, finishTicket_keeps, commitSlot, slots_updSlot_other hj', claimed_keeps]
  · exact .of_all (by simp [samePart, ticketParts])

/-- PROFILE_OPEN: the refusals in order, and the VALID slot in EDIT (R27). -/
theorem profileOpen_cases {s : State} (hk : TakesKind s 0x21) :
    (15 < bodyByte s (look s) 0x20 → Refused .badField 0 .profileOpen s)
    ∧ (∀ i : Fin 16, bodyByte s (look s) 0x20 = i.val →
      (s.lib.lock = true → Refused .locked 0 .profileOpen s)
      ∧ (s.lib.lock = false → s.lib.slots[i].state ≠ .valid → Refused .state 0 .profileOpen s)
      ∧ (s.lib.lock = false → s.lib.slots[i].state = .valid → 0 < s.lib.slots[i].inUse →
        Refused .inUse (natWord s.lib.slots[i].inUse) .profileOpen s)
      ∧ (s.lib.lock = false → s.lib.slots[i].state = .valid → s.lib.slots[i].inUse = 0 →
        Accepted .ok 0 [.lib] .profileOpen s fun t =>
          t.sent = [] ∧ t.lib = s.lib.withSlot i { s.lib.slots[i] with state := .edit })) := by
  refine ⟨fun hb => refused_of rfl hk ?_, fun i hi => ?_⟩
  · simp [takeProfileOpen, hb]
  have hs := slotField_eq hi
  have hb : ¬ 15 < bodyByte s (look s) 0x20 := by omega
  refine ⟨fun hl => refused_of rfl hk ?_, fun hl hv => refused_of rfl hk ?_,
    fun hl hv hu => refused_of rfl hk ?_, fun hl hv hu =>
    accepted_of (w := setSlotState i .edit (claimed s)) rfl hk ?_ ⟨?_, ?_⟩ ?_⟩
  · simp [takeProfileOpen, hb, hl]
  · simp [-Fin.getElem_fin, takeProfileOpen, hb, hl, hs, hv]
  · simp [-Fin.getElem_fin, takeProfileOpen, hb, hl, hs, hv, hu]
  · simp [-Fin.getElem_fin, takeProfileOpen, hb, hl, hs, hv, hu]
  · rw [takeEnd_sent]; simp
  · simp [-Fin.getElem_fin, setSlotState, updSlot_lib]
  · exact .of_all (by simp [samePart, ticketParts])

/-- PROFILE_CLEAR: the refusals in order, and the slot EMPTY with trim 0 (R28). -/
theorem profileClear_cases {s : State} (hk : TakesKind s 0x22) :
    (15 < bodyByte s (look s) 0x20 → Refused .badField 0 .profileClear s)
    ∧ (∀ i : Fin 16, bodyByte s (look s) 0x20 = i.val →
      (s.lib.lock = true → Refused .locked 0 .profileClear s)
      ∧ (s.lib.lock = false → 0 < s.lib.slots[i].inUse →
        Refused .inUse (natWord s.lib.slots[i].inUse) .profileClear s)
      ∧ (s.lib.lock = false → s.lib.slots[i].inUse = 0 →
        Accepted .ok 0 [.lib] .profileClear s fun t =>
          t.sent = [] ∧ t.lib = s.lib.withSlot i { s.lib.slots[i] with state := .empty, trim := 0 })) := by
  refine ⟨fun hb => refused_of rfl hk ?_, fun i hi => ?_⟩
  · simp [takeProfileClear, hb]
  have hs := slotField_eq hi
  have hb : ¬ 15 < bodyByte s (look s) 0x20 := by omega
  refine ⟨fun hl => refused_of rfl hk ?_, fun hl hu => refused_of rfl hk ?_, fun hl hu =>
    accepted_of (w := updSlot i (fun c => { c with state := .empty, trim := 0 }) (claimed s)) rfl hk ?_
      ⟨?_, ?_⟩ ?_⟩
  · simp [takeProfileClear, hb, hl]
  · simp [-Fin.getElem_fin, takeProfileClear, hb, hl, hs, hu]
  · simp [-Fin.getElem_fin, takeProfileClear, hb, hl, hs, hu]
  · rw [takeEnd_sent]; simp
  · simp [-Fin.getElem_fin, updSlot_lib]
  · exact .of_all (by simp [samePart, ticketParts])

/-- LIBRARY_LOCK: the lock set, with detail 1 where it was clear (R29). -/
theorem libraryLock_case {s : State} (hk : TakesKind s 0x23) :
    Accepted .ok (if s.lib.lock = true then 0 else 1) [.lib] .libraryLock s fun t => t.sent = [] ∧
      t.lib = { s.lib with lock := true } := by
  refine accepted_of (w := { claimed s with lib := { s.lib with lock := true } }) rfl hk ?_ ⟨?_, ?_⟩ ?_
  · simp [takeLibraryLock]
  · rw [takeEnd_sent]; simp
  · simp
  · exact .of_all (by simp [samePart, ticketParts])

/-- Settles O24, ticket kind by ticket kind. -/
theorem profileSlotTickets : Obligations.ProfileSlotTickets :=
  ⟨fun _ => profileCommit_cases, fun _ => profileOpen_cases, fun _ => profileClear_cases,
    fun _ => libraryLock_case⟩

end Sys2Proof.Proofs
end

