-- ==== Sys2Proof/Proofs/QueuePanels.lean ====
section
/-! PROOFS. QUEUE_PANELS: the refusals in order, and the open order with its entry, its in-use count and its
summaries (R56, R57, R75, R170). -/

-- One thread for the whole file: each waiting thread reserves its stack.
set_option Elab.async false

namespace Sys2Proof.Machine

/-! ## The take of a long ticket -/

/-- What the walker does after a take whose owner has left the ticket's link (R170, R171, R173). -/
theorem takeEnd_wentOn_of_link {s v : State} (wf : Memory.wf s.mem = true)
    (hlink : linkOf v (look s) = linkOf s (look s)) (hrep : Reported 0 (claimed s) v)
    (ha : Alike s v) : WalkerWentOn s (takeEnd s v) := by
  have hlim : ticketLimit v = ticketLimit s :=
    (hrep.logAndTickets.cfgByte_eq (by decide)).trans ((claimed_logAndTickets s).cfgByte_eq (by decide))
  have h := afterTake_wentOn (hrep.fromTicket.trans rfl) hlink hlim ha (hrep.wf (claimed_wf wf))
  unfold WalkerWentOn MovedOn MovedOnFrom StalledWith NoticeShown inChain causeSet at h ⊢
  rw [takeEnd_walker, takeEnd_host, takeEnd_mem]
  exact h

/-- The walker's end of a take reports at most the one notice of a stall. -/
theorem afterTake_mayReport {v : State} (h : v.walker.state ≠ .stalled) :
    ∃ j, Reported j v (afterTake v) := by
  rcases afterTake_reported h with ⟨h1, _⟩ | ⟨h1, _⟩
  · exact ⟨_, h1⟩
  · exact ⟨_, h1⟩

/-- A ticket that stays TAKEN, its owner having written in its result area at most. -/
theorem takeEnd_takenLong {s v : State} {kind : Nat} {r : Nat → Prop} (hk : TakesKind s kind)
    (hr : InBody (look s) r) (bytes : BytesKept r (claimed s) v) (hrep : Reported 0 (claimed s) v)
    (state : v.walker.state = (claimed s).walker.state)
    (count : v.walker.outstanding = s.walker.outstanding + 1) (ha : Alike s v) :
    TakenLong s (takeEnd s v)
    ∧ BytesKept (fun a => a = ticketBase (look s) ∨ nextNoticeBytes s a ∨ r a) s (takeEnd s v) := by
  obtain ⟨_, _, h1, h2, wf⟩ := id hk
  have hlow := ticketBase_low (look s)
  have hnext : ∀ a, nextNoticeBytes v a → nextNoticeBytes s a := fun a h => by
    unfold nextNoticeBytes at h ⊢
    rwa [ha.noticeAt_eq] at h
  have hlink : linkOf v (look s) = linkOf s (look s) := by
    have hout : ∀ i, i < 0x18 → ¬ r (ticketBase (look s) + i) := fun i hi h => by
      have := hr _ h
      omega
    unfold linkOf
    rw [ticketHalf, bytes.half_eq (hout 4 (by omega)) (hout 5 (by omega))]
    exact congrArg BitVec.toNat (claimed_ticketHalf s (by omega))
  obtain ⟨j, hj⟩ := afterTake_mayReport (hk.not_stalled state)
  have hall := hrep.after hj
  refine ⟨⟨?_, ?_, ?_, ?_, takeEnd_wentOn_of_link wf hlink hrep ha⟩, fun a hn => ?_⟩
  · rw [← claimed_hand wf h1 h2]
    unfold handOf ticketByte
    rw [takeEnd_mem, afterTake_bytes v _ fun h => ?_, bytes _ fun h => ?_]
    · have := hr _ h
      omega
    · have := nextNoticeBytes_low h
      omega
  · unfold TakeRecorded
    rw [takeEnd_walker, hall.expected, hall.fromTicket]
    exact ⟨rfl, rfl⟩
  · have := hall.host
    unfold HostKept at this ⊢
    rw [takeEnd_host, this]
    simp
  · rw [takeEnd_walker, afterTake_outstanding, count]
  · simp only [not_or] at hn
    obtain ⟨n1, n2, n3⟩ := hn
    rw [takeEnd_mem, afterTake_bytes v a fun h => n2 (hnext a h), bytes a n3]
    exact claimed_bytes s a n1

/-- A frame of what the owner has left is one of the whole command. -/
theorem takeEnd_frame {ps : List Part} {s v : State} (hps : ∀ p ∈ ticketParts, p ∈ ps)
    (h : ChangesOnly ps s v) : ChangesOnly ps s (takeEnd s v) := by
  intro p hp
  have hv := h p hp
  have hm : ∀ q ∈ ticketParts, p ≠ q := fun q hq e => hp (e ▸ hps q hq)
  cases p
  case mem => exact absurd rfl (hm .mem (by decide))
  case walker => exact absurd rfl (hm .walker (by decide))
  case host => exact absurd rfl (hm .host (by decide))
  case sent => exact absurd rfl (hm .sent (by decide))
  all_goals simpa [samePart] using hv

/-! ## The checks of a body -/

theorem within_decide (lo hi v : Nat) : within lo hi v = decide (lo ≤ v ∧ v ≤ hi) := by
  simp [within, Bool.decide_and]

/-- A last check that passes is never the first failure. -/
theorem firstFailure_append_true (l : List (Nat × Bool)) (n : Nat) :
    firstFailure (l ++ [(n, true)]) = firstFailure l := by
  simp [firstFailure, List.find?_append]

/-- The checks of QUEUE_PANELS, as the statement lists them (R56). -/
theorem orderChecks_eq (s : State) (n : Nat) : orderChecks s n =
    [ (1, decide (bodyByte s n 0x20 ≤ 15)),
      (2, decide (4000 ≤ bodyHalf s n 0x22 ∧ bodyHalf s n 0x22 ≤ 60000)),
      (3, decide (bodyHalf s n 0x24 ≤ 3200)),
      (4, decide (bodyHalf s n 0x26 ≤ 3200 ∧ bodyHalf s n 0x24 + 100 ≤ bodyHalf s n 0x26)),
      (5, decide (1 ≤ bodyByte s n 0x28 ∧ bodyByte s n 0x28 ≤ 8)),
      (6, decide (bodyByte s n 0x29 ≤ 1)), (7, decide (bodyByte s n 0x2A ≤ 1)),
      (8, decide (bodyByte s n 0x2B ≤ 1)) ] ++ [(9, true)] := by
  simp only [orderChecks, within_decide, Bool.decide_and]
  rfl

/-- The fabric class of a slot, once its ticket is claimed. -/
@[simp] theorem claimed_fabricClass (s : State) (i : Fin 16) : fabricClass (claimed s) i = fabricClass s i :=
  (claimed_logAndTickets s).prof_eq i (by decide)

/-- The first refusal of a body whose fields are in range (R56). -/
theorem orderRefusal_claimed {s : State} {i : Fin 16} (hi : slotField s (look s) = i)
    (h : firstFailure (orderChecks s (look s)) = none) : orderRefusal (claimed s) (look s) =
      if s.lib.slots[i].state ≠ .valid then some (.profile, 0)
      else if fabricClass s i ≠ s.line.fabric.toNat then some (.fabric, 0)
      else if bodyByte s (look s) 0x29 = 1 ∧ s.line.marks = false then some (.noMarks, 0)
      else none := by
  simp [-Fin.getElem_fin, orderRefusal, h, hi]

/-! ## The open order -/

/-- The order and its entry joined at the tails, the in-use count raised, and the eight summaries NONE (R57). -/
def orderJoined (o : OpenOrder) (n : Nat) (s : State) : State :=
  putBytes (ticketBase n + 0x80) (List.replicate 128 0)
    (appendEntry { ticket := n, profile := o.profile, next := 1, retry := [] }
      { s with ord := { s.ord with orders := s.ord.orders ++ [o] } })

theorem orderJoined_ord (o : OpenOrder) (n : Nat) (s : State) : (orderJoined o n s).ord = { s.ord with
    orders := s.ord.orders ++ [o],
    entries := s.ord.entries ++ [{ ticket := n, profile := o.profile, next := 1, retry := [] }] } := rfl

theorem orderJoined_lib (o : OpenOrder) (n : Nat) (s : State) : (orderJoined o n s).lib =
    s.lib.withSlot o.profile { s.lib.slots[o.profile] with inUse := s.lib.slots[o.profile].inUse + 1 } := rfl

@[simp] theorem orderJoined_keeps (o : OpenOrder) (n : Nat) (s : State) :
    (orderJoined o n s).line = s.line ∧ (orderJoined o n s).pos = s.pos
    ∧ (orderJoined o n s).trig = s.trig ∧ (orderJoined o n s).reg = s.reg
    ∧ (orderJoined o n s).heat = s.heat ∧ (orderJoined o n s).dose = s.dose
    ∧ (orderJoined o n s).tens = s.tens ∧ (orderJoined o n s).lastReading = s.lastReading
    ∧ (orderJoined o n s).walker = s.walker ∧ (orderJoined o n s).host = s.host
    ∧ (orderJoined o n s).sent = s.sent ∧ (orderJoined o n s).drawn = s.drawn
    ∧ (orderJoined o n s).pending = s.pending :=
  ⟨rfl, rfl, rfl, rfl, rfl, rfl, rfl, rfl, rfl, rfl, rfl, rfl, rfl⟩

/-- The result area of a ticket (10.6). -/
def resultBytes (n a : Nat) : Prop := ticketBase n + 0x80 ≤ a ∧ a < ticketBase n + 0x100

theorem orderJoined_bytes (o : OpenOrder) (n : Nat) (s : State) :
    BytesKept (resultBytes n) s (orderJoined o n s) :=
  BytesKept.putBytes _ _ (appendEntry _ { s with ord := { s.ord with orders := s.ord.orders ++ [o] } })
    fun x h1 h2 => ⟨h1, by rw [List.length_replicate] at h2; omega⟩

theorem orderJoined_reported (o : OpenOrder) (n : Nat) (s : State) :
    Reported 0 s (orderJoined o n s) :=
  Reported.after (t := appendEntry { ticket := n, profile := o.profile, next := 1, retry := [] }
      { s with ord := { s.ord with orders := s.ord.orders ++ [o] } }) .of_same
    (putTicket_reported (by have := ticketBase_low n; omega) _ _)

theorem orderJoined_mem (o : OpenOrder) (n : Nat) (s : State) :
    (orderJoined o n s).mem = Memory.putAll s.mem (ticketBase n + 0x80) (List.replicate 128 0) := by
  simp [orderJoined, putBytes]

/-- The summaries of a new order read NONE (R57, R75). -/
theorem orderJoined_summaries {s : State} (wf : Memory.wf s.mem = true) (o : OpenOrder) {n k : Nat}
    (h1 : 1 ≤ n) (h2 : n ≤ 256) (hk : k < 128) : ticketByte (orderJoined o n s) n (0x80 + k) = 0 := by
  obtain ⟨_, hend⟩ := ticketBase_range h1 h2
  have := Memory.get_putAll_in wf (ticketBase n + 0x80) (List.replicate 128 0)
    (by rw [List.length_replicate]; omega) k (by rw [List.length_replicate]; omega)
  rw [ticketByte, orderJoined_mem, ← Nat.add_assoc, this, List.getElem_replicate]

/-- The ticket of an order whose print does not start at once stays TAKEN (R170). -/
theorem orderTaken {s : State} {kind : Nat} (hk : TakesKind s kind) (o : OpenOrder) :
    TakenLong s (takeEnd s (raiseCount (orderJoined o (look s) (claimed s))))
    ∧ BytesKept (fun a => a = ticketBase (look s) ∨ nextNoticeBytes s a ∨ resultBytes (look s) a) s
      (takeEnd s (raiseCount (orderJoined o (look s) (claimed s)))) := by
  refine takeEnd_takenLong hk (fun a ha => ?_)
    ((orderJoined_bytes o (look s) (claimed s)).trans (.of_mem (by simp)))
    ((orderJoined_reported o (look s) (claimed s)).quiet (.of_same (expected := rfl) (fromTicket := rfl)))
    ?_ ?_ {}
  · unfold resultBytes at ha
    omega
  · simp [raiseCount]
  · simp [raiseCount]

end Sys2Proof.Machine

namespace Sys2Proof.Proofs

open Sys2Proof.Machine

/-- Settles O31: with no print to start the ticket stays TAKEN, its result area the only body bytes written. -/
theorem queuePanels : Obligations.QueuePanels := by
  intro s hk
  obtain ⟨_, _, h1, h2, wf⟩ := id hk
  refine ⟨fun f hf => refused_of rfl hk ?_, fun i hi l1 l2 a1 a2 c1 c2 m r c => ?_⟩
  · have he : firstFailure (orderChecks s (look s)) = some f := by
      rw [orderChecks_eq, firstFailure_append_true]
      exact hf
    simp [takeQueuePanels, orderRefusal, he]
  have hs := slotField_eq hi
  have hf : firstFailure (orderChecks s (look s)) = none := by
    rw [orderChecks_eq, firstFailure_append_true, firstFailure_eq_none]
    intro g hg
    simp at hg
    omega
  have href := orderRefusal_claimed hs hf
  refine ⟨fun hv => refused_of rfl hk ?_, fun hv hfab => refused_of rfl hk ?_, fun hv hfab =>
    ⟨fun hm hm' => refused_of rfl hk ?_, fun hm hst => ?_⟩⟩
  · simp [-Fin.getElem_fin, takeQueuePanels, href, hv]
  · simp [-Fin.getElem_fin, takeQueuePanels, href, hv, hfab]
  · simp [-Fin.getElem_fin, takeQueuePanels, href, hv, hfab, hm, hm']
  · have hnone : orderRefusal (claimed s) (look s) = none := by
      rw [href, if_neg (by simpa using hv), if_neg (by simpa using hfab), if_neg]
      rintro ⟨hm1, hm2⟩
      rcases hm with h0 | h0
      · omega
      · rw [h0] at hm2
        cases hm2
    have hquiet : printTest (orderJoined (newOrder (claimed s) (look s)) (look s) (claimed s))
        = orderJoined (newOrder (claimed s) (look s)) (look s) (claimed s) :=
      printTest_unstartable (.inr (Startable.congr hst (by simp) (by simp) (by simp) (by simp [orderJoined_ord])
        (by simp [orderJoined_ord]) (by simp [orderJoined_ord])))
    have hf : takeQueuePanels (look s) (claimed s)
        = raiseCount (orderJoined (newOrder (claimed s) (look s)) (look s) (claimed s)) := by
      rw [← hquiet, takeQueuePanels, hnone]
      rfl
    have hnew : newOrder (claimed s) (look s) = {
        ticket := look s, profile := i, length := bodyHalf s (look s) 0x22,
        laneStart := bodyHalf s (look s) 0x24, laneEnd := bodyHalf s (look s) 0x26,
        matched := decide (bodyByte s (look s) 0x29 = 1),
        rejectMark := decide (bodyByte s (look s) 0x2A = 1),
        cutLast := decide (bodyByte s (look s) 0x2B = 1),
        tag := ticketWord s (look s) 0x2C,
        copies := List.replicate (bodyByte s (look s) 0x28) ⟨.waiting, 0⟩,
        cancel := false, rejects := 0 } := by
      simp [newOrder, orderLength, orderLaneStart, orderLaneEnd, orderCopies, hs, beq_eq_decide]
    obtain ⟨htaken, hbytes⟩ := orderTaken hk (newOrder (claimed s) (look s))
    refine ⟨_, by rw [exec_take rfl hk, hf], ?_, ?_, fun k hk => ?_, htaken, ?_, ?_, hbytes⟩
    · simp [orderJoined_ord, hnew]
    · simp [-Fin.getElem_fin, orderJoined_lib, hnew]
    · have hlow := ticketBase_low (look s)
      rw [← orderJoined_summaries (claimed_wf wf) (newOrder (claimed s) (look s)) h1 h2 hk, ticketByte,
        takeEnd_mem, afterTake_bytes _ _ fun h => by have := nextNoticeBytes_low h; omega,
        (raiseCount_keeps _).1, ticketByte]
    · rw [takeEnd_sent]; simp
    · exact takeEnd_frame (by decide) (.of_all (by simp [samePart, ticketParts]))

end Sys2Proof.Proofs
end

