-- ==== Sys2Proof/Proofs/CancelPanels.lean ====
section
/-! PROOFS. CANCEL_PANELS: the refusals, the entry removed, the waiting copies CANCELLED with their summaries,
and the order finished where nothing of it is left (R73 to R75). -/

-- One thread for the whole file: each waiting thread reserves its stack.
set_option Elab.async false

namespace Sys2Proof.Machine

/-! ## The copies that satisfy a test -/

theorem copiesWhere_length (o : OpenOrder) (p : Copy → Bool) : (o.copiesWhere p).length = o.copies.countP p := by
  unfold OpenOrder.copiesWhere
  induction o.copies using List.reverseRecOn with
  | nil => rfl
  | append_singleton l c ih =>
    have hfront : (List.range l.length).filterMap (fun k =>
          if (((l ++ [c])[k]?.map p).getD false) = true then some (k + 1) else none)
        = (List.range l.length).filterMap fun k =>
          if ((l[k]?.map p).getD false) = true then some (k + 1) else none :=
      List.filterMap_congr fun k hk => by
        rw [List.getElem?_append_left (List.mem_range.mp hk)]
    rw [List.length_append, List.length_singleton, List.range_succ, List.filterMap_append, List.length_append,
      hfront, ih, List.countP_append]
    cases hc : p c <;> simp [hc]

theorem mem_copiesWhere {o : OpenOrder} {p : Copy → Bool} {k : Nat} :
    k ∈ o.copiesWhere p ↔
      1 ≤ k ∧ k ≤ o.copies.length ∧ ∃ c, o.copies[k - 1]? = some c ∧ p c = true := by
  unfold OpenOrder.copiesWhere
  simp only [List.mem_filterMap, List.mem_range, Option.ite_none_right_eq_some, Option.some.injEq]
  constructor
  · rintro ⟨j, hj, hp, rfl⟩
    refine ⟨by omega, by omega, o.copies[j], by simp, ?_⟩
    simpa [hj] using hp
  · rintro ⟨h1, h2, c, hc, hp⟩
    exact ⟨k - 1, by omega, by simp [hc, hp], by omega⟩

/-- A cancelled order has a copy left to settle exactly where one was PRINTED (R74). -/
theorem cancelledOrder_unsettled (o : OpenOrder) :
    o.cancelled.unsettled = true ↔ ∃ c ∈ o.copies, c.place = .printed := by
  unfold OpenOrder.unsettled OpenOrder.cancelled
  simp only [List.any_map, List.any_eq_true, Function.comp]
  refine exists_congr fun c => and_congr_right fun _ => ?_
  cases hc : c.place <;> simp [Copy.unsettled, Copy.isWaiting, hc]

/-! ## The entry that leaves -/

theorem dropEntry_ord (t : Nat) (s : State) :
    (dropEntry t s).ord = { s.ord with entries := s.ord.entries.eraseP fun e => e.ticket == t } := by
  unfold dropEntry
  cases he : findEntry t s with
  | none => rw [List.eraseP_of_forall_not (List.find?_eq_none.mp he)]
  | some e => rfl

/-- The in-use count falls in the slot that the leaving entry names (R31, R58). -/
theorem dropEntry_slot (t : Nat) (s : State) (i : Fin 16) : (dropEntry t s).lib.slots[i] =
    { s.lib.slots[i] with inUse := s.lib.slots[i].inUse - (match findEntry t s with
      | none => 0
      | some e => if e.profile = i then 1 else 0) } := by
  unfold dropEntry
  cases findEntry t s with
  | none => rfl
  | some e =>
    simp only [releaseSlot, updSlot, setEntries, Fin.getElem_fin, Vector.getElem_set, Fin.val_inj]
    by_cases hi : e.profile = i
    · subst hi
      rw [if_pos rfl, if_pos rfl]
    · rw [if_neg hi, if_neg hi]
      rfl

/-! ## The summaries -/

/-- The summary of copy k reads CANCELLED (R75, 10.6). -/
def CopyCancelled (n k : Nat) (s : State) : Prop :=
  ∀ i (h : i < cancelledSummary.length), Memory.get s.mem (summaryAt n k + i) = cancelledSummary[i]

theorem CopyCancelled.shown {n k : Nat} {s : State} (h : CopyCancelled n k s) :
    ticketByte s n (0x80 + 16 * (k - 1) + 2) = 3 ∧ ticketHalf s n (0x80 + 16 * (k - 1)) = 0
    ∧ ticketHalf s n (0x80 + 16 * (k - 1) + 10) = 0x8000 := by
  have hat : ∀ i, ticketBase n + (0x80 + 16 * (k - 1) + i) = summaryAt n k + i := fun i => by
    unfold summaryAt
    omega
  have h0 := h 0 (by decide)
  have h1 := h 1 (by decide)
  have h2 := h 2 (by decide)
  have h10 := h 10 (by decide)
  have h11 := h 11 (by decide)
  refine ⟨?_, ?_, ?_⟩
  · rw [ticketByte, hat, h2]
    rfl
  · exact (congrArg (Memory.half s.mem) (hat 0)).trans (congrArg₂ (fun hi lo : Byte => (hi ++ lo : Half)) h1 h0)
  · exact (congrArg (Memory.half s.mem) (hat 10)).trans (congrArg₂ (fun hi lo : Byte => (hi ++ lo : Half)) h11 h10)

theorem CopyCancelled.of_bytes {n k : Nat} {r : Nat → Prop} {s t : State} (h : CopyCancelled n k s)
    (hb : BytesKept r s t) (hr : ∀ a, summaryAt n k ≤ a → a < summaryAt n k + 16 → ¬ r a) :
    CopyCancelled n k t := fun i hi => by
  have : cancelledSummary.length = 16 := rfl
  rw [hb _ (hr _ (by omega) (by omega))]
  exact h i hi

/-- One summary written: that copy's reads CANCELLED, and one that did still does. -/
theorem putSummary_cancelled {n k j : Nat} {s : State} (wf : Memory.wf s.mem = true)
    (hn : ticketBase n + 0x100 ≤ memEnd) (hj : j ≤ 8) (h : k = j ∨ CopyCancelled n k s) (h1 : 1 ≤ k)
    (h1' : 1 ≤ j) : CopyCancelled n k (putBytes (summaryAt n j) cancelledSummary s) := by
  have hlen : cancelledSummary.length = 16 := rfl
  by_cases hk : k = j
  · subst hk
    exact fun i hi => by
      rw [putBytes_mem]
      exact Memory.get_putAll_in wf _ _ (by unfold summaryAt; omega) i hi
  · refine (h.resolve_left hk).of_bytes (BytesKept.putBytes
      (r := fun a => summaryAt n j ≤ a ∧ a < summaryAt n j + 16)
      _ _ s fun a h1 h2 => ⟨h1, by omega⟩) fun a ha hb hc => ?_
    unfold summaryAt at *
    omega

theorem writeCancelled_cancelled {n k : Nat} {ks : List Nat} {s : State} (wf : Memory.wf s.mem = true)
    (hn : ticketBase n + 0x100 ≤ memEnd) (hks : ∀ j ∈ ks, 1 ≤ j ∧ j ≤ 8) (h1 : 1 ≤ k)
    (h : k ∈ ks ∨ CopyCancelled n k s) : CopyCancelled n k (writeCancelled n ks s) := by
  induction ks generalizing s with
  | nil => exact h.resolve_left (List.not_mem_nil)
  | cons j ks ih =>
    obtain ⟨j1, j8⟩ := hks j List.mem_cons_self
    refine ih (Memory.putAll_wf wf _ _) (fun i hi => hks i (List.mem_cons_of_mem _ hi)) ?_
    by_cases hk : k ∈ ks
    · exact .inl hk
    · refine .inr (putSummary_cancelled wf hn j8 (h.imp_left fun hm => ?_) h1 j1)
      exact (List.mem_cons.mp hm).resolve_right hk

/-- The summaries lie in the result area. -/
theorem writeCancelled_bytes {n : Nat} {ks : List Nat} (hks : ∀ j ∈ ks, 1 ≤ j ∧ j ≤ 8) (s : State) :
    BytesKept (resultBytes n) s (writeCancelled n ks s) := by
  induction ks generalizing s with
  | nil => exact .rfl _ s
  | cons j ks ih =>
    obtain ⟨j1, j8⟩ := hks j List.mem_cons_self
    refine (BytesKept.putBytes (summaryAt n j) cancelledSummary s fun a h1 h2 => ?_).trans
      (ih (fun i hi => hks i (List.mem_cons_of_mem _ hi)) _)
    have : cancelledSummary.length = 16 := rfl
    unfold summaryAt resultBytes at *
    omega

theorem writeCancelled_reported (n : Nat) (ks : List Nat) (s : State) :
    Reported 0 s (writeCancelled n ks s) := by
  induction ks generalizing s with
  | nil => exact .rfl s
  | cons j ks ih => exact (putTicket_reported (summaryAt_low n j) _ s).quiet (ih _)

/-! ## The cancelled order -/

theorem cancelOrder_ord (o : OpenOrder) (s : State) : (cancelOrder o s).ord = { s.ord with
    orders := s.ord.orders.map fun q => if q.ticket = o.ticket then q.cancelled else q,
    entries := s.ord.entries.eraseP fun e => e.ticket == o.ticket } := by
  simp only [cancelOrder, writeCancelled_keeps, dropEntry_ord]
  rfl

theorem cancelOrder_slot (o : OpenOrder) (s : State) (i : Fin 16) : (cancelOrder o s).lib.slots[i] =
    { s.lib.slots[i] with inUse := s.lib.slots[i].inUse - (match findEntry o.ticket s with
      | none => 0
      | some e => if e.profile = i then 1 else 0) } := by
  have h := dropEntry_slot o.ticket (updOrder o.ticket OpenOrder.cancelled s) i
  simp only [cancelOrder, writeCancelled_keeps]
  exact h

theorem cancelOrder_reported (o : OpenOrder) (s : State) : Reported 0 s (cancelOrder o s) :=
  Reported.after (t := dropEntry o.ticket (updOrder o.ticket OpenOrder.cancelled s)) (.of_same)
    (writeCancelled_reported _ _ _)

/-- The copies that a cancel touches, of an order of at most 8 copies (R57). -/
theorem waiting_bounds {o : OpenOrder} (h : o.copies.length ≤ 8) :
    ∀ j ∈ o.copiesWhere Copy.isWaiting, 1 ≤ j ∧ j ≤ 8 := fun j hj => by
  obtain ⟨h1, h2, _⟩ := mem_copiesWhere.mp hj
  exact ⟨h1, by omega⟩

/-- The order stands, with its flag set and its waiting copies CANCELLED. -/
theorem cancelOrder_found {n : Nat} {s : State} {o : OpenOrder} (h : findOrder n s = some o) :
    findOrder n (cancelOrder o s) = some o.cancelled := by
  have hn := findOrder_ticket h
  have := findOrder_updOrder (f := OpenOrder.cancelled) (fun _ => rfl) h
  unfold findOrder at *
  rw [cancelOrder_ord, hn]
  exact this

/-! ## The finish of an order with nothing left -/

theorem finishIfSettled_mayStall (t : Nat) (s : State) : MayStall s (finishIfSettled t s) := by
  unfold finishIfSettled
  split
  · exact .rfl s
  · split
    · exact .rfl s
    · exact MayStall.trans (.of_quiet (t := removeOrder t s) (.of_same) (by simp)) (finishLong_mayStall _ _ _ _)

theorem finishIfSettled_bytes (t : Nat) (s : State) :
    BytesKept (fun a => finishBytes t a ∨ logBytes a) s (finishIfSettled t s) := by
  unfold finishIfSettled
  split
  · exact .rfl _ s
  · split
    · exact .rfl _ s
    · exact BytesKept.trans (t := removeOrder t s) (.of_mem (by simp)) (finishLong_bytes _ _ _ _)

/-- The look at an order leaves what a print start reads. -/
theorem finishIfSettled_print (t : Nat) (s : State) : (finishIfSettled t s).ord.panels = s.ord.panels
    ∧ (finishIfSettled t s).ord.engine = s.ord.engine ∧ (finishIfSettled t s).ord.endMark = s.ord.endMark := by
  unfold finishIfSettled
  split
  · exact ⟨rfl, rfl, rfl⟩
  · split <;> simp

/-! ## The end of a take -/

/-- What every take leaves of the walker, of the host unit and of memory, whatever its owner has done. -/
theorem takeEnd_recorded {s v : State} {j : Nat} (h : Reported j (claimed s) v) (hs : v.walker.state ≠ .stalled) :
    TakeRecorded s (takeEnd s v) ∧ HostKept s (takeEnd s v) ∧ LogAndTicketsOnly s (takeEnd s v) := by
  obtain ⟨i, hi⟩ := afterTake_mayReport hs
  have hall := h.trans hi
  refine ⟨?_, ?_, (claimed_logAndTickets s).trans fun a ha => ?_⟩
  · unfold TakeRecorded
    rw [takeEnd_walker, hall.expected, hall.fromTicket]
    exact ⟨rfl, rfl⟩
  · have := hall.host
    unfold HostKept at this ⊢
    rw [takeEnd_host, this]
    simp
  · rw [takeEnd_mem]
    exact hall.logAndTickets a ha

/-- The end of a take writes in the notice log at most. -/
theorem takeEnd_log (s v : State) : BytesKept logBytes v (takeEnd s v) := fun a ha => by
  rw [takeEnd_mem]
  refine afterTake_bytes v a fun h => ha ?_
  have := noticeAt_in_log v
  unfold nextNoticeBytes at h
  unfold logBytes
  omega

theorem takeEnd_causes (s : State) {v : State} (hs : v.walker.state ≠ .stalled) :
    ∀ c, causeSet v c = true → causeSet (takeEnd s v) c = true := fun c hc => by
  obtain ⟨_, hi⟩ := afterTake_mayReport hs
  have := hi.causes c hc
  unfold causeSet at this ⊢
  rwa [takeEnd_host]

/-- A ticket that the owner has finished stays shown. -/
theorem takeEnd_shows {n : Nat} {code : ResultCode} {d : Word} {s u v : State} (h : TicketShows n code d u v)
    (hs : v.walker.state ≠ .stalled) : TicketShows n code d u (takeEnd s v) :=
  h.later (takeEnd_log s v) (fun a ha => .inl (by
    have := ticketBase_low n
    unfold logBytes at ha
    omega)) (takeEnd_causes s hs _)

end Sys2Proof.Machine

namespace Sys2Proof.Proofs

open Sys2Proof.Machine

/-- The cancel's own ticket finished, before the order is looked at (R73). -/
def cancelReported (o : OpenOrder) (s : State) : State :=
  finishTicket (look s) .ok (natWord (o.copies.countP Copy.isWaiting)) (cancelOrder o (claimed s))

theorem cancelReported_ord (o : OpenOrder) (s : State) : (cancelReported o s).ord = { s.ord with
    orders := s.ord.orders.map fun q => if q.ticket = o.ticket then q.cancelled else q,
    entries := s.ord.entries.eraseP fun e => e.ticket == o.ticket } := by
  have h : (cancelReported o s).ord = (cancelOrder o (claimed s)).ord := by simp [cancelReported]
  rw [h, cancelOrder_ord]
  simp

/-- What the owner of a CANCEL_PANELS of order n leaves before the walker goes on, `w` being the cancel alone
and `v` the order looked at as well. -/
structure CancelLeft (n : Nat) (o : OpenOrder) (s v : State) : Prop where
  reported : Reported 0 (claimed s) v
  running : v.walker.state ≠ .stalled
  shows : TicketShows (look s) .ok (natWord (o.copies.countP Copy.isWaiting)) s v
  entries : v.ord.entries = s.ord.entries.eraseP fun e => e.ticket == n
  slots : ∀ i : Fin 16, v.lib.slots[i] = { s.lib.slots[i] with
    inUse := s.lib.slots[i].inUse - (match findEntry n s with
      | none => 0
      | some e => if e.profile = i then 1 else 0) }
  summaries : ∀ k ∈ o.copiesWhere Copy.isWaiting, CopyCancelled n k v
  frame : ChangesOnly (.ord :: .lib :: ticketParts) s v

theorem cancelReported_left {s : State} {n : Nat} {o : OpenOrder} (hk : TakesKind s 0x41) (h1 : 1 ≤ n)
    (h2 : n ≤ 256) (ho : findOrder n s = some o) (h8 : o.copies.length ≤ 8) :
    CancelLeft n o s (cancelReported o s) := by
  obtain ⟨_, _, l1, l2, wf⟩ := id hk
  obtain ⟨_, hend⟩ := ticketBase_range h1 h2
  obtain rfl := findOrder_ticket ho
  have hwf := (cancelOrder_reported o (claimed s)).wf (claimed_wf wf)
  have hslot := fun i => cancelOrder_slot o (claimed s) i
  have hcancelled : ∀ k ∈ o.copiesWhere Copy.isWaiting, CopyCancelled o.ticket k (cancelOrder o (claimed s)) :=
    fun k hk => writeCancelled_cancelled (by simpa using claimed_wf wf) (by omega) (waiting_bounds h8)
      (mem_copiesWhere.mp hk).1 (.inl hk)
  refine ⟨(cancelOrder_reported o (claimed s)).quiet (finishTicket_reported _ _ _ _), ?_, ?_, ?_, fun i => ?_,
    fun k hk => (hcancelled k hk).of_bytes (finishTicket_bytes _ _ _ _) fun a ha hb hc => ?_,
    .of_all (by simp [samePart, ticketParts, cancelReported])⟩
  · exact hk.not_stalled (by
      obtain ⟨c, slot, seq, e⟩ := finishTicket_walker (look s) .ok
        (natWord (o.copies.countP Copy.isWaiting)) (cancelOrder o (claimed s))
      rw [cancelReported, e]
      simp)
  · exact (finishTicket_shows hwf l1 l2 _ _).stamped (by simp) (by simp)
  · simp [cancelReported, cancelOrder_ord]
  · have h : (cancelReported o s).lib = (cancelOrder o (claimed s)).lib := by simp [cancelReported]
    rw [h, hslot]
    simp [-Fin.getElem_fin, findEntry]
  · have := waiting_bounds h8 k hk
    unfold finishBytes at hc
    unfold summaryAt ticketBase at *
    omega

/-- The look at the order changes nothing of this: a finish writes in the header of the order's ticket. -/
theorem CancelLeft.looked {s v : State} {n : Nat} {o : OpenOrder} (h : CancelLeft n o s v)
    (hk : TakesKind s 0x41) (h1 : 1 ≤ n) (hn : n ≠ look s) (hs : v.walker.state = (claimed s).walker.state) :
    CancelLeft n o s (finishIfSettled n v) := by
  obtain ⟨_, _, l1, _, _⟩ := id hk
  have hrun : v.walker.state ≠ .full := by
    rw [hs, claimed_walker]
    simp [hk.running]
  obtain ⟨hr, hstate⟩ := (finishIfSettled_mayStall n v).quiet hrun
  have hb := finishIfSettled_bytes n v
  refine ⟨h.reported.quiet hr, by rw [hstate]; exact h.running, h.shows.later hb (fun a ha => ?_) (hr.causes _),
    ?_, fun i => ?_, fun k hk => (h.summaries k hk).of_bytes hb fun a ha _ hc => ?_,
    h.frame.trans (.of_all (by simp [samePart, ticketParts]))⟩
  · unfold finishBytes logBytes ticketBase at *
    omega
  · rw [← h.entries]
    unfold finishIfSettled
    split
    · rfl
    · split <;> simp
  · rw [show (finishIfSettled n v).lib = v.lib by simp]
    exact h.slots i
  · unfold finishBytes logBytes summaryAt ticketBase at *
    omega

/-- Settles O33: the look at the order leaves the cancel as it is, and where no copy is PRINTED finishes it. -/
theorem cancelPanels : Obligations.CancelPanels := by
  intro s hk
  refine ⟨fun hn => refused_of rfl hk ?_, fun h1 h2 hn => refused_of rfl hk ?_,
    fun n o hn h1 h2 ho hne h8 hst => ?_⟩
  · rw [takeCancelPanels, cancelTarget, claimed_bodyHalf s (by decide), if_pos hn]
  · have hnone : findOrder (bodyHalf s (look s) 0x20) (claimed s) = none := by
      simpa [findOrder] using hn
    rw [takeCancelPanels, cancelTarget, claimed_bodyHalf s (by decide), if_neg (by omega), hnone]
  have hl := cancelReported_left hk h1 h2 ho h8
  obtain ⟨hstate, hcount⟩ : (cancelReported o s).walker.state = (claimed s).walker.state
      ∧ (cancelReported o s).walker.outstanding = s.walker.outstanding := by
    obtain ⟨c, slot, seq, e⟩ := finishTicket_walker (look s) .ok
      (natWord (o.copies.countP Copy.isWaiting)) (cancelOrder o (claimed s))
    rw [cancelReported, e]
    simp
  have hfound : findOrder n (cancelReported o s) = some o.cancelled := by
    rw [← cancelOrder_found (s := claimed s) (by simpa [findOrder] using ho)]
    simp [findOrder, cancelReported]
  have hd := hl.looked hk h1 hne hstate
  have hsettled : (∀ c ∈ o.copies, c.place ≠ .printed) → finishIfSettled n (cancelReported o s)
      = finishLong n o.cancelled.code (natWord o.cancelled.rejects) (removeOrder n (cancelReported o s)) :=
    fun hp => by
      have hu : ¬ o.cancelled.unsettled = true := fun h => by
        obtain ⟨c, hc, he⟩ := (cancelledOrder_unsettled o).mp h
        exact hp c hc he
      rw [finishIfSettled_found hfound, if_neg hu]
  have hquiet : printTest (finishIfSettled n (cancelReported o s)) = finishIfSettled n (cancelReported o s) := by
    obtain ⟨hpanels, hengine, hmark⟩ := finishIfSettled_print n (cancelReported o s)
    refine printTest_unstartable (.inr (Startable.congr hst (hd.frame .line (by decide))
      (hd.frame .dose (by decide)) (hd.frame .pos (by decide)) ?_ ?_ ?_))
    · rw [hpanels, cancelReported_ord]
    · rw [hengine, cancelReported_ord]
    · rw [hmark, cancelReported_ord]
  have heff : takeCancelPanels (look s) (claimed s) = finishIfSettled n (cancelReported o s) := by
    have hsome : findOrder n (claimed s) = some o := by simpa [findOrder] using ho
    rw [← hquiet, takeCancelPanels, cancelTarget, claimed_bodyHalf s (by decide), ← hn, if_neg (by omega), hsome]
    simp only [copiesWhere_length, findOrder_ticket ho]
    rfl
  have hwalker : (removeOrder n (cancelReported o s)).walker = (cancelReported o s).walker := by simp
  have hord : ∀ v, (takeEnd s v).ord = v.ord := by simp
  obtain ⟨hrec, hhost, hmem⟩ := takeEnd_recorded hd.reported hd.running
  refine ⟨_, o.cancelled, by rw [exec_take rfl hk, heff], ?_, takeEnd_shows hd.shows hd.running, ?_, fun i => ?_,
    fun k k1 k2 kw => ?_, fun hp => ⟨?_, ?_⟩, fun hp => ⟨?_, ?_, ?_⟩, hrec, hhost, ?_,
    takeEnd_frame (by decide) hd.frame, hmem⟩
  · simp [OpenOrder.cancelled, Copy.isWaiting]
  · simp [hd.entries]
  · rw [show ∀ v, (takeEnd s v).lib = v.lib by simp]
    exact hd.slots i
  · have hmem : k ∈ o.copiesWhere Copy.isWaiting := mem_copiesWhere.mpr ⟨k1, k2, by
      obtain ⟨c, hc, hw⟩ := Option.map_eq_some_iff.mp kw
      exact ⟨c, hc, by simp [Copy.isWaiting, hw]⟩⟩
    refine ((hd.summaries k hmem).of_bytes (takeEnd_log s _) fun a ha _ hc => ?_).shown
    have := ticketBase_low n
    unfold summaryAt at ha
    unfold logBytes at hc
    omega
  · have := (cancelledOrder_unsettled o).mpr hp
    rw [hord, finishIfSettled_found hfound, if_pos this, cancelReported_ord,
      findOrder_ticket ho]
    simp [OpenOrder.cancelled, Copy.isWaiting]
  · have := (cancelledOrder_unsettled o).mpr hp
    rw [takeEnd_walker, afterTake_outstanding, finishIfSettled_found hfound, if_pos this, hcount]
  · rw [hord, hsettled hp]
    simp
  · rw [takeEnd_walker, afterTake_outstanding, hsettled hp, finishLong_outstanding, hwalker, hcount]
  · refine takeEnd_shows ?_ hd.running
    rw [hsettled hp]
    have := finishLong_shows (s := removeOrder n (cancelReported o s)) (hl.reported.wf (claimed_wf hk.wf)) h1 h2
      o.cancelled.code (natWord o.cancelled.rejects)
    refine this.stamped ?_ ?_
    · rw [show (removeOrder n (cancelReported o s)).pos = s.pos by simp [cancelReported]]
    · rw [show (removeOrder n (cancelReported o s)).host = (cancelReported o s).host by simp,
        hl.reported.host.clock]
      simp
  · refine (takeEnd_sent (frameOf_congr (hd.frame .line (by decide)) (hd.frame .pos (by decide))
      (hd.frame .reg (by decide)) (hd.frame .dose (by decide)) (hd.frame .tens (by decide)))
      (lampSet_congr (hd.frame .line (by decide)))).trans ?_
    simp [cancelReported]

end Sys2Proof.Proofs
end

