-- ==== Sys2Proof/Proofs/PrintStarts.lean ====
section
/-! PROOFS. A print start: the number it takes, the record it makes, and what the print order list keeps
(R58 to R60, R63, R64). -/

-- One thread for the whole file: each waiting thread reserves its stack.
set_option Elab.async false

namespace Sys2Proof.Machine

/-! ## The number of a new record (R59) -/

theorem nextNumber_ne_zero (c : Half) : nextNumber c ≠ 0 := by
  unfold nextNumber
  split
  · decide
  · bv_omega

/-- The counter goes round 1..65535. -/
theorem nextNumber_toNat (c : Half) : (nextNumber c).toNat = c.toNat % 65535 + 1 := by
  unfold nextNumber
  split
  · next hc => rw [hc]; rfl
  · bv_omega

theorem iterate_nextNumber_toNat {c : Half} (h : c ≠ 0) (k : Nat) :
    nextNumber^[k] c ≠ 0 ∧ (nextNumber^[k] c).toNat = (c.toNat - 1 + k) % 65535 + 1 := by
  induction k with
  | zero => exact ⟨h, by simp only [Function.iterate_zero, id_eq]; bv_omega⟩
  | succ k ih =>
    rw [Function.iterate_succ_apply', nextNumber_toNat, ih.2]
    exact ⟨nextNumber_ne_zero _, by omega⟩

theorem freeNumber_of_free {live : List Half} {c : Half} (h : c ∉ live) (k : Nat) :
    freeNumber live k c = c := by
  cases k with
  | zero => rfl
  | succ k => simp [freeNumber, h]

theorem freeNumber_ne_zero {live : List Half} {k : Nat} {c : Half} (h : c ≠ 0) :
    freeNumber live k c ≠ 0 := by
  induction k generalizing c with
  | zero => exact h
  | succ k ih =>
    unfold freeNumber
    split
    · exact ih (nextNumber_ne_zero c)
    · exact h

/-- A number found live in the end means that every number tried is live. -/
theorem tried_live {live : List Half} {k : Nat} {c : Half} (h : freeNumber live k c ∈ live) :
    ∀ i, i ≤ k → nextNumber^[i] c ∈ live := by
  induction k generalizing c with
  | zero =>
    intro i hi
    obtain rfl : i = 0 := by omega
    exact h
  | succ k ih =>
    by_cases hc : c ∈ live
    · intro i hi
      cases i with
      | zero => exact hc
      | succ i =>
        rw [Function.iterate_succ_apply]
        exact ih (by simpa [freeNumber, hc] using h) i (by omega)
    · rw [freeNumber_of_free hc] at h
      exact absurd h hc

/-- Of `k + 1` numbers tried, one is not among `k` live ones (R59). -/
theorem freeNumber_free {live : List Half} {c : Half} (hc : c ≠ 0) (hl : live.length < 65535) :
    freeNumber live live.length c ∉ live := fun h => by
  have hnodup : ((List.range (live.length + 1)).map fun i => nextNumber^[i] c).Nodup := by
    refine List.Nodup.map_on (fun i hi j hj he => ?_) List.nodup_range
    have e1 := (iterate_nextNumber_toNat hc i).2
    have e2 := (iterate_nextNumber_toNat hc j).2
    rw [he, e2] at e1
    rw [List.mem_range] at hi hj
    omega
  have hsub : ((List.range (live.length + 1)).map fun i => nextNumber^[i] c) ⊆ live := fun x hx => by
    obtain ⟨i, hi, rfl⟩ := List.mem_map.mp hx
    exact tried_live h i (by have := List.mem_range.mp hi; omega)
  have := (List.subperm_of_subset hnodup hsub).length_le
  simp at this

theorem numberTaken_unique {s : State} (h : NumbersUnique s) : numberTaken s ≠ 0
    ∧ (∀ q ∈ s.ord.panels, q.number ≠ numberTaken s)
    ∧ ((∀ q ∈ s.ord.panels, q.number ≠ s.ord.counter) → numberTaken s = s.ord.counter) := by
  refine ⟨freeNumber_ne_zero h.counter, fun q hq he => ?_, fun hf => ?_⟩
  · have := freeNumber_free (live := s.ord.panels.map (·.number)) h.counter (by
      rw [List.length_map]
      have := h.room
      omega)
    rw [List.length_map] at this
    exact this (List.mem_map.mpr ⟨q, hq, he⟩)
  · exact freeNumber_of_free (fun hm => by
      obtain ⟨q, hq, he⟩ := List.mem_map.mp hm
      exact hf q hq he) _

/-! ## The start (R64) -/

theorem Entry.taken_profile (e : Entry) : e.taken.profile = e.profile := by
  unfold Entry.taken
  split <;> rfl

/-- The entries once a copy is taken from the front one. -/
theorem entriesTaken_eq (e : Entry) (rest : List Entry) (copies : Nat) :
    (if e.taken.exhausted copies = true then rest else e.taken :: rest) =
      if e.retry = [] then
        (if copies < e.next + 1 then rest else { e with next := e.next + 1 } :: rest)
      else if e.retry.tail = [] ∧ copies < e.next then rest
      else { e with retry := e.retry.tail } :: rest := by
  by_cases h : e.retry = []
  · simp [Entry.taken, Entry.exhausted, h]
  · simp [Entry.taken, Entry.exhausted, h]

theorem startPrintOf_ord (e : Entry) (rest : List Entry) (o : OpenOrder) (s : State) :
    (startPrintOf e rest o s).ord = { s.ord with
      panels := s.ord.panels ++ [newPanel (numberTaken s) o e s.pos.s],
      counter := nextNumber (numberTaken s),
      endMark := some (s.pos.s + BitVec.ofNat 32 o.length),
      orders := s.ord.orders.map fun q => if q.ticket = o.ticket then
        q.setCopy e.copy (fun c => { c with place := .printed }) else q,
      entries := if e.taken.exhausted o.copies.length = true then rest else e.taken :: rest } := by
  unfold startPrintOf
  split <;> rfl

/-- The in-use count of the entry's slot counts the record, and no longer an entry that leaves (R31). -/
theorem startPrintOf_slot (e : Entry) (rest : List Entry) (o : OpenOrder) (s : State) (i : Fin 16) :
    (startPrintOf e rest o s).lib.slots[i] = { s.lib.slots[i] with
      inUse := if e.profile = i ∧ ¬ e.taken.exhausted o.copies.length = true then s.lib.slots[i].inUse + 1
        else s.lib.slots[i].inUse } := by
  unfold startPrintOf
  by_cases hi : e.profile = i
  · subst hi
    split <;> simp [*, useSlot, releaseSlot, updSlot, createPanel, setEntries, updOrder, setEndMark, send, newPanel]
  · have hv : e.profile.val ≠ i.val := fun h => hi (Fin.ext h)
    split <;> simp [hv, hi, useSlot, releaseSlot, updSlot, createPanel, setEntries, updOrder, setEndMark, send,
      newPanel]

theorem startPrintOf_sent (e : Entry) (rest : List Entry) (o : OpenOrder) (s : State) :
    (startPrintOf e rest o s).sent
      = s.sent ++ [.printStart (numberTaken s) o.length o.laneStart o.laneEnd o.tag] := by
  unfold startPrintOf
  split <;> rfl

theorem startPrintOf_frame (e : Entry) (rest : List Entry) (o : OpenOrder) (s : State) :
    ChangesOnly [.ord, .lib, .sent] s (startPrintOf e rest o s) := by
  unfold startPrintOf
  split <;> exact .of_all (by simp [samePart])

/-- A print starts from the front entry, where the conditions hold (R63). -/
theorem printTest_starts {s : State} {e : Entry} {rest : List Entry} {o : OpenOrder} (h : Startable s)
    (he : s.ord.entries = e :: rest) (ho : findOrder e.ticket s = some o) :
    printTest s = startPrintOf e rest o s := by
  obtain ⟨h1, h2, h3, h4, h5⟩ := h
  have hr : printReady s = true := by
    unfold printReady
    simp only [h1, h2, h4, he]
    cases hm : s.ord.endMark with
    | none => simp [h3]
    | some m => simpa [h3, reached] using h5 m hm
  rw [printTest, if_pos hr, startPrint, he]
  simp only [ho]

end Sys2Proof.Machine

namespace Sys2Proof.Proofs

open Sys2Proof.Machine

/-- Settles O32: of one number more than there are live records one is free, and the front entry gives the copy. -/
theorem printStart : Obligations.PrintStart := by
  intro s e rest o hrun hwrap hroom hgap he ho hu
  obtain ⟨kord, _, kline, _, kframe⟩ := engineKept_kept .ready (clearSent s)
  have heff : engineReport .ready (clearSent s) = startPrintOf e rest o (engineKept .ready (clearSent s)) := by
    have hst : Startable (engineKept .ready (clearSent s)) := by
      unfold Startable
      rw [kord, kline, kframe .dose (by decide), kframe .pos (by decide)]
      exact ⟨hrun, hwrap, hroom, rfl, hgap⟩
    have hfound : findOrder e.ticket (engineKept .ready (clearSent s)) = some o := by
      unfold findOrder
      rw [kord]
      exact ho
    rw [engineReport_eq, printTest_starts hst (by rw [kord]; exact he) hfound]
    have hline := startPrintOf_frame e rest o (engineKept .ready (clearSent s)) .line (by decide)
    exact retest_elsewhere (by rw [hline, kline]; simp [hrun]) (by rw [hline, kline]; simp [hrun])
  have hnum : numberTaken (engineKept .ready (clearSent s)) = numberTaken s := by
    unfold numberTaken
    rw [kord]
    rfl
  have hpos : (engineKept .ready (clearSent s)).pos = s.pos := kframe .pos (by decide)
  have hlib : (engineKept .ready (clearSent s)).lib = s.lib := kframe .lib (by decide)
  have hord := startPrintOf_ord e rest o (engineKept .ready (clearSent s))
  have hslot := startPrintOf_slot e rest o (engineKept .ready (clearSent s))
  have hsent := startPrintOf_sent e rest o (engineKept .ready (clearSent s))
  have hframe : ChangesOnly [.line, .ord, .lib, .sent] s (startPrintOf e rest o (engineKept .ready (clearSent s))) :=
    ChangesOnly.of_clearSent (by decide)
      ((kframe.mono (by decide)).trans ((startPrintOf_frame e rest o _).mono (by decide)))
  rw [hnum, hpos, kord] at hord
  rw [hlib] at hslot
  rw [hnum] at hsent
  obtain ⟨n0, nfree, ncounter⟩ := numberTaken_unique hu
  refine ⟨_, newPanel (numberTaken s) o e s.pos.s, exec_ended (f := engineReport .ready) rfl, ?_⟩
  rw [heff]
  generalize startPrintOf e rest o (engineKept .ready (clearSent s)) = v at *
  have hendOrd : (ended s v).ord = v.ord := by simp
  have hendLib : (ended s v).lib = v.lib := by simp
  rw [hendOrd, hendLib, hord]
  refine ⟨rfl, rfl, n0, nfree, ncounter, rfl, rfl, rfl, rfl, rfl, rfl, rfl, rfl, rfl, rfl, rfl, rfl, rfl, rfl, rfl,
    rfl, rfl, rfl, rfl, rfl, rfl, rfl, rfl, rfl, rfl, rfl, rfl, rfl, rfl, rfl, rfl, rfl, rfl,
    entriesTaken_eq e rest o.copies.length, ?_, fun i hi => ?_, ?_, ?_⟩
  · rw [hslot, he]
    by_cases hx : e.taken.exhausted o.copies.length = true
    · simp [hx]
    · simp [hx]
  · rw [hslot]
    simp [Ne.symm hi]
  · rw [ended, announce_sent, hsent]
    simp [newPanel]
  · exact hframe.trans (.of_all (by simp [samePart]))

end Sys2Proof.Proofs
end

