-- ==== Sys2Proof/Proofs/DrumStages.lean ====
section
/-! PROOFS. The stages of a forward drum step, each with the condition under which it does nothing, and what
the end of the step leaves (R40, R94, R114, R117, R153 to R155). -/

-- One thread for the whole file: each waiting thread reserves its stack.
set_option Elab.async false

namespace Sys2Proof.Machine

/-! ## Distances along the fabric -/

/-- Two places past one mark lie as far apart as their distances from it. -/
theorem sdiff_ahead (f : Word) {a b : Nat} (ha : a < 2 ^ 31) (hb : b < 2 ^ 31) :
    sdiff (f + BitVec.ofNat 32 a) (f + BitVec.ofNat 32 b) = (a : Int) - b := by
  have hf := f.isLt
  rw [sdiff, BitVec.toInt_eq_toNat_cond, BitVec.toNat_sub, BitVec.toNat_add, BitVec.toNat_add, BitVec.toNat_ofNat,
    BitVec.toNat_ofNat]
  split <;> omega

/-- X stands `d` counts past a record's f_lead. -/
def PastLead (s : State) (p : Panel) (d : Nat) : Prop :=
  ∃ f, p.fLead = some f ∧ s.pos.x = f + BitVec.ofNat 32 d

theorem PastLead.leadReached {s : State} {p : Panel} {d : Nat} (h : PastLead s p d) (hd : d < 2 ^ 31)
    {past : Nat} (hp : p.length + past < 2 ^ 31) : leadReached s p past = decide (p.length + past ≤ d) := by
  obtain ⟨f, hf, hx⟩ := h
  unfold Machine.leadReached reached
  rw [hf]
  simp only [hx, sdiff_ahead f hd hp]
  exact decide_eq_decide.mpr (by omega)

theorem PastLead.bodyHolds {s : State} {p : Panel} {d : Nat} (h : PastLead s p d) (hd : d < 2 ^ 31)
    (hp : p.length < 2 ^ 31) : bodyHolds p s.pos.x = decide (d < p.length) := by
  obtain ⟨f, hf, hx⟩ := h
  have h0 := sdiff_ahead f hd (b := 0) (by omega)
  unfold Machine.bodyHolds inSpan reached
  rw [hf]
  simp only [hx, sdiff_ahead f hd hp]
  rw [show f + BitVec.ofNat 32 0 = f by simp] at h0
  rw [h0, Bool.eq_iff_iff]
  simp

theorem PastLead.tailAt {s : State} {p : Panel} {d : Nat} (h : PastLead s p d) (hd : d < 2 ^ 31)
    (hp : p.length < 2 ^ 31) (hne : d ≠ p.length) : tailAt s p = false := by
  obtain ⟨f, hf, hx⟩ := h
  unfold Machine.tailAt
  rw [hf]
  have : ¬ s.pos.x = f + BitVec.ofNat 32 p.length := by
    rw [hx]
    bv_omega
  simp [this]

/-- The head, 45000 counts past the nip, stands outside a record's strip window, its last 600 counts. -/
theorem PastLead.inStrip {s : State} {p : Panel} {d : Nat} (h : PastLead s p d) (hd : d < 2 ^ 30)
    (hp : p.length < 2 ^ 30) (hout : d + 600 < p.length + 45000 ∨ p.length + 45000 ≤ d) :
    inStrip p (s.pos.x - 45000) = false := by
  obtain ⟨f, hf, hx⟩ := h
  have h1 : sdiff (s.pos.x - 45000) (f + BitVec.ofNat 32 p.length - 600) = (d : Int) + 600 - (p.length + 45000) := by
    have := sdiff_ahead (f - 45000 - 600) (a := d + 600) (b := p.length + 45000) (by omega) (by omega)
    rw [show f - 45000 - 600 + BitVec.ofNat 32 (d + 600) = s.pos.x - 45000 by rw [hx]; bv_omega,
      show f - 45000 - 600 + BitVec.ofNat 32 (p.length + 45000) = f + BitVec.ofNat 32 p.length - 600 by
        bv_omega] at this
    rw [this]
    omega
  have h2 : sdiff (s.pos.x - 45000) (f + BitVec.ofNat 32 p.length - 600 + BitVec.ofNat 32 600)
      = (d : Int) - (p.length + 45000) := by
    have := sdiff_ahead (f - 45000) (a := d) (b := p.length + 45000) (by omega) (by omega)
    rw [show f - 45000 + BitVec.ofNat 32 d = s.pos.x - 45000 by rw [hx]; bv_omega,
      show f - 45000 + BitVec.ofNat 32 (p.length + 45000)
        = f + BitVec.ofNat 32 p.length - 600 + BitVec.ofNat 32 600 by bv_omega] at this
    rw [this]
    omega
  unfold Machine.inStrip inSpan reached
  rw [hf]
  simp only [h1, h2, Bool.and_eq_false_iff, decide_eq_false_iff_not, Bool.not_eq_false', decide_eq_true_eq]
  omega

/-! ## The stages that find nothing to do -/

theorem completeDose_idle {s : State}
    (h : ∀ p ∈ s.ord.panels, ¬ (p.state = .onFabric ∧ leadReached s p 30000 = true)) : completeDose s = s := by
  have : s.ord.panels.map (fun p => if p.state = .onFabric ∧ leadReached s p 30000 = true then
      { p with state := .finished } else p) = s.ord.panels := by
    conv_rhs => rw [← List.map_id s.ord.panels]
    exact List.map_congr_left fun p hp => if_neg (h p hp)
  unfold completeDose mapPanels
  rw [this]

theorem addStretch_idle {s : State} (h : ∀ p ∈ s.ord.panels, spansNip s p = false) (m : Nat) :
    addStretch m s = s := by
  have : s.ord.panels.map (fun p => if spansNip s p = true then { p with stretch := satAdd 65535 p.stretch m }
      else p) = s.ord.panels := by
    conv_rhs => rw [← List.map_id s.ord.panels]
    exact List.map_congr_left fun p hp => if_neg (by simp [h p hp])
  unfold addStretch mapPanels
  rw [this]

/-- The roller moves under no record (R87, R88). -/
theorem rolled_idle {s : State} (h : ∀ p ∈ s.ord.panels, spansNip s p = false) :
    rolled s = { s with reg := { s.reg with position := s.reg.position + rollerMove s } } :=
  addStretch_idle (s := { s with reg := { s.reg with position := s.reg.position + rollerMove s } }) h _

theorem freeTails_idle {s : State} (h : ∀ p ∈ s.ord.panels, tailPassed s p = false) : freeTails s = s := by
  have : s.ord.panels.filter (tailPassed s) = [] := List.filter_eq_nil_iff.mpr fun p hp => by simp [h p hp]
  unfold freeTails
  rw [this]
  rfl

theorem tailFindings_idle {s : State} (h : ∀ p ∈ s.ord.panels, tailAt s p = false) : tailFindings s = s := by
  unfold tailFindings
  refine if_neg fun ht => ?_
  obtain ⟨p, hp, hp2⟩ := List.any_eq_true.mp ht
  rw [h p hp] at hp2
  cases hp2

theorem headTest_idle {s : State} (h : ∀ p ∈ s.ord.panels, inStrip p (s.pos.x - 45000) = false) :
    headTest s = s := by
  have : stripRecord s (s.pos.x - 45000) = none := by
    unfold stripRecord
    rw [List.filter_eq_nil_iff.mpr fun p hp => by rw [h p hp, Bool.and_false]; exact Bool.false_ne_true]
    rfl
  unfold headTest
  rw [this]
  simp

theorem verdicts_idle {s : State} (h : ∀ p ∈ s.ord.panels, verdictDue s p = false) : verdicts s = s := by
  have : s.ord.panels.filter (verdictDue s) = [] := List.filter_eq_nil_iff.mpr fun p hp => by simp [h p hp]
  unfold verdicts
  rw [this]
  rfl

/-! ## The counted step, and the cells at a crossing (R114, R115) -/

/-- The step counted and offered to the channels that take it first. -/
def drumOffered (s : State) : State :=
  offerSteps .drum (s.pos.x + 1) (allChannels.filter fun c => !(heldChannels s).contains c) (countDrum s)

theorem drumForward_eq (s : State) : drumForward s = drumRest s.pos.x (s.pos.x + 1) (heldChannels s)
    (if s.pos.phase = 999 then rollerStage (crossCells (drumOffered s)) else drumOffered s) := by
  unfold drumForward panelStages registrationStep
  by_cases h : s.pos.phase = 999
  · rw [h]
    rfl
  · simp only [h, decide_false]
    rfl

@[simp] theorem drumOffered_keeps (s : State) :
    (drumOffered s).mem = s.mem ∧ (drumOffered s).line = s.line ∧ (drumOffered s).lib = s.lib
    ∧ (drumOffered s).pos = (countDrum s).pos ∧ (drumOffered s).ord = s.ord ∧ (drumOffered s).reg = s.reg
    ∧ (drumOffered s).heat = s.heat ∧ (drumOffered s).dose = s.dose ∧ (drumOffered s).tens = s.tens
    ∧ (drumOffered s).walker = s.walker ∧ (drumOffered s).host = s.host := by
  simp [drumOffered, countDrum]

/-- The step at a crossing shifts the queue (R114). -/
def cellsShift (s : State) : Prop := ∃ c, s.dose.cells.head? = some c ∧ s.pos.x = c.xc + 1000

/-- The one live record with the dose of a leaving cell that names it (R115). -/
def folded (c : WrapCell) (p : Panel) : Panel :=
  if c.panel = some p.number then { p with doseMin := min p.doseMin c.dose, doseMax := max p.doseMax c.dose } else p

theorem foldCell_single {s : State} {p : Panel} (h : s.ord.panels = [p]) (c : WrapCell) :
    foldCell c s = { s with ord := { s.ord with panels := [folded c p] } } := by
  unfold foldCell folded
  cases hc : c.panel with
  | none => simp [← h]
  | some n =>
    simp [updPanel, mapPanels, h, eq_comm]

theorem crossCells_still {s : State} (h : ¬ cellsShift s) : crossCells s = s := by
  unfold crossCells
  split
  · rfl
  · next t ts hc => exact if_neg fun hx => h ⟨t, by rw [hc]; rfl, hx⟩

/-- A shift with one live record, which the new cell does not start in. -/
theorem crossCells_shift {s : State} {p : Panel} (h : cellsShift s) (hp : s.ord.panels = [p])
    (ho : p.state ≠ .onFabric) : crossCells s = { s with
      ord := { s.ord with panels := [(s.dose.cells.getLast?.map fun c => folded c p).getD p] },
      dose := { s.dose with cells := { xc := s.pos.x, panel := none, dose := 0 } :: s.dose.cells.dropLast } } := by
  obtain ⟨t, ht, hx⟩ := h
  have hover : panelOver s s.pos.x = none := by
    unfold panelOver
    rw [hp, List.filter_eq_nil_iff.mpr fun q hq => by
      rw [List.mem_singleton] at hq
      simp [hq, ho]]
    rfl
  obtain ⟨ts, hc⟩ : ∃ ts, s.dose.cells = t :: ts := by
    cases hcells : s.dose.cells with
    | nil => rw [hcells] at ht; cases ht
    | cons c cs =>
      rw [hcells, List.head?_cons, Option.some.injEq] at ht
      exact ⟨cs, by rw [ht]⟩
  have hcross : crossCells s = shiftCells s.pos.x s := by
    unfold crossCells
    rw [hc]
    exact if_pos hx
  rw [hcross, shiftCells, hover]
  cases hl : s.dose.cells.getLast? with
  | none => simp [hc] at hl
  | some c =>
    simp only [foldCell_single hp]
    rfl

/-! ## The end of the step -/

/-- The splices that leave, the hold windows, and the step taken by the held channels (R40, R45, R143; log 10). -/
def drumTaken (old new : Word) (held : List (Fin 12)) (s : State) : State :=
  offerSteps .drum new held (drumHoldZones.foldl (holdTest old new) (leaveSplices s))

@[simp] theorem drumTaken_keeps (old new : Word) (held : List (Fin 12)) (s : State) :
    (drumTaken old new held s).mem = s.mem ∧ (drumTaken old new held s).line = s.line
    ∧ (drumTaken old new held s).lib = s.lib ∧ (drumTaken old new held s).pos.x = s.pos.x
    ∧ (drumTaken old new held s).ord = s.ord ∧ (drumTaken old new held s).reg = s.reg
    ∧ (drumTaken old new held s).dose = s.dose ∧ (drumTaken old new held s).walker = s.walker
    ∧ (drumTaken old new held s).host = s.host := by
  simp [drumTaken, drumHoldZones, leaveSplices, setSplices]

/-- What follows the tests of the order and check units at a forward drum step (R40). -/
def drumEnd (old new : Word) (held : List (Fin 12)) (s : State) : State := retest (drumTaken old new held s)

theorem drumRest_eq (old new : Word) (held : List (Fin 12)) (s : State) : drumRest old new held s =
    drumEnd old new held
      (verdicts (headTest (tailFindings (freeTails (completeDose (pieceStage (arrivalStage s))))))) := rfl

theorem tensionAnswer_nip (new : LineState) (s : State) : (tensionAnswer new s).tens.nip = s.tens.nip := by
  have habort : ∀ (l : List (Fin 4)) (u : State), (l.foldl (abortAuto 4) u).tens.nip = u.tens.nip := fun l => by
    induction l with
    | nil => exact fun _ => rfl
    | cons z l ih => exact fun u => (ih _).trans (abortAuto_tens_keeps 4 u z).1
  unfold tensionAnswer
  refine (habort _ _).trans ?_
  cases new <;> simp [endBreak, coldTargets]

theorem retest_nip (s : State) : (retest s).tens.nip = s.tens.nip := by
  by_cases h : s.line.state = .warm ∨ s.line.state = .ready
  · rcases retest_moves h with ⟨he, _⟩ | ⟨new, _, _, _, he⟩ <;> rw [he]
    rw [enterState_eq, entryTail, show ∀ u : State, (printTest u).tens = u.tens by simp, tensionAnswer_nip]
    simp [entryHead]
  · rw [retest_elsewhere (fun e => h (.inl e)) fun e => h (.inr e)]

theorem holdTests_nip (old new : Word) (l : List (Fin 4)) (s : State) :
    (l.foldl (holdTest old new) s).tens.nip = s.tens.nip := by
  induction l generalizing s with
  | nil => rfl
  | cons z l ih =>
    rw [List.foldl_cons, ih]
    unfold holdTest
    simp

/-- What the end of a step leaves: the speed command apart, the units that the order of a fabric panel goes
through are as the tests left them. -/
structure DrumEnded (s t : State) : Prop where
  ord : t.ord = s.ord
  lib : t.lib = s.lib
  reg : t.reg = s.reg
  cells : t.dose.cells = s.dose.cells
  nip : t.tens.nip = s.tens.nip
  x : t.pos.x = s.pos.x
  host : ∃ k, Reported k s t

theorem retest_kept (s : State) : (retest s).ord = s.ord ∧ (retest s).lib = s.lib ∧ (retest s).reg = s.reg
    ∧ (retest s).dose.cells = s.dose.cells ∧ ∃ k, Reported k s (retest s) := by
  by_cases h : s.line.state = .warm ∨ s.line.state = .ready
  · have hr := retest_retested h
    obtain ⟨h1, h2, _, _, _, _, h3, _⟩ := hr.kept
    obtain ⟨k, _, hk⟩ := hr.reported
    exact ⟨h1, h2, h3, by rw [hr.dose], k, hk⟩
  · rw [retest_elsewhere (fun e => h (.inl e)) fun e => h (.inr e)]
    exact ⟨rfl, rfl, rfl, rfl, 0, .rfl s⟩

theorem drumTaken_nip (old new : Word) (held : List (Fin 12)) (s : State) :
    (drumTaken old new held s).tens.nip = s.tens.nip := by
  rw [drumTaken, show ∀ u : State, (offerSteps .drum new held u).tens = u.tens by simp, holdTests_nip]
  simp

theorem drumEnd_ended (old new : Word) (held : List (Fin 12)) (s : State) :
    DrumEnded s (drumEnd old new held s) := by
  obtain ⟨k1, _, k3, k4, k5, k6, k7, k8, k9⟩ := drumTaken_keeps old new held s
  obtain ⟨e1, e2, e3, e4, k, hk⟩ := retest_kept (drumTaken old new held s)
  have h0 : Reported 0 s (drumTaken old new held s) := .of_same k1 k9 (by rw [k8]) (by rw [k8])
  exact ⟨e1.trans k5, e2.trans k3, e3.trans k6, by rw [drumEnd, e4, k7],
    (retest_nip _).trans (drumTaken_nip old new held s), by rw [drumEnd, (retest_keeps _).1, k4], k, h0.after hk⟩

end Sys2Proof.Machine
end

