-- ==== Sys2Proof/Proofs/NipArrivals.lean ====
section
/-! PROOFS. A nip arrival: the roller move of its step, the handover, and the cell it names (R35, R87 to R94,
R114 to R116). -/

-- One thread for the whole file: each waiting thread reserves its stack.
set_option Elab.async false

namespace Sys2Proof.Machine

/-! ## The state that the arrival test finds -/

/-- The one live record before its arrival, with the roller, its target and the cells as the step's crossing
leaves them. -/
structure AtNip (s : State) (q : Panel) (cells : List WrapCell) (position target : Int) (a : State) : Prop where
  ord : a.ord = { s.ord with panels := [q] }
  lib : a.lib = s.lib
  x : a.pos.x = s.pos.x + 1
  list : a.reg.list = s.reg.list
  queue : a.reg.queue = s.reg.queue
  position : a.reg.position = position
  target : a.reg.target = target
  cells : a.dose.cells = cells
  memory : LogAndTicketsOnly s a

theorem drumOffered_atNip {s : State} {p : Panel} (hp : s.ord.panels = [p]) :
    AtNip s p s.dose.cells s.reg.position s.reg.target (drumOffered s) := by
  obtain ⟨h1, _, h3, h4, h5, h6, _, h8, _⟩ := drumOffered_keeps s
  refine ⟨by rw [h5, ← hp], h3, by rw [h4]; rfl, by rw [h6], by rw [h6], by rw [h6], by rw [h6],
    by rw [h8], .of_mem h1⟩

/-- The cells after the shift that a crossing may bring (R114). -/
def cellsAfter (shifts : Bool) (s : State) : List WrapCell :=
  if shifts = true then { xc := s.pos.x + 1, panel := none, dose := 0 } :: s.dose.cells.dropLast else s.dose.cells

/-- What the crossing may fold into the record (R115). -/
structure FoldedAt (s : State) (shifts : Bool) (p q : Panel) : Prop where
  shift : shifts = true ↔ ∃ c, s.dose.cells.head? = some c ∧ s.pos.x + 1 = c.xc + 1000
  named : ∀ c, shifts = true → s.dose.cells.getLast? = some c → c.panel = some p.number →
    q = { p with doseMin := min p.doseMin c.dose, doseMax := max p.doseMax c.dose }
  other : shifts = false ∨ (∀ c, s.dose.cells.getLast? = some c → c.panel ≠ some p.number) → q = p

theorem crossed_atNip {s : State} {p q : Panel} {shifts : Bool} (h : FoldedAt s shifts p q)
    (hp : s.ord.panels = [p]) (ho : p.state ≠ .onFabric) :
    AtNip s q (cellsAfter shifts s) s.reg.position s.reg.target (crossCells (drumOffered s)) := by
  have hd := drumOffered_atNip hp
  have hdose : (drumOffered s).dose = s.dose := by simp
  have hcond : shifts = true ↔ cellsShift (drumOffered s) := by
    unfold cellsShift
    rw [hdose, hd.x]
    exact h.shift
  by_cases hs : shifts = true
  · have hq : (s.dose.cells.getLast?.map fun c => folded c p).getD p = q := by
      cases hl : s.dose.cells.getLast? with
      | none => exact (h.other (.inr fun c hc => by rw [hl] at hc; cases hc)).symm
      | some c =>
        rw [Option.map_some, Option.getD_some, folded]
        by_cases hc : c.panel = some p.number
        · rw [if_pos hc, h.named c hs hl hc]
        · rw [if_neg hc]
          refine (h.other (.inr fun c' hc' => ?_)).symm
          rw [hl, Option.some.injEq] at hc'
          exact hc' ▸ hc
    have hpanels : (drumOffered s).ord.panels = [p] := by rw [hd.ord]
    rw [crossCells_shift (hcond.mp hs) hpanels ho]
    refine ⟨by rw [hdose, hq, hd.ord], hd.lib, hd.x, hd.list, hd.queue, hd.position, hd.target, ?_, hd.memory⟩
    rw [cellsAfter, if_pos hs, hd.x, hdose]
  · rw [crossCells_still fun hc => hs (hcond.mpr hc), h.other (.inl (by simpa using hs)), cellsAfter, if_neg hs]
    exact hd

/-- The roller moves under a record short of the nip: no stretch (R87, R88). -/
theorem rolled_atNip {s a : State} {q : Panel} {cells : List WrapCell}
    (h : AtNip s q cells s.reg.position s.reg.target a) (hq : spansNip a q = false) :
    AtNip s q cells (s.reg.position + max (-20) (min 20 (s.reg.target - s.reg.position))) s.reg.target
      (rolled a) := by
  have hmove : rollerMove a = max (-20) (min 20 (s.reg.target - s.reg.position)) := by
    rw [rollerMove, limit_eq (by omega), h.position, h.target]
  have hidle := rolled_idle (s := a) fun p hp => by
    rw [h.ord, List.mem_singleton] at hp
    exact hp ▸ hq
  rw [hidle]
  exact ⟨h.ord, h.lib, h.x, h.list, h.queue, by rw [hmove, h.position], h.target, h.cells, h.memory⟩

/-- The review takes the offset of a paired record at the list's head (R86). -/
theorem review_atNip {s u : State} {q : Panel} {cells : List WrapCell} {position target : Int}
    (h : AtNip s q cells position target u) (hhome : u.reg.home = none) (hlist : s.reg.list = [q.number]) :
    AtNip s q cells position (if q.piece.isSome = true then max (-600) (min 600 q.offset) else target)
      (review u) := by
  have hr := review_phaseOnly u
  have hreg := review_reg u
  have hfind : findPanel q.number u = some q := by simp [findPanel, h.ord]
  have htarget := review_target (m := q.number) hhome (by rw [h.list, hlist]; rfl) hfind
  rw [limit_eq (by omega), h.target] at htarget
  obtain ⟨k, hk⟩ := hr.reported
  refine ⟨by rw [review_ord, h.ord], (hr.frame .lib (by decide)).trans h.lib, ?_, by rw [hreg, h.list],
    by rw [hreg, h.queue], by rw [hreg, h.position], htarget, ?_, h.memory.trans hk.logAndTickets⟩
  · rw [show (review u).pos = u.pos by simp, h.x]
  · rw [show (review u).dose = u.dose from hr.frame .dose (by decide), h.cells]

/-- The roller stage of a crossing step: a home request that the move brings to 0 ends, and the target takes
the offset of the list's record if it is paired (R86, R92). -/
theorem rollerStage_atNip {s a : State} {q : Panel} {cells : List WrapCell} {position : Int}
    (h : AtNip s q cells s.reg.position s.reg.target a) (hq : spansNip a q = false)
    (hhome : a.reg.home = s.reg.home) (hlist : s.reg.list = [q.number])
    (hpos : position = s.reg.position + max (-20) (min 20 (s.reg.target - s.reg.position))) :
    AtNip s q cells position (if s.reg.home.isSome = true ∧ position = 0 ∧ q.piece.isSome = true then
      max (-600) (min 600 q.offset) else s.reg.target) (rollerStage a) := by
  have hr := rolled_atNip h hq
  rw [← hpos] at hr
  have hrhome : (rolled a).reg.home = s.reg.home := by rw [rolled_reg, hhome]
  rw [rollerStage_eq, finishHome, hrhome]
  cases hn : s.reg.home with
  | none => simpa using hr
  | some n =>
    dsimp only
    by_cases h0 : position = 0
    · rw [if_pos (hr.position.trans h0)]
      have hfin : AtNip s q cells position s.reg.target (finishLong n .ok (rolled a).reg.measured (homed a)) := by
        obtain ⟨k, _, hk⟩ := (finishLong_mayStall n .ok (rolled a).reg.measured (homed a)).reported
        have hmem : LogAndTicketsOnly (rolled a) (homed a) := .of_mem rfl
        refine ⟨by simpa [homed] using hr.ord, by simpa [homed] using hr.lib, by simpa [homed] using hr.x,
          by simpa [homed] using hr.list, by simpa [homed] using hr.queue, by simpa [homed] using hr.position,
          by simpa [homed] using hr.target, by simpa [homed] using hr.cells,
          (hr.memory.trans hmem).trans hk.logAndTickets⟩
      have hrev := review_atNip hfin (by simp [homed]) hlist
      have htarget : (if q.piece.isSome = true then max (-600) (min 600 q.offset) else s.reg.target) =
          if (some n).isSome = true ∧ position = 0 ∧ q.piece.isSome = true then max (-600) (min 600 q.offset)
          else s.reg.target := by simp [h0]
      rw [htarget] at hrev
      exact hrev
    · have hn0 : ¬ (rolled a).reg.position = 0 := by rwa [hr.position]
      rw [if_neg hn0, if_neg (by simp [h0])]
      exact hr

/-! ## The arrival (R89, R90, R116) -/

/-- The record once it has arrived. -/
def Panel.arrivedAt (x : Word) (error : Option Int) (q : Panel) : Panel :=
  { q.toFabric with fLead := some x, regError := error }

/-- The cells once an arrival has named the tail cell (R116). -/
def cellsNamed (n : Half) (x : Word) : List WrapCell → List WrapCell
  | [] => []
  | c :: cs => (if c.xc = x then { c with panel := some n } else c) :: cs

theorem cellsNamed_unless {c : Prop} [Decidable c] (n : Half) (x : Word) (cells : List WrapCell) :
    (if c then cells else cellsNamed n x cells) = match cells with
      | [] => []
      | t :: ts => (if ¬ c ∧ t.xc = x then { t with panel := some n } else t) :: ts := by
  cases cells with
  | nil => simp [cellsNamed]
  | cons t ts => by_cases h : c <;> simp [cellsNamed, h]

theorem nameTail_eq (n : Half) (x : Word) (s : State) :
    nameTail n x s = setCells (cellsNamed n x s.dose.cells) s := by
  unfold nameTail
  cases hc : s.dose.cells with
  | nil => simp [cellsNamed, setCells, ← hc]
  | cons c cs =>
    by_cases h : c.xc = x
    · simp [cellsNamed, h]
    · simp [cellsNamed, h, setCells, ← hc]

/-- What an arrival leaves. -/
structure Arrived (s : State) (q : Panel) (cells : List WrapCell) (position target : Int) (v : State) : Prop where
  ord : v.ord = { s.ord with panels :=
    [q.arrivedAt (s.pos.x + 1) (q.piece.map fun _ => max (-32767) (min 32767 (position - q.offset)))] }
  lib : v.lib = s.lib
  x : v.pos.x = s.pos.x + 1
  list : v.reg.list = []
  queue : v.reg.queue = s.reg.queue
  position : v.reg.position = position
  target : v.reg.target = target
  cells : v.dose.cells = if q.state = .void then cells else cellsNamed q.number (s.pos.x + 1) cells
  nip : v.tens.nip = some {
    setpoints := Vector.ofFn fun z => setpoint s q.profile z,
    fabricOut := taperPart s q.profile 0x044, paperOut := taperPart s q.profile 0x04C }
  name : v.host.nipName = nameTag s q.profile
  memory : LogAndTicketsOnly s v

theorem LogAndTicketsOnly.taperPart {s t : State} (h : LogAndTicketsOnly s t) (i : Fin 16) {k : Nat} (hk : k < 500) :
    taperPart t i k = taperPart s i k := by
  unfold Machine.taperPart
  rw [h.prof_eq i (show k < 511 by omega), h.prof_eq i (show k + 2 < 511 by omega),
    h.prof_eq i (show k + 4 < 511 by omega), h.prof_eq i (show k + 6 < 511 by omega)]

theorem LogAndTicketsOnly.nipCopy {s t : State} (h : LogAndTicketsOnly s t) (i : Fin 16) :
    ({ setpoints := Vector.ofFn fun z => setpoint t i z, fabricOut := Machine.taperPart t i 0x044,
       paperOut := Machine.taperPart t i 0x04C } : NipCopy) =
      { setpoints := Vector.ofFn fun z => setpoint s i z, fabricOut := Machine.taperPart s i 0x044,
        paperOut := Machine.taperPart s i 0x04C } := by
  have hz : (fun z : Fin 4 => setpoint t i z) = fun z => setpoint s i z := funext fun z => h.prof_eq i (by omega)
  rw [h.taperPart i (by decide), h.taperPart i (by decide), hz]

theorem LogAndTicketsOnly.nameTag {s t : State} (h : LogAndTicketsOnly s t) (i : Fin 16) :
    nameTag t i = nameTag s i := by
  have hk : (fun k : Fin 16 => nameByte t i k.val) = fun k => nameByte s i k.val :=
    funext fun k => h.slotByte i (by omega)
  rw [Machine.nameTag, hk, Machine.nameTag]

/-- The one live record handed over at the nip: it leaves the list, and its profile is copied (R35, R89, R90). -/
def handedOver (q : Panel) (s : State) : State :=
  nipHandover q.profile (setList [] (updPanel q.number (fun r => r.arrivedAt s.pos.x (arrivalError s r)) s))

/-- With one record in the list no review follows its arrival (R86). -/
theorem arrive_eq {q : Panel} {a : State} (hlist : a.reg.list = [q.number]) :
    arrive q a = if q.state = .void then handedOver q a else nameTail q.number a.pos.x (handedOver q a) := by
  have hfilter : setList ((updPanel q.number (fun r => { r.toFabric with
        fLead := some a.pos.x, regError := arrivalError a r }) a).reg.list.filter fun m => m != q.number)
      (updPanel q.number (fun r => { r.toFabric with fLead := some a.pos.x, regError := arrivalError a r }) a)
      = setList [] (updPanel q.number (fun r => r.arrivedAt a.pos.x (arrivalError a r)) a) := by
    rw [show ∀ f, (updPanel q.number f a).reg.list = a.reg.list from fun _ => rfl, hlist]
    simp [Panel.arrivedAt]
  have hempty : ∀ u : State, u.reg.list = [] → review u = u := fun u hu => review_empty hu
  unfold arrive
  simp only [hfilter, hlist, List.head?_cons, if_true]
  by_cases hv : q.state = .void
  · rw [if_pos hv, if_pos hv]
    exact hempty _ rfl
  · rw [if_neg hv, if_neg hv]
    exact hempty _ (by rw [nameTail_eq]; rfl)

theorem arrive_arrived {s a : State} {q : Panel} {cells : List WrapCell} {position target : Int}
    (h : AtNip s q cells position target a) (hlist : s.reg.list = [q.number]) :
    Arrived s q cells position target (arrive q a) := by
  have herr : arrivalError a q = q.piece.map fun _ => max (-32767) (min 32767 (position - q.offset)) := by
    rw [arrivalError, h.position]
    simp only [limit_eq (show (-32767 : Int) ≤ 32767 by omega)]
  have hover : Arrived s q cells position target
      { handedOver q a with dose := { (handedOver q a).dose with
        cells := if q.state = .void then cells else cellsNamed q.number (s.pos.x + 1) cells } } := by
    refine ⟨?_, h.lib, h.x, rfl, h.queue, h.position, h.target, rfl, ?_, ?_, h.memory⟩
    · simp [handedOver, nipHandover, setList, updPanel, mapPanels, h.ord, herr, h.x]
    · exact congrArg some (h.memory.nipCopy q.profile)
    · exact h.memory.nameTag q.profile
  have hcells : (handedOver q a).dose.cells = cells := h.cells
  rw [arrive_eq (by rw [h.list, hlist])]
  by_cases hv : q.state = .void
  · rw [if_pos hv]
    simp only [hv, if_true, ← hcells] at hover
    rw [← hcells]
    exact hover
  · rw [if_neg hv, nameTail_eq, hcells, h.x]
    simp only [hv, if_false] at hover
    exact hover

/-! ## The tests of the step after the arrival -/

/-- A record at its f_lead is due for no test of the order and check units (R62, R117, R153 to R155). -/
theorem arrived_idle {v : State} {q : Panel} {error : Option Int} (hp : v.ord.panels = [q.arrivedAt v.pos.x error])
    (hq : q.state = .staged ∨ (q.state = .void ∧ q.travel = some .staged)) (h1 : 1 ≤ q.length)
    (h2 : q.length ≤ 60000) : verdicts (headTest (tailFindings (freeTails (completeDose v)))) = v := by
  have hmem : ∀ r ∈ v.ord.panels, PastLead v r 0 ∧ r.length = q.length ∧ r.state ≠ .finished := fun r hr => by
    rw [hp, List.mem_singleton] at hr
    subst hr
    refine ⟨⟨v.pos.x, rfl, by simp⟩, ?_, ?_⟩
    · unfold Panel.arrivedAt Panel.toFabric
      split <;> rfl
    · unfold Panel.arrivedAt Panel.toFabric
      rcases hq with h | ⟨h, _⟩ <;> simp [h]
  have hlead : ∀ r ∈ v.ord.panels, ∀ past, past ≤ 100000 → leadReached v r past = false := by
    intro r hr past hpast
    obtain ⟨h0, hl, _⟩ := hmem r hr
    rw [h0.leadReached (by omega) (by omega)]
    exact decide_eq_false (by omega)
  have e1 : completeDose v = v := completeDose_idle fun r hr hc => by
    rw [hlead r hr _ (by omega)] at hc
    exact Bool.false_ne_true hc.2
  have e2 : freeTails v = v := freeTails_idle fun r hr => by
    rw [tailPassed, hlead r hr _ (by omega), Bool.and_false]
  have e3 : tailFindings v = v := tailFindings_idle fun r hr => by
    obtain ⟨h0, hl, _⟩ := hmem r hr
    exact h0.tailAt (by omega) (by omega) (by omega)
  have e4 : headTest v = v := headTest_idle fun r hr => by
    obtain ⟨h0, hl, _⟩ := hmem r hr
    exact h0.inStrip (by omega) (by omega) (.inl (by omega))
  have e5 : verdicts v = v := verdicts_idle fun r hr => by
    rw [verdictDue, hlead r hr _ (by omega), Bool.and_false]
  rw [e1, e2, e3, e4, e5]

end Sys2Proof.Machine

namespace Sys2Proof.Proofs

open Sys2Proof.Machine

theorem exec_drumRest (s : State) : exec (.drumStep .forward) s = .next (announce false false s
    (drumRest s.pos.x (s.pos.x + 1) (heldChannels (clearSent s)) (if s.pos.phase = 999 then
      rollerStage (crossCells (drumOffered (clearSent s))) else drumOffered (clearSent s)))) := by
  show answer drumForward s = _
  rw [answer, drumForward_eq]
  rfl

/-- The record with what the crossing folds into it is the same on its way (R115). -/
theorem foldedRecord_same {s : State} {p q : Panel} {shifts : Bool}
    (hfold : ∀ c, shifts = true → s.dose.cells.getLast? = some c → c.panel = some p.number →
      q = { p with doseMin := min p.doseMin c.dose, doseMax := max p.doseMax c.dose })
    (hkeep : shifts = false ∨ (∀ c, s.dose.cells.getLast? = some c → c.panel ≠ some p.number) → q = p) :
    q.SameRoute p ∧ q.state = p.state ∧ q.travel = p.travel ∧ q.length = p.length ∧ q.profile = p.profile := by
  by_cases hs : shifts = false ∨ ∀ c, s.dose.cells.getLast? = some c → c.panel ≠ some p.number
  · rw [hkeep hs]
    exact ⟨.rfl p, rfl, rfl, rfl, rfl⟩
  · obtain ⟨h1, h2⟩ := not_or.mp hs
    obtain ⟨c, h3⟩ := not_forall.mp h2
    obtain ⟨h4, h5⟩ := Classical.not_imp.mp h3
    rw [hfold c (by simpa using h1) h4 (not_not.mp h5)]
    exact ⟨⟨rfl, rfl, rfl, rfl, rfl⟩, rfl, rfl, rfl, rfl⟩

/-- The counted step, with its crossing where there is one, before the arrival test. -/
theorem drumStep_atNip {s : State} {p q : Panel} {position : Int} {shifts : Bool} (hp : s.ord.panels = [p])
    (hlist : s.reg.list = [q.number])
    (hstate : p.state = .staged ∨ (p.state = .void ∧ p.travel = some .staged))
    (hpos : position = if s.pos.phase = 999 then
      s.reg.position + max (-20) (min 20 (s.reg.target - s.reg.position)) else s.reg.position)
    (hshift : shifts = true ↔ s.pos.phase = 999
      ∧ ∃ c, s.dose.cells.head? = some c ∧ s.pos.x + 1 = c.xc + 1000)
    (hfold : ∀ c, shifts = true → s.dose.cells.getLast? = some c → c.panel = some p.number →
      q = { p with doseMin := min p.doseMin c.dose, doseMax := max p.doseMax c.dose })
    (hkeep : shifts = false ∨ (∀ c, s.dose.cells.getLast? = some c → c.panel ≠ some p.number) → q = p) :
    AtNip s q (cellsAfter shifts s) position
      (if s.pos.phase = 999 ∧ s.reg.home.isSome = true ∧ position = 0 ∧ p.piece.isSome = true then
        max (-600) (min 600 p.offset) else s.reg.target)
      (if s.pos.phase = 999 then rollerStage (crossCells (drumOffered (clearSent s)))
        else drumOffered (clearSent s)) := by
  obtain ⟨⟨_, _, _, hpiece, hoff⟩, hqs, hqt, _, _⟩ := foldedRecord_same hfold hkeep
  have hnot : p.state ≠ .onFabric := by rcases hstate with h | ⟨h, _⟩ <;> simp [h]
  by_cases hphase : s.pos.phase = 999
  · rw [if_pos hphase] at hpos ⊢
    have hspan : spansNip (crossCells (drumOffered (clearSent s))) q = false := by
      unfold spansNip
      rw [hqs, hqt]
      rcases hstate with h | ⟨h, ht⟩
      · simp [h]
      · simp [h, ht]
    have hfolded : FoldedAt (clearSent s) shifts p q := ⟨hshift.trans (and_iff_right hphase), hfold, hkeep⟩
    have hroll := rollerStage_atNip (s := clearSent s) (crossed_atNip (s := clearSent s) hfolded hp hnot) hspan
      (by simp) hlist hpos
    simp only [hphase, true_and, ← hpiece, ← hoff]
    exact ⟨hroll.ord, hroll.lib, hroll.x, hroll.list, hroll.queue, hroll.position, hroll.target, hroll.cells,
      hroll.memory⟩
  · rw [if_neg hphase] at hpos ⊢
    have hs : shifts = false := by
      rw [Bool.eq_false_iff]
      exact fun h => hphase (hshift.mp h).1
    have htarget : ¬ (s.pos.phase = 999 ∧ s.reg.home.isSome = true ∧ s.reg.position = 0
        ∧ p.piece.isSome = true) := fun h => hphase h.1
    rw [hkeep (.inl hs), hpos, if_neg htarget, show cellsAfter shifts s = s.dose.cells by simp [cellsAfter, hs]]
    have hd := drumOffered_atNip (s := clearSent s) hp
    exact ⟨hd.ord, hd.lib, hd.x, hd.list, hd.queue, hd.position, hd.target, hd.cells, hd.memory⟩

/-- Settles O52: the crossing's moves, the handover, and tests for none of which a record at its f_lead is due. -/
theorem nipArrival : Obligations.NipArrival := by
  intro s p q xp position shifts hp hlist hqueue hlead hstate hxp l1 l2 _ hpos hshift hfold hkeep hreach
  obtain ⟨⟨hnum, _, hqxp, hpiece, hoff⟩, hqs, hqt, hql, hqp⟩ := foldedRecord_same hfold hkeep
  have hlistq : s.reg.list = [q.number] := by rw [hnum, hlist]
  have hat := drumStep_atNip hp hlistq hstate hpos hshift hfold hkeep
  have hex := exec_drumRest s
  generalize (if s.pos.phase = 999 then rollerStage (crossCells (drumOffered (clearSent s)))
    else drumOffered (clearSent s)) = a at *
  have harr := arrive_arrived hat hlistq
  have hstage : arrivalStage a = arrive q a := by
    have hfind : findPanel q.number a = some q := by simp [findPanel, hat.ord]
    have hreached : reached a.pos.x (xp + 12000 + intWord a.reg.position) = true := by
      rw [hat.x, hat.position]
      exact decide_eq_true hreach
    rw [arrivalStage, hat.list, hlistq, List.foldl_cons, List.foldl_nil, arrivalTest, hfind]
    simp only [hqxp, hxp, hreached, if_true]
  generalize arrive q a = v at *
  have hpieces : pieceStage v = v := by
    unfold pieceStage
    rw [harr.queue, hqueue, leavePieces, setQueue]
    rw [← hqueue, ← harr.queue]
  have hidle : verdicts (headTest (tailFindings (freeTails (completeDose v)))) = v := by
    refine arrived_idle (q := q) (error := q.piece.map fun _ => max (-32767) (min 32767 (position - q.offset)))
      (by rw [harr.ord, harr.x]) (by rw [hqs, hqt]; exact hstate) (by omega) (by omega)
  rw [drumRest_eq, hstage, hpieces, hidle] at hex
  have hend := drumEnd_ended s.pos.x (s.pos.x + 1) (heldChannels (clearSent s)) v
  generalize drumEnd s.pos.x (s.pos.x + 1) (heldChannels (clearSent s)) v = w at *
  have hname : w.host.nipName = v.host.nipName := by
    obtain ⟨k, hk⟩ := hend.host
    have := hk.host
    unfold HostKept at this
    rw [this]
  refine ⟨_, hex, ?_, ?_, ?_, ?_, ?_, ?_, ?_, ?_, ?_, ?_⟩
  · rw [show (announce false false s w).ord = w.ord by simp, hend.ord, harr.ord, Panel.arrivedAt,
      Panel.toFabric, hqs]
    by_cases hv : p.state = .void
    · simp [hv, hpiece, hoff]
    · simp [hv, hqt, hpiece, hoff]
  · simp [hend.reg, harr.list]
  · simp [hend.reg, harr.position]
  · simp [hend.reg, harr.target]
  · rw [show (announce false false s w).dose = w.dose by simp, hend.cells, harr.cells, hqs, hnum]
    exact cellsNamed_unless p.number (s.pos.x + 1) (cellsAfter shifts s)
  · simp [hend.nip, harr.nip, hqp]
  · rw [show (announce false false s w).host = w.host by simp, hname, harr.name, hqp]
  · simp [hend.lib, harr.lib]
  · simp [hend.ord, harr.ord]
  · simp [hend.ord, harr.ord]

end Sys2Proof.Proofs
end

