-- ==== Sys2Proof/Proofs/VerdictStages.lean ====
section
/-! PROOFS. The stages of a verdict event: drift, mark, cut and settlement (R52, R53, R75, R159 to R161). -/

-- One thread for the whole file: each waiting thread reserves its stack.
set_option Elab.async false

namespace Sys2Proof.Machine

/-! ## Drift (R159) -/

/-- Where the drift step may move the trim (R159). -/
def DriftJudged (s : State) (p : Panel) : Prop :=
  p.state = .finished ∧ checkPresent s p.profile = true ∧ 0 < p.readings
    ∧ driftEnable s p.profile = true ∧ ¬ (p.doseMin < dMin s p.profile)
    ∧ ¬ (dMax s p.profile < p.doseMax) ∧ p.interrupted = false ∧ p.overheat = false

theorem driftAllowed_iff (s : State) (p : Panel) : driftAllowed s p = true ↔ DriftJudged s p := by
  unfold driftAllowed colourJudged doseReasons DriftJudged
  by_cases h : p.state = .finished
  · simp [h, and_assoc]
  · simp [h]

/-- The step of the four deviations (R159). -/
theorem driftStep_judged {s : State} {p : Panel} (h : DriftJudged s p) : driftStep (deviations s p) =
    max (-5) (min 5 ((-((deviation s p 0 + deviation s p 1 + deviation s p 2 + deviation s p 3).tdiv 4)).tdiv 4)) := by
  obtain ⟨h1, h2, h3, _⟩ := h
  have hj : colourJudged s p = true := by simp [colourJudged, h1, h2, h3]
  have hsum : (deviations s p).sum
      = deviation s p 0 + deviation s p 1 + deviation s p 2 + deviation s p 3 := by
    rw [deviations, if_pos hj]
    simp only [List.range, List.range.loop, List.map_cons, List.map_nil, List.sum_cons, List.sum_nil]
    omega
  rw [driftStep, limit_eq (by omega), hsum]

theorem noteTrimLimit_written (p : Panel) (step trim : Int) (s : State) :
    (noteTrimLimit p step trim s).host.written
        = s.host.written + (if (trim = 100 ∨ trim = -100) ∧ step ≠ 0 then 1 else 0)
      ∧ (noteTrimLimit p step trim s).lib = s.lib ∧ ChangesOnly [.mem, .host] s (noteTrimLimit p step trim s) := by
  unfold noteTrimLimit
  split
  · exact ⟨rfl, rfl, .of_all (by simp [samePart])⟩
  · exact ⟨by simp, rfl, .rfl _ s⟩

theorem driftStage_moves {s : State} {p : Panel} (h : DriftJudged s p) {step : Int}
    (hstep : step = driftStep (deviations s p)) :
    (driftStage p s).lib = s.lib.withSlot p.profile { s.lib.slots[p.profile] with
        trim := max (-100) (min 100 (s.lib.slots[p.profile].trim + step)) }
    ∧ (driftStage p s).host.written = s.host.written
      + (if step ≠ 0 ∧ (100 ≤ s.lib.slots[p.profile].trim + step
          ∨ s.lib.slots[p.profile].trim + step ≤ -100) then 1 else 0)
    ∧ ChangesOnly [.mem, .lib, .host] s (driftStage p s) := by
  have he : driftStage p s = noteTrimLimit p step (driftedTrim s.lib.slots[p.profile].trim step)
      (setTrim p.profile (driftedTrim s.lib.slots[p.profile].trim step) s) := by
    rw [driftStage, if_pos ((driftAllowed_iff s p).mpr h), hstep]
  have htrim : driftedTrim s.lib.slots[p.profile].trim step
      = max (-100) (min 100 (s.lib.slots[p.profile].trim + step)) := limit_eq (by omega)
  rw [he, htrim]
  obtain ⟨h1, h2, h3⟩ := noteTrimLimit_written p step (max (-100) (min 100 (s.lib.slots[p.profile].trim + step)))
    (setTrim p.profile (max (-100) (min 100 (s.lib.slots[p.profile].trim + step))) s)
  have hset : ChangesOnly [.lib] s (setTrim p.profile (max (-100) (min 100 (s.lib.slots[p.profile].trim + step))) s) :=
    .of_all (by simp [samePart])
  refine ⟨h2, ?_, (hset.mono (by decide)).trans (h3.mono (by decide))⟩
  rw [h1]
  have hhost : (setTrim p.profile (max (-100) (min 100 (s.lib.slots[p.profile].trim + step))) s).host = s.host := rfl
  rw [hhost]
  congr 1
  refine if_congr ?_ rfl rfl
  omega

theorem driftStage_still {s : State} {p : Panel} (h : ¬ DriftJudged s p) : driftStage p s = s :=
  if_neg fun ha => h ((driftAllowed_iff s p).mp ha)

/-! ## Mark (R52) -/

/-- One channel rewritten, and no other. -/
theorem updChannel_channel (c k : Fin 12) (f : Channel → Channel) (s : State) :
    (updChannel c f s).trig.channels[k] = if c = k then f s.trig.channels[k] else s.trig.channels[k] := by
  rw [updChannel_trig_channels, Fin.getElem_fin, Vector.getElem_set]
  by_cases h : c = k
  · subst h
    rw [if_pos rfl, if_pos rfl]
  · rw [if_neg fun hv => h (Fin.ext hv), if_neg h]
    rfl

/-- Outside a reverse jog a start moves the channel alone (R16, R46). -/
theorem startCounting_eq {s : State} (h : s.line.jog ≠ .rev) (c : Fin 12) (r : Nat) :
    startCounting c r s = updChannel c (fun ch => ch.start r) s := by
  unfold startCounting
  split
  · rfl
  · exact if_neg h

theorem markStage_marks {s : State} {p : Panel} {v : Verdict} (hj : s.line.jog ≠ .rev) (hv : v.reject = true)
    (hp : p.rejectMark = true) (hc : s.trig.channels[(0 : Fin 12)].state ≠ .counting) :
    markStage p v s = updChannel 0 (fun ch => ch.start 3900) s := by
  rw [markStage, if_pos ⟨hv, hp⟩, markRequest, if_neg hc, startCounting_eq hj]

theorem markStage_skips {s : State} {p : Panel} {v : Verdict} (hv : v.reject = true)
    (hp : p.rejectMark = true) (hc : s.trig.channels[(0 : Fin 12)].state = .counting) :
    markStage p v s = writeNotice .markSkipped (p.number.setWidth 32)
      (natWord s.trig.channels[(0 : Fin 12)].remaining) 0 s := by
  rw [markStage, if_pos ⟨hv, hp⟩, markRequest, if_pos hc]

/-! ## Cut (R53) -/

/-- A copy apart, whether an order has a copy left to print or to settle (R74). -/
def NothingElse (o : OpenOrder) (k : Nat) : Prop :=
  ∀ j c, o.copies[j]? = some c → j ≠ k - 1 → c.place ≠ .waiting ∧ c.place ≠ .printed

theorem cutsAfter_iff {o : OpenOrder} {k : Nat} (hk : 1 ≤ k) :
    o.cutsAfter k = true ↔ o.cutLast = true ∧ NothingElse o k := by
  unfold OpenOrder.cutsAfter
  rw [Bool.and_eq_true, List.all_eq_true]
  refine and_congr_right fun _ => ⟨fun h j c hc hj => ?_, fun h j hj => ?_⟩
  · by_contra hn
    have hu : c.unsettled = true := by
      unfold Copy.unsettled
      cases hp : c.place <;> simp [hp] at hn ⊢
    have hlt := (List.getElem?_eq_some_iff.mp hc).1
    have := h (j + 1) (mem_copiesWhere.mpr ⟨by omega, by omega, c, by simpa using hc, hu⟩)
    simp at this
    omega
  · obtain ⟨h1, _, c, hc, hu⟩ := mem_copiesWhere.mp hj
    rw [beq_iff_eq]
    by_contra hne
    obtain ⟨n1, n2⟩ := h (j - 1) c hc (by omega)
    unfold Copy.unsettled at hu
    simp [n1, n2] at hu

/-- A position joins the list after those it has passed and before the first it has not (R53). -/
theorem insertCut_split (a : Word) (l : List Word) : ∃ pre post, l = pre ++ post
    ∧ insertCut a l = pre ++ a :: post ∧ (∀ q ∈ pre, 0 ≤ sdiff a q)
    ∧ (∀ q, post.head? = some q → sdiff a q < 0) := by
  induction l with
  | nil => exact ⟨[], [], rfl, rfl, by simp, by simp⟩
  | cons q qs ih =>
    unfold insertCut
    by_cases h : reached a q = true
    · obtain ⟨pre, post, h1, h2, h3, h4⟩ := ih
      refine ⟨q :: pre, post, by rw [h1]; rfl, ?_, fun r hr => ?_, h4⟩
      · rw [if_pos h, h2]
        rfl
      · rcases List.mem_cons.mp hr with rfl | hr
        · simpa [reached] using h
        · exact h3 r hr
    · refine ⟨[], q :: qs, rfl, if_neg h, by simp, fun r hr => ?_⟩
      obtain rfl : q = r := by simpa using hr
      simpa [reached] using h

theorem cutPosition_eq (p : Panel) :
    cutPosition p = p.fLead.getD 0 + BitVec.ofNat 32 p.length + 250 + 52000 := by
  unfold cutPosition
  bv_omega

theorem cutStage_still {s : State} {p : Panel} {o : OpenOrder} (ho : findOrder p.ticket s = some o)
    (h : ¬ o.cutsAfter p.copy = true) : cutStage p s = s := by
  rw [cutStage, ho]
  exact if_neg h

theorem cutStage_full {s : State} {p : Panel} {o : OpenOrder} (ho : findOrder p.ticket s = some o)
    (h : o.cutsAfter p.copy = true) (hl : 4 ≤ s.trig.cuts.length) :
    cutStage p s = writeNotice .cutSkipped (p.number.setWidth 32) (cutPosition p) 0 s := by
  rw [cutStage, ho]
  exact (if_pos h).trans (if_pos hl)

theorem cutCount_eq (x a : Word) : (cutCount x a : Int) = max 0 (min 65535 (sdiff a x)) := by
  unfold cutCount limitNat
  rw [limit_eq (by omega)]
  omega

/-- The knife channel loaded from the head of the list (R53). -/
theorem loadKnife_eq {s : State} (hj : s.line.jog ≠ .rev) {head : Word} (h : s.trig.cuts.head? = some head) :
    loadKnife s = updChannel 1 (fun ch => ch.start (cutCount s.pos.x head)) s := by
  unfold loadKnife
  cases hc : s.trig.cuts with
  | nil => rw [hc] at h; cases h
  | cons q qs =>
    rw [hc, List.head?_cons, Option.some.injEq] at h
    subst h
    exact startCounting_eq hj 1 _

theorem cutStage_joins {s : State} {p : Panel} {o : OpenOrder} (ho : findOrder p.ticket s = some o)
    (h : o.cutsAfter p.copy = true) (hl : s.trig.cuts.length < 4) (hj : s.line.jog ≠ .rev)
    {at_ : Word} (ha : at_ = cutPosition p) {pre post : List Word} (hs : s.trig.cuts = pre ++ post)
    (hi : insertCut at_ s.trig.cuts = pre ++ at_ :: post) (hpost : ∀ q, post.head? = some q → sdiff at_ q < 0)
    {head : Word} (hh : (pre ++ at_ :: post).head? = some head) :
    cutStage p s = if pre = [] ∨ s.trig.channels[(1 : Fin 12)].state ≠ .counting then
      updChannel 1 (fun ch => ch.start (cutCount s.pos.x head)) (setCuts (pre ++ at_ :: post) s)
      else setCuts (pre ++ at_ :: post) s := by
  have hmoved : (pre ++ at_ :: post).head? ≠ s.trig.cuts.head? ↔ pre = [] := by
    rw [hs]
    cases pre with
    | cons q qs => simp
    | nil =>
      simp only [List.nil_append, List.head?_cons, iff_true]
      intro hc
      have := hpost at_ hc.symm
      simp [sdiff] at this
  have hc : cutStage p s = cutRequest (cutPosition p) p.number s := by
    rw [cutStage, ho]
    exact if_pos h
  have hcuts : ∀ l, (setCuts l s).trig.cuts = l := fun _ => rfl
  rw [hc, cutRequest, if_neg (by omega), ← ha, hi]
  simp only [hcuts, hmoved, or_comm (a := s.trig.channels[(1 : Fin 12)].state ≠ ChanState.counting)]
  exact if_congr Iff.rfl (loadKnife_eq (s := setCuts (pre ++ at_ :: post) s) hj hh) rfl

/-! ## The summary of a verdict (R75) -/

/-- The summary of copy k shows a verdict and the findings of its record (R75, 10.6). -/
structure SummaryShown (p : Panel) (v : Verdict) (t : State) : Prop where
  number : ticketHalf t p.ticket (0x80 + 16 * (p.copy - 1)) = p.number
  outcome : ticketByte t p.ticket (0x80 + 16 * (p.copy - 1) + 2) = (if v.reject = true then 2 else 1)
  warnings : ticketByte t p.ticket (0x80 + 16 * (p.copy - 1) + 3) = v.warnings
  reasons : ticketHalf t p.ticket (0x80 + 16 * (p.copy - 1) + 4) = v.reasons
  doseMin : ticketHalf t p.ticket (0x80 + 16 * (p.copy - 1) + 6) = BitVec.ofNat 16 p.doseMin
  doseMax : ticketHalf t p.ticket (0x80 + 16 * (p.copy - 1) + 8) = BitVec.ofNat 16 p.doseMax
  error : ticketHalf t p.ticket (0x80 + 16 * (p.copy - 1) + 10) = BitVec.ofInt 16 (p.regError.getD (-32768))
  stretch : ticketHalf t p.ticket (0x80 + 16 * (p.copy - 1) + 12) = BitVec.ofNat 16 p.stretch
  deviation : ticketHalf t p.ticket (0x80 + 16 * (p.copy - 1) + 14) = BitVec.ofInt 16 v.deviation

/-- A summary stays shown while its 16 bytes are not written. -/
theorem SummaryShown.later {p : Panel} {v : Verdict} {r : Nat → Prop} {s t : State} (h : SummaryShown p v s)
    (hb : BytesKept r s t)
    (hr : ∀ a, summaryAt p.ticket p.copy ≤ a → a < summaryAt p.ticket p.copy + 16 → ¬ r a) :
    SummaryShown p v t := by
  have hout : ∀ i, i < 16 → ¬ r (ticketBase p.ticket + (0x80 + 16 * (p.copy - 1) + i)) := fun i hi =>
    hr _ (by unfold summaryAt; omega) (by unfold summaryAt; omega)
  have half : ∀ i, i < 15 → ticketHalf t p.ticket (0x80 + 16 * (p.copy - 1) + i)
      = ticketHalf s p.ticket (0x80 + 16 * (p.copy - 1) + i) := fun i hi =>
    hb.half_eq (hout i (by omega)) (hout (i + 1) (by omega))
  have byte : ∀ i, i < 16 → ticketByte t p.ticket (0x80 + 16 * (p.copy - 1) + i)
      = ticketByte s p.ticket (0x80 + 16 * (p.copy - 1) + i) := fun i hi => hb _ (hout i hi)
  exact ⟨(half 0 (by omega)).trans h.number, (byte 2 (by omega)).trans h.outcome,
    (byte 3 (by omega)).trans h.warnings, (half 4 (by omega)).trans h.reasons, (half 6 (by omega)).trans h.doseMin,
    (half 8 (by omega)).trans h.doseMax, (half 10 (by omega)).trans h.error, (half 12 (by omega)).trans h.stretch,
    (half 14 (by omega)).trans h.deviation⟩

/-- The bytes of a verdict's summary (R75, R161). -/
def verdictBytes (p : Panel) (v : Verdict) : List Byte :=
  summaryBytes p.number.toNat (if v.reject = true then 2 else 1) v.warnings v.reasons p.doseMin p.doseMax
    (p.regError.getD (-32768)) p.stretch v.deviation

theorem writeVerdictSummary_eq (p : Panel) (v : Verdict) (s : State) :
    writeVerdictSummary p v s = putBytes (summaryAt p.ticket p.copy) (verdictBytes p v) s := rfl

theorem writeVerdictSummary_shown {s : State} (wf : Memory.wf s.mem = true) {p : Panel} (v : Verdict)
    (h1 : 1 ≤ p.ticket) (h2 : p.ticket ≤ 256) (h8 : p.copy ≤ 8) :
    SummaryShown p v (writeVerdictSummary p v s) := by
  obtain ⟨_, hend⟩ := ticketBase_range h1 h2
  have hfit : ticketBase p.ticket + (0x80 + 16 * (p.copy - 1)) + 16 ≤ memEnd := by omega
  have hat : summaryAt p.ticket p.copy = ticketBase p.ticket + (0x80 + 16 * (p.copy - 1)) := by
    unfold summaryAt
    omega
  have half : ∀ i h, i + 1 < 16 → (verdictBytes p v)[i]? = some (h.extractLsb' 0 8) →
      (verdictBytes p v)[i + 1]? = some (h.extractLsb' 8 8) →
      ticketHalf (writeVerdictSummary p v s) p.ticket (0x80 + 16 * (p.copy - 1) + i) = h := fun i h hi h0 h1 => by
    rw [writeVerdictSummary_eq, ticketHalf, ← Nat.add_assoc, ← hat]
    exact Memory.half_putAll_at wf _ i _ h (by rw [hat]; exact hfit) hi h0 h1
  have byte : ∀ i (hi : i < 16), ticketByte (writeVerdictSummary p v s) p.ticket (0x80 + 16 * (p.copy - 1) + i)
      = (verdictBytes p v)[i]'hi := fun i hi => by
    rw [writeVerdictSummary_eq, ticketByte, ← Nat.add_assoc, ← hat]
    exact Memory.get_putAll_in wf _ _ (by rw [hat]; exact hfit) i (by exact hi)
  refine ⟨(half 0 (BitVec.ofNat 16 p.number.toNat) (by omega) rfl rfl).trans (by simp), (byte 2 (by omega)).trans ?_,
    byte 3 (by omega), half 4 _ (by omega) rfl rfl, half 6 _ (by omega) rfl rfl, half 8 _ (by omega) rfl rfl,
    half 10 _ (by omega) rfl rfl, half 12 _ (by omega) rfl rfl, half 14 _ (by omega) rfl rfl⟩
  show natByte (if v.reject = true then 2 else 1) = _
  split <;> rfl

/-! ## The settlement (R62, R75) -/

/-- The order of a settled copy. -/
def OpenOrder.settled (k : Nat) (v : Verdict) (o : OpenOrder) : OpenOrder :=
  { o.setCopy k (fun c => { c with place := .settled }) with
    rejects := if v.reject = true then o.rejects + 1 else o.rejects }

theorem settled_unsettled (o : OpenOrder) (k : Nat) (v : Verdict) :
    (o.settled k v).unsettled = true ↔
      ∃ j c, o.copies[j]? = some c ∧ j ≠ k - 1 ∧ (c.place = .waiting ∨ c.place = .printed) := by
  unfold OpenOrder.unsettled OpenOrder.settled OpenOrder.setCopy
  simp only [List.any_eq_true, List.mem_iff_getElem?, List.getElem?_modify, Copy.unsettled, Bool.or_eq_true,
    beq_iff_eq]
  constructor
  · rintro ⟨c, ⟨j, hj⟩, hc⟩
    by_cases hk : k - 1 = j
    · simp only [if_pos hk] at hj
      obtain ⟨q, _, rfl⟩ := Option.map_eq_some_iff.mp hj
      rcases hc with hc | hc <;> cases hc
    · simp only [if_neg hk, Option.map_eq_map, Option.map_id'] at hj
      exact ⟨j, c, hj, Ne.symm hk, hc⟩
  · rintro ⟨j, c, hj, hk, hc⟩
    refine ⟨c, ⟨j, ?_⟩, hc⟩
    simp only [if_neg (Ne.symm hk), Option.map_eq_map, Option.map_id']
    exact hj

/-- The result code of an order whose copy k has just been settled looks at the other copies (R75). -/
theorem settled_code {o : OpenOrder} {k : Nat} (v : Verdict) (h : k - 1 < o.copies.length) :
    (o.settled k v).code =
      if (o.copies.eraseIdx (k - 1)).all (fun c => c.place == .settled) = true then .ok else .partly := by
  have hset : (o.settled k v).copies = o.copies.take (k - 1)
      ++ { o.copies[k - 1] with place := .settled } :: o.copies.drop (k - 1 + 1) := by
    show o.copies.modify (k - 1) _ = _
    rw [List.modify_eq_take_cons_drop h]
  have hcancelled : (o.settled k v).copies.all (fun c => c.place == .cancelled) = false := by
    rw [hset]
    simp
  have hsettled : (o.settled k v).copies.all (fun c => c.place == .settled)
      = (o.copies.eraseIdx (k - 1)).all fun c => c.place == .settled := by
    rw [hset, List.eraseIdx_eq_take_drop_succ]
    simp
  rw [OpenOrder.code, hsettled, hcancelled]
  simp

/-- The settlement before its record is freed. -/
def summed (p : Panel) (v : Verdict) (s : State) : State :=
  writeVerdictSummary p v (updOrder p.ticket (OpenOrder.settled p.copy v) s)

theorem settleCopy_eq (p : Panel) (v : Verdict) (s : State) :
    settleCopy p v s = finishIfSettled p.ticket (printTest (removePanel p.number (summed p v s))) := rfl

theorem removePanel_found {s : State} {p : Panel} (h : (findPanel p.number s).map (·.profile) = some p.profile) :
    removePanel p.number s = releaseSlot p.profile
      { s with ord := { s.ord with panels := s.ord.panels.eraseP fun q => q.number == p.number } } := by
  obtain ⟨r, hr, hp⟩ := Option.map_eq_some_iff.mp h
  unfold removePanel
  rw [hr, ← hp]

theorem settleCopy_reported (p : Panel) (v : Verdict) (s : State) : ∃ k, Reported k s (settleCopy p v s) := by
  have h1 : Reported 0 s (summed p v s) :=
    Reported.after (t := updOrder p.ticket (OpenOrder.settled p.copy v) s) .of_same
      (putTicket_reported (summaryAt_low _ _) _ _)
  have h2 : Reported 0 (summed p v s) (printTest (removePanel p.number (summed p v s))) := .of_same
  obtain ⟨k, _, h3⟩ :=
    (finishIfSettled_mayStall p.ticket (printTest (removePanel p.number (summed p v s)))).reported
  exact ⟨k, (h1.quiet h2).after h3⟩

theorem settleCopy_shown {s : State} (wf : Memory.wf s.mem = true) {p : Panel} (v : Verdict)
    (h1 : 1 ≤ p.ticket) (h2 : p.ticket ≤ 256) (h8 : p.copy ≤ 8) : SummaryShown p v (settleCopy p v s) := by
  have hs : SummaryShown p v (summed p v s) :=
    writeVerdictSummary_shown (s := updOrder p.ticket (OpenOrder.settled p.copy v) s) wf v h1 h2 h8
  have hb : BytesKept (fun a => finishBytes p.ticket a ∨ logBytes a) (summed p v s) (settleCopy p v s) :=
    BytesKept.trans (t := printTest (removePanel p.number (summed p v s))) (.of_mem (by simp))
      (finishIfSettled_bytes _ _)
  refine hs.later hb fun a ha _ hc => ?_
  have := ticketBase_low p.ticket
  unfold finishBytes logBytes at hc
  unfold summaryAt at ha
  omega

/-- The copy settled, the record freed and, with nothing left, the order finished (R62, R75). -/
theorem settleCopy_settles {s : State} {p : Panel} {o : OpenOrder} (v : Verdict)
    (hp : (findPanel p.number s).map (·.profile) = some p.profile) (ho : findOrder p.ticket s = some o)
    (h1 : 1 ≤ p.ticket) (h2 : p.ticket ≤ 256) (hlen : p.copy - 1 < o.copies.length) (wf : Memory.wf s.mem = true)
    (hst : s.ord.entries = [] ∨ ¬ Startable { s with ord := { s.ord with panels := [] } }) :
    (settleCopy p v s).ord.panels = s.ord.panels.eraseP (fun q => q.number == p.number)
    ∧ (settleCopy p v s).lib = s.lib.withSlot p.profile
        { s.lib.slots[p.profile] with inUse := s.lib.slots[p.profile].inUse - 1 }
    ∧ ((∃ k c, o.copies[k]? = some c ∧ k ≠ p.copy - 1 ∧ (c.place = .waiting ∨ c.place = .printed)) →
      (settleCopy p v s).ord.orders = s.ord.orders.map (fun q => if q.ticket = p.ticket then
        { q with
          copies := q.copies.modify (p.copy - 1) fun c => { c with place := .settled },
          rejects := if v.reject = true then q.rejects + 1 else q.rejects } else q)
      ∧ (settleCopy p v s).walker = s.walker)
    ∧ (NothingElse o p.copy →
      (∀ q ∈ (settleCopy p v s).ord.orders, q.ticket ≠ p.ticket)
      ∧ TicketShows p.ticket
        (if (o.copies.eraseIdx (p.copy - 1)).all (fun c => c.place == .settled) = true then .ok else .partly)
        (natWord (if v.reject = true then o.rejects + 1 else o.rejects)) s (settleCopy p v s))
    ∧ ChangesOnly [.mem, .ord, .lib, .walker, .host] s (settleCopy p v s) := by
  have hfree : removePanel p.number (summed p v s) = releaseSlot p.profile { summed p v s with
      ord := { (summed p v s).ord with panels := s.ord.panels.eraseP fun q => q.number == p.number } } :=
    removePanel_found (s := summed p v s) hp
  have hquiet : printTest (removePanel p.number (summed p v s)) = removePanel p.number (summed p v s) := by
    rw [hfree]
    refine printTest_unstartable (hst.imp id fun hn hs => hn ?_)
    obtain ⟨g1, g2, _, g4, g5⟩ := hs
    exact ⟨g1, g2, by simp, g4, g5⟩
  have hfound : findOrder p.ticket (removePanel p.number (summed p v s)) = some (o.settled p.copy v) := by
    rw [hfree]
    exact findOrder_updOrder (f := OpenOrder.settled p.copy v) (fun _ => rfl) ho
  have hwf : Memory.wf (removePanel p.number (summed p v s)).mem = true := by
    rw [hfree]
    exact Memory.putAll_wf wf _ _
  have hframe : ChangesOnly [.mem, .ord, .lib, .walker, .host] s (removePanel p.number (summed p v s)) := by
    rw [hfree]
    exact .of_all (by simp [samePart, summed])
  have hpanels : (removePanel p.number (summed p v s)).ord.panels
      = s.ord.panels.eraseP fun q => q.number == p.number := by rw [hfree]; rfl
  have hlib : (removePanel p.number (summed p v s)).lib = s.lib.withSlot p.profile
      { s.lib.slots[p.profile] with inUse := s.lib.slots[p.profile].inUse - 1 } := by rw [hfree]; rfl
  have horders : (removePanel p.number (summed p v s)).ord.orders
      = s.ord.orders.map fun q => if q.ticket = p.ticket then q.settled p.copy v else q := by rw [hfree]; rfl
  have hwalker : (removePanel p.number (summed p v s)).walker = s.walker := by rw [hfree]; rfl
  have hhost : (removePanel p.number (summed p v s)).host = s.host := by rw [hfree]; rfl
  have hpos : (removePanel p.number (summed p v s)).pos = s.pos := by rw [hfree]; rfl
  rw [settleCopy_eq, hquiet, finishIfSettled_found hfound]
  generalize removePanel p.number (summed p v s) = u at *
  by_cases hu : (o.settled p.copy v).unsettled = true
  · rw [if_pos hu]
    refine ⟨hpanels, hlib, fun _ => ⟨horders, hwalker⟩, fun hn => ?_, hframe⟩
    obtain ⟨k, c, hc, hk, hplace⟩ := (settled_unsettled o p.copy v).mp hu
    obtain ⟨n1, n2⟩ := hn k c hc hk
    exact (hplace.elim n1 n2).elim
  · rw [if_neg hu]
    refine ⟨?_, ?_, fun hex => absurd ((settled_unsettled o p.copy v).mpr hex) hu, fun _ => ⟨?_, ?_⟩,
      hframe.trans (.of_all (by simp [samePart]))⟩
    · rw [← hpanels]
      simp
    · rw [← hlib]
      simp
    · simp
    · have := finishLong_shows (s := removeOrder p.ticket u) hwf h1 h2 (o.settled p.copy v).code
        (natWord (o.settled p.copy v).rejects)
      rw [settled_code v hlen] at this ⊢
      refine this.stamped ?_ ?_
      · rw [show (removeOrder p.ticket u).pos = u.pos by simp, hpos]
      · rw [show (removeOrder p.ticket u).host = u.host by simp, hhost]

end Sys2Proof.Machine

namespace Sys2Proof.Proofs

open Sys2Proof.Machine

/-- Stage 3 of a verdict (R159). -/
theorem verdict_drift (s : State) (p : Panel) :
    (DriftJudged s p → ∃ step : Int,
        step = max (-5) (min 5
          ((-((deviation s p 0 + deviation s p 1 + deviation s p 2 + deviation s p 3).tdiv 4)).tdiv 4))
        ∧ (driftStage p s).lib = s.lib.withSlot p.profile { s.lib.slots[p.profile] with
            trim := max (-100) (min 100 (s.lib.slots[p.profile].trim + step)) }
        ∧ (driftStage p s).host.written = s.host.written
          + (if step ≠ 0 ∧ (100 ≤ s.lib.slots[p.profile].trim + step
              ∨ s.lib.slots[p.profile].trim + step ≤ -100) then 1 else 0)
        ∧ ChangesOnly [.mem, .lib, .host] s (driftStage p s))
    ∧ (¬ DriftJudged s p → driftStage p s = s) :=
  ⟨fun h => ⟨_, driftStep_judged h, driftStage_moves h rfl⟩, driftStage_still⟩

/-- Stage 4 of a verdict (R52, R160). -/
theorem verdict_mark {s : State} (p : Panel) (v : Verdict) (hj : s.line.jog ≠ .rev) :
    (¬ (v.reject = true ∧ p.rejectMark = true) → markStage p v s = s)
    ∧ (v.reject = true → p.rejectMark = true → s.trig.channels[(0 : Fin 12)].state ≠ .counting →
      markStage p v s = { s with trig := (s.trig.withChannel 0
        { s.trig.channels[(0 : Fin 12)] with
          state := .counting, remaining := 3900, ahead := false }) })
    ∧ (v.reject = true → p.rejectMark = true → s.trig.channels[(0 : Fin 12)].state = .counting →
      Memory.wf s.mem = true → (markStage p v s).trig = s.trig
      ∧ NoticeShown .markSkipped s.line.state (p.number.setWidth 32)
          (natWord s.trig.channels[(0 : Fin 12)].remaining) 0 s (markStage p v s)) := by
  refine ⟨fun h => if_neg h, fun hv hp hc => markStage_marks hj hv hp hc, fun hv hp hc wf => ?_⟩
  rw [markStage_skips hv hp hc]
  exact ⟨rfl, writeNotice_shown wf _ _ _ _⟩

/-- Stage 5 of a verdict (R53, R160). -/
theorem verdict_cut {s : State} {p : Panel} {o : OpenOrder} {last : Prop} {at_ : Word}
    (ho : findOrder p.ticket s = some o) (hcopy : 1 ≤ p.copy) (hj : s.line.jog ≠ .rev)
    (hlast : last ↔ o.cutLast = true ∧ NothingElse o p.copy)
    (hat : at_ = p.fLead.getD 0 + BitVec.ofNat 32 p.length + 250 + 52000) :
    (¬ last → cutStage p s = s)
    ∧ (last → 4 ≤ s.trig.cuts.length → Memory.wf s.mem = true →
      NoticeShown .cutSkipped s.line.state (p.number.setWidth 32) at_ 0 s (cutStage p s)
      ∧ (cutStage p s).host.written = s.host.written + 1
      ∧ ChangesOnly [.mem, .host] s (cutStage p s))
    ∧ (last → s.trig.cuts.length < 4 → ∃ pre post, s.trig.cuts = pre ++ post
      ∧ (cutStage p s).trig.cuts = pre ++ at_ :: post
      ∧ (∀ q ∈ pre, 0 ≤ sdiff at_ q) ∧ (∀ q, post.head? = some q → sdiff at_ q < 0)
      ∧ (cutStage p s).trig.latches = s.trig.latches
      ∧ (∀ c : Fin 12, c ≠ 1 → (cutStage p s).trig.channels[c] = s.trig.channels[c])
      ∧ (pre ≠ [] → s.trig.channels[(1 : Fin 12)].state = .counting →
        (cutStage p s).trig.channels[(1 : Fin 12)] = s.trig.channels[(1 : Fin 12)])
      ∧ (∀ head, (pre ++ at_ :: post).head? = some head →
        pre = [] ∨ s.trig.channels[(1 : Fin 12)].state ≠ .counting →
        (cutStage p s).trig.channels[(1 : Fin 12)].state = .counting
        ∧ ((cutStage p s).trig.channels[(1 : Fin 12)].remaining : Int)
          = max 0 (min 65535 (sdiff head s.pos.x)))
      ∧ ChangesOnly [.trig] s (cutStage p s)) := by
  rw [← cutsAfter_iff hcopy] at hlast
  rw [← cutPosition_eq] at hat
  refine ⟨fun hn => cutStage_still ho fun h => hn (hlast.mpr h), fun hl h4 wf => ?_, fun hl h4 => ?_⟩
  · rw [cutStage_full ho (hlast.mp hl) h4, ← hat]
    exact ⟨writeNotice_shown wf _ _ _ _, rfl, .of_all (by simp [samePart])⟩
  · obtain ⟨pre, post, hs, hi, h1, h2⟩ := insertCut_split at_ s.trig.cuts
    obtain ⟨head, hh⟩ : ∃ head, (pre ++ at_ :: post).head? = some head := by cases pre <;> simp
    have he := cutStage_joins ho (hlast.mp hl) h4 hj hat hs hi h2 hh
    refine ⟨pre, post, hs, ?_, h1, h2, ?_, fun c hc => ?_, fun hp hc => ?_, fun head' hh' hc => ?_, ?_⟩
    · rw [he]
      split <;> rfl
    · rw [he]
      split <;> rfl
    · rw [he]
      split
      · rw [updChannel_channel, if_neg (Ne.symm hc)]
        rfl
      · rfl
    · rw [he, if_neg fun h => h.elim hp fun h => h hc]
      rfl
    · obtain rfl : head = head' := by rw [hh] at hh'; simpa using hh'
      rw [he, if_pos hc, updChannel_channel, if_pos rfl]
      exact ⟨rfl, cutCount_eq s.pos.x head⟩
    · rw [he]
      split <;> exact .of_all (by simp [samePart])

end Sys2Proof.Proofs
end

