-- ==== Sys2Proof/Proofs/VerdictEvents.lean ====
section
/-! PROOFS. The drum step of a verdict: what the step does before it, the event's stages together, and what the
end of the step leaves of them (R40, R47, R155, R159 to R161). -/

-- One thread for the whole file: each waiting thread reserves its stack.
set_option Elab.async false

namespace Sys2Proof.Machine

/-! ## Channels that the step does not fire (R47) -/

/-- A channel that a step is not offered to is as it was, and so is the cut list apart from the knife's. -/
theorem offerStep_other (src : ChanSource) (x : Word) (s : State) {c k : Fin 12} (h : c ≠ k) :
    (offerStep src x s c).trig.channels[k] = s.trig.channels[k] := by
  have hu : ∀ f u, (updChannel c f u).trig.channels[k] = u.trig.channels[k] := fun f u => by
    rw [updChannel_channel, if_neg h]
  have hl : ∀ u, (fireLatches c u).trig.channels[k] = u.trig.channels[k] := fun _ => rfl
  have hcut : c = 1 → ∀ u, (cutFired x u).trig.channels[k] = u.trig.channels[k] := fun h1 u => by
    subst h1
    unfold cutFired
    split
    · rfl
    · exact (updChannel_channel _ _ _ _).trans (if_neg h)
  unfold offerStep
  split
  · split
    · exact hu _ s
    · unfold stepChannel
      split
      · split
        · exact hu _ s
        · unfold fireChannel
          dsimp only
          split
          · next h1 => exact (hcut h1 _).trans ((hl _).trans (hu _ s))
          · exact (hl _).trans (hu _ s)
      · rfl
  · rfl

theorem offerStep_cuts (src : ChanSource) (x : Word) (s : State) {c : Fin 12}
    (h : c ≠ 1 ∨ s.trig.channels[(1 : Fin 12)].state ≠ .counting) :
    (offerStep src x s c).trig.cuts = s.trig.cuts := by
  unfold offerStep
  split
  · split
    · rfl
    · unfold stepChannel
      split
      · next hc =>
        split
        · rfl
        · unfold fireChannel
          dsimp only
          split
          · next h1 =>
            subst h1
            exact absurd hc (h.resolve_left fun hn => hn rfl)
          · rfl
      · rfl
  · rfl

/-- A channel at rest stays at rest. -/
theorem offerStep_rest (src : ChanSource) (x : Word) {s : State} (c : Fin 12) {k : Fin 12}
    (h : s.trig.channels[k].state ≠ .counting) : (offerStep src x s c).trig.channels[k].state ≠ .counting := by
  by_cases hk : c = k
  · subst hk
    unfold offerStep
    split
    · split
      · rw [updChannel_channel, if_pos rfl]
        exact h
      · rw [stepChannel, if_neg h]
        exact h
    · exact h
  · rwa [offerStep_other src x s hk]

theorem offerSteps_other (src : ChanSource) (x : Word) {cs : List (Fin 12)} {k : Fin 12} (h : k ∉ cs) (s : State) :
    (offerSteps src x cs s).trig.channels[k] = s.trig.channels[k] := by
  unfold offerSteps
  induction cs generalizing s with
  | nil => rfl
  | cons c cs ih =>
    rw [List.foldl_cons, ih (fun hm => h (List.mem_cons_of_mem _ hm)),
      offerStep_other src x s fun hc : c = k => h (by rw [← hc]; exact List.mem_cons_self)]

theorem offerSteps_rest (src : ChanSource) (x : Word) (cs : List (Fin 12)) {s : State} {k : Fin 12}
    (h : s.trig.channels[k].state ≠ .counting) : (offerSteps src x cs s).trig.channels[k].state ≠ .counting := by
  unfold offerSteps
  induction cs generalizing s with
  | nil => exact h
  | cons c cs ih => exact ih (offerStep_rest src x c h)

theorem offerSteps_cuts (src : ChanSource) (x : Word) {cs : List (Fin 12)} {s : State}
    (h : (1 : Fin 12) ∉ cs ∨ s.trig.channels[(1 : Fin 12)].state ≠ .counting) :
    (offerSteps src x cs s).trig.cuts = s.trig.cuts := by
  unfold offerSteps
  induction cs generalizing s with
  | nil => rfl
  | cons c cs ih =>
    have hstep : (offerStep src x s c).trig.cuts = s.trig.cuts :=
      offerStep_cuts src x s (h.imp_left fun hn (hc : c = 1) => hn (by rw [hc]; exact List.mem_cons_self))
    rw [List.foldl_cons, ih (h.imp (fun hn hm => hn (List.mem_cons_of_mem _ hm)) (offerStep_rest src x c)), hstep]

/-- A channel at rest is not held for the end of the step (log 10). -/
theorem heldChannels_rest {s : State} {k : Fin 12} (h : s.trig.channels[k].state ≠ .counting) :
    k ∉ heldChannels s := fun hm => by
  have := (List.mem_filter.mp hm).2
  simp [Channel.due, -Fin.getElem_fin, h] at this

/-! ## The step before the event -/

/-- What the counted step and its registration stage leave before the verdict. -/
structure AtVerdict (s b : State) : Prop where
  ord : b.ord = s.ord
  lib : b.lib = s.lib
  x : b.pos.x = s.pos.x + 1
  state : b.line.state = s.line.state
  jog : b.line.jog = s.line.jog
  trig : b.trig = (drumOffered s).trig
  autos : ∀ z : Fin 4, b.tens.zones[z].auto = s.tens.zones[z].auto
  log : LogOnly s b

theorem drumOffered_atVerdict (s : State) : AtVerdict s (drumOffered s) := by
  obtain ⟨h1, h2, h3, h4, h5, _, _, _, h9, h10, h11⟩ := drumOffered_keeps s
  exact ⟨h5, h3, by rw [h4]; rfl, by rw [h2], by rw [h2], rfl, fun z => by rw [h9], .of_same h1 h11 h10⟩

/-- A state with another dose unit. -/
def withDose (u : DoseUnit) (s : State) : State := { s with dose := u }

/-- A crossing moves the cells and the roller under a record that has passed the nip (R87, R88, R114). -/
theorem crossed_atVerdict {s : State} {p : Panel} (hp : s.ord.panels = [p]) (ho : p.state ≠ .onFabric)
    (hcells : ∀ c ∈ s.dose.cells, c.panel ≠ some p.number) (hhome : s.reg.home = none)
    (hspan : spansNip (drumOffered s) p = false) :
    AtVerdict s (rollerStage (crossCells (drumOffered s))) ∧
      (rollerStage (crossCells (drumOffered s))).reg.list = s.reg.list := by
  have hd := drumOffered_atVerdict s
  have hdose : (drumOffered s).dose = s.dose := by simp
  have hreg : (drumOffered s).reg = s.reg := by simp
  have hpanels : (drumOffered s).ord.panels = [p] := by rw [hd.ord, hp]
  have hcross : ∃ u, crossCells (drumOffered s) = withDose u (drumOffered s) := by
    by_cases hs : cellsShift (drumOffered s)
    · have hfold : ((drumOffered s).dose.cells.getLast?.map fun c => folded c p).getD p = p := by
        rw [hdose]
        cases hl : s.dose.cells.getLast? with
        | none => rfl
        | some c => exact if_neg (hcells c (List.mem_of_getLast? hl))
      have he := crossCells_shift hs hpanels ho
      rw [hfold, ← hpanels] at he
      exact ⟨_, he⟩
    · exact ⟨_, crossCells_still hs⟩
  obtain ⟨u, hu⟩ := hcross
  have hroll : rollerStage (withDose u (drumOffered s)) = { withDose u (drumOffered s) with
      reg := { s.reg with position := s.reg.position + rollerMove (withDose u (drumOffered s)) } } := by
    rw [rollerStage_eq, rolled_idle fun q hq => ?_, finishHome]
    · simp only [withDose, hreg, hhome]
    · rw [show (withDose u (drumOffered s)).ord = (drumOffered s).ord from rfl, hpanels, List.mem_singleton] at hq
      subst hq
      exact hspan
  rw [hu, hroll]
  exact ⟨⟨hd.ord, hd.lib, hd.x, hd.state, hd.jog, hd.trig, hd.autos, hd.log.trans (.of_same rfl rfl rfl)⟩, rfl⟩

theorem leavePieces_jog (ps : List Piece) (s : State) : (leavePieces s ps).line.jog = s.line.jog := by
  have hpiece : ∀ p full u, (leavePiece p full u).line.jog = u.line.jog := fun p full u => by
    unfold leavePiece
    cases p.paired <;> cases full <;> rfl
  induction ps generalizing s with
  | nil => rfl
  | cons p ps ih =>
    unfold leavePieces
    split
    · rw [ih, hpiece]
    · rfl

theorem pieceStage_atVerdict {s a : State} (h : AtVerdict s a) : AtVerdict s (pieceStage a) := by
  have hp := leavePieces_afterRoller a.reg.queue a
  refine ⟨?_, ?_, ?_, hp.state.trans h.state, (leavePieces_jog _ a).trans h.jog, ?_,
    fun z => (hp.autos z).trans (h.autos z), h.log.trans hp.log⟩
  · rw [← h.ord]; simp
  · rw [← h.lib]; simp
  · rw [← h.x]; simp
  · rw [← h.trig]; simp

/-- With one record due for its verdict the step's other tests find nothing, and the event is its own. -/
theorem tests_verdict {b : State} {p : Panel} (hp : b.ord.panels = [p]) (hlead : PastLead b p (p.length + 45100))
    (hl : p.length ≤ 60000)
    (hs : p.state = .finished ∨ (p.state = .void ∧ p.travel = some .fabric ∧ p.finalVoid = true)) :
    verdicts (headTest (tailFindings (freeTails (completeDose b)))) = verdictEvent p b := by
  have hone : ∀ {P : Panel → Prop}, P p → ∀ q ∈ b.ord.panels, P q := fun h q hq => by
    rw [hp, List.mem_singleton] at hq
    exact hq ▸ h
  have e1 : completeDose b = b := completeDose_idle (hone fun hc => by
    rcases hs with h | ⟨h, _⟩ <;> rw [h] at hc <;> cases hc.1)
  have e2 : freeTails b = b := freeTails_idle (hone (by
    unfold tailPassed
    rcases hs with h | ⟨h, _, hf⟩
    · simp [h]
    · simp [h, hf]))
  have e3 : tailFindings b = b := tailFindings_idle (hone (hlead.tailAt (by omega) (by omega) (by omega)))
  have e4 : headTest b = b := headTest_idle (hone (hlead.inStrip (by omega) (by omega) (.inr (by omega))))
  have hdue : verdictDue b p = true := by
    unfold verdictDue
    rw [hlead.leadReached (by omega) (by omega), decide_eq_true (Nat.le_refl _)]
    rcases hs with h | ⟨h, ht, hf⟩
    · simp [h]
    · simp [h, ht, hf]
  have hfind : findPanel p.number b = some p := by simp [findPanel, hp]
  rw [e1, e2, e3, e4, verdicts, hp]
  simp [hdue, insertByLead, verdictOn, hfind]

/-! ## The stages together -/

/-- What a stage writes before the settlement: notices, the slots, and the marker and knife channels. -/
structure StageLeft (s t : State) : Prop where
  log : LogOnly s t
  frame : ChangesOnly [.mem, .lib, .trig, .host] s t

theorem StageLeft.rfl (s : State) : StageLeft s s := ⟨.rfl s, .rfl _ s⟩

theorem StageLeft.trans {s t u : State} (h1 : StageLeft s t) (h2 : StageLeft t u) : StageLeft s u :=
  ⟨h1.log.trans h2.log, h1.frame.trans h2.frame⟩

theorem writeNotice_left (k : NoticeKind) (d1 d2 d3 : Word) (s : State) : StageLeft s (writeNotice k d1 d2 d3 s) :=
  ⟨writeNotice_logOnly k d1 d2 d3 s, .of_all (by simp [samePart])⟩

theorem updChannel_left (c : Fin 12) (f : Channel → Channel) (s : State) : StageLeft s (updChannel c f s) :=
  ⟨.of_same, .of_all (by simp [samePart])⟩

theorem driftStage_left (p : Panel) (s : State) : StageLeft s (driftStage p s) := by
  have hset : ∀ trim, StageLeft s (setTrim p.profile trim s) := fun _ =>
    ⟨.of_same, .of_all (by simp [samePart])⟩
  unfold driftStage
  split
  · unfold noteTrimLimit
    dsimp only
    split
    · exact (hset _).trans (writeNotice_left _ _ _ _ _)
    · exact hset _
  · exact .rfl s

theorem markStage_left {s : State} (h : s.line.jog ≠ .rev) (p : Panel) (v : Verdict) :
    StageLeft s (markStage p v s) := by
  unfold markStage markRequest
  split
  · split
    · exact writeNotice_left _ _ _ _ s
    · rw [startCounting_eq h]
      exact updChannel_left _ _ s
  · exact .rfl s

theorem loadKnife_left {s : State} (h : s.line.jog ≠ .rev) : StageLeft s (loadKnife s) := by
  cases hc : s.trig.cuts with
  | nil =>
    have : loadKnife s = s := by
      unfold loadKnife
      rw [hc]
    rw [this]
    exact .rfl s
  | cons a as =>
    rw [loadKnife_eq h (head := a) (by rw [hc]; rfl)]
    exact updChannel_left _ _ s

theorem cutStage_left {s : State} (h : s.line.jog ≠ .rev) (p : Panel) : StageLeft s (cutStage p s) := by
  have hset : ∀ l, StageLeft s (setCuts l s) := fun _ => ⟨.of_same, .of_all (by simp [samePart])⟩
  unfold cutStage cutRequest
  split
  · exact .rfl s
  · split
    · split
      · exact writeNotice_left _ _ _ _ s
      · dsimp only
        split
        · exact (hset _).trans (loadKnife_left h)
        · exact hset _
    · exact .rfl s

/-- The drift, mark and cut of a verdict event (R159, R160). -/
def staged (p : Panel) (v : Verdict) (s : State) : State := cutStage p (markStage p v (driftStage p s))

theorem staged_left {s : State} (h : s.line.jog ≠ .rev) (p : Panel) (v : Verdict) : StageLeft s (staged p v s) := by
  have h1 := driftStage_left p s
  have h2 := markStage_left (s := driftStage p s) (by simpa using h) p v
  refine (h1.trans h2).trans (cutStage_left ?_ p)
  rw [(h1.trans h2).frame .line (by decide)]
  exact h

/-- A mark request moves no channel but the marker's, and no cut. -/
theorem markStage_others {s : State} (h : s.line.jog ≠ .rev) (p : Panel) (v : Verdict) :
    (markStage p v s).trig.cuts = s.trig.cuts
    ∧ (markStage p v s).trig.channels[(1 : Fin 12)] = s.trig.channels[(1 : Fin 12)] := by
  unfold markStage markRequest
  split
  · split
    · exact ⟨rfl, rfl⟩
    · rw [startCounting_eq h]
      exact ⟨rfl, (updChannel_channel _ _ _ _).trans (if_neg (by decide))⟩
  · exact ⟨rfl, rfl⟩

/-- A cut request moves no channel but the knife's. -/
theorem cutStage_marker {s : State} (h : s.line.jog ≠ .rev) (p : Panel) :
    (cutStage p s).trig.channels[(0 : Fin 12)] = s.trig.channels[(0 : Fin 12)] := by
  have hload : ∀ l, (loadKnife (setCuts l s)).trig.channels[(0 : Fin 12)] = s.trig.channels[(0 : Fin 12)] := by
    intro l
    cases l with
    | nil => rfl
    | cons a as =>
      rw [loadKnife_eq (s := setCuts (a :: as) s) h (head := a) rfl, updChannel_channel, if_neg (by decide)]
      rfl
  unfold cutStage cutRequest
  split
  · rfl
  · split
    · split
      · rfl
      · dsimp only
        split
        · exact hload _
        · rfl
    · rfl

/-- The marker is loaded by a rejected record that asks for a mark (R52). -/
theorem staged_marker {s : State} (h : s.line.jog ≠ .rev) {p : Panel} {v : Verdict} (hv : v.reject = true)
    (hp : p.rejectMark = true) (hc : s.trig.channels[(0 : Fin 12)].state ≠ .counting) :
    (staged p v s).trig.channels[(0 : Fin 12)].state = .counting
    ∧ (staged p v s).trig.channels[(0 : Fin 12)].remaining = 3900 := by
  have hj : (driftStage p s).line.jog ≠ .rev := by simpa using h
  have htrig : (driftStage p s).trig = s.trig := by simp
  have hm := markStage_marks (s := driftStage p s) hj hv hp (by rw [htrig]; exact hc)
  have hjm : (markStage p v (driftStage p s)).line.jog ≠ .rev := by
    rw [(markStage_left hj p v).frame .line (by decide)]
    exact hj
  rw [staged, cutStage_marker hjm, hm, updChannel_channel, if_pos rfl]
  exact ⟨rfl, rfl⟩

/-- With an empty list a last copy that asks for a cut loads it, and one that does not
leaves the list (R53, R160). -/
theorem staged_cut {s : State} (h : s.line.jog ≠ .rev) {p : Panel} {o : OpenOrder} (v : Verdict)
    (ho : findOrder p.ticket s = some o) (hk : 1 ≤ p.copy) (hcuts : s.trig.cuts = []) :
    (o.cutLast = true → NothingElse o p.copy → (staged p v s).trig.cuts = [cutPosition p]
      ∧ (staged p v s).trig.channels[(1 : Fin 12)].state = .counting
      ∧ (staged p v s).trig.channels[(1 : Fin 12)].remaining = cutCount s.pos.x (cutPosition p))
    ∧ (o.cutLast = false → (staged p v s).trig.cuts = []) := by
  have hj : (driftStage p s).line.jog ≠ .rev := by simpa using h
  obtain ⟨m1, m2⟩ := markStage_others hj p v
  have htrig : (driftStage p s).trig = s.trig := by simp
  rw [htrig] at m1 m2
  have hleft := (driftStage_left p s).trans (markStage_left hj p v)
  have hjm : (markStage p v (driftStage p s)).line.jog ≠ .rev := by
    rw [hleft.frame .line (by decide)]
    exact h
  have hfound : findOrder p.ticket (markStage p v (driftStage p s)) = some o := by
    unfold findOrder
    rw [hleft.frame .ord (by decide)]
    exact ho
  refine ⟨fun h1 h2 => ?_, fun h1 => ?_⟩
  · have he := cutStage_joins (s := markStage p v (driftStage p s)) (pre := []) (post := []) (head := cutPosition p)
      hfound ((cutsAfter_iff hk).mpr ⟨h1, h2⟩) (by rw [m1, hcuts]; decide) hjm rfl (by rw [m1, hcuts]; rfl)
      (by rw [m1, hcuts]; rfl) (by simp) rfl
    have hpos : (markStage p v (driftStage p s)).pos = s.pos := by simp
    rw [staged, he, if_pos (.inl rfl), updChannel_channel, if_pos rfl, hpos]
    exact ⟨rfl, rfl, by simp only [Channel.start]⟩
  · rw [staged, cutStage_still hfound (by simp [OpenOrder.cutsAfter, h1]), m1, hcuts]

/-! ## What the verdict and the drift read -/

theorem DriftJudged.congr {s t : State} (h : LogAndTicketsOnly s t) (p : Panel) :
    DriftJudged t p ↔ DriftJudged s p := by
  unfold DriftJudged checkPresent driftEnable dMin dMax
  rw [h.prof_eq _ (by decide), h.prof_eq _ (by decide), h.prof_eq _ (by decide), h.prof_eq _ (by decide)]

theorem LogAndTicketsOnly.deviations {s t : State} (h : LogAndTicketsOnly s t) (p : Panel) :
    deviations t p = deviations s p := by
  have hd : ∀ c, c < 4 → deviation t p c = deviation s p c := fun c hc => by
    unfold deviation expected
    rw [h.prof_eq _ (by omega)]
  have hj : colourJudged t p = colourJudged s p := by
    unfold colourJudged checkPresent
    rw [h.prof_eq _ (by decide)]
  unfold Machine.deviations
  rw [hj]
  split
  · exact List.map_congr_left fun c hc => hd c (List.mem_range.mp hc)
  · rfl

theorem LogAndTicketsOnly.verdictOf {s t : State} (h : LogAndTicketsOnly s t) (p : Panel) :
    verdictOf t p = verdictOf s p := by
  have hj : colourJudged t p = colourJudged s p := by
    unfold colourJudged checkPresent
    rw [h.prof_eq _ (by decide)]
  have hb : ∀ sign, beyond t p sign = beyond s p sign := fun sign => by
    have hc : ∀ c ∈ List.range 4, deviation t p c = deviation s p c
        ∧ tolerance t p.profile c = tolerance s p.profile c :=
      fun c hc => by
        have hc := List.mem_range.mp hc
        unfold deviation expected tolerance
        rw [h.prof_eq _ (by omega), h.prof_eq _ (by omega)]
        exact ⟨rfl, rfl⟩
    unfold beyond
    rw [hj, Bool.eq_iff_iff, Bool.and_eq_true, Bool.and_eq_true, List.any_eq_true, List.any_eq_true]
    refine and_congr_right fun _ => exists_congr fun c => and_congr_right fun hm => ?_
    obtain ⟨h1, h2⟩ := hc c hm
    rw [h1, h2]
  have hdose : doseReasons t p = doseReasons s p := by
    unfold doseReasons dMin dMax
    rw [h.prof_eq _ (by decide), h.prof_eq _ (by decide)]
  have hm : misregistered t p = misregistered s p := by
    unfold misregistered regTolerance
    rw [h.prof_eq _ (by decide)]
  have hw : warningsOf t p = warningsOf s p := by
    unfold warningsOf checkPresent
    rw [h.prof_eq _ (by decide)]
  have hr : reasonsOf t p = reasonsOf s p := by
    unfold reasonsOf
    rw [hb, hb, hdose, hm]
  unfold Machine.verdictOf
  rw [hr, hw, h.deviations p]

/-! ## The event whole -/

theorem printTest_started (s : State) : printTest s = s ∨ ∃ e rest o, printTest s = startPrintOf e rest o s := by
  unfold printTest
  split
  · unfold startPrint
    split
    · exact .inl rfl
    · split
      · exact .inl rfl
      · exact .inr ⟨_, _, _, rfl⟩
  · exact .inl rfl

theorem printTest_fLead {s : State} (h : s.ord.panels = []) : ∀ q ∈ (printTest s).ord.panels, q.fLead = none := by
  rcases printTest_started s with he | ⟨e, rest, o, he⟩ <;> rw [he]
  · simp [h]
  · rw [startPrintOf_ord, h]
    simp [newPanel]

theorem printTest_trim (s : State) (i : Fin 16) : (printTest s).lib.slots[i].trim = s.lib.slots[i].trim := by
  rcases printTest_started s with he | ⟨e, rest, o, he⟩ <;> rw [he]
  rw [startPrintOf_slot]

theorem releaseSlot_trim (j i : Fin 16) (s : State) : (releaseSlot j s).lib.slots[i].trim = s.lib.slots[i].trim := by
  unfold releaseSlot updSlot
  simp only [Fin.getElem_fin, Vector.getElem_set]
  split
  · next h =>
    obtain rfl : j = i := Fin.ext h
    rfl
  · rfl

/-- A settlement moves no trim (R30). -/
theorem settleCopy_trim (p : Panel) (v : Verdict) (s : State) (i : Fin 16) :
    (settleCopy p v s).lib.slots[i].trim = s.lib.slots[i].trim := by
  have hremove : (removePanel p.number (summed p v s)).lib.slots[i].trim = s.lib.slots[i].trim := by
    unfold removePanel
    split
    · rfl
    · exact releaseSlot_trim _ _ _
  rw [settleCopy_eq, show ∀ u, (finishIfSettled p.ticket u).lib = u.lib by simp, printTest_trim, hremove]

theorem settleCopy_panels {s : State} {p q : Panel} (v : Verdict) (h : s.ord.panels = [q])
    (hq : q.number = p.number) :
    ∀ r ∈ (settleCopy p v s).ord.panels, r.fLead = none := by
  have hfind : findPanel p.number (summed p v s) = some q := by
    unfold findPanel
    rw [show (summed p v s).ord.panels = [q] from h]
    simp [hq]
  have hnone : (removePanel p.number (summed p v s)).ord.panels = [] := by
    unfold removePanel
    rw [hfind]
    show (summed p v s).ord.panels.eraseP _ = []
    rw [show (summed p v s).ord.panels = [q] from h]
    simp [hq]
  rw [settleCopy_eq, (finishIfSettled_print _ _).1]
  exact printTest_fLead hnone

/-- The record with its verdict. -/
def judged (p : Panel) (v : Verdict) (s : State) : State :=
  updPanel p.number (fun q => { q with verdict := some v }) s

theorem verdictEvent_eq (p : Panel) (s : State) : verdictEvent p s
    = settleCopy p (verdictOf s p) (staged p (verdictOf s p) (judged p (verdictOf s p) s)) := rfl

/-- The trim that a verdict leaves is the drift step's on the counts before the step (R159). -/
theorem driftStage_trim {s u : State} (p : Panel) (hm : LogAndTicketsOnly s u) (hl : u.lib = s.lib) :
    (driftStage p u).lib.slots[p.profile].trim = (driftStage p s).lib.slots[p.profile].trim := by
  by_cases h : DriftJudged s p
  · have h' := (DriftJudged.congr hm p).mpr h
    rw [(driftStage_moves h' rfl).1, (driftStage_moves h rfl).1, hm.deviations p, hl]
  · rw [driftStage_still h, driftStage_still fun h' => h ((DriftJudged.congr hm p).mp h'), hl]

/-- At its verdict point a record's cut position lies 7150 counts ahead (R53, R155, R160). -/
theorem cutCount_atVerdict {p : Panel} {f : Word} (hf : p.fLead = some f) :
    cutCount (f + BitVec.ofNat 32 (p.length + 45100)) (cutPosition p) = 7150 := by
  have hd : sdiff (cutPosition p) (f + BitVec.ofNat 32 (p.length + 45100)) = 7150 := by
    have hs := sdiff_ahead (f + BitVec.ofNat 32 p.length) (a := 52250) (b := 45100) (by omega) (by omega)
    rw [BitVec.add_assoc, BitVec.add_assoc, ← BitVec.ofNat_add, ← BitVec.ofNat_add] at hs
    rw [cutPosition, hf, Option.getD_some, Nat.add_assoc, hs]
    rfl
  have := cutCount_eq (f + BitVec.ofNat 32 (p.length + 45100)) (cutPosition p)
  rw [hd] at this
  omega

/-- What the verdict event of the one live record leaves. -/
structure EventLeft (s : State) (p : Panel) (o : OpenOrder) (v : Verdict) (c : State) : Prop where
  summary : SummaryShown p v c
  panels : ∀ q ∈ c.ord.panels, q.fLead = none
  trim : c.lib.slots[p.profile].trim = (driftStage p s).lib.slots[p.profile].trim
  marker : v.reject = true → p.rejectMark = true → s.trig.channels[(0 : Fin 12)].state ≠ .counting →
    c.trig.channels[(0 : Fin 12)].state = .counting ∧ c.trig.channels[(0 : Fin 12)].remaining = 3900
  knife : s.trig.cuts = [] → s.trig.channels[(1 : Fin 12)].state ≠ .counting →
    (o.cutLast = true → NothingElse o p.copy → c.trig.cuts = [cutPosition p]
      ∧ c.trig.channels[(1 : Fin 12)].state = .counting
      ∧ c.trig.channels[(1 : Fin 12)].remaining = cutCount (s.pos.x + 1) (cutPosition p))
    ∧ (o.cutLast = false → c.trig.cuts = [])
  finished : s.ord.entries = [] → c.ord.panels = [] ∧ (NothingElse o p.copy →
    (∀ q ∈ c.ord.orders, q.ticket ≠ p.ticket) ∧ TicketShows p.ticket
      (if (o.copies.eraseIdx (p.copy - 1)).all (fun c => c.place == .settled) = true then .ok else .partly)
      (natWord (if v.reject = true then o.rejects + 1 else o.rejects)) c c)
  state : c.line.state = s.line.state
  autos : ∀ z : Fin 4, c.tens.zones[z].auto = s.tens.zones[z].auto

theorem verdictEvent_left {s b : State} {p : Panel} {o : OpenOrder} (hb : AtVerdict s b)
    (hp : s.ord.panels = [p]) (ho : findOrder p.ticket s = some o) (h1 : 1 ≤ p.ticket) (h2 : p.ticket ≤ 256)
    (k1 : 1 ≤ p.copy) (k2 : p.copy ≤ o.copies.length) (k8 : o.copies.length ≤ 8) (wf : Memory.wf s.mem = true)
    (hj : s.line.jog ≠ .rev) : EventLeft s p o (verdictOf s p) (verdictEvent p b) := by
  obtain ⟨kb, hkb⟩ := hb.log.reported
  have hv : verdictOf b p = verdictOf s p := hkb.logAndTickets.verdictOf p
  rw [verdictEvent_eq, hv]
  generalize verdictOf s p = v
  have hu : LogOnly s (judged p v b) := hb.log.trans (.of_same rfl rfl rfl)
  have hupanels : (judged p v b).ord.panels = [{ p with verdict := some v }] := by
    simp [judged, updPanel, mapPanels, hb.ord, hp]
  have huorders : (judged p v b).ord.orders = s.ord.orders := by
    rw [← hb.ord]
    rfl
  have huentries : (judged p v b).ord.entries = s.ord.entries := by
    rw [← hb.ord]
    rfl
  have hujog : (judged p v b).line.jog ≠ .rev := by
    rw [show (judged p v b).line = b.line by simp [judged], hb.jog]
    exact hj
  have hutrig : (judged p v b).trig = (drumOffered s).trig := hb.trig
  have hulib : (judged p v b).lib = s.lib := hb.lib
  have hux : (judged p v b).pos.x = s.pos.x + 1 := hb.x
  have hustate : (judged p v b).line.state = s.line.state := hb.state
  have huautos : ∀ z : Fin 4, (judged p v b).tens.zones[z].auto = s.tens.zones[z].auto := hb.autos
  generalize judged p v b = u at *
  have hc := staged_left hujog p v
  have hcord : (staged p v u).ord = u.ord := hc.frame .ord (by decide)
  have hcline : (staged p v u).line = u.line := hc.frame .line (by decide)
  have hctens : (staged p v u).tens = u.tens := hc.frame .tens (by decide)
  have hclib : (staged p v u).lib = (driftStage p u).lib := by simp [staged]
  have huo : findOrder p.ticket u = some o := by
    unfold findOrder
    rw [huorders]
    exact ho
  have hco : findOrder p.ticket (staged p v u) = some o := by
    unfold findOrder
    rw [hcord]
    exact huo
  obtain ⟨ku, hku⟩ := hu.reported
  obtain ⟨kc, hkc⟩ := hc.log.reported
  have hcwf : Memory.wf (staged p v u).mem = true := hkc.wf (hku.wf wf)
  have htrig : (settleCopy p v (staged p v u)).trig = (staged p v u).trig := by simp
  refine ⟨settleCopy_shown hcwf v h1 h2 (by omega),
    settleCopy_panels v (q := { p with verdict := some v }) (by rw [hcord, hupanels]) rfl, ?_,
    fun hr hm hn => ?_, fun hcuts hn => ?_, fun he => ?_, ?_, fun z => ?_⟩
  · rw [settleCopy_trim, hclib, driftStage_trim p hku.logAndTickets hulib]
  · rw [htrig]
    exact staged_marker hujog hr hm (by rw [hutrig]; exact offerSteps_rest _ _ _ hn)
  · have := staged_cut hujog v huo k1 (by
      rw [hutrig]
      exact (offerSteps_cuts .drum (s.pos.x + 1) (s := countDrum s) (.inr hn)).trans hcuts)
    rwa [hux, ← htrig] at this
  · obtain ⟨e1, _, _, e4, _⟩ := settleCopy_settles v (s := staged p v u) (p := p) (by
      unfold findPanel
      rw [hcord, hupanels]
      simp) hco h1 h2 (by omega) hcwf (.inl (by rw [hcord, huentries, he]))
    refine ⟨by rw [e1, hcord, hupanels]; simp, fun hn => ?_⟩
    obtain ⟨g1, g2⟩ := e4 hn
    obtain ⟨kf, hkf⟩ := settleCopy_reported p v (staged p v u)
    exact ⟨g1, g2.stamped (by simp) hkf.host.clock.symm⟩
  · rw [show (settleCopy p v (staged p v u)).line = (staged p v u).line by simp, hcline, hustate]
  · rw [show (settleCopy p v (staged p v u)).tens = (staged p v u).tens by simp, hctens, huautos]

/-! ## The end of the step -/

/-- The end of a step writes notices alone, where no auto-zero can end at its readiness test. -/
theorem drumEnd_log {c : State} (h : c.line.state = .warm ∨ c.line.state = .ready →
    ∀ z : Fin 4, c.tens.zones[z].auto = none) (old new : Word) (held : List (Fin 12)) :
    LogOnly c (drumEnd old new held c) := by
  obtain ⟨k1, k2, _, _, _, _, _, k8, k9⟩ := drumTaken_keeps old new held c
  refine LogOnly.trans (t := drumTaken old new held c) (.of_same k1 k9 k8) (retest_lawful fun hs z => ?_)
  rw [k2] at hs
  rw [drumTaken, show ∀ u : State, (offerSteps .drum new held u).tens = u.tens by simp, holdTests_autos,
    show (leaveSplices c).tens = c.tens by simp, h hs z]

/-- The end of a step moves no channel that is not held, and no cut but the held knife's (R47, R53). -/
theorem drumEnd_trig (old new : Word) (held : List (Fin 12)) (c : State) :
    (∀ k, k ∉ held → (drumEnd old new held c).trig.channels[k] = c.trig.channels[k])
    ∧ ((1 : Fin 12) ∉ held → (drumEnd old new held c).trig.cuts = c.trig.cuts) := by
  have hc : (drumHoldZones.foldl (holdTest old new) (leaveSplices c)).trig = c.trig := by simp [drumHoldZones]
  unfold drumEnd drumTaken
  rw [show ∀ u, (retest u).trig = u.trig by simp]
  refine ⟨fun k hk => ?_, fun h1 => ?_⟩
  · rw [offerSteps_other _ _ hk, hc]
  · rw [offerSteps_cuts _ _ (.inl h1), hc]

theorem drumEnd_stamps (old new : Word) (held : List (Fin 12)) (c : State) :
    (drumEnd old new held c).pos.x = c.pos.x ∧ (drumEnd old new held c).host.clock = c.host.clock := by
  have h := drumEnd_ended old new held c
  obtain ⟨k, hk⟩ := h.host
  exact ⟨h.x, hk.host.clock⟩

end Sys2Proof.Machine

namespace Sys2Proof.Proofs

open Sys2Proof.Machine

/-- The drum step that brings X to a record's verdict point is its verdict event, and the end of the step. -/
theorem drumStep_verdict {s : State} {p : Panel} {f : Word} {o : OpenOrder} (hp : s.ord.panels = [p])
    (ho : findOrder p.ticket s = some o) (hf : p.fLead = some f)
    (hx : s.pos.x + 1 = f + BitVec.ofNat 32 (p.length + 45100))
    (hs : p.state = .finished ∨ (p.state = .void ∧ p.travel = some .fabric ∧ p.finalVoid = true))
    (hlist : s.reg.list = []) (hhome : s.reg.home = none) (hcells : ∀ c ∈ s.dose.cells, c.panel ≠ some p.number)
    (h1 : 1 ≤ p.ticket) (h2 : p.ticket ≤ 256) (k1 : 1 ≤ p.copy) (k2 : p.copy ≤ o.copies.length)
    (k8 : o.copies.length ≤ 8) (hl : p.length ≤ 60000) (wf : Memory.wf s.mem = true) (hj : s.line.jog ≠ .rev) :
    ∃ c, EventLeft s p o (verdictOf s p) c ∧ exec (.drumStep .forward) s = .next (announce false false s
      (drumEnd s.pos.x (s.pos.x + 1) (heldChannels s) c)) := by
  have hlead : ∀ u : State, u.pos.x = s.pos.x + 1 → PastLead u p (p.length + 45100) := fun u hu =>
    ⟨f, hf, by rw [hu, hx]⟩
  have hspan : spansNip (drumOffered (clearSent s)) p = false := by
    unfold spansNip
    rw [(hlead _ (drumOffered_atVerdict (clearSent s)).x).bodyHolds (by omega) (by omega),
      decide_eq_false (by omega), Bool.and_false]
  have hnot : p.state ≠ .onFabric := by rcases hs with h | ⟨h, _⟩ <;> simp [h]
  have hstage : ∃ a, (if s.pos.phase = 999 then rollerStage (crossCells (drumOffered (clearSent s)))
      else drumOffered (clearSent s)) = a ∧ AtVerdict (clearSent s) a ∧ a.reg.list = [] := by
    by_cases hphase : s.pos.phase = 999
    · rw [if_pos hphase]
      obtain ⟨g1, g2⟩ := crossed_atVerdict (s := clearSent s) hp hnot hcells hhome hspan
      exact ⟨_, rfl, g1, g2.trans hlist⟩
    · rw [if_neg hphase]
      exact ⟨_, rfl, drumOffered_atVerdict (clearSent s), by simpa using hlist⟩
  obtain ⟨a, ha, hat, halist⟩ := hstage
  have harr : arrivalStage a = a := by
    unfold arrivalStage
    rw [halist]
    rfl
  have hb := pieceStage_atVerdict hat
  have hex := exec_drumRest s
  rw [ha, drumRest_eq, harr, tests_verdict (by rw [hb.ord]; exact hp) (hlead _ hb.x) hl hs] at hex
  have he := verdictEvent_left hb (s := clearSent s) (o := o) hp ho h1 h2 k1 k2 k8 wf hj
  exact ⟨_, ⟨he.summary, he.panels, he.trim.trans (driftStage_trim p (.of_mem rfl) rfl), he.marker,
    he.knife, he.finished, he.state, he.autos⟩, hex⟩

/-- Settles O55, stage by stage, and then the drum step as the event of its one record. -/
theorem verdictEvent : Obligations.VerdictEvent := by
  refine ⟨verdict_drift, fun s p v hj => verdict_mark p v hj, fun s p o last at_ ho hk hj hlast hat =>
    verdict_cut ho hk hj hlast hat, fun s p v o hp ho h1 h2 k1 k2 k8 wf => ?_,
    fun s p f o v hp ho hf hx hv hs hlist hhome hcells h1 h2 k1 k2 k8 l1 l2 wf hj hz => ?_⟩
  · obtain ⟨k, hk⟩ := settleCopy_reported p v s
    have hsum := settleCopy_shown wf v h1 h2 (show p.copy ≤ 8 by omega)
    exact ⟨_, rfl, hsum.number, hsum.outcome, hsum.warnings, hsum.reasons, hsum.doseMin, hsum.doseMax, hsum.error,
      hsum.stretch, hsum.deviation, hk.logAndTickets, fun hst => settleCopy_settles v (by rw [hp]; rfl) ho h1 h2
        (by omega) wf hst⟩
  · obtain ⟨c, he, hex⟩ := drumStep_verdict hp ho hf hx hs hlist hhome hcells h1 h2 k1 k2 k8 l2 wf hj
    rw [← hv] at he
    have hlog := drumEnd_log (c := c) (fun hw z => by
      rw [he.autos]
      rw [he.state] at hw
      exact hz.noAutos (by rcases hw with h | h <;> simp [h]) (by rcases hw with h | h <;> simp [h]) z)
      s.pos.x (s.pos.x + 1) (heldChannels s)
    have hend := drumEnd_ended s.pos.x (s.pos.x + 1) (heldChannels s) c
    obtain ⟨tchan, tcuts⟩ := drumEnd_trig s.pos.x (s.pos.x + 1) (heldChannels s) c
    obtain ⟨hsx, hsc⟩ := drumEnd_stamps s.pos.x (s.pos.x + 1) (heldChannels s) c
    generalize drumEnd s.pos.x (s.pos.x + 1) (heldChannels s) c = w at *
    have hann : ∀ u, (announce false false s u).ord = u.ord ∧ (announce false false s u).lib = u.lib
        ∧ (announce false false s u).trig = u.trig ∧ (announce false false s u).pos = u.pos
        ∧ (announce false false s u).host = u.host := by simp
    have hall : LogOnly c (announce false false s w) := hlog.trans (.of_same)
    obtain ⟨aord, alib, atrig, apos, ahost⟩ := hann w
    have hsum : SummaryShown p v (announce false false s w) := he.summary.later hall.bytes fun a ha _ hl => by
      have := ticketBase_low p.ticket
      unfold summaryAt at ha
      unfold logBytes at hl
      omega
    refine ⟨_, hex, ?_, hsum.number, hsum.outcome, hsum.warnings, hsum.reasons, hsum.doseMin, hsum.doseMax,
      hsum.error, hsum.stretch, hsum.deviation, ?_, fun hr hm hn => ?_, fun hcuts hn => ⟨fun hc hlast => ?_,
      fun hc => ?_⟩, fun hent => ⟨?_, fun hlast => ?_⟩⟩
    · rw [aord, hend.ord]
      exact he.panels
    · rw [alib, hend.lib, he.trim]
    · rw [atrig, tchan _ (heldChannels_rest hn)]
      exact he.marker hr hm hn
    · obtain ⟨g1, g2, g3⟩ := (he.knife hcuts hn).1 hc hlast
      rw [hx] at g3
      rw [atrig, tcuts (heldChannels_rest hn), tchan _ (heldChannels_rest hn), g1, g3, cutCount_atVerdict hf,
        cutPosition_eq, hf, Option.getD_some]
      exact ⟨rfl, g2, rfl⟩
    · rw [atrig, tcuts (heldChannels_rest hn)]
      exact (he.knife hcuts hn).2 hc
    · rw [aord, hend.ord]
      exact (he.finished hent).1
    · obtain ⟨g1, g2⟩ := (he.finished hent).2 hlast
      refine ⟨by rw [aord, hend.ord]; exact g1, (hall.shows g2).stamped ?_ ?_⟩
      · rw [apos, hsx]
      · rw [ahost, hsc]

end Sys2Proof.Proofs
end
